-- ==== Sys2Proof/Word.lean ====
section
/-! DEFINITION. The plainest words of the part: a byte, a decimal digit, a string of digits, a character as a serial
line receives it (00, "Digit fields"; 12.2). -/

namespace Sys2Proof

/-- One byte, as it stands on a line or in the configuration memory. -/
abbrev Byte := BitVec 8

/-- One decimal digit. -/
abbrev Digit := Fin 10

/-- A digit field: serials have 10 digits, order references 8, article codes 6, dispatch codes 13 (00). -/
abbrev Digits := List Digit

/-- A character received on a serial line. `none` is a character received with a framing error, which R73 replaces
by a character that is no digit and R155 lets spoil its line. -/
abbrev RxChar := Option Byte

end Sys2Proof
end

