-- ==== Sys2Proof/Syntax.lean ====
section
/-! DEFINITION. The commands (events) of the part: one constructor for each row of spec/opcode_table.json, in the
table's order, with the data the event brings. -/

namespace Sys2Proof

/-- The identity of a record: the node that made it and that node's sequence number (1.2). -/
structure Track where
  origin : Nat
  seq : Nat
  deriving DecidableEq, Repr

/-- The raw value of each converter input at one scan, a signed 16-bit number (R85). Inputs without an active entry
are not looked at. -/
structure RawScan where
  lc1 : BitVec 16
  lc2 : BitVec 16
  lc3 : BitVec 16
  lc4 : BitVec 16
  exc : BitVec 16
  deriving DecidableEq, Repr

/-- The five inputs of the Route Unit (R167). -/
inductive LaneInput
  | lane1Full | lane1Shut | lane2Full | lane2Shut | spurFull
  deriving DecidableEq, Repr

/-- The commands of the part. -/
inductive Instr
  /-- RESET: power-on or RESET# asserted (R177). -/
  | reset
  /-- RESET_RELEASE: RESET# negated with power present (R177). -/
  | resetRelease
  /-- IMAGE_READ_COMPLETE: the read ends; `image` is what the configuration memory delivers from address 0 (R178). -/
  | imageReadComplete (image : List Byte)
  /-- FRAME_RECEIVED: the line returned to idle after `bytes`, header, payload and CRC (R56, R63). -/
  | frameReceived (bytes : List Byte)
  /-- HOLD_RECEIVED: the head of the receive queue, a HOLD, is handed on (R47, R64). -/
  | holdReceived
  /-- RESUME_RECEIVED (R47). -/
  | resumeReceived
  /-- CLEAR_RECEIVED (R23). -/
  | clearReceived
  /-- OFFER_RECEIVED (R10). -/
  | offerReceived
  /-- ACCEPT_RECEIVED (R35). -/
  | acceptReceived
  /-- RELEASED_RECEIVED (R37). -/
  | releasedReceived
  /-- TAKEN_RECEIVED (R17). -/
  | takenReceived
  /-- LOST_RECEIVED (R17). -/
  | lostReceived
  /-- MANIFEST_RECEIVED (R72). -/
  | manifestReceived
  /-- HELLO_RECEIVED (R47, R51, R52). -/
  | helloReceived
  /-- QUERY_RECEIVED (R66). -/
  | queryReceived
  /-- LINE_IDLE: the line is idle and an attempt may begin (R59). -/
  | lineIdle
  /-- ATTEMPT_COUNTED_SENT (R58). -/
  | attemptCountedSent
  /-- LOST_ARBITRATION (R57). -/
  | lostArbitration
  /-- ATTEMPT_ERRORED (R58). -/
  | attemptErrored
  /-- ENTRY_EYE_BLOCKS (R38). -/
  | entryEyeBlocks
  /-- ENTRY_EYE_CLEARS (R26). -/
  | entryEyeClears
  /-- POSITION_EYE_BLOCKS (R39). -/
  | positionEyeBlocks
  /-- POSITION_EYE_CLEARS (R26). -/
  | positionEyeClears
  /-- EXIT_EYE_BLOCKS (R26). -/
  | exitEyeBlocks
  /-- EXIT_EYE_CLEARS (R36). -/
  | exitEyeClears
  /-- SAFE_ASSERTED (R28). -/
  | safeAsserted
  /-- SAFE_RELEASED (R28). -/
  | safeReleased
  /-- HOLD_SW_CHANGE: the panel hold switch turned on or off (R48). -/
  | holdSwChange (on : Bool)
  /-- ACK_PRESS: ACK# becoming asserted (R42). -/
  | ackPress
  /-- OFFER_REPEAT_EXPIRY (R33). -/
  | offerRepeatExpiry
  /-- ARRIVAL_TIMER_EXPIRY (R18). -/
  | arrivalTimerExpiry
  /-- POSITION_TIMER_EXPIRY (R41). -/
  | positionTimerExpiry
  /-- RELEASE_TIMER_EXPIRY (R40). -/
  | releaseTimerExpiry
  /-- TAKEN_TIMER_EXPIRY: of the OUTBOUND entry with this track (R17; one timer per OUTBOUND entry, Table 2-3). -/
  | takenTimerExpiry (track : Track)
  /-- CODE_READER_LINE: a CR completes the line of these characters on CRD_RX (R73): the table has no row for one
character, so the command brings all of the line that the port received since the last CR or, where a window opened or
closed within the line, only what it received after that (DESIGN CHOICE, log 30). -/
  | codeReaderLine (chars : List RxChar)
  /-- TAG_WAIT_EXPIRY (R74). -/
  | tagWaitExpiry
  /-- MANIFEST_WAIT_EXPIRY (R79). -/
  | manifestWaitExpiry
  /-- SCAN_START (R85). -/
  | scanStart
  /-- SCAN_COMPLETE: the scan gave these raw values (R85). -/
  | scanComplete (raw : RawScan)
  /-- START_ZERO_TIMER_EXPIRY (R93). -/
  | startZeroTimerExpiry
  /-- ZERO_DUE_EXPIRY (R95). -/
  | zeroDueExpiry
  /-- SETTLE_TIMER_EXPIRY (R101). -/
  | settleTimerExpiry
  /-- ENCODER_STEP: a pulse on ENC_STEP; bit k of `beams` is set while beam k is blocked (R107, R108). -/
  | encoderStep (beams : BitVec 40)
  /-- WR_READY_RISES (R145). -/
  | wrReadyRises
  /-- WR_READY_FALLS (R141). -/
  | wrReadyFalls
  /-- WR_RUN_RISES (R142). -/
  | wrRunRises
  /-- WR_DONE_RISES (R143). -/
  | wrDoneRises
  /-- WR_FAULT_RISES (R144). -/
  | wrFaultRises
  /-- WR_FAULT_FALLS (R141). -/
  | wrFaultFalls
  /-- WR_FILM_RISES (R146). -/
  | wrFilmRises
  /-- START_TIMER_EXPIRY (R142). -/
  | startTimerExpiry
  /-- WRAP_TIMER_EXPIRY (R143). -/
  | wrapTimerExpiry
  /-- WR_ABORT_PULSE_END (R148, R149): `film` is the level of WR_FILM that the event finds, where the sender says it (R146, DESIGN
CHOICE, log 6). -/
  | wrAbortPulseEnd (film : Option Bool := none)
  /-- HISTORY_ENTRY_LEAVES_WINDOW: the oldest entry in the print window leaves it (R157). -/
  | historyEntryLeavesWindow
  /-- PD_RECEIVED: a CR completes this line on PRN_RX, a PD (R155, R158). As for CODE_READER_LINE the command brings all of the line,
or what came of it after a CLEAR (DESIGN CHOICE, log 33); so do the four rows below. -/
  | pdReceived (line : List RxChar)
  /-- AP_RECEIVED (R155, R159). -/
  | apReceived (line : List RxChar)
  /-- MS_RECEIVED (R155, R161). -/
  | msReceived (line : List RxChar)
  /-- FT_RECEIVED (R155, R162). -/
  | ftReceived (line : List RxChar)
  /-- RY_RECEIVED (R155, R163). -/
  | ryReceived (line : List RxChar)
  /-- PRINT_TIMER_EXPIRY (R158). -/
  | printTimerExpiry
  /-- APPLY_TIMER_EXPIRY (R159). -/
  | applyTimerExpiry
  /-- VERIFY_TIMER_EXPIRY (R160). -/
  | verifyTimerExpiry
  /-- ABORT_WAIT_EXPIRY (R163). -/
  | abortWaitExpiry
  /-- LANE_INPUT_CHANGE: this lane or spur input takes this level (R169). -/
  | laneInputChange (input : LaneInput) (level : Bool)
  /-- LANE_WAIT_EXPIRY (R171). -/
  | laneWaitExpiry
  deriving DecidableEq, Repr

end Sys2Proof
end

