-- ==== Sys2Proof/Config.lean ====
section
/-! DEFINITION. What the part fixes outside its image (R179, "The fixed values are …"), in steps of 10 ms, and the free
values: what the spec gives no value for, as constants without a body (log 3). -/

namespace Sys2Proof.Config

/-- The start-zero timeout of 30 s (R93). -/
def startZeroTimeout : Nat := 3000
/-- The engine ready wait of 10 s (R163). -/
def engineReadyWait : Nat := 1000
/-- The WR_ABORT pulse of 200 ms (R148, R149). -/
def abortPulse : Nat := 20
/-- What the taken timer adds to the transit timeout, 2 s (R17, R36). -/
def takenExtra : Nat := 200
/-- The transmit queue holds 8 frames (R60). -/
def txCapacity : Nat := 8
/-- The receive queue holds 4 frames (R64). -/
def rxCapacity : Nat := 4
/-- The station table holds 6 records (R9). -/
def tableCapacity : Nat := 6
/-- The manifest store holds 32 manifests (R70). -/
def storeCapacity : Nat := 32
/-- The code reader's line buffer holds 32 characters (R73). -/
def readerBuffer : Nat := 32
/-- The print link's line buffer holds 64 characters (R155). -/
def linkBuffer : Nat := 64
/-- The print history holds 4 starts (R157). -/
def historySize : Nat := 4
/-- The wrap attempts are fixed at 2 (R140). -/
def wrapAttempts : Nat := 2
/-- The zero postponement count stands at most at 8 (R96). -/
def postponeLimit : Nat := 8
/-- A pallet may be disturbed three times before the fourth ends its weighing (R100). -/
def restartLimit : Nat := 3

/-- Free value (log 3): the height a WRAP station selects a recipe by when a record says PASS and holds no measured
height; R137 says such a record does not come, and gives no figure for it. -/
opaque freeHeight : Nat → Nat
/-- Free value (log 3): the gross a WRAP or LABEL station works with when a record says PASS and holds none. -/
opaque freeGross : Nat → Nat
/-- Free value (log 3): digit i of the serial a LABEL station labels with when a record says PASS and holds none. -/
opaque freeDigit : Nat → Nat → Digit
/-- Free value (log 3): the DUTY row's text for a record that says PASS and has duty status UNKNOWN. -/
opaque freeDutyText : Nat → List Byte
/-- Free value (log 6): whether WR_FILM, which rose once and whose fall is no command, still stands when the start task of a
WRAP station ends (R146). -/
opaque filmStands : Nat → Bool

end Sys2Proof.Config
end

