-- ==== Sys2Proof/Machine/State.lean ====
section
/-! DEFINITION. The state of the part, block by block as Table 0-1 gives them, the reasons a step could stop, and the
state after reset. INVENTORY.md lists every field with its rule and reset value. A timer is an `Option Nat`: `none` is
not running (R29: a stopped timer leaves no remaining time), `some n` has n steps of 10 ms left. -/

namespace Sys2Proof.Machine

/-! ## Records (Chapter 1) -/

/-- Unit class of a manifest line: CASE, TRAY, KEG (R2). -/
inductive UnitClass
  | caseUnit | tray | keg
  deriving DecidableEq, Repr

/-- Duty status (Table 1-1). -/
inductive Duty
  | unknown | inBond | dutyPaid
  deriving DecidableEq, Repr

/-- Lane class (Table 1-1). -/
inductive LaneClass
  | any | a | b
  deriving DecidableEq, Repr

/-- A line of goods: its six parts (R2). -/
structure GoodsLine where
  article : Digits
  unitClass : UnitClass
  count : Nat
  mass : Nat
  layers : Nat
  layerHeight : Nat
  deriving DecidableEq, Repr

/-- The twelve check reasons, in the order of R126. -/
inductive Reason
  | tagUnread | noManifest | manifestInvalid | scaleFault | profileFault | unstable
  | overhang | heightHigh | heightLow | void | underweight | overweight
  deriving DecidableEq, Repr

/-- A check verdict. A FAIL carries its primary reason and its fail set (R126), the set in the order of R126. -/
inductive CheckVerdict
  | pass
  | fail (primary : Reason) (failSet : List Reason)
  deriving DecidableEq, Repr

/-- A wrap verdict (Table 1-1). -/
inductive WrapVerdict
  | wrapped (code : Nat)
  | wrapFailed
  | skipped
  deriving DecidableEq, Repr

/-- A label verdict (Table 1-1). -/
inductive LabelVerdict
  | labelled (attempts : Nat) (code : Digits)
  | labelFailed
  | skipped
  deriving DecidableEq, Repr

/-- The travel record: the fields of Table 1-1 (R1). An absent field is `none`. -/
structure TravelRecord where
  track : Track
  serial : Option Digits
  order : Option Digits
  duty : Duty
  laneClass : LaneClass
  unknownOrigin : Bool
  manifestPresent : Bool
  tare : Option Nat
  lines : List GoodsLine
  gross : Option Nat
  height : Option Nat
  length : Option Nat
  deviation : Option Int
  check : Option CheckVerdict
  wrap : Option WrapVerdict
  label : Option LabelVerdict
  hops : Nat
  deriving DecidableEq, Repr

/-- The six record states, in the order of R7. -/
inductive RecordState
  | expected | present | working | done | releasing | outbound
  deriving DecidableEq, Repr

/-- An entry of the station table: a record, its state, its taken-heard mark (R17) and its timer: the arrival timer of
an EXPECTED entry, the taken timer of an OUTBOUND entry (Table 2-3). -/
structure Entry where
  record : TravelRecord
  state : RecordState
  takenHeard : Bool
  timer : Option Nat
  deriving DecidableEq, Repr

/-! ## Zone Controller (Chapter 2) -/

/-- The six zone states (R25). -/
inductive ZoneState
  | empty | inbound | positioning | stopped | releasing | jammed
  deriving DecidableEq, Repr

/-- The cause of a hold (R47). -/
inductive HoldCause
  | safety | operator
  deriving DecidableEq, Repr

/-- An entry of the hold set (R47). -/
structure Hold where
  node : Nat
  cause : HoldCause
  deriving DecidableEq, Repr

/-- The Zone Controller's state. The halted condition is the pin SAFE# (R28); the drive, lamp and permit are functions
of the state (R27, R46, R32). -/
structure ZoneCtl where
  zstate : ZoneState
  exitSeen : Bool
  jam : Bool
  holds : List Hold
  offerTimer : Option Nat
  positionTimer : Option Nat
  releaseTimer : Option Nat
  deriving DecidableEq, Repr

/-- The input levels, `true` = asserted (an eye asserted = beam blocked, R26). -/
structure Pins where
  eyeEntry : Bool
  eyePos : Bool
  eyeExit : Bool
  safe : Bool
  holdSw : Bool
  wrReady : Bool
  wrFault : Bool
  wrFilm : Bool
  lane1Full : Bool
  lane1Shut : Bool
  lane2Full : Bool
  lane2Shut : Bool
  spurFull : Bool
  deriving DecidableEq, Repr

/-! ## Line Controller (Chapter 3) -/

/-- Cause of a jam, the detail of NOTICE JAM (R41). -/
inductive JamCause
  | positionTimeout | releaseTimeout | downstreamRestart
  deriving DecidableEq, Repr

/-- The twelve checks of a MANIFEST, in the order of Table 4-1. -/
inductive ManifestCheck
  | serial | order | duty | laneClass | tare | lineCount | article | unitClass | count | unitMass | layers | layerHeight
  deriving DecidableEq, Repr

/-- Kind of zero failure, in the detail of NOTICE ZERO_FAULT (R94). -/
inductive ZeroFaultKind
  | startRange | zeroRange | noStableEmpty
  deriving DecidableEq, Repr

/-- Cause of a failed wrap attempt (R144). -/
inductive WrapCause
  | startTimeout | wrapTimeout | fault
  deriving DecidableEq, Repr

/-- Cause of a failed label attempt (R161); FAULT carries the engine's cause number. -/
inductive LabelCause
  | printTimeout | applyTimeout | missed | fault (number : Nat) | verifyTimeout | verifyMismatch
  deriving DecidableEq, Repr

/-- The reject reasons, in the order of R168. -/
inductive RejectReason
  | unknownOrigin | checkFailed | wrapNotDone | labelNotDone | noLane
  deriving DecidableEq, Repr

/-- The route code and the exit of a delivery (R167). -/
inductive RouteCode
  | none | lane1 | lane2 | reject
  deriving DecidableEq, Repr

/-- State of a lane in the detail of NOTICE LANE_WAIT (Table 12-7). -/
structure LaneWaitDetail where
  lane1 : Nat
  lane2 : Nat
  spur : Nat
  deriving DecidableEq, Repr

/-- A NOTICE: its cause in the order of Table 3-4, its track where the cause carries one, and its detail. -/
inductive Notice
  | palletLost (track : Track)
  | takenMissing (track : Track)
  | unknownPallet (track : Track)
  | duplicateTrack (track : Track)
  | jam (track : Option Track) (cause : JamCause)
  | jamCleared (track : Option Track)
  | manifestRejected (check : ManifestCheck) (line : Nat) (serial : Option Digits)
  | zeroFault (kind : ZeroFaultKind) (value : Option Int)
  | zeroOverdue (zero : Int)
  | checkFailed (track : Track) (primary : Reason)
  | wrapFailed (track : Track) (recipe : Nat) (first second : WrapCause)
  | filmLow
  | labelFailed (track : Track) (code : Digits) (causes : List LabelCause)
  | laneWait (track : Track) (detail : LaneWaitDetail)
  | noLane (track : Track) (duty : Duty) (laneClass : LaneClass)
  deriving DecidableEq, Repr

/-- A frame a station queues (Table 3-2). The sender is the station's node; the contents of HELLO are the loaded
configuration's; those of STATUS are assembled at each attempt (R67). -/
inductive TxFrame
  | hold (cause : HoldCause)
  | resume
  | offer (target : Nat) (record : TravelRecord)
  | accept (target : Nat) (track : Track)
  | released (target : Nat) (track : Track)
  | taken (target : Nat) (track : Track)
  | lost (target : Nat) (track : Track)
  | wanted (serial : Digits)
  | dispatched (track : Track) (serial order : Option Digits) (exit : RouteCode) (reason : Option RejectReason)
      (gross : Option Nat)
  | hello
  | status
  | notice (notice : Notice)
  deriving DecidableEq, Repr

/-- An entry of the transmit queue: the frame, whether it is in an attempt, whether it was withdrawn during that attempt
(R59), and whether an OFFER that replaced it after that withdrawal has it stay in the queue however the attempt ends (R60). -/
structure TxEntry where
  frame : TxFrame
  inAttempt : Bool
  withdrawn : Bool
  stays : Bool
  deriving DecidableEq, Repr

/-- The attempt under way: the bytes it began with (R60), for a STATUS the overrun flags it reports (R68), and whether
an overflow of each kind came since it was assembled. -/
structure Sending where
  bytes : List Byte
  reported : Option (Bool × Bool)
  txSince : Bool
  rxSince : Bool
  deriving DecidableEq, Repr

/-- A frame in the receive queue, as decoded (R182). A MANIFEST keeps its payload, which the Manifest Store judges. -/
inductive RxFrame
  | hold (sender : Nat) (cause : HoldCause)
  | resume (sender : Nat)
  | clear
  | offer (record : TravelRecord)
  | accept (track : Track)
  | released (track : Track)
  | taken (track : Track)
  | lost (track : Track)
  | manifest (payload : List Byte)
  | hello (sender : Nat)
  | query
  deriving DecidableEq, Repr

/-- The Line Controller's state. -/
structure LineCtl where
  tx : List TxEntry
  sending : Option Sending
  rx : List RxFrame
  txOverrun : Bool
  rxOverrun : Bool
  deriving DecidableEq, Repr

/-! ## CHECK blocks (Chapters 4 to 7) -/

/-- A manifest (R70). -/
structure Manifest where
  serial : Digits
  order : Option Digits
  duty : Duty
  laneClass : LaneClass
  tare : Nat
  lines : List GoodsLine
  deriving DecidableEq, Repr

/-- The pending request: the serial of a lookup that missed and its manifest wait (R78). -/
structure Request where
  serial : Digits
  wait : Option Nat
  deriving DecidableEq, Repr

/-- The Manifest Store (R70). -/
structure Store where
  manifests : List Manifest
  request : Option Request
  deriving DecidableEq, Repr

/-- The owner of an open read window (R73, R160). -/
inductive Window
  | closed | tag | verify
  deriving DecidableEq, Repr

/-- The Code Reader Port (R73, R74). -/
structure Reader where
  buffer : List RxChar
  overlong : Bool
  window : Window
  kept : Option Digits
  tagWait : Option Nat
  deriving DecidableEq, Repr

/-- A scan in the settle window: its gross sample and flagged mark (R89). -/
structure Sample where
  gross : Int
  flagged : Bool
  deriving DecidableEq, Repr

/-- A held stable value: the stable sum and the stable gross (R99). -/
structure HeldValue where
  sum : Int
  gross : Nat
  deriving DecidableEq, Repr

/-- The Weigh Unit (Chapter 5). ZERO_OVERDUE is a function of the postponement count (R96). -/
structure Weigh where
  scanning : Bool
  window : List Sample
  z0 : Int
  z : Int
  established : Bool
  postponed : Nat
  scaleFault : Bool
  owedFault : Option (ZeroFaultKind × Option Int)
  startZero : Option Nat
  zeroDue : Option Nat
  settle : Option Nat
  weighing : Bool
  held : Option HeldValue
  restarts : Nat
  lastGross : Nat
  deriving DecidableEq, Repr

/-- The profiling phases (Table 6-1). -/
inductive Phase
  | none | unarmed | armed | inCurtain | complete | faulted
  deriving DecidableEq, Repr

/-- The Profile Unit (R107, R109). -/
structure Profile where
  counter : BitVec 16
  phase : Phase
  front : Option (BitVec 16)
  rear : Option (BitVec 16)
  compare : Option (BitVec 16)
  ever : Bool
  top : Option Nat
  gaps : Nat
  deriving DecidableEq, Repr

/-- Tag resolutions (Table 7-1). -/
inductive TagResolution
  | serial (digits : Digits)
  | unread
  deriving DecidableEq, Repr

/-- Manifest resolutions (Table 7-1). -/
inductive ManifestResolution
  | found (manifest : Manifest)
  | notFound
  | notApplicable
  deriving DecidableEq, Repr

/-- What a COMPLETE profile carries (R116). -/
structure ProfileFigures where
  top : Nat
  height : Nat
  length : Nat
  gaps : Nat
  overrun : Bool
  deriving DecidableEq, Repr

/-- Profile resolutions (Table 7-1). -/
inductive ProfileResolution
  | complete (figures : ProfileFigures)
  | profileFault
  deriving DecidableEq, Repr

/-- Mass resolutions (Table 5-1). -/
inductive MassResolution
  | stable (gross : Nat)
  | unstable
  | scaleFault
  deriving DecidableEq, Repr

/-- The evaluation: the record's track and the four inputs; `none` is unresolved (7.1). -/
structure Evaluation where
  track : Track
  tag : Option TagResolution
  manifest : Option ManifestResolution
  profile : Option ProfileResolution
  mass : Option MassResolution
  deriving DecidableEq, Repr

/-! ## WRAP, LABEL and DISPATCH blocks (Chapters 8 to 10) -/

/-- Handshake states (Table 8-3). -/
inductive Handshake
  | idle | waiting | requested | wrapping
  deriving DecidableEq, Repr

/-- The Wrap Sequencer (Chapter 8). WR_ABORT is asserted while `abort` runs (R148). -/
structure WrapSeq where
  hs : Handshake
  attempt : Nat
  recipe : Nat
  firstCause : Option WrapCause
  startTimer : Option Nat
  wrapTimer : Option Nat
  abort : Option Nat
  count : BitVec 32
  fault : Bool
  deriving DecidableEq, Repr

/-- Label states (Table 9-2). -/
inductive LabelState
  | idle | waiting | printing | printed | applying | verifying
  deriving DecidableEq, Repr

/-- The text of a composed row: fixed at composition, or filled with the label sequence at each print start (R152). -/
inductive RowText
  | fixed (text : List Byte)
  | labelSeq
  deriving DecidableEq, Repr

/-- A row of the composed label. -/
structure Row where
  number : Nat
  text : RowText
  deriving DecidableEq, Repr

/-- The composed label: the dispatch code and its rows in ascending row number (R152). -/
structure Composed where
  code : Digits
  rows : List Row
  deriving DecidableEq, Repr

/-- A print start in the history: whether it is in the window, and the time until it leaves it (R157). -/
structure PrintStart where
  inWindow : Bool
  left : Nat
  deriving DecidableEq, Repr

/-- The Label Unit (Chapter 9). `tx` is what PRN_TX has been given since reset, oldest first (R155). -/
structure LabelUnit where
  lstate : LabelState
  attempt : Nat
  label : Option Composed
  causes : List LabelCause
  history : List PrintStart
  seq : Nat
  printCount : BitVec 32
  fault : Bool
  printTimer : Option Nat
  applyTimer : Option Nat
  verifyTimer : Option Nat
  abortWait : Option Nat
  rxBuffer : List RxChar
  rxOverlong : Bool
  tx : List (List Byte)
  deriving DecidableEq, Repr

/-- The exit class of a record (R168); LANE carries which lanes match. -/
inductive ExitClass
  | reject (reason : RejectReason)
  | lane (lane1 lane2 : Bool)
  deriving DecidableEq, Repr

/-- A dock lane. -/
inductive LaneNo
  | one | two
  deriving DecidableEq, Repr

/-- The Route Unit (Chapter 10). -/
structure Route where
  exitClass : Option ExitClass
  code : RouteCode
  lastLane : Option LaneNo
  lane1 : BitVec 32
  lane2 : BitVec 32
  rejects : BitVec 32
  laneWait : Option Nat
  waitExpired : Bool
  deriving DecidableEq, Repr

/-! ## Start Controller and loaded configuration (Chapter 11) -/

/-- Service states (R177). -/
inductive Service
  | reset | loading | starting | inService | outOfService
  deriving DecidableEq, Repr

/-- The five roles (00). -/
inductive Role
  | check | plain | wrap | label | dispatch
  deriving DecidableEq, Repr

/-- The timing set, in steps of 10 ms (Table 11-2). -/
structure Timing where
  offerRepeat : Nat
  release : Nat
  transit : Nat
  position : Nat
  deriving DecidableEq, Repr

/-- A converter input (R85). -/
inductive Input
  | lc1 | lc2 | lc3 | lc4 | exc
  deriving DecidableEq, Repr

/-- An active conversion entry (R85 to R87). -/
structure Conversion where
  input : Input
  gain : Nat
  offset : Int
  low : Int
  high : Int
  deriving DecidableEq, Repr

/-- CHECK's parameters (Table 11-2, Table 7-2). -/
structure CheckCfg where
  tagWait : Nat
  manifestWait : Nat
  scanPeriod : Nat
  windowSize : Nat
  settleBand : Nat
  settleTimeout : Nat
  zeroInterval : Nat
  zeroRange : Nat
  startRange : Nat
  deadLoad : Int
  capacity : Nat
  conversions : List Conversion
  nominalLength : Nat
  overhangAllowance : Nat
  maxPassSteps : Nat
  gapAllowance : Nat
  voidLimit : Nat
  baseHeight : Nat
  heightAllowance : Nat
  fixedAllowance : Nat
  perMille : Nat
  caseAllowance : Nat
  trayAllowance : Nat
  kegAllowance : Nat
  deriving DecidableEq, Repr

/-- An entry of the recipe table (R139). -/
structure Recipe where
  code : Nat
  hasCase : Bool
  hasTray : Bool
  hasKeg : Bool
  heightMin : Nat
  heightMax : Nat
  massMin : Nat
  massMax : Nat
  deriving DecidableEq, Repr

/-- WRAP's parameters. -/
structure WrapCfg where
  startTimeout : Nat
  wrapTimeout : Nat
  defaultIndex : Nat
  recipes : List Recipe
  deriving DecidableEq, Repr

/-- The sources of a label row (R152); ARTICLE and COUNT carry their line index. -/
inductive Source
  | dispatchCode | serial | order | gross | article (line : Nat) | count (line : Nat) | duty | laneClass | siteText | labelSeq
  deriving DecidableEq, Repr

/-- A used entry of the gather list (R152). -/
structure Gather where
  row : Nat
  source : Source
  deriving DecidableEq, Repr

/-- LABEL's parameters. -/
structure LabelCfg where
  attempts : Nat
  printTimeout : Nat
  applyTimeout : Nat
  verifyWait : Nat
  printWindow : Nat
  site : Digits
  siteText : List Byte
  gather : List Gather
  deriving DecidableEq, Repr

/-- DISPATCH's parameters (R167). -/
structure DispatchCfg where
  laneWait : Nat
  duty1 : Duty
  letter1 : LaneClass
  duty2 : Duty
  letter2 : LaneClass
  deriving DecidableEq, Repr

/-- What the Start Controller holds of the image. In OUT_OF_SERVICE only node, role and neighbours may be kept (R179);
`node` 0 is no usable node number (R61). Only the block of the station's own role is loaded (11.2). -/
structure Loaded where
  node : Nat
  role : Option Role
  up : Option Nat
  down : Option Nat
  timing : Timing
  check : CheckCfg
  wrap : WrapCfg
  label : LabelCfg
  dispatch : DispatchCfg
  deriving DecidableEq, Repr

/-! ## The whole -/

/-- The state of the part, with the queue of the commands that wait. -/
structure State where
  pending : List Instr
  service : Service
  cfg : Loaded
  pins : Pins
  line : LineCtl
  table : List Entry
  slot : Option TravelRecord
  trackSeq : Nat
  zone : ZoneCtl
  store : Store
  reader : Reader
  weigh : Weigh
  prof : Profile
  eval : Option Evaluation
  wrap : WrapSeq
  label : LabelUnit
  route : Route
  free : Nat
  deriving DecidableEq, Repr

/-- Reasons a step could fault. The spec names no command that stops the part: every command has a next state. -/
inductive Fault
  /-- Raised by no meaning: the host's interface asks for a type of faults and this part has none. Safe. -/
  | neverRaised
  deriving DecidableEq, Repr

/-- Reasons a step could be refused. -/
inductive Refusal
  /-- Raised only by an arm of exec whose command has no meaning yet; there is none. Safe. -/
  | notModelled (mnemonic : String)
  deriving DecidableEq, Repr

/-! ## Updates, one for each field; Laws/State.lean says what each leaves -/

/-- Replace the service state. -/
def State.setService (s : State) (x : Service) : State := { s with service := x }
/-- Replace the loaded configuration. -/
def State.setCfg (s : State) (x : Loaded) : State := { s with cfg := x }
/-- Replace the input levels. -/
def State.setPins (s : State) (x : Pins) : State := { s with pins := x }
/-- Replace the Line Controller. -/
def State.setLine (s : State) (x : LineCtl) : State := { s with line := x }
/-- Replace the station table's entries. -/
def State.setTable (s : State) (x : List Entry) : State := { s with table := x }
/-- Replace the offer slot. -/
def State.setSlot (s : State) (x : Option TravelRecord) : State := { s with slot := x }
/-- Replace the track sequence counter. -/
def State.setTrackSeq (s : State) (x : Nat) : State := { s with trackSeq := x }
/-- Replace the Zone Controller. -/
def State.setZone (s : State) (x : ZoneCtl) : State := { s with zone := x }
/-- Replace the Manifest Store. -/
def State.setStore (s : State) (x : Store) : State := { s with store := x }
/-- Replace the Code Reader Port. -/
def State.setReader (s : State) (x : Reader) : State := { s with reader := x }
/-- Replace the Weigh Unit. -/
def State.setWeigh (s : State) (x : Weigh) : State := { s with weigh := x }
/-- Replace the Profile Unit. -/
def State.setProf (s : State) (x : Profile) : State := { s with prof := x }
/-- Replace the evaluation. -/
def State.setEval (s : State) (x : Option Evaluation) : State := { s with eval := x }
/-- Replace the Wrap Sequencer. -/
def State.setWrap (s : State) (x : WrapSeq) : State := { s with wrap := x }
/-- Replace the Label Unit. -/
def State.setLabel (s : State) (x : LabelUnit) : State := { s with label := x }
/-- Replace the Route Unit. -/
def State.setRoute (s : State) (x : Route) : State := { s with route := x }
/-- Replace the free values' counter. -/
def State.setFree (s : State) (x : Nat) : State := { s with free := x }
/-- Replace the queue of waiting commands. -/
def State.setPending (s : State) (x : List Instr) : State := { s with pending := x }

/-! ## Reset values of the blocks -/

/-- No pin asserted: a DESIGN CHOICE for the state after power-on (log 5). -/
def Pins.idle : Pins :=
  { eyeEntry := false, eyePos := false, eyeExit := false, safe := false, holdSw := false, wrReady := false,
    wrFault := false, wrFilm := false, lane1Full := false, lane1Shut := false, lane2Full := false,
    lane2Shut := false, spurFull := false }

/-- Nothing loaded (R177, R178); the values of what is not loaded are a DESIGN CHOICE nobody reads (log 4). -/
def Loaded.none : Loaded :=
  { node := 0, role := Option.none, up := Option.none, down := Option.none,
    timing := { offerRepeat := 0, release := 0, transit := 0, position := 0 },
    check := { tagWait := 0, manifestWait := 0, scanPeriod := 0, windowSize := 0, settleBand := 0, settleTimeout := 0,
               zeroInterval := 0, zeroRange := 0, startRange := 0, deadLoad := 0, capacity := 0, conversions := [],
               nominalLength := 0, overhangAllowance := 0, maxPassSteps := 0, gapAllowance := 0, voidLimit := 0,
               baseHeight := 0, heightAllowance := 0, fixedAllowance := 0, perMille := 0, caseAllowance := 0,
               trayAllowance := 0, kegAllowance := 0 },
    wrap := { startTimeout := 0, wrapTimeout := 0, defaultIndex := 0, recipes := [] },
    label := { attempts := 0, printTimeout := 0, applyTimeout := 0, verifyWait := 0, printWindow := 0, site := [],
               siteText := [], gather := [] },
    dispatch := { laneWait := 0, duty1 := .unknown, letter1 := .any, duty2 := .unknown, letter2 := .any } }

/-- R61: both queues empty, both flags clear, no attempt. -/
def LineCtl.atReset : LineCtl :=
  { tx := [], sending := Option.none, rx := [], txOverrun := false, rxOverrun := false }

/-- R54. -/
def ZoneCtl.atReset : ZoneCtl :=
  { zstate := .empty, exitSeen := false, jam := false, holds := [], offerTimer := Option.none,
    positionTimer := Option.none, releaseTimer := Option.none }

/-- R83. -/
def Store.atReset : Store := { manifests := [], request := Option.none }

/-- R73, R83. -/
def Reader.atReset : Reader :=
  { buffer := [], overlong := false, window := .closed, kept := Option.none, tagWait := Option.none }

/-- R105. -/
def Weigh.atReset : Weigh :=
  { scanning := false, window := [], z0 := 0, z := 0, established := false, postponed := 0, scaleFault := false,
    owedFault := Option.none, startZero := Option.none, zeroDue := Option.none, settle := Option.none,
    weighing := false, held := Option.none, restarts := 0, lastGross := 0 }

/-- R119. -/
def Profile.atReset : Profile :=
  { counter := 0, phase := .none, front := Option.none, rear := Option.none, compare := Option.none, ever := false,
    top := Option.none, gaps := 0 }

/-- R149. -/
def WrapSeq.atReset : WrapSeq :=
  { hs := .idle, attempt := 0, recipe := 0, firstCause := Option.none, startTimer := Option.none,
    wrapTimer := Option.none, abort := Option.none, count := 0, fault := false }

/-- R166. -/
def LabelUnit.atReset : LabelUnit :=
  { lstate := .idle, attempt := 0, label := Option.none, causes := [], history := [], seq := 1, printCount := 0,
    fault := false, printTimer := Option.none, applyTimer := Option.none, verifyTimer := Option.none,
    abortWait := Option.none, rxBuffer := [], rxOverlong := false, tx := [] }

/-- R176. -/
def Route.atReset : Route :=
  { exitClass := Option.none, code := .none, lastLane := Option.none, lane1 := 0, lane2 := 0, rejects := 0,
    laneWait := Option.none, waitExpired := false }

/-- The part right after reset: in RESET (R177), every block at the reset value its chapter gives, no command waiting.
The pin levels, the values of what no image has loaded and the free values' counter are the model's own (log 3, 4, 5). -/
def State.reset : State :=
  { pending := [], service := .reset, cfg := Loaded.none, pins := Pins.idle, line := LineCtl.atReset, table := [],
    slot := Option.none, trackSeq := 1, zone := ZoneCtl.atReset, store := Store.atReset, reader := Reader.atReset,
    weigh := Weigh.atReset, prof := Profile.atReset, eval := Option.none, wrap := WrapSeq.atReset,
    label := LabelUnit.atReset, route := Route.atReset, free := 0 }

end Sys2Proof.Machine
end

