-- ==== Sys2Proof/Machine/Flags.lean ====
section
/-! DEFINITION. What the state says at a moment: conditions that several rules test, and the output pins, which are
functions of the state (R27, R32, R46, R140, R167). -/

namespace Sys2Proof.Machine

/-! ## Service and role -/

def inService (s : State) : Bool := s.service = .inService

/-- STARTING or IN_SERVICE: the states in which eye edges, timers and the role's inputs act (R26, R180). -/
def active (s : State) : Bool := s.service = .starting || s.service = .inService

def hasRole (s : State) (r : Role) : Bool := s.cfg.role = some r

/-- The block of a role acts: it is in service at this station (00, Table 0-1) and the station is active. -/
def works (s : State) (r : Role) : Bool := active s && hasRole s r

/-- The configured neighbours, 0 when none. -/
def upstream (s : State) : Nat := s.cfg.up.getD 0
def downstream (s : State) : Nat := s.cfg.down.getD 0

/-- The station is halted while SAFE# is asserted (R28). -/
def halted (s : State) : Bool := s.pins.safe

/-! ## Hold set (R47) -/

def holdsEmpty (s : State) : Bool := s.zone.holds.isEmpty

/-- The cause a node holds with, if it is in a hold set. -/
def holdOf (holds : List Hold) (n : Nat) : Option HoldCause := (holds.find? (fun h => h.node = n)).map Hold.cause

/-- A neighbour holds with SAFETY. Node 0, the infeed or the lanes, is no neighbour that could (R27). -/
def safetyFrom (s : State) (n : Nat) : Bool := n != 0 && holdOf s.zone.holds n = some .safety

/-- The station's own hold entry as its inputs give it (R48). -/
def ownHold (p : Pins) : Option HoldCause := if p.safe then some .safety else if p.holdSw then some .operator else none

/-! ## Table -/

/-- The states of a zone record (R8). -/
def isZoneState (st : RecordState) : Bool := st = .present || st = .working || st = .done || st = .releasing

def inZone (e : Entry) : Bool := isZoneState e.state

/-- The zone record (R8). -/
def zoneEntry (s : State) : Option Entry := s.table.find? inZone

/-- The head record: the oldest not in OUTBOUND (R8). -/
def headEntry (s : State) : Option Entry := s.table.find? (fun e => e.state != .outbound)

/-- The EXPECTED entry (R8). -/
def expectedEntry (s : State) : Option Entry := s.table.find? (fun e => e.state = .expected)

/-- The entry of a track. -/
def entryOf (s : State) (t : Track) : Option Entry := s.table.find? (fun e => e.record.track = t)

/-- The zone record, in one given state. -/
def zoneEntryIn (s : State) (st : RecordState) : Option Entry := s.table.find? (fun e => e.state = st)

/-! ## Conditions -/

/-- No eye is blocked. -/
def eyesClear (p : Pins) : Bool := !p.eyeEntry && !p.eyePos && !p.eyeExit

/-- ZERO_OVERDUE is set while the postponement count stands at 8 (R96). -/
def zeroOverdue (s : State) : Bool := s.weigh.postponed = Config.postponeLimit

/-- The seven accepting conditions (R31). -/
def accepting (s : State) : Bool :=
  inService s && s.zone.zstate = .empty && eyesClear s.pins && (expectedEntry s).isNone &&
    s.table.length < Config.tableCapacity && holdsEmpty s &&
    (!hasRole s .check || (!s.weigh.scaleFault && !zeroOverdue s))

/-- The head record is DONE. -/
def headDone (s : State) : Bool := (headEntry s).any (fun e => e.state = .done)

/-- The offering conditions (R33). -/
def offering (s : State) : Bool :=
  !hasRole s .dispatch && headDone s && s.zone.zstate = .stopped && holdsEmpty s && inService s

/-- The delivery conditions (R169). -/
def delivering (s : State) : Bool :=
  hasRole s .dispatch && inService s && (zoneEntryIn s .done).isSome && s.zone.zstate = .stopped && holdsEmpty s

/-- The platform is empty (R91). -/
def platformEmpty (s : State) : Bool :=
  (s.zone.zstate = .empty || s.zone.zstate = .inbound) && eyesClear s.pins && (zoneEntry s).isNone

/-! ## Freezing (R30, Table 2-3, R147, R164) -/

/-- The arrival timer is frozen by the own halt or the upstream's SAFETY. -/
def arrivalFrozen (s : State) : Bool := halted s || safetyFrom s (upstream s)

/-- The release and taken timers are frozen by the own halt or the downstream's SAFETY. -/
def releaseFrozen (s : State) : Bool := halted s || safetyFrom s (downstream s)

/-- The freezing of an entry's timer: arrival for EXPECTED, taken for OUTBOUND. -/
def entryFrozen (s : State) (e : Entry) : Bool := if e.state = .expected then arrivalFrozen s else releaseFrozen s

/-! ## Outputs -/

/-- DRIVE (R27). -/
def drive (s : State) : Bool :=
  active s && !halted s &&
    (match s.zone.zstate with
     | .inbound => !safetyFrom s (upstream s)
     | .positioning => true
     | .releasing => !safetyFrom s (downstream s)
     | .empty => false
     | .stopped => false
     | .jammed => false)

/-- FAULT_LAMP (R46; dark in RESET and LOADING, R177). -/
def faultLamp (s : State) : Bool :=
  s.service != .reset && s.service != .loading &&
    (s.zone.jam || s.weigh.scaleFault || s.wrap.fault || s.label.fault || s.service = .outOfService)

/-- INFEED_PERMIT (R32): on while a CHECK station's zone is INBOUND. -/
def infeedPermit (s : State) : Bool := inService s && hasRole s .check && s.zone.zstate = .inbound

/-- WR_CODE0..3 as a number (Table 8-3). -/
def wrapCodeLines (s : State) : Nat :=
  match s.wrap.hs with
  | .requested => s.wrap.recipe
  | .wrapping => s.wrap.recipe
  | .idle => 0
  | .waiting => 0

/-- WR_START (Table 8-3). -/
def wrapStartLine (s : State) : Bool := s.wrap.hs = .requested

/-- WR_ABORT (R148, R149). -/
def wrapAbortLine (s : State) : Bool := s.wrap.abort.isSome

/-- A lane neither shut nor full is open (R167). -/
def laneOpen (p : Pins) : LaneNo → Bool
  | .one => !p.lane1Full && !p.lane1Shut
  | .two => !p.lane2Full && !p.lane2Shut

/-- LANEn_LAMP (R167, R176). -/
def laneLamp (s : State) (n : LaneNo) : Bool := works s .dispatch && laneOpen s.pins n

/-- RT_SEL1 and RT_SEL0 (R167). -/
def routeSelect (s : State) : Bool × Bool :=
  match s.route.code with
  | .none => (false, false)
  | .lane1 => (false, true)
  | .lane2 => (true, false)
  | .reject => (true, true)

end Sys2Proof.Machine
end

