-- ==== Sys2Proof/Machine/Formats.lean ====
section
/-! DEFINITION. The byte layouts of Chapter 12 as far as they need no state: numbers, digit fields, codes, tracks,
travel records, the frame on the line with its CRC (R56), and the decoding of a received payload (R182). -/

namespace Sys2Proof.Machine

/-! ## Numbers and digit fields (12, "conventions") -/

/-- The number a byte string spells, most significant byte first. -/
def beNat (bs : List Byte) : Nat := bs.foldl (fun acc b => acc * 256 + b.toNat) 0

/-- `n` bytes of the number `v` (modulo 256^n), most significant first. -/
def beBytes : Nat → Nat → List Byte
  | 0, _ => []
  | n + 1, v => BitVec.ofNat 8 (v / 256 ^ n) :: beBytes n v

/-- The `n` bytes at offset `off`. -/
def bytesAt (p : List Byte) (off n : Nat) : List Byte := (p.drop off).take n

/-- The unsigned number of `n` bytes at offset `off`. -/
def natAt (p : List Byte) (off n : Nat) : Nat := beNat (bytesAt p off n)

/-- Two's complement over `n` bytes: the number that the unsigned `v` stands for. -/
def signedOf (n v : Nat) : Int := if v < 256 ^ n / 2 then (v : Int) else (v : Int) - (256 ^ n : Nat)

/-- The signed number of `n` bytes at offset `off`. -/
def intAt (p : List Byte) (off n : Nat) : Int := signedOf n (natAt p off n)

/-- `n` bytes of a signed number, two's complement. -/
def intBytes (n : Nat) (v : Int) : List Byte := beBytes n (v % (256 ^ n : Nat)).toNat

/-- The two nibbles of a byte, high first. -/
def nibbles (b : Byte) : List Nat := [b.toNat / 16, b.toNat % 16]

/-- The nibbles of a byte string. -/
def nibblesOf (bs : List Byte) : List Nat := bs.flatMap nibbles

/-- A nibble as a digit, if it is one. -/
def digitOf (n : Nat) : Option Digit := if h : n < 10 then some ⟨n, h⟩ else none

/-- The first `k` nibbles as digits, if every one of them is a digit. -/
def unpackDigits (k : Nat) (bs : List Byte) : Option Digits := ((nibblesOf bs).take k).mapM digitOf

/-- Nibbles packed two to a byte, an odd last one followed by F. -/
def packNibbles : List Nat → List Byte
  | a :: b :: rest => BitVec.ofNat 8 (a * 16 + b) :: packNibbles rest
  | [a] => [BitVec.ofNat 8 (a * 16 + 15)]
  | [] => []

/-- A digit field. -/
def packDigits (ds : Digits) : List Byte := packNibbles (ds.map Fin.val)

/-- `n` bytes of FFH: an absent digit field, or an absent binary field. -/
def absentBytes (n : Nat) : List Byte := List.replicate n 0xFF

/-- A digit field of `n` bytes that may be absent. -/
def optDigits (n : Nat) : Option Digits → List Byte
  | some ds => packDigits ds
  | none => absentBytes n

/-- A binary field of `n` bytes that may be absent. -/
def optNat (n : Nat) : Option Nat → List Byte
  | some v => beBytes n v
  | none => absentBytes n

/-- The sum of digits weighted 7, 3, 1, 7, 3, 1, … from the head of the list, from weight index `i` on. -/
def weighted : List Digit → Nat → Nat
  | [], _ => 0
  | d :: rest, i => d.val * (if i % 3 = 0 then 7 else if i % 3 = 1 then 3 else 1) + weighted rest (i + 1)

/-- The weighted sum of R75 and R151: weight 7 on the rightmost digit, then leftward. -/
def weightedSum (ds : Digits) : Nat := weighted ds.reverse 0

/-- The check digit: (10 − sum mod 10) mod 10 (R75, R151). -/
def checkDigit (ds : Digits) : Digit := ⟨(10 - weightedSum ds % 10) % 10, Nat.mod_lt _ (by decide)⟩

/-! ## Codes -/

/-- Unit class codes (Table 12-4). -/
def unitClassCode : UnitClass → Nat
  | .caseUnit => 1 | .tray => 2 | .keg => 3

def unitClassOf : Nat → Option UnitClass
  | 1 => some .caseUnit | 2 => some .tray | 3 => some .keg | _ => none

/-- Duty codes (Tables 12-3 and 12-5). -/
def dutyCode : Duty → Nat
  | .unknown => 0 | .inBond => 1 | .dutyPaid => 2

def dutyOf : Nat → Option Duty
  | 0 => some .unknown | 1 => some .inBond | 2 => some .dutyPaid | _ => none

/-- Lane class codes. -/
def laneClassCode : LaneClass → Nat
  | .any => 0 | .a => 1 | .b => 2

def laneClassOf : Nat → Option LaneClass
  | 0 => some .any | 1 => some .a | 2 => some .b | _ => none

/-- The reasons in the order of R126. -/
def reasons : List Reason :=
  [.tagUnread, .noManifest, .manifestInvalid, .scaleFault, .profileFault, .unstable, .overhang, .heightHigh, .heightLow,
   .void, .underweight, .overweight]

/-- The place of a reason in the order of R126, 1..12. -/
def reasonCode : Reason → Nat
  | .tagUnread => 1 | .noManifest => 2 | .manifestInvalid => 3 | .scaleFault => 4 | .profileFault => 5 | .unstable => 6
  | .overhang => 7 | .heightHigh => 8 | .heightLow => 9 | .void => 10 | .underweight => 11 | .overweight => 12

/-- The reason of a place in the order, if it has one. -/
def reasonOf (n : Nat) : Option Reason := if n = 0 then none else reasons[n - 1]?

/-- The fail set as bits: bit k − 1 for the reason of order k (Table 12-3). -/
def failBits (fs : List Reason) : Nat :=
  (reasons.filter (fun r => fs.contains r)).foldl (fun acc r => acc + 2 ^ (reasonCode r - 1)) 0

/-- The reasons whose bits are set, in the order of R126. -/
def failSetOf (bits : Nat) : List Reason := reasons.filter (fun r => bits.testBit (reasonCode r - 1))

/-- The check verdict byte, primary reason byte and fail set (Table 12-3). -/
def checkCodes : Option CheckVerdict → Nat × Nat × Nat
  | none => (0, 0, 0)
  | some .pass => (1, 0, 0)
  | some (.fail p fs) => (2, reasonCode p, failBits fs)

/-- R182: a verdict byte, primary reason and fail set that agree (R1), or `none` for malformed. A FAIL's primary reason
is a member of its fail set; an absent verdict and a PASS carry neither. -/
def checkVerdictOf (verdict primary bits : Nat) : Option (Option CheckVerdict) :=
  let fs := failSetOf bits
  match verdict with
  | 0 => if primary = 0 && fs.isEmpty then some none else none
  | 1 => if primary = 0 && fs.isEmpty then some (some .pass) else none
  | 2 => match reasonOf primary with
         | some r => if fs.contains r then some (some (.fail r fs)) else none
         | none => none
  | _ => none

/-- The wrap verdict byte (Table 12-3). -/
def wrapByte : Option WrapVerdict → Nat
  | none => 0
  | some (.wrapped c) => 16 + c % 16
  | some .wrapFailed => 32
  | some .skipped => 48

/-- A wrap verdict byte with a meaning in Table 12-3 (R182). -/
def wrapVerdictOf (b : Nat) : Option (Option WrapVerdict) :=
  match b / 16, b % 16 with
  | 0, 0 => some none
  | 1, c => if c = 0 then none else some (some (.wrapped c))
  | 2, 0 => some (some .wrapFailed)
  | 3, 0 => some (some .skipped)
  | _, _ => none

/-- The label verdict byte (Table 12-3). -/
def labelByte : Option LabelVerdict → Nat
  | none => 0
  | some (.labelled n _) => 16 + n % 16
  | some .labelFailed => 32
  | some .skipped => 48

/-- The dispatch code field: all F unless the verdict is LABELLED (Table 12-3). -/
def labelCodeBytes : Option LabelVerdict → List Byte
  | some (.labelled _ code) => packDigits code
  | _ => absentBytes 7

/-- A label verdict byte with a meaning in Table 12-3, and with LABELLED a dispatch code of 13 digits (R182). -/
def labelVerdictOf (b : Nat) (code : List Byte) : Option (Option LabelVerdict) :=
  match b / 16, b % 16 with
  | 0, 0 => some none
  | 1, n => if n = 0 || 3 < n then none else (unpackDigits 13 code).map (fun ds => some (.labelled n ds))
  | 2, 0 => some (some .labelFailed)
  | 3, 0 => some (some .skipped)
  | _, _ => none

/-- Role codes (12.1). -/
def roleCode : Role → Nat
  | .check => 1 | .plain => 2 | .wrap => 3 | .label => 4 | .dispatch => 5

def roleOf : Nat → Option Role
  | 1 => some .check | 2 => some .plain | 3 => some .wrap | 4 => some .label | 5 => some .dispatch | _ => none

/-- Hold cause codes (12.1). -/
def holdCauseCode : HoldCause → Nat
  | .safety => 1 | .operator => 2

def holdCauseOf : Nat → Option HoldCause
  | 1 => some .safety | 2 => some .operator | _ => none

/-! ## Tracks, lines and records -/

/-- A track in two bytes: origin in the upper 5 bits, sequence in the lower 11 (12.1). -/
def trackBytes (t : Track) : List Byte := beBytes 2 (t.origin % 32 * 2048 + t.seq % 2048)

/-- The track two bytes spell, unless its origin or sequence is 0 (R182). -/
def trackOf (v : Nat) : Option Track :=
  if v / 2048 = 0 || v % 2048 = 0 then none else some { origin := v / 2048, seq := v % 2048 }

/-- A track of a NOTICE: 0000H when the cause carries none (Table 12-7). -/
def optTrackBytes : Option Track → List Byte
  | some t => trackBytes t
  | none => [0, 0]

/-- A line of goods (Table 12-4). -/
def lineBytes (l : GoodsLine) : List Byte :=
  packDigits l.article ++ [BitVec.ofNat 8 (unitClassCode l.unitClass), BitVec.ofNat 8 l.count] ++ beBytes 2 l.mass ++
    [BitVec.ofNat 8 l.layers] ++ beBytes 2 l.layerHeight

/-- The line that ten bytes spell; `none` for a bad article nibble or unit class (R182). Its numbers are not tested. -/
def lineOf (p : List Byte) : Option GoodsLine := do
  let article ← unpackDigits 6 (bytesAt p 0 3)
  let cls ← unitClassOf (natAt p 3 1)
  return { article := article, unitClass := cls, count := natAt p 4 1, mass := natAt p 5 2, layers := natAt p 7 1,
           layerHeight := natAt p 8 2 }

/-- `n` lines of ten bytes each, from offset `off`. -/
def linesOf (p : List Byte) (off : Nat) : Nat → Option (List GoodsLine)
  | 0 => some []
  | n + 1 => do
    let l ← lineOf (bytesAt p off 10)
    let rest ← linesOf p (off + 10) n
    return l :: rest

/-- A presence bit. -/
def bitIf (b : Bool) (k : Nat) : Nat := if b then 2 ^ k else 0

/-- The presence byte of an OFFER (Table 12-3, R182: each bit set exactly while its field is present). -/
def presenceByte (r : TravelRecord) : Nat :=
  bitIf r.serial.isSome 7 + bitIf r.order.isSome 6 + bitIf r.gross.isSome 5 + bitIf r.height.isSome 4 +
    bitIf r.length.isSome 3 + bitIf r.deviation.isSome 2

/-- The status byte of an OFFER (Table 12-3). -/
def statusByte (r : TravelRecord) : Nat :=
  dutyCode r.duty * 64 + laneClassCode r.laneClass * 16 + bitIf r.unknownOrigin 1 + bitIf r.manifestPresent 0

/-- An OFFER's payload (Table 12-3). -/
def offerPayload (target : Nat) (r : TravelRecord) : List Byte :=
  [BitVec.ofNat 8 target] ++ trackBytes r.track ++ [BitVec.ofNat 8 (presenceByte r), BitVec.ofNat 8 (statusByte r)] ++
    optDigits 5 r.serial ++ optDigits 4 r.order ++ optNat 2 r.tare ++ [BitVec.ofNat 8 r.lines.length] ++
    optNat 3 r.gross ++ optNat 2 r.height ++ optNat 2 r.length ++
    (match r.deviation with
     | some d => intBytes 4 d
     | none => absentBytes 4) ++
    [BitVec.ofNat 8 (checkCodes r.check).1, BitVec.ofNat 8 (checkCodes r.check).2.1] ++
    beBytes 2 (checkCodes r.check).2.2 ++ [BitVec.ofNat 8 (wrapByte r.wrap), BitVec.ofNat 8 (labelByte r.label)] ++
    labelCodeBytes r.label ++ [BitVec.ofNat 8 r.hops] ++ r.lines.flatMap lineBytes

/-- A digit field present or not: a present one must be all digits (R182). -/
def digitsIf (present : Bool) (k : Nat) (bs : List Byte) : Option (Option Digits) :=
  if present then (unpackDigits k bs).map some else some none

/-- The record an OFFER's payload spells, or `none` for malformed (R182). Numeric fields are admitted as carried. -/
def offerRecord (p : List Byte) : Option TravelRecord := do
  let track ← trackOf (natAt p 1 2)
  let presence := natAt p 3 1
  let status := natAt p 4 1
  let duty ← dutyOf (status / 64)
  let laneClass ← laneClassOf (status / 16 % 4)
  let serial ← digitsIf (presence.testBit 7) 10 (bytesAt p 5 5)
  let order ← digitsIf (presence.testBit 6) 8 (bytesAt p 10 4)
  let check ← checkVerdictOf (natAt p 28 1) (natAt p 29 1) (natAt p 30 2)
  let wrap ← wrapVerdictOf (natAt p 32 1)
  let label ← labelVerdictOf (natAt p 33 1) (bytesAt p 34 7)
  let hops := natAt p 41 1
  let n := natAt p 16 1
  let lines ← linesOf p 42 n
  if p.length = 42 + 10 * n && hops ≤ 15 then
    some { track := track, serial := serial, order := order, duty := duty, laneClass := laneClass,
           unknownOrigin := status.testBit 1, manifestPresent := status.testBit 0,
           tare := if status.testBit 0 then some (natAt p 14 2) else none, lines := lines,
           gross := if presence.testBit 5 then some (natAt p 17 3) else none,
           height := if presence.testBit 4 then some (natAt p 20 2) else none,
           length := if presence.testBit 3 then some (natAt p 22 2) else none,
           deviation := if presence.testBit 2 then some (intAt p 24 4) else none,
           check := check, wrap := wrap, label := label, hops := hops }
  else none

/-! ## The frame on the line (R56, Table 12-1) -/

/-- One bit of the CRC register: x^16 + x^12 + x^5 + 1. -/
def crcShift (c : BitVec 16) : BitVec 16 := if c.msb then (c <<< 1) ^^^ 0x1021 else c <<< 1

/-- One byte into the CRC register, most significant bit first. -/
def crcByte (c : BitVec 16) (b : Byte) : BitVec 16 :=
  (List.range 8).foldl (fun c _ => crcShift c) (c ^^^ (b.setWidth 16 <<< 8))

/-- The CRC of a byte string: all ones at the start, no inversion at the end (R56). -/
def crc16 (bs : List Byte) : BitVec 16 := bs.foldl crcByte 0xFFFF

/-- The header, payload and CRC of a frame. -/
def wireBytes (cls sender kind : Nat) (payload : List Byte) : List Byte :=
  let body := [BitVec.ofNat 8 (cls % 8 * 32 + sender % 32), BitVec.ofNat 8 kind, BitVec.ofNat 8 payload.length] ++ payload
  body ++ beBytes 2 (crc16 body).toNat

/-- A frame as heard whole with a matching CRC. -/
structure Heard where
  cls : Nat
  sender : Nat
  kind : Nat
  payload : List Byte
  deriving DecidableEq, Repr

/-- The good frame that `bytes`, heard until the line is idle, begin with: the payload bytes its length calls for and two CRC
bytes that match; any other frame is discarded by every receiver (R56). What is heard after the CRC makes no frame (log 29). -/
def goodFrame (bytes : List Byte) : Option Heard :=
  match bytes with
  | h :: k :: l :: rest =>
    let payload := rest.take l.toNat
    if beBytes 2 (crc16 (h :: k :: l :: payload)).toNat == (rest.drop l.toNat).take 2 then
      some { cls := h.toNat / 32, sender := h.toNat % 32, kind := k.toNat, payload := payload }
    else none
  | _ => none

/-! ## Kinds (Table 3-2, Table 12-2) -/

/-- The frame kinds. -/
inductive Kind
  | hold | resume | clear | offer | accept | released | taken | lost | manifest | wanted | dispatched | hello | query
  | status | notice
  deriving DecidableEq, Repr

/-- Kind codes (Table 12-2). -/
def kindCode : Kind → Nat
  | .hold => 0x01 | .resume => 0x02 | .clear => 0x03 | .offer => 0x10 | .accept => 0x11 | .released => 0x12
  | .taken => 0x13 | .lost => 0x20 | .manifest => 0x21 | .wanted => 0x22 | .dispatched => 0x23 | .hello => 0x24
  | .query => 0x30 | .status => 0x31 | .notice => 0x32

def kinds : List Kind :=
  [.hold, .resume, .clear, .offer, .accept, .released, .taken, .lost, .manifest, .wanted, .dispatched, .hello, .query,
   .status, .notice]

/-- The kind of a code, if Table 12-2 has it. -/
def kindOf (code : Nat) : Option Kind := kinds.find? (fun k => kindCode k = code)

/-- The priority class of a kind (Table 3-2). -/
def kindClass : Kind → Nat
  | .hold => 0 | .resume => 0 | .clear => 0 | .offer => 1 | .accept => 1 | .released => 1 | .taken => 1 | .lost => 2
  | .manifest => 2 | .wanted => 2 | .dispatched => 2 | .hello => 2 | .query => 3 | .status => 3 | .notice => 3

/-- Whether Table 12-2 allows a payload length for a kind. -/
def lengthAllowed (k : Kind) (n : Nat) : Bool :=
  match k with
  | .hold => n = 1
  | .resume => n = 0
  | .clear => n = 0
  | .offer => 42 ≤ n && n ≤ 102 && n % 10 = 2
  | .accept => n = 3
  | .released => n = 3
  | .taken => n = 3
  | .lost => n = 3
  | .manifest => 14 ≤ n && n ≤ 74 && n % 10 = 4
  | .wanted => n = 5
  | .dispatched => n = 16
  | .hello => n = 3
  | .query => n = 1
  | .status => 11 ≤ n && n ≤ 112
  | .notice => 3 ≤ n && n ≤ 20

/-- Decoding of a frame that has passed the filter; `none` is malformed (R182), or a kind no station takes. -/
def decodeFrame (k : Kind) (f : Heard) : Option RxFrame :=
  match k with
  | .hold => (holdCauseOf (natAt f.payload 0 1)).map (RxFrame.hold f.sender)
  | .resume => some (.resume f.sender)
  | .clear => some .clear
  | .offer => (offerRecord f.payload).map RxFrame.offer
  | .accept => (trackOf (natAt f.payload 1 2)).map RxFrame.accept
  | .released => (trackOf (natAt f.payload 1 2)).map RxFrame.released
  | .taken => (trackOf (natAt f.payload 1 2)).map RxFrame.taken
  | .lost => (trackOf (natAt f.payload 1 2)).map RxFrame.lost
  | .manifest => some (.manifest f.payload)
  | .hello =>
    if (roleOf (natAt f.payload 0 1)).isSome && natAt f.payload 1 1 ≤ 24 && natAt f.payload 2 1 ≤ 24 then
      some (.hello f.sender)
    else none
  | .query => some .query
  | .wanted => none
  | .dispatched => none
  | .status => none
  | .notice => none

/-! ## Manifests (Table 12-5) and their validation (R71) -/

/-- Why a MANIFEST was rejected: the code of the failed check, the line index (0 for no line), the frame's serial when
it passed the first check. -/
structure Rejection where
  check : ManifestCheck
  line : Nat
  serial : Option Digits
  deriving DecidableEq, Repr

/-- Checks 7 to 12 of Table 4-1 on one line. -/
def checkLine (p : List Byte) (index : Nat) (serial : Digits) : Except Rejection GoodsLine :=
  match unpackDigits 6 (bytesAt p 0 3) with
  | none => .error { check := .article, line := index, serial := some serial }
  | some article =>
    match unitClassOf (natAt p 3 1) with
    | none => .error { check := .unitClass, line := index, serial := some serial }
    | some cls =>
      if !(1 ≤ natAt p 4 1 && natAt p 4 1 ≤ 240) then
        .error { check := .count, line := index, serial := some serial }
      else if !(1 ≤ natAt p 5 2 && natAt p 5 2 ≤ 9999) then
        .error { check := .unitMass, line := index, serial := some serial }
      else if !(1 ≤ natAt p 7 1 && natAt p 7 1 ≤ 8) then
        .error { check := .layers, line := index, serial := some serial }
      else if !(50 ≤ natAt p 8 2 && natAt p 8 2 ≤ 600) then
        .error { check := .layerHeight, line := index, serial := some serial }
      else .ok { article := article, unitClass := cls, count := natAt p 4 1, mass := natAt p 5 2, layers := natAt p 7 1,
                 layerHeight := natAt p 8 2 }

/-- Checks 7 to 12 applied to line after line, the first failure naming its line (R71). -/
def checkLines (p : List Byte) (serial : Digits) (off index : Nat) : Nat → Except Rejection (List GoodsLine)
  | 0 => .ok []
  | n + 1 =>
    match checkLine (bytesAt p off 10) index serial with
    | .error e => .error e
    | .ok l =>
      match checkLines p serial (off + 10) (index + 1) n with
      | .error e => .error e
      | .ok ls => .ok (l :: ls)

/-- The order reference of a MANIFEST: absent only when all eight nibbles are F; any other mixture fails (R182). -/
def manifestOrder (bs : List Byte) : Option (Option Digits) :=
  if (nibblesOf bs).all (fun n => n = 15) then some none else (unpackDigits 8 bs).map some

/-- Validation of a MANIFEST's payload in the order of Table 4-1 (R71, R182). -/
def validateManifest (p : List Byte) : Except Rejection Manifest :=
  match unpackDigits 10 (bytesAt p 0 5) with
  | none => .error { check := .serial, line := 0, serial := none }
  | some serial =>
    match manifestOrder (bytesAt p 5 4) with
    | none => .error { check := .order, line := 0, serial := some serial }
    | some order =>
      if !(natAt p 9 1 = 1 || natAt p 9 1 = 2) then .error { check := .duty, line := 0, serial := some serial }
      else
        match laneClassOf (natAt p 10 1) with
        | none => .error { check := .laneClass, line := 0, serial := some serial }
        | some laneClass =>
          if !(500 ≤ natAt p 11 2 && natAt p 11 2 ≤ 6000) then
            .error { check := .tare, line := 0, serial := some serial }
          else if !(1 ≤ natAt p 13 1 && natAt p 13 1 ≤ 6 && p.length = 14 + 10 * natAt p 13 1) then
            .error { check := .lineCount, line := 0, serial := some serial }
          else
            match checkLines p serial 14 1 (natAt p 13 1) with
            | .error e => .error e
            | .ok lines =>
              .ok { serial := serial, order := order, duty := if natAt p 9 1 = 1 then .inBond else .dutyPaid,
                    laneClass := laneClass, tare := natAt p 11 2, lines := lines }

/-! ## Frames of the station (R182) -/

/-- The kind of a queued frame. -/
def txKind : TxFrame → Kind
  | .hold _ => .hold
  | .resume => .resume
  | .offer _ _ => .offer
  | .accept _ _ => .accept
  | .released _ _ => .released
  | .taken _ _ => .taken
  | .lost _ _ => .lost
  | .wanted _ => .wanted
  | .dispatched _ _ _ _ _ _ => .dispatched
  | .hello => .hello
  | .status => .status
  | .notice _ => .notice

/-- The priority class of a queued frame. -/
def txClass (f : TxFrame) : Nat := kindClass (txKind f)

/-- Exit codes of DISPATCHED (Table 12-6); they are the route codes of R167. -/
def routeCodeNat : RouteCode → Nat
  | .none => 0 | .lane1 => 1 | .lane2 => 2 | .reject => 3

/-- Reject reason codes (Table 12-6). -/
def rejectCode : Option RejectReason → Nat
  | none => 0
  | some .unknownOrigin => 1
  | some .checkFailed => 2
  | some .wrapNotDone => 3
  | some .labelNotDone => 4
  | some .noLane => 5

/-- Manifest check codes 1..12 (Table 4-1). -/
def manifestCheckCode : ManifestCheck → Nat
  | .serial => 1 | .order => 2 | .duty => 3 | .laneClass => 4 | .tare => 5 | .lineCount => 6 | .article => 7
  | .unitClass => 8 | .count => 9 | .unitMass => 10 | .layers => 11 | .layerHeight => 12

def jamCode : JamCause → Nat
  | .positionTimeout => 1 | .releaseTimeout => 2 | .downstreamRestart => 3

def zeroFaultCode : ZeroFaultKind → Nat
  | .startRange => 1 | .zeroRange => 2 | .noStableEmpty => 3

def wrapCauseCode : WrapCause → Nat
  | .startTimeout => 1 | .wrapTimeout => 2 | .fault => 3

/-- A label failure in a notice: its code and the engine's cause number, 0 for any cause but FAULT (Table 12-7). -/
def labelCauseBytes : LabelCause → List Byte
  | .printTimeout => [1, 0]
  | .applyTimeout => [2, 0]
  | .missed => [3, 0]
  | .fault n => [4, BitVec.ofNat 8 n]
  | .verifyTimeout => [5, 0]
  | .verifyMismatch => [6, 0]

/-- The cause number of a NOTICE, 1..15 in the order of Table 3-4. -/
def noticeCode : Notice → Nat
  | .palletLost _ => 1
  | .takenMissing _ => 2
  | .unknownPallet _ => 3
  | .duplicateTrack _ => 4
  | .jam _ _ => 5
  | .jamCleared _ => 6
  | .manifestRejected _ _ _ => 7
  | .zeroFault _ _ => 8
  | .zeroOverdue _ => 9
  | .checkFailed _ _ => 10
  | .wrapFailed _ _ _ _ => 11
  | .filmLow => 12
  | .labelFailed _ _ _ => 13
  | .laneWait _ _ => 14
  | .noLane _ _ _ => 15

/-- The track of a NOTICE (Table 3-4). -/
def noticeTrack : Notice → Option Track
  | .palletLost t => some t
  | .takenMissing t => some t
  | .unknownPallet t => some t
  | .duplicateTrack t => some t
  | .jam t _ => t
  | .jamCleared t => t
  | .manifestRejected _ _ _ => none
  | .zeroFault _ _ => none
  | .zeroOverdue _ => none
  | .checkFailed t _ => some t
  | .wrapFailed t _ _ _ => some t
  | .filmLow => none
  | .labelFailed t _ _ => some t
  | .laneWait t _ => some t
  | .noLane t _ _ => some t

/-- The detail of a NOTICE (Table 12-7). -/
def noticeDetail : Notice → List Byte
  | .jam _ c => [BitVec.ofNat 8 (jamCode c)]
  | .manifestRejected c l serial => [BitVec.ofNat 8 (manifestCheckCode c), BitVec.ofNat 8 l] ++ optDigits 5 serial
  | .zeroFault k v =>
    [BitVec.ofNat 8 (zeroFaultCode k)] ++ (match v with
      | some v => intBytes 3 v
      | none => [0x80, 0x00, 0x00])
  | .zeroOverdue z => intBytes 3 z
  | .checkFailed _ r => [BitVec.ofNat 8 (reasonCode r)]
  | .wrapFailed _ code c1 c2 =>
    [BitVec.ofNat 8 code, BitVec.ofNat 8 (wrapCauseCode c1), BitVec.ofNat 8 (wrapCauseCode c2)]
  | .labelFailed _ code causes => packDigits code ++ causes.flatMap labelCauseBytes
  | .laneWait _ d => [BitVec.ofNat 8 d.lane1, BitVec.ofNat 8 d.lane2, BitVec.ofNat 8 d.spur]
  | .noLane _ d l => [BitVec.ofNat 8 (dutyCode d), BitVec.ofNat 8 (laneClassCode l)]
  | .palletLost _ => []
  | .takenMissing _ => []
  | .unknownPallet _ => []
  | .duplicateTrack _ => []
  | .jamCleared _ => []
  | .filmLow => []

/-- A NOTICE's payload (Table 12-7). -/
def noticePayload (n : Notice) : List Byte :=
  [BitVec.ofNat 8 (noticeCode n)] ++ optTrackBytes (noticeTrack n) ++ noticeDetail n

end Sys2Proof.Machine
end

