-- ==== Sys2Proof/Machine/Ops.lean ====
section
/-! DEFINITION. Operations that several blocks share: the transmit queue (3.3), the hold set (R47), the station table's
entries (Chapter 1). -/

namespace Sys2Proof.Machine

/-! ## Transmit queue (R59, R60) -/

/-- Place in the order of sending: the HELLO of R61 before all, then by class. -/
def txRank (f : TxFrame) : Nat := if f = .hello then 0 else txClass f + 1

/-- A frame takes its place as the youngest of its class (R59). -/
def insertTx (e : TxEntry) : List TxEntry → List TxEntry
  | [] => [e]
  | x :: rest => if txRank x.frame ≤ txRank e.frame then x :: insertTx e rest else e :: x :: rest

/-- The track an OFFER names. -/
def offerTrack : TxFrame → Option Track
  | .offer _ r => some r.track
  | _ => none

/-- An entry that an overflow may drop: not in an attempt, and not the HELLO held at the head (R60). -/
def droppable (e : TxEntry) : Bool := !e.inAttempt && e.frame != .hello

/-- The greatest class among the entries that may be dropped, 0 when there is none. -/
def greatestClass (q : List TxEntry) : Nat := ((q.filter droppable).map (fun e => txClass e.frame)).foldl max 0

/-- The queue without the youngest entry of class `c` that may be dropped (R60). -/
def dropYoungest (c : Nat) (q : List TxEntry) : List TxEntry :=
  (q.reverse.eraseP (fun e => droppable e && txClass e.frame = c)).reverse

/-- TX_OVERRUN is set; an overflow during a STATUS's attempt is remembered (R60, R68). -/
def markTxOverrun (l : LineCtl) : LineCtl :=
  { l with txOverrun := true, sending := l.sending.map (fun a => { a with txSince := true }) }

/-- RX_OVERRUN is set (R64, R68). -/
def markRxOverrun (l : LineCtl) : LineCtl :=
  { l with rxOverrun := true, sending := l.sending.map (fun a => { a with rxSince := true }) }

/-- A fresh entry of the transmit queue. -/
def freshTx (f : TxFrame) : TxEntry := { frame := f, inAttempt := false, withdrawn := false, stays := false }

/-- A held OFFER for the same track takes the new contents in place; a withdrawal of it is cancelled, and the entry then
stays however the attempt under way ends (R60). -/
def replaceOffer (f : TxFrame) (q : List TxEntry) : List TxEntry :=
  q.map (fun e => if (offerTrack e.frame).isSome && offerTrack e.frame = offerTrack f then
                    { e with frame := f, withdrawn := false, stays := e.stays || e.withdrawn } else e)

/-- The queue holds an OFFER for the track that `f`, an OFFER, names. -/
def holdsOffer (f : TxFrame) (q : List TxEntry) : Bool :=
  q.any (fun e => (offerTrack e.frame).isSome && offerTrack e.frame = offerTrack f)

/-- A frame handed to the Line Controller: replacement, a free place, or overflow (R59, R60). -/
def pushFrame (f : TxFrame) (l : LineCtl) : LineCtl :=
  if holdsOffer f l.tx then { l with tx := replaceOffer f l.tx }
  else if l.tx.length < Config.txCapacity then { l with tx := insertTx (freshTx f) l.tx }
  else if txClass f < greatestClass l.tx then
    markTxOverrun { l with tx := insertTx (freshTx f) (dropYoungest (greatestClass l.tx) l.tx) }
  else markTxOverrun l

/-- What the service state lets be queued (R61): everything in IN_SERVICE, a STATUS in OUT_OF_SERVICE, nothing else. -/
def mayQueue (s : State) (f : TxFrame) : Bool := inService s || (s.service = .outOfService && f = .status)

/-- A block queues a frame. -/
def queueFrame (f : TxFrame) (s : State) : State := if mayQueue s f then s.setLine (pushFrame f s.line) else s

/-- A block queues a NOTICE (R69). -/
def notify (n : Notice) (s : State) : State := queueFrame (.notice n) s

/-- One entry under a withdrawal: out at once, or at the end of its attempt (R59). -/
def withdrawEntry (p : TxFrame → Bool) (e : TxEntry) : Option TxEntry :=
  if p e.frame then (if e.inAttempt then some { e with withdrawn := true, stays := false } else none) else some e

/-- A block withdraws the frames that `p` picks (R59). -/
def withdrawFrames (p : TxFrame → Bool) (s : State) : State :=
  s.setLine { s.line with tx := s.line.tx.filterMap (withdrawEntry p) }

/-- The HELLO of R61 has not been counted sent. -/
def helloWaiting (s : State) : Bool := s.line.tx.any (fun e => e.frame = .hello)

/-! ## Hold set (R47) -/

/-- The set without a node. -/
def removeHold (n : Nat) (holds : List Hold) : List Hold := holds.filter (fun h => h.node != n)

/-- A node's entry placed in node order. -/
def placeHold (h : Hold) : List Hold → List Hold
  | [] => [h]
  | x :: rest => if x.node < h.node then x :: placeHold h rest else h :: x :: rest

/-- HOLD from a node: added, or its cause changed (R47). -/
def addHold (n : Nat) (c : HoldCause) (holds : List Hold) : List Hold := placeHold { node := n, cause := c } (removeHold n holds)

/-- A node's entry as it now stands: present with a cause, or absent. -/
def setHold (n : Nat) (c : Option HoldCause) (holds : List Hold) : List Hold :=
  match c with
  | some c => addHold n c holds
  | none => removeHold n holds

def setHolds (holds : List Hold) (s : State) : State := s.setZone { s.zone with holds := holds }

/-- The frame that announces an own hold entry (Table 2-5). -/
def holdFrame : Option HoldCause → TxFrame
  | some c => .hold c
  | none => .resume

/-! ## Zone and its timers -/

def setZoneState (z : ZoneState) (s : State) : State := s.setZone { s.zone with zstate := z }

/-! ## Table (R9) -/

/-- The entry in one record state changed, every other entry left. -/
def mapState (st : RecordState) (f : Entry → Entry) (s : State) : State :=
  s.setTable (s.table.map (fun e => if e.state = st then f e else e))

/-- An entry goes from one record state to another. -/
def moveState (src dst : RecordState) (s : State) : State := mapState src (fun e => { e with state := dst }) s

/-- The fields of the record in WORKING changed: no block writes into a record in another state (R4). -/
def writeWorking (f : TravelRecord → TravelRecord) (s : State) : State :=
  mapState .working (fun e => { e with record := f e.record }) s

/-- The role's work ends: the record in WORKING goes to DONE (R4). -/
def endWork (s : State) : State := moveState .working .done s

/-- The zone record removed; the rest keep their order (R9). -/
def removeZoneRecord (s : State) : State := s.setTable (s.table.filter (fun e => !inZone e))

/-- The entry of a track removed. -/
def removeTrack (t : Track) (s : State) : State := s.setTable (s.table.filter (fun e => e.record.track != t))

/-- A new entry at the tail (R9). -/
def addEntry (e : Entry) (s : State) : State := s.setTable (s.table ++ [e])

/-! ## Track numbers (R6) -/

/-- The next sequence number after 2047 is 1. -/
def nextSeq (n : Nat) : Nat := if 2047 ≤ n then 1 else n + 1

/-- A record of the table carries this track. -/
def trackUsed (s : State) (t : Track) : Bool := s.table.any (fun e => e.record.track = t)

/-- The first candidate from `seq` on that no record of the table uses; the table's length bounds the search (R6). -/
def freeSeq (s : State) : Nat → Nat → Nat
  | 0, seq => seq
  | n + 1, seq => if trackUsed s { origin := s.cfg.node, seq := seq } then freeSeq s n (nextSeq seq) else seq

/-- The sequence the next record made here takes. -/
def candidateSeq (s : State) : Nat := freeSeq s s.table.length s.trackSeq

/-- The track the next record made here takes (R6). -/
def newTrack (s : State) : Track := { origin := s.cfg.node, seq := candidateSeq s }

/-- A record as R3 gives it at its making: unknown-origin with both verdicts SKIPPED, or from the infeed. -/
def freshRecord (t : Track) (unknownOrigin : Bool) : TravelRecord :=
  { track := t, serial := none, order := none, duty := .unknown, laneClass := .any, unknownOrigin := unknownOrigin,
    manifestPresent := false, tare := none, lines := [], gross := none, height := none, length := none,
    deviation := none, check := none, wrap := if unknownOrigin then some .skipped else none,
    label := if unknownOrigin then some .skipped else none, hops := 0 }

/-- A record made here, placed at the tail; the counter moves on (R6, R9). -/
def createRecord (unknownOrigin : Bool) (st : RecordState) (s : State) : State :=
  (addEntry { record := freshRecord (newTrack s) unknownOrigin, state := st, takenHeard := false, timer := none } s).setTrackSeq
    (nextSeq (candidateSeq s))

/-- R9: with a full table the oldest OUTBOUND entry is evicted and reported, before a record is created. -/
def evict (s : State) : State :=
  if s.table.length < Config.tableCapacity then s
  else
    match zoneEntryIn s .outbound with
    | some e => notify (.takenMissing e.record.track) (s.setTable (s.table.eraseP (fun e => e.state = .outbound)))
    | none => s

/-! ## Own hold (R48) -/

/-- The offering of the head record ends: the repeat timer stops and an unsent OFFER is withdrawn (R33). -/
def endOffering (s : State) : State :=
  withdrawFrames (fun f => (offerTrack f).isSome) (s.setZone { s.zone with offerTimer := none })

/-- The offering ends in the event in which one of its conditions has ceased (R33). -/
def stopOffering (s : State) : State := if s.zone.offerTimer.isSome && !offering s then endOffering s else s

/-- The own entry follows the own hold inputs; a change updates the set and sends one frame, the withdrawal of an OFFER
first (R48, R59); before the HELLO has gone the single announcement stands for the frame (R61). -/
def followOwnHold (before : Option HoldCause) (s : State) : State :=
  if inService s && ownHold s.pins != before then
    let s1 := stopOffering (setHolds (setHold s.cfg.node (ownHold s.pins) s.zone.holds) s)
    if helloWaiting s1 then s1 else queueFrame (holdFrame (ownHold s1.pins)) s1
  else s

end Sys2Proof.Machine
end

