-- ==== Sys2Proof/Machine/Clock.lean ====
section
/-! DEFINITION. The part's own clock: one tick of 10 ms (2.2), taken when no command waits. It counts the timers that run
and are not frozen, and puts into the queue the expiries it finds and the handing on of the frames that stand in the
receive queue (log 2). -/

namespace Sys2Proof.Machine

/-! ## Counting down -/

/-- A timer after a tick: one step less, unless it is frozen or not running (R29, R30). -/
def tickTimer (frozen : Bool) (t : Option Nat) : Option Nat := if frozen then t else t.map (fun n => n - 1)

/-- This tick takes the timer's remaining time to zero. -/
def expires (frozen : Bool) (t : Option Nat) : Bool := !frozen && t.any (fun n => n ≤ 1)

/-- The timer of an entry (R30). -/
def tickEntry (s : State) (e : Entry) : Entry := { e with timer := tickTimer (entryFrozen s e) e.timer }

/-- A print start ages by one step (R157). -/
def tickStart (p : PrintStart) : PrintStart := if p.inWindow then { p with left := p.left - 1 } else p

def tickZone (s : State) : ZoneCtl :=
  { s.zone with offerTimer := tickTimer false s.zone.offerTimer
                positionTimer := tickTimer (halted s) s.zone.positionTimer
                releaseTimer := tickTimer (releaseFrozen s) s.zone.releaseTimer }

def tickStore (st : Store) : Store :=
  { st with request := st.request.map (fun r => { r with wait := tickTimer false r.wait }) }

def tickReader (r : Reader) : Reader := { r with tagWait := tickTimer false r.tagWait }

def tickWeigh (w : Weigh) : Weigh :=
  { w with startZero := tickTimer false w.startZero, zeroDue := tickTimer false w.zeroDue,
           settle := tickTimer false w.settle }

/-- The wrap timer is frozen while the station is halted, the start timer never (R140). -/
def tickWrap (s : State) : WrapSeq :=
  { s.wrap with startTimer := tickTimer false s.wrap.startTimer, wrapTimer := tickTimer (halted s) s.wrap.wrapTimer,
                abort := tickTimer false s.wrap.abort }

/-- The print, apply and verify timers are frozen while the station is halted (R164). -/
def tickLabel (s : State) : LabelUnit :=
  { s.label with printTimer := tickTimer (halted s) s.label.printTimer
                 applyTimer := tickTimer (halted s) s.label.applyTimer
                 verifyTimer := tickTimer (halted s) s.label.verifyTimer
                 abortWait := tickTimer false s.label.abortWait
                 history := s.label.history.map tickStart }

def tickRoute (r : Route) : Route := { r with laneWait := tickTimer false r.laneWait }

/-- Every timer after a tick. -/
def tickTimers (s : State) : State :=
  (((((((s.setTable (s.table.map (tickEntry s))).setZone (tickZone s)).setStore (tickStore s.store)).setReader
    (tickReader s.reader)).setWeigh (tickWeigh s.weigh)).setWrap (tickWrap s)).setLabel (tickLabel s)).setRoute
    (tickRoute s.route)

/-! ## What a tick brings about -/

/-- A command, if its condition holds. -/
def when (b : Bool) (c : Instr) : List Instr := if b then [c] else []

/-- The expiry of an entry's timer. -/
def entryExpiry (s : State) (e : Entry) : List Instr :=
  when (expires (entryFrozen s e) e.timer)
    (if e.state = .expected then .arrivalTimerExpiry else .takenTimerExpiry e.record.track)

/-- The expiries of a tick (log 2 gives their order). -/
def expiries (s : State) : List Instr :=
  s.table.flatMap (entryExpiry s) ++
  when (expires false s.zone.offerTimer) .offerRepeatExpiry ++
  when (expires (halted s) s.zone.positionTimer) .positionTimerExpiry ++
  when (expires (releaseFrozen s) s.zone.releaseTimer) .releaseTimerExpiry ++
  when (expires false s.reader.tagWait) .tagWaitExpiry ++
  when (s.store.request.any (fun r => expires false r.wait)) .manifestWaitExpiry ++
  when (expires false s.weigh.startZero) .startZeroTimerExpiry ++
  when (expires false s.weigh.zeroDue) .zeroDueExpiry ++
  when (expires false s.weigh.settle) .settleTimerExpiry ++
  when (expires false s.wrap.startTimer) .startTimerExpiry ++
  when (expires (halted s) s.wrap.wrapTimer) .wrapTimerExpiry ++
  when (expires false s.wrap.abort) (.wrAbortPulseEnd none) ++
  when (expires (halted s) s.label.printTimer) .printTimerExpiry ++
  when (expires (halted s) s.label.applyTimer) .applyTimerExpiry ++
  when (expires (halted s) s.label.verifyTimer) .verifyTimerExpiry ++
  when (expires false s.label.abortWait) .abortWaitExpiry ++
  s.label.history.flatMap (fun p => when (p.inWindow && p.left ≤ 1) .historyEntryLeavesWindow) ++
  when (expires false s.route.laneWait) .laneWaitExpiry

/-- The command that hands a received frame on (R64, R65). -/
def handOn : RxFrame → Instr
  | .hold _ _ => .holdReceived
  | .resume _ => .resumeReceived
  | .clear => .clearReceived
  | .offer _ => .offerReceived
  | .accept _ => .acceptReceived
  | .released _ => .releasedReceived
  | .taken _ => .takenReceived
  | .lost _ => .lostReceived
  | .manifest _ => .manifestReceived
  | .hello _ => .helloReceived
  | .query => .queryReceived

/-- A tick: the timers count while the station is active; expiries first, then the frames in their order (log 2). -/
def tick (s : State) : State :=
  if active s then (tickTimers s).setPending (expiries s ++ s.line.rx.map handOn)
  else s.setPending (s.line.rx.map handOn)

end Sys2Proof.Machine
end

