-- ==== Sys2Proof/Machine/Image.lean ====
section
/-! DEFINITION. Reading and checking the configuration image (11.2, 12.3). -/

namespace Sys2Proof.Machine

/-- What the configuration memory delivers at an offset; beyond what it holds it reads as all ones (R178). -/
def imageByte (img : List Byte) (off : Nat) : Nat := (img.getD off 0xFF).toNat

/-- A two-byte number of the image. -/
def imageWord (img : List Byte) (off : Nat) : Nat := imageByte img off * 256 + imageByte img (off + 1)

/-- A four-byte number of the image. -/
def imageLong (img : List Byte) (off : Nat) : Nat := imageWord img off * 65536 + imageWord img (off + 2)

/-- The image length of Table 12-9. -/
def imageLength : Role → Nat
  | .check => 174 | .plain => 18 | .wrap => 136 | .label => 76 | .dispatch => 24

/-- The image is readable (R178, R183): format identifier 5A17H; an even length of at most 1024 that is the length for
the role field, or, for a role field outside 1..5, at least 18. -/
def imageReadable (img : List Byte) : Bool :=
  imageWord img 0 = 0x5A17 && imageWord img 2 % 2 = 0 && imageWord img 2 ≤ 1024 &&
    (match roleOf (imageByte img 5) with
     | some r => imageWord img 2 = imageLength r
     | none => 18 ≤ imageWord img 2)

/-- The sum of the image's 16-bit words, each with its first byte the more significant (R178). -/
def imageSum (img : List Byte) : Nat :=
  ((List.range (imageWord img 2 / 2)).map (fun k => imageWord img (2 * k))).sum

/-- The checksum is good when the sum is 0 modulo 65536 (R178). -/
def imageChecksum (img : List Byte) : Bool := imageSum img % 65536 = 0

/-- A number within a range, both ends included. -/
def within (lo hi v : Nat) : Bool := lo ≤ v && v ≤ hi

/-- A signed number within a range. -/
def withinInt (lo hi v : Int) : Bool := lo ≤ v && v ≤ hi

/-- Checks 1 to 4 of R179 on the node, role and neighbours. -/
def nodeOk (node : Nat) : Bool := within 1 24 node

/-- Check 3: each neighbour is 0..24 and differs from the node. -/
def neighboursOk (node up down : Nat) : Bool := up ≤ 24 && down ≤ 24 && up != node && down != node

/-- Check 4: CHECK has upstream 0, DISPATCH downstream 0, and each other neighbour of every role is non-zero. -/
def neighbourRolesOk (role : Role) (up down : Nat) : Bool :=
  (if role = .check then up = 0 else up != 0) && (if role = .dispatch then down = 0 else down != 0)

/-- The timing set at offsets 8..15 (Table 12-8). -/
def imageTiming (img : List Byte) : Timing :=
  { offerRepeat := imageWord img 8, release := imageWord img 10, transit := imageWord img 12,
    position := imageWord img 14 }

/-- Ranges of the timing set, in counts of 10 ms (Table 11-2). -/
def timingOk (t : Timing) : Bool :=
  within 10 200 t.offerRepeat && within 200 3000 t.release && within 100 3000 t.transit && within 200 3000 t.position

/-- Input codes (Table 12-9). -/
def inputOf : Nat → Option Input
  | 1 => some .lc1 | 2 => some .lc2 | 3 => some .lc3 | 4 => some .lc4 | 5 => some .exc | _ => none

/-- The conversion entry at an offset and its enable; `none` for a coded field without a meaning or a number out of
range (check 5, R183). -/
def conversionAt (img : List Byte) (off : Nat) : Option (Conversion × Bool) := do
  let input ← inputOf (imageByte img off)
  let c : Conversion :=
    { input := input, gain := imageWord img (off + 2), offset := signedOf 2 (imageWord img (off + 4)),
      low := signedOf 4 (imageLong img (off + 6)), high := signedOf 4 (imageLong img (off + 10)) }
  if imageByte img (off + 1) ≤ 1 && 1 ≤ c.gain && withinInt (-8192) 8191 c.offset && withinInt (-73727) 73724 c.low &&
      withinInt (-73727) 73724 c.high then
    some (c, imageByte img (off + 1) = 1)
  else none

/-- The active entries: those before the first disabled one (R85). The entries after that one are not decoded (R183);
the disabled entry itself is (log 9). -/
def conversionsAt (img : List Byte) (off : Nat) : Nat → Option (List Conversion)
  | 0 => some []
  | n + 1 =>
    match conversionAt img off with
    | none => none
    | some (c, true) => (conversionsAt img (off + 14) n).map (fun rest => c :: rest)
    | some (_, false) => some []

/-- Check 6: no input named twice and at least one load cell. -/
def conversionsOk (cs : List Conversion) : Bool :=
  decide (cs.map Conversion.input).Nodup && cs.any (fun c => c.input != .exc)

/-- CHECK's parameters, or `none` when check 5 or 6 fails (Table 12-9). -/
def checkCfgOf (img : List Byte) : Option CheckCfg := do
  let conversions ← conversionsAt img 41 8
  let c : CheckCfg :=
    { tagWait := imageWord img 16, manifestWait := imageWord img 18, scanPeriod := imageWord img 20,
      windowSize := imageByte img 22, settleBand := imageWord img 23, settleTimeout := imageWord img 25,
      zeroInterval := imageWord img 27, zeroRange := imageWord img 29, startRange := imageWord img 31,
      deadLoad := signedOf 4 (imageLong img 33), capacity := imageLong img 37, conversions := conversions,
      nominalLength := imageWord img 153, overhangAllowance := imageByte img 155, maxPassSteps := imageWord img 156,
      gapAllowance := imageByte img 158, voidLimit := imageByte img 159, baseHeight := imageByte img 160,
      heightAllowance := imageWord img 161, fixedAllowance := imageWord img 163, perMille := imageByte img 165,
      caseAllowance := imageWord img 166, trayAllowance := imageWord img 168, kegAllowance := imageWord img 170 }
  if within 50 1000 c.tagWait && within 50 1000 c.manifestWait && within 5 50 c.scanPeriod && within 4 32 c.windowSize &&
      within 1 500 c.settleBand && within 100 2000 c.settleTimeout && within 1000 60000 c.zeroInterval &&
      c.zeroRange ≤ 5000 && c.startRange ≤ 20000 && withinInt (-294908) 294896 c.deadLoad &&
      within 10000 250000 c.capacity && within 800 1400 c.nominalLength && c.overhangAllowance ≤ 200 &&
      within 100 600 c.maxPassSteps && c.gapAllowance ≤ 3 && c.voidLimit ≤ 100 && within 100 250 c.baseHeight &&
      within 25 300 c.heightAllowance && c.fixedAllowance ≤ 5000 && c.perMille ≤ 50 && c.caseAllowance ≤ 500 &&
      c.trayAllowance ≤ 500 && c.kegAllowance ≤ 500 && conversionsOk conversions then
    some c
  else none

/-- A recipe of 14 bytes; class set bits 3..7 are ignored and bands are taken as written (R183). -/
def recipeAt (img : List Byte) (off : Nat) : Recipe :=
  { code := imageByte img off, hasCase := (imageByte img (off + 1)).testBit 0,
    hasTray := (imageByte img (off + 1)).testBit 1, hasKeg := (imageByte img (off + 1)).testBit 2,
    heightMin := imageWord img (off + 2), heightMax := imageWord img (off + 4), massMin := imageLong img (off + 6),
    massMax := imageLong img (off + 10) }

/-- WRAP's parameters, or `none` when check 5 or 7 fails. -/
def wrapCfgOf (img : List Byte) : Option WrapCfg :=
  let c : WrapCfg :=
    { startTimeout := imageWord img 16, wrapTimeout := imageWord img 18, defaultIndex := imageByte img 20,
      recipes := (List.range 8).map (fun i => recipeAt img (21 + 14 * i)) }
  if within 100 1000 c.startTimeout && within 3000 60000 c.wrapTimeout && within 1 8 c.defaultIndex &&
      c.recipes.all (fun r => within 1 15 r.code) then
    some c
  else none

/-- A character the site text may hold: a capital letter, a digit, a space, a hyphen or a full stop (check 8). -/
def siteCharOk (b : Nat) : Bool := within 0x41 0x5A b || within 0x30 0x39 b || b = 0x20 || b = 0x2D || b = 0x2E

/-- The site text ends at its first 00H byte, and every byte after that must also be 00H (R183). -/
def siteTextOf (img : List Byte) : Option (List Byte) :=
  let field := (List.range 24).map (fun i => imageByte img (26 + i))
  let text := field.takeWhile (fun b => b != 0)
  if text.all siteCharOk && (field.drop text.length).all (fun b => b = 0) then
    some (text.map (fun b => BitVec.ofNat 8 b))
  else none

/-- Gather source codes (12.3); 0 marks an unused entry. -/
def sourceOf (code : Nat) : Option Source :=
  if code = 1 then some .dispatchCode
  else if code = 2 then some .serial
  else if code = 3 then some .order
  else if code = 4 then some .gross
  else if within 5 10 code then some (.article (code - 4))
  else if within 11 16 code then some (.count (code - 10))
  else if code = 17 then some .duty
  else if code = 18 then some .laneClass
  else if code = 19 then some .siteText
  else if code = 20 then some .labelSeq
  else none

/-- The used gather entries in index order, from offset `off`; `none` when a used entry has a bad row or source (check
8). The row byte of an unused entry is ignored (R183). -/
def gatherAt (img : List Byte) (off : Nat) : Nat → Option (List Gather)
  | 0 => some []
  | n + 1 =>
    match gatherAt img (off + 2) n with
    | none => none
    | some rest =>
      if imageByte img (off + 1) = 0 then some rest
      else
        match sourceOf (imageByte img (off + 1)) with
        | none => none
        | some src => if within 1 12 (imageByte img off) then some ({ row := imageByte img off, source := src } :: rest)
                      else none

/-- LABEL's parameters, or `none` when check 5 or 8 fails. -/
def labelCfgOf (img : List Byte) : Option LabelCfg := do
  let site ← unpackDigits 2 [BitVec.ofNat 8 (imageByte img 25)]
  let text ← siteTextOf img
  let gather ← gatherAt img 50 12
  let c : LabelCfg :=
    { attempts := imageByte img 16, printTimeout := imageWord img 17, applyTimeout := imageWord img 19,
      verifyWait := imageWord img 21, printWindow := imageWord img 23, site := site, siteText := text,
      gather := gather }
  if within 1 3 c.attempts && within 100 1000 c.printTimeout && within 100 1000 c.applyTimeout &&
      within 100 1000 c.verifyWait && within 500 12000 c.printWindow then
    some c
  else none

/-- A lane's duty: IN_BOND or DUTY_PAID (check 9). -/
def laneDutyOf (code : Nat) : Option Duty := if code = 1 then some .inBond else if code = 2 then some .dutyPaid else none

/-- A lane's class letter: A or B (check 9). -/
def letterOf (code : Nat) : Option LaneClass := if code = 1 then some .a else if code = 2 then some .b else none

/-- DISPATCH's parameters, or `none` when check 5 or 9 fails. -/
def dispatchCfgOf (img : List Byte) : Option DispatchCfg := do
  let duty1 ← laneDutyOf (imageByte img 18)
  let letter1 ← letterOf (imageByte img 19)
  let duty2 ← laneDutyOf (imageByte img 20)
  let letter2 ← letterOf (imageByte img 21)
  if within 1000 60000 (imageWord img 16) then
    some { laneWait := imageWord img 16, duty1 := duty1, letter1 := letter1, duty2 := duty2, letter2 := letter2 }
  else none

/-- The configuration a valid image loads; `none` is invalid (R179). -/
def imageConfig (img : List Byte) : Option Loaded := do
  let role ← roleOf (imageByte img 5)
  let node := imageByte img 4
  let up := imageByte img 6
  let down := imageByte img 7
  if nodeOk node && neighboursOk node up down && neighbourRolesOk role up down && timingOk (imageTiming img) then
    let base : Loaded :=
      { Loaded.none with node := node, role := some role, up := some up, down := some down, timing := imageTiming img }
    match role with
    | .check => (checkCfgOf img).map (fun c => { base with check := c })
    | .plain => some base
    | .wrap => (wrapCfgOf img).map (fun c => { base with wrap := c })
    | .label => (labelCfgOf img).map (fun c => { base with label := c })
    | .dispatch => (dispatchCfgOf img).map (fun c => { base with dispatch := c })
  else none

/-- What the station keeps of an image that is not valid (R179, R61; log 10): nothing of an unreadable one; of a readable
one its node if that is 1..24, and its role and neighbours if those fields pass checks 2 and 3. -/
def imageKept (img : List Byte) : Loaded :=
  if imageReadable img then
    let node := if nodeOk (imageByte img 4) then imageByte img 4 else 0
    match roleOf (imageByte img 5) with
    | some role =>
      if neighboursOk (imageByte img 4) (imageByte img 6) (imageByte img 7) then
        { Loaded.none with node := node, role := some role, up := some (imageByte img 6), down := some (imageByte img 7) }
      else { Loaded.none with node := node }
    | none => { Loaded.none with node := node }
  else Loaded.none

/-- The verdict on an image: the configuration of a valid one; of any other, what is kept in OUT_OF_SERVICE (R178,
R179). -/
def imageVerdict (img : List Byte) : Except Loaded Loaded :=
  if imageReadable img && imageChecksum img then
    match imageConfig img with
    | some c => .ok c
    | none => .error (imageKept img)
  else .error (imageKept img)

end Sys2Proof.Machine
end

