-- ==== Sys2Proof/Machine/Operands.lean ====
section
/-! DEFINITION. What the operands of the commands say: characters and lines of the two serial inputs (R73, R75, R155,
R160, 12.2), the messages of the print engine, the raw values of a scan (R86 to R88), the beams of a snapshot (R108). -/

namespace Sys2Proof.Machine

/-! ## Line buffers -/

/-- A line buffer with room for `cap` characters takes one more: a character beyond the last place is discarded and the
line is marked overlong (R73, R155). -/
def takeChar (cap : Nat) (b : List RxChar × Bool) (c : RxChar) : List RxChar × Bool :=
  if b.1.length < cap then (b.1 ++ [c], b.2) else (b.1, true)

/-- A line buffer takes the characters of a line. -/
def takeChars (cap : Nat) (b : List RxChar × Bool) (cs : List RxChar) : List RxChar × Bool := cs.foldl (takeChar cap) b

/-- The digit a character is: 0 to 9 are 30H to 39H (12.2); a character with a framing error is none (R73). -/
def charDigit : RxChar → Option Digit
  | some b => if 0x30 ≤ b.toNat ∧ b.toNat ≤ 0x39 then digitOf (b.toNat - 0x30) else none
  | none => none

/-- A line of exactly `n` characters, each a digit; an overlong line is never valid (R73). -/
def digitLine (n : Nat) (b : List RxChar × Bool) : Option Digits :=
  if b.2 = false ∧ b.1.length = n then b.1.mapM charDigit else none

/-- The serial of a valid tag read: 11 digits, the eleventh the check digit of the first ten (R75). -/
def tagRead (b : List RxChar × Bool) : Option Digits :=
  match digitLine 11 b with
  | some ds => if ds[10]? = some (checkDigit (ds.take 10)) then some (ds.take 10) else none
  | none => none

/-- The code of a valid verify read: 13 digits, the check digit not tested (R160). -/
def verifyRead (b : List RxChar × Bool) : Option Digits := digitLine 13 b

/-! ## The print engine's messages (Table 9-1, 12.2) -/

/-- A message of the engine. -/
inductive EngineMessage
  | pd | ap | ms | ft (cause : Nat) | ry
  deriving DecidableEq, Repr

/-- The value of digits in decimal. -/
def digitsValue (ds : Digits) : Nat := ds.foldl (fun acc d => acc * 10 + d.val) 0

/-- FT's cause number: 1 to 3 digits, 0..255, no leading zero but the single digit 0 (12.2). -/
def faultNumber (cs : List RxChar) : Option Nat :=
  match cs.mapM charDigit with
  | some ds =>
    if 1 ≤ ds.length ∧ ds.length ≤ 3 ∧ (ds.length = 1 ∨ ds.head? ≠ some 0) ∧ digitsValue ds ≤ 255 then
      some (digitsValue ds)
    else none
  | none => none

/-- The message a complete line is: the type alone for PD, AP, MS and RY, the type and a cause number for FT; an overlong
line, and any other line, is no message (R155, 12.2). -/
def engineMessage (b : List RxChar × Bool) : Option EngineMessage :=
  if b.2 then none
  else if b.1 = [some 0x50, some 0x44] then some .pd
  else if b.1 = [some 0x41, some 0x50] then some .ap
  else if b.1 = [some 0x4D, some 0x53] then some .ms
  else if b.1 = [some 0x52, some 0x59] then some .ry
  else if b.1.take 2 = [some 0x46, some 0x54] then (faultNumber (b.1.drop 2)).map EngineMessage.ft
  else none

/-! ## Scans (5.1) -/

/-- The raw value of an input. -/
def rawOf (raw : RawScan) : Input → Int
  | .lc1 => raw.lc1.toInt
  | .lc2 => raw.lc2.toInt
  | .lc3 => raw.lc3.toInt
  | .lc4 => raw.lc4.toInt
  | .exc => raw.exc.toInt

/-- The corrected value floor(r × g / 32768 + 1/2) + b (R86). -/
def corrected (c : Conversion) (r : Int) : Int := (r * (c.gain : Int) + 16384) / 32768 + c.offset

/-- An entry flags the scan when its corrected value lies below its low limit or above its high limit (R87). -/
def entryFlags (c : Conversion) (v : Int) : Bool := v < c.low || c.high < v

/-- A scan as a sample: the sum of the load cells' corrected values (R88), flagged when any active entry is (R87). -/
def sampleOf (cs : List Conversion) (raw : RawScan) : Sample :=
  { gross := ((cs.filter (fun c => c.input != .exc)).map (fun c => corrected c (rawOf raw c.input))).sum
    flagged := cs.any (fun c => entryFlags c (corrected c (rawOf raw c.input))) }

/-! ## Snapshots (R108) -/

/-- The blocked beams of a snapshot, lowest first. -/
def blockedBeams (beams : BitVec 40) : List Nat := (List.range 40).filter (fun k => beams.getLsbD k)

/-- The snapshot's top, the index of the highest blocked beam. -/
def snapshotTop (beams : BitVec 40) : Nat := (blockedBeams beams).getLast?.getD 0

/-- The snapshot's count of blocked beams. -/
def snapshotCount (beams : BitVec 40) : Nat := (blockedBeams beams).length

end Sys2Proof.Machine
end

