-- ==== Sys2Proof/Machine/CheckOps.lean ====
section
/-! DEFINITION. Operations of the CHECK blocks: Code Reader Port and Manifest Store (Chapter 4), Weigh Unit (Chapter 5),
Profile Unit (Chapter 6), Check Evaluator (Chapter 7). -/

namespace Sys2Proof.Machine

/-- A record stands in WORKING. -/
def workingHere (s : State) : Bool := (zoneEntryIn s .working).isSome

/-- An input block hands its resolution to the evaluation, if there is one (R121). -/
def updateEval (f : Evaluation → Evaluation) (s : State) : State := s.setEval (s.eval.map f)

/-! ## Code Reader Port (R73, R74) -/

/-- A window is opened: the buffer is emptied and there is no kept read yet (R73). -/
def openWindow (w : Window) (s : State) : State :=
  s.setReader { s.reader with buffer := [], overlong := false, window := w, kept := none }

/-- The owner closes the window without a kept read (R73). -/
def closeWindow (s : State) : State := openWindow .closed s

/-- A valid line is kept, all its digits, and the window closes (R73). -/
def keepRead (ds : Digits) (s : State) : State :=
  s.setReader { s.reader with buffer := [], overlong := false, window := .closed, kept := some ds }

/-- The line is judged and not kept: the buffer is emptied, the window stays (R73). -/
def dropLine (s : State) : State := s.setReader { s.reader with buffer := [], overlong := false }

def stopTagWait (s : State) : State := s.setReader { s.reader with tagWait := none }

/-- The line buffer with a completed line's characters in it. -/
def readerLine (chars : List RxChar) (s : State) : List RxChar × Bool :=
  takeChars Config.readerBuffer (s.reader.buffer, s.reader.overlong) chars

/-! ## Manifest Store (R76 to R81) -/

/-- The serial written into a record (R76). -/
def writeSerial (ds : Digits) (r : TravelRecord) : TravelRecord := { r with serial := some ds }

/-- A found manifest written into a record (R81). -/
def writeManifest (m : Manifest) (r : TravelRecord) : TravelRecord :=
  { r with manifestPresent := true, order := m.order, duty := m.duty, laneClass := m.laneClass, tare := some m.tare,
           lines := m.lines }

/-- The manifest resolves FOUND: handed to the Evaluator, and written at once if the record is WORKING (R81). -/
def manifestFound (m : Manifest) (s : State) : State :=
  let s1 := updateEval (fun e => { e with manifest := some (.found m) }) s
  if workingHere s then writeWorking (writeManifest m) s1 else s1

/-- The manifest resolves NOT_FOUND or NOT_APPLICABLE: nothing is written into the record (R79, R80). -/
def manifestMissing (res : ManifestResolution) (s : State) : State :=
  updateEval (fun e => { e with manifest := some res }) s

/-- The pending request's WANTED is queued and its wait starts, in IN_SERVICE only (R78). -/
def raiseRequest (s : State) : State :=
  match s.store.request with
  | some r =>
    if inService s && r.wait.isNone then
      queueFrame (.wanted r.serial)
        (s.setStore { s.store with request := some { r with wait := some s.cfg.check.manifestWait } })
    else s
  | none => s

/-- The search: a found manifest leaves the list (R77); a miss makes the pending request (R78). -/
def lookUp (ds : Digits) (s : State) : State :=
  match s.store.manifests.find? (fun m => m.serial = ds) with
  | some m => manifestFound m (s.setStore { s.store with manifests := s.store.manifests.filter (fun m => m.serial != ds) })
  | none => raiseRequest (s.setStore { s.store with request := some { serial := ds, wait := none } })

/-- The pending request ends and its unsent WANTED is withdrawn (R79). -/
def endRequest (s : State) : State :=
  match s.store.request with
  | some r => withdrawFrames (fun f => f = .wanted r.serial) (s.setStore { s.store with request := none })
  | none => s

/-- The tag resolves SERIAL: handed, written at once if the record is WORKING, and looked up (R76). -/
def tagSerial (ds : Digits) (s : State) : State :=
  let s1 := updateEval (fun e => { e with tag := some (.serial ds) }) (stopTagWait (keepRead (ds ++ [checkDigit ds]) s))
  lookUp ds (if workingHere s then writeWorking (writeSerial ds) s1 else s1)

/-- The tag resolves UNREAD and the manifest NOT_APPLICABLE in the same event (R76, R80). -/
def tagUnread (s : State) : State :=
  manifestMissing .notApplicable
    (updateEval (fun e => { e with tag := some .unread }) (stopTagWait (closeWindow s)))

/-- A valid manifest bound to the pallet at work (R79, first case). -/
def bindManifest (m : Manifest) (s : State) : State := manifestFound m (endRequest s)

/-- The list after a valid manifest that no request names: replaced, oldest evicted, or inserted (R72, cases 2 to 4). -/
def storeManifest (m : Manifest) (ms : List Manifest) : List Manifest :=
  if ms.any (fun x => x.serial = m.serial) then ms.filter (fun x => x.serial != m.serial) ++ [m]
  else if ms.length < Config.storeCapacity then ms ++ [m]
  else ms.drop 1 ++ [m]

/-- A MANIFEST handed to the store (R71, R72). -/
def receiveManifest (payload : List Byte) (s : State) : State :=
  match validateManifest payload with
  | .error e => notify (.manifestRejected e.check e.line e.serial) s
  | .ok m =>
    if s.store.request.any (fun r => r.serial = m.serial) then bindManifest m s
    else s.setStore { s.store with manifests := storeManifest m s.store.manifests }

/-! ## Weigh Unit -/

/-- A scan joins the settle window; with N + 1 scans the oldest leaves (R89). -/
def joinWindow (n : Nat) (w : List Sample) (x : Sample) : List Sample := (w ++ [x]).drop ((w ++ [x]).length - n)

/-- The window is stable: N scans, none flagged, greatest less least at most the settle band (R89). -/
def stableWindow (c : CheckCfg) (w : List Sample) : Bool :=
  w.length = c.windowSize && w.all (fun x => !x.flagged) &&
    w.all (fun x => w.all (fun y => x.gross - y.gross ≤ (c.settleBand : Int)))

/-- The mean of the samples, rounded half up: floor(ΣS / N + 1/2) (R89). -/
def stableSum (w : List Sample) : Int :=
  (2 * (w.map Sample.gross).sum + (w.length : Int)) / (2 * (w.length : Int))

def emptyWindow (s : State) : State := s.setWeigh { s.weigh with window := [] }

/-- SCALE_FAULT goes from clear to set, with its notice, which STARTING owes until IN_SERVICE (R94). -/
def setScaleFault (kind : ZeroFaultKind) (v : Option Int) (s : State) : State :=
  if s.weigh.scaleFault then s
  else if inService s then notify (.zeroFault kind v) (s.setWeigh { s.weigh with scaleFault := true })
  else s.setWeigh { s.weigh with scaleFault := true, owedFault := some (kind, v) }

/-- The zero value passes its range test (R92). -/
def zeroInRange (s : State) (v : Int) : Bool :=
  if s.weigh.established then (v - s.weigh.z0).natAbs ≤ s.cfg.check.zeroRange
  else (v - s.cfg.check.deadLoad).natAbs ≤ s.cfg.check.startRange

/-- A zero attempt on the window as it stands (R92). -/
def zeroAttempt (s : State) : State :=
  let v := stableSum s.weigh.window
  if zeroInRange s v then
    s.setWeigh { s.weigh with z0 := if s.weigh.established then s.weigh.z0 else v, established := true, z := v,
                              postponed := 0, scaleFault := false, zeroDue := some s.cfg.check.zeroInterval,
                              window := [] }
  else
    emptyWindow (setScaleFault (if s.weigh.established then .zeroRange else .startRange) (some v) s)

/-- The zero is postponed; a count that reaches 8 sets ZERO_OVERDUE and is reported (R95, R96). -/
def postponeZero (s : State) : State :=
  if s.weigh.postponed < Config.postponeLimit then
    let s1 := s.setWeigh { s.weigh with postponed := s.weigh.postponed + 1 }
    if s1.weigh.postponed = Config.postponeLimit then notify (.zeroOverdue s1.weigh.z) s1 else s1
  else s

/-- The mass handed to the Evaluator (R121). -/
def handMass (m : Option MassResolution) (s : State) : State := updateEval (fun e => { e with mass := m }) s

/-- Weighing begins at entry to WORKING (R98). -/
def startWeighing (s : State) : State :=
  let w : Weigh := { s.weigh with held := none, restarts := 0, window := [] }
  if s.weigh.scaleFault || !s.weigh.established then
    handMass (some .scaleFault) (s.setWeigh { w with weighing := false, settle := none })
  else handMass none (s.setWeigh { w with weighing := true, settle := some s.cfg.check.settleTimeout })

/-- The mass becomes final and the weighing ends (R103). -/
def endWeighing (m : MassResolution) (s : State) : State :=
  handMass (some m) (s.setWeigh { s.weigh with weighing := false, settle := none, held := none })

/-- The stable gross of a stable window: the stable sum less the zero, raised to 0 (R99). -/
def stableGross (s : State) : Nat := (stableSum s.weigh.window - s.weigh.z).toNat

/-- A stable window during a weighing (R99). -/
def takeStable (s : State) : State :=
  if s.cfg.check.capacity < stableGross s then endWeighing .scaleFault s
  else
    handMass (some (.stable (stableGross s)))
      (s.setWeigh { s.weigh with settle := none, held := some { sum := stableSum s.weigh.window, gross := stableGross s },
                                 lastGross := stableGross s })

/-- A disturbance: withdrawn and weighed again, or UNSTABLE the fourth time (R100). -/
def disturb (s : State) : State :=
  if s.weigh.restarts < Config.restartLimit then
    handMass none
      (s.setWeigh { s.weigh with held := none, restarts := s.weigh.restarts + 1, window := [],
                                 settle := some s.cfg.check.settleTimeout })
  else endWeighing .unstable (emptyWindow s)

/-- A scan joins the window of the station. -/
def joinScan (x : Sample) (s : State) : State :=
  s.setWeigh { s.weigh with window := joinWindow s.cfg.check.windowSize s.weigh.window x }

/-- A flagged scan joins the window (R87); where it withdraws a held value, that empties the window (R89, R102), the scan
with it (log 31). -/
def flaggedWindow (x : Sample) (s : State) : State :=
  if s.weigh.held.isSome then emptyWindow s else joinScan x s

/-- A scan during a weighing (R99, R100, R102). -/
def weighScan (x : Sample) (s : State) : State :=
  if x.flagged then endWeighing .scaleFault (flaggedWindow x s)
  else
    match s.weigh.held with
    | some h => if s.cfg.check.settleBand < (x.gross - h.sum).natAbs then disturb s else joinScan x s
    | none => if stableWindow s.cfg.check (joinScan x s).weigh.window then takeStable (joinScan x s) else joinScan x s

/-- The figures CLEAR drops: timer, held value, restart count, window (R104). -/
def clearWeighing (s : State) : State :=
  s.setWeigh { s.weigh with settle := none, held := none, restarts := 0, window := [], weighing := false }

/-! ## Profile Unit -/

/-- The profiling's captures and running figures, cleared (R109, R117, R118). -/
def resetProfiling (ph : Phase) (s : State) : State :=
  s.setProf { s.prof with phase := ph, front := none, rear := none, compare := none, ever := false, top := none,
                          gaps := 0 }

/-- The profile input handed or withdrawn (R121). -/
def handProfile (p : Option ProfileResolution) (s : State) : State := updateEval (fun e => { e with profile := p }) s

/-- The measured height of a top beam (R116). -/
def beamHeight (top : Nat) : Nat := 125 + 50 * top

/-- The profile completes and is handed with its figures (R116); the overrun compare is done with (log 11). -/
def completeProfile (length : Nat) (overrun : Bool) (s : State) : State :=
  handProfile
    (some (.complete { top := s.prof.top.getD 0, height := beamHeight (s.prof.top.getD 0), length := length,
                       gaps := s.prof.gaps, overrun := overrun }))
    (s.setProf { s.prof with phase := .complete, compare := none })

/-- PROFILE_FAULT (R115). -/
def faultProfile (s : State) : State := handProfile (some .profileFault) (s.setProf { s.prof with phase := .faulted })

/-- Steps from the front capture to a counter value, modulo 65536 (R107). -/
def stepsFrom (front : Option (BitVec 16)) (c : BitVec 16) : Nat := (c - front.getD c).toNat

/-- A blocked snapshot in the curtain adds to the running figures (R112). -/
def gapSample (allowance : Nat) (beams : BitVec 40) : Bool :=
  (snapshotCount beams : Int) < (snapshotTop beams : Int) + 1 - (allowance : Int)

def addSnapshot (allowance : Nat) (beams : BitVec 40) (p : Profile) : Profile :=
  { p with top := some (max (p.top.getD 0) (snapshotTop beams))
           gaps := if gapSample allowance beams then p.gaps + 1 else p.gaps }

/-- A snapshot in ARMED takes the front edge (R111). -/
def frontEdge (c : CheckCfg) (beams : BitVec 40) (p : Profile) : Profile :=
  addSnapshot c.gapAllowance beams
    { p with front := some p.counter, ever := true, compare := some (p.counter + BitVec.ofNat 16 c.maxPassSteps),
             phase := .inCurtain }

/-- A snapshot in IN_CURTAIN (R112 to R114). -/
def curtainStep (beams : BitVec 40) (s : State) : State :=
  if beams = 0 then
    completeProfile (stepsFrom s.prof.front s.prof.counter * 5) false
      (s.setProf { s.prof with rear := some s.prof.counter })
  else
    let s1 := s.setProf (addSnapshot s.cfg.check.gapAllowance beams s.prof)
    if s.prof.compare = some s.prof.counter then completeProfile (s.cfg.check.maxPassSteps * 5) true s1 else s1

/-- The snapshot of a step in the phase it finds (R110 to R114). -/
def profileStep (beams : BitVec 40) (s : State) : State :=
  match s.prof.phase with
  | .unarmed => if beams = 0 then s.setProf { s.prof with phase := .armed } else s
  | .armed => if beams = 0 then s else s.setProf (frontEdge s.cfg.check beams s.prof)
  | .inCurtain => curtainStep beams s
  | .none => s
  | .complete => s
  | .faulted => s

/-- The captures are done with once the pallet stands at position (log 11). -/
def dropCaptures (s : State) : State := s.setProf { s.prof with front := none, rear := none, compare := none }

/-- At the position eye the profile of a record with an evaluation resolves if it has not (R115). -/
def profileAtPosition (s : State) : State :=
  if s.eval.isNone then s
  else
    match s.prof.phase with
    | .unarmed => dropCaptures (faultProfile s)
    | .armed => dropCaptures (faultProfile s)
    | .inCurtain =>
      dropCaptures (completeProfile (max 5 (stepsFrom s.prof.front s.prof.counter * 5)) false s)
    | .complete => dropCaptures s
    | .none => s
    | .faulted => s

/-- An acknowledge discards the profiling of a PRESENT record and begins it again (R117). -/
def restartProfiling (s : State) : State :=
  if s.eval.isNone then s else handProfile none (resetProfiling .unarmed s)

/-! ## Check Evaluator (Chapter 7) -/

/-- A new evaluation: four inputs unresolved (R120). -/
def openEvaluation (t : Track) (s : State) : State :=
  s.setEval (some { track := t, tag := none, manifest := none, profile := none, mass := none })

/-- E = T + Σ n × u (R127). -/
def expectedMass (r : TravelRecord) : Nat := r.tare.getD 0 + (r.lines.map (fun l => l.count * l.mass)).sum

/-- The configured allowance of a class (Table 7-2). -/
def classAllowance (c : CheckCfg) : UnitClass → Nat
  | .caseUnit => c.caseAllowance | .tray => c.trayAllowance | .keg => c.kegAllowance

/-- tol = F + ceil(E × p / 1000) + Σ n × a(class), at most 65535 (R128). -/
def tolerance (c : CheckCfg) (r : TravelRecord) : Nat :=
  min 65535
    (c.fixedAllowance + (expectedMass r * c.perMille + 999) / 1000 +
      (r.lines.map (fun l => l.count * classAllowance c l.unitClass)).sum)

/-- EH = B + Σ L × h (R130). -/
def expectedHeight (c : CheckCfg) (r : TravelRecord) : Nat :=
  c.baseHeight + (r.lines.map (fun l => l.layers * l.layerHeight)).sum

/-- The four inputs, resolved. -/
structure Inputs where
  tag : TagResolution
  manifest : ManifestResolution
  profile : ProfileResolution
  mass : MassResolution
  deriving DecidableEq, Repr

def manifestIsFound : ManifestResolution → Bool
  | .found _ => true
  | .notFound => false
  | .notApplicable => false

/-- D = G − E (R129). -/
def deviationOf (r : TravelRecord) (gross : Nat) : Int := (gross : Int) - (expectedMass r : Int)

/-- The profile's own tests and the height comparison, on a COMPLETE profile (R130 to R133). -/
def profileReason (c : CheckCfg) (r : TravelRecord) (found : Bool) (f : ProfileFigures) : Reason → Bool
  | .overhang => c.nominalLength + c.overhangAllowance < f.length || f.overrun
  | .heightHigh => f.top = 39 || (found && expectedHeight c r + c.heightAllowance < f.height)
  | .heightLow => found && f.top != 39 && (f.height : Int) < (expectedHeight c r : Int) - (c.heightAllowance : Int)
  | .void => c.voidLimit < f.gaps
  | _ => false

/-- The mass comparison, made on a found manifest with E not above the capacity (R129). -/
def massReason (c : CheckCfg) (r : TravelRecord) (gross : Nat) : Reason → Bool
  | .underweight => expectedMass r ≤ c.capacity && deviationOf r gross < -(tolerance c r : Int)
  | .overweight => expectedMass r ≤ c.capacity && (tolerance c r : Int) < deviationOf r gross
  | _ => false

/-- A reason's row of Table 7-3 (R125). -/
def reasonHolds (c : CheckCfg) (r : TravelRecord) (i : Inputs) (x : Reason) : Bool :=
  (x = .tagUnread && i.tag = .unread) || (x = .noManifest && i.manifest = .notFound) ||
  (x = .manifestInvalid && manifestIsFound i.manifest && c.capacity < expectedMass r) ||
  (x = .scaleFault && i.mass = .scaleFault) || (x = .profileFault && i.profile = .profileFault) ||
  (x = .unstable && i.mass = .unstable) ||
  (match i.profile with
   | .complete f => profileReason c r (manifestIsFound i.manifest) f x
   | .profileFault => false) ||
  (match i.mass with
   | .stable g => manifestIsFound i.manifest && massReason c r g x
   | .unstable => false
   | .scaleFault => false)

/-- The fail set, in the order of R126. -/
def failSet (c : CheckCfg) (r : TravelRecord) (i : Inputs) : List Reason := reasons.filter (reasonHolds c r i)

/-- PASS when the fail set is empty, else FAIL with its first member as the primary reason (R126). -/
def verdictOf : List Reason → CheckVerdict
  | [] => .pass
  | x :: rest => .fail x (x :: rest)

/-- The fields an evaluation writes (R134). -/
def evaluated (c : CheckCfg) (i : Inputs) (r : TravelRecord) : TravelRecord :=
  { r with
    gross := match i.mass with
      | .stable g => some g
      | .unstable => none
      | .scaleFault => none
    height := match i.profile with
      | .complete f => some f.height
      | .profileFault => none
    length := match i.profile with
      | .complete f => some f.length
      | .profileFault => none
    deviation := match i.mass with
      | .stable g => if manifestIsFound i.manifest then some (deviationOf r g) else none
      | .unstable => none
      | .scaleFault => none
    check := some (verdictOf (failSet c r i)) }

/-- The four inputs of an evaluation, when all are resolved. -/
def inputsOf (e : Evaluation) : Option Inputs :=
  match e.tag, e.manifest, e.profile, e.mass with
  | some t, some m, some p, some g => some { tag := t, manifest := m, profile := p, mass := g }
  | _, _, _, _ => none

/-- The notice of a FAIL (R135). -/
def reportVerdict (t : Track) (v : CheckVerdict) (s : State) : State :=
  match v with
  | .pass => s
  | .fail p _ => notify (.checkFailed t p) s

/-- The evaluation of the record in WORKING on its resolved inputs (R134, R103). -/
def evaluate (e : Entry) (i : Inputs) (s : State) : State :=
  reportVerdict e.record.track (verdictOf (failSet s.cfg.check e.record i))
    ((endWork (writeWorking (evaluated s.cfg.check i)
      (s.setWeigh { s.weigh with weighing := false, settle := none }))).setEval none)

/-- The evaluation takes place in the event in which its record is WORKING and all four inputs are resolved (R122). The
Evaluator is in service at CHECK alone (00, Table 0-1). -/
def evalStep (s : State) : State :=
  if hasRole s .check then
    match s.eval with
    | some ev =>
      match inputsOf ev, zoneEntryIn s .working with
      | some i, some e => if e.record.track = ev.track then evaluate e i s else s
      | _, _ => s
    | none => s
  else s

/-! ## The blocks together -/

/-- What the resolutions already held write into a record that enters WORKING (R76, R81). -/
def writeHeld (ev : Evaluation) (r : TravelRecord) : TravelRecord :=
  let r1 := match ev.tag with
    | some (.serial ds) => writeSerial ds r
    | some .unread => r
    | none => r
  match ev.manifest with
  | some (.found m) => writeManifest m r1
  | some .notFound => r1
  | some .notApplicable => r1
  | none => r1

/-- A tag not yet resolved when the record enters WORKING starts the tag wait (R74). -/
def startTagWait (ev : Evaluation) (s : State) : State :=
  if ev.tag.isNone then s.setReader { s.reader with tagWait := some s.cfg.check.tagWait } else s

/-- CHECK's work on a record that enters WORKING (R74, R76, R81, R89, R98); a record with no evaluation gets none (R13). -/
def beginCheck (s : State) : State :=
  match s.eval with
  | some ev => startWeighing (startTagWait ev (writeWorking (writeHeld ev) s))
  | none => emptyWindow s

/-- CHECK's blocks follow a zone record that an acknowledge removes (R84, R118, R123). A kept read goes too, though its window had
closed before (DESIGN CHOICE, log 32). -/
def dropCheckWork (s : State) : State :=
  resetProfiling .none ((stopTagWait (closeWindow (endRequest s))).setEval none)

/-- CHECK's blocks at CLEAR (R82, R104, R118, R124); a kept read goes too (DESIGN CHOICE, log 32). -/
def clearCheck (s : State) : State :=
  let s1 := clearWeighing (dropCheckWork s)
  (s1.setStore { s1.store with manifests := [] }).setProf { s1.prof with counter := 0 }

end Sys2Proof.Machine
end

