-- ==== Sys2Proof/Machine/WrapOps.lean ====
section
/-! DEFINITION. Operations of the Wrap Sequencer (Chapter 8). -/

namespace Sys2Proof.Machine

/-- The total unit count of a class (R138). -/
def classTotal (lines : List GoodsLine) (c : UnitClass) : Nat :=
  ((lines.filter (fun l => l.unitClass = c)).map GoodsLine.count).sum

/-- The dominant class: the largest total, a tie going to the first of KEG, CASE, TRAY (R138). -/
def dominantClass (lines : List GoodsLine) : UnitClass :=
  if classTotal lines .caseUnit ≤ classTotal lines .keg && classTotal lines .tray ≤ classTotal lines .keg then .keg
  else if classTotal lines .tray ≤ classTotal lines .caseUnit then .caseUnit
  else .tray

/-- The class set of a recipe contains a class (R139). -/
def recipeHas (r : Recipe) : UnitClass → Bool
  | .caseUnit => r.hasCase | .tray => r.hasTray | .keg => r.hasKeg

/-- The three tests of R139. -/
def recipeFits (cls : UnitClass) (height gross : Nat) (r : Recipe) : Bool :=
  recipeHas r cls && r.heightMin ≤ height && height ≤ r.heightMax && r.massMin ≤ gross && gross ≤ r.massMax

/-- The code of the default entry, named by its index 1..8 (R139). -/
def defaultCode (c : WrapCfg) : Nat := ((c.recipes[c.defaultIndex - 1]?).map Recipe.code).getD 0

/-- The recipe code of a pallet: the lowest-index entry that fits, else the default entry's (R139). -/
def recipeCode (c : WrapCfg) (cls : UnitClass) (height gross : Nat) : Nat :=
  match c.recipes.find? (recipeFits cls height gross) with
  | some r => r.code
  | none => defaultCode c

/-- The recipe code of a record. R137 says a record to be wrapped holds a measured height and gross; for one that does
not, the figure is a free value (log 3). -/
def recipeOf (s : State) (r : TravelRecord) : Nat :=
  recipeCode s.cfg.wrap (dominantClass r.lines) (r.height.getD (Config.freeHeight s.free))
    (r.gross.getD (Config.freeGross s.free))

/-- A free value is used up when a figure was missing (log 3). -/
def spendFree (used : Bool) (s : State) : State := if used then s.setFree (s.free + 1) else s

/-- The wrap verdict written, the record goes to DONE (R4). -/
def wrapDone (v : WrapVerdict) (s : State) : State :=
  endWork (writeWorking (fun r => { r with wrap := some v }) s)

/-- Back to IDLE (R143, R144, R148): the code lines and WR_START are off in IDLE. -/
def wrapIdle (s : State) : State :=
  s.setWrap { s.wrap with hs := .idle, attempt := 0, recipe := 0, firstCause := none, startTimer := none,
                          wrapTimer := none }

/-- A record that enters WORKING at WRAP (R137): kept, skipped, or to be wrapped. -/
def beginWrap (r : TravelRecord) (s : State) : State :=
  if r.wrap.isSome then endWork s
  else if r.check != some .pass then wrapDone .skipped s
  else
    spendFree (r.height.isNone || r.gross.isNone)
      (s.setWrap { s.wrap with hs := .waiting, attempt := 1, recipe := recipeOf s r, firstCause := none })

/-- The request conditions (R141). -/
def wrapReady (s : State) : Bool :=
  s.wrap.hs = .waiting && s.pins.wrReady && !s.pins.wrFault && !s.wrap.fault && s.wrap.abort.isNone && !halted s

/-- WAITING requests the attempt as soon as the conditions hold (R141). -/
def wrapStep (s : State) : State :=
  if wrapReady s then s.setWrap { s.wrap with hs := .requested, startTimer := some s.cfg.wrap.startTimeout } else s

/-- The second failed attempt: WRAP_FAILED and its notice (R144). -/
def wrapGivesUp (cause : WrapCause) (s : State) : State :=
  let s1 := wrapDone .wrapFailed (wrapIdle s)
  match zoneEntryIn s .working with
  | some e => notify (.wrapFailed e.record.track s.wrap.recipe (s.wrap.firstCause.getD cause) cause) s1
  | none => s1

/-- An attempt fails (R144, R145). -/
def failWrap (cause : WrapCause) (s : State) : State :=
  let s1 := s.setWrap { s.wrap with fault := true }
  if s.wrap.attempt < Config.wrapAttempts then
    s1.setWrap { s1.wrap with hs := .waiting, attempt := s.wrap.attempt + 1, firstCause := some cause,
                              startTimer := none, wrapTimer := none }
  else wrapGivesUp cause s1

/-- The wrap completes (R143). -/
def completeWrap (s : State) : State :=
  let s1 := wrapDone (.wrapped s.wrap.recipe) (wrapIdle s)
  s1.setWrap { s1.wrap with count := s1.wrap.count + 1 }

/-- CLEAR at WRAP: idle, and WR_ABORT for 200 ms from now (R148). -/
def clearWrap (s : State) : State :=
  let s1 := wrapIdle s
  s1.setWrap { s1.wrap with abort := some Config.abortPulse }

end Sys2Proof.Machine
end

