-- ==== Sys2Proof/Machine/LabelOps.lean ====
section
/-! DEFINITION. Operations of the Label Unit (Chapter 9): dispatch code, composition, print start, failure, abort. -/

namespace Sys2Proof.Machine

/-! ## Text (R153, 12.2) -/

/-- The character of a digit. -/
def digitByte (d : Nat) : Byte := BitVec.ofNat 8 (0x30 + d)

def digitsText (ds : Digits) : List Byte := ds.map (fun d => digitByte d.val)

/-- Decimal without leading zeros; `fuel` bounds the digits. -/
def decimalFuel : Nat → Nat → List Byte
  | 0, _ => []
  | fuel + 1, n => if n < 10 then [digitByte n] else decimalFuel fuel (n / 10) ++ [digitByte (n % 10)]

def decimal (n : Nat) : List Byte := decimalFuel (n + 1) n

/-- Two digits, with a leading zero. -/
def twoDigits (n : Nat) : List Byte := [digitByte (n / 10 % 10), digitByte (n % 10)]

/-- The measured gross in kilograms: a mass unit is 10 g (R153). -/
def grossText (g : Nat) : List Byte := decimal (g / 100) ++ [0x2E] ++ twoDigits (g % 100)

/-- IN BOND and DUTY PAID (R153). -/
def inBondText : List Byte := [0x49, 0x4E, 0x20, 0x42, 0x4F, 0x4E, 0x44]
def dutyPaidText : List Byte := [0x44, 0x55, 0x54, 0x59, 0x20, 0x50, 0x41, 0x49, 0x44]

/-- The DUTY row's text. A record to be labelled has IN_BOND or DUTY_PAID (R150); for UNKNOWN the text is free (log 3). -/
def dutyText (free : Nat) : Duty → List Byte
  | .inBond => inBondText
  | .dutyPaid => dutyPaidText
  | .unknown => Config.freeDutyText free

/-- ANY, A or B (R153). -/
def laneClassText : LaneClass → List Byte
  | .any => [0x41, 0x4E, 0x59]
  | .a => [0x41]
  | .b => [0x42]

/-! ## Dispatch code and composition (R151, R152) -/

/-- The dispatch code: site number, serial, check digit over the twelve (R151). -/
def dispatchCode (site serial : Digits) : Digits := (site ++ serial) ++ [checkDigit (site ++ serial)]

/-- The serial a label is composed with; a record to be labelled holds one (R150), else it is free (log 3). -/
def labelSerial (s : State) (r : TravelRecord) : Digits :=
  r.serial.getD ((List.range 10).map (Config.freeDigit s.free))

def labelGross (s : State) (r : TravelRecord) : Nat := r.gross.getD (Config.freeGross s.free)

/-- The text of a source, `none` when the source is absent (R152, R153). -/
def sourceText (s : State) (r : TravelRecord) : Source → Option RowText
  | .dispatchCode => some (.fixed (digitsText (dispatchCode s.cfg.label.site (labelSerial s r))))
  | .serial => some (.fixed (digitsText (labelSerial s r)))
  | .order => r.order.map (fun ds => .fixed (digitsText ds))
  | .gross => some (.fixed (grossText (labelGross s r)))
  | .article n => if n = 0 then none else (r.lines[n - 1]?).map (fun l => .fixed (digitsText l.article))
  | .count n => if n = 0 then none else (r.lines[n - 1]?).map (fun l => .fixed (decimal l.count))
  | .duty => some (.fixed (dutyText s.free r.duty))
  | .laneClass => some (.fixed (laneClassText r.laneClass))
  | .siteText => if s.cfg.label.siteText.isEmpty then none else some (.fixed s.cfg.label.siteText)
  | .labelSeq => some .labelSeq

/-- The text of row `n`: the first entry in index order that names the row and has a present source (R152). -/
def rowText (s : State) (r : TravelRecord) (n : Nat) : List Gather → Option RowText
  | [] => none
  | g :: rest =>
    match (if g.row = n then sourceText s r g.source else none) with
    | some t => some t
    | none => rowText s r n rest

/-- The composed label: the dispatch code and its rows in ascending row number (R152). -/
def compose (s : State) (r : TravelRecord) : Composed :=
  { code := dispatchCode s.cfg.label.site (labelSerial s r)
    rows := (List.range 12).filterMap (fun i =>
      (rowText s r (i + 1) s.cfg.label.gather).map (fun t => { number := i + 1, text := t })) }

/-! ## Messages to the engine (Table 9-1, 12.2) -/

/-- A message produced on PRN_TX (R155). -/
def sendEngine (msg : List Byte) (s : State) : State := s.setLabel { s.label with tx := s.label.tx ++ [msg] }

def alMessage : List Byte := [0x41, 0x4C, 0x0D]
def abMessage : List Byte := [0x41, 0x42, 0x0D]

/-- A row in a PR: a solidus, two digits of row number, the text; LABEL_SEQ is filled here (R154, 12.2). -/
def rowBytes (seq : Nat) (r : Row) : List Byte :=
  [0x2F] ++ twoDigits r.number ++ (match r.text with
    | .fixed t => t
    | .labelSeq => decimal seq)

/-- PR with the dispatch code and the rows (12.2). -/
def prMessage (seq : Nat) (l : Composed) : List Byte :=
  [0x50, 0x52] ++ digitsText l.code ++ l.rows.flatMap (rowBytes seq) ++ [0x0D]

/-- Abort the engine: AB, and the abort wait at 10 s (R163). -/
def abortEngine (s : State) : State :=
  let s1 := sendEngine abMessage s
  s1.setLabel { s1.label with abortWait := some Config.engineReadyWait }

/-! ## Attempts -/

/-- The label verdict written, the record goes to DONE (R4). -/
def labelDone (v : LabelVerdict) (s : State) : State :=
  endWork (writeWorking (fun r => { r with label := some v }) s)

/-- Back to IDLE: the composed label, the kept causes and the attempt's timers are gone (R152, R160, R161, R165). -/
def labelIdle (s : State) : State :=
  s.setLabel { s.label with lstate := .idle, attempt := 0, label := none, causes := [], printTimer := none,
                            applyTimer := none, verifyTimer := none }

/-- A figure composition needs is missing from a record that says it passed (log 3). -/
def labelFree (r : TravelRecord) : Bool := r.serial.isNone || r.gross.isNone || r.duty = .unknown

/-- The wrap verdict is WRAPPED (R150, R168). -/
def isWrapped : Option WrapVerdict → Bool
  | some (.wrapped _) => true
  | some .wrapFailed => false
  | some .skipped => false
  | none => false

/-- The label verdict is LABELLED (R168). -/
def isLabelled : Option LabelVerdict → Bool
  | some (.labelled _ _) => true
  | some .labelFailed => false
  | some .skipped => false
  | none => false

/-- A record that enters WORKING at LABEL (R150): kept, skipped, or composed and to be labelled. -/
def beginLabel (r : TravelRecord) (s : State) : State :=
  if r.label.isSome then endWork s
  else if r.check != some .pass || !isWrapped r.wrap then labelDone .skipped s
  else
    spendFree (labelFree r)
      (s.setLabel { s.label with lstate := .waiting, attempt := 1, label := some (compose s r), causes := [] })

/-- The entries of the print history that are in the window (R157). -/
def inWindowCount (h : List PrintStart) : Nat := (h.filter PrintStart.inWindow).length

/-- The print conditions (R157). -/
def printReady (s : State) : Bool :=
  s.label.lstate = .waiting && inService s && !s.label.fault && s.label.abortWait.isNone && !halted s &&
    inWindowCount s.label.history < Config.historySize

/-- The next label sequence value after 999999 is 1 (R154). -/
def nextLabelSeq (n : Nat) : Nat := if 999999 ≤ n then 1 else n + 1

/-- The history with a new start, the oldest removed first when it holds four (R157). -/
def addStart (window : Nat) (h : List PrintStart) : List PrintStart :=
  (if h.length < Config.historySize then h else h.drop 1) ++ [{ inWindow := true, left := window }]

/-- A print starts (R157, R154). -/
def startPrint (s : State) : State :=
  let s1 := match s.label.label with
    | some l => sendEngine (prMessage s.label.seq l) s
    | none => s
  s1.setLabel { s1.label with seq := nextLabelSeq s1.label.seq, history := addStart s.cfg.label.printWindow s1.label.history,
                              printCount := s1.label.printCount + 1, printTimer := some s.cfg.label.printTimeout,
                              lstate := .printing }

/-- WAITING starts the print as soon as the conditions hold (R157). -/
def labelStep (s : State) : State := if printReady s then startPrint s else s

/-- AL is sent and the apply timer started (R158, R164). -/
def startApply (s : State) : State :=
  let s1 := sendEngine alMessage s
  s1.setLabel { s1.label with lstate := .applying, printTimer := none, applyTimer := some s.cfg.label.applyTimeout }

/-- The causes after which the engine is aborted (R161). -/
def abortsEngine : LabelCause → Bool
  | .printTimeout => true
  | .applyTimeout => true
  | .missed => false
  | .fault _ => false
  | .verifyTimeout => false
  | .verifyMismatch => false

/-- The attempts are used up: LABEL_FAILED and its notice (R161). -/
def labelGivesUp (s : State) : State :=
  let s1 := labelDone .labelFailed (labelIdle s)
  match zoneEntryIn s .working with
  | some e => notify (.labelFailed e.record.track ((s.label.label.map Composed.code).getD []) s.label.causes) s1
  | none => s1

/-- An attempt fails (R161). -/
def failLabel (cause : LabelCause) (s : State) : State :=
  let s1 := s.setLabel { s.label with causes := s.label.causes ++ [cause], printTimer := none, applyTimer := none,
                                      verifyTimer := none }
  let s2 := if abortsEngine cause then abortEngine s1 else s1
  if s2.label.attempt < s2.cfg.label.attempts then
    s2.setLabel { s2.label with lstate := .waiting, attempt := s2.label.attempt + 1 }
  else labelGivesUp s2

/-- A kept verify read decides the attempt (R160). -/
def judgeVerify (ds : Digits) (s : State) : State :=
  let s1 := keepRead ds s
  if s.label.label.map Composed.code = some ds then
    labelDone (.labelled s.label.attempt ds) (labelIdle s1)
  else failLabel .verifyMismatch s1

/-- CLEAR at LABEL (R165, R82); a kept read goes too (DESIGN CHOICE, log 32). -/
def clearLabel (s : State) : State :=
  let s1 := labelIdle (closeWindow s)
  abortEngine (s1.setLabel { s1.label with rxBuffer := [], rxOverlong := false })

/-- The line buffer of PRN_RX with a completed line's characters in it (R155): the table has no row for one character, so the
command of a message brings all of the line that the port received since the last CR or, where a CLEAR came within the
line, only what it received after that (DESIGN CHOICE, log 33). -/
def linkLine (line : List RxChar) (s : State) : List RxChar × Bool :=
  takeChars Config.linkBuffer (s.label.rxBuffer, s.label.rxOverlong) line

/-- The buffer is emptied at each CR (R155). -/
def emptyLink (s : State) : State := s.setLabel { s.label with rxBuffer := [], rxOverlong := false }

end Sys2Proof.Machine
end

