-- ==== Sys2Proof/Machine/RouteOps.lean ====
section
/-! DEFINITION. Operations of the Route Unit (Chapter 10): exit class, exit, delivery, lane wait. -/

namespace Sys2Proof.Machine

/-- A lane class allows a class letter (R168). -/
def letterAllowed (cls letter : LaneClass) : Bool := cls = .any || cls = letter

/-- A lane matches a record: its duty is the record's, and the lane class allows its letter (R168). -/
def laneMatches (c : DispatchCfg) (r : TravelRecord) : LaneNo → Bool
  | .one => c.duty1 = r.duty && letterAllowed r.laneClass c.letter1
  | .two => c.duty2 = r.duty && letterAllowed r.laneClass c.letter2

/-- The exit class of a record, by the tests of R168 in order. -/
def exitClassOf (c : DispatchCfg) (r : TravelRecord) : ExitClass :=
  if r.unknownOrigin then .reject .unknownOrigin
  else if r.check != some .pass then .reject .checkFailed
  else if !isWrapped r.wrap then .reject .wrapNotDone
  else if !isLabelled r.label then .reject .labelNotDone
  else if !laneMatches c r .one && !laneMatches c r .two then .reject .noLane
  else .lane (laneMatches c r .one) (laneMatches c r .two)

/-- The exit of a decision, `none` when the record waits (R170). -/
def chooseExit (p : Pins) (last : Option LaneNo) : ExitClass → Option RouteCode
  | .reject _ => if p.spurFull then none else some .reject
  | .lane m1 m2 =>
    match m1 && laneOpen p .one, m2 && laneOpen p .two with
    | true, true => some (if last = some .one then .lane2 else .lane1)
    | true, false => some .lane1
    | false, true => some .lane2
    | false, false => none

/-- The record lacks an exit: it is DONE with its exit class fixed, and no exit is open to it (R171). -/
def lacksExit (s : State) : Bool :=
  (zoneEntryIn s .done).isSome && s.route.exitClass.any (fun x => (chooseExit s.pins s.route.lastLane x).isNone)

/-- The first decision fixes the exit class, with NOTICE NO_LANE where no lane matches (R168). -/
def fixExitClass (r : TravelRecord) (s : State) : State :=
  if s.route.exitClass.isSome then s
  else
    let x := exitClassOf s.cfg.dispatch r
    let s1 := s.setRoute { s.route with exitClass := some x }
    if x = .reject .noLane then notify (.noLane r.track r.duty r.laneClass) s1 else s1

/-- Delivery begins (R172). -/
def startDelivery (exit : RouteCode) (s : State) : State :=
  let s1 := (moveState .done .releasing s).setRoute { s.route with code := exit }
  s1.setZone { s1.zone with zstate := .releasing, exitSeen := s1.pins.eyeExit,
                            releaseTimer := some s1.cfg.timing.release }

/-- A route decision (R169, R170). -/
def decideRoute (r : TravelRecord) (s : State) : State :=
  let s1 := fixExitClass r s
  match s1.route.exitClass.bind (chooseExit s1.pins s1.route.lastLane) with
  | some exit => startDelivery exit s1
  | none => s1

/-- The lane wait runs, or has expired (R171). -/
def laneWaitOn (s : State) : Bool := s.route.laneWait.isSome || s.route.waitExpired

/-- The lane wait and its expired mark are discarded (R171). -/
def dropLaneWait (s : State) : State := s.setRoute { s.route with laneWait := none, waitExpired := false }

/-- The test of R171, made at each decision and at each change of a lane or spur input: the lane wait starts for a record
that lacks an exit, and is discarded for one that has one. -/
def watchLaneWait (s : State) : State :=
  if lacksExit s then
    if laneWaitOn s then s else s.setRoute { s.route with laneWait := some s.cfg.dispatch.laneWait }
  else dropLaneWait s

/-- DISPATCH decides while the delivery conditions hold (R169); a record that has left DONE leaves no lane wait (R171).
A DONE record under a hold is not decided upon, and its lane wait stays as it is. -/
def routeStep (s : State) : State :=
  if hasRole s .dispatch then
    match zoneEntryIn s .done with
    | some e => if delivering s then watchLaneWait (decideRoute e.record s) else s
    | none => dropLaneWait s
  else s

/-- A lane's state in NOTICE LANE_WAIT: 0 not matching, 1 SHUT, 2 FULL, 3 SHUT and FULL (Table 12-7). -/
def laneMark (matching shut full : Bool) : Nat :=
  if matching then (if shut then 1 else 0) + (if full then 2 else 0) else 0

/-- What a waiting record waits for (R171). -/
def laneWaitDetail (p : Pins) : ExitClass → LaneWaitDetail
  | .reject _ => { lane1 := 0, lane2 := 0, spur := 1 }
  | .lane m1 m2 =>
    { lane1 := laneMark m1 p.lane1Shut p.lane1Full, lane2 := laneMark m2 p.lane2Shut p.lane2Full, spur := 0 }

/-- The counts and the last lane used after a delivery to an exit (R173). -/
def countDelivery (r : Route) : Route :=
  match r.code with
  | .lane1 => { r with lane1 := r.lane1 + 1, lastLane := some .one }
  | .lane2 => { r with lane2 := r.lane2 + 1, lastLane := some .two }
  | .reject => { r with rejects := r.rejects + 1 }
  | .none => r

/-- What the Route Unit holds of a record that has left the table: nothing (R173, R174, R175). -/
def dropRoute (r : Route) : Route := { r with exitClass := none, code := .none, laneWait := none, waitExpired := false }

/-- The reject reason in DISPATCHED: present when the exit is REJECT (Table 10-1). -/
def dispatchedReason (r : Route) : Option RejectReason :=
  match r.code, r.exitClass with
  | .reject, some (.reject reason) => some reason
  | _, _ => none

/-- DISPATCHED for a record (Table 10-1). -/
def dispatchedFrame (route : Route) (r : TravelRecord) : TxFrame :=
  .dispatched r.track r.serial r.order route.code (dispatchedReason route) r.gross

end Sys2Proof.Machine
end

