-- ==== Sys2Proof/Machine/ZoneOps.lean ====
section
/-! DEFINITION. Operations of the Station Table and the Zone Controller (Chapters 1 and 2): accepting, offering, arrival,
release, jam, deriving from the eyes, and `settle`, the conditions that are evaluated afresh after every event. -/

namespace Sys2Proof.Machine

/-! ## Accepting (R10, R15, R32, R34) -/

/-- Hops after one more acceptance (R5). -/
def hopsAfter (h : Nat) : Nat := min 15 (h + 1)

/-- The entry an accepted OFFER becomes: EXPECTED, its arrival timer at release timeout plus transit timeout (R10, R34). -/
def acceptedEntry (s : State) (r : TravelRecord) : Entry :=
  { record := { r with hops := hopsAfter r.hops }, state := .expected, takenHeard := false,
    timer := some (s.cfg.timing.release + s.cfg.timing.transit) }

/-- The acceptance of an OFFER, on arrival or from the slot (R10, R34). -/
def acceptOffer (r : TravelRecord) (s : State) : State :=
  queueFrame (.accept (upstream s) r.track) (setZoneState .inbound ((addEntry (acceptedEntry s r) s).setSlot none))

/-- The slot's OFFER is accepted as soon as the accepting conditions hold, or refused as a duplicate (R15). -/
def slotStep (s : State) : State :=
  match s.slot with
  | some r =>
    if !hasRole s .check && accepting s then
      if (entryOf s r.track).isSome then notify (.duplicateTrack r.track) (s.setSlot none) else acceptOffer r s
    else s
  | none => s

/-- What turns INFEED_PERMIT off in INBOUND: a hold, SCALE_FAULT or ZERO_OVERDUE (R32). -/
def permitCeases (s : State) : Bool := !holdsEmpty s || s.weigh.scaleFault || zeroOverdue s

/-- The infeed permit, which at CHECK is the zone state INBOUND, turns on or off (R32). -/
def permitStep (s : State) : State :=
  if hasRole s .check then
    if s.zone.zstate = .inbound then (if permitCeases s then setZoneState .empty s else s)
    else if accepting s then setZoneState .inbound s
    else s
  else s

/-! ## Offering (R33) -/

/-- OFFER for the head record is queued and the offer repeat timer started (R33). -/
def offerNow (s : State) : State :=
  match headEntry s with
  | some e =>
    queueFrame (.offer (downstream s) e.record) (s.setZone { s.zone with offerTimer := some s.cfg.timing.offerRepeat })
  | none => s

/-- Offering begins when the last of its conditions comes to hold (R33). -/
def offerStep (s : State) : State := if offering s && s.zone.offerTimer.isNone then offerNow s else s

/-! ## What every event ends with -/

/-- The settle window is emptied when the platform-empty condition changes (R89, R91). -/
def windowStep (before s : State) : State :=
  if works s .check && platformEmpty before != platformEmpty s then emptyWindow s else s

/-- The conditions that are evaluated afresh at the end of an event: offering that has ceased, the infeed permit, the
route, the offer slot, offering that comes to hold, the platform (R15, R31, R32, R33, R89, R169). `before` is the state
the event found. -/
def settle (before s : State) : State :=
  if active s then
    windowStep before (offerStep (slotStep (routeStep (permitStep (stopOffering s)))))
  else s

/-! ## The role's work on a record that enters WORKING (R7, R13, R39) -/

/-- The role's work begins, or the record goes on to DONE at once. -/
def beginWork (r : TravelRecord) (s : State) : State :=
  match s.cfg.role with
  | some .check => if r.unknownOrigin then endWork (emptyWindow s) else beginCheck s
  | some .wrap => if r.unknownOrigin then endWork s else wrapStep (beginWrap r s)
  | some .label => if r.unknownOrigin then endWork s else labelStep (beginLabel r s)
  | some .plain => endWork s
  | some .dispatch => endWork s
  | none => endWork s

/-- The PRESENT record enters WORKING. -/
def enterWorking (s : State) : State :=
  match zoneEntryIn s .present with
  | some e => beginWork e.record (moveState .present .working s)
  | none => s

/-! ## Arrival (R9, R11, R12, R38) -/

/-- The zone enters POSITIONING with a fresh position timer (R38, R45, R53). -/
def startPositioning (s : State) : State :=
  s.setZone { s.zone with zstate := .positioning, positionTimer := some s.cfg.timing.position }

/-- An arrival at CHECK: a new record from the infeed, its tag window, profiling and evaluation (R11, R74, R109, R120). -/
def arriveAtCheck (s : State) : State :=
  let s1 := evict s
  resetProfiling .unarmed (openWindow .tag (openEvaluation (newTrack s1) (createRecord false .present s1)))

/-- The EXPECTED entry becomes PRESENT and its arrival timer is cancelled (R12). -/
def bindExpected (s : State) : State :=
  mapState .expected (fun e => { e with state := .present, timer := none }) s

/-- An arrival at any other role: bound with TAKEN, or of unknown origin with NOTICE UNKNOWN_PALLET (R12, R38). -/
def arriveElsewhere (s : State) : State :=
  match expectedEntry s with
  | some e => queueFrame (.taken (upstream s) e.record.track) (bindExpected s)
  | none =>
    let s1 := evict s
    notify (.unknownPallet (newTrack s1)) (createRecord true .present s1)

/-- An arrival (R38). -/
def arrive (s : State) : State :=
  startPositioning (if hasRole s .check then arriveAtCheck s else arriveElsewhere s)

/-! ## Positioning and release -/

/-- Positioning is complete (R39): the position timer stops, the zone enters STOPPED, and a PRESENT record goes to work;
at CHECK its profile resolves first (R115). -/
def positionComplete (s : State) : State :=
  let s1 := s.setZone { s.zone with zstate := .stopped, positionTimer := none }
  if (zoneEntryIn s1 .present).isSome then enterWorking (profileAtPosition s1) else s1

/-- The zone enters RELEASING with a fresh release timer; the exit-seen mark is set if the exit eye is blocked (R26). -/
def startReleasing (s : State) : State :=
  s.setZone { s.zone with zstate := .releasing, exitSeen := s.pins.eyeExit, releaseTimer := some s.cfg.timing.release }

/-- ACCEPT starts the release of the DONE head record (R35). -/
def startRelease (s : State) : State := startReleasing (moveState .done .releasing (endOffering s))

/-- The zone after a completed release or delivery: EMPTY, the release timer and the exit-seen mark gone (R26, R36). -/
def leaveReleasing (s : State) : State :=
  s.setZone { s.zone with zstate := .empty, exitSeen := false, releaseTimer := none }

/-- The released record becomes OUTBOUND with its taken timer, or is removed when it carries the taken-heard mark (R36). -/
def moveOn (e : Entry) (s : State) : State :=
  if e.takenHeard then removeZoneRecord s
  else
    mapState .releasing
      (fun x => { x with state := .outbound, timer := some (s.cfg.timing.transit + Config.takenExtra) }) s

/-- A completed release: RELEASED is queued and the record moves on (R36). -/
def completeRelease (s : State) : State :=
  match zoneEntryIn s .releasing with
  | some e => queueFrame (.released (downstream s) e.record.track) (moveOn e (leaveReleasing s))
  | none => leaveReleasing s

/-- A completed delivery: DISPATCHED is queued, the record removed and the delivery counted (R19, R173). -/
def completeDelivery (s : State) : State :=
  match zoneEntryIn s .releasing with
  | some e =>
    queueFrame (dispatchedFrame s.route e.record)
      ((removeZoneRecord (leaveReleasing s)).setRoute (dropRoute (countDelivery s.route)))
  | none => leaveReleasing s

/-! ## Jam (R41) -/

/-- The track of the zone record, if there is one. -/
def zoneTrack (s : State) : Option Track := (zoneEntry s).map (fun e => e.record.track)

/-- The zone enters JAMMED: its timer stops, the exit-seen mark is dropped, JAM is set, NOTICE JAM is queued (R41). -/
def jam (cause : JamCause) (s : State) : State :=
  notify (.jam (zoneTrack s) cause)
    (s.setZone { s.zone with zstate := .jammed, exitSeen := false, jam := true, positionTimer := none,
                             releaseTimer := none })

/-- A RELEASING record returns to DONE and its taken-heard mark is dropped (R21, R44). -/
def returnToDone (s : State) : State :=
  mapState .releasing (fun e => { e with state := .done, takenHeard := false }) s

/-! ## Deriving from the eyes (R23, R53, R180) -/

/-- The zone and the table of a station that finds an empty table, an EMPTY zone and these eyes. -/
def deriveFromEyes (s : State) : State :=
  if s.pins.eyePos then setZoneState .stopped (createRecord true .done s)
  else if s.pins.eyeEntry || s.pins.eyeExit then startPositioning (createRecord true .present s)
  else s

end Sys2Proof.Machine
end

