-- ==== Sys2Proof/Machine/StartOps.lean ====
section
/-! DEFINITION. Operations of the Start Controller (Chapter 11): the start tasks and the entry to IN_SERVICE. -/

namespace Sys2Proof.Machine

/-- The NOTICE ZERO_FAULT that STARTING owes is queued (R94). -/
def payOwedFault (s : State) : State :=
  match s.weigh.owedFault with
  | some (k, v) => notify (.zeroFault k v) (s.setWeigh { s.weigh with owedFault := none })
  | none => s

/-- The own hold entry stands in the set from the entry to IN_SERVICE; its announcement follows the HELLO (R61, R181). -/
def addOwnHold (s : State) : State := setHolds (setHold s.cfg.node (ownHold s.pins) s.zone.holds) s

/-- Entry to IN_SERVICE: HELLO, the own hold entry, the frames carried over from STARTING (R180, R181). What else the
entry evaluates afresh is `settle`'s. -/
def enterInService (s : State) : State :=
  raiseRequest (payOwedFault (addOwnHold (queueFrame .hello (s.setService .inService))))

/-- The start task of the role (R93, R149, R166, R180). PLAIN and DISPATCH have none and enter service at once. -/
def startTask (s : State) : State :=
  match s.cfg.role with
  | some .check => s.setWeigh { s.weigh with scanning := true, startZero := some Config.startZeroTimeout }
  | some .wrap => s.setWrap { s.wrap with abort := some Config.abortPulse }
  | some .label =>
    let s1 := abortEngine s
    s1.setLabel { s1.label with fault := true }
  | some .plain => enterInService s
  | some .dispatch => enterInService s
  | none => s

/-- Entry to STARTING with a valid configuration (R179, R180). -/
def enterStarting (cfg : Loaded) (s : State) : State := startTask (deriveFromEyes ((s.setCfg cfg).setService .starting))

/-- The start-zero task ends: its timer is gone, the zero-due timer starts, the station enters service (R93, R180). -/
def endStartZero (s : State) : State :=
  enterInService (s.setWeigh { s.weigh with startZero := none, zeroDue := some s.cfg.check.zeroInterval })

/-- A start task that ends in STARTING brings the station into service (R180). -/
def endStartTask (s : State) : State := if s.service = .starting then enterInService s else s

/-- The level of WR_FILM that the end of the WR_ABORT pulse finds (R146; DESIGN CHOICE, log 6). Its fall is no command of the
table: the sender says the level; where it does not, a WR_FILM that has not risen is negated, and whether one that has
risen still stands when the start task ends is a free value. -/
def findFilm (film : Option Bool) (s : State) : State :=
  match film with
  | some level => s.setPins { s.pins with wrFilm := level }
  | none =>
    if s.service = .starting && s.pins.wrFilm then
      spendFree true (s.setPins { s.pins with wrFilm := Config.filmStands s.free })
    else s

/-- A film roll found nearly used up is reported (R146). -/
def reportFilm (s : State) : State := if s.pins.wrFilm then notify .filmLow s else s

/-- The end of WRAP's start task: the station enters service, and a WR_FILM that is asserted in that event is reported
behind the HELLO (R146, R149). -/
def endWrapStart (s : State) : State := if s.service = .starting then reportFilm (enterInService s) else s

end Sys2Proof.Machine
end

