-- ==== Sys2Proof/Machine/Check.lean ====
section
/-! DEFINITION. The commands of the code reader (R73, also for LABEL's verify read, R160), the tag and manifest waits, the
scale, and the encoder (Chapters 4 to 6). -/

namespace Sys2Proof.Machine

/-! ## Code reader, tag and manifest -/

/-- A completed line judged by the window it finds (R73, R75, R160). -/
def judgeLine (chars : List RxChar) (s : State) : State :=
  match s.reader.window with
  | .closed => dropLine s
  | .tag =>
    match tagRead (readerLine chars s) with
    | some ds => tagSerial ds s
    | none => dropLine s
  | .verify =>
    match verifyRead (readerLine chars s) with
    | some ds => judgeVerify ds s
    | none => dropLine s

/-- CODE_READER_LINE, at CHECK and at LABEL (R73). -/
def execCodeReaderLine (chars : List RxChar) (s : State) : Host.Outcome State Fault Refusal :=
  .next (if works s .check then settle s (evalStep (judgeLine chars s))
         else if works s .label then settle s (labelStep (judgeLine chars s))
         else s)

/-- TAG_WAIT_EXPIRY: the tag is UNREAD (R74, R76, R80). -/
def execTagWaitExpiry (s : State) : Host.Outcome State Fault Refusal :=
  .next (if works s .check && s.reader.tagWait.isSome then settle s (evalStep (tagUnread s)) else s)

/-- The pending request's manifest wait runs (R78). -/
def manifestWaiting (s : State) : Bool := s.store.request.any (fun r => r.wait.isSome)

/-- MANIFEST_WAIT_EXPIRY: the request ends and the manifest is NOT_FOUND (R79). -/
def execManifestWaitExpiry (s : State) : Host.Outcome State Fault Refusal :=
  .next (if works s .check && manifestWaiting s then
           settle s (evalStep (manifestMissing .notFound (endRequest s)))
         else s)

/-! ## Scale -/

/-- SCAN_START: a scan of the active entries begins (R85). -/
def execScanStart (s : State) : Host.Outcome State Fault Refusal :=
  .next (if works s .check then s.setWeigh { s.weigh with scanning := true } else s)

/-- The window is stable while the platform is empty (R93, R95, R97). -/
def stableEmpty (s : State) : Bool := platformEmpty s && stableWindow s.cfg.check s.weigh.window

/-- A scan outside a weighing: the start-zero task's attempt, or an attempt while a zero is owed or SCALE_FAULT is set
(R93, R97). -/
def idleScan (s : State) : State :=
  if !stableEmpty s then s
  else if s.weigh.startZero.isSome then endStartZero (zeroAttempt s)
  else if 0 < s.weigh.postponed || s.weigh.scaleFault then zeroAttempt s
  else s

/-- The event of a scan with this sample (R85, R89). -/
def takeScan (x : Sample) (s : State) : State :=
  if s.weigh.weighing then evalStep (weighScan x s) else idleScan (joinScan x s)

/-- SCAN_COMPLETE (R85 to R89). -/
def execScanComplete (raw : RawScan) (s : State) : Host.Outcome State Fault Refusal :=
  .next (if works s .check then
           settle s (takeScan (sampleOf s.cfg.check.conversions raw) (s.setWeigh { s.weigh with scanning := false }))
         else s)

/-- START_ZERO_TIMER_EXPIRY: the task ends without an attempt (R93). -/
def execStartZeroTimerExpiry (s : State) : Host.Outcome State Fault Refusal :=
  .next (if works s .check && s.weigh.startZero.isSome then
           settle s (endStartZero (setScaleFault .noStableEmpty none s))
         else s)

/-- ZERO_DUE_EXPIRY: the timer restarts; a zero attempt, or the zero is postponed (R95). -/
def execZeroDueExpiry (s : State) : Host.Outcome State Fault Refusal :=
  .next (if works s .check && s.weigh.zeroDue.isSome then
           let s1 := s.setWeigh { s.weigh with zeroDue := some s.cfg.check.zeroInterval }
           settle s (if stableEmpty s then zeroAttempt s1 else postponeZero s1)
         else s)

/-- SETTLE_TIMER_EXPIRY: the mass is UNSTABLE (R101). -/
def execSettleTimerExpiry (s : State) : Host.Outcome State Fault Refusal :=
  .next (if works s .check && s.weigh.settle.isSome then settle s (evalStep (endWeighing .unstable s)) else s)

/-! ## Encoder -/

/-- ENCODER_STEP: the counter rises and the snapshot of the step is acted on (R107 to R114). -/
def execEncoderStep (beams : BitVec 40) (s : State) : Host.Outcome State Fault Refusal :=
  .next (if works s .check then
           settle s (evalStep (profileStep beams (s.setProf { s.prof with counter := s.prof.counter + 1 })))
         else s)

end Sys2Proof.Machine
end

