-- ==== Sys2Proof/Machine/LineOps.lean ====
section
/-! DEFINITION. The Line Controller's own operations (Chapter 3): what a queued frame's bytes are, the STATUS as it is
assembled (R67), attempts (R58 to R60), the receive filter and the receive queue (R63, R64). -/

namespace Sys2Proof.Machine

/-! ## Payloads (12.1) -/

/-- HELLO: role, upstream, downstream. -/
def helloPayload (s : State) : List Byte :=
  [BitVec.ofNat 8 ((s.cfg.role.map roleCode).getD 0), BitVec.ofNat 8 (upstream s), BitVec.ofNat 8 (downstream s)]

/-- DISPATCHED (Table 12-6). -/
def dispatchedPayload (t : Track) (serial order : Option Digits) (exit : RouteCode) (reason : Option RejectReason)
    (gross : Option Nat) : List Byte :=
  trackBytes t ++ optDigits 5 serial ++ optDigits 4 order ++
    [BitVec.ofNat 8 (routeCodeNat exit), BitVec.ofNat 8 (rejectCode reason)] ++ optNat 3 gross

/-- Service state codes (12.1, STATUS part 1). -/
def serviceCode : Service → Nat
  | .reset => 0 | .loading => 1 | .starting => 2 | .inService => 3 | .outOfService => 4

/-- Zone state codes (12.1, STATUS part 2). -/
def zoneCode : ZoneState → Nat
  | .empty => 0 | .inbound => 1 | .positioning => 2 | .stopped => 3 | .releasing => 4 | .jammed => 5

/-- Record state codes, 1 EXPECTED up to 6 OUTBOUND (12.1, STATUS part 4). -/
def recordStateCode : RecordState → Nat
  | .expected => 1 | .present => 2 | .working => 3 | .done => 4 | .releasing => 5 | .outbound => 6

/-- The service part; a neighbour is FFH when none. -/
def statusService (s : State) : List Byte :=
  [BitVec.ofNat 8 (serviceCode s.service), BitVec.ofNat 8 ((s.cfg.role.map roleCode).getD 0),
   BitVec.ofNat 8 (s.cfg.up.getD 0xFF), BitVec.ofNat 8 (s.cfg.down.getD 0xFF)]

/-- The flags byte: JAM, SCALE_FAULT, ZERO_OVERDUE, WRAPPER_FAULT, ENGINE_FAULT, TX_OVERRUN, RX_OVERRUN, halted. A flag
of a block outside the role is reported clear (R67). -/
def statusFlags (s : State) : Nat :=
  bitIf s.zone.jam 0 + bitIf (hasRole s .check && s.weigh.scaleFault) 1 + bitIf (hasRole s .check && zeroOverdue s) 2 +
    bitIf (hasRole s .wrap && s.wrap.fault) 3 + bitIf (hasRole s .label && s.label.fault) 4 + bitIf s.line.txOverrun 5 +
    bitIf s.line.rxOverrun 6 + bitIf (halted s) 7

/-- One entry in the table summary. -/
def entrySummary (e : Entry) : List Byte := trackBytes e.record.track ++ [BitVec.ofNat 8 (recordStateCode e.state)]

/-- The table summary and the slot OFFER's track. -/
def statusTable (s : State) : List Byte :=
  [BitVec.ofNat 8 s.table.length] ++ s.table.flatMap entrySummary ++ optTrackBytes (s.slot.map TravelRecord.track)

/-- A hold set entry: the node in bits 4..0 and the cause in bit 7. -/
def holdByte (h : Hold) : Byte :=
  BitVec.ofNat 8 (h.node % 32 + (match h.cause with
    | .safety => 0
    | .operator => 128))

/-- The hold set, in node order. -/
def statusHolds (s : State) : List Byte := [BitVec.ofNat 8 s.zone.holds.length] ++ s.zone.holds.map holdByte

/-- The role part; none in OUT_OF_SERVICE (R67, R106, R143, R154, R173). -/
def statusRole (s : State) : List Byte :=
  if s.service = .outOfService then []
  else
    match s.cfg.role with
    | some .check => intBytes 3 s.weigh.z ++ [BitVec.ofNat 8 s.weigh.postponed] ++ beBytes 3 s.weigh.lastGross
    | some .plain => []
    | some .wrap => beBytes 4 s.wrap.count.toNat
    | some .label => beBytes 4 s.label.printCount.toNat ++ beBytes 3 s.label.seq
    | some .dispatch => beBytes 4 s.route.lane1.toNat ++ beBytes 4 s.route.lane2.toNat ++ beBytes 4 s.route.rejects.toNat
    | none => []

/-- STATUS, as the station stands (R67). -/
def statusPayload (s : State) : List Byte :=
  statusService s ++ [BitVec.ofNat 8 (zoneCode s.zone.zstate)] ++ [0, BitVec.ofNat 8 (statusFlags s)] ++ statusTable s ++
    statusHolds s ++ statusRole s

/-- The payload a queued frame is sent with. -/
def payloadOf (s : State) : TxFrame → List Byte
  | .hold c => [BitVec.ofNat 8 (holdCauseCode c)]
  | .resume => []
  | .offer t r => offerPayload t r
  | .accept t k => BitVec.ofNat 8 t :: trackBytes k
  | .released t k => BitVec.ofNat 8 t :: trackBytes k
  | .taken t k => BitVec.ofNat 8 t :: trackBytes k
  | .lost t k => BitVec.ofNat 8 t :: trackBytes k
  | .wanted serial => packDigits serial
  | .dispatched t serial order exit reason gross => dispatchedPayload t serial order exit reason gross
  | .hello => helloPayload s
  | .status => statusPayload s
  | .notice n => noticePayload n

/-- The bytes a queued frame is sent as, its sender the station's node (R61, R182). -/
def frameBytes (s : State) (f : TxFrame) : List Byte :=
  wireBytes (txClass f) s.cfg.node (kindCode (txKind f)) (payloadOf s f)

/-! ## Attempts (R58 to R61, R67, R68) -/

/-- A STATUS reports the overrun flags as they stand when it is assembled (R68). -/
def reportedFlags (l : LineCtl) : TxFrame → Option (Bool × Bool)
  | .status => some (l.txOverrun, l.rxOverrun)
  | _ => none

/-- The service states in which the station sends (R61). -/
def maySend (s : State) : Bool := s.service = .inService || s.service = .outOfService

/-- An attempt begins at the frame at the head of the queue (R59). -/
def startAttempt (s : State) : State :=
  match s.line.tx with
  | e :: rest =>
    s.setLine { s.line with
      tx := { e with inAttempt := true } :: rest,
      sending := some { bytes := frameBytes s e.frame, reported := reportedFlags s.line e.frame, txSince := false,
                        rxSince := false } }
  | [] => s

/-- A flag after a STATUS that reported it as `reported` is counted sent: it clears unless another overflow of its kind
came since (R68). -/
def flagAfter (flag reported since : Bool) : Bool := if reported then since else flag

/-- The overrun flags after the frame in the attempt is counted sent (R68). -/
def clearReported (l : LineCtl) : LineCtl :=
  match l.sending.bind (fun a => a.reported.map (fun r => (r, a))) with
  | some (r, a) =>
    { l with txOverrun := flagAfter l.txOverrun r.1 a.txSince, rxOverrun := flagAfter l.rxOverrun r.2 a.rxSince }
  | none => l

/-- An entry whose attempt has ended, in no attempt any more. -/
def afterAttempt (e : TxEntry) : TxEntry := { e with inAttempt := false, stays := false }

/-- The frame of an attempt that ends counted sent leaves the queue, unless a replacement has its entry stay (R58, R60). -/
def keepSent (e : TxEntry) : Option TxEntry :=
  if e.inAttempt then (if e.stays then some (afterAttempt e) else none) else some e

/-- The attempt is over and its frame sent (R58). -/
def removeSent (l : LineCtl) : LineCtl :=
  { clearReported l with tx := l.tx.filterMap keepSent, sending := none }

/-- The frame in the attempt is the HELLO (R61). -/
def helloInAttempt (l : LineCtl) : Bool := l.tx.any (fun e => e.inAttempt && e.frame = .hello)

/-- The attempt ends counted sent; a HELLO is followed by the announcement of the own hold (R58, R61). -/
def attemptSent (s : State) : State :=
  let s1 := s.setLine (removeSent s.line)
  if helloInAttempt s.line then queueFrame (holdFrame (ownHold s.pins)) s1 else s1

/-- The frame of an attempt that ends lost or errored: kept, unless it was withdrawn meanwhile (R58, R59). -/
def keepTried (e : TxEntry) : Option TxEntry :=
  if e.inAttempt then (if e.withdrawn then none else some (afterAttempt e)) else some e

/-- The attempt ends lost or errored (R57, R58). -/
def attemptFailed (s : State) : State :=
  s.setLine { s.line with tx := s.line.tx.filterMap keepTried, sending := none }

/-! ## Receiving (R62 to R64, R182) -/

/-- A HOLD, RESUME or HELLO is taken from any station 1..24 (R62). -/
def fromStation (f : Heard) : Bool := 1 ≤ f.sender && f.sender ≤ 24

/-- A handoff frame is taken when this station is its target and its sender is the neighbour (Table 3-2). -/
def fromNeighbour (s : State) (n : Nat) (f : Heard) : Bool := natAt f.payload 0 1 = s.cfg.node && f.sender = n

/-- Table 3-2, "Taken by a station when" (R62). -/
def takenBy (s : State) (k : Kind) (f : Heard) : Bool :=
  match k with
  | .hold => fromStation f
  | .resume => fromStation f
  | .clear => true
  | .offer => fromNeighbour s (upstream s) f
  | .accept => fromNeighbour s (downstream s) f
  | .released => fromNeighbour s (upstream s) f
  | .taken => fromNeighbour s (downstream s) f
  | .lost => fromNeighbour s (downstream s) f
  | .manifest => hasRole s .check
  | .wanted => false
  | .dispatched => false
  | .hello => fromStation f
  | .query => natAt f.payload 0 1 = s.cfg.node || natAt f.payload 0 1 = 0
  | .status => false
  | .notice => false

/-- The service state test of the filter (R63, test 3). -/
def serviceTakes (s : State) (k : Kind) : Bool := inService s || (s.service = .outOfService && k = .query)

/-- The receive filter: the kind of a frame that passes all six tests (R63). -/
def filterFrame (s : State) (f : Heard) : Option Kind :=
  match kindOf f.kind with
  | some k =>
    if f.sender != s.cfg.node && f.sender != 0 && serviceTakes s k && f.cls = kindClass k &&
        lengthAllowed k f.payload.length && takenBy s k f then some k
    else none
  | none => none

/-- What the bytes heard bring into the receive queue: a good frame that passes the filter and is not malformed. -/
def heardFrame (s : State) (bytes : List Byte) : Option RxFrame :=
  (goodFrame bytes).bind (fun f => (filterFrame s f).bind (fun k => decodeFrame k f))

/-- A frame enters the receive queue, or is discarded from a full one and sets RX_OVERRUN (R64). -/
def storeFrame (r : RxFrame) (l : LineCtl) : LineCtl :=
  if l.rx.length < Config.rxCapacity then { l with rx := l.rx ++ [r] } else markRxOverrun l

/-- The frame at the head of the receive queue leaves it as it is handed on (R64). -/
def dropHead (s : State) : State := s.setLine { s.line with rx := s.line.rx.drop 1 }

/-- The answer to a QUERY: one STATUS is queued, unless one is queued already (R66). -/
def answerQuery (s : State) : State :=
  if s.line.tx.any (fun e => e.frame = .status) then s else queueFrame .status s

end Sys2Proof.Machine
end

