-- ==== Sys2Proof/Machine/Handoff.lean ====
section
/-! DEFINITION. The frames handed on from the head of the receive queue (R64, R65): holds (R47), CLEAR (R23, R53), the
handoff (R10 to R17, R35, R37), HELLO (R21, R22, R51, R52), MANIFEST (R72). A command whose frame does not stand at the
head changes nothing (log 7). -/

namespace Sys2Proof.Machine

/-- HOLD_RECEIVED: the sender is added to the hold set, or its cause changes (R47). -/
def execHoldReceived (s : State) : Host.Outcome State Fault Refusal :=
  .next (match s.line.rx with
    | .hold n c :: _ => if inService s then settle s (setHolds (addHold n c s.zone.holds) (dropHead s)) else s
    | _ => s)

/-- RESUME_RECEIVED: the sender is removed from the hold set (R47). -/
def execResumeReceived (s : State) : Host.Outcome State Fault Refusal :=
  .next (match s.line.rx with
    | .resume n :: _ => if inService s then settle s (setHolds (removeHold n s.zone.holds) (dropHead s)) else s
    | _ => s)

/-! ## CLEAR -/

/-- What the blocks of the role do at CLEAR (R82, R104, R118, R124, R148, R165, R175). -/
def clearRole (s : State) : State :=
  match s.cfg.role with
  | some .check => clearCheck s
  | some .wrap => clearWrap s
  | some .label => clearLabel s
  | some .dispatch => s.setRoute (dropRoute s.route)
  | some .plain => s
  | none => s

/-- The table, the slot and the zone's working state discarded (R23, R53). -/
def clearZone (s : State) : State :=
  ((s.setTable []).setSlot none).setZone ZoneCtl.atReset

/-- After CLEAR a present own entry is added again and announced, by the single announcement while a HELLO waits (R53,
R61). -/
def announceOwnHold (s : State) : State :=
  match ownHold s.pins with
  | some c => if helloWaiting s then addOwnHold s else queueFrame (.hold c) (addOwnHold s)
  | none => s

/-- CLEAR at every block; withdrawals come before what is queued (R59). -/
def clearStation (s : State) : State := announceOwnHold (deriveFromEyes (clearZone (clearRole (endOffering s))))

/-- CLEAR_RECEIVED (R23, R53). -/
def execClearReceived (s : State) : Host.Outcome State Fault Refusal :=
  .next (match s.line.rx with
    | .clear :: _ => if inService s then settle s (clearStation (dropHead s)) else s
    | _ => s)

/-! ## Handoff -/

/-- An OFFER from the upstream: a duplicate, accepted, or kept in the slot (R10, R14, R16). CHECK has no upstream. -/
def takeOffer (r : TravelRecord) (s : State) : State :=
  match entryOf s r.track with
  | some e =>
    if e.state = .expected then
      (if holdsEmpty s then queueFrame (.accept (upstream s) r.track) s else s)
    else notify (.duplicateTrack r.track) s
  | none =>
    if hasRole s .check then s else if accepting s then acceptOffer r s else s.setSlot (some r)

/-- OFFER_RECEIVED (R10). -/
def execOfferReceived (s : State) : Host.Outcome State Fault Refusal :=
  .next (match s.line.rx with
    | .offer r :: _ => if inService s then settle s (takeOffer r (dropHead s)) else s
    | _ => s)

/-- ACCEPT names the DONE head record of a STOPPED zone, and no hold is in force (R35). -/
def acceptStarts (t : Track) (s : State) : Bool :=
  !hasRole s .dispatch && (headEntry s).any (fun e => e.state = .done && e.record.track = t) &&
    s.zone.zstate = .stopped && holdsEmpty s

/-- ACCEPT_RECEIVED (R35). -/
def execAcceptReceived (s : State) : Host.Outcome State Fault Refusal :=
  .next (match s.line.rx with
    | .accept t :: _ =>
      if inService s then
        settle s (if acceptStarts t s then startRelease (dropHead s) else dropHead s)
      else s
    | _ => s)

/-- RELEASED restarts the arrival timer of the EXPECTED entry it names, at the transit timeout (R37). -/
def heardReleased (t : Track) (s : State) : State :=
  s.setTable (s.table.map (fun e =>
    if e.state = .expected && e.record.track = t then { e with timer := some s.cfg.timing.transit } else e))

/-- RELEASED_RECEIVED (R37). -/
def execReleasedReceived (s : State) : Host.Outcome State Fault Refusal :=
  .next (match s.line.rx with
    | .released t :: _ => if inService s then settle s (heardReleased t (dropHead s)) else s
    | _ => s)

/-- The table without an OUTBOUND entry of a track (R17). -/
def dropOutbound (t : Track) (s : State) : State :=
  s.setTable (s.table.filter (fun e => !(e.state = .outbound && e.record.track = t)))

/-- TAKEN removes the OUTBOUND entry it names, and marks a RELEASING one (R17); a DISPATCH station ignores it (R19). -/
def heardTaken (t : Track) (s : State) : State :=
  if hasRole s .dispatch then s
  else
    let s1 := dropOutbound t s
    s1.setTable (s1.table.map (fun e =>
      if e.state = .releasing && e.record.track = t then { e with takenHeard := true } else e))

/-- TAKEN_RECEIVED (R17). -/
def execTakenReceived (s : State) : Host.Outcome State Fault Refusal :=
  .next (match s.line.rx with
    | .taken t :: _ => if inService s then settle s (heardTaken t (dropHead s)) else s
    | _ => s)

/-- LOST_RECEIVED: the OUTBOUND entry it names is removed without a notice (R17). -/
def execLostReceived (s : State) : Host.Outcome State Fault Refusal :=
  .next (match s.line.rx with
    | .lost t :: _ => if inService s then settle s (dropOutbound t (dropHead s)) else s
    | _ => s)

/-- MANIFEST_RECEIVED: handed to the Manifest Store, which is in service at CHECK (R65, R71, R72). -/
def execManifestReceived (s : State) : Host.Outcome State Fault Refusal :=
  .next (match s.line.rx with
    | .manifest p :: _ =>
      if inService s then
        settle s (if hasRole s .check then evalStep (receiveManifest p (dropHead s)) else dropHead s)
      else s
    | _ => s)

/-! ## HELLO -/

/-- The zone that stood RELEASING when the downstream restarted: STOPPED at the position eye, else JAMMED (R51). -/
def stopOrJam (s : State) : State :=
  if s.pins.eyePos then s.setZone { s.zone with zstate := .stopped, exitSeen := false, releaseTimer := none }
  else jam .downstreamRestart s

/-- A DONE head record in STOPPED is offered at once, its repeat timer restarted (R21, R51). -/
def offerAtOnce (s : State) : State := if offering s then offerNow s else s

/-- HELLO from the configured downstream (R21, R51). -/
def helloFromDownstream (s : State) : State :=
  let s1 := returnToDone (s.setTable (s.table.filter (fun e => e.state != .outbound)))
  offerAtOnce (if s.zone.zstate = .releasing then stopOrJam s1 else s1)

/-- HELLO from the configured upstream (R22, R52). -/
def helloFromUpstream (s : State) : State :=
  let s1 := (s.setTable (s.table.filter (fun e => e.state != .expected))).setSlot none
  if s.zone.zstate = .inbound then setZoneState .empty s1 else s1

/-- HELLO from node `n`: out of the hold set; and what a neighbour's HELLO does (R21, R22, R47). Node 0 is none. -/
def heardHello (n : Nat) (s : State) : State :=
  let s1 := setHolds (removeHold n s.zone.holds) s
  let s2 := if n != 0 && n = upstream s then helloFromUpstream s1 else s1
  if n != 0 && n = downstream s then helloFromDownstream s2 else s2

/-- HELLO_RECEIVED (R47, R51, R52). -/
def execHelloReceived (s : State) : Host.Outcome State Fault Refusal :=
  .next (match s.line.rx with
    | .hello n :: _ => if inService s then settle s (heardHello n (dropHead s)) else s
    | _ => s)

end Sys2Proof.Machine
end

