-- ==== Sys2Proof/Machine/Label.lean ====
section
/-! DEFINITION. The commands of the Label Unit (Chapter 9): the print engine's lines, its timers, the print history. A
command that brings an engine's line acts when the line buffer, with that line, is that message (R155). -/

namespace Sys2Proof.Machine

/-- The line completed on PRN_RX is this message (R155). -/
def isMessage (line : List RxChar) (m : EngineMessage) (s : State) : Bool := engineMessage (linkLine line s) = some m

/-- A print or an application is under way: MS and FT fail the attempt (R158, R159). -/
def engineAtWork (s : State) : Bool :=
  s.label.lstate = .printing || s.label.lstate = .printed || s.label.lstate = .applying

/-- PD in PRINTING: AL is sent, or, halted, the label is held (R158, R164). -/
def heardPrinted (s : State) : State :=
  if s.label.lstate = .printing then
    (if halted s then s.setLabel { s.label with lstate := .printed, printTimer := none } else startApply s)
  else s

/-- PD_RECEIVED (R158). -/
def execPdReceived (line : List RxChar) (s : State) : Host.Outcome State Fault Refusal :=
  .next (if works s .label then (if isMessage line .pd s then heardPrinted (emptyLink s) else emptyLink s) else s)

/-- AP in APPLYING: the verify window opens and the verify timer starts (R159). -/
def heardApplied (s : State) : State :=
  if s.label.lstate = .applying then
    let s1 := openWindow .verify s
    s1.setLabel { s1.label with lstate := .verifying, applyTimer := none,
                                verifyTimer := some s.cfg.label.verifyWait }
  else s

/-- AP_RECEIVED (R159). -/
def execApReceived (line : List RxChar) (s : State) : Host.Outcome State Fault Refusal :=
  .next (if works s .label then (if isMessage line .ap s then heardApplied (emptyLink s) else emptyLink s) else s)

/-- MS in PRINTING, PRINTED or APPLYING: the attempt fails with MISSED (R158, R159). -/
def heardMissed (s : State) : State := if engineAtWork s then failLabel .missed s else s

/-- MS_RECEIVED (R158, R159, R161). -/
def execMsReceived (line : List RxChar) (s : State) : Host.Outcome State Fault Refusal :=
  .next (if works s .label then
           (if isMessage line .ms s then settle s (labelStep (heardMissed (emptyLink s))) else emptyLink s)
         else s)

/-- FT: ENGINE_FAULT is set; in PRINTING, PRINTED or APPLYING the attempt fails with FAULT (R158, R159, R162). -/
def heardFault (n : Nat) (s : State) : State :=
  let s1 := s.setLabel { s.label with fault := true }
  if engineAtWork s then failLabel (.fault n) s1 else s1

/-- FT_RECEIVED, with the cause number the line carries (R162). -/
def execFtReceived (line : List RxChar) (s : State) : Host.Outcome State Fault Refusal :=
  .next (if works s .label then
           (match engineMessage (linkLine line s) with
            | some (.ft n) => settle s (heardFault n (emptyLink s))
            | _ => emptyLink s)
         else s)

/-- RY: the abort wait stops, ENGINE_FAULT clears, the start task ends (R162, R163, R166). -/
def heardReady (s : State) : State := endStartTask (s.setLabel { s.label with fault := false, abortWait := none })

/-- RY_RECEIVED; a waiting print may start (R157, R163). -/
def execRyReceived (line : List RxChar) (s : State) : Host.Outcome State Fault Refusal :=
  .next (if works s .label then
           (if isMessage line .ry s then settle s (labelStep (heardReady (emptyLink s))) else emptyLink s)
         else s)

/-- PRINT_TIMER_EXPIRY: in PRINTING, not halted, the attempt fails with PRINT_TIMEOUT and the engine is aborted (R158,
R161, R164). -/
def execPrintTimerExpiry (s : State) : Host.Outcome State Fault Refusal :=
  .next (if works s .label && s.label.lstate = .printing && s.label.printTimer.isSome && !halted s then
           settle s (failLabel .printTimeout s)
         else s)

/-- APPLY_TIMER_EXPIRY: in APPLYING, not halted, the attempt fails with APPLY_TIMEOUT and the engine is aborted (R159,
R161, R164). -/
def execApplyTimerExpiry (s : State) : Host.Outcome State Fault Refusal :=
  .next (if works s .label && s.label.lstate = .applying && s.label.applyTimer.isSome && !halted s then
           settle s (failLabel .applyTimeout s)
         else s)

/-- VERIFY_TIMER_EXPIRY: in VERIFYING, not halted, the window closes and the attempt fails with VERIFY_TIMEOUT (R160,
R161, R164). -/
def execVerifyTimerExpiry (s : State) : Host.Outcome State Fault Refusal :=
  .next (if works s .label && s.label.lstate = .verifying && s.label.verifyTimer.isSome && !halted s then
           settle s (labelStep (failLabel .verifyTimeout (closeWindow s)))
         else s)

/-- ABORT_WAIT_EXPIRY: ENGINE_FAULT is set, and the start task ends (R163, R166). -/
def execAbortWaitExpiry (s : State) : Host.Outcome State Fault Refusal :=
  .next (if works s .label && s.label.abortWait.isSome then
           settle s (endStartTask (s.setLabel { s.label with fault := true, abortWait := none }))
         else s)

/-- The oldest entry that is in the window leaves it (R157). -/
def leaveWindow : List PrintStart → List PrintStart
  | [] => []
  | p :: rest => if p.inWindow then { inWindow := false, left := 0 } :: rest else p :: leaveWindow rest

/-- HISTORY_ENTRY_LEAVES_WINDOW; a deferred print may start (R157). -/
def execHistoryEntryLeavesWindow (s : State) : Host.Outcome State Fault Refusal :=
  .next (if works s .label then
           settle s (labelStep (s.setLabel { s.label with history := leaveWindow s.label.history }))
         else s)

end Sys2Proof.Machine
end

