-- ==== Sys2Proof/Machine/Line.lean ====
section
/-! DEFINITION. The commands of the Line Controller: a frame heard, the line idle, the ends of an attempt, a QUERY handed
on (Chapter 3). -/

namespace Sys2Proof.Machine

/-- FRAME_RECEIVED: a good frame that passes the filter and is not malformed enters the receive queue (R63, R64, R182). -/
def execFrameReceived (bytes : List Byte) (s : State) : Host.Outcome State Fault Refusal :=
  .next (match heardFrame s bytes with
    | some r => s.setLine (storeFrame r s.line)
    | none => s)

/-- LINE_IDLE: an attempt begins at the head of the transmit queue (R59, R61). -/
def execLineIdle (s : State) : Host.Outcome State Fault Refusal :=
  .next (if maySend s && s.line.sending.isNone then startAttempt s else s)

/-- ATTEMPT_COUNTED_SENT (R58, R61, R68). -/
def execAttemptCountedSent (s : State) : Host.Outcome State Fault Refusal :=
  .next (if s.line.sending.isSome then attemptSent s else s)

/-- LOST_ARBITRATION: the frame stays queued, unless it was withdrawn meanwhile (R57, R58, R59). -/
def execLostArbitration (s : State) : Host.Outcome State Fault Refusal :=
  .next (if s.line.sending.isSome then attemptFailed s else s)

/-- ATTEMPT_ERRORED: the frame stays queued, unless it was withdrawn meanwhile (R58, R59). -/
def execAttemptErrored (s : State) : Host.Outcome State Fault Refusal :=
  .next (if s.line.sending.isSome then attemptFailed s else s)

/-- QUERY_RECEIVED: the QUERY at the head of the receive queue is answered by a STATUS (R64, R66). -/
def execQueryReceived (s : State) : Host.Outcome State Fault Refusal :=
  .next (match s.line.rx with
    | .query :: _ => if maySend s then answerQuery (dropHead s) else s
    | _ => s)

end Sys2Proof.Machine
end

