-- ==== Sys2Proof/Machine/RouteUnit.lean ====
section
/-! DEFINITION. The commands of the Route Unit (Chapter 10). -/

namespace Sys2Proof.Machine

/-- The pins with one lane or spur input at a level (R167). -/
def setLaneInput (input : LaneInput) (level : Bool) (p : Pins) : Pins :=
  match input with
  | .lane1Full => { p with lane1Full := level }
  | .lane1Shut => { p with lane1Shut := level }
  | .lane2Full => { p with lane2Full := level }
  | .lane2Shut => { p with lane2Shut := level }
  | .spurFull => { p with spurFull := level }

/-- LANE_INPUT_CHANGE: the lamps follow the input, the lane wait is watched, a waiting route is decided again (R167, R169,
R171). -/
def execLaneInputChange (input : LaneInput) (level : Bool) (s : State) : Host.Outcome State Fault Refusal :=
  let s1 := s.setPins (setLaneInput input level s.pins)
  .next (settle s (if works s .dispatch then watchLaneWait s1 else s1))

/-- One NOTICE LANE_WAIT for the waiting record (R171). -/
def reportLaneWait (s : State) : State :=
  match zoneEntryIn s .done, s.route.exitClass with
  | some e, some x => notify (.laneWait e.record.track (laneWaitDetail s.pins x)) s
  | _, _ => s

/-- LANE_WAIT_EXPIRY: the notice is queued and the timer marked expired (R171). -/
def execLaneWaitExpiry (s : State) : Host.Outcome State Fault Refusal :=
  .next (if works s .dispatch && s.route.laneWait.isSome then
           settle s (reportLaneWait (s.setRoute { s.route with laneWait := none, waitExpired := true }))
         else s)

end Sys2Proof.Machine
end

