-- ==== Sys2Proof/Machine/Start.lean ====
section
/-! DEFINITION. The commands RESET, RESET_RELEASE and IMAGE_READ_COMPLETE (Chapter 11). -/

namespace Sys2Proof.Machine

/-- RESET: every block at its reset value (R177, R24, R54, R61, R83, R105, R119, R124, R149, R166, R176). The pins are
outside levels and the free values' counter is the model's own: both stay (log 5, log 3). -/
def execReset (s : State) : Host.Outcome State Fault Refusal :=
  .next (((State.reset.setPins s.pins).setFree s.free).setPending s.pending)

/-- RESET_RELEASE: RESET is left for LOADING; in any other state RESET# is not asserted and nothing changes (R177). -/
def execResetRelease (s : State) : Host.Outcome State Fault Refusal :=
  .next (if s.service = .reset then s.setService .loading else s)

/-- IMAGE_READ_COMPLETE: the verdict on the image the memory delivered; only LOADING reads (R177 to R180, R183). -/
def execImageReadComplete (image : List Byte) (s : State) : Host.Outcome State Fault Refusal :=
  .next (if s.service = .loading then
           match imageVerdict image with
           | .ok cfg => settle s (enterStarting cfg s)
           | .error kept => (s.setCfg kept).setService .outOfService
         else s)

end Sys2Proof.Machine
end

