-- ==== Sys2Proof/Machine/Wrap.lean ====
section
/-! DEFINITION. The commands of the Wrap Sequencer (Chapter 8). The levels of WR_READY, WR_FAULT and WR_FILM are kept in
`pins`; what an edge does, it does at a WRAP station in STARTING or IN_SERVICE (R149). -/

namespace Sys2Proof.Machine

/-- WR_READY_RISES: WRAPPER_FAULT clears, and a waiting attempt may be requested (R141, R145). -/
def execWrReadyRises (s : State) : Host.Outcome State Fault Refusal :=
  let s1 := s.setPins { s.pins with wrReady := true }
  .next (if works s .wrap then settle s (wrapStep (s1.setWrap { s1.wrap with fault := false })) else s1)

/-- WR_READY_FALLS: the request conditions fail (R141). -/
def execWrReadyFalls (s : State) : Host.Outcome State Fault Refusal :=
  .next (s.setPins { s.pins with wrReady := false })

/-- WR_RUN_RISES: in REQUESTED the programme runs (R142). -/
def execWrRunRises (s : State) : Host.Outcome State Fault Refusal :=
  .next (if works s .wrap && s.wrap.hs = .requested then
           s.setWrap { s.wrap with hs := .wrapping, startTimer := none, wrapTimer := some s.cfg.wrap.wrapTimeout }
         else s)

/-- WR_DONE_RISES: in WRAPPING the wrap is complete (R143). -/
def execWrDoneRises (s : State) : Host.Outcome State Fault Refusal :=
  .next (if works s .wrap && s.wrap.hs = .wrapping then settle s (completeWrap s) else s)

/-- An attempt has been requested or runs. -/
def attemptOn (s : State) : Bool := s.wrap.hs = .requested || s.wrap.hs = .wrapping

/-- WR_FAULT_RISES: a requested or running attempt fails; in IDLE or WAITING only WRAPPER_FAULT is set (R144, R145). -/
def execWrFaultRises (s : State) : Host.Outcome State Fault Refusal :=
  let s1 := s.setPins { s.pins with wrFault := true }
  .next (if works s .wrap then
           settle s (if attemptOn s then failWrap .fault s1 else s1.setWrap { s1.wrap with fault := true })
         else s1)

/-- WR_FAULT_FALLS: a waiting attempt may be requested (R141). -/
def execWrFaultFalls (s : State) : Host.Outcome State Fault Refusal :=
  let s1 := s.setPins { s.pins with wrFault := false }
  .next (if works s .wrap then settle s (wrapStep s1) else s1)

/-- WR_FILM_RISES: in service one NOTICE FILM_LOW (R146). -/
def execWrFilmRises (s : State) : Host.Outcome State Fault Refusal :=
  let s1 := s.setPins { s.pins with wrFilm := true }
  .next (if works s .wrap then notify .filmLow s1 else s1)

/-- START_TIMER_EXPIRY: in REQUESTED the attempt fails with START_TIMEOUT (R142, R144). -/
def execStartTimerExpiry (s : State) : Host.Outcome State Fault Refusal :=
  .next (if works s .wrap && s.wrap.hs = .requested && s.wrap.startTimer.isSome then
           settle s (failWrap .startTimeout s)
         else s)

/-- WRAP_TIMER_EXPIRY: in WRAPPING, not halted, the attempt fails with WRAP_TIMEOUT (R143, R144, R147). -/
def execWrapTimerExpiry (s : State) : Host.Outcome State Fault Refusal :=
  .next (if works s .wrap && s.wrap.hs = .wrapping && s.wrap.wrapTimer.isSome && !halted s then
           settle s (failWrap .wrapTimeout s)
         else s)

/-- WR_ABORT_PULSE_END: WR_ABORT turns off; the start task ends, or a waiting attempt may be requested (R141, R148,
R149). The entry to IN_SERVICE reports a WR_FILM that the event finds asserted (R146, `findFilm`). -/
def execWrAbortPulseEnd (s : State) (film : Option Bool := none) : Host.Outcome State Fault Refusal :=
  let s1 := findFilm film s
  .next (if works s .wrap && s.wrap.abort.isSome then
           settle s (wrapStep (endWrapStart (s1.setWrap { s1.wrap with abort := none })))
         else s)

end Sys2Proof.Machine
end

