-- ==== Sys2Proof/Machine/Zone.lean ====
section
/-! DEFINITION. The commands of the Zone Controller: eyes (R26), SAFE# (R28), HOLD_SW (R48), the acknowledge button (R42
to R45), the handoff timers (Table 2-3). A command that names an edge is that edge (log 8); the level is kept in `pins`
in every service state and acts in STARTING and IN_SERVICE. -/

namespace Sys2Proof.Machine

/-! ## Eyes (Table 2-2) -/

/-- An arrival is an entry-eye block in EMPTY or INBOUND (R38). -/
def arrivalZone (s : State) : Bool := s.zone.zstate = .empty || s.zone.zstate = .inbound

/-- ENTRY_EYE_BLOCKS (R26, R38). -/
def execEntryEyeBlocks (s : State) : Host.Outcome State Fault Refusal :=
  let s1 := s.setPins { s.pins with eyeEntry := true }
  .next (settle s (if active s && arrivalZone s then arrive s1 else s1))

/-- ENTRY_EYE_CLEARS: no zone change; it can complete conditions (R26). -/
def execEntryEyeClears (s : State) : Host.Outcome State Fault Refusal :=
  .next (settle s (s.setPins { s.pins with eyeEntry := false }))

/-- POSITION_EYE_BLOCKS: in POSITIONING positioning completes (R39). -/
def execPositionEyeBlocks (s : State) : Host.Outcome State Fault Refusal :=
  let s1 := s.setPins { s.pins with eyePos := true }
  .next (settle s (if active s && s.zone.zstate = .positioning then evalStep (positionComplete s1) else s1))

/-- POSITION_EYE_CLEARS: no zone change; it can complete conditions (R26). -/
def execPositionEyeClears (s : State) : Host.Outcome State Fault Refusal :=
  .next (settle s (s.setPins { s.pins with eyePos := false }))

/-- EXIT_EYE_BLOCKS: in RELEASING the exit-seen mark is set (R26). -/
def execExitEyeBlocks (s : State) : Host.Outcome State Fault Refusal :=
  let s1 := s.setPins { s.pins with eyeExit := true }
  .next (settle s (if active s && s.zone.zstate = .releasing then s1.setZone { s1.zone with exitSeen := true } else s1))

/-- EXIT_EYE_CLEARS: in RELEASING with the exit-seen mark set the release or the delivery is complete (R36, R173). -/
def execExitEyeClears (s : State) : Host.Outcome State Fault Refusal :=
  let s1 := s.setPins { s.pins with eyeExit := false }
  .next (settle s
    (if active s && s.zone.zstate = .releasing && s.zone.exitSeen then
       (if hasRole s .dispatch then completeDelivery s1 else completeRelease s1)
     else s1))

/-! ## SAFE# and HOLD_SW -/

/-- A request that has not been answered is taken back when SAFE# is asserted (R147). -/
def haltWrap (s : State) : State :=
  if works s .wrap && s.wrap.hs = .requested then s.setWrap { s.wrap with hs := .waiting, startTimer := none } else s

/-- SAFE_ASSERTED: the station is halted, its own hold entry becomes SAFETY (R28, R48, R147, R164). -/
def execSafeAsserted (s : State) : Host.Outcome State Fault Refusal :=
  .next (settle s (haltWrap (followOwnHold (ownHold s.pins) (s.setPins { s.pins with safe := true }))))

/-- What the role's machine does when the halt ends (R141, R157, R164). -/
def resumeRole (s : State) : State :=
  if works s .wrap then wrapStep s
  else if works s .label then labelStep (if s.label.lstate = .printed then startApply s else s)
  else s

/-- SAFE_RELEASED: the halt ends (R28, R48, R141, R164). -/
def execSafeReleased (s : State) : Host.Outcome State Fault Refusal :=
  .next (settle s (resumeRole (followOwnHold (ownHold s.pins) (s.setPins { s.pins with safe := false }))))

/-- HOLD_SW_CHANGE (R48). -/
def execHoldSwChange (on : Bool) (s : State) : Host.Outcome State Fault Refusal :=
  .next (settle s (followOwnHold (ownHold s.pins) (s.setPins { s.pins with holdSw := on })))

/-! ## Acknowledge -/

/-- The JAM flag clears and NOTICE JAM_CLEARED is queued, with the track of a record that stays (R42). -/
def clearJam (track : Option Track) (s : State) : State :=
  notify (.jamCleared track) (s.setZone { s.zone with jam := false })

/-- A RELEASING record removed by hand is reported LOST, unless its taking was heard or this is DISPATCH (R43). -/
def lostIfReleasing (e : Entry) (s : State) : State :=
  if e.state = .releasing && !e.takenHeard && !hasRole s .dispatch then
    queueFrame (.lost (downstream s) e.record.track) s
  else s

/-- What the role's blocks do when the acknowledge removes the zone record (R84, R118, R123, R174). -/
def dropRoleWork (s : State) : State :=
  if hasRole s .check then dropCheckWork s
  else if hasRole s .dispatch then s.setRoute (dropRoute s.route)
  else s

/-- The acknowledge finds all three eyes clear (R43). -/
def ackAllClear (s : State) : State :=
  let s1 := setZoneState .empty (removeZoneRecord (dropRoleWork s))
  clearJam none
    (match zoneEntry s with
     | some e => lostIfReleasing e s1
     | none => s1)

/-- The route code returns to none when the record returns to DONE (R174). -/
def dropRouteCode (s : State) : State := if hasRole s .dispatch then s.setRoute { s.route with code := .none } else s

/-- The profiling of a PRESENT record begins again (R117). -/
def restartPresent (s : State) : State := if (zoneEntryIn s .present).isSome then restartProfiling s else s

/-- A PRESENT record found at position goes to work afresh; its restarted profile resolves at once (R44, R117). -/
def workAfresh (s : State) : State :=
  if (zoneEntryIn s .present).isSome then enterWorking (profileAtPosition s) else s

/-- The acknowledge finds the position eye blocked (R44). -/
def ackAtPosition (s : State) : State :=
  workAfresh (clearJam (zoneTrack s) (setZoneState .stopped (dropRouteCode (returnToDone (restartPresent s)))))

/-- The acknowledge finds another eye blocked: the movement is resumed (R45). -/
def ackElsewhere (s : State) : State :=
  clearJam (zoneTrack s)
    (if (zoneEntryIn s .releasing).isSome then startReleasing s else startPositioning (restartPresent s))

/-- ACK_PRESS: in JAMMED and IN_SERVICE, by the eyes as the press finds them (R42). -/
def execAckPress (s : State) : Host.Outcome State Fault Refusal :=
  .next (if inService s && s.zone.zstate = .jammed then
           settle s
             (if eyesClear s.pins then ackAllClear s
              else if s.pins.eyePos then evalStep (ackAtPosition s)
              else ackElsewhere s)
         else s)

/-! ## Handoff timers: an expiry acts while its timer runs and is not frozen (R29, R30) -/

/-- OFFER_REPEAT_EXPIRY: OFFER is queued again and the timer restarts (R33). -/
def execOfferRepeatExpiry (s : State) : Host.Outcome State Fault Refusal :=
  .next (if s.zone.offerTimer.isSome && offering s then settle s (offerNow s) else s)

/-- The EXPECTED entry whose arrival timer expires is removed and reported; the zone returns to EMPTY (R18). -/
def loseExpected (e : Entry) (s : State) : State :=
  notify (.palletLost e.record.track)
    (queueFrame (.lost (upstream s) e.record.track) (setZoneState .empty (removeTrack e.record.track s)))

/-- ARRIVAL_TIMER_EXPIRY (R18). -/
def execArrivalTimerExpiry (s : State) : Host.Outcome State Fault Refusal :=
  .next (match expectedEntry s with
    | some e => if active s && e.timer.isSome && !arrivalFrozen s then settle s (loseExpected e s) else s
    | none => s)

/-- POSITION_TIMER_EXPIRY: in POSITIONING the zone jams (R39, R41). -/
def execPositionTimerExpiry (s : State) : Host.Outcome State Fault Refusal :=
  .next (if active s && s.zone.zstate = .positioning && s.zone.positionTimer.isSome && !halted s then
           settle s (jam .positionTimeout s)
         else s)

/-- RELEASE_TIMER_EXPIRY: in RELEASING the zone jams and the record stays RELEASING (R40, R41). -/
def execReleaseTimerExpiry (s : State) : Host.Outcome State Fault Refusal :=
  .next (if active s && s.zone.zstate = .releasing && s.zone.releaseTimer.isSome && !releaseFrozen s then
           settle s (jam .releaseTimeout s)
         else s)

/-- TAKEN_TIMER_EXPIRY of the OUTBOUND entry of a track: it is removed and reported (R17). -/
def execTakenTimerExpiry (t : Track) (s : State) : Host.Outcome State Fault Refusal :=
  .next (match entryOf s t with
    | some e =>
      if active s && e.state = .outbound && e.timer.isSome && !releaseFrozen s then
        settle s (notify (.takenMissing t) (removeTrack t s))
      else s
    | none => s)

end Sys2Proof.Machine
end

