-- ==== Sys2Proof/Machine/Dispatch.lean ====
section
/-! DEFINITION. The meaning of every command, one arm for each constructor of Instr. -/

namespace Sys2Proof.Machine

def exec (i : Instr) (s : State) : Host.Outcome State Fault Refusal :=
  match i with
  | .reset => Sys2Proof.Machine.execReset s
  | .resetRelease => Sys2Proof.Machine.execResetRelease s
  | .imageReadComplete image => Sys2Proof.Machine.execImageReadComplete image s
  | .frameReceived bytes => Sys2Proof.Machine.execFrameReceived bytes s
  | .holdReceived => Sys2Proof.Machine.execHoldReceived s
  | .resumeReceived => Sys2Proof.Machine.execResumeReceived s
  | .clearReceived => Sys2Proof.Machine.execClearReceived s
  | .offerReceived => Sys2Proof.Machine.execOfferReceived s
  | .acceptReceived => Sys2Proof.Machine.execAcceptReceived s
  | .releasedReceived => Sys2Proof.Machine.execReleasedReceived s
  | .takenReceived => Sys2Proof.Machine.execTakenReceived s
  | .lostReceived => Sys2Proof.Machine.execLostReceived s
  | .manifestReceived => Sys2Proof.Machine.execManifestReceived s
  | .helloReceived => Sys2Proof.Machine.execHelloReceived s
  | .queryReceived => Sys2Proof.Machine.execQueryReceived s
  | .lineIdle => Sys2Proof.Machine.execLineIdle s
  | .attemptCountedSent => Sys2Proof.Machine.execAttemptCountedSent s
  | .lostArbitration => Sys2Proof.Machine.execLostArbitration s
  | .attemptErrored => Sys2Proof.Machine.execAttemptErrored s
  | .entryEyeBlocks => Sys2Proof.Machine.execEntryEyeBlocks s
  | .entryEyeClears => Sys2Proof.Machine.execEntryEyeClears s
  | .positionEyeBlocks => Sys2Proof.Machine.execPositionEyeBlocks s
  | .positionEyeClears => Sys2Proof.Machine.execPositionEyeClears s
  | .exitEyeBlocks => Sys2Proof.Machine.execExitEyeBlocks s
  | .exitEyeClears => Sys2Proof.Machine.execExitEyeClears s
  | .safeAsserted => Sys2Proof.Machine.execSafeAsserted s
  | .safeReleased => Sys2Proof.Machine.execSafeReleased s
  | .holdSwChange on => Sys2Proof.Machine.execHoldSwChange on s
  | .ackPress => Sys2Proof.Machine.execAckPress s
  | .offerRepeatExpiry => Sys2Proof.Machine.execOfferRepeatExpiry s
  | .arrivalTimerExpiry => Sys2Proof.Machine.execArrivalTimerExpiry s
  | .positionTimerExpiry => Sys2Proof.Machine.execPositionTimerExpiry s
  | .releaseTimerExpiry => Sys2Proof.Machine.execReleaseTimerExpiry s
  | .takenTimerExpiry track => Sys2Proof.Machine.execTakenTimerExpiry track s
  | .codeReaderLine chars => Sys2Proof.Machine.execCodeReaderLine chars s
  | .tagWaitExpiry => Sys2Proof.Machine.execTagWaitExpiry s
  | .manifestWaitExpiry => Sys2Proof.Machine.execManifestWaitExpiry s
  | .scanStart => Sys2Proof.Machine.execScanStart s
  | .scanComplete raw => Sys2Proof.Machine.execScanComplete raw s
  | .startZeroTimerExpiry => Sys2Proof.Machine.execStartZeroTimerExpiry s
  | .zeroDueExpiry => Sys2Proof.Machine.execZeroDueExpiry s
  | .settleTimerExpiry => Sys2Proof.Machine.execSettleTimerExpiry s
  | .encoderStep beams => Sys2Proof.Machine.execEncoderStep beams s
  | .wrReadyRises => Sys2Proof.Machine.execWrReadyRises s
  | .wrReadyFalls => Sys2Proof.Machine.execWrReadyFalls s
  | .wrRunRises => Sys2Proof.Machine.execWrRunRises s
  | .wrDoneRises => Sys2Proof.Machine.execWrDoneRises s
  | .wrFaultRises => Sys2Proof.Machine.execWrFaultRises s
  | .wrFaultFalls => Sys2Proof.Machine.execWrFaultFalls s
  | .wrFilmRises => Sys2Proof.Machine.execWrFilmRises s
  | .startTimerExpiry => Sys2Proof.Machine.execStartTimerExpiry s
  | .wrapTimerExpiry => Sys2Proof.Machine.execWrapTimerExpiry s
  | .wrAbortPulseEnd film => Sys2Proof.Machine.execWrAbortPulseEnd s film
  | .historyEntryLeavesWindow => Sys2Proof.Machine.execHistoryEntryLeavesWindow s
  | .pdReceived line => Sys2Proof.Machine.execPdReceived line s
  | .apReceived line => Sys2Proof.Machine.execApReceived line s
  | .msReceived line => Sys2Proof.Machine.execMsReceived line s
  | .ftReceived line => Sys2Proof.Machine.execFtReceived line s
  | .ryReceived line => Sys2Proof.Machine.execRyReceived line s
  | .printTimerExpiry => Sys2Proof.Machine.execPrintTimerExpiry s
  | .applyTimerExpiry => Sys2Proof.Machine.execApplyTimerExpiry s
  | .verifyTimerExpiry => Sys2Proof.Machine.execVerifyTimerExpiry s
  | .abortWaitExpiry => Sys2Proof.Machine.execAbortWaitExpiry s
  | .laneInputChange input level => Sys2Proof.Machine.execLaneInputChange input level s
  | .laneWaitExpiry => Sys2Proof.Machine.execLaneWaitExpiry s

end Sys2Proof.Machine
end

