-- ==== Sys2Proof/Safety.lean ====
section
/-! DEFINITION. What counts as a sound state of the part, in the terms the statements use: the laws that the spec states
of the station table and the zone (R8, R9, R24, R25), of the queues of the line (R59, R60, R64), of the CHECK blocks'
bounded figures (R70, R96), and of the route (R168, R170). -/

namespace Sys2Proof.Machine

/-! ## Station table and zone -/

/-- Where a record state stands in the order of R8: EXPECTED, the zone record's states, OUTBOUND. -/
def placeOf (st : RecordState) : Nat := if st = .expected then 0 else if st = .outbound then 2 else 1

/-- An older entry and a younger one: the younger is not later in the order, and only OUTBOUND can stand twice (R8). -/
def olderThan (a b : Entry) : Bool :=
  placeOf b.state < placeOf a.state || (a.state = .outbound && b.state = .outbound)

/-- The tracks of the table, oldest first. -/
def tableTracks (s : State) : List Track := s.table.map (fun e => e.record.track)

/-- R9: at most six records, no two of them with the same track. -/
abbrev tableSound (s : State) : Prop := s.table.length ≤ Config.tableCapacity ∧ (tableTracks s).Nodup

/-- R6: a track of this node whose sequence is the first, from the counter's value on, that no record of a table has taken. -/
abbrev firstFree (s : State) (table : List Entry) (k : Track) : Prop :=
  k.origin = s.cfg.node ∧ table.all (fun e => e.record.track != k) = true ∧
    ∃ j < 7, k.seq = Nat.repeat nextSeq j s.trackSeq ∧ ∀ i < j, table.any (fun e =>
      e.record.track = { origin := s.cfg.node, seq := Nat.repeat nextSeq i s.trackSeq }) = true

/-- R8: at most one EXPECTED, at most one zone record, and the order of states. -/
abbrev tableOrdered (s : State) : Prop := s.table.Pairwise (fun a b => olderThan a b = true)

/-- The record states that Table 2-1 gives a zone record in a zone state. -/
def zoneAllows : ZoneState → RecordState → Bool
  | .positioning, .present => true
  | .positioning, .done => true
  | .stopped, .working => true
  | .stopped, .done => true
  | .releasing, .releasing => true
  | .jammed, .present => true
  | .jammed, .done => true
  | .jammed, .releasing => true
  | _, _ => false

/-- The zone holds no pallet: EMPTY or INBOUND. -/
def zoneVacant (s : State) : Bool := s.zone.zstate = .empty || s.zone.zstate = .inbound

/-- Table 2-1: an EMPTY or INBOUND zone has no zone record; any other has one, in a state the table allows; EXPECTED
stands in the table exactly in INBOUND, and never at CHECK (R25). -/
abbrev zoneAgrees (s : State) : Prop :=
  (∀ e ∈ s.table, inZone e = true → zoneAllows s.zone.zstate e.state = true) ∧
  (zoneVacant s = false → (zoneEntry s).isSome = true) ∧
  (∀ e ∈ s.table, e.state = .expected → s.zone.zstate = .inbound ∧ hasRole s .check = false) ∧
  (s.zone.zstate = .inbound → hasRole s .check = false → (expectedEntry s).isSome = true)

/-- Out of service the table and the slot are empty and the zone is EMPTY (R24, R54). -/
abbrev idleWhenInactive (s : State) : Prop :=
  active s = false → s.table = [] ∧ s.slot = none ∧ s.zone.zstate = .empty

/-- The laws of the station table and the zone. -/
abbrev StationSound (s : State) : Prop := tableSound s ∧ tableOrdered s ∧ zoneAgrees s ∧ idleWhenInactive s

/-! ## Line -/

/-- The tracks that the queued OFFERs name. -/
def offeredTracks (q : List TxEntry) : List Track := q.filterMap (fun e => offerTrack e.frame)

/-- R58 to R60: while an attempt is under way exactly one queued frame is in it, and else none is; only that frame can
have been withdrawn, or stay after a replacement. -/
abbrev AttemptSound (s : State) : Prop :=
  s.line.tx.countP TxEntry.inAttempt = (if s.line.sending.isSome then 1 else 0) ∧
    ∀ e ∈ s.line.tx, e.withdrawn = true ∨ e.stays = true → e.inAttempt = true

/-- R59, R60, R64: at most eight frames to send, in the order of sending, at most one OFFER for a track; at most four
frames received; and the law of attempts. -/
abbrev LineSound (s : State) : Prop :=
  s.line.tx.length ≤ Config.txCapacity ∧ s.line.tx.Pairwise (fun a b => txRank a.frame ≤ txRank b.frame) ∧
    (offeredTracks s.line.tx).Nodup ∧ s.line.rx.length ≤ Config.rxCapacity ∧ AttemptSound s

/-! ## CHECK -/

/-- The serials of the Manifest Store. -/
def storeSerials (s : State) : List Digits := s.store.manifests.map Manifest.serial

/-- R70 and R96: at most 32 manifests, no two of them with the same serial; a postponement count within 0..8. -/
abbrev CheckSound (s : State) : Prop :=
  s.store.manifests.length ≤ Config.storeCapacity ∧ (storeSerials s).Nodup ∧ s.weigh.postponed ≤ Config.postponeLimit

/-- R32: at a CHECK station the INBOUND zone, whose INFEED_PERMIT is on in IN_SERVICE, has no hold in force, SCALE_FAULT
clear and the postponement count below 8. -/
abbrev PermitSound (s : State) : Prop :=
  works s .check = true → s.zone.zstate = .inbound →
    holdsEmpty s = true ∧ s.weigh.scaleFault = false ∧ zeroOverdue s = false

/-- What R126 and R129 say of a record at a station with this configuration: a PASS is given only to a record with a
manifest, a gross and a height, its deviation within the tolerance computed for it; a gross is at most the capacity. -/
abbrev passLaw (c : CheckCfg) (r : TravelRecord) : Prop :=
  (r.check = some .pass →
    r.manifestPresent = true ∧ r.gross.isSome = true ∧ r.height.isSome = true ∧
      r.deviation.any (fun d => d.natAbs ≤ tolerance c r) = true) ∧
  r.gross.all (fun g => g ≤ c.capacity) = true

/-- The gross of a STABLE mass. -/
def stableMass : Option MassResolution → Option Nat
  | some (.stable g) => some g
  | some .unstable => none
  | some .scaleFault => none
  | none => none

/-- The manifest of a FOUND resolution. -/
def foundManifest : Option ManifestResolution → Option Manifest
  | some (.found m) => some m
  | some .notFound => none
  | some .notApplicable => none
  | none => none

/-- The serial of a tag resolution that has one (R76). -/
def readSerial : Option TagResolution → Option Digits
  | some (.serial ds) => some ds
  | some .unread => none
  | none => none

/-- The Check Evaluator and the blocks that feed it (R73, R74, R76 to R80, R120, R121): away from a CHECK station in STARTING or
IN_SERVICE there is no evaluation, no pending request, no tag window and no tag wait. An evaluation belongs to a record from the
infeed that is PRESENT or WORKING; its manifest is NOT_APPLICABLE exactly when its tag is UNREAD, and unresolved while its
tag is. The tag window is open exactly while the tag of an evaluation is unresolved, and the tag wait runs only then. A
pending request is for the serial read, its manifest still unresolved. -/
abbrev EvalSound (s : State) : Prop :=
  (works s .check = false →
    s.eval = none ∧ s.store.request = none ∧ s.reader.window ≠ .tag ∧ s.reader.tagWait = none) ∧
  (∀ ev ∈ s.eval,
    (∃ e ∈ s.table, (e.state = .present ∨ e.state = .working) ∧ e.record.track = ev.track ∧
      e.record.unknownOrigin = false) ∧
    (ev.manifest = some .notApplicable ↔ ev.tag = some .unread) ∧ (ev.tag = none → ev.manifest = none)) ∧
  (s.reader.window = .tag ↔ s.eval.any (fun ev => ev.tag.isNone) = true) ∧
  (s.reader.tagWait.isSome = true → s.reader.window = .tag) ∧
  (∀ r ∈ s.store.request, ∃ ev ∈ s.eval, ev.tag = some (.serial r.serial) ∧ ev.manifest = none)

/-- A record holds the fields of a manifest (R81). -/
abbrev holdsManifest (m : Manifest) (r : TravelRecord) : Prop :=
  r.manifestPresent = true ∧ r.order = m.order ∧ r.duty = m.duty ∧ r.laneClass = m.laneClass ∧
    r.tare = some m.tare ∧ r.lines = m.lines

/-- R126 and R129 at a CHECK station in service or starting: every record of the table obeys the law; a record not yet
DONE has no verdict; the WORKING record holds what the evaluation of its track was handed as its manifest (R81); the mass
handed is at most the capacity (R99). -/
abbrev VerdictSound (s : State) : Prop :=
  works s .check = true →
    (∀ e ∈ s.table, passLaw s.cfg.check e.record) ∧
    (∀ e ∈ s.table, e.state = .present ∨ e.state = .working → e.record.check = none) ∧
    (∀ ev ∈ s.eval, ∀ g ∈ stableMass ev.mass, g ≤ s.cfg.check.capacity) ∧
    (∀ ev ∈ s.eval, ∀ m ∈ foundManifest ev.manifest,
      ∀ e ∈ s.table, e.state = .working → e.record.track = ev.track → holdsManifest m e.record)

/-! ## Hold set -/

/-- The sender of a HOLD, RESUME or HELLO in the receive queue. -/
def holdSender : RxFrame → Option Nat
  | .hold n _ => some n
  | .resume n => some n
  | .hello n => some n
  | .clear => none
  | .offer _ => none
  | .accept _ => none
  | .released _ => none
  | .taken _ => none
  | .lost _ => none
  | .manifest _ => none
  | .query => none

/-- R48: in IN_SERVICE the station's own entry in the hold set is what its SAFE# and HOLD_SW give. No frame of its own
stands in the receive queue, and outside IN_SERVICE no HOLD, RESUME or HELLO does (R63). -/
abbrev OwnHoldSound (s : State) : Prop :=
  (inService s = true → holdOf s.zone.holds s.cfg.node = ownHold s.pins) ∧
  (∀ f ∈ s.line.rx, ∀ n ∈ holdSender f, inService s = true ∧ n ≠ s.cfg.node)

/-! ## WRAP and LABEL -/

/-- R140: the handshake is out of IDLE exactly while a WRAP station has a record in WORKING; the start timer runs in
REQUESTED and the wrap timer in WRAPPING; IDLE has attempt count 0, and no other state has. -/
abbrev WrapSound (s : State) : Prop :=
  (s.wrap.hs ≠ .idle ↔ hasRole s .wrap = true ∧ (zoneEntryIn s .working).isSome = true) ∧
  (s.wrap.startTimer.isSome = true ↔ s.wrap.hs = .requested) ∧
  (s.wrap.wrapTimer.isSome = true ↔ s.wrap.hs = .wrapping) ∧
  (s.wrap.attempt = 0 ↔ s.wrap.hs = .idle) ∧ s.wrap.attempt ≤ Config.wrapAttempts

/-- A thirteen-digit code whose weighted data digits and check digit sum to a multiple of ten (R151). -/
abbrev checkDigitRight (code : Digits) : Prop :=
  (weightedSum code.dropLast + (code.getLast?.map Fin.val).getD 0) % 10 = 0

/-- R151, R154, R156, R157: the label state is out of IDLE exactly while a LABEL station has a record in WORKING; its
timers run in their states; the verify window is open only in VERIFYING; at most four print starts are kept; the label
sequence counter stands at 1..999999; the composed label's dispatch code has its check digit. -/
abbrev LabelSound (s : State) : Prop :=
  (s.label.lstate ≠ .idle ↔ hasRole s .label = true ∧ (zoneEntryIn s .working).isSome = true) ∧
  (s.label.printTimer.isSome = true ↔ s.label.lstate = .printing) ∧
  (s.label.applyTimer.isSome = true ↔ s.label.lstate = .applying) ∧
  (s.label.verifyTimer.isSome = true ↔ s.label.lstate = .verifying) ∧
  (s.reader.window = .verify → s.label.lstate = .verifying) ∧
  s.label.history.length ≤ Config.historySize ∧ 1 ≤ s.label.seq ∧ s.label.seq ≤ 999999 ∧
  (∀ l ∈ s.label.label, checkDigitRight l.code)

/-! ## Route -/

/-- The record a DISPATCH station delivers, or waits to deliver: the zone record. -/
def deliveredRecord (s : State) : Option TravelRecord := (zoneEntry s).map Entry.record

/-- The exit class admits lane 1, lane 2 (R170). -/
def classHasLane : LaneNo → ExitClass → Bool
  | .one, .lane m _ => m
  | .two, .lane _ m => m
  | .one, .reject _ => false
  | .two, .reject _ => false

/-- Only DISPATCH fixes an exit class; once fixed it is that of the zone record; a lane is selected only for a record that
matches it (R168, R170). -/
abbrev RouteSound (s : State) : Prop :=
  (hasRole s .dispatch = false → s.route.exitClass = none) ∧
  (∀ x ∈ s.route.exitClass, (deliveredRecord s).map (exitClassOf s.cfg.dispatch) = some x) ∧
  (s.route.code = .lane1 → s.route.exitClass.any (classHasLane .one) = true) ∧
  (s.route.code = .lane2 → s.route.exitClass.any (classHasLane .two) = true)

/-! ## Conditions evaluated afresh: after every event nothing that could happen is left waiting -/

/-- R33: the offer repeat timer runs exactly while the offering conditions hold. -/
abbrev OfferingFollows (s : State) : Prop := s.zone.offerTimer.isSome = offering s

/-- R15, R32: an OFFER stands in the slot, and a CHECK zone stays EMPTY, only while an accepting condition fails. -/
abbrev AcceptingFollows (s : State) : Prop := hasRole s .check = true ∨ s.slot.isSome = true → accepting s = false

/-- R169, R171: while the delivery conditions hold the record waits for want of an exit, with its lane wait on; and the
lane wait is on only while a record lacks an exit. -/
abbrev RouteFollows (s : State) : Prop :=
  (delivering s = true → lacksExit s = true ∧ laneWaitOn s = true) ∧ (laneWaitOn s = true → lacksExit s = true)

/-- The evaluation has its four inputs and its record is WORKING (R122). -/
def evalReady (s : State) : Bool :=
  s.eval.any (fun ev => (inputsOf ev).isSome && (zoneEntryIn s .working).any (fun e => e.record.track = ev.track))

/-- R122, R141, R157: no evaluation, wrap request or print start that could take place is left waiting. -/
abbrev RoleFollows (s : State) : Prop :=
  (works s .check = true → evalReady s = false) ∧ (works s .wrap = true → wrapReady s = false) ∧
    (works s .label = true → printReady s = false)

/-- What the end of every event leaves at the zone and the station table: the premises under which an event's effect is
exactly its own. -/
abbrev Settled (s : State) : Prop := OfferingFollows s ∧ AcceptingFollows s ∧ RouteFollows s ∧ PermitSound s

/-- An evaluation stays with its record, or took place: then its record is DONE with a verdict (R120, R122, R134). -/
abbrev EvalKept (s t : State) : Prop :=
  t.eval.map Evaluation.track = s.eval.map Evaluation.track ∨
    (t.eval = none ∧ ∃ ev ∈ s.eval, ∃ e ∈ t.table,
      e.state = .done ∧ e.record.track = ev.track ∧ e.record.check.isSome = true)

/-! ## Frames: what an event leaves unchanged -/

/-- The fields of State. -/
inductive Block
  | pending | service | cfg | pins | line | table | slot | trackSeq | zone | store | reader | weigh | prof | eval
  | wrap | label | route | free
  deriving DecidableEq, Repr

/-- Two states agree on a field. -/
def Block.same (s t : State) : Block → Prop
  | .pending => t.pending = s.pending
  | .service => t.service = s.service
  | .cfg => t.cfg = s.cfg
  | .pins => t.pins = s.pins
  | .line => t.line = s.line
  | .table => t.table = s.table
  | .slot => t.slot = s.slot
  | .trackSeq => t.trackSeq = s.trackSeq
  | .zone => t.zone = s.zone
  | .store => t.store = s.store
  | .reader => t.reader = s.reader
  | .weigh => t.weigh = s.weigh
  | .prof => t.prof = s.prof
  | .eval => t.eval = s.eval
  | .wrap => t.wrap = s.wrap
  | .label => t.label = s.label
  | .route => t.route = s.route
  | .free => t.free = s.free

/-- Every field but the listed ones is as before. -/
def onlyChanges (bs : List Block) (s t : State) : Prop := ∀ b : Block, b ∈ bs ∨ b.same s t

/-- The fields that the conditions evaluated at the end of an event may change (`settle`). -/
def settleBlocks : List Block := [.line, .table, .slot, .zone, .route, .weigh]

/-- A frame stands in the transmit queue. -/
def queued (f : TxFrame) (s : State) : Bool := s.line.tx.any (fun e => e.frame = f)

/-- The transmit queue has room for `n` more frames. -/
def roomFor (n : Nat) (s : State) : Bool := s.line.tx.length + n ≤ Config.txCapacity

/-! ## Records that an OFFER can carry -/

/-- A line of goods as a valid MANIFEST gives it, within what its fields can carry (Table 12-4). -/
def lineCarried (l : GoodsLine) : Bool :=
  l.article.length = 6 && l.count < 256 && l.mass < 65536 && l.layers < 256 && l.layerHeight < 65536

/-- A check verdict of R126: the primary reason is in the fail set, the set in the order of R126. -/
def checkCarried : Option CheckVerdict → Bool
  | some (.fail p fs) => fs.contains p && fs = reasons.filter (fun r => fs.contains r)
  | some .pass => true
  | none => true

/-- A wrap verdict with a code 1..15 (R139). -/
def wrapCarried : Option WrapVerdict → Bool
  | some (.wrapped c) => 1 ≤ c && c ≤ 15
  | some .wrapFailed => true
  | some .skipped => true
  | none => true

/-- A label verdict with 1..3 attempts and thirteen digits (R151, R161). -/
def labelCarried : Option LabelVerdict → Bool
  | some (.labelled n code) => 1 ≤ n && n ≤ 3 && code.length = 13
  | some .labelFailed => true
  | some .skipped => true
  | none => true

/-- A record within what the fields of an OFFER can carry (Table 1-1, Table 12-3). -/
def recordCarried (r : TravelRecord) : Bool :=
  1 ≤ r.track.origin && r.track.origin ≤ 24 && 1 ≤ r.track.seq && r.track.seq ≤ 2047 &&
    r.serial.all (fun ds => ds.length = 10) && r.order.all (fun ds => ds.length = 8) &&
    r.tare.isSome == r.manifestPresent && r.tare.all (fun v => v < 65536) && r.lines.length ≤ 6 &&
    r.lines.all lineCarried && r.gross.all (fun v => v < 16777216) && r.height.all (fun v => v < 65536) &&
    r.length.all (fun v => v < 65536) && r.deviation.all (fun d => -2147483648 ≤ d && d < 2147483648) &&
    checkCarried r.check && wrapCarried r.wrap && labelCarried r.label && r.hops ≤ 15

/-- A node number of a station (1.2). -/
def isNode (n : Nat) : Bool := 1 ≤ n && n ≤ 24

/-- A track with its origin and sequence in range (1.2). -/
def isTrack (t : Track) : Bool := isNode t.origin && 1 ≤ t.seq && t.seq ≤ 2047

end Sys2Proof.Machine
end

