-- ==== Sys2Proof/Certificates/Slice0/Obligations.lean ====
section
/-! DEFINITION. The statements for the provers. Each says which rules of spec/ it rests on; OBLIGATIONS.json lists them.
A premise `StationSound`, `Settled` and the like is an invariant that has its own statement below. -/

open Sys2Proof Sys2Proof.Machine

/-! ## Steps, reset, start (00, Chapter 11) -/

/-- A step takes the command at the front of the queue and runs it on the state with the queue's rest. -/
def Obligations.StepRunsTheFrontCommand : Prop :=
  ∀ (s : State) (c : Instr) (rest : List Instr),
    s.pending = c :: rest →
    step s = exec c (s.setPending rest)

/-- On an empty queue 10 ms pass (MODEL'S CHOICE, log 2). In STARTING and IN_SERVICE every timer that runs and is not frozen
counts one step down; the arrival timer is frozen by the own halt or the upstream's SAFETY, the release and taken timers by the
own halt or the downstream's, the position, wrap, print, apply and verify timers by the own halt alone, and no other timer ever
(Table 2-3, R30, R140, R147, R164); each print start in the window ages by one step (R157). Nothing else but the queue changes:
into it go one expiry for each timer that this step takes to zero, and no other command, and behind them the handing on of the
frames received, oldest first (R64). In the other service states nothing counts, and only the frames are handed on. -/
def Obligations.IdleStepCountsTheTimers : Prop :=
  ∀ (s : State) (due : Option Nat → Bool),
    s.pending = [] →
    due = (fun t => t.any (fun n => n ≤ 1)) →
    (active s = false → step s = .next (s.setPending (s.line.rx.map handOn))) ∧
    (active s = true → ∃ t, step s = .next t ∧
      onlyChanges [.pending, .table, .zone, .store, .reader, .weigh, .wrap, .label, .route] s t ∧
      t.table = s.table.map (fun e =>
        if (if e.state = .expected then arrivalFrozen s else releaseFrozen s) then e
        else { e with timer := e.timer.map (· - 1) }) ∧
      t.zone = { s.zone with
        offerTimer := s.zone.offerTimer.map (· - 1)
        positionTimer := if s.pins.safe then s.zone.positionTimer else s.zone.positionTimer.map (· - 1)
        releaseTimer := if releaseFrozen s then s.zone.releaseTimer else s.zone.releaseTimer.map (· - 1) } ∧
      t.store.request = s.store.request.map (fun r => { r with wait := r.wait.map (· - 1) }) ∧
      t.store.manifests = s.store.manifests ∧
      t.reader = { s.reader with tagWait := s.reader.tagWait.map (· - 1) } ∧
      t.weigh = { s.weigh with startZero := s.weigh.startZero.map (· - 1), zeroDue := s.weigh.zeroDue.map (· - 1),
                               settle := s.weigh.settle.map (· - 1) } ∧
      t.wrap = { s.wrap with
        startTimer := s.wrap.startTimer.map (· - 1), abort := s.wrap.abort.map (· - 1)
        wrapTimer := if s.pins.safe then s.wrap.wrapTimer else s.wrap.wrapTimer.map (· - 1) } ∧
      t.label = { s.label with
        abortWait := s.label.abortWait.map (· - 1)
        history := s.label.history.map (fun p => if p.inWindow then { p with left := p.left - 1 } else p)
        printTimer := if s.pins.safe then s.label.printTimer else s.label.printTimer.map (· - 1)
        applyTimer := if s.pins.safe then s.label.applyTimer else s.label.applyTimer.map (· - 1)
        verifyTimer := if s.pins.safe then s.label.verifyTimer else s.label.verifyTimer.map (· - 1) } ∧
      t.route = { s.route with laneWait := s.route.laneWait.map (· - 1) } ∧
      ∃ ex, t.pending = ex ++ s.line.rx.map handOn ∧
        (∀ p ∈ [(Instr.offerRepeatExpiry, false, s.zone.offerTimer),
            (.positionTimerExpiry, s.pins.safe, s.zone.positionTimer),
            (.releaseTimerExpiry, releaseFrozen s, s.zone.releaseTimer), (.tagWaitExpiry, false, s.reader.tagWait),
            (.manifestWaitExpiry, false, s.store.request.bind Request.wait),
            (.startZeroTimerExpiry, false, s.weigh.startZero), (.zeroDueExpiry, false, s.weigh.zeroDue),
            (.settleTimerExpiry, false, s.weigh.settle), (.startTimerExpiry, false, s.wrap.startTimer),
            (.wrapTimerExpiry, s.pins.safe, s.wrap.wrapTimer), (.wrAbortPulseEnd none, false, s.wrap.abort),
            (.printTimerExpiry, s.pins.safe, s.label.printTimer), (.applyTimerExpiry, s.pins.safe, s.label.applyTimer),
            (.verifyTimerExpiry, s.pins.safe, s.label.verifyTimer), (.abortWaitExpiry, false, s.label.abortWait),
            (.laneWaitExpiry, false, s.route.laneWait)],
          ex.count p.1 = if p.2.1 = false ∧ due p.2.2 = true then 1 else 0) ∧
        ex.count .arrivalTimerExpiry =
          (s.table.filter (fun e => e.state = .expected && !arrivalFrozen s && due e.timer)).length ∧
        (∀ e ∈ s.table, ex.count (.takenTimerExpiry e.record.track) = (s.table.filter (fun x =>
          x.state != .expected && x.record.track = e.record.track && !releaseFrozen s && due x.timer)).length) ∧
        ex.count .historyEntryLeavesWindow = (s.label.history.filter (fun p => p.inWindow && p.left ≤ 1)).length ∧
        (∀ c ∈ ex, c ∈ [.offerRepeatExpiry, .positionTimerExpiry, .releaseTimerExpiry, .tagWaitExpiry,
            .manifestWaitExpiry, .startZeroTimerExpiry, .zeroDueExpiry, .settleTimerExpiry, .startTimerExpiry,
            .wrapTimerExpiry, .wrAbortPulseEnd none, .printTimerExpiry, .applyTimerExpiry, .verifyTimerExpiry,
            .abortWaitExpiry, .laneWaitExpiry, .arrivalTimerExpiry, .historyEntryLeavesWindow] ∨
          ∃ e ∈ s.table, c = .takenTimerExpiry e.record.track))

/-- RESET gives every block every reset value of its chapter: R24 (table, slot, counter), R54 (zone, JAM, holds, timers), R61
(queues, flags), R73 and R83 (store, port), R105 (scale), R119 (profile), R149, R166, R176, R177; no output is on. It is the
part as `State.reset` has it but for the levels of the input pins, the free values' counter and the queue, which stay
(MODEL'S CHOICE, log 5 and log 3). The values of what no image has loaded and those the spec implies, such as the exit-seen
mark, are the model's (log 4, log 27). -/
def Obligations.ResetLeavesResetValues : Prop :=
  ∀ (s : State),
    ∃ t, exec .reset s = .next t ∧
      t = { State.reset with pins := s.pins, free := s.free, pending := s.pending } ∧ t.service = .reset ∧
      t.cfg = Loaded.none ∧ t.table = [] ∧ t.slot = none ∧ t.trackSeq = 1 ∧
      t.zone = { zstate := .empty, exitSeen := false, jam := false, holds := [], offerTimer := none,
                 positionTimer := none, releaseTimer := none } ∧
      t.line = { tx := [], sending := none, rx := [], txOverrun := false, rxOverrun := false } ∧
      t.store = { manifests := [], request := none } ∧
      t.reader = { buffer := [], overlong := false, window := .closed, kept := none, tagWait := none } ∧
      t.weigh = { scanning := false, window := [], z0 := 0, z := 0, established := false, postponed := 0,
                  scaleFault := false, owedFault := none, startZero := none, zeroDue := none, settle := none,
                  weighing := false, held := none, restarts := 0, lastGross := 0 } ∧
      t.prof = { counter := 0, phase := .none, front := none, rear := none, compare := none, ever := false,
                 top := none, gaps := 0 } ∧
      t.eval = none ∧
      t.wrap = { hs := .idle, attempt := 0, recipe := 0, firstCause := none, startTimer := none, wrapTimer := none,
                 abort := none, count := 0, fault := false } ∧
      t.label = { lstate := .idle, attempt := 0, label := none, causes := [], history := [], seq := 1, printCount := 0,
                  fault := false, printTimer := none, applyTimer := none, verifyTimer := none, abortWait := none,
                  rxBuffer := [], rxOverlong := false, tx := [] } ∧
      t.route = { exitClass := none, code := .none, lastLane := none, lane1 := 0, lane2 := 0, rejects := 0,
                  laneWait := none, waitExpired := false } ∧
      drive t = false ∧ infeedPermit t = false ∧ faultLamp t = false ∧ laneLamp t .one = false ∧
      laneLamp t .two = false ∧ wrapAbortLine t = false ∧ wrapStartLine t = false ∧ wrapCodeLines t = 0 ∧
      routeSelect t = (false, false) ∧ t.pins = s.pins ∧ t.free = s.free ∧ t.pending = s.pending

/-- The release of RESET# takes RESET to LOADING, and LOADING ends in OUT_OF_SERVICE with an image that is not valid; no
other service state heeds either (R177 to R179). Of an image that is not readable, by its identifier, its length or the
length of its role, nothing is kept and the node is 0 (R61, R178); of a readable one the node if it is 1..24, else 0, and the
role and both neighbours if the role is 1..5 and each neighbour is 0..24 and not the node, whatever other check failed (R179);
that this holds of an image whose checksum is bad, and that the role is kept with both neighbours or not at all, is the
MODEL'S CHOICE (log 10), as are the values of what is not kept (log 4). -/
def Obligations.LoadingFollowsReset : Prop :=
  ∀ (s : State) (img : List Byte) (kept : Loaded),
    (s.service = .reset → ∃ t, exec .resetRelease s = .next t ∧ t.service = .loading ∧ onlyChanges [.service] s t) ∧
    (s.service ≠ .reset → exec .resetRelease s = .next s) ∧
    (s.service ≠ .loading → exec (.imageReadComplete img) s = .next s) ∧
    (s.service = .loading → imageVerdict img = .error kept →
      ∃ t, exec (.imageReadComplete img) s = .next t ∧ t.service = .outOfService ∧ t.cfg = kept ∧
        onlyChanges [.service, .cfg] s t) ∧
    (imageVerdict img = .error kept → kept =
      if imageWord img 0 = 0x5A17 ∧ imageWord img 2 % 2 = 0 ∧ imageWord img 2 ≤ 1024 ∧ (match imageByte img 5 with
          | 1 => imageWord img 2 == 174
          | 2 => imageWord img 2 == 18
          | 3 => imageWord img 2 == 136
          | 4 => imageWord img 2 == 76
          | 5 => imageWord img 2 == 24
          | _ => decide (18 ≤ imageWord img 2)) = true then
        { (if 1 ≤ imageByte img 5 ∧ imageByte img 5 ≤ 5 ∧ imageByte img 6 ≤ 24 ∧ imageByte img 7 ≤ 24 ∧
              imageByte img 6 ≠ imageByte img 4 ∧ imageByte img 7 ≠ imageByte img 4 then
            { Loaded.none with
              role := [Role.check, .plain, .wrap, .label, .dispatch][imageByte img 5 - 1]?
              up := some (imageByte img 6), down := some (imageByte img 7) }
           else Loaded.none) with
          node := if 1 ≤ imageByte img 4 ∧ imageByte img 4 ≤ 24 then imageByte img 4 else 0 }
      else Loaded.none)

/-- A valid image is loaded and the station enters STARTING; it derives its zone and table from its eyes; its role's start
task begins, and a PLAIN or DISPATCH station, which has none, enters IN_SERVICE at once with HELLO at the head of its queue
and its own hold in its set (R180, R181, R53, R93, R149, R166). -/
def Obligations.ValidImageStartsTheStation : Prop :=
  ∀ (s : State) (img : List Byte) (cfg : Loaded),
    StationSound s →
    s.service = .loading →
    s.line.tx = [] →
    s.store.request = none →
    imageVerdict img = .ok cfg →
    ∃ t, exec (.imageReadComplete img) s = .next t ∧ t.cfg = cfg ∧
      onlyChanges [.service, .cfg, .line, .table, .trackSeq, .zone, .weigh, .wrap, .label, .route] s t ∧
      (cfg.role = some .check → t.service = .starting ∧ t.weigh.startZero = some 3000) ∧
      (cfg.role = some .wrap → t.service = .starting ∧ t.wrap = { s.wrap with abort := some 20 }) ∧
      (cfg.role = some .label → t.service = .starting ∧ t.label.fault = true ∧ t.label.abortWait = some 1000 ∧
        t.label.tx = s.label.tx ++ [[0x41, 0x42, 0x0D]]) ∧
      (cfg.role = some .plain ∨ cfg.role = some .dispatch → t.service = .inService ∧
        t.line.tx.head?.map TxEntry.frame = some .hello ∧ holdOf t.zone.holds cfg.node = ownHold s.pins) ∧
      (s.pins.eyePos = true → ∃ e ∈ t.table, t.table = [e] ∧ e.record.unknownOrigin = true ∧ e.record.check = none ∧
        (cfg.role ≠ some .dispatch → e.state = .done ∧ t.zone.zstate = .stopped)) ∧
      (s.pins.eyePos = false → eyesClear s.pins = false → t.zone.zstate = .positioning ∧
        t.zone.positionTimer = some cfg.timing.position ∧
        ∃ e ∈ t.table, t.table = [e] ∧ e.record.unknownOrigin = true ∧ e.state = .present) ∧
      (eyesClear s.pins = true → t.table = [] ∧ t.zone.zstate = .empty)

/-- An image is loaded exactly when it passes its checks, and its fields are then the configuration. The format identifier, a
length even, at most 1024 and that of its role, words that sum to 0 modulo 65536 (R178); a node 1..24 that no neighbour names,
the neighbours its role asks for, the timing set in range (R179, checks 1 to 5). The role's parameters stand at the offsets of
Table 12-9 within the ranges of Table 11-2 (R183). CHECK's active entries, those before the first disabled one, which is itself
decoded (MODEL'S CHOICE, log 9), name no input twice and a load cell (check 6); WRAP's eight recipes have codes 1..15 (check 7);
LABEL's site number has two digits, its site text ends at the first 00H with nothing but 00H after it and holds what check 8
admits, and its gather list is the used entries in order, each with a row 1..12 and a source code 1..20; DISPATCH's lanes have a
duty and a class letter (check 9). The parameters of the roles the station does not have are as before any image (MODEL'S
CHOICE, log 4). -/
def Obligations.LoadedImageHasPassedItsChecks : Prop :=
  ∀ (img : List Byte) (cfg : Loaded),
    imageVerdict img = .ok cfg ↔ ∃ role ∈ cfg.role, ∃ u ∈ cfg.up, ∃ d ∈ cfg.down,
      imageWord img 0 = 0x5A17 ∧ imageWord img 2 = imageLength role ∧
      ((List.range (imageWord img 2 / 2)).map (fun k => imageWord img (2 * k))).sum % 65536 = 0 ∧
      1 ≤ cfg.node ∧ cfg.node ≤ 24 ∧ u ≤ 24 ∧ d ≤ 24 ∧ u ≠ cfg.node ∧ d ≠ cfg.node ∧
      (role = .check ↔ u = 0) ∧ (role = .dispatch ↔ d = 0) ∧
      10 ≤ cfg.timing.offerRepeat ∧ cfg.timing.offerRepeat ≤ 200 ∧ 200 ≤ cfg.timing.release ∧
      cfg.timing.release ≤ 3000 ∧ 100 ≤ cfg.timing.transit ∧ cfg.timing.transit ≤ 3000 ∧
      200 ≤ cfg.timing.position ∧ cfg.timing.position ≤ 3000 ∧
      imageByte img 4 = cfg.node ∧ imageByte img 5 = roleCode role ∧ imageByte img 6 = u ∧ imageByte img 7 = d ∧
      imageWord img 8 = cfg.timing.offerRepeat ∧ imageWord img 10 = cfg.timing.release ∧
      imageWord img 12 = cfg.timing.transit ∧ imageWord img 14 = cfg.timing.position ∧
      (role = .check →
        (∀ p ∈ [(50, cfg.check.tagWait, 1000, imageWord img 16), (50, cfg.check.manifestWait, 1000, imageWord img 18),
            (5, cfg.check.scanPeriod, 50, imageWord img 20), (4, cfg.check.windowSize, 32, imageByte img 22),
            (1, cfg.check.settleBand, 500, imageWord img 23), (100, cfg.check.settleTimeout, 2000, imageWord img 25),
            (1000, cfg.check.zeroInterval, 60000, imageWord img 27), (0, cfg.check.zeroRange, 5000, imageWord img 29),
            (0, cfg.check.startRange, 20000, imageWord img 31), (10000, cfg.check.capacity, 250000, imageLong img 37),
            (800, cfg.check.nominalLength, 1400, imageWord img 153),
            (0, cfg.check.overhangAllowance, 200, imageByte img 155),
            (100, cfg.check.maxPassSteps, 600, imageWord img 156), (0, cfg.check.gapAllowance, 3, imageByte img 158),
            (0, cfg.check.voidLimit, 100, imageByte img 159), (100, cfg.check.baseHeight, 250, imageByte img 160),
            (25, cfg.check.heightAllowance, 300, imageWord img 161),
            (0, cfg.check.fixedAllowance, 5000, imageWord img 163), (0, cfg.check.perMille, 50, imageByte img 165),
            (0, cfg.check.caseAllowance, 500, imageWord img 166), (0, cfg.check.trayAllowance, 500, imageWord img 168),
            (0, cfg.check.kegAllowance, 500, imageWord img 170)],
          p.1 ≤ p.2.1 ∧ p.2.1 ≤ p.2.2.1 ∧ p.2.1 = p.2.2.2) ∧
        -294908 ≤ cfg.check.deadLoad ∧ cfg.check.deadLoad ≤ 294896 ∧
        cfg.check.deadLoad = signedOf 4 (imageLong img 33) ∧ cfg.check.conversions.length ≤ 8 ∧
        (cfg.check.conversions.map Conversion.input).Nodup ∧ (∃ c ∈ cfg.check.conversions, c.input ≠ .exc) ∧
        (∀ i < cfg.check.conversions.length, ∃ c ∈ cfg.check.conversions[i]?,
          imageByte img (41 + 14 * i) = (match c.input with
            | .lc1 => 1
            | .lc2 => 2
            | .lc3 => 3
            | .lc4 => 4
            | .exc => 5) ∧ imageByte img (42 + 14 * i) = 1 ∧ c.gain = imageWord img (43 + 14 * i) ∧
          c.offset = signedOf 2 (imageWord img (45 + 14 * i)) ∧ c.low = signedOf 4 (imageLong img (47 + 14 * i)) ∧
          c.high = signedOf 4 (imageLong img (51 + 14 * i))) ∧
        (∀ o ∈ [41 + 14 * cfg.check.conversions.length], cfg.check.conversions.length < 8 →
          1 ≤ imageByte img o ∧ imageByte img o ≤ 5 ∧ imageByte img (o + 1) = 0 ∧ 1 ≤ imageWord img (o + 2) ∧
          -8192 ≤ signedOf 2 (imageWord img (o + 4)) ∧ signedOf 2 (imageWord img (o + 4)) ≤ 8191 ∧
          ∀ l ∈ [o + 6, o + 10], -73727 ≤ signedOf 4 (imageLong img l) ∧ signedOf 4 (imageLong img l) ≤ 73724) ∧
        (∀ c ∈ cfg.check.conversions, 1 ≤ c.gain ∧ c.gain ≤ 65535 ∧ -8192 ≤ c.offset ∧ c.offset ≤ 8191 ∧
          -73727 ≤ c.low ∧ c.low ≤ 73724 ∧ -73727 ≤ c.high ∧ c.high ≤ 73724)) ∧
      (role = .wrap →
        (∀ p ∈ [(100, cfg.wrap.startTimeout, 1000, imageWord img 16), (3000, cfg.wrap.wrapTimeout, 60000, imageWord img 18),
            (1, cfg.wrap.defaultIndex, 8, imageByte img 20)], p.1 ≤ p.2.1 ∧ p.2.1 ≤ p.2.2.1 ∧ p.2.1 = p.2.2.2) ∧
        cfg.wrap.recipes.length = 8 ∧ ∀ i < 8, ∃ r ∈ cfg.wrap.recipes[i]?, 1 ≤ r.code ∧ r.code ≤ 15 ∧
          r.code = imageByte img (21 + 14 * i) ∧ r.hasCase = (imageByte img (22 + 14 * i)).testBit 0 ∧
          r.hasTray = (imageByte img (22 + 14 * i)).testBit 1 ∧ r.hasKeg = (imageByte img (22 + 14 * i)).testBit 2 ∧
          r.heightMin = imageWord img (23 + 14 * i) ∧ r.heightMax = imageWord img (25 + 14 * i) ∧
          r.massMin = imageLong img (27 + 14 * i) ∧ r.massMax = imageLong img (31 + 14 * i)) ∧
      (role = .label →
        (∀ p ∈ [(1, cfg.label.attempts, 3, imageByte img 16), (100, cfg.label.printTimeout, 1000, imageWord img 17),
            (100, cfg.label.applyTimeout, 1000, imageWord img 19), (100, cfg.label.verifyWait, 1000, imageWord img 21),
            (500, cfg.label.printWindow, 12000, imageWord img 23)],
          p.1 ≤ p.2.1 ∧ p.2.1 ≤ p.2.2.1 ∧ p.2.1 = p.2.2.2) ∧
        cfg.label.site.map Fin.val = [imageByte img 25 / 16, imageByte img 25 % 16] ∧
        cfg.label.siteText.length ≤ 24 ∧
        (∀ i < 24, imageByte img (26 + i) = ((cfg.label.siteText[i]?).map BitVec.toNat).getD 0) ∧
        (∀ b ∈ cfg.label.siteText, (0x41 ≤ b.toNat ∧ b.toNat ≤ 0x5A) ∨ (0x30 ≤ b.toNat ∧ b.toNat ≤ 0x39) ∨ b = 0x20 ∨
          b = 0x2D ∨ b = 0x2E) ∧
        cfg.label.gather.map (fun g => (g.row, match g.source with
            | .dispatchCode => 1
            | .serial => 2
            | .order => 3
            | .gross => 4
            | .article n => 4 + n
            | .count n => 10 + n
            | .duty => 17
            | .laneClass => 18
            | .siteText => 19
            | .labelSeq => 20)) =
          ((List.range 12).map (fun i => (imageByte img (50 + 2 * i), imageByte img (51 + 2 * i)))).filter
            (fun p => p.2 != 0) ∧
        ∀ g ∈ cfg.label.gather, 1 ≤ g.row ∧ g.row ≤ 12 ∧ (match g.source with
          | .article n => decide (1 ≤ n ∧ n ≤ 6)
          | .count n => decide (1 ≤ n ∧ n ≤ 6)
          | _ => true) = true) ∧
      (role = .dispatch →
        1000 ≤ cfg.dispatch.laneWait ∧ cfg.dispatch.laneWait ≤ 60000 ∧ cfg.dispatch.laneWait = imageWord img 16 ∧
        cfg.dispatch.duty1 ≠ .unknown ∧ dutyCode cfg.dispatch.duty1 = imageByte img 18 ∧
        cfg.dispatch.letter1 ≠ .any ∧ laneClassCode cfg.dispatch.letter1 = imageByte img 19 ∧
        cfg.dispatch.duty2 ≠ .unknown ∧ dutyCode cfg.dispatch.duty2 = imageByte img 20 ∧
        cfg.dispatch.letter2 ≠ .any ∧ laneClassCode cfg.dispatch.letter2 = imageByte img 21) ∧
      (role ≠ .check → cfg.check = Loaded.none.check) ∧ (role ≠ .wrap → cfg.wrap = Loaded.none.wrap) ∧
      (role ≠ .label → cfg.label = Loaded.none.label) ∧ (role ≠ .dispatch → cfg.dispatch = Loaded.none.dispatch)

/-! ## The line (Chapters 3 and 12) -/

/-- A frame that is not good, does not pass the filter or is malformed changes nothing (R56, R63, R182); any other enters the
receive queue at its tail, or, from a full queue, is discarded and sets RX_OVERRUN (R64). Kind by kind (OFFER has its own
statement): a frame in the layout of 12.1 is taken exactly where Table 3-2 says so, and queued with its sender, cause, track or
payload. Discarded are a frame from this node or node 0, of another class than its kind's, of a kind that no station takes or of
none, of a wrong length, for another target, or heard in a service state that does not take it; a QUERY is also taken in
OUT_OF_SERVICE (R62, R63). Malformed, and discarded, are a track with origin or sequence 0, a cause of HOLD but 1 and 2, a role
or neighbour of HELLO out of range, and an OFFER with a line count, code, verdict, nibble or hops that Table 12-3 does not have;
a MANIFEST never is (R182; reserved bits ignored: MODEL'S CHOICE, log 16). Discarded are a frame cut short and one whose CRC
does not match; bytes heard after the CRC take nothing from a good frame (R56; DEDUCED, log 29). -/
def Obligations.HeardFramesEnterTheReceiveQueue : Prop :=
  ∀ (s : State) (bytes p : List Byte) (n cls code u d : Nat) (c : HoldCause) (k : Track) (role : Role)
    (hear more : List Byte) (byte : Nat → Nat),
    byte = (fun o => (p[o]?.map BitVec.toNat).getD 0) →
    (heardFrame s bytes = none → exec (.frameReceived bytes) s = .next s) ∧
    (∀ r ∈ heardFrame s bytes, ∃ t, exec (.frameReceived bytes) s = .next t ∧ onlyChanges [.line] s t ∧
      t.line.tx = s.line.tx ∧ t.line.txOverrun = s.line.txOverrun ∧
      (s.line.rx.length < 4 → t.line = { s.line with rx := s.line.rx ++ [r] }) ∧
      (4 ≤ s.line.rx.length → t.line.rx = s.line.rx ∧ t.line.rxOverrun = true ∧
        t.line.sending = s.line.sending.map (fun a => { a with rxSince := true }))) ∧
    (n < 32 → cls < 8 → code < 256 → p.length ≤ 112 → hear = wireBytes cls n code p →
      (n = 0 ∨ n = s.cfg.node ∨ (s.service ≠ .inService ∧ (s.service ≠ .outOfService ∨ code ≠ 0x30)) ∨
          (∀ q ∈ [(0x01, 0, [1]), (0x02, 0, [0]), (0x03, 0, [0]), (0x10, 1, [42, 52, 62, 72, 82, 92, 102]),
              (0x11, 1, [3]), (0x12, 1, [3]), (0x13, 1, [3]), (0x20, 2, [3]), (0x21, 2, [14, 24, 34, 44, 54, 64, 74]),
              (0x24, 2, [3]), (0x30, 3, [1])], code = q.1 → cls ≠ q.2.1 ∨ p.length ∉ q.2.2) ∧
            code ∈ [0x01, 0x02, 0x03, 0x10, 0x11, 0x12, 0x13, 0x20, 0x21, 0x24, 0x30] ∨
          code ∉ [0x01, 0x02, 0x03, 0x10, 0x11, 0x12, 0x13, 0x20, 0x21, 0x24, 0x30] ∨
          (code ∈ [0x10, 0x11, 0x12, 0x13, 0x20] ∧ p.head?.map BitVec.toNat ≠ some s.cfg.node) ∨
          (code = 0x30 ∧ p.head?.map BitVec.toNat ≠ some s.cfg.node ∧ p.head? ≠ some 0) ∨
          (code ∈ [0x01, 0x02, 0x24] ∧ 24 < n) ∨ (code ∈ [0x10, 0x12] ∧ n ≠ upstream s) ∨
          (code ∈ [0x11, 0x13, 0x20] ∧ n ≠ downstream s) ∨ (code = 0x21 ∧ hasRole s .check = false) ∨
          (code ∈ [0x10, 0x11, 0x12, 0x13, 0x20] ∧ (byte 1 / 8 = 0 ∨ byte 1 % 8 * 256 + byte 2 = 0)) ∨
          (code = 0x01 ∧ byte 0 ≠ 1 ∧ byte 0 ≠ 2) ∨
          (code = 0x24 ∧ (byte 0 = 0 ∨ 5 < byte 0 ∨ 24 < byte 1 ∨ 24 < byte 2)) ∨
          (code = 0x10 ∧ (p.length ≠ 42 + 10 * byte 16 ∨ 15 < byte 41 ∨ byte 4 / 64 = 3 ∨ byte 4 / 16 % 4 = 3 ∨
            (128 ≤ byte 3 ∧ (List.range 5).any (fun i => 9 < byte (5 + i) / 16 || 9 < byte (5 + i) % 16) = true) ∨
            (64 ≤ byte 3 % 128 ∧ (List.range 4).any (fun i => 9 < byte (10 + i) / 16 || 9 < byte (10 + i) % 16) = true) ∨
            2 < byte 28 ∨ 12 < byte 29 ∨ (byte 28 ≠ 2 ∧ (byte 29 ≠ 0 ∨ byte 30 % 16 * 256 + byte 31 ≠ 0)) ∨
            (byte 28 = 2 ∧ (byte 29 = 0 ∨ (byte 30 % 16 * 256 + byte 31) / 2 ^ (byte 29 - 1) % 2 = 0)) ∨
            64 ≤ byte 32 ∨ (byte 32 / 16 = 1 ∧ byte 32 % 16 = 0) ∨
            (byte 32 / 16 ≠ 1 ∧ byte 32 % 16 ≠ 0) ∨ 64 ≤ byte 33 ∨
            (byte 33 / 16 = 1 ∧ (byte 33 % 16 = 0 ∨ 3 < byte 33 % 16)) ∨ (byte 33 / 16 ≠ 1 ∧ byte 33 % 16 ≠ 0) ∨
            (byte 33 / 16 = 1 ∧ ((List.range 7).any (fun i => 9 < byte (34 + i) / 16) ||
              (List.range 6).any (fun i => 9 < byte (34 + i) % 16)) = true) ∨
            (List.range (byte 16)).any (fun i => byte (45 + 10 * i) = 0 || 3 < byte (45 + 10 * i) ||
              (List.range 3).any (fun j => 9 < byte (42 + 10 * i + j) / 16 || 9 < byte (42 + 10 * i + j) % 16)) = true)) →
        exec (.frameReceived hear) s = .next s) ∧
      exec (.frameReceived (hear ++ more)) s = exec (.frameReceived hear) s ∧
      (∀ i < p.length + 5, exec (.frameReceived (hear.take i)) s = .next s) ∧
      (more.length = 2 → more ≠ hear.drop (p.length + 3) →
        exec (.frameReceived (hear.take (p.length + 3) ++ more)) s = .next s)) ∧
    (s.line.rx.length < 4 → 1 ≤ n → n < 32 → n ≠ s.cfg.node → s.cfg.node ≤ 24 → isTrack k = true → u ≤ 24 → d ≤ 24 →
      (inService s = true →
        ∀ f ∈ [(0, 0x01, [BitVec.ofNat 8 (if c = .safety then 1 else 2)], decide (n ≤ 24), RxFrame.hold n c),
            (0, 0x02, [], decide (n ≤ 24), .resume n), (0, 0x03, [], true, .clear),
            (1, 0x11, BitVec.ofNat 8 s.cfg.node :: trackBytes k, decide (n = downstream s), .accept k),
            (1, 0x12, BitVec.ofNat 8 s.cfg.node :: trackBytes k, decide (n = upstream s), .released k),
            (1, 0x13, BitVec.ofNat 8 s.cfg.node :: trackBytes k, decide (n = downstream s), .taken k),
            (2, 0x20, BitVec.ofNat 8 s.cfg.node :: trackBytes k, decide (n = downstream s), .lost k),
            (2, 0x21, p, hasRole s .check && [14, 24, 34, 44, 54, 64, 74].contains p.length && p.length ≤ 112,
              .manifest p),
            (2, 0x24, [BitVec.ofNat 8 (roleCode role), BitVec.ofNat 8 u, BitVec.ofNat 8 d], decide (n ≤ 24), .hello n)],
          f.2.2.2.1 = true →
          exec (.frameReceived (wireBytes f.1 n f.2.1 f.2.2.1)) s =
            .next (s.setLine { s.line with rx := s.line.rx ++ [f.2.2.2.2] })) ∧
      (maySend s = true → ∀ x ∈ [s.cfg.node, 0], exec (.frameReceived (wireBytes 3 n 0x30 [BitVec.ofNat 8 x])) s =
        .next (s.setLine { s.line with rx := s.line.rx ++ [.query] })))

/-- A record travels whole: the OFFER that the upstream sends to this station, in the bytes of Table 12-3, is heard as exactly
that record, every field of it (R1, R56, R62, R63, R182). -/
def Obligations.OfferedRecordTravelsWhole : Prop :=
  ∀ (s : State) (r : TravelRecord),
    inService s = true →
    isNode s.cfg.node = true →
    isNode (upstream s) = true →
    upstream s ≠ s.cfg.node →
    recordCarried r = true →
    s.line.rx.length < 4 →
    exec (.frameReceived (wireBytes 1 (upstream s) 0x10 (offerPayload s.cfg.node r))) s =
      .next (s.setLine { s.line with rx := s.line.rx ++ [.offer r] })

/-- When the line is idle the station begins an attempt at the head of its queue, with the bytes its frame then has; without a
frame, in an attempt, or in a state that sends nothing, it does not (R58, R59, R61). The bytes are those of Table 12-2, the
short frames, OFFER (Tables 12-3, 12-4), DISPATCHED (Table 12-6) and NOTICE (Table 12-7), digits packed two to a byte and
numbers big-endian (R182); the duty UNKNOWN in NO_LANE as 0 is the MODEL'S CHOICE (log 17). A STATUS tells the station as it
stands at the beginning of the attempt, in the order and codes of Table 3-3 and 12.1, a flag of a block outside the role as
clear and the role part in IN_SERVICE alone (R67, R106); the overrun flags it reports are remembered (R68). -/
def Obligations.IdleLineBeginsAnAttempt : Prop :=
  ∀ (s : State) (e : TxEntry) (rest : List TxEntry) (num : Nat → Nat → List Byte) (int3 : Int → List Byte)
    (digits : Digits → List Byte) (track : Track → List Byte) (reasons : List Reason),
    reasons = [.tagUnread, .noManifest, .manifestInvalid, .scaleFault, .profileFault, .unstable, .overhang, .heightHigh,
      .heightLow, .void, .underweight, .overweight] →
    num = (fun n v => (List.range n).map (fun i => BitVec.ofNat 8 (v / 256 ^ (n - 1 - i)))) →
    int3 = (fun v => num 3 (v % 16777216).toNat) →
    digits = (fun ds => (List.range ((ds.length + 1) / 2)).map (fun i => BitVec.ofNat 8
      (16 * (ds[2 * i]?.map Fin.val).getD 15 + (ds[2 * i + 1]?.map Fin.val).getD 15))) →
    track = (fun k => num 2 (k.origin % 32 * 2048 + k.seq % 2048)) →
    (maySend s = true → s.line.sending = none → s.line.tx = e :: rest →
      ∃ t, exec .lineIdle s = .next t ∧ onlyChanges [.line] s t ∧ t.line.tx = { e with inAttempt := true } :: rest ∧
        t.line.sending.map Sending.bytes =
          some (wireBytes (txClass e.frame) s.cfg.node (kindCode (txKind e.frame)) (payloadOf s e.frame)) ∧
        t.line.sending.map Sending.bytes = some (match e.frame with
          | .hold c => wireBytes 0 s.cfg.node 0x01 [if c = .safety then 1 else 2]
          | .resume => wireBytes 0 s.cfg.node 0x02 []
          | .offer u x => wireBytes 1 s.cfg.node 0x10 (num 1 u ++ track x.track ++
              num 1 ((if x.serial.isSome then 128 else 0) + (if x.order.isSome then 64 else 0) +
                (if x.gross.isSome then 32 else 0) + (if x.height.isSome then 16 else 0) +
                (if x.length.isSome then 8 else 0) + (if x.deviation.isSome then 4 else 0)) ++
              num 1 (64 * (match x.duty with
                  | .unknown => 0
                  | .inBond => 1
                  | .dutyPaid => 2) + 16 * (match x.laneClass with
                  | .any => 0
                  | .a => 1
                  | .b => 2) + (if x.unknownOrigin then 2 else 0) + (if x.manifestPresent then 1 else 0)) ++
              (x.serial.map digits).getD (List.replicate 5 0xFF) ++ (x.order.map digits).getD (List.replicate 4 0xFF) ++
              (x.tare.map (num 2)).getD [0xFF, 0xFF] ++ num 1 x.lines.length ++
              (x.gross.map (num 3)).getD [0xFF, 0xFF, 0xFF] ++ (x.height.map (num 2)).getD [0xFF, 0xFF] ++
              (x.length.map (num 2)).getD [0xFF, 0xFF] ++
              (x.deviation.map (fun d => num 4 (d % 4294967296).toNat)).getD [0xFF, 0xFF, 0xFF, 0xFF] ++
              (match x.check with
                | none => [0, 0, 0, 0]
                | some .pass => [1, 0, 0, 0]
                | some (.fail r fs) => 2 :: num 1 (reasons.findIdx (· = r) + 1) ++
                    num 2 ((reasons.zipIdx.filter (fun y => y.1 ∈ fs)).map (fun y => 2 ^ y.2)).sum) ++
              [match x.wrap with
                | none => 0
                | some (.wrapped c) => BitVec.ofNat 8 (16 + c % 16)
                | some .wrapFailed => 32
                | some .skipped => 48,
               match x.label with
                | none => 0
                | some (.labelled n _) => BitVec.ofNat 8 (16 + n % 16)
                | some .labelFailed => 32
                | some .skipped => 48] ++
              (match x.label with
                | some (.labelled _ code) => digits code
                | _ => List.replicate 7 0xFF) ++ num 1 x.hops ++
              x.lines.flatMap (fun l => digits l.article ++ [match l.unitClass with
                  | .caseUnit => 1
                  | .tray => 2
                  | .keg => 3] ++ num 1 l.count ++ num 2 l.mass ++ num 1 l.layers ++ num 2 l.layerHeight))
          | .accept u k => wireBytes 1 s.cfg.node 0x11 (num 1 u ++ track k)
          | .released u k => wireBytes 1 s.cfg.node 0x12 (num 1 u ++ track k)
          | .taken u k => wireBytes 1 s.cfg.node 0x13 (num 1 u ++ track k)
          | .lost u k => wireBytes 2 s.cfg.node 0x20 (num 1 u ++ track k)
          | .wanted ds => wireBytes 2 s.cfg.node 0x22 (digits ds)
          | .dispatched k serial order exit reason gross => wireBytes 2 s.cfg.node 0x23 (track k ++
              (serial.map digits).getD (List.replicate 5 0xFF) ++ (order.map digits).getD (List.replicate 4 0xFF) ++
              [match exit with
                | .none => 0
                | .lane1 => 1
                | .lane2 => 2
                | .reject => 3,
               match reason with
                | none => 0
                | some .unknownOrigin => 1
                | some .checkFailed => 2
                | some .wrapNotDone => 3
                | some .labelNotDone => 4
                | some .noLane => 5] ++ (gross.map (num 3)).getD [0xFF, 0xFF, 0xFF])
          | .hello => wireBytes 2 s.cfg.node 0x24 [match s.cfg.role with
              | none => 0
              | some .check => 1
              | some .plain => 2
              | some .wrap => 3
              | some .label => 4
              | some .dispatch => 5, BitVec.ofNat 8 (s.cfg.up.getD 0), BitVec.ofNat 8 (s.cfg.down.getD 0)]
          | .status => wireBytes 3 s.cfg.node 0x31 (payloadOf s .status)
          | .notice n => wireBytes 3 s.cfg.node 0x32 (match n with
            | .palletLost k => 1 :: track k
            | .takenMissing k => 2 :: track k
            | .unknownPallet k => 3 :: track k
            | .duplicateTrack k => 4 :: track k
            | .jam k c => 5 :: (k.map track).getD [0, 0] ++ [match c with
              | .positionTimeout => 1
              | .releaseTimeout => 2
              | .downstreamRestart => 3]
            | .jamCleared k => 6 :: (k.map track).getD [0, 0]
            | .manifestRejected c l serial => [7, 0, 0, match c with
              | .serial => 1
              | .order => 2
              | .duty => 3
              | .laneClass => 4
              | .tare => 5
              | .lineCount => 6
              | .article => 7
              | .unitClass => 8
              | .count => 9
              | .unitMass => 10
              | .layers => 11
              | .layerHeight => 12, BitVec.ofNat 8 l] ++ (serial.map digits).getD (List.replicate 5 0xFF)
            | .zeroFault k v => [8, 0, 0, match k with
              | .startRange => 1
              | .zeroRange => 2
              | .noStableEmpty => 3] ++ (v.map int3).getD [0x80, 0, 0]
            | .zeroOverdue z => [9, 0, 0] ++ int3 z
            | .checkFailed k x => 10 :: track k ++ [match x with
              | .tagUnread => 1
              | .noManifest => 2
              | .manifestInvalid => 3
              | .scaleFault => 4
              | .profileFault => 5
              | .unstable => 6
              | .overhang => 7
              | .heightHigh => 8
              | .heightLow => 9
              | .void => 10
              | .underweight => 11
              | .overweight => 12]
            | .wrapFailed k x c1 c2 => 11 :: track k ++ num 1 x ++ [c1, c2].map (fun c => match c with
              | .startTimeout => 1
              | .wrapTimeout => 2
              | .fault => 3)
            | .filmLow => [12, 0, 0]
            | .labelFailed k ds causes => 13 :: track k ++ digits ds ++ causes.flatMap (fun c => match c with
              | .printTimeout => [1, 0]
              | .applyTimeout => [2, 0]
              | .missed => [3, 0]
              | .fault x => 4 :: num 1 x
              | .verifyTimeout => [5, 0]
              | .verifyMismatch => [6, 0])
            | .laneWait k d => 14 :: track k ++ [d.lane1, d.lane2, d.spur].map (BitVec.ofNat 8)
            | .noLane k d l => 15 :: track k ++ [match d with
                | .unknown => 0
                | .inBond => 1
                | .dutyPaid => 2,
              match l with
                | .any => 0
                | .a => 1
                | .b => 2])) ∧
        t.line.sending.map Sending.reported =
          some (if e.frame = .status then some (s.line.txOverrun, s.line.rxOverrun) else none) ∧
        t.line.sending.all (fun a => !a.txSince && !a.rxSince) = true ∧
        (e.frame = .status → t.line.sending.map Sending.bytes = some (wireBytes 3 s.cfg.node 0x31
          ([if s.service = .inService then 3 else 4,
            match s.cfg.role with
              | none => 0
              | some .check => 1
              | some .plain => 2
              | some .wrap => 3
              | some .label => 4
              | some .dispatch => 5,
            match s.cfg.up with
              | none => 0xFF
              | some n => BitVec.ofNat 8 n,
            match s.cfg.down with
              | none => 0xFF
              | some n => BitVec.ofNat 8 n,
            match s.zone.zstate with
              | .empty => 0
              | .inbound => 1
              | .positioning => 2
              | .stopped => 3
              | .releasing => 4
              | .jammed => 5,
            0,
            BitVec.ofNat 8 ((if s.zone.jam then 1 else 0) + (if hasRole s .check ∧ s.weigh.scaleFault then 2 else 0) +
              (if hasRole s .check ∧ s.weigh.postponed = 8 then 4 else 0) +
              (if hasRole s .wrap ∧ s.wrap.fault then 8 else 0) + (if hasRole s .label ∧ s.label.fault then 16 else 0) +
              (if s.line.txOverrun then 32 else 0) + (if s.line.rxOverrun then 64 else 0) +
              (if s.pins.safe then 128 else 0)),
            BitVec.ofNat 8 s.table.length] ++
          s.table.flatMap (fun x => trackBytes x.record.track ++ [match x.state with
            | .expected => 1
            | .present => 2
            | .working => 3
            | .done => 4
            | .releasing => 5
            | .outbound => 6]) ++
          (match s.slot with
            | some r => trackBytes r.track
            | none => [0, 0]) ++
          [BitVec.ofNat 8 s.zone.holds.length] ++
          s.zone.holds.map (fun h => BitVec.ofNat 8 (h.node % 32 + if h.cause = .operator then 128 else 0)) ++
          (if s.service = .outOfService then [] else match s.cfg.role with
            | some .check => intBytes 3 s.weigh.z ++ [BitVec.ofNat 8 s.weigh.postponed] ++ beBytes 3 s.weigh.lastGross
            | some .wrap => beBytes 4 s.wrap.count.toNat
            | some .label => beBytes 4 s.label.printCount.toNat ++ beBytes 3 s.label.seq
            | some .dispatch => beBytes 4 s.route.lane1.toNat ++ beBytes 4 s.route.lane2.toNat ++
                beBytes 4 s.route.rejects.toNat
            | some .plain => []
            | none => [])))) ∧
        t.line.rx = s.line.rx ∧ t.line.txOverrun = s.line.txOverrun ∧ t.line.rxOverrun = s.line.rxOverrun) ∧
    (maySend s = false ∨ s.line.sending.isSome = true ∨ s.line.tx = [] → exec .lineIdle s = .next s)

/-- With no attempt under way the end of one is no event: nothing changes. The end of an attempt: a frame counted sent leaves
the queue, unless an OFFER replaced it after a withdrawal, which has its entry stay (R58, R60); one that lost arbitration
or was errored stays where it stands, unless it was withdrawn meanwhile, which takes it out (R57 to R59). A HELLO counted sent
is followed by the announcement of the own hold (R61). A STATUS counted sent clears each overrun flag it reported set,
unless an overflow of that kind came during the attempt (R68); no other end of an attempt changes a flag. -/
def Obligations.AttemptsEndByTheRule : Prop :=
  ∀ (s : State) (pre post : List TxEntry) (e : TxEntry) (a : Sending),
    (s.line.sending = none →
      exec .attemptCountedSent s = .next s ∧ exec .lostArbitration s = .next s ∧ exec .attemptErrored s = .next s) ∧
    (s.line.sending = some a →
      s.line.tx = pre ++ e :: post →
      e.inAttempt = true →
      pre.all (fun x => !x.inAttempt) = true →
      post.all (fun x => !x.inAttempt) = true →
      (∃ t, exec .attemptCountedSent s = .next t ∧ onlyChanges [.line] s t ∧ t.line.sending = none ∧
        t.line.rx = s.line.rx ∧
        (e.frame ≠ .hello →
          t.line.tx = pre ++ (if e.stays then [{ e with inAttempt := false, stays := false }] else []) ++ post ∧
          t.line.txOverrun = (if a.reported.any (fun r => r.1) then a.txSince else s.line.txOverrun) ∧
          t.line.rxOverrun = (if a.reported.any (fun r => r.2) then a.rxSince else s.line.rxOverrun)) ∧
        (e.frame = .hello → e.stays = false → inService s = true → (pre ++ post).length < 8 →
          t.line.tx = insertTx (freshTx (holdFrame (ownHold s.pins))) (pre ++ post))) ∧
      (∀ c ∈ [Instr.lostArbitration, Instr.attemptErrored], ∃ t, exec c s = .next t ∧ onlyChanges [.line] s t ∧
        t.line = { s.line with
          tx := if e.withdrawn then pre ++ post else pre ++ { e with inAttempt := false, stays := false } :: post
          sending := none }))

/-- What queueing a frame does to a queue. An OFFER whose track a queued OFFER names takes that entry's place, contents and
all, cancels a withdrawal of it and sets no flag (R60); a frame that finds a place takes it as the youngest of its class
(R59). The overflow of R60: a frame queued while the queue holds eight, and that replaces no OFFER, drops the youngest
frame (not in an attempt, not the HELLO) of the greatest class present, if that class is greater than its own, and is
itself dropped otherwise; TX_OVERRUN is set in both cases. In a service state that sends no such frame none is queued (R61). -/
def Obligations.FullQueueDropsTheLeastUrgent : Prop :=
  ∀ (s : State) (f : TxFrame) (pre post : List TxEntry) (x : TxEntry),
    (mayQueue s f = false → queueFrame f s = s) ∧
    (mayQueue s f = true → s.line.tx = pre ++ x :: post → (offerTrack f).isSome = true →
      offerTrack x.frame = offerTrack f → (pre ++ post).all (fun y => offerTrack y.frame != offerTrack f) = true →
      queueFrame f s = s.setLine { s.line with
        tx := pre ++ { x with frame := f, withdrawn := false, stays := x.stays || x.withdrawn } :: post }) ∧
    (mayQueue s f = true → s.line.tx.length < 8 → holdsOffer f s.line.tx = false →
      queueFrame f s = s.setLine { s.line with tx := insertTx (freshTx f) s.line.tx }) ∧
    (mayQueue s f = true →
      s.line.tx.length = 8 →
      holdsOffer f s.line.tx = false →
      s.line.tx = pre ++ x :: post →
      droppable x = true →
      s.line.tx.all (fun y => !droppable y || txClass y.frame ≤ txClass x.frame) = true →
      post.all (fun y => !droppable y || txClass y.frame < txClass x.frame) = true →
      (queueFrame f s).line.txOverrun = true ∧ (queueFrame f s).line.rx = s.line.rx ∧
        (queueFrame f s).line.sending = s.line.sending.map (fun a => { a with txSince := true }) ∧
        onlyChanges [.line] s (queueFrame f s) ∧
        (txClass f < txClass x.frame → (queueFrame f s).line.tx = insertTx (freshTx f) (pre ++ post)) ∧
        (txClass x.frame ≤ txClass f → (queueFrame f s).line.tx = s.line.tx))

/-- A QUERY handed on queues one STATUS, unless one is queued already (R66). -/
def Obligations.QueryIsAnsweredOnce : Prop :=
  ∀ (s : State) (rest : List RxFrame),
    s.line.rx = .query :: rest →
    maySend s = true →
    roomFor 1 s = true →
    ∃ t, exec .queryReceived s = .next t ∧ onlyChanges [.line] s t ∧ t.line.rx = rest ∧
      t.line.txOverrun = s.line.txOverrun ∧
      (queued .status s = true → t.line.tx = s.line.tx) ∧
      (queued .status s = false → t.line.tx = insertTx (freshTx .status) s.line.tx)

/-! ## Holds and CLEAR (Chapter 2) -/

/-- HOLD puts its sender into the hold set with its cause, RESUME takes it out, and neither touches another node's entry
(R47). A HOLD ends offering and the infeed permit and moves no record (R49). A transfer in flight runs on: the drive stays on in
POSITIONING, in RELEASING unless the downstream holds with SAFETY, and in INBOUND away from CHECK unless the upstream does,
whatever any other node holds with; the RESUME of that neighbour gives the drive back; the own halt apart (R27, R50). -/
def Obligations.HoldFramesChangeTheHoldSet : Prop :=
  ∀ (s : State) (n : Nat) (cause : HoldCause) (rest : List RxFrame),
    inService s = true →
    (s.line.rx = .hold n cause :: rest →
      ∃ t, exec .holdReceived s = .next t ∧ onlyChanges [.line, .zone, .route, .weigh] s t ∧ t.line.rx = rest ∧
        holdOf t.zone.holds n = some cause ∧ (∀ m < 32, m ≠ n → holdOf t.zone.holds m = holdOf s.zone.holds m) ∧
        t.zone.offerTimer = none ∧ infeedPermit t = false ∧
        (s.zone.zstate ≠ .inbound → t.zone.zstate = s.zone.zstate) ∧ t.zone.exitSeen = s.zone.exitSeen ∧
        t.zone.zstate = (if hasRole s .check = true ∧ s.zone.zstate = .inbound then .empty else s.zone.zstate) ∧
        drive t = (!s.pins.safe && (match s.zone.zstate with
          | .positioning => true
          | .inbound => !hasRole s .check && (upstream s = 0 ||
              (if n = upstream s then cause != .safety else holdOf s.zone.holds (upstream s) != some .safety))
          | .releasing => downstream s = 0 ||
              (if n = downstream s then cause != .safety else holdOf s.zone.holds (downstream s) != some .safety)
          | .empty => false
          | .stopped => false
          | .jammed => false)) ∧
        t.zone.jam = s.zone.jam ∧ t.zone.positionTimer = s.zone.positionTimer ∧
        t.zone.releaseTimer = s.zone.releaseTimer ∧ (s.line.tx.all (fun e => !e.inAttempt) = true →
          s.zone.offerTimer.isSome = true → t.line.tx.any (fun e => (offerTrack e.frame).isSome) = false)) ∧
    (s.line.rx = .resume n :: rest →
      ∃ t, exec .resumeReceived s = .next t ∧ onlyChanges settleBlocks s t ∧ t.line.rx = rest ∧
        holdOf t.zone.holds n = none ∧ (∀ m < 32, m ≠ n → holdOf t.zone.holds m = holdOf s.zone.holds m) ∧
        (s.zone.zstate = .positioning → t.zone.zstate = .positioning ∧ drive t = !s.pins.safe) ∧
        (s.zone.zstate = .inbound → hasRole s .check = false → t.zone.zstate = .inbound ∧ drive t = (!s.pins.safe &&
          (upstream s = 0 || n = upstream s || holdOf s.zone.holds (upstream s) != some .safety))) ∧
        (s.zone.zstate = .releasing → t.zone.zstate = .releasing ∧ drive t = (!s.pins.safe &&
          (downstream s = 0 || n = downstream s || holdOf s.zone.holds (downstream s) != some .safety))))

/-- CLEAR empties the table, the slot and the hold set, derives the zone and at most one unknown-origin record from the eyes,
puts the own hold back and announces it, and makes every block of the role drop its work while its counts, zero, history and
faults stay: the store, port, weighing, profiling and evaluation of CHECK (R82, R104, R118, R124), the attempt of WRAP with an
abort pulse (R148; the recipe code 0 out of a handshake is MODEL'S CHOICE, log 4), the label, its timers, causes and verify
window of LABEL with an abort (R165), the exit class, route code and lane wait of DISPATCH (R175), whose derived record at
position is then routed to the spur (R168) (R23, R53). That a kept read goes with them is the MODEL'S CHOICE (log 32). -/
def Obligations.ClearDerivesAFreshStation : Prop :=
  ∀ (s : State) (rest : List RxFrame),
    StationSound s →
    s.line.rx = .clear :: rest →
    inService s = true →
    ∃ t, exec .clearReceived s = .next t ∧ t.line.rx = rest ∧ t.slot = none ∧ t.zone.jam = false ∧
      onlyChanges [.line, .table, .slot, .trackSeq, .zone, .store, .reader, .weigh, .prof, .eval, .wrap, .label, .route]
        s t ∧
      t.zone.holds = (match ownHold s.pins with
        | some c => [{ node := s.cfg.node, cause := c }]
        | none => []) ∧
      (∀ c ∈ ownHold s.pins, helloWaiting s = false → roomFor 2 s = true → queued (.hold c) t = true) ∧
      (s.pins.eyePos = false → t.line.tx.all (fun e => e.withdrawn || (offerTrack e.frame).isNone) = true) ∧
      (eyesClear s.pins = true → t.table = [] ∧ t.trackSeq = s.trackSeq ∧
        t.zone = { zstate := if infeedPermit t then .inbound else .empty, exitSeen := false, jam := false,
                   holds := t.zone.holds, offerTimer := none, positionTimer := none, releaseTimer := none }) ∧
      (s.pins.eyePos = true → ∃ e ∈ t.table, t.table = [e] ∧ e.record = freshRecord (newTrack (s.setTable [])) true ∧
        (hasRole s .dispatch = false → e.state = .done ∧ t.zone.zstate = .stopped)) ∧
      (s.pins.eyePos = false → eyesClear s.pins = false → t.zone.zstate = .positioning ∧
        t.zone.positionTimer = some s.cfg.timing.position ∧ ∃ e ∈ t.table, t.table = [e] ∧ e.state = .present ∧
          e.record = freshRecord (newTrack (s.setTable [])) true) ∧
      (hasRole s .check = true → t.store = { manifests := [], request := none } ∧ t.eval = none ∧
        t.reader = { buffer := [], overlong := false, window := .closed, kept := none, tagWait := none } ∧
        t.weigh = { s.weigh with weighing := false, settle := none, held := none, restarts := 0, window := [] } ∧
        t.prof = { counter := 0, phase := .none, front := none, rear := none, compare := none, ever := false,
                   top := none, gaps := 0 } ∧
        (∀ r ∈ s.store.request, t.line.tx.all (fun e => e.inAttempt || e.frame != .wanted r.serial) = true)) ∧
      (hasRole s .wrap = true → t.wrap = { s.wrap with
        hs := .idle, attempt := 0, recipe := 0, firstCause := none, startTimer := none, wrapTimer := none
        abort := some 20 }) ∧
      (hasRole s .label = true → t.label = { s.label with
          lstate := .idle, attempt := 0, label := none, causes := [], printTimer := none, applyTimer := none
          verifyTimer := none, abortWait := some 1000, rxBuffer := [], rxOverlong := false
          tx := s.label.tx ++ [[0x41, 0x42, 0x0D]] } ∧
        t.reader = { s.reader with buffer := [], overlong := false, window := .closed, kept := none }) ∧
      (hasRole s .dispatch = true → t.route.lane1 = s.route.lane1 ∧ t.route.lane2 = s.route.lane2 ∧
        t.route.rejects = s.route.rejects ∧ t.route.lastLane = s.route.lastLane ∧
        (s.pins.eyePos = false ∨ (ownHold s.pins).isSome = true → t.route = { s.route with
          exitClass := none, code := .none, laneWait := none, waitExpired := false }) ∧
        (s.pins.eyePos = true → ownHold s.pins = none → t.route = { s.route with
            exitClass := some (.reject .unknownOrigin)
            code := if s.pins.spurFull then .none else .reject
            laneWait := if s.pins.spurFull then some s.cfg.dispatch.laneWait else none
            waitExpired := false } ∧
          t.zone.zstate = (if s.pins.spurFull then .stopped else .releasing)))

/-- While SAFE# or HOLD_SW changes in IN_SERVICE the own entry of the hold set is what the new inputs give, and no other entry
changes. Of HOLD and RESUME frames a change of the entry queues exactly one, the youngest, that says the new entry; a change
that leaves the entry queues none, and neither does one made while the HELLO waits, whose single announcement stands for it
(R48, R61). SAFE# turns the drive off, and its release gives it back to a movement under way, as R27 allows (R27, R28). At CHECK
a hold ends INBOUND and its permit, and the end of the last one begins it where the accepting conditions hold (R31, R32). -/
def Obligations.OwnHoldFollowsItsInputs : Prop :=
  ∀ (s : State) (c : Instr) (p : Pins) (announcing : State → List TxEntry),
    (c = .safeAsserted ∧ p = { s.pins with safe := true }) ∨ (c = .safeReleased ∧ p = { s.pins with safe := false }) ∨
      (∃ on ∈ [true, false], c = .holdSwChange on ∧ p = { s.pins with holdSw := on }) →
    inService s = true →
    LineSound s →
    OwnHoldSound s →
    announcing = (fun u => u.line.tx.filter (fun e =>
      e.frame = .resume || e.frame = .hold .safety || e.frame = .hold .operator)) →
    ∃ t, exec c s = .next t ∧ t.pins = p ∧ onlyChanges (.pins :: .wrap :: .label :: settleBlocks) s t ∧
      holdOf t.zone.holds s.cfg.node = ownHold p ∧
      (∀ m < 32, m ≠ s.cfg.node → holdOf t.zone.holds m = holdOf s.zone.holds m) ∧
      (p.safe = true → drive t = false) ∧ t.line.rx = s.line.rx ∧
      (s.zone.zstate = .positioning → t.zone.zstate = .positioning ∧ drive t = !p.safe) ∧
      (s.zone.zstate = .releasing → t.zone.zstate = .releasing ∧ drive t = (!p.safe &&
        (downstream s = 0 || holdOf t.zone.holds (downstream s) != some .safety))) ∧
      (s.zone.zstate = .inbound → hasRole s .check = false → t.zone.zstate = .inbound ∧ drive t = (!p.safe &&
        (upstream s = 0 || holdOf t.zone.holds (upstream s) != some .safety))) ∧
      (s.zone.zstate = .inbound → hasRole s .check = true → drive t = (infeedPermit t && !p.safe) ∧
        t.zone.zstate = if t.zone.holds = [] ∧ s.weigh.scaleFault = false ∧ s.weigh.postponed ≠ 8 then .inbound
          else .empty) ∧
      (s.zone.zstate = .empty → hasRole s .check = true → drive t = (infeedPermit t && !p.safe) ∧
        t.zone.zstate = if accepting (s.setZone { s.zone with holds := t.zone.holds }) = true then .inbound else .empty) ∧
      (ownHold p ≠ ownHold s.pins → helloWaiting s = false → roomFor 3 s = true →
        announcing t = announcing s ++ [freshTx (holdFrame (ownHold p))]) ∧
      (ownHold p = ownHold s.pins ∨ helloWaiting s = true → announcing t = announcing s)

/-- No pallet begins to leave a zone under a hold: a zone found RELEASING after an event, with a hold in force, was RELEASING
before it, or was JAMMED in a release that the acknowledge resumed (R49, R45). -/
def Obligations.NoReleaseBeginsUnderAHold : Prop :=
  ∀ (s t : State) (c : Instr),
    exec c s = .next t →
    t.zone.zstate = .releasing →
    t.zone.holds ≠ [] →
    s.zone.zstate = .releasing ∨ (s.zone.zstate = .jammed ∧ c = .ackPress)

/-! ## Handoff (Chapters 1 and 2) -/

/-- An OFFER of a track that is not in the table. If the station can accept, the record stands EXPECTED at the table's tail with
one hop more (at most 15) and its arrival timer at release plus transit timeout, the slot is empty, the zone is INBOUND and
ACCEPT to the upstream is queued (R5, R10, R34); if it cannot, the OFFER goes to the slot in place of any OFFER there, and
nothing else changes (R10, R14). The OFFER in the slot is taken up exactly so in the event that completes the accepting
conditions, be it an eye that clears, the last hold's RESUME or the TAKEN of an entry of a full table; if its track has
come into the table meanwhile, it is refused with NOTICE DUPLICATE_TRACK and the slot is empty (R15, R16). -/
def Obligations.NewOfferIsAcceptedOrKept : Prop :=
  ∀ (s : State) (r : TravelRecord) (rest : List RxFrame) (c : Instr) (m : State) (n : Nat) (k : Track),
    Settled s →
    inService s = true →
    hasRole s .check = false →
    roomFor 1 s = true →
    (s.line.rx = .offer r :: rest → entryOf s r.track = none →
      (accepting s = true → ∃ t, exec .offerReceived s = .next t ∧ onlyChanges [.line, .table, .slot, .zone] s t ∧
        t.table = s.table ++ [{ record := { r with hops := if r.hops < 15 then r.hops + 1 else 15 }, state := .expected,
                                takenHeard := false, timer := some (s.cfg.timing.release + s.cfg.timing.transit) }] ∧
        t.slot = none ∧ t.zone = { s.zone with zstate := .inbound } ∧
        t.line = { s.line with rx := rest, tx := insertTx (freshTx (.accept (upstream s) r.track)) s.line.tx }) ∧
      (accepting s = false →
        exec .offerReceived s = .next ((s.setLine { s.line with rx := rest }).setSlot (some r)))) ∧
    (s.slot = some r →
      (c = .entryEyeClears ∧ m = s.setPins { s.pins with eyeEntry := false }) ∨
        (c = .positionEyeClears ∧ m = s.setPins { s.pins with eyePos := false }) ∨
        (c = .exitEyeClears ∧ s.zone.zstate = .empty ∧ m = s.setPins { s.pins with eyeExit := false }) ∨
        (c = .resumeReceived ∧ s.line.rx = .resume n :: rest ∧ m = (s.setLine { s.line with rx := rest }).setZone
          { s.zone with holds := s.zone.holds.filter (fun h => h.node != n) }) ∨
        (c = .takenReceived ∧ s.line.rx = .taken k :: rest ∧ hasRole s .dispatch = false ∧
          (∀ e ∈ s.table, e.state = .outbound) ∧
          m = (s.setLine { s.line with rx := rest }).setTable (s.table.filter (fun e => e.record.track != k))) →
      accepting m = true →
      (entryOf m r.track = none → exec c s = .next ((((m.setTable (m.table ++
          [{ record := { r with hops := if r.hops < 15 then r.hops + 1 else 15 }, state := .expected, takenHeard := false
             timer := some (s.cfg.timing.release + s.cfg.timing.transit) }])).setSlot none).setZone
          { m.zone with zstate := .inbound }).setLine { m.line with
            tx := insertTx (freshTx (.accept (upstream s) r.track)) s.line.tx })) ∧
      ((entryOf m r.track).isSome = true → exec c s = .next ((m.setSlot none).setLine { m.line with
        tx := insertTx (freshTx (.notice (.duplicateTrack r.track))) s.line.tx })))

/-- An OFFER whose track is in the table: for an EXPECTED entry ACCEPT is queued again if the hold set is empty, and nothing
is if it is not; for an entry in any other state NOTICE DUPLICATE_TRACK is queued. The table, the slot and the arrival
timer stay as they were (R16). -/
def Obligations.RepeatedOfferIsAnsweredByItsEntry : Prop :=
  ∀ (s : State) (r : TravelRecord) (rest : List RxFrame) (e : Entry),
    Settled s →
    inService s = true →
    s.line.rx = .offer r :: rest →
    entryOf s r.track = some e →
    roomFor 1 s = true →
    ∃ t, exec .offerReceived s = .next t ∧ onlyChanges [.line] s t ∧
      t.line = { s.line with
        rx := rest
        tx := if e.state = .expected then
                (if s.zone.holds = [] then insertTx (freshTx (.accept (upstream s) r.track)) s.line.tx else s.line.tx)
              else insertTx (freshTx (.notice (.duplicateTrack r.track))) s.line.tx }

/-- ACCEPT of the DONE head record, with the zone STOPPED and no hold, starts the release: the record and the zone are
RELEASING, the exit-seen mark is the exit eye's level, the release timer runs, offering ends; any other ACCEPT is
disregarded (R35). -/
def Obligations.AcceptStartsTheRelease : Prop :=
  ∀ (s : State) (k : Track) (rest : List RxFrame),
    StationSound s →
    Settled s →
    inService s = true →
    s.line.rx = .accept k :: rest →
    ((∃ e ∈ s.table, e.state = .done ∧ e.record.track = k) ∧ s.zone.zstate = .stopped ∧ s.zone.holds = [] ∧
        hasRole s .dispatch = false →
      ∃ t, exec .acceptReceived s = .next t ∧ onlyChanges [.line, .table, .zone] s t ∧
        t.table = s.table.map (fun e => if e.state = .done then { e with state := .releasing } else e) ∧
        t.zone = { s.zone with zstate := .releasing, exitSeen := s.pins.eyeExit, offerTimer := none,
                               releaseTimer := some s.cfg.timing.release } ∧
        t.line.rx = rest ∧
        t.line.tx.all (fun e => e.withdrawn || (offerTrack e.frame).isNone) = true ∧
        drive t = (!s.pins.safe)) ∧
    ((∀ e ∈ s.table, e.state ≠ .done ∨ e.record.track ≠ k) ∨ s.zone.zstate ≠ .stopped ∨ s.zone.holds ≠ [] →
      exec .acceptReceived s = .next (s.setLine { s.line with rx := rest }))

/-- RELEASED restarts the arrival timer of the EXPECTED entry it names at the transit timeout, and is ignored for a track the
station holds in any other state or does not hold (R37). -/
def Obligations.ReleasedRestartsTheArrivalTimer : Prop :=
  ∀ (s : State) (k : Track) (rest : List RxFrame),
    Settled s →
    inService s = true →
    s.line.rx = .released k :: rest →
    ∃ t, exec .releasedReceived s = .next t ∧ onlyChanges [.line, .table] s t ∧ t.line = { s.line with rx := rest } ∧
      t.table = s.table.map (fun e => if e.state = .expected ∧ e.record.track = k then
        { e with timer := some s.cfg.timing.transit } else e)

/-- TAKEN and LOST of an OUTBOUND entry remove it without a frame; TAKEN marks a RELEASING entry; for any other entry or track
they change nothing (R17). An entry that leaves a full table may let the slot's OFFER in (R15) or turn CHECK's permit on (R32),
and nothing else happens. -/
def Obligations.TakenAndLostEndAnOutboundEntry : Prop :=
  ∀ (s : State) (k : Track) (rest : List RxFrame) (kept : List Entry),
    StationSound s →
    Settled s →
    inService s = true →
    hasRole s .dispatch = false →
    (s.line.rx = .taken k :: rest →
      kept = (s.table.filter (fun e => !(e.state = .outbound && e.record.track = k))).map (fun e =>
        if e.state = .releasing ∧ e.record.track = k then { e with takenHeard := true } else e) →
      ∃ t, exec .takenReceived s = .next t ∧ onlyChanges [.line, .table, .slot, .zone] s t ∧
        kept.isPrefixOf t.table = true ∧ t.table.length ≤ s.table.length + 1 ∧
        (s.slot = none → t.table = kept ∧ t.slot = none ∧ t.line = { s.line with rx := rest } ∧
          t.zone = if infeedPermit t then { s.zone with zstate := .inbound } else s.zone)) ∧
    (s.line.rx = .lost k :: rest →
      kept = s.table.filter (fun e => !(e.state = .outbound && e.record.track = k)) →
      ∃ t, exec .lostReceived s = .next t ∧ onlyChanges [.line, .table, .slot, .zone] s t ∧
        kept.isPrefixOf t.table = true ∧ t.table.length ≤ s.table.length + 1 ∧
        (s.slot = none → t.table = kept ∧ t.slot = none ∧ t.line = { s.line with rx := rest } ∧
          t.zone = if infeedPermit t then { s.zone with zstate := .inbound } else s.zone))

/-- HELLO takes its sender out of the hold set. The upstream's removes the EXPECTED entry and the slot's OFFER and ends
INBOUND; the downstream's removes every OUTBOUND entry and brings a RELEASING record back to DONE: in STOPPED at the position
eye, offered at once if no hold is in force, and in JAMMED with its notice otherwise; a DONE record in STOPPED is then offered
at once too (R51; that its repeat timer starts afresh is the MODEL'S CHOICE, log 14); one node that is both does both;
another station's does neither. At CHECK and DISPATCH the missing neighbour's part falls away, and with the last hold
gone the permit or a waiting delivery may begin (R21, R22, R32, R47, R51, R52, R169). -/
def Obligations.HelloRestartsTheTransfer : Prop :=
  ∀ (s : State) (n : Nat) (rest : List RxFrame) (kept : List Entry),
    StationSound s →
    inService s = true →
    (hasRole s .check = true → upstream s = 0) →
    (hasRole s .dispatch = true → downstream s = 0) →
    n ≠ 0 →
    s.line.rx = .hello n :: rest →
    kept = ((s.table.filter (fun e => !(n = upstream s && e.state = .expected) &&
      !(n = downstream s && e.state = .outbound))).map (fun e => if n = downstream s ∧ e.state = .releasing then
        { e with state := .done, takenHeard := false } else e)) →
    ∃ t, exec .helloReceived s = .next t ∧ onlyChanges [.line, .table, .slot, .zone, .route] s t ∧ t.line.rx = rest ∧
      holdOf t.zone.holds n = none ∧ (∀ m < 32, m ≠ n → holdOf t.zone.holds m = holdOf s.zone.holds m) ∧
      (n = upstream s → t.slot = none) ∧
      (hasRole s .dispatch = false ∨ s.zone.zstate ≠ .stopped ∨ s.zone.holds.any (fun h => h.node != n) = true →
        kept.isPrefixOf t.table = true ∧ (n = upstream s ∨ s.slot = none → t.table = kept) ∧
        (n = upstream s → n ≠ downstream s →
          t.zone.zstate = if s.zone.zstate = .inbound then .empty else s.zone.zstate) ∧
        (n ≠ upstream s → (n = downstream s → s.zone.zstate ≠ .releasing) → s.slot = none → PermitSound s →
          t.zone.zstate = if infeedPermit t then .inbound else s.zone.zstate)) ∧
      (n = downstream s → s.zone.zstate = .releasing → t.zone.releaseTimer = none ∧ t.zone.exitSeen = false ∧
        t.zone.zstate = (if s.pins.eyePos then .stopped else .jammed) ∧
        t.zone.jam = (s.zone.jam || !s.pins.eyePos) ∧
        (∀ e ∈ zoneEntry s, roomFor 2 s = true →
          (s.pins.eyePos = false → queued (.notice (.jam (some e.record.track) .downstreamRestart)) t = true) ∧
          (s.pins.eyePos = true → s.zone.holds.all (fun h => h.node = n) = true →
            queued (.offer (downstream s) e.record) t = true ∧
            t.zone.offerTimer = some s.cfg.timing.offerRepeat))) ∧
      (hasRole s .dispatch = false → n = downstream s → s.zone.zstate = .stopped →
        s.zone.holds.all (fun h => h.node = n) = true → ∀ e ∈ zoneEntryIn s .done,
          t.zone.offerTimer = some s.cfg.timing.offerRepeat ∧
          (roomFor 2 s = true → queued (.offer (downstream s) e.record) t = true)) ∧
      (hasRole s .dispatch = true → s.zone.zstate = .stopped → s.zone.holds.all (fun h => h.node = n) = true →
        ∀ e ∈ zoneEntryIn s .done, ∃ x ∈ t.route.exitClass,
          x = s.route.exitClass.getD (exitClassOf s.cfg.dispatch e.record) ∧
          (t.zone.zstate = .releasing ↔ (chooseExit s.pins s.route.lastLane x).isSome = true))

/-- An arrival at CHECK makes a new record at the tail, PRESENT, with the first track from the counter on that is free, and
every field as R3 gives it from the infeed, evicting the oldest OUTBOUND entry of a full table with NOTICE TAKEN_MISSING; the
zone is POSITIONING with its timer, the permit off, a tag window, a profiling and an evaluation open, and
the settle window gathered on an empty platform emptied (R3, R6, R9, R11, R38, R73, R89, R91, R109, R120). -/
def Obligations.ArrivalAtCheckMakesARecord : Prop :=
  ∀ (s : State),
    StationSound s →
    works s .check = true →
    s.zone.zstate = .empty ∨ s.zone.zstate = .inbound →
    ∃ t, exec .entryEyeBlocks s = .next t ∧
      onlyChanges [.pins, .line, .table, .trackSeq, .zone, .reader, .weigh, .prof, .eval] s t ∧
      t.pins = { s.pins with eyeEntry := true } ∧ ∃ e ∈ t.table,
      t.table = (if s.table.length < 6 then s.table else s.table.drop 1) ++ [e] ∧ e.state = .present ∧
      e.record = freshRecord e.record.track false ∧ e.record.track.origin = s.cfg.node ∧
      firstFree s (if s.table.length < 6 then s.table else s.table.drop 1) e.record.track ∧
      t.table.all (fun x => x = e || x.record.track != e.record.track) = true ∧
      (Settled s → inService s = true → roomFor 1 s = true → t.line = (match s.table[5]?, s.table.head? with
        | some _, some o =>
          { s.line with tx := insertTx (freshTx (.notice (.takenMissing o.record.track))) s.line.tx }
        | _, _ => s.line)) ∧
      t.trackSeq = nextSeq e.record.track.seq ∧ t.zone.zstate = .positioning ∧ infeedPermit t = false ∧
      t.zone.positionTimer = some s.cfg.timing.position ∧ t.reader.window = .tag ∧ t.reader.kept = none ∧
      t.weigh = (if eyesClear s.pins = true then { s.weigh with window := [] } else s.weigh) ∧
      t.prof.phase = .unarmed ∧ t.prof.front = none ∧ t.prof.gaps = 0 ∧ t.prof.counter = s.prof.counter ∧
      t.eval = some { track := e.record.track, tag := none, manifest := none, profile := none, mass := none }

/-- An arrival elsewhere binds the EXPECTED entry, which becomes PRESENT with its fields as they are and its timer cancelled,
and TAKEN is queued; without one it makes a record of unknown origin and NOTICE UNKNOWN_PALLET, behind the NOTICE TAKEN_MISSING
of the oldest entry of a full table, which is evicted; its track is the first free one from the counter on (R6, R9, R12, R38).
-/
def Obligations.ArrivalBindsTheExpectedRecord : Prop :=
  ∀ (s : State),
    StationSound s →
    Settled s →
    active s = true →
    hasRole s .check = false →
    s.zone.zstate = .empty ∨ s.zone.zstate = .inbound →
    ∃ t, exec .entryEyeBlocks s = .next t ∧ onlyChanges [.pins, .line, .table, .trackSeq, .zone] s t ∧
      t.pins = { s.pins with eyeEntry := true } ∧ t.zone.zstate = .positioning ∧
      t.zone.positionTimer = some s.cfg.timing.position ∧
      (s.zone.zstate = .inbound → t.trackSeq = s.trackSeq ∧
        t.table = s.table.map (fun e => if e.state = .expected then { e with state := .present, timer := none } else e) ∧
        (inService s = true → roomFor 1 s = true →
          ∃ e ∈ s.table, e.state = .expected ∧ queued (.taken (upstream s) e.record.track) t = true)) ∧
      (s.zone.zstate = .empty → ∃ e ∈ t.table, t.table = (if s.table.length < 6 then s.table else s.table.drop 1) ++ [e] ∧
        e.state = .present ∧ e.record = freshRecord e.record.track true ∧ e.record.wrap = some .skipped ∧
        firstFree s (if s.table.length < 6 then s.table else s.table.drop 1) e.record.track ∧
        t.trackSeq = nextSeq e.record.track.seq ∧
        e.record.label = some .skipped ∧ (inService s = true → roomFor 2 s = true → t.line = { s.line with
          tx := insertTx (freshTx (.notice (.unknownPallet e.record.track))) (match s.table[5]?, s.table.head? with
            | some _, some o => insertTx (freshTx (.notice (.takenMissing o.record.track))) s.line.tx
            | _, _ => s.line.tx) }))

/-- The other eye edges: the level follows (a command that names an edge is that edge: MODEL'S CHOICE, log 8). Where Table 2-2
gives an edge no effect nothing but the level changes, in RESET, LOADING and OUT_OF_SERVICE for every edge (R26, R54); an
exit-eye block in RELEASING sets the exit-seen mark, and a clear there without the mark completes nothing. In EMPTY and INBOUND
the position eye's and the exit eye's edges and the entry eye's clear leave the zone, unless a clear completes the accepting
conditions: an OFFER in the slot is then taken up (NewOfferIsAcceptedOrKept), at CHECK the permit turns on (R26, R31, R32);
and at CHECK an edge that makes the platform empty, or ends that, empties the settle window (R89, R91). That the permit stays
on when the position or the exit eye blocks in INBOUND is the MODEL'S CHOICE (log 15). -/
def Obligations.EyeEdgesWithoutAnEffect : Prop :=
  ∀ (s : State) (c : Instr) (p : Pins),
    Settled s →
    (s.zone.zstate ≠ .empty → s.zone.zstate ≠ .inbound →
      exec .entryEyeBlocks s = .next (s.setPins { s.pins with eyeEntry := true }) ∧
      exec .entryEyeClears s = .next (s.setPins { s.pins with eyeEntry := false }) ∧
      exec .positionEyeClears s = .next (s.setPins { s.pins with eyePos := false }) ∧
      (s.zone.zstate ≠ .positioning →
        exec .positionEyeBlocks s = .next (s.setPins { s.pins with eyePos := true })) ∧
      (s.zone.zstate ≠ .releasing → exec .exitEyeBlocks s = .next (s.setPins { s.pins with eyeExit := true }) ∧
        exec .exitEyeClears s = .next (s.setPins { s.pins with eyeExit := false })) ∧
      (s.zone.zstate = .releasing → active s = true → exec .exitEyeBlocks s =
        .next ((s.setPins { s.pins with eyeExit := true }).setZone { s.zone with exitSeen := true })) ∧
      (s.zone.zstate = .releasing → s.zone.exitSeen = false →
        exec .exitEyeClears s = .next (s.setPins { s.pins with eyeExit := false }))) ∧
    ((c = .entryEyeBlocks ∧ p = { s.pins with eyeEntry := true }) ∨
        (c = .entryEyeClears ∧ p = { s.pins with eyeEntry := false }) ∨
        (c = .positionEyeBlocks ∧ p = { s.pins with eyePos := true }) ∨
        (c = .positionEyeClears ∧ p = { s.pins with eyePos := false }) ∨
        (c = .exitEyeBlocks ∧ p = { s.pins with eyeExit := true }) ∨
        (c = .exitEyeClears ∧ p = { s.pins with eyeExit := false }) →
      (active s = false → exec c s = .next (s.setPins p)) ∧
      (active s = true → s.zone.zstate = .empty ∨ s.zone.zstate = .inbound → c ≠ .entryEyeBlocks →
        (hasRole s .check = false → s.slot = none ∨ accepting (s.setPins p) = false → exec c s = .next (s.setPins p)) ∧
        (hasRole s .check = true → StationSound s → exec c s = .next (((s.setPins p).setZone
          (if accepting (s.setPins p) = true then { s.zone with zstate := .inbound } else s.zone)).setWeigh
          (if eyesClear p = eyesClear s.pins then s.weigh else { s.weigh with window := [] })))))

/-- The position eye completes positioning: the position timer stops, the zone is STOPPED, a PRESENT record is WORKING or, at
PLAIN and DISPATCH and for a record of unknown origin, DONE; a DONE record stays DONE (R13, R39). At CHECK what the tag and
the manifest resolved to is written into the WORKING record (R76, R81), an unresolved tag starts its wait (R74), an unresolved
profile resolves, by fault before the front edge and with the steps so far, at least 5 mm, within the curtain (R115),
and the weighing begins, or the mass is SCALE_FAULT at once (R98). At DISPATCH, in service with no hold, the exit class is fixed
with NOTICE NO_LANE for a class no lane matches, and delivery begins to an open exit, or the lane wait (R168 to R172). -/
def Obligations.PositionEyeBeginsTheWork : Prop :=
  ∀ (s : State) (e : Entry) (x : ExitClass),
    StationSound s →
    Settled s →
    active s = true →
    s.zone.zstate = .positioning →
    zoneEntry s = some e →
    x = s.route.exitClass.getD (exitClassOf s.cfg.dispatch e.record) →
    ∃ t, exec .positionEyeBlocks s = .next t ∧ t.pins = { s.pins with eyePos := true } ∧
      onlyChanges [.pins, .line, .table, .zone, .store, .reader, .weigh, .prof, .eval, .wrap, .label, .route, .free] s t ∧
      t.zone.positionTimer = none ∧ t.trackSeq = s.trackSeq ∧
      (hasRole s .dispatch = false → t.zone.zstate = .stopped) ∧
      (∀ y ∈ t.table, inZone y = true → y.record.track = e.record.track ∧
        (e.state = .done ∨ e.record.unknownOrigin = true → hasRole s .dispatch = false →
          y.state = .done ∧ y.record = e.record) ∧
        (e.state = .present → hasRole s .plain = true → y.state = .done ∧ y.record = e.record) ∧
        (e.state = .present → e.record.unknownOrigin = false → hasRole s .check = true → s.eval.isSome = true →
          s.eval.all (fun ev => ev.mass.isNone && ev.track = e.record.track) = true →
          s.weigh.scaleFault = false → s.weigh.established = true →
            y.state = .working ∧ t.weigh.weighing = true ∧ t.weigh.settle = some s.cfg.check.settleTimeout ∧
            t.weigh.window = [])) ∧
      (zoneEntry t).isSome = true ∧
      (e.state = .present → e.record.unknownOrigin = false → hasRole s .check = true →
        ∀ ev ∈ s.eval, ev.track = e.record.track →
          EvalKept s t ∧ t.prof.counter = s.prof.counter ∧ t.weigh.held = none ∧ t.weigh.restarts = 0 ∧
          t.weigh.window = [] ∧ t.weigh.lastGross = s.weigh.lastGross ∧
          t.reader = (if ev.tag = none then { s.reader with tagWait := some s.cfg.check.tagWait } else s.reader) ∧
          (∀ y ∈ t.table, inZone y = true → (∀ ds ∈ readSerial ev.tag, y.record.serial = some ds) ∧
            (∀ m ∈ foundManifest ev.manifest, holdsManifest m y.record)) ∧
          (s.weigh.scaleFault = true ∨ s.weigh.established = false → t.weigh.weighing = false ∧
            t.weigh.settle = none ∧ t.eval.all (fun w => w.mass = some .scaleFault) = true) ∧
          (s.prof.phase = .unarmed ∨ s.prof.phase = .armed → t.prof.phase = .faulted ∧
            t.eval.all (fun w => w.profile = some .profileFault) = true) ∧
          (∀ f ∈ s.prof.front, s.prof.phase = .inCurtain → t.prof.phase = .complete ∧
            t.eval.all (fun w => w.profile = some (.complete {
              top := s.prof.top.getD 0, height := 125 + 50 * s.prof.top.getD 0
              length := max 5 ((s.prof.counter - f).toNat * 5), gaps := s.prof.gaps, overrun := false })) = true) ∧
          (s.prof.phase = .complete ∨ s.prof.phase = .faulted ∨ s.prof.phase = .none →
            t.prof.phase = s.prof.phase ∧ t.eval.all (fun w => w.profile = ev.profile) = true)) ∧
      (hasRole s .dispatch = true →
        if inService s = true ∧ s.zone.holds = [] then
          t.route.exitClass = some x ∧
          (if s.route.exitClass = none ∧ x = .reject .noLane then
             roomFor 1 s = true → t.line = { s.line with tx := insertTx (freshTx (.notice
               (.noLane e.record.track e.record.duty e.record.laneClass))) s.line.tx }
           else t.line = s.line) ∧
          (∀ exit ∈ chooseExit s.pins s.route.lastLane x,
            t.route = { s.route with exitClass := some x, code := exit, laneWait := none, waitExpired := false } ∧
            t.zone = { s.zone with zstate := .releasing, exitSeen := s.pins.eyeExit, positionTimer := none,
                                   releaseTimer := some s.cfg.timing.release } ∧
            drive t = (!s.pins.safe) ∧
            t.table = s.table.map (fun y => if inZone y then { y with state := .releasing } else y)) ∧
          (chooseExit s.pins s.route.lastLane x = none →
            t.zone = { s.zone with zstate := .stopped, positionTimer := none } ∧
            (laneWaitOn s = false → t.route = { s.route with
              exitClass := some x, laneWait := some s.cfg.dispatch.laneWait }) ∧
            t.table = s.table.map (fun y => if inZone y then { y with state := .done } else y))
        else
          t.route = s.route ∧ t.zone = { s.zone with zstate := .stopped, positionTimer := none } ∧ t.line = s.line ∧
          t.table = s.table.map (fun y => if inZone y then { y with state := .done } else y))

/-- A completed release: the exit eye clears in RELEASING with the exit-seen mark set. The zone is EMPTY, RELEASED is queued,
and the record is OUTBOUND with its taken timer at the transit timeout plus 2 s, or gone when its TAKEN was heard (R36);
the slot's OFFER is accepted in the same event if the conditions then hold (R10, R15). -/
def Obligations.ExitEyeCompletesTheRelease : Prop :=
  ∀ (s : State) (e : Entry) (kept : List Entry),
    StationSound s →
    active s = true →
    hasRole s .dispatch = false →
    s.zone.zstate = .releasing →
    s.zone.exitSeen = true →
    zoneEntry s = some e →
    kept = (if e.takenHeard then s.table.filter (fun x => x.state != .releasing)
      else s.table.map (fun x => if x.state = .releasing then
        { x with state := .outbound, timer := some (s.cfg.timing.transit + 200) } else x)) →
    ∃ t, exec .exitEyeClears s = .next t ∧ t.pins = { s.pins with eyeExit := false } ∧
      onlyChanges (.pins :: settleBlocks) s t ∧ t.zone.exitSeen = false ∧ t.zone.releaseTimer = none ∧
      kept.isPrefixOf t.table = true ∧ (s.slot = none → t.table = kept) ∧
      (inService s = true → roomFor 3 s = true → queued (.released (downstream s) e.record.track) t = true) ∧
      (s.slot = none → t.zone.zstate = if infeedPermit t then .inbound else .empty) ∧
      (∀ r ∈ s.slot, hasRole s .check = false → inService s = true → s.zone.holds = [] → s.pins.eyeEntry = false →
        s.pins.eyePos = false → kept.length < 6 →
        kept.all (fun x => x.state != .expected && x.record.track != r.track) = true →
        t.slot = none ∧ t.zone.zstate = .inbound ∧
        t.table = kept ++ [{ record := { r with hops := if r.hops < 15 then r.hops + 1 else 15 }, state := .expected,
                             takenHeard := false, timer := some (s.cfg.timing.release + s.cfg.timing.transit) }] ∧
        (roomFor 3 s = true → queued (.accept (upstream s) r.track) t = true))

/-- A completed delivery at DISPATCH: the record is gone, DISPATCHED carries its track, serial, order, exit, reject reason and
gross, the exit's count rises and a lane becomes the last lane used; the zone is EMPTY, or takes in the slot's OFFER, and
the route is dropped, its lines RT_SEL off (R15, R19, R167, R173). -/
def Obligations.ExitEyeCompletesTheDelivery : Prop :=
  ∀ (s : State) (e : Entry),
    StationSound s →
    works s .dispatch = true →
    s.zone.zstate = .releasing →
    s.zone.exitSeen = true →
    zoneEntry s = some e →
    ∃ t, exec .exitEyeClears s = .next t ∧ t.pins = { s.pins with eyeExit := false } ∧
      onlyChanges (.pins :: settleBlocks) s t ∧ t.zone.exitSeen = false ∧ t.zone.releaseTimer = none ∧
      (s.slot = none → t.zone.zstate = .empty ∧ t.table = s.table.filter (fun x => !inZone x) ∧ drive t = false) ∧
      (t.zone.zstate = .empty ∨ (t.zone.zstate = .inbound ∧ s.slot.isSome = true)) ∧
      routeSelect t = (false, false) ∧
      (s.table.filter (fun x => !inZone x)).isPrefixOf t.table ∧
      (inService s = true → roomFor 3 s = true →
        queued (.dispatched e.record.track e.record.serial e.record.order s.route.code
          (match s.route.code, s.route.exitClass with
           | .reject, some (.reject reason) => some reason
           | _, _ => none) e.record.gross) t = true) ∧
      t.route = { s.route with
        exitClass := none, code := .none, laneWait := none, waitExpired := false
        lane1 := if s.route.code = .lane1 then s.route.lane1 + 1 else s.route.lane1
        lane2 := if s.route.code = .lane2 then s.route.lane2 + 1 else s.route.lane2
        rejects := if s.route.code = .reject then s.route.rejects + 1 else s.route.rejects
        lastLane := if s.route.code = .lane1 then some .one else if s.route.code = .lane2 then some .two
                    else s.route.lastLane }

/-- The acknowledge in JAMMED. All eyes clear: the zone record is gone, the zone EMPTY (R20, R43), where no OFFER waits in the
slot to be taken up; at CHECK the profiling is back in NONE, the evaluation discarded, the tag window closed and the pending
request ended with its unsent WANTED withdrawn (R79, R84, R118, R123; that a kept read goes is the MODEL'S CHOICE, log 32).
Position eye blocked: STOPPED, a RELEASING record DONE again without its taken-heard mark, a PRESENT one at work afresh as at
the position eye, its restarted profile a PROFILE_FAULT (R44, R117, R123); at DISPATCH the route code is none and the record is
routed again if no hold is in force (R174). Another eye blocked: the movement is resumed with a fresh timer, the record as
it is (R45), at CHECK the profiling of a PRESENT one restarted UNARMED and its profile input withdrawn (R117, R123). JAM clears
in each, with its notice, the track of a record that stays in it; elsewhere a press has no effect (R42). -/
def Obligations.AcknowledgeEndsTheJam : Prop :=
  ∀ (s : State) (e : Entry) (x : ExitClass),
    StationSound s →
    inService s = true →
    x = s.route.exitClass.getD (exitClassOf s.cfg.dispatch e.record) →
    (s.zone.zstate ≠ .jammed → exec .ackPress s = .next s) ∧
    (s.zone.zstate = .jammed → zoneEntry s = some e →
      ∃ t, exec .ackPress s = .next t ∧ t.zone.jam = false ∧ t.pins = s.pins ∧ t.zone.holds = s.zone.holds ∧
        onlyChanges [.line, .table, .slot, .zone, .store, .reader, .weigh, .prof, .eval, .wrap, .label, .route, .free] s t ∧
        (eyesClear s.pins = true → (s.table.filter (fun y => !inZone y)).isPrefixOf t.table ∧
          (s.slot = none → t.table = s.table.filter (fun y => !inZone y)) ∧
          (∀ y ∈ t.table, y ∈ s.table.filter (fun y => !inZone y) ∨ y.state = .expected) ∧
          (hasRole s .check = false → onlyChanges (.route :: settleBlocks) s t) ∧
          (hasRole s .check = true → t.eval = none ∧ t.prof = { s.prof with
              phase := .none, front := none, rear := none, compare := none, ever := false, top := none, gaps := 0 } ∧
            t.reader = { buffer := [], overlong := false, window := .closed, kept := none, tagWait := none } ∧
            t.store = { s.store with request := none } ∧
            (∀ r ∈ s.store.request, t.line.tx.all (fun y => y.inAttempt || y.frame != .wanted r.serial) = true)) ∧
          (s.slot = none → t.zone.zstate = if infeedPermit t then .inbound else .empty) ∧ (roomFor 3 s = true →
            queued (.notice (.jamCleared none)) t = true ∧ (e.state = .releasing → e.takenHeard = false →
              hasRole s .dispatch = false → queued (.lost (downstream s) e.record.track) t = true)) ∧
          (hasRole s .dispatch = true → t.route = { s.route with
            exitClass := none, code := .none, laneWait := none, waitExpired := false })) ∧
        (s.pins.eyePos = true → (zoneEntry t).isSome = true ∧
          (roomFor 3 s = true → queued (.notice (.jamCleared (some e.record.track))) t = true) ∧
          (∀ y ∈ t.table, inZone y = true → y.record.track = e.record.track) ∧
          (hasRole s .dispatch = false → t.zone.zstate = .stopped ∧ ∀ y ∈ t.table, inZone y = true →
            (e.state ≠ .present → y.state = .done ∧ y.record = e.record) ∧
            (e.state = .releasing → y.takenHeard = false) ∧
            (e.state = .present → e.record.unknownOrigin = true ∨ hasRole s .plain = true →
              y.state = .done ∧ y.record = e.record) ∧
            (e.state = .present → e.record.unknownOrigin = false → hasRole s .wrap = true →
              if e.record.wrap.isSome then y.state = .done ∧ y.record = e.record
              else if e.record.check = some .pass then y.state = .working ∧ y.record = e.record ∧ t.wrap.attempt = 1
              else y.state = .done ∧ y.record = { e.record with wrap := some .skipped }) ∧
            (e.state = .present → e.record.unknownOrigin = false → hasRole s .label = true →
              if e.record.label.isSome then y.state = .done ∧ y.record = e.record
              else if e.record.check = some .pass ∧ isWrapped e.record.wrap = true then
                y.state = .working ∧ y.record = e.record ∧ t.label.attempt = 1
              else y.state = .done ∧ y.record = { e.record with label := some .skipped }) ∧
            (e.state = .present → e.record.unknownOrigin = false → hasRole s .check = true →
              ∀ ev ∈ s.eval, ev.track = e.record.track → EvalKept s t ∧ t.store = s.store ∧ t.prof = { s.prof with
                  phase := .faulted, front := none, rear := none, compare := none, ever := false, top := none, gaps := 0 } ∧
                t.eval.all (fun w => w.profile = some .profileFault ∧ w.tag = ev.tag ∧ w.manifest = ev.manifest) = true ∧
                (t.eval.isSome = true → y.state = .working) ∧ t.weigh.held = none ∧ t.weigh.restarts = 0 ∧
                t.reader = (if ev.tag = none then { s.reader with tagWait := some s.cfg.check.tagWait }
                            else s.reader))) ∧
          (hasRole s .dispatch = true →
            if s.zone.holds = [] then
              t.route.exitClass = some x ∧ t.route.code = (chooseExit s.pins s.route.lastLane x).getD .none ∧
              t.zone.zstate = (if (chooseExit s.pins s.route.lastLane x).isSome then .releasing else .stopped)
            else t.route = { s.route with code := .none } ∧ t.zone.zstate = .stopped ∧
              ∀ y ∈ t.table, inZone y = true → y.state = .done ∧ y.record = e.record)) ∧
        (s.pins.eyePos = false → eyesClear s.pins = false →
          t.table = s.table ∧ onlyChanges [.line, .zone, .weigh, .prof, .eval, .route] s t ∧
          (e.state = .present → hasRole s .check = true → ∀ ev ∈ s.eval, ev.track = e.record.track →
            t.eval = some { ev with profile := none } ∧ t.prof = { s.prof with
              phase := .unarmed, front := none, rear := none, compare := none, ever := false, top := none, gaps := 0 }) ∧
          (e.state ≠ .present ∨ s.eval = none → t.eval = s.eval ∧ t.prof = s.prof) ∧
          (e.state = .releasing → t.zone.zstate = .releasing ∧
            t.zone.exitSeen = s.pins.eyeExit ∧ t.zone.releaseTimer = some s.cfg.timing.release) ∧
          (e.state ≠ .releasing → t.zone.zstate = .positioning ∧
            t.zone.positionTimer = some s.cfg.timing.position) ∧ (roomFor 1 s = true →
            queued (.notice (.jamCleared (some e.record.track))) t = true)))

/-- The handoff timers' expiries. The arrival timer's removes the EXPECTED entry with LOST and NOTICE PALLET_LOST and ends
INBOUND, the drive off (R18); the taken timer's removes the OUTBOUND entry with NOTICE TAKEN_MISSING (R17), which may let the
slot's OFFER in (R15) or turn CHECK's permit on (R32); frozen, neither acts (R30). The offer repeat timer's, while the station
offers, queues OFFER of the head record again, in the place of one still queued for its track, and restarts the timer; otherwise
it does nothing (R33, R60). -/
def Obligations.HandoffTimersExpire : Prop :=
  ∀ (s : State) (e : Entry),
    StationSound s →
    Settled s →
    inService s = true →
    e ∈ s.table →
    (e.state = .expected → e.timer.isSome = true →
      (arrivalFrozen s = true → exec .arrivalTimerExpiry s = .next s) ∧
      (arrivalFrozen s = false → ∃ t, exec .arrivalTimerExpiry s = .next t ∧ onlyChanges settleBlocks s t ∧
        (s.table.filter (fun x => x.state != .expected)).isPrefixOf t.table ∧
        (s.slot = none → t.table = s.table.filter (fun x => x.state != .expected) ∧
          t.zone = { s.zone with zstate := .empty } ∧ drive t = false) ∧
        (∀ r ∈ s.slot, r.track ≠ e.record.track → entryOf t e.record.track = none) ∧
        (roomFor 3 s = true → queued (.lost (upstream s) e.record.track) t = true ∧
          queued (.notice (.palletLost e.record.track)) t = true))) ∧
    (e.state = .outbound → e.timer.isSome = true →
      (releaseFrozen s = true → exec (.takenTimerExpiry e.record.track) s = .next s) ∧
      (releaseFrozen s = false → ∃ t, exec (.takenTimerExpiry e.record.track) s = .next t ∧
        onlyChanges settleBlocks s t ∧
        (s.table.filter (fun x => x.record.track != e.record.track)).isPrefixOf t.table ∧
        (s.slot = none → t.table = s.table.filter (fun x => x.record.track != e.record.track) ∧
          t.zone = if infeedPermit t then { s.zone with zstate := .inbound } else s.zone) ∧
        (∀ y ∈ t.table, y ∈ s.table.filter (fun x => x.record.track != e.record.track) ∨ y.state = .expected) ∧
        (roomFor 3 s = true → queued (.notice (.takenMissing e.record.track)) t = true))) ∧
    (e.state = .done → headEntry s = some e → offering s = true →
      ∃ t, exec .offerRepeatExpiry s = .next t ∧ onlyChanges [.line, .zone] s t ∧
        t.zone = { s.zone with offerTimer := some s.cfg.timing.offerRepeat } ∧ t.line.rx = s.line.rx ∧
        (roomFor 1 s = true →
          queued (.offer (downstream s) e.record) t = true ∧ t.line.txOverrun = s.line.txOverrun)) ∧
    (offering s = false → exec .offerRepeatExpiry s = .next s)

/-- The position timer's expiry in POSITIONING and the release timer's in RELEASING jam the zone: JAMMED, JAM set, the timer
and the exit-seen mark gone, the drive off, the record as it was, NOTICE JAM with track and cause (R39 to R41), which in
STARTING is not sent (R180). Frozen by its condition, neither acts (R30). -/
def Obligations.TimeoutsJamTheZone : Prop :=
  ∀ (s : State) (c : Instr) (cause : JamCause) (z : ZoneState) (frozen : Bool) (timer : Option Nat),
    (c = .positionTimerExpiry ∧ cause = .positionTimeout ∧ z = .positioning ∧ frozen = s.pins.safe ∧
        timer = s.zone.positionTimer) ∨
      (c = .releaseTimerExpiry ∧ cause = .releaseTimeout ∧ z = .releasing ∧ frozen = releaseFrozen s ∧
        timer = s.zone.releaseTimer) →
    Settled s →
    active s = true →
    s.zone.zstate = z →
    timer.isSome = true →
    (frozen = true → exec c s = .next s) ∧
    (frozen = false → ∃ t, exec c s = .next t ∧ onlyChanges [.line, .zone] s t ∧
      t.zone = { s.zone with zstate := .jammed, exitSeen := false, jam := true, positionTimer := none,
                             releaseTimer := none } ∧
      drive t = false ∧ faultLamp t = true ∧ (s.service = .starting → t.line = s.line) ∧
      (inService s = true → roomFor 1 s = true → t.line = { s.line with
        tx := insertTx (freshTx (.notice (.jam ((zoneEntry s).map (fun e => e.record.track)) cause))) s.line.tx }))

/-! ## CHECK (Chapters 4 to 7) -/

/-- Eleven digits are a valid tag read exactly when the eleventh is the check digit of the first ten, the weights 7, 3, 1 from
the right (R75); any other number of digits is none. -/
def Obligations.TagReadTestsTheCheckDigit : Prop :=
  ∀ (ds : Digits) (x : Digit),
    tagRead (ds.map (fun d => some (BitVec.ofNat 8 (0x30 + d.val))) ++ [some (BitVec.ofNat 8 (0x30 + x.val))], false) =
      if ds.length = 10 ∧ (weightedSum ds + x.val) % 10 = 0 then some ds else none

/-- A line at CHECK while the tag window is open. A valid read closes it, stops the tag wait, is handed to the evaluation and
written into a WORKING record; its serial is looked up: a stored manifest leaves the list and is handed on, a miss makes
the pending request, whose WANTED goes out and whose wait runs in IN_SERVICE (R73, R76 to R78). Any other line only empties
the buffer. -/
def Obligations.TagLineIsResolved : Prop :=
  ∀ (s : State) (chars : List RxChar),
    StationSound s →
    Settled s →
    RoleFollows s →
    works s .check = true →
    s.reader.window = .tag →
    (tagRead (readerLine chars s) = none →
      exec (.codeReaderLine chars) s = .next (s.setReader { s.reader with buffer := [], overlong := false })) ∧
    (∀ ds ∈ tagRead (readerLine chars s), ∃ t, exec (.codeReaderLine chars) s = .next t ∧
      onlyChanges (.store :: .reader :: .eval :: settleBlocks) s t ∧ t.reader.window = .closed ∧
      t.reader.tagWait = none ∧ t.reader.kept = some (ds ++ [checkDigit ds]) ∧
      t.eval.all (fun ev => ev.tag = some (.serial ds)) = true ∧ EvalKept s t ∧
      (∀ x ∈ t.table, x.state = .working → x.record.serial = some ds) ∧
      t.table.length = s.table.length ∧
      (s.store.manifests.all (fun m => m.serial != ds) = true →
        t.store = { s.store with
          request := some {
            serial := ds
            wait := if inService s then some s.cfg.check.manifestWait else none } } ∧
        (inService s = true → roomFor 3 s = true → queued (.wanted ds) t = true)) ∧
      (∀ m ∈ s.store.manifests.find? (fun m => m.serial == ds),
        t.store = { s.store with manifests := s.store.manifests.filter (fun m => m.serial != ds) } ∧
        t.eval.all (fun ev => ev.manifest = some (.found m)) = true ∧
        (∀ x ∈ t.table, x.state = .working → holdsManifest m x.record)))

/-- The tag wait's expiry closes the window: the tag is UNREAD and the manifest NOT_APPLICABLE (R74, R76, R80). The manifest
wait's expiry ends the request, takes its unsent WANTED back and makes the manifest NOT_FOUND (R79). Not running, neither
acts. -/
def Obligations.WaitsEndWithoutAReading : Prop :=
  ∀ (s : State),
    StationSound s →
    works s .check = true →
    (s.reader.tagWait = none → exec .tagWaitExpiry s = .next s) ∧
    (s.reader.tagWait.isSome = true → ∃ t, exec .tagWaitExpiry s = .next t ∧
      onlyChanges (.reader :: .eval :: settleBlocks) s t ∧ t.reader.window = .closed ∧ t.reader.tagWait = none ∧
      t.reader.kept = none ∧
      EvalKept s t ∧ t.eval.all (fun ev => ev.tag = some .unread ∧ ev.manifest = some .notApplicable) = true) ∧
    (manifestWaiting s = false → exec .manifestWaitExpiry s = .next s) ∧
    (manifestWaiting s = true → ∃ t, exec .manifestWaitExpiry s = .next t ∧
      onlyChanges (.store :: .eval :: settleBlocks) s t ∧ t.store = { s.store with request := none } ∧
      (∀ r ∈ s.store.request, t.line.tx.all (fun e => e.inAttempt || e.frame != .wanted r.serial) = true) ∧
      EvalKept s t ∧ t.eval.all (fun ev => ev.manifest = some .notFound) = true)

/-- A MANIFEST at CHECK, its bytes as Table 12-5 lays them out: one that fails a check of Table 4-1, the first in the order
of the table, line after line, is reported with that check, the line and the serial that passed, and changes nothing else
(R71, R182); one that passes is taken as it came; a valid one that the pending request names is bound to the pallet and not
stored, and an unsent WANTED for it is withdrawn (R79); any other is the youngest of the list, in place of one with its
serial, or of the oldest when the list is full (R72). -/
def Obligations.ManifestIsBoundOrStored : Prop :=
  ∀ (s : State) (p : List Byte) (rest : List RxFrame) (e : Rejection) (m : Manifest) (byte word : Nat → Nat)
    (nibs : Nat → Nat → List Nat) (dig : Nat → Nat → Digits) (checks : List (ManifestCheck × Nat × Bool)),
    byte = (fun o => (p[o]?.map BitVec.toNat).getD 0) →
    word = (fun o => byte o * 256 + byte (o + 1)) →
    nibs = (fun o n => (List.range n).flatMap (fun i => [byte (o + i) / 16, byte (o + i) % 16])) →
    dig = (fun o n => (nibs o n).map (Fin.ofNat 10)) →
    checks = [(.serial, 0, (nibs 0 5).all (· ≤ 9)),
        (.order, 0, (nibs 5 4).all (· ≤ 9) || (nibs 5 4).all (· == 15)), (.duty, 0, byte 9 == 1 || byte 9 == 2),
        (.laneClass, 0, decide (byte 10 ≤ 2)), (.tare, 0, decide (500 ≤ word 11 ∧ word 11 ≤ 6000)),
        (.lineCount, 0, decide (1 ≤ byte 13 ∧ byte 13 ≤ 6 ∧ p.length = 14 + 10 * byte 13))] ++
      (List.range ((p.length - 14) / 10)).flatMap (fun i => [(.article, i + 1, (nibs (14 + 10 * i) 3).all (· ≤ 9)),
        (.unitClass, i + 1, decide (1 ≤ byte (17 + 10 * i) ∧ byte (17 + 10 * i) ≤ 3)),
        (.count, i + 1, decide (1 ≤ byte (18 + 10 * i) ∧ byte (18 + 10 * i) ≤ 240)),
        (.unitMass, i + 1, decide (1 ≤ word (19 + 10 * i) ∧ word (19 + 10 * i) ≤ 9999)),
        (.layers, i + 1, decide (1 ≤ byte (21 + 10 * i) ∧ byte (21 + 10 * i) ≤ 8)),
        (.layerHeight, i + 1, decide (50 ≤ word (22 + 10 * i) ∧ word (22 + 10 * i) ≤ 600))]) →
    StationSound s →
    CheckSound s →
    Settled s →
    RoleFollows s →
    hasRole s .check = true →
    inService s = true →
    s.line.rx = .manifest p :: rest →
    ∃ t, exec .manifestReceived s = .next t ∧ onlyChanges (.store :: .eval :: settleBlocks) s t ∧ t.line.rx = rest ∧
      EvalKept s t ∧ (validateManifest p = .error e → onlyChanges [.line] s t ∧
        t.line.sending.map Sending.bytes = s.line.sending.map Sending.bytes ∧ t.line.rxOverrun = s.line.rxOverrun ∧
        (roomFor 1 s = true → t.line = { s.line with
          rx := rest
          tx := insertTx (freshTx (.notice (.manifestRejected e.check e.line e.serial))) s.line.tx })) ∧
      (validateManifest p = .ok m →
         if s.store.request.any (fun r => r.serial = m.serial) then
           t.store = { s.store with request := none } ∧
           t.eval.all (fun ev => ev.manifest = some (.found m)) = true ∧
           (∀ x ∈ t.table, x.state = .working → holdsManifest m x.record) ∧
           t.line.tx.all (fun x => x.inAttempt || x.frame != .wanted m.serial) = true
         else
           t = (s.setLine { s.line with rx := rest }).setStore { s.store with
             manifests := (if m.serial ∈ storeSerials s then
                 s.store.manifests.filter (fun x => x.serial != m.serial)
               else if s.store.manifests.length = 32 then s.store.manifests.drop 1 else s.store.manifests) ++ [m] }) ∧
      (p.length ∈ [14, 24, 34, 44, 54, 64, 74] → validateManifest p =
        match checks.find? (fun x => !x.2.2) with
        | some x => .error { check := x.1, line := x.2.1, serial := if x.1 = .serial then none else some (dig 0 5) }
        | none => .ok {
            serial := dig 0 5, order := if (nibs 5 4).all (· == 15) = true then none else some (dig 5 4)
            duty := if byte 9 = 1 then .inBond else .dutyPaid
            laneClass := if byte 10 = 0 then .any else if byte 10 = 1 then .a else .b, tare := word 11
            lines := (List.range (byte 13)).map (fun i => {
              article := dig (14 + 10 * i) 3
              unitClass := if byte (17 + 10 * i) = 1 then .caseUnit else if byte (17 + 10 * i) = 2 then .tray else .keg
              count := byte (18 + 10 * i), mass := word (19 + 10 * i), layers := byte (21 + 10 * i)
              layerHeight := word (22 + 10 * i) }) })

/-- A scan. SCAN_START marks it begun; a SCAN_COMPLETE without one is taken like any other (MODEL'S CHOICE, log 19). At its end
it joins the window, from which the oldest of N + 1 leaves (R85, R89). Outside a weighing a stable window on an empty platform
ends the start-zero task with an attempt and the entry to IN_SERVICE (R93, R180), or, a zero owed or SCALE_FAULT set, makes an
attempt (R97), which gives a new zero in range or SCALE_FAULT out of it, with NOTICE ZERO_FAULT where the flag was clear, and
empties the window (R92, R94); any other scan does no more. In a weighing a stable window gives the held value and the last
gross (R99), a flagged scan ends the weighing and withdraws a held value, which empties the window (R89, R102; that the flagged
scan is not left in it is the MODEL'S CHOICE, log 31), and one that leaves the held value by more than the settle band disturbs
it, three times with a new settle timeout, the fourth for UNSTABLE (R100); a scan that does none of these leaves the weighing
and its timer as they are. -/
def Obligations.ScansWeighThePallet : Prop :=
  ∀ (s : State) (raw : RawScan) (x : Sample) (w : List Sample),
    StationSound s →
    Settled s →
    works s .check = true →
    x = sampleOf s.cfg.check.conversions raw →
    w = (s.weigh.window ++ [x]).drop (s.weigh.window.length + 1 - s.cfg.check.windowSize) →
    exec .scanStart s = .next (s.setWeigh { s.weigh with scanning := true }) ∧
    (∃ t, exec (.scanComplete raw) s = .next t ∧ t.weigh.scanning = false ∧
      (s.weigh.weighing = false → stableWindow s.cfg.check w = false ∨ platformEmpty s = false ∨
          (s.weigh.startZero = none ∧ s.weigh.postponed = 0 ∧ s.weigh.scaleFault = false) →
        t = s.setWeigh { s.weigh with scanning := false, window := w }) ∧
      (s.weigh.weighing = false → stableWindow s.cfg.check w = true → platformEmpty s = true →
        s.weigh.startZero.isSome = true ∨ 0 < s.weigh.postponed ∨ s.weigh.scaleFault = true →
        t.table = s.table ∧ t.eval = s.eval ∧ t.weigh.weighing = false ∧ t.weigh.window = [] ∧
        (zeroInRange s (stableSum w) = true → t.weigh.z = stableSum w ∧ t.weigh.established = true ∧
          t.weigh.z0 = (if s.weigh.established then s.weigh.z0 else stableSum w) ∧ t.weigh.postponed = 0 ∧
          t.weigh.scaleFault = false ∧ t.weigh.zeroDue = some s.cfg.check.zeroInterval) ∧
        (zeroInRange s (stableSum w) = false → t.weigh.z = s.weigh.z ∧ t.weigh.z0 = s.weigh.z0 ∧
          t.weigh.established = s.weigh.established ∧ t.weigh.postponed = s.weigh.postponed ∧
          t.weigh.scaleFault = true ∧ infeedPermit t = false) ∧
        (s.weigh.startZero.isSome = true → t.service = .inService ∧ t.weigh.startZero = none ∧
          t.weigh.zeroDue = some s.cfg.check.zeroInterval ∧ (s.service = .starting → s.line.tx = [] →
            t.line.tx.head?.map TxEntry.frame = some .hello)) ∧
        (zeroInRange s (stableSum w) = false → s.weigh.scaleFault = false →
          (inService s = true ∧ roomFor 2 s = true) ∨ (s.weigh.startZero.isSome = true ∧ s.line.tx = []) →
          queued (.notice (.zeroFault (if s.weigh.established then .zeroRange else .startRange) (some (stableSum w)))) t =
            true) ∧
        (s.weigh.startZero = none → onlyChanges settleBlocks s t ∧
          (zeroInRange s (stableSum w) = true ∨ s.weigh.scaleFault = true → t.line = s.line))) ∧
      (s.weigh.weighing = true → onlyChanges (.eval :: settleBlocks) s t ∧ t.weigh.z = s.weigh.z ∧
        t.weigh.z0 = s.weigh.z0 ∧ t.weigh.postponed = s.weigh.postponed ∧ t.weigh.scaleFault = s.weigh.scaleFault ∧
        EvalKept s t ∧ (x.flagged = true → t.weigh.weighing = false ∧ t.weigh.settle = none ∧ t.weigh.held = none ∧
          t.weigh.restarts = s.weigh.restarts ∧ t.eval.all (fun ev => ev.mass = some .scaleFault) = true ∧
          t.weigh.window = if s.weigh.held.isSome then [] else w) ∧
        (∀ h ∈ s.weigh.held, x.flagged = false →
          ((x.gross - h.sum).natAbs ≤ s.cfg.check.settleBand →
            (RoleFollows s → t = s.setWeigh { s.weigh with scanning := false, window := w }) ∧
            t.weigh = { s.weigh with scanning := false, window := w, weighing := t.weigh.weighing
                                     settle := t.weigh.settle }) ∧
          (s.cfg.check.settleBand < (x.gross - h.sum).natAbs → s.weigh.restarts < 3 →
            t.weigh.weighing = true ∧ t.weigh.held = none ∧ t.weigh.restarts = s.weigh.restarts + 1 ∧
            t.weigh.window = [] ∧ t.weigh.settle = some s.cfg.check.settleTimeout ∧
            t.eval.all (fun ev => ev.mass = none) = true) ∧
          (s.cfg.check.settleBand < (x.gross - h.sum).natAbs → 3 ≤ s.weigh.restarts →
            t.weigh.weighing = false ∧ t.weigh.held = none ∧ t.weigh.restarts = s.weigh.restarts ∧
            t.weigh.window = [] ∧ t.weigh.settle = none ∧
            t.eval.all (fun ev => ev.mass = some .unstable) = true)) ∧
        (s.weigh.held = none → x.flagged = false → stableWindow s.cfg.check w = false →
          (RoleFollows s → t = s.setWeigh { s.weigh with scanning := false, window := w }) ∧ t.weigh = { s.weigh with
          scanning := false, window := w, weighing := t.weigh.weighing, settle := t.weigh.settle }) ∧
        (s.weigh.held = none → x.flagged = false → stableWindow s.cfg.check w = true → t.weigh.window = w ∧
          (stableSum w - s.weigh.z ≤ s.cfg.check.capacity →
            t.weigh.lastGross = (stableSum w - s.weigh.z).toNat ∧ t.weigh.settle = none ∧
            t.weigh.held = some { sum := stableSum w, gross := (stableSum w - s.weigh.z).toNat } ∧
            t.eval.all (fun ev => ev.mass = some (.stable (stableSum w - s.weigh.z).toNat)) = true) ∧
          (s.cfg.check.capacity < stableSum w - s.weigh.z → t.weigh.weighing = false ∧ t.weigh.settle = none ∧
            t.weigh.lastGross = s.weigh.lastGross ∧
            t.eval.all (fun ev => ev.mass = some .scaleFault) = true))))

/-- The scale's timers. The start-zero timer ends its task with SCALE_FAULT and brings the station into service with HELLO (R93,
R94, R180). The zero-due timer restarts and, on a stable empty platform, an attempt gives a new zero in range or SCALE_FAULT out
of it; else the zero is postponed, to at most 8 (R92, R95, R96). SCALE_FAULT that goes from clear to set is reported with its
kind and the value tested, none for NO_STABLE_EMPTY (R94). The settle timer ends the weighing with UNSTABLE (R101). -/
def Obligations.ScaleTimersExpire : Prop :=
  ∀ (s : State),
    StationSound s →
    CheckSound s →
    works s .check = true →
    (s.weigh.startZero.isSome = true → s.service = .starting → s.line.tx = [] →
      ∃ t, exec .startZeroTimerExpiry s = .next t ∧ t.service = .inService ∧ t.weigh.scaleFault = true ∧
        t.weigh.startZero = none ∧ t.weigh.zeroDue = some s.cfg.check.zeroInterval ∧
        t.weigh.established = s.weigh.established ∧ t.line.tx.head?.map TxEntry.frame = some .hello ∧
        infeedPermit t = false ∧ t.table = s.table ∧
        (s.weigh.scaleFault = false → queued (.notice (.zeroFault .noStableEmpty none)) t = true) ∧
        onlyChanges [.service, .line, .zone, .store, .weigh] s t) ∧
    (s.weigh.zeroDue.isSome = true → ∃ t, exec .zeroDueExpiry s = .next t ∧ onlyChanges settleBlocks s t ∧
      t.table = s.table ∧ t.weigh.zeroDue = some s.cfg.check.zeroInterval ∧
      (stableEmpty s = true → t.weigh.window = [] ∧
        (zeroInRange s (stableSum s.weigh.window) = true → t.weigh.z = stableSum s.weigh.window ∧
          t.weigh.established = true ∧ t.weigh.postponed = 0 ∧ t.weigh.scaleFault = false ∧
          t.weigh.z0 = if s.weigh.established then s.weigh.z0 else stableSum s.weigh.window) ∧
        (zeroInRange s (stableSum s.weigh.window) = false → t.weigh.z = s.weigh.z ∧ t.weigh.scaleFault = true ∧
          t.weigh.postponed = s.weigh.postponed ∧ infeedPermit t = false ∧
          (s.weigh.scaleFault = false → inService s = true → roomFor 1 s = true → queued (.notice (.zeroFault
            (if s.weigh.established then .zeroRange else .startRange) (some (stableSum s.weigh.window)))) t = true))) ∧
      (stableEmpty s = false → t.weigh.z = s.weigh.z ∧ t.weigh.scaleFault = s.weigh.scaleFault ∧
        t.weigh.postponed = min 8 (s.weigh.postponed + 1) ∧
        (s.weigh.postponed = 7 → inService s = true → roomFor 2 s = true →
          queued (.notice (.zeroOverdue s.weigh.z)) t = true))) ∧
    (s.weigh.settle.isSome = true → ∃ t, exec .settleTimerExpiry s = .next t ∧
      onlyChanges (.eval :: settleBlocks) s t ∧ t.weigh.settle = none ∧ t.weigh.weighing = false ∧
      t.weigh.lastGross = s.weigh.lastGross ∧ EvalKept s t ∧ t.eval.all (fun ev => ev.mass = some .unstable) = true)

/-- An encoder step raises the counter and its snapshot moves the profiling on: clear arms it (R110), the first blocked one
takes the front edge with the overrun compare (R111), blocked ones add to the top and the gap count (R112), a clear one
takes the rear edge and completes the profile with its length at 5 mm a step (R113, R116), and the compare completes it by
overrun (R114). -/
def Obligations.EncoderStepsProfileThePallet : Prop :=
  ∀ (s : State) (beams : BitVec 40) (n : BitVec 16) (top : Nat) (gap : Bool),
    StationSound s →
    Settled s →
    RoleFollows s →
    works s .check = true →
    n = s.prof.counter + 1 →
    top = ((List.range 40).filter (fun k => beams.getLsbD k)).foldl max 0 →
    gap = decide (((List.range 40).filter (fun k => beams.getLsbD k)).length + s.cfg.check.gapAllowance < top + 1) →
    ∃ t, exec (.encoderStep beams) s = .next t ∧ t.prof.counter = n ∧ EvalKept s t ∧
      onlyChanges (.prof :: .eval :: settleBlocks) s t ∧
      (s.prof.phase = .none ∨ s.prof.phase = .complete ∨ s.prof.phase = .faulted →
        t = s.setProf { s.prof with counter := n }) ∧
      (s.prof.phase = .unarmed →
        t = s.setProf { s.prof with counter := n, phase := if beams = 0 then .armed else .unarmed }) ∧
      (s.prof.phase = .armed → beams = 0 → t = s.setProf { s.prof with counter := n }) ∧
      (s.prof.phase = .armed → beams ≠ 0 → t = s.setProf { s.prof with
        counter := n, phase := .inCurtain, front := some n, ever := true
        compare := some (n + BitVec.ofNat 16 s.cfg.check.maxPassSteps), top := some (max (s.prof.top.getD 0) top)
        gaps := if gap then s.prof.gaps + 1 else s.prof.gaps }) ∧
      (s.prof.phase = .inCurtain → beams ≠ 0 → s.prof.compare ≠ some n → t = s.setProf { s.prof with
        counter := n, top := some (max (s.prof.top.getD 0) top)
        gaps := if gap then s.prof.gaps + 1 else s.prof.gaps }) ∧
      (∀ f ∈ s.prof.front, s.prof.phase = .inCurtain → beams = 0 → t.prof.phase = .complete ∧
        t.prof.rear = some n ∧
        t.eval.all (fun ev => ev.profile = some (.complete {
          top := s.prof.top.getD 0, height := 125 + 50 * s.prof.top.getD 0, length := (n - f).toNat * 5
          gaps := s.prof.gaps, overrun := false })) = true) ∧
      (s.prof.phase = .inCurtain → beams ≠ 0 → s.prof.compare = some n → t.prof.phase = .complete ∧
        t.eval.all (fun ev => ev.profile = some (.complete {
          top := max (s.prof.top.getD 0) top, height := 125 + 50 * max (s.prof.top.getD 0) top
          length := s.cfg.check.maxPassSteps * 5, gaps := if gap then s.prof.gaps + 1 else s.prof.gaps
          overrun := true })) = true)

/-- The rows of Table 7-3 that need no mass comparison. An UNREAD tag adds TAG_UNREAD, a NOT_FOUND manifest NO_MANIFEST, a
PROFILE_FAULT and a mass SCALE_FAULT or UNSTABLE their own reasons, and nothing else adds these; without a FOUND manifest there
is no mass reason (R125). Of a COMPLETE profile a height above EH + HA, or a top beam of 39, adds HEIGHT_HIGH; one below EH
− HA, unless the top beam is 39, HEIGHT_LOW; a length above the limit, or an overrun, OVERHANG; more gaps than the void
limit, VOID; without one none of them stands. EH is B + Σ L × h. The set holds each reason once (R125, R130 to R133). -/
def Obligations.ProfileReasonsFollowTheFigures : Prop :=
  ∀ (c : CheckCfg) (r : TravelRecord) (i : Inputs) (f : ProfileFigures) (found : Bool) (eh : Int),
    found = (match i.manifest with
      | .found _ => true
      | _ => false) →
    eh = (c.baseHeight : Int) + ((r.lines.map (fun l => (l.layers : Int) * l.layerHeight)).sum) →
    (.tagUnread ∈ failSet c r i ↔ i.tag = .unread) ∧ (.noManifest ∈ failSet c r i ↔ i.manifest = .notFound) ∧
    (.profileFault ∈ failSet c r i ↔ i.profile = .profileFault) ∧
    (.scaleFault ∈ failSet c r i ↔ i.mass = .scaleFault) ∧ (.unstable ∈ failSet c r i ↔ i.mass = .unstable) ∧
    (found = false → .manifestInvalid ∉ failSet c r i ∧ .underweight ∉ failSet c r i ∧ .overweight ∉ failSet c r i) ∧
    (i.profile = .complete f →
      (.heightHigh ∈ failSet c r i ↔
        f.top = 39 ∨ (found = true ∧ eh + c.heightAllowance < f.height)) ∧
      (.heightLow ∈ failSet c r i ↔ found = true ∧ f.top ≠ 39 ∧ (f.height : Int) < eh - c.heightAllowance) ∧
      (.overhang ∈ failSet c r i ↔ c.nominalLength + c.overhangAllowance < f.length ∨ f.overrun = true) ∧
      (.void ∈ failSet c r i ↔ c.voidLimit < f.gaps)) ∧
    (i.profile = .profileFault → .heightHigh ∉ failSet c r i ∧ .heightLow ∉ failSet c r i ∧ .overhang ∉ failSet c r i ∧
      .void ∉ failSet c r i) ∧
    (failSet c r i).Nodup

/-- The mass side of the verdict: E = T + Σ n × u; E above the capacity adds MANIFEST_INVALID and stops the comparison; else
tol = F + ceil(E × p / 1000) + Σ n × a(class), at most 65535, and D = G − E adds UNDERWEIGHT below −tol, OVERWEIGHT above
tol, and neither within (R127 to R129). Whatever the inputs, PASS is the verdict of an empty fail set, FAIL of any other,
its primary reason the first in the order of R126, and the fail set of a tag that was read, or of an UNREAD one, whose manifest
is NOT_APPLICABLE, holds at most five reasons. -/
def Obligations.MassDecidesTheVerdict : Prop :=
  ∀ (c : CheckCfg) (r : TravelRecord) (i : Inputs) (m : Manifest) (e tol g : Nat) (d : Int) (x : Reason)
    (rest : List Reason),
    (i.manifest = .found m →
      e = r.tare.getD 0 + (r.lines.map (fun l => l.count * l.mass)).sum →
      tol = min 65535 (c.fixedAllowance + (e * c.perMille + 999) / 1000 +
        (r.lines.map (fun l => l.count * (match l.unitClass with
          | .caseUnit => c.caseAllowance
          | .tray => c.trayAllowance
          | .keg => c.kegAllowance))).sum) →
      (.manifestInvalid ∈ failSet c r i ↔ c.capacity < e) ∧
      (i.mass = .stable g → d = (g : Int) - e →
        (.underweight ∈ failSet c r i ↔ e ≤ c.capacity ∧ d < -(tol : Int)) ∧
        (.overweight ∈ failSet c r i ↔ e ≤ c.capacity ∧ (tol : Int) < d)) ∧
      (i.mass = .unstable → .unstable ∈ failSet c r i ∧ .underweight ∉ failSet c r i ∧ .overweight ∉ failSet c r i) ∧
      (i.mass = .scaleFault → .scaleFault ∈ failSet c r i ∧ .underweight ∉ failSet c r i ∧ .overweight ∉ failSet c r i)) ∧
    (verdictOf (failSet c r i) = .pass ↔ failSet c r i = []) ∧
    (failSet c r i = x :: rest → verdictOf (failSet c r i) = .fail x (x :: rest) ∧
      ∀ y ∈ rest, reasonCode x < reasonCode y) ∧
    (i.tag ≠ .unread → (failSet c r i).length ≤ 5) ∧
    (i.tag = .unread → i.manifest = .notApplicable → (failSet c r i).length ≤ 5)

/-- The evaluation: with the record of its track in WORKING and the four inputs resolved, the record goes to DONE with the
gross of a STABLE mass, the height and length of a COMPLETE profile, the deviation when both manifest and gross are there,
and the verdict; every other entry and field stays, the evaluation closes and the weighing ends; a FAIL is reported (R122,
R134, R135, R103). -/
def Obligations.EvaluationWritesTheRecord : Prop :=
  ∀ (s : State) (ev : Evaluation) (i : Inputs) (e : Entry),
    StationSound s →
    hasRole s .check = true →
    s.eval = some ev →
    inputsOf ev = some i →
    zoneEntryIn s .working = some e →
    e.record.track = ev.track →
    onlyChanges [.line, .table, .weigh, .eval] s (evalStep s) ∧ (evalStep s).eval = none ∧
      (evalStep s).weigh = { s.weigh with weighing := false, settle := none } ∧
      (evalStep s).table = s.table.map (fun x => if x.state = .working then { x with
        state := .done
        record := { x.record with
          gross := match i.mass with
            | .stable g => some g
            | _ => none
          height := match i.profile with
            | .complete f => some f.height
            | _ => none
          length := match i.profile with
            | .complete f => some f.length
            | _ => none
          deviation := match i.mass, i.manifest with
            | .stable g, .found _ => some ((g : Int) - expectedMass e.record)
            | _, _ => none
          check := some (verdictOf (failSet s.cfg.check e.record i)) } } else x) ∧
      (inService s = true → roomFor 1 s = true → (evalStep s).line.tx =
        (match failSet s.cfg.check e.record i with
         | [] => s.line.tx
         | p :: _ => insertTx (freshTx (.notice (.checkFailed e.record.track p))) s.line.tx))

/-! ## WRAP (Chapter 8) -/

/-- The dominant class has the largest total unit count of the record's lines, a tie going to the first of KEG, CASE, TRAY
(R138). -/
def Obligations.DominantClassHasTheLargestTotal : Prop :=
  ∀ (lines : List GoodsLine) (total : UnitClass → Nat),
    total = (fun c => ((lines.filter (fun l => l.unitClass = c)).map GoodsLine.count).sum) →
    (∀ c, total c ≤ total (dominantClass lines)) ∧
    (dominantClass lines = .caseUnit → total .keg < total .caseUnit) ∧
    (dominantClass lines = .tray → total .keg < total .tray ∧ total .caseUnit < total .tray)

/-- What WRAP and LABEL do with a record that comes to position (R137, R150): one of unknown origin, or with their verdict
already, is DONE as it is; one that did not PASS, or at LABEL was not WRAPPED, is SKIPPED; any other is to be wrapped, with
attempt 1 and the code of the lowest-index recipe that its dominant class, height and gross fit, or else of the default one
(R139), or to be labelled, with attempt 1 and its label composed: the dispatch code (R151), and for each row number the text of
the first entry that names it with a source present (R152), made as R153 says. A WRAP attempt is requested at once if WR_READY
stands, WR_FAULT and WRAPPER_FAULT do not, WR_ABORT is off and the station is not halted (R141); a print is started at once in
service with ENGINE_FAULT clear, no abort wait, the station not halted and fewer than four starts in the window (R157); else the
record waits. -/
def Obligations.PalletsToWorkOnAreChosen : Prop :=
  ∀ (s : State) (e : Entry) (fits : UnitClass → Nat → Nat → Recipe → Bool) (digits : Digits → List Byte)
    (number : Nat → List Byte) (text : Digits → Nat → Source → Option RowText),
    fits = (fun cls h g y => (match cls with
        | .caseUnit => y.hasCase
        | .tray => y.hasTray
        | .keg => y.hasKeg) && decide (y.heightMin ≤ h ∧ h ≤ y.heightMax ∧ y.massMin ≤ g ∧ g ≤ y.massMax)) →
    digits = (fun ds => ds.map (fun d => BitVec.ofNat 8 (0x30 + d.val))) →
    number = (fun n => (Nat.toDigits 10 n).map (fun ch => BitVec.ofNat 8 ch.toNat)) →
    text = (fun serial gross src => match src with
      | .dispatchCode =>
        some (.fixed (digits (s.cfg.label.site ++ serial ++ [checkDigit (s.cfg.label.site ++ serial)])))
      | .serial => some (.fixed (digits serial))
      | .order => e.record.order.map (fun ds => .fixed (digits ds))
      | .gross => some (.fixed (number (gross / 100) ++ [0x2E] ++
          [BitVec.ofNat 8 (0x30 + gross % 100 / 10), BitVec.ofNat 8 (0x30 + gross % 10)]))
      | .article n => if n = 0 then none else (e.record.lines[n - 1]?).map (fun l => .fixed (digits l.article))
      | .count n => if n = 0 then none else (e.record.lines[n - 1]?).map (fun l => .fixed (number l.count))
      | .duty => some (.fixed (if e.record.duty = .inBond then [0x49, 0x4E, 0x20, 0x42, 0x4F, 0x4E, 0x44]
          else [0x44, 0x55, 0x54, 0x59, 0x20, 0x50, 0x41, 0x49, 0x44]))
      | .laneClass => some (.fixed (match e.record.laneClass with
          | .any => [0x41, 0x4E, 0x59]
          | .a => [0x41]
          | .b => [0x42]))
      | .siteText => if s.cfg.label.siteText = [] then none else some (.fixed s.cfg.label.siteText)
      | .labelSeq => some .labelSeq) →
    StationSound s →
    active s = true →
    s.zone.zstate = .positioning →
    zoneEntry s = some e →
    e.state = .present →
    (hasRole s .wrap = true → ∃ t, exec .positionEyeBlocks s = .next t ∧ (zoneEntry t).isSome = true ∧
      onlyChanges (.pins :: .prof :: .eval :: .wrap :: .free :: settleBlocks) s t ∧
      (∀ x ∈ t.table, inZone x = true →
        (if e.record.unknownOrigin ∨ e.record.wrap.isSome then x.state = .done ∧ x.record = e.record
         else if e.record.check = some .pass then x.state = .working ∧ x.record = e.record
         else x.state = .done ∧ x.record = { e.record with wrap := some .skipped })) ∧
      (∀ h ∈ e.record.height, ∀ g ∈ e.record.gross, e.record.unknownOrigin = false → e.record.wrap = none →
        e.record.check = some .pass → t.wrap.attempt = 1 ∧
        t.wrap.recipe = recipeCode s.cfg.wrap (dominantClass e.record.lines) h g ∧
        (∀ i < s.cfg.wrap.recipes.length, ∀ x ∈ s.cfg.wrap.recipes[i]?, fits (dominantClass e.record.lines) h g x = true →
          (s.cfg.wrap.recipes.take i).all (fun y => !fits (dominantClass e.record.lines) h g y) = true →
          t.wrap.recipe = x.code) ∧
        (s.cfg.wrap.recipes.all (fun y => !fits (dominantClass e.record.lines) h g y) = true →
          ∀ d ∈ s.cfg.wrap.recipes[s.cfg.wrap.defaultIndex - 1]?, t.wrap.recipe = d.code) ∧
        (if s.pins.wrReady = true ∧ s.pins.wrFault = false ∧ s.wrap.fault = false ∧ s.wrap.abort = none ∧
            s.pins.safe = false then
          t.wrap.hs = .requested ∧ t.wrap.startTimer = some s.cfg.wrap.startTimeout ∧ wrapStartLine t = true ∧
            wrapCodeLines t = t.wrap.recipe
         else t.wrap.hs = .waiting ∧ wrapStartLine t = false ∧ wrapCodeLines t = 0) ∧ t.free = s.free)) ∧
    (hasRole s .label = true → ∃ t, exec .positionEyeBlocks s = .next t ∧ (zoneEntry t).isSome = true ∧
      onlyChanges (.pins :: .prof :: .eval :: .label :: .free :: settleBlocks) s t ∧
      (∀ x ∈ t.table, inZone x = true →
        (if e.record.unknownOrigin ∨ e.record.label.isSome then x.state = .done ∧ x.record = e.record
         else if e.record.check = some .pass ∧ isWrapped e.record.wrap = true then
           x.state = .working ∧ x.record = e.record
         else x.state = .done ∧ x.record = { e.record with label := some .skipped })) ∧
      (∀ serial ∈ e.record.serial, e.record.unknownOrigin = false → e.record.label = none →
        e.record.check = some .pass → isWrapped e.record.wrap = true → t.label.attempt = 1 ∧
        t.label.label.map Composed.code =
          some (s.cfg.label.site ++ serial ++ [checkDigit (s.cfg.label.site ++ serial)]) ∧
        (∀ gross ∈ e.record.gross, e.record.duty ≠ .unknown → t.label.label.map Composed.rows =
          some ((List.range 12).filterMap (fun i =>
            ((s.cfg.label.gather.filter (fun g => g.row = i + 1)).filterMap (fun g => text serial gross g.source)).head?.map
              (fun x => { number := i + 1, text := x })))) ∧
        (if inService s = true ∧ s.label.fault = false ∧ s.label.abortWait = none ∧ s.pins.safe = false ∧
            (s.label.history.filter PrintStart.inWindow).length < 4 then
          t.label.lstate = .printing ∧ t.label.printTimer = some s.cfg.label.printTimeout ∧
            t.label.printCount = s.label.printCount + 1
         else t.label.lstate = .waiting ∧ t.label.tx = s.label.tx ∧ t.label.printCount = s.label.printCount)))

/-- The wrapper's edges that end no attempt. WR_READY's rise clears WRAPPER_FAULT (R145); it, WR_FAULT's fall, SAFE#'s release
and the end of the WR_ABORT pulse request a WAITING attempt once ready stands, no fault stands, the flag is clear, no abort runs
and the station is not halted (R141), WR_START and the code lines on in REQUESTED and the code lines alone in WRAPPING (R140);
SAFE# takes back a request that was not answered (R147); WR_READY's fall only falls; WR_RUN's rise in REQUESTED begins WRAPPING
(R142); WR_FILM's rise is reported once; the pulse's end in STARTING brings the station into service, a WR_FILM found asserted
then being reported behind the HELLO (R146, R149, R180). That the command says the level it finds, that a WR_FILM which has not
risen is found negated where it says none, and that the level of one that has risen is then free is the MODEL'S CHOICE (log 6).
-/
def Obligations.WrapperEdgesAreFollowed : Prop :=
  ∀ (s : State) (film : Option Bool),
    Settled s →
    works s .wrap = true →
    (∃ t, exec .wrReadyRises s = .next t ∧ onlyChanges [.pins, .wrap] s t ∧
      t.pins = { s.pins with wrReady := true } ∧
      wrapStartLine t = decide (t.wrap.hs = .requested) ∧
      wrapCodeLines t = (if t.wrap.hs = .requested ∨ t.wrap.hs = .wrapping then t.wrap.recipe else 0) ∧
      t.wrap = (if s.wrap.hs = .waiting ∧ s.pins.wrFault = false ∧ s.wrap.abort = none ∧ s.pins.safe = false then
        { s.wrap with fault := false, hs := .requested, startTimer := some s.cfg.wrap.startTimeout }
        else { s.wrap with fault := false })) ∧
    exec .wrReadyFalls s = .next (s.setPins { s.pins with wrReady := false }) ∧
    (∃ t, exec .wrFaultFalls s = .next t ∧ onlyChanges [.pins, .wrap] s t ∧
      t.pins = { s.pins with wrFault := false } ∧
      t.wrap = (if s.wrap.hs = .waiting ∧ s.pins.wrReady = true ∧ s.wrap.fault = false ∧ s.wrap.abort = none ∧
          s.pins.safe = false then
        { s.wrap with hs := .requested, startTimer := some s.cfg.wrap.startTimeout } else s.wrap)) ∧
    (s.wrap.hs = .requested → ∃ t, exec .wrRunRises s = .next t ∧ t = s.setWrap { s.wrap with
      hs := .wrapping, startTimer := none, wrapTimer := some s.cfg.wrap.wrapTimeout } ∧
      wrapStartLine s = true ∧ wrapCodeLines s = s.wrap.recipe ∧ wrapStartLine t = false ∧
      wrapCodeLines t = s.wrap.recipe) ∧
    (s.wrap.hs ≠ .requested → exec .wrRunRises s = .next s) ∧
    (∃ t, exec .wrFilmRises s = .next t ∧ onlyChanges [.pins, .line] s t ∧ t.pins = { s.pins with wrFilm := true } ∧
      (inService s = true → roomFor 1 s = true →
        t.line = { s.line with tx := insertTx (freshTx (.notice .filmLow)) s.line.tx }) ∧
      (inService s = false → t.line = s.line)) ∧
    (∃ t, exec .safeAsserted s = .next t ∧
      t.wrap = (if s.wrap.hs = .requested then { s.wrap with hs := .waiting, startTimer := none } else s.wrap)) ∧
    (∃ t, exec .safeReleased s = .next t ∧
      t.wrap = (if s.wrap.hs = .waiting ∧ s.pins.wrReady = true ∧ s.pins.wrFault = false ∧ s.wrap.fault = false ∧
          s.wrap.abort = none then
        { s.wrap with hs := .requested, startTimer := some s.cfg.wrap.startTimeout } else s.wrap)) ∧
    (s.wrap.abort = none → exec (.wrAbortPulseEnd film) s = .next s) ∧
    (s.wrap.abort.isSome = true → ∃ t, exec (.wrAbortPulseEnd film) s = .next t ∧ t.service = .inService ∧
      t.pins = { s.pins with wrFilm := t.pins.wrFilm } ∧ (∀ level ∈ film, t.pins.wrFilm = level) ∧
      (film = none → s.service = .inService ∨ s.pins.wrFilm = false → t.pins = s.pins) ∧
      (film.isSome = true ∨ s.pins.wrFilm = false → t.free = s.free) ∧ wrapAbortLine t = false ∧
      t.wrap = (if s.wrap.hs = .waiting ∧ s.pins.wrReady = true ∧ s.pins.wrFault = false ∧ s.wrap.fault = false ∧
          s.pins.safe = false then
        { s.wrap with abort := none, hs := .requested, startTimer := some s.cfg.wrap.startTimeout }
        else { s.wrap with abort := none }) ∧
      (s.service = .inService → onlyChanges [.pins, .wrap] s t) ∧
      (s.service = .starting → s.line.tx = [] → t.line.tx.head?.map TxEntry.frame = some .hello ∧
        queued (.notice .filmLow) t = t.pins.wrFilm))

/-- The ends of a wrap. WR_DONE in WRAPPING: the record is DONE with WRAPPED and the code, the count rises, the code lines go
off (R140, R143). A start timeout in REQUESTED, a wrap timeout in WRAPPING, or WR_FAULT in either fails the attempt:
WRAPPER_FAULT is set, WR_START and the code lines go off, the first failure keeps its cause and waits for a second attempt, the
second gives WRAP_FAILED and its notice (R144). The recipe code 0 out of a handshake is the MODEL'S CHOICE (log 4). WR_FAULT in
IDLE or WAITING only sets the flag (R145). -/
def Obligations.WrapsEndByTheRule : Prop :=
  ∀ (s : State) (e : Entry),
    StationSound s →
    Settled s →
    WrapSound s →
    works s .wrap = true →
    (s.wrap.hs = .wrapping → zoneEntryIn s .working = some e → ∃ t, exec .wrDoneRises s = .next t ∧
      onlyChanges [.line, .table, .zone, .wrap] s t ∧ wrapCodeLines t = 0 ∧
      t.table = s.table.map (fun x => if x.state = .working then
        { x with state := .done, record := { x.record with wrap := some (.wrapped s.wrap.recipe) } } else x) ∧
      t.wrap = { s.wrap with hs := .idle, attempt := 0, recipe := 0, firstCause := none, wrapTimer := none,
                             count := s.wrap.count + 1 }) ∧
    (s.wrap.hs ≠ .wrapping → exec .wrDoneRises s = .next s) ∧
    (∀ c ∈ [Instr.startTimerExpiry, .wrapTimerExpiry, .wrFaultRises], ∀ cause ∈ [WrapCause.startTimeout, .wrapTimeout, .fault],
      ((c = .startTimerExpiry ∧ s.wrap.hs = .requested ∧ cause = .startTimeout) ∨
        (c = .wrapTimerExpiry ∧ s.wrap.hs = .wrapping ∧ s.pins.safe = false ∧ cause = .wrapTimeout) ∨
        (c = .wrFaultRises ∧ (s.wrap.hs = .requested ∨ s.wrap.hs = .wrapping) ∧ cause = .fault)) →
      zoneEntryIn s .working = some e →
      ∃ t, exec c s = .next t ∧ onlyChanges [.pins, .line, .table, .zone, .wrap] s t ∧
        t.pins = (if c = .wrFaultRises then { s.pins with wrFault := true } else s.pins) ∧ t.wrap.fault = true ∧
        t.wrap.startTimer = none ∧ t.wrap.wrapTimer = none ∧ t.wrap.count = s.wrap.count ∧
        wrapStartLine t = false ∧ wrapCodeLines t = 0 ∧
        (s.wrap.attempt = 1 → t.wrap.hs = .waiting ∧ t.wrap.attempt = 2 ∧ t.wrap.recipe = s.wrap.recipe ∧
          t.wrap.firstCause = some cause ∧
          t.table = s.table) ∧
        (s.wrap.attempt = 2 → t.wrap.hs = .idle ∧ t.wrap.attempt = 0 ∧
          t.table = s.table.map (fun x => if x.state = .working then
            { x with state := .done, record := { x.record with wrap := some .wrapFailed } } else x) ∧
          (inService s = true → roomFor 2 s = true → queued (.notice (.wrapFailed e.record.track s.wrap.recipe
            (s.wrap.firstCause.getD cause) cause)) t = true))) ∧
    (s.wrap.hs = .idle ∨ s.wrap.hs = .waiting → exec .wrFaultRises s =
      .next ((s.setPins { s.pins with wrFault := true }).setWrap { s.wrap with fault := true }))

/-! ## LABEL (Chapter 9) -/

/-- The engine's answers. PD in PRINTING sends AL and starts the apply timer, or, halted, holds the label PRINTED
until SAFE# is released (R158, R164); AP in APPLYING opens the verify window and starts the verify timer (R159); RY clears
ENGINE_FAULT and the abort wait and ends the start task (R162, R163, R166), and its absence for the engine ready wait sets
ENGINE_FAULT and ends it too. MS outside PRINTING, PRINTED and APPLYING does nothing, and FT there, with any cause 0 to 255,
sets ENGINE_FAULT alone (R158, R159, R162). A line that is not the message of its command, of another message too (MODEL'S
CHOICE, log 20), changes only the buffer, which it leaves empty (R155). -/
def Obligations.EngineAnswersMoveTheLabelOn : Prop :=
  ∀ (s : State) (line : List RxChar) (n : Nat),
    Settled s →
    RoleFollows s →
    works s .label = true →
    s.label.rxBuffer = [] →
    s.label.rxOverlong = false →
    (s.label.lstate = .printing → s.pins.safe = false →
      exec (.pdReceived [some 0x50, some 0x44]) s = .next (s.setLabel { s.label with
        lstate := .applying, printTimer := none, applyTimer := some s.cfg.label.applyTimeout
        tx := s.label.tx ++ [[0x41, 0x4C, 0x0D]] })) ∧
    (s.label.lstate = .printing → s.pins.safe = true →
      exec (.pdReceived [some 0x50, some 0x44]) s =
        .next (s.setLabel { s.label with lstate := .printed, printTimer := none })) ∧
    (s.label.lstate ≠ .printing → exec (.pdReceived [some 0x50, some 0x44]) s = .next s) ∧
    (s.label.lstate = .printed → ∃ t, exec .safeReleased s = .next t ∧ t.label = { s.label with
      lstate := .applying, printTimer := none, applyTimer := some s.cfg.label.applyTimeout
      tx := s.label.tx ++ [[0x41, 0x4C, 0x0D]] }) ∧
    (s.label.lstate = .applying → ∃ t, exec (.apReceived [some 0x41, some 0x50]) s = .next t ∧
      onlyChanges [.reader, .label] s t ∧ t.reader.window = .verify ∧ t.reader.kept = none ∧ t.reader.buffer = [] ∧
      t.label = { s.label with
        lstate := .verifying, applyTimer := none, verifyTimer := some s.cfg.label.verifyWait }) ∧
    (s.label.lstate ≠ .applying → exec (.apReceived [some 0x41, some 0x50]) s = .next s) ∧
    (∃ t, exec (.ryReceived [some 0x52, some 0x59]) s = .next t ∧ t.service = .inService ∧ t.label.fault = false ∧
      t.label.abortWait = none ∧ (s.label.lstate ≠ .waiting → t.label = { s.label with fault := false, abortWait := none }) ∧
      (s.service = .inService → onlyChanges [.label] s t) ∧
      (s.service = .starting → s.line.tx = [] → t.line.tx.head?.map TxEntry.frame = some .hello)) ∧
    (s.label.abortWait.isSome = true → ∃ t, exec .abortWaitExpiry s = .next t ∧ t.service = .inService ∧
      t.label = { s.label with fault := true, abortWait := none } ∧ (s.service = .inService → onlyChanges [.label] s t) ∧
      (s.service = .starting → s.line.tx = [] → t.line.tx.head?.map TxEntry.frame = some .hello)) ∧
    (s.label.lstate ≠ .printing → s.label.lstate ≠ .printed → s.label.lstate ≠ .applying →
      exec (.msReceived [some 0x4D, some 0x53]) s = .next s ∧
      (n ≤ 255 → exec (.ftReceived ([some 0x46, some 0x54] ++ (decimal n).map some)) s =
        .next (s.setLabel { s.label with fault := true }))) ∧
    (line ≠ [some 0x50, some 0x44] → exec (.pdReceived line) s = .next s) ∧
    (line ≠ [some 0x41, some 0x50] → exec (.apReceived line) s = .next s) ∧
    (line ≠ [some 0x4D, some 0x53] → exec (.msReceived line) s = .next s) ∧
    (line ≠ [some 0x52, some 0x59] → exec (.ryReceived line) s = .next s) ∧
    ((∀ k < 256, line ≠ [some 0x46, some 0x54] ++ (decimal k).map some) → exec (.ftReceived line) s = .next s)

/-- A failed label attempt: MS or FT, with any cause 0 to 255 in decimal (12.2), in PRINTING, PRINTED or APPLYING, or the print,
apply or verify timer's expiry, not halted, in its state. The cause is kept, FT's with its number; after a print or apply
timeout the engine is aborted with AB and the abort wait (R163); FT sets ENGINE_FAULT (R162); attempts left, the next one
begins in WAITING or prints at once (R157); none left, the record is DONE with LABEL_FAILED and its notice carries the
causes (R158 to R161). -/
def Obligations.LabelAttemptsFailByTheRule : Prop :=
  ∀ (s : State) (e : Entry) (c : Instr) (cause : LabelCause) (n : Nat) (ft : Instr),
    StationSound s →
    LabelSound s →
    works s .label = true →
    s.label.rxBuffer = [] →
    s.label.rxOverlong = false →
    zoneEntryIn s .working = some e →
    n ≤ 255 →
    ft = .ftReceived ([some 0x46, some 0x54] ++ (decimal n).map some) →
    ((s.label.lstate = .printing ∨ s.label.lstate = .printed ∨ s.label.lstate = .applying) ∧
        ((c = .msReceived [some 0x4D, some 0x53] ∧ cause = .missed) ∨ (c = ft ∧ cause = .fault n))) ∨
      (s.pins.safe = false ∧
        ((c = .printTimerExpiry ∧ s.label.lstate = .printing ∧ cause = .printTimeout) ∨
          (c = .applyTimerExpiry ∧ s.label.lstate = .applying ∧ cause = .applyTimeout) ∨
          (c = .verifyTimerExpiry ∧ s.label.lstate = .verifying ∧ cause = .verifyTimeout))) →
    ∃ t, exec c s = .next t ∧ onlyChanges [.line, .table, .zone, .reader, .label] s t ∧ t.label.verifyTimer = none ∧
      t.label.applyTimer = none ∧ t.label.fault = (s.label.fault || decide (c = ft)) ∧
      (c = .printTimerExpiry ∨ c = .applyTimerExpiry → t.label.abortWait = some 1000 ∧
        t.label.tx = s.label.tx ++ [[0x41, 0x42, 0x0D]]) ∧
      (c = .verifyTimerExpiry → t.reader.window = .closed) ∧ (c ≠ .verifyTimerExpiry → t.reader = s.reader) ∧
      (s.label.attempt < s.cfg.label.attempts → t.label.attempt = s.label.attempt + 1 ∧
        t.label.causes = s.label.causes ++ [cause] ∧ t.label.label = s.label.label ∧ t.table = s.table ∧
        (if (c = .msReceived [some 0x4D, some 0x53] ∨ c = .verifyTimerExpiry) ∧ s.service = .inService ∧
            s.label.fault = false ∧ s.label.abortWait = none ∧ s.pins.safe = false ∧
            (s.label.history.filter PrintStart.inWindow).length < 4 then
          t.label.lstate = .printing ∧ t.label.printTimer = some s.cfg.label.printTimeout
         else t.label.lstate = .waiting ∧ t.label.printTimer = none)) ∧
      (s.cfg.label.attempts ≤ s.label.attempt → t.label.lstate = .idle ∧ t.label.attempt = 0 ∧ t.label.label = none ∧
        t.label.printTimer = none ∧
        t.table = s.table.map (fun x => if x.state = .working then
          { x with state := .done, record := { x.record with label := some .labelFailed } } else x) ∧
        (∀ l ∈ s.label.label, inService s = true → roomFor 2 s = true →
          queued (.notice (.labelFailed e.record.track l.code (s.label.causes ++ [cause]))) t = true))

/-- A line at LABEL in VERIFYING: thirteen digits that are the dispatch code give LABELLED with the attempt's number and the
code, and the record is DONE; thirteen others fail the attempt with VERIFY_MISMATCH (R160, R161); any other line is
disregarded. -/
def Obligations.VerifyReadDecidesTheLabel : Prop :=
  ∀ (s : State) (chars : List RxChar) (l : Composed),
    StationSound s →
    Settled s →
    RoleFollows s →
    works s .label = true →
    s.reader.window = .verify →
    s.label.label = some l →
    (verifyRead (readerLine chars s) = none →
      exec (.codeReaderLine chars) s = .next (s.setReader { s.reader with buffer := [], overlong := false })) ∧
    (∀ ds ∈ verifyRead (readerLine chars s), ∃ t, exec (.codeReaderLine chars) s = .next t ∧
      onlyChanges [.line, .table, .zone, .reader, .label] s t ∧ t.reader.window = .closed ∧ t.reader.kept = some ds ∧
      (ds = l.code → t.label = { s.label with
          lstate := .idle, attempt := 0, label := none, causes := [], printTimer := none, applyTimer := none
          verifyTimer := none } ∧
        t.table = s.table.map (fun x => if x.state = .working then
          { x with state := .done, record := { x.record with label := some (.labelled s.label.attempt ds) } } else x)) ∧
      (ds ≠ l.code → s.label.attempt < s.cfg.label.attempts → t.table = s.table ∧
        t.label.attempt = s.label.attempt + 1 ∧ t.label.causes = s.label.causes ++ [.verifyMismatch]) ∧
      (ds ≠ l.code → s.cfg.label.attempts ≤ s.label.attempt →
        t.table = s.table.map (fun x => if x.state = .working then
          { x with state := .done, record := { x.record with label := some .labelFailed } } else x)))

/-- The print history: the oldest entry in the window leaves it, and out of WAITING, in IDLE with no label among others, nothing
else changes; with fewer than four then in it a waiting print starts, if the station is in service and not halted and the engine
is free. A start sends PR with the code and the rows, the label sequence in its row, advances the sequence from 999999 to 1,
counts, and takes its place in the history, which keeps four (R154, R157). PR is the digits of the code, then for each row a
solidus, its number in two digits and its text, LABEL_SEQ being the sequence in decimal, then CR (R153, 12.2). -/
def Obligations.PrintsAreStartedByTheHistory : Prop :=
  ∀ (s : State) (pre post : List PrintStart) (p : PrintStart) (l : Composed),
    Settled s →
    works s .label = true →
    s.label.history = pre ++ p :: post →
    p.inWindow = true →
    pre.all (fun x => !x.inWindow) = true →
    prMessage s.label.seq l = [0x50, 0x52] ++ l.code.map (fun d => BitVec.ofNat 8 (0x30 + d.val)) ++
        l.rows.flatMap (fun r => [0x2F, BitVec.ofNat 8 (0x30 + r.number / 10 % 10), BitVec.ofNat 8 (0x30 + r.number % 10)] ++
          match r.text with
            | .fixed b => b
            | .labelSeq => (Nat.toDigits 10 s.label.seq).map (fun ch => BitVec.ofNat 8 ch.toNat)) ++ [0x0D] ∧
    (s.label.lstate ≠ .waiting → exec .historyEntryLeavesWindow s =
      .next (s.setLabel { s.label with history := pre ++ { inWindow := false, left := 0 } :: post })) ∧
    (s.label.label = some l → ∃ t, exec .historyEntryLeavesWindow s = .next t ∧ onlyChanges [.label] s t ∧
      (if s.label.lstate = .waiting ∧ s.service = .inService ∧ s.label.fault = false ∧ s.label.abortWait = none ∧
          s.pins.safe = false ∧ (post.filter PrintStart.inWindow).length < 4 then
        t.label = { s.label with
          lstate := .printing, printTimer := some s.cfg.label.printTimeout, printCount := s.label.printCount + 1
          seq := if s.label.seq < 999999 then s.label.seq + 1 else 1
          tx := s.label.tx ++ [prMessage s.label.seq l]
          history := (if s.label.history.length < 4 then pre ++ { inWindow := false, left := 0 } :: post
                      else (pre ++ { inWindow := false, left := 0 } :: post).drop 1) ++
                        [{ inWindow := true, left := s.cfg.label.printWindow }] }
       else t.label = { s.label with history := pre ++ { inWindow := false, left := 0 } :: post }))

/-- No PR and no AL is sent while the station is halted: an event that leaves it halted gives PRN_TX nothing but AB (R164). -/
def Obligations.NothingIsPrintedWhileHalted : Prop :=
  ∀ (s t : State) (c : Instr),
    exec c s = .next t →
    c ≠ .reset →
    t.pins.safe = true →
    s.label.tx.isPrefixOf t.label.tx = true ∧
      (t.label.tx.drop s.label.tx.length).all (fun m => m = [0x41, 0x42, 0x0D]) = true

/-! ## DISPATCH (Chapter 10) -/

/-- A record that waits for its exit: a lane or spur input that opens one, by R170, starts the delivery to it, the diverter set
and the zone RELEASING with its timer (R172); otherwise the record waits on, its lane wait running. While the delivery
conditions do not hold an input change decides nothing, and starts or discards the lane wait of a DONE record by whether it then
lacks an exit (R169, R171). With no DONE record, one whose class is not fixed yet, or the zone RELEASING, a change alters the
pins alone and no delivery (R172), and so it does out of service and in other roles. The lane lamps follow the lane inputs at a
DISPATCH station in STARTING and IN_SERVICE and are dark elsewhere (R167). The expiry of the lane wait sends one NOTICE
LANE_WAIT and is not repeated for that wait (R171). -/
def Obligations.WaitingRecordTakesTheExitThatOpens : Prop :=
  ∀ (s : State) (input : LaneInput) (level : Bool) (p : Pins) (x : ExitClass) (e : Entry),
    StationSound s →
    Settled s →
    p = setLaneInput input level s.pins →
    laneLamp (s.setPins p) .one = (works s .dispatch && !p.lane1Full && !p.lane1Shut) ∧
    laneLamp (s.setPins p) .two = (works s .dispatch && !p.lane2Full && !p.lane2Shut) ∧
    (works s .dispatch = false ∨ s.zone.zstate = .releasing ∨ zoneEntryIn s .done = none ∨ s.route.exitClass = none →
      exec (.laneInputChange input level) s = .next (s.setPins p)) ∧
    (works s .dispatch = true → s.route.exitClass = some x → zoneEntryIn s .done = some e →
      (∃ t, exec (.laneInputChange input level) s = .next t ∧ t.pins = p ∧
        laneLamp t .one = (!p.lane1Full && !p.lane1Shut) ∧ laneLamp t .two = (!p.lane2Full && !p.lane2Shut) ∧
        (delivering s = true →
          (∀ exit ∈ chooseExit p s.route.lastLane x, onlyChanges [.pins, .table, .zone, .route] s t ∧
            t.table = s.table.map (fun y => if y.state = .done then { y with state := .releasing } else y) ∧
            t.zone = { s.zone with zstate := .releasing, exitSeen := s.pins.eyeExit,
                                   releaseTimer := some s.cfg.timing.release } ∧
            t.route = { s.route with code := exit, laneWait := none, waitExpired := false } ∧ drive t = !s.pins.safe ∧
            routeSelect t = (match exit with
              | .lane1 => (false, true)
              | .lane2 => (true, false)
              | .reject => (true, true)
              | .none => (false, false))) ∧
          (chooseExit p s.route.lastLane x = none → t = s.setPins p)) ∧
        (delivering s = false → onlyChanges [.pins, .route] s t ∧
          t.route = (if chooseExit p s.route.lastLane x = none then
            { s.route with laneWait := if laneWaitOn s then s.route.laneWait else some s.cfg.dispatch.laneWait }
            else { s.route with laneWait := none, waitExpired := false }))) ∧
      (s.route.laneWait = none → exec .laneWaitExpiry s = .next s) ∧
      (s.route.laneWait.isSome = true → ∃ t, exec .laneWaitExpiry s = .next t ∧ onlyChanges [.line, .route] s t ∧
        t.route = { s.route with laneWait := none, waitExpired := true } ∧ (inService s = true → roomFor 1 s = true →
          t.line.tx = insertTx (freshTx (.notice (.laneWait e.record.track (laneWaitDetail s.pins x)))) s.line.tx)))

/-- The exit class by the tests of R168 in their order, and the lane of R170: an open matching lane, and of two the one not
used last, lane 1 first; with no matching lane open the record waits, and never goes to the spur. -/
def Obligations.ExitIsChosenByTheTests : Prop :=
  ∀ (c : DispatchCfg) (r : TravelRecord) (p : Pins) (last : Option LaneNo) (m1 m2 : Bool),
    m1 = (decide (c.duty1 = r.duty) && (decide (r.laneClass = .any) || decide (r.laneClass = c.letter1))) →
    m2 = (decide (c.duty2 = r.duty) && (decide (r.laneClass = .any) || decide (r.laneClass = c.letter2))) →
    exitClassOf c r =
      (if r.unknownOrigin then .reject .unknownOrigin
       else if r.check ≠ some .pass then .reject .checkFailed
       else if isWrapped r.wrap = false then .reject .wrapNotDone
       else if isLabelled r.label = false then .reject .labelNotDone
       else if m1 = false ∧ m2 = false then .reject .noLane else .lane m1 m2) ∧
    (chooseExit p last (.lane m1 m2) = some .lane1 ↔
      m1 = true ∧ laneOpen p .one = true ∧ (last ≠ some .one ∨ m2 = false ∨ laneOpen p .two = false)) ∧
    (chooseExit p last (.lane m1 m2) = some .lane2 ↔
      m2 = true ∧ laneOpen p .two = true ∧ (last = some .one ∨ m1 = false ∨ laneOpen p .one = false)) ∧
    (chooseExit p last (.lane m1 m2) = none ↔
      (m1 = false ∨ laneOpen p .one = false) ∧ (m2 = false ∨ laneOpen p .two = false)) ∧
    chooseExit p last (.lane m1 m2) ≠ some .reject ∧ chooseExit p last (.lane m1 m2) ≠ some .none ∧
    (∀ lane, laneOpen p lane = match lane with
      | .one => !p.lane1Full && !p.lane1Shut
      | .two => !p.lane2Full && !p.lane2Shut) ∧
    (∀ reason, chooseExit p last (.reject reason) = if p.spurFull then none else some .reject)

/-! ## Laws of the whole part -/

/-- Every step keeps the laws of the station table and the zone: at most six records, no track twice; at most one EXPECTED and
one zone record, the states in their order; the zone record and the zone state as Table 2-1 gives them; an empty table out
of service (R8, R9, R24, R25). -/
def Obligations.StepsKeepTheStationSound : Prop :=
  ∀ (s t : State),
    StationSound s →
    step s = .next t →
    StationSound t

/-- The part as reset leaves it meets every law that the steps keep. -/
def Obligations.ResetIsSound : Prop :=
  StationSound State.reset ∧ LineSound State.reset ∧ CheckSound State.reset ∧ EvalSound State.reset ∧
    VerdictSound State.reset ∧ OwnHoldSound State.reset ∧ WrapSound State.reset ∧ LabelSound State.reset ∧
    RouteSound State.reset ∧ Settled State.reset ∧ RoleFollows State.reset

/-- Every step keeps the queues within their bounds, the transmit queue in the order of sending with at most one OFFER for a
track (R59, R60, R61, R64), exactly one entry in an attempt while one is under way, and else none, and only that entry
withdrawn or replaced after a withdrawal (R58 to R60); at most 32 manifests, no two with the same serial (R70), and a
postponement count of 0..8 (R96); and the own entry of the hold set at what SAFE# and HOLD_SW give (R48). -/
def Obligations.StepsKeepTheQueuesAndSetsSound : Prop :=
  ∀ (s t : State),
    step s = .next t →
    (LineSound s → LineSound t) ∧ (CheckSound s → CheckSound t) ∧
      (OwnHoldSound s → OwnHoldSound t)

/-- Every step keeps the law of R126: a record's check verdict is PASS only if it holds a manifest, a gross and a height, its
deviation within the tolerance computed for it; and the law of R129: a measured gross is at most the capacity. It also keeps
the law of the evaluation: there is none away from CHECK at work, it belongs to a PRESENT or WORKING record of the infeed,
its manifest is NOT_APPLICABLE exactly when its tag is UNREAD, and the tag window, the tag wait and the pending request
stand only as its inputs have them (R73, R74, R76 to R80, R120, R121). -/
def Obligations.StepsKeepTheVerdictLaw : Prop :=
  ∀ (s t : State),
    StationSound s →
    EvalSound s →
    VerdictSound s →
    step s = .next t →
    EvalSound t ∧ VerdictSound t

/-- Every step keeps the handshake and the label state in step with the WORKING record, their timers in their states, the print
history at four starts, the label sequence at 1..999999, the dispatch code's check digit (R140, R151, R154, R156, R157). -/
def Obligations.StepsKeepTheMachinesSound : Prop :=
  ∀ (s t : State),
    StationSound s →
    WrapSound s →
    LabelSound s →
    step s = .next t →
    WrapSound t ∧ LabelSound t

/-- Every step keeps the exit class that of the zone record, and a lane selected only for a record that matches it (R168,
R170); and after every event nothing that could happen is left waiting: the offer repeat timer runs exactly while the station
offers (R33); no OFFER stands in the slot of a station that could accept, no CHECK zone is EMPTY that could accept (R15,
R32); a record waits at DISPATCH only for want of an exit, with its lane wait (R169, R171); and INFEED_PERMIT is on only
with no hold, no SCALE_FAULT and a postponement count below 8 (R32). The event in which the station comes to offer a record
queues OFFER with a copy of it and starts the repeat timer (R33, R44, R49), and the event in which a CHECK platform becomes
empty, or ceases to be, empties the settle window (R89, R91). -/
def Obligations.StepsLeaveNothingWaiting : Prop :=
  ∀ (s t : State),
    StationSound s →
    RouteSound s →
    Settled s →
    step s = .next t →
    RouteSound t ∧ Settled t ∧
    (∀ e ∈ headEntry t, offering t = true →
      offering s = false ∨ (headEntry s).map (fun x => x.record.track) ≠ some e.record.track →
      t.zone.offerTimer = some t.cfg.timing.offerRepeat ∧
      (roomFor 3 s = true → queued (.offer (downstream t) e.record) t = true)) ∧
    (works s .check = true → works t .check = true → platformEmpty t ≠ platformEmpty s → t.weigh.window = [])

/-- After every event no evaluation, wrap request or print start that could take place is left waiting (R122, R141, R157). -/
def Obligations.StepsLeaveNoWorkWaiting : Prop :=
  ∀ (s t : State),
    StationSound s →
    RoleFollows s →
    step s = .next t →
    RoleFollows t

/-- No block writes into a record that is not in WORKING (R4): one that is DONE, RELEASING or OUTBOUND keeps its fields as long
as its entry stays in the table; so does one that is EXPECTED, or PRESENT, as long as it is no further than PRESENT. -/
def Obligations.FinishedRecordsKeepTheirFields : Prop :=
  ∀ (s t : State) (c : Instr) (e e' : Entry),
    StationSound s →
    exec c s = .next t →
    c ≠ .clearReceived →
    e ∈ s.table →
    e' ∈ t.table →
    e'.record.track = e.record.track →
    (e.state = .done ∨ e.state = .releasing ∨ e.state = .outbound → e'.state ≠ .expected → e'.state ≠ .present →
      e'.record = e.record) ∧
    (e.state = .present → e'.state = .present → e'.record = e.record) ∧
    (e.state = .expected → s.slot.all (fun r => r.track != e.record.track) = true →
      e'.state = .expected ∨ e'.state = .present → e'.record = e.record)
end

