-- ==== Sys2Proof/Laws/Conditions.lean ====
section
/-! SUPPORT. What each condition of Flags.lean depends on: two states that agree on those fields agree on it. -/

namespace Sys2Proof.Machine

variable {s t : State}

theorem inService_congr (h : t.service = s.service) : inService t = inService s := by simp [inService, h]
theorem active_congr (h : t.service = s.service) : active t = active s := by simp [active, h]
theorem hasRole_congr (h : t.cfg = s.cfg) (r : Role) : hasRole t r = hasRole s r := by simp [hasRole, h]
theorem works_congr (h : t.service = s.service) (hc : t.cfg = s.cfg) (r : Role) : works t r = works s r := by
  simp [works, active_congr h, hasRole_congr hc]
theorem upstream_congr (h : t.cfg = s.cfg) : upstream t = upstream s := by simp [upstream, h]
theorem downstream_congr (h : t.cfg = s.cfg) : downstream t = downstream s := by simp [downstream, h]
theorem halted_congr (h : t.pins = s.pins) : halted t = halted s := by simp [halted, h]
theorem holdsEmpty_congr (h : t.zone.holds = s.zone.holds) : holdsEmpty t = holdsEmpty s := by simp [holdsEmpty, h]
theorem safetyFrom_congr (h : t.zone.holds = s.zone.holds) (n : Nat) : safetyFrom t n = safetyFrom s n := by
  simp [safetyFrom, h]
theorem zoneEntry_congr (h : t.table = s.table) : zoneEntry t = zoneEntry s := by simp [zoneEntry, h]
theorem headEntry_congr (h : t.table = s.table) : headEntry t = headEntry s := by simp [headEntry, h]
theorem expectedEntry_congr (h : t.table = s.table) : expectedEntry t = expectedEntry s := by simp [expectedEntry, h]
theorem entryOf_congr (h : t.table = s.table) (k : Track) : entryOf t k = entryOf s k := by simp [entryOf, h]
theorem zoneEntryIn_congr (h : t.table = s.table) (st : RecordState) : zoneEntryIn t st = zoneEntryIn s st := by
  simp [zoneEntryIn, h]
theorem zeroOverdue_congr (h : t.weigh.postponed = s.weigh.postponed) : zeroOverdue t = zeroOverdue s := by
  simp [zeroOverdue, h]
theorem headDone_congr (h : t.table = s.table) : headDone t = headDone s := by simp [headDone, headEntry_congr h]

/-- The accepting conditions read the service state, zone, eyes, table, role and two scale figures (R31). -/
theorem accepting_congr (h1 : t.service = s.service) (h2 : t.cfg = s.cfg) (h3 : t.pins = s.pins) (h4 : t.table = s.table)
    (h5 : t.zone.zstate = s.zone.zstate) (h6 : t.zone.holds = s.zone.holds)
    (h7 : t.weigh.scaleFault = s.weigh.scaleFault) (h8 : t.weigh.postponed = s.weigh.postponed) :
    accepting t = accepting s := by
  simp [accepting, inService_congr h1, hasRole_congr h2, expectedEntry_congr h4, holdsEmpty_congr h6,
    zeroOverdue_congr h8, h3, h4, h5, h7]

/-- The offering conditions read the service state, role, table, zone state and hold set (R33). -/
theorem offering_congr (h1 : t.service = s.service) (h2 : t.cfg = s.cfg) (h3 : t.table = s.table)
    (h4 : t.zone.zstate = s.zone.zstate) (h5 : t.zone.holds = s.zone.holds) : offering t = offering s := by
  simp [offering, inService_congr h1, hasRole_congr h2, headDone_congr h3, holdsEmpty_congr h5, h4]

/-- The delivery conditions read the same fields (R169). -/
theorem delivering_congr (h1 : t.service = s.service) (h2 : t.cfg = s.cfg) (h3 : t.table = s.table)
    (h4 : t.zone.zstate = s.zone.zstate) (h5 : t.zone.holds = s.zone.holds) : delivering t = delivering s := by
  simp [delivering, inService_congr h1, hasRole_congr h2, zoneEntryIn_congr h3, holdsEmpty_congr h5, h4]

theorem platformEmpty_congr (h1 : t.pins = s.pins) (h2 : t.table = s.table) (h3 : t.zone.zstate = s.zone.zstate) :
    platformEmpty t = platformEmpty s := by
  simp [platformEmpty, zoneEntry_congr h2, h1, h3]

theorem arrivalFrozen_congr (h1 : t.cfg = s.cfg) (h2 : t.pins = s.pins) (h3 : t.zone.holds = s.zone.holds) :
    arrivalFrozen t = arrivalFrozen s := by
  simp [arrivalFrozen, halted_congr h2, upstream_congr h1, safetyFrom_congr h3]

theorem releaseFrozen_congr (h1 : t.cfg = s.cfg) (h2 : t.pins = s.pins) (h3 : t.zone.holds = s.zone.holds) :
    releaseFrozen t = releaseFrozen s := by
  simp [releaseFrozen, halted_congr h2, downstream_congr h1, safetyFrom_congr h3]

/-- The station that accepts is in service, its zone EMPTY, no hold, no EXPECTED entry, a free place in the table (R31). -/
theorem accepting_iff : accepting s = true ↔ inService s = true ∧ s.zone.zstate = .empty ∧ eyesClear s.pins = true ∧
    (expectedEntry s).isNone = true ∧ s.table.length < Config.tableCapacity ∧ holdsEmpty s = true ∧
    (hasRole s .check = true → s.weigh.scaleFault = false ∧ zeroOverdue s = false) := by
  cases h : hasRole s .check <;> simp [accepting, h, and_assoc]

/-- The station that offers is in service, not DISPATCH, its head record DONE, its zone STOPPED, no hold (R33). -/
theorem offering_iff : offering s = true ↔ hasRole s .dispatch = false ∧ headDone s = true ∧ s.zone.zstate = .stopped ∧
    holdsEmpty s = true ∧ inService s = true := by
  simp [offering, and_assoc]

/-- A role's block that works is that of an active station with the role. -/
theorem works_iff (r : Role) : works s r = true ↔ active s = true ∧ hasRole s r = true := by simp [works]

/-- Roles exclude each other. -/
theorem hasRole_unique {r q : Role} (h : hasRole s r = true) (hne : r ≠ q) : hasRole s q = false := by
  simp only [hasRole, decide_eq_true_eq] at h
  simp [hasRole, h, hne]

end Sys2Proof.Machine
end

