-- ==== Sys2Proof/Laws/State.lean ====
section
/-! SUPPORT. One lemma per field per update: what `State.set<Field>` leaves and what it replaces, so that no proof unfolds a
record update; and that the last of two updates of one field counts. -/

namespace Sys2Proof.Machine

/-! ### setPending -/

@[simp] theorem State.setPending_pending (s : State) (x : List Instr) : (s.setPending x).pending = x := rfl
@[simp] theorem State.setPending_service (s : State) (x : List Instr) : (s.setPending x).service = s.service := rfl
@[simp] theorem State.setPending_cfg (s : State) (x : List Instr) : (s.setPending x).cfg = s.cfg := rfl
@[simp] theorem State.setPending_pins (s : State) (x : List Instr) : (s.setPending x).pins = s.pins := rfl
@[simp] theorem State.setPending_line (s : State) (x : List Instr) : (s.setPending x).line = s.line := rfl
@[simp] theorem State.setPending_table (s : State) (x : List Instr) : (s.setPending x).table = s.table := rfl
@[simp] theorem State.setPending_slot (s : State) (x : List Instr) : (s.setPending x).slot = s.slot := rfl
@[simp] theorem State.setPending_trackSeq (s : State) (x : List Instr) : (s.setPending x).trackSeq = s.trackSeq := rfl
@[simp] theorem State.setPending_zone (s : State) (x : List Instr) : (s.setPending x).zone = s.zone := rfl
@[simp] theorem State.setPending_store (s : State) (x : List Instr) : (s.setPending x).store = s.store := rfl
@[simp] theorem State.setPending_reader (s : State) (x : List Instr) : (s.setPending x).reader = s.reader := rfl
@[simp] theorem State.setPending_weigh (s : State) (x : List Instr) : (s.setPending x).weigh = s.weigh := rfl
@[simp] theorem State.setPending_prof (s : State) (x : List Instr) : (s.setPending x).prof = s.prof := rfl
@[simp] theorem State.setPending_eval (s : State) (x : List Instr) : (s.setPending x).eval = s.eval := rfl
@[simp] theorem State.setPending_wrap (s : State) (x : List Instr) : (s.setPending x).wrap = s.wrap := rfl
@[simp] theorem State.setPending_label (s : State) (x : List Instr) : (s.setPending x).label = s.label := rfl
@[simp] theorem State.setPending_route (s : State) (x : List Instr) : (s.setPending x).route = s.route := rfl
@[simp] theorem State.setPending_free (s : State) (x : List Instr) : (s.setPending x).free = s.free := rfl
@[simp] theorem State.setPending_twice (s : State) (x y : List Instr) : (s.setPending x).setPending y = s.setPending y := rfl
@[simp] theorem State.setPending_same (s : State) : s.setPending s.pending = s := rfl

/-! ### setService -/

@[simp] theorem State.setService_pending (s : State) (x : Service) : (s.setService x).pending = s.pending := rfl
@[simp] theorem State.setService_service (s : State) (x : Service) : (s.setService x).service = x := rfl
@[simp] theorem State.setService_cfg (s : State) (x : Service) : (s.setService x).cfg = s.cfg := rfl
@[simp] theorem State.setService_pins (s : State) (x : Service) : (s.setService x).pins = s.pins := rfl
@[simp] theorem State.setService_line (s : State) (x : Service) : (s.setService x).line = s.line := rfl
@[simp] theorem State.setService_table (s : State) (x : Service) : (s.setService x).table = s.table := rfl
@[simp] theorem State.setService_slot (s : State) (x : Service) : (s.setService x).slot = s.slot := rfl
@[simp] theorem State.setService_trackSeq (s : State) (x : Service) : (s.setService x).trackSeq = s.trackSeq := rfl
@[simp] theorem State.setService_zone (s : State) (x : Service) : (s.setService x).zone = s.zone := rfl
@[simp] theorem State.setService_store (s : State) (x : Service) : (s.setService x).store = s.store := rfl
@[simp] theorem State.setService_reader (s : State) (x : Service) : (s.setService x).reader = s.reader := rfl
@[simp] theorem State.setService_weigh (s : State) (x : Service) : (s.setService x).weigh = s.weigh := rfl
@[simp] theorem State.setService_prof (s : State) (x : Service) : (s.setService x).prof = s.prof := rfl
@[simp] theorem State.setService_eval (s : State) (x : Service) : (s.setService x).eval = s.eval := rfl
@[simp] theorem State.setService_wrap (s : State) (x : Service) : (s.setService x).wrap = s.wrap := rfl
@[simp] theorem State.setService_label (s : State) (x : Service) : (s.setService x).label = s.label := rfl
@[simp] theorem State.setService_route (s : State) (x : Service) : (s.setService x).route = s.route := rfl
@[simp] theorem State.setService_free (s : State) (x : Service) : (s.setService x).free = s.free := rfl
@[simp] theorem State.setService_twice (s : State) (x y : Service) : (s.setService x).setService y = s.setService y := rfl
@[simp] theorem State.setService_same (s : State) : s.setService s.service = s := rfl

/-! ### setCfg -/

@[simp] theorem State.setCfg_pending (s : State) (x : Loaded) : (s.setCfg x).pending = s.pending := rfl
@[simp] theorem State.setCfg_service (s : State) (x : Loaded) : (s.setCfg x).service = s.service := rfl
@[simp] theorem State.setCfg_cfg (s : State) (x : Loaded) : (s.setCfg x).cfg = x := rfl
@[simp] theorem State.setCfg_pins (s : State) (x : Loaded) : (s.setCfg x).pins = s.pins := rfl
@[simp] theorem State.setCfg_line (s : State) (x : Loaded) : (s.setCfg x).line = s.line := rfl
@[simp] theorem State.setCfg_table (s : State) (x : Loaded) : (s.setCfg x).table = s.table := rfl
@[simp] theorem State.setCfg_slot (s : State) (x : Loaded) : (s.setCfg x).slot = s.slot := rfl
@[simp] theorem State.setCfg_trackSeq (s : State) (x : Loaded) : (s.setCfg x).trackSeq = s.trackSeq := rfl
@[simp] theorem State.setCfg_zone (s : State) (x : Loaded) : (s.setCfg x).zone = s.zone := rfl
@[simp] theorem State.setCfg_store (s : State) (x : Loaded) : (s.setCfg x).store = s.store := rfl
@[simp] theorem State.setCfg_reader (s : State) (x : Loaded) : (s.setCfg x).reader = s.reader := rfl
@[simp] theorem State.setCfg_weigh (s : State) (x : Loaded) : (s.setCfg x).weigh = s.weigh := rfl
@[simp] theorem State.setCfg_prof (s : State) (x : Loaded) : (s.setCfg x).prof = s.prof := rfl
@[simp] theorem State.setCfg_eval (s : State) (x : Loaded) : (s.setCfg x).eval = s.eval := rfl
@[simp] theorem State.setCfg_wrap (s : State) (x : Loaded) : (s.setCfg x).wrap = s.wrap := rfl
@[simp] theorem State.setCfg_label (s : State) (x : Loaded) : (s.setCfg x).label = s.label := rfl
@[simp] theorem State.setCfg_route (s : State) (x : Loaded) : (s.setCfg x).route = s.route := rfl
@[simp] theorem State.setCfg_free (s : State) (x : Loaded) : (s.setCfg x).free = s.free := rfl
@[simp] theorem State.setCfg_twice (s : State) (x y : Loaded) : (s.setCfg x).setCfg y = s.setCfg y := rfl
@[simp] theorem State.setCfg_same (s : State) : s.setCfg s.cfg = s := rfl

/-! ### setPins -/

@[simp] theorem State.setPins_pending (s : State) (x : Pins) : (s.setPins x).pending = s.pending := rfl
@[simp] theorem State.setPins_service (s : State) (x : Pins) : (s.setPins x).service = s.service := rfl
@[simp] theorem State.setPins_cfg (s : State) (x : Pins) : (s.setPins x).cfg = s.cfg := rfl
@[simp] theorem State.setPins_pins (s : State) (x : Pins) : (s.setPins x).pins = x := rfl
@[simp] theorem State.setPins_line (s : State) (x : Pins) : (s.setPins x).line = s.line := rfl
@[simp] theorem State.setPins_table (s : State) (x : Pins) : (s.setPins x).table = s.table := rfl
@[simp] theorem State.setPins_slot (s : State) (x : Pins) : (s.setPins x).slot = s.slot := rfl
@[simp] theorem State.setPins_trackSeq (s : State) (x : Pins) : (s.setPins x).trackSeq = s.trackSeq := rfl
@[simp] theorem State.setPins_zone (s : State) (x : Pins) : (s.setPins x).zone = s.zone := rfl
@[simp] theorem State.setPins_store (s : State) (x : Pins) : (s.setPins x).store = s.store := rfl
@[simp] theorem State.setPins_reader (s : State) (x : Pins) : (s.setPins x).reader = s.reader := rfl
@[simp] theorem State.setPins_weigh (s : State) (x : Pins) : (s.setPins x).weigh = s.weigh := rfl
@[simp] theorem State.setPins_prof (s : State) (x : Pins) : (s.setPins x).prof = s.prof := rfl
@[simp] theorem State.setPins_eval (s : State) (x : Pins) : (s.setPins x).eval = s.eval := rfl
@[simp] theorem State.setPins_wrap (s : State) (x : Pins) : (s.setPins x).wrap = s.wrap := rfl
@[simp] theorem State.setPins_label (s : State) (x : Pins) : (s.setPins x).label = s.label := rfl
@[simp] theorem State.setPins_route (s : State) (x : Pins) : (s.setPins x).route = s.route := rfl
@[simp] theorem State.setPins_free (s : State) (x : Pins) : (s.setPins x).free = s.free := rfl
@[simp] theorem State.setPins_twice (s : State) (x y : Pins) : (s.setPins x).setPins y = s.setPins y := rfl
@[simp] theorem State.setPins_same (s : State) : s.setPins s.pins = s := rfl

/-! ### setLine -/

@[simp] theorem State.setLine_pending (s : State) (x : LineCtl) : (s.setLine x).pending = s.pending := rfl
@[simp] theorem State.setLine_service (s : State) (x : LineCtl) : (s.setLine x).service = s.service := rfl
@[simp] theorem State.setLine_cfg (s : State) (x : LineCtl) : (s.setLine x).cfg = s.cfg := rfl
@[simp] theorem State.setLine_pins (s : State) (x : LineCtl) : (s.setLine x).pins = s.pins := rfl
@[simp] theorem State.setLine_line (s : State) (x : LineCtl) : (s.setLine x).line = x := rfl
@[simp] theorem State.setLine_table (s : State) (x : LineCtl) : (s.setLine x).table = s.table := rfl
@[simp] theorem State.setLine_slot (s : State) (x : LineCtl) : (s.setLine x).slot = s.slot := rfl
@[simp] theorem State.setLine_trackSeq (s : State) (x : LineCtl) : (s.setLine x).trackSeq = s.trackSeq := rfl
@[simp] theorem State.setLine_zone (s : State) (x : LineCtl) : (s.setLine x).zone = s.zone := rfl
@[simp] theorem State.setLine_store (s : State) (x : LineCtl) : (s.setLine x).store = s.store := rfl
@[simp] theorem State.setLine_reader (s : State) (x : LineCtl) : (s.setLine x).reader = s.reader := rfl
@[simp] theorem State.setLine_weigh (s : State) (x : LineCtl) : (s.setLine x).weigh = s.weigh := rfl
@[simp] theorem State.setLine_prof (s : State) (x : LineCtl) : (s.setLine x).prof = s.prof := rfl
@[simp] theorem State.setLine_eval (s : State) (x : LineCtl) : (s.setLine x).eval = s.eval := rfl
@[simp] theorem State.setLine_wrap (s : State) (x : LineCtl) : (s.setLine x).wrap = s.wrap := rfl
@[simp] theorem State.setLine_label (s : State) (x : LineCtl) : (s.setLine x).label = s.label := rfl
@[simp] theorem State.setLine_route (s : State) (x : LineCtl) : (s.setLine x).route = s.route := rfl
@[simp] theorem State.setLine_free (s : State) (x : LineCtl) : (s.setLine x).free = s.free := rfl
@[simp] theorem State.setLine_twice (s : State) (x y : LineCtl) : (s.setLine x).setLine y = s.setLine y := rfl
@[simp] theorem State.setLine_same (s : State) : s.setLine s.line = s := rfl

/-! ### setTable -/

@[simp] theorem State.setTable_pending (s : State) (x : List Entry) : (s.setTable x).pending = s.pending := rfl
@[simp] theorem State.setTable_service (s : State) (x : List Entry) : (s.setTable x).service = s.service := rfl
@[simp] theorem State.setTable_cfg (s : State) (x : List Entry) : (s.setTable x).cfg = s.cfg := rfl
@[simp] theorem State.setTable_pins (s : State) (x : List Entry) : (s.setTable x).pins = s.pins := rfl
@[simp] theorem State.setTable_line (s : State) (x : List Entry) : (s.setTable x).line = s.line := rfl
@[simp] theorem State.setTable_table (s : State) (x : List Entry) : (s.setTable x).table = x := rfl
@[simp] theorem State.setTable_slot (s : State) (x : List Entry) : (s.setTable x).slot = s.slot := rfl
@[simp] theorem State.setTable_trackSeq (s : State) (x : List Entry) : (s.setTable x).trackSeq = s.trackSeq := rfl
@[simp] theorem State.setTable_zone (s : State) (x : List Entry) : (s.setTable x).zone = s.zone := rfl
@[simp] theorem State.setTable_store (s : State) (x : List Entry) : (s.setTable x).store = s.store := rfl
@[simp] theorem State.setTable_reader (s : State) (x : List Entry) : (s.setTable x).reader = s.reader := rfl
@[simp] theorem State.setTable_weigh (s : State) (x : List Entry) : (s.setTable x).weigh = s.weigh := rfl
@[simp] theorem State.setTable_prof (s : State) (x : List Entry) : (s.setTable x).prof = s.prof := rfl
@[simp] theorem State.setTable_eval (s : State) (x : List Entry) : (s.setTable x).eval = s.eval := rfl
@[simp] theorem State.setTable_wrap (s : State) (x : List Entry) : (s.setTable x).wrap = s.wrap := rfl
@[simp] theorem State.setTable_label (s : State) (x : List Entry) : (s.setTable x).label = s.label := rfl
@[simp] theorem State.setTable_route (s : State) (x : List Entry) : (s.setTable x).route = s.route := rfl
@[simp] theorem State.setTable_free (s : State) (x : List Entry) : (s.setTable x).free = s.free := rfl
@[simp] theorem State.setTable_twice (s : State) (x y : List Entry) : (s.setTable x).setTable y = s.setTable y := rfl
@[simp] theorem State.setTable_same (s : State) : s.setTable s.table = s := rfl

/-! ### setSlot -/

@[simp] theorem State.setSlot_pending (s : State) (x : Option TravelRecord) : (s.setSlot x).pending = s.pending := rfl
@[simp] theorem State.setSlot_service (s : State) (x : Option TravelRecord) : (s.setSlot x).service = s.service := rfl
@[simp] theorem State.setSlot_cfg (s : State) (x : Option TravelRecord) : (s.setSlot x).cfg = s.cfg := rfl
@[simp] theorem State.setSlot_pins (s : State) (x : Option TravelRecord) : (s.setSlot x).pins = s.pins := rfl
@[simp] theorem State.setSlot_line (s : State) (x : Option TravelRecord) : (s.setSlot x).line = s.line := rfl
@[simp] theorem State.setSlot_table (s : State) (x : Option TravelRecord) : (s.setSlot x).table = s.table := rfl
@[simp] theorem State.setSlot_slot (s : State) (x : Option TravelRecord) : (s.setSlot x).slot = x := rfl
@[simp] theorem State.setSlot_trackSeq (s : State) (x : Option TravelRecord) : (s.setSlot x).trackSeq = s.trackSeq := rfl
@[simp] theorem State.setSlot_zone (s : State) (x : Option TravelRecord) : (s.setSlot x).zone = s.zone := rfl
@[simp] theorem State.setSlot_store (s : State) (x : Option TravelRecord) : (s.setSlot x).store = s.store := rfl
@[simp] theorem State.setSlot_reader (s : State) (x : Option TravelRecord) : (s.setSlot x).reader = s.reader := rfl
@[simp] theorem State.setSlot_weigh (s : State) (x : Option TravelRecord) : (s.setSlot x).weigh = s.weigh := rfl
@[simp] theorem State.setSlot_prof (s : State) (x : Option TravelRecord) : (s.setSlot x).prof = s.prof := rfl
@[simp] theorem State.setSlot_eval (s : State) (x : Option TravelRecord) : (s.setSlot x).eval = s.eval := rfl
@[simp] theorem State.setSlot_wrap (s : State) (x : Option TravelRecord) : (s.setSlot x).wrap = s.wrap := rfl
@[simp] theorem State.setSlot_label (s : State) (x : Option TravelRecord) : (s.setSlot x).label = s.label := rfl
@[simp] theorem State.setSlot_route (s : State) (x : Option TravelRecord) : (s.setSlot x).route = s.route := rfl
@[simp] theorem State.setSlot_free (s : State) (x : Option TravelRecord) : (s.setSlot x).free = s.free := rfl
@[simp] theorem State.setSlot_twice (s : State) (x y : Option TravelRecord) : (s.setSlot x).setSlot y = s.setSlot y := rfl
@[simp] theorem State.setSlot_same (s : State) : s.setSlot s.slot = s := rfl

/-! ### setTrackSeq -/

@[simp] theorem State.setTrackSeq_pending (s : State) (x : Nat) : (s.setTrackSeq x).pending = s.pending := rfl
@[simp] theorem State.setTrackSeq_service (s : State) (x : Nat) : (s.setTrackSeq x).service = s.service := rfl
@[simp] theorem State.setTrackSeq_cfg (s : State) (x : Nat) : (s.setTrackSeq x).cfg = s.cfg := rfl
@[simp] theorem State.setTrackSeq_pins (s : State) (x : Nat) : (s.setTrackSeq x).pins = s.pins := rfl
@[simp] theorem State.setTrackSeq_line (s : State) (x : Nat) : (s.setTrackSeq x).line = s.line := rfl
@[simp] theorem State.setTrackSeq_table (s : State) (x : Nat) : (s.setTrackSeq x).table = s.table := rfl
@[simp] theorem State.setTrackSeq_slot (s : State) (x : Nat) : (s.setTrackSeq x).slot = s.slot := rfl
@[simp] theorem State.setTrackSeq_trackSeq (s : State) (x : Nat) : (s.setTrackSeq x).trackSeq = x := rfl
@[simp] theorem State.setTrackSeq_zone (s : State) (x : Nat) : (s.setTrackSeq x).zone = s.zone := rfl
@[simp] theorem State.setTrackSeq_store (s : State) (x : Nat) : (s.setTrackSeq x).store = s.store := rfl
@[simp] theorem State.setTrackSeq_reader (s : State) (x : Nat) : (s.setTrackSeq x).reader = s.reader := rfl
@[simp] theorem State.setTrackSeq_weigh (s : State) (x : Nat) : (s.setTrackSeq x).weigh = s.weigh := rfl
@[simp] theorem State.setTrackSeq_prof (s : State) (x : Nat) : (s.setTrackSeq x).prof = s.prof := rfl
@[simp] theorem State.setTrackSeq_eval (s : State) (x : Nat) : (s.setTrackSeq x).eval = s.eval := rfl
@[simp] theorem State.setTrackSeq_wrap (s : State) (x : Nat) : (s.setTrackSeq x).wrap = s.wrap := rfl
@[simp] theorem State.setTrackSeq_label (s : State) (x : Nat) : (s.setTrackSeq x).label = s.label := rfl
@[simp] theorem State.setTrackSeq_route (s : State) (x : Nat) : (s.setTrackSeq x).route = s.route := rfl
@[simp] theorem State.setTrackSeq_free (s : State) (x : Nat) : (s.setTrackSeq x).free = s.free := rfl
@[simp] theorem State.setTrackSeq_twice (s : State) (x y : Nat) : (s.setTrackSeq x).setTrackSeq y = s.setTrackSeq y := rfl
@[simp] theorem State.setTrackSeq_same (s : State) : s.setTrackSeq s.trackSeq = s := rfl

/-! ### setZone -/

@[simp] theorem State.setZone_pending (s : State) (x : ZoneCtl) : (s.setZone x).pending = s.pending := rfl
@[simp] theorem State.setZone_service (s : State) (x : ZoneCtl) : (s.setZone x).service = s.service := rfl
@[simp] theorem State.setZone_cfg (s : State) (x : ZoneCtl) : (s.setZone x).cfg = s.cfg := rfl
@[simp] theorem State.setZone_pins (s : State) (x : ZoneCtl) : (s.setZone x).pins = s.pins := rfl
@[simp] theorem State.setZone_line (s : State) (x : ZoneCtl) : (s.setZone x).line = s.line := rfl
@[simp] theorem State.setZone_table (s : State) (x : ZoneCtl) : (s.setZone x).table = s.table := rfl
@[simp] theorem State.setZone_slot (s : State) (x : ZoneCtl) : (s.setZone x).slot = s.slot := rfl
@[simp] theorem State.setZone_trackSeq (s : State) (x : ZoneCtl) : (s.setZone x).trackSeq = s.trackSeq := rfl
@[simp] theorem State.setZone_zone (s : State) (x : ZoneCtl) : (s.setZone x).zone = x := rfl
@[simp] theorem State.setZone_store (s : State) (x : ZoneCtl) : (s.setZone x).store = s.store := rfl
@[simp] theorem State.setZone_reader (s : State) (x : ZoneCtl) : (s.setZone x).reader = s.reader := rfl
@[simp] theorem State.setZone_weigh (s : State) (x : ZoneCtl) : (s.setZone x).weigh = s.weigh := rfl
@[simp] theorem State.setZone_prof (s : State) (x : ZoneCtl) : (s.setZone x).prof = s.prof := rfl
@[simp] theorem State.setZone_eval (s : State) (x : ZoneCtl) : (s.setZone x).eval = s.eval := rfl
@[simp] theorem State.setZone_wrap (s : State) (x : ZoneCtl) : (s.setZone x).wrap = s.wrap := rfl
@[simp] theorem State.setZone_label (s : State) (x : ZoneCtl) : (s.setZone x).label = s.label := rfl
@[simp] theorem State.setZone_route (s : State) (x : ZoneCtl) : (s.setZone x).route = s.route := rfl
@[simp] theorem State.setZone_free (s : State) (x : ZoneCtl) : (s.setZone x).free = s.free := rfl
@[simp] theorem State.setZone_twice (s : State) (x y : ZoneCtl) : (s.setZone x).setZone y = s.setZone y := rfl
@[simp] theorem State.setZone_same (s : State) : s.setZone s.zone = s := rfl

/-! ### setStore -/

@[simp] theorem State.setStore_pending (s : State) (x : Store) : (s.setStore x).pending = s.pending := rfl
@[simp] theorem State.setStore_service (s : State) (x : Store) : (s.setStore x).service = s.service := rfl
@[simp] theorem State.setStore_cfg (s : State) (x : Store) : (s.setStore x).cfg = s.cfg := rfl
@[simp] theorem State.setStore_pins (s : State) (x : Store) : (s.setStore x).pins = s.pins := rfl
@[simp] theorem State.setStore_line (s : State) (x : Store) : (s.setStore x).line = s.line := rfl
@[simp] theorem State.setStore_table (s : State) (x : Store) : (s.setStore x).table = s.table := rfl
@[simp] theorem State.setStore_slot (s : State) (x : Store) : (s.setStore x).slot = s.slot := rfl
@[simp] theorem State.setStore_trackSeq (s : State) (x : Store) : (s.setStore x).trackSeq = s.trackSeq := rfl
@[simp] theorem State.setStore_zone (s : State) (x : Store) : (s.setStore x).zone = s.zone := rfl
@[simp] theorem State.setStore_store (s : State) (x : Store) : (s.setStore x).store = x := rfl
@[simp] theorem State.setStore_reader (s : State) (x : Store) : (s.setStore x).reader = s.reader := rfl
@[simp] theorem State.setStore_weigh (s : State) (x : Store) : (s.setStore x).weigh = s.weigh := rfl
@[simp] theorem State.setStore_prof (s : State) (x : Store) : (s.setStore x).prof = s.prof := rfl
@[simp] theorem State.setStore_eval (s : State) (x : Store) : (s.setStore x).eval = s.eval := rfl
@[simp] theorem State.setStore_wrap (s : State) (x : Store) : (s.setStore x).wrap = s.wrap := rfl
@[simp] theorem State.setStore_label (s : State) (x : Store) : (s.setStore x).label = s.label := rfl
@[simp] theorem State.setStore_route (s : State) (x : Store) : (s.setStore x).route = s.route := rfl
@[simp] theorem State.setStore_free (s : State) (x : Store) : (s.setStore x).free = s.free := rfl
@[simp] theorem State.setStore_twice (s : State) (x y : Store) : (s.setStore x).setStore y = s.setStore y := rfl
@[simp] theorem State.setStore_same (s : State) : s.setStore s.store = s := rfl

/-! ### setReader -/

@[simp] theorem State.setReader_pending (s : State) (x : Reader) : (s.setReader x).pending = s.pending := rfl
@[simp] theorem State.setReader_service (s : State) (x : Reader) : (s.setReader x).service = s.service := rfl
@[simp] theorem State.setReader_cfg (s : State) (x : Reader) : (s.setReader x).cfg = s.cfg := rfl
@[simp] theorem State.setReader_pins (s : State) (x : Reader) : (s.setReader x).pins = s.pins := rfl
@[simp] theorem State.setReader_line (s : State) (x : Reader) : (s.setReader x).line = s.line := rfl
@[simp] theorem State.setReader_table (s : State) (x : Reader) : (s.setReader x).table = s.table := rfl
@[simp] theorem State.setReader_slot (s : State) (x : Reader) : (s.setReader x).slot = s.slot := rfl
@[simp] theorem State.setReader_trackSeq (s : State) (x : Reader) : (s.setReader x).trackSeq = s.trackSeq := rfl
@[simp] theorem State.setReader_zone (s : State) (x : Reader) : (s.setReader x).zone = s.zone := rfl
@[simp] theorem State.setReader_store (s : State) (x : Reader) : (s.setReader x).store = s.store := rfl
@[simp] theorem State.setReader_reader (s : State) (x : Reader) : (s.setReader x).reader = x := rfl
@[simp] theorem State.setReader_weigh (s : State) (x : Reader) : (s.setReader x).weigh = s.weigh := rfl
@[simp] theorem State.setReader_prof (s : State) (x : Reader) : (s.setReader x).prof = s.prof := rfl
@[simp] theorem State.setReader_eval (s : State) (x : Reader) : (s.setReader x).eval = s.eval := rfl
@[simp] theorem State.setReader_wrap (s : State) (x : Reader) : (s.setReader x).wrap = s.wrap := rfl
@[simp] theorem State.setReader_label (s : State) (x : Reader) : (s.setReader x).label = s.label := rfl
@[simp] theorem State.setReader_route (s : State) (x : Reader) : (s.setReader x).route = s.route := rfl
@[simp] theorem State.setReader_free (s : State) (x : Reader) : (s.setReader x).free = s.free := rfl
@[simp] theorem State.setReader_twice (s : State) (x y : Reader) : (s.setReader x).setReader y = s.setReader y := rfl
@[simp] theorem State.setReader_same (s : State) : s.setReader s.reader = s := rfl

/-! ### setWeigh -/

@[simp] theorem State.setWeigh_pending (s : State) (x : Weigh) : (s.setWeigh x).pending = s.pending := rfl
@[simp] theorem State.setWeigh_service (s : State) (x : Weigh) : (s.setWeigh x).service = s.service := rfl
@[simp] theorem State.setWeigh_cfg (s : State) (x : Weigh) : (s.setWeigh x).cfg = s.cfg := rfl
@[simp] theorem State.setWeigh_pins (s : State) (x : Weigh) : (s.setWeigh x).pins = s.pins := rfl
@[simp] theorem State.setWeigh_line (s : State) (x : Weigh) : (s.setWeigh x).line = s.line := rfl
@[simp] theorem State.setWeigh_table (s : State) (x : Weigh) : (s.setWeigh x).table = s.table := rfl
@[simp] theorem State.setWeigh_slot (s : State) (x : Weigh) : (s.setWeigh x).slot = s.slot := rfl
@[simp] theorem State.setWeigh_trackSeq (s : State) (x : Weigh) : (s.setWeigh x).trackSeq = s.trackSeq := rfl
@[simp] theorem State.setWeigh_zone (s : State) (x : Weigh) : (s.setWeigh x).zone = s.zone := rfl
@[simp] theorem State.setWeigh_store (s : State) (x : Weigh) : (s.setWeigh x).store = s.store := rfl
@[simp] theorem State.setWeigh_reader (s : State) (x : Weigh) : (s.setWeigh x).reader = s.reader := rfl
@[simp] theorem State.setWeigh_weigh (s : State) (x : Weigh) : (s.setWeigh x).weigh = x := rfl
@[simp] theorem State.setWeigh_prof (s : State) (x : Weigh) : (s.setWeigh x).prof = s.prof := rfl
@[simp] theorem State.setWeigh_eval (s : State) (x : Weigh) : (s.setWeigh x).eval = s.eval := rfl
@[simp] theorem State.setWeigh_wrap (s : State) (x : Weigh) : (s.setWeigh x).wrap = s.wrap := rfl
@[simp] theorem State.setWeigh_label (s : State) (x : Weigh) : (s.setWeigh x).label = s.label := rfl
@[simp] theorem State.setWeigh_route (s : State) (x : Weigh) : (s.setWeigh x).route = s.route := rfl
@[simp] theorem State.setWeigh_free (s : State) (x : Weigh) : (s.setWeigh x).free = s.free := rfl
@[simp] theorem State.setWeigh_twice (s : State) (x y : Weigh) : (s.setWeigh x).setWeigh y = s.setWeigh y := rfl
@[simp] theorem State.setWeigh_same (s : State) : s.setWeigh s.weigh = s := rfl

/-! ### setProf -/

@[simp] theorem State.setProf_pending (s : State) (x : Profile) : (s.setProf x).pending = s.pending := rfl
@[simp] theorem State.setProf_service (s : State) (x : Profile) : (s.setProf x).service = s.service := rfl
@[simp] theorem State.setProf_cfg (s : State) (x : Profile) : (s.setProf x).cfg = s.cfg := rfl
@[simp] theorem State.setProf_pins (s : State) (x : Profile) : (s.setProf x).pins = s.pins := rfl
@[simp] theorem State.setProf_line (s : State) (x : Profile) : (s.setProf x).line = s.line := rfl
@[simp] theorem State.setProf_table (s : State) (x : Profile) : (s.setProf x).table = s.table := rfl
@[simp] theorem State.setProf_slot (s : State) (x : Profile) : (s.setProf x).slot = s.slot := rfl
@[simp] theorem State.setProf_trackSeq (s : State) (x : Profile) : (s.setProf x).trackSeq = s.trackSeq := rfl
@[simp] theorem State.setProf_zone (s : State) (x : Profile) : (s.setProf x).zone = s.zone := rfl
@[simp] theorem State.setProf_store (s : State) (x : Profile) : (s.setProf x).store = s.store := rfl
@[simp] theorem State.setProf_reader (s : State) (x : Profile) : (s.setProf x).reader = s.reader := rfl
@[simp] theorem State.setProf_weigh (s : State) (x : Profile) : (s.setProf x).weigh = s.weigh := rfl
@[simp] theorem State.setProf_prof (s : State) (x : Profile) : (s.setProf x).prof = x := rfl
@[simp] theorem State.setProf_eval (s : State) (x : Profile) : (s.setProf x).eval = s.eval := rfl
@[simp] theorem State.setProf_wrap (s : State) (x : Profile) : (s.setProf x).wrap = s.wrap := rfl
@[simp] theorem State.setProf_label (s : State) (x : Profile) : (s.setProf x).label = s.label := rfl
@[simp] theorem State.setProf_route (s : State) (x : Profile) : (s.setProf x).route = s.route := rfl
@[simp] theorem State.setProf_free (s : State) (x : Profile) : (s.setProf x).free = s.free := rfl
@[simp] theorem State.setProf_twice (s : State) (x y : Profile) : (s.setProf x).setProf y = s.setProf y := rfl
@[simp] theorem State.setProf_same (s : State) : s.setProf s.prof = s := rfl

/-! ### setEval -/

@[simp] theorem State.setEval_pending (s : State) (x : Option Evaluation) : (s.setEval x).pending = s.pending := rfl
@[simp] theorem State.setEval_service (s : State) (x : Option Evaluation) : (s.setEval x).service = s.service := rfl
@[simp] theorem State.setEval_cfg (s : State) (x : Option Evaluation) : (s.setEval x).cfg = s.cfg := rfl
@[simp] theorem State.setEval_pins (s : State) (x : Option Evaluation) : (s.setEval x).pins = s.pins := rfl
@[simp] theorem State.setEval_line (s : State) (x : Option Evaluation) : (s.setEval x).line = s.line := rfl
@[simp] theorem State.setEval_table (s : State) (x : Option Evaluation) : (s.setEval x).table = s.table := rfl
@[simp] theorem State.setEval_slot (s : State) (x : Option Evaluation) : (s.setEval x).slot = s.slot := rfl
@[simp] theorem State.setEval_trackSeq (s : State) (x : Option Evaluation) : (s.setEval x).trackSeq = s.trackSeq := rfl
@[simp] theorem State.setEval_zone (s : State) (x : Option Evaluation) : (s.setEval x).zone = s.zone := rfl
@[simp] theorem State.setEval_store (s : State) (x : Option Evaluation) : (s.setEval x).store = s.store := rfl
@[simp] theorem State.setEval_reader (s : State) (x : Option Evaluation) : (s.setEval x).reader = s.reader := rfl
@[simp] theorem State.setEval_weigh (s : State) (x : Option Evaluation) : (s.setEval x).weigh = s.weigh := rfl
@[simp] theorem State.setEval_prof (s : State) (x : Option Evaluation) : (s.setEval x).prof = s.prof := rfl
@[simp] theorem State.setEval_eval (s : State) (x : Option Evaluation) : (s.setEval x).eval = x := rfl
@[simp] theorem State.setEval_wrap (s : State) (x : Option Evaluation) : (s.setEval x).wrap = s.wrap := rfl
@[simp] theorem State.setEval_label (s : State) (x : Option Evaluation) : (s.setEval x).label = s.label := rfl
@[simp] theorem State.setEval_route (s : State) (x : Option Evaluation) : (s.setEval x).route = s.route := rfl
@[simp] theorem State.setEval_free (s : State) (x : Option Evaluation) : (s.setEval x).free = s.free := rfl
@[simp] theorem State.setEval_twice (s : State) (x y : Option Evaluation) : (s.setEval x).setEval y = s.setEval y := rfl
@[simp] theorem State.setEval_same (s : State) : s.setEval s.eval = s := rfl

/-! ### setWrap -/

@[simp] theorem State.setWrap_pending (s : State) (x : WrapSeq) : (s.setWrap x).pending = s.pending := rfl
@[simp] theorem State.setWrap_service (s : State) (x : WrapSeq) : (s.setWrap x).service = s.service := rfl
@[simp] theorem State.setWrap_cfg (s : State) (x : WrapSeq) : (s.setWrap x).cfg = s.cfg := rfl
@[simp] theorem State.setWrap_pins (s : State) (x : WrapSeq) : (s.setWrap x).pins = s.pins := rfl
@[simp] theorem State.setWrap_line (s : State) (x : WrapSeq) : (s.setWrap x).line = s.line := rfl
@[simp] theorem State.setWrap_table (s : State) (x : WrapSeq) : (s.setWrap x).table = s.table := rfl
@[simp] theorem State.setWrap_slot (s : State) (x : WrapSeq) : (s.setWrap x).slot = s.slot := rfl
@[simp] theorem State.setWrap_trackSeq (s : State) (x : WrapSeq) : (s.setWrap x).trackSeq = s.trackSeq := rfl
@[simp] theorem State.setWrap_zone (s : State) (x : WrapSeq) : (s.setWrap x).zone = s.zone := rfl
@[simp] theorem State.setWrap_store (s : State) (x : WrapSeq) : (s.setWrap x).store = s.store := rfl
@[simp] theorem State.setWrap_reader (s : State) (x : WrapSeq) : (s.setWrap x).reader = s.reader := rfl
@[simp] theorem State.setWrap_weigh (s : State) (x : WrapSeq) : (s.setWrap x).weigh = s.weigh := rfl
@[simp] theorem State.setWrap_prof (s : State) (x : WrapSeq) : (s.setWrap x).prof = s.prof := rfl
@[simp] theorem State.setWrap_eval (s : State) (x : WrapSeq) : (s.setWrap x).eval = s.eval := rfl
@[simp] theorem State.setWrap_wrap (s : State) (x : WrapSeq) : (s.setWrap x).wrap = x := rfl
@[simp] theorem State.setWrap_label (s : State) (x : WrapSeq) : (s.setWrap x).label = s.label := rfl
@[simp] theorem State.setWrap_route (s : State) (x : WrapSeq) : (s.setWrap x).route = s.route := rfl
@[simp] theorem State.setWrap_free (s : State) (x : WrapSeq) : (s.setWrap x).free = s.free := rfl
@[simp] theorem State.setWrap_twice (s : State) (x y : WrapSeq) : (s.setWrap x).setWrap y = s.setWrap y := rfl
@[simp] theorem State.setWrap_same (s : State) : s.setWrap s.wrap = s := rfl

/-! ### setLabel -/

@[simp] theorem State.setLabel_pending (s : State) (x : LabelUnit) : (s.setLabel x).pending = s.pending := rfl
@[simp] theorem State.setLabel_service (s : State) (x : LabelUnit) : (s.setLabel x).service = s.service := rfl
@[simp] theorem State.setLabel_cfg (s : State) (x : LabelUnit) : (s.setLabel x).cfg = s.cfg := rfl
@[simp] theorem State.setLabel_pins (s : State) (x : LabelUnit) : (s.setLabel x).pins = s.pins := rfl
@[simp] theorem State.setLabel_line (s : State) (x : LabelUnit) : (s.setLabel x).line = s.line := rfl
@[simp] theorem State.setLabel_table (s : State) (x : LabelUnit) : (s.setLabel x).table = s.table := rfl
@[simp] theorem State.setLabel_slot (s : State) (x : LabelUnit) : (s.setLabel x).slot = s.slot := rfl
@[simp] theorem State.setLabel_trackSeq (s : State) (x : LabelUnit) : (s.setLabel x).trackSeq = s.trackSeq := rfl
@[simp] theorem State.setLabel_zone (s : State) (x : LabelUnit) : (s.setLabel x).zone = s.zone := rfl
@[simp] theorem State.setLabel_store (s : State) (x : LabelUnit) : (s.setLabel x).store = s.store := rfl
@[simp] theorem State.setLabel_reader (s : State) (x : LabelUnit) : (s.setLabel x).reader = s.reader := rfl
@[simp] theorem State.setLabel_weigh (s : State) (x : LabelUnit) : (s.setLabel x).weigh = s.weigh := rfl
@[simp] theorem State.setLabel_prof (s : State) (x : LabelUnit) : (s.setLabel x).prof = s.prof := rfl
@[simp] theorem State.setLabel_eval (s : State) (x : LabelUnit) : (s.setLabel x).eval = s.eval := rfl
@[simp] theorem State.setLabel_wrap (s : State) (x : LabelUnit) : (s.setLabel x).wrap = s.wrap := rfl
@[simp] theorem State.setLabel_label (s : State) (x : LabelUnit) : (s.setLabel x).label = x := rfl
@[simp] theorem State.setLabel_route (s : State) (x : LabelUnit) : (s.setLabel x).route = s.route := rfl
@[simp] theorem State.setLabel_free (s : State) (x : LabelUnit) : (s.setLabel x).free = s.free := rfl
@[simp] theorem State.setLabel_twice (s : State) (x y : LabelUnit) : (s.setLabel x).setLabel y = s.setLabel y := rfl
@[simp] theorem State.setLabel_same (s : State) : s.setLabel s.label = s := rfl

/-! ### setRoute -/

@[simp] theorem State.setRoute_pending (s : State) (x : Route) : (s.setRoute x).pending = s.pending := rfl
@[simp] theorem State.setRoute_service (s : State) (x : Route) : (s.setRoute x).service = s.service := rfl
@[simp] theorem State.setRoute_cfg (s : State) (x : Route) : (s.setRoute x).cfg = s.cfg := rfl
@[simp] theorem State.setRoute_pins (s : State) (x : Route) : (s.setRoute x).pins = s.pins := rfl
@[simp] theorem State.setRoute_line (s : State) (x : Route) : (s.setRoute x).line = s.line := rfl
@[simp] theorem State.setRoute_table (s : State) (x : Route) : (s.setRoute x).table = s.table := rfl
@[simp] theorem State.setRoute_slot (s : State) (x : Route) : (s.setRoute x).slot = s.slot := rfl
@[simp] theorem State.setRoute_trackSeq (s : State) (x : Route) : (s.setRoute x).trackSeq = s.trackSeq := rfl
@[simp] theorem State.setRoute_zone (s : State) (x : Route) : (s.setRoute x).zone = s.zone := rfl
@[simp] theorem State.setRoute_store (s : State) (x : Route) : (s.setRoute x).store = s.store := rfl
@[simp] theorem State.setRoute_reader (s : State) (x : Route) : (s.setRoute x).reader = s.reader := rfl
@[simp] theorem State.setRoute_weigh (s : State) (x : Route) : (s.setRoute x).weigh = s.weigh := rfl
@[simp] theorem State.setRoute_prof (s : State) (x : Route) : (s.setRoute x).prof = s.prof := rfl
@[simp] theorem State.setRoute_eval (s : State) (x : Route) : (s.setRoute x).eval = s.eval := rfl
@[simp] theorem State.setRoute_wrap (s : State) (x : Route) : (s.setRoute x).wrap = s.wrap := rfl
@[simp] theorem State.setRoute_label (s : State) (x : Route) : (s.setRoute x).label = s.label := rfl
@[simp] theorem State.setRoute_route (s : State) (x : Route) : (s.setRoute x).route = x := rfl
@[simp] theorem State.setRoute_free (s : State) (x : Route) : (s.setRoute x).free = s.free := rfl
@[simp] theorem State.setRoute_twice (s : State) (x y : Route) : (s.setRoute x).setRoute y = s.setRoute y := rfl
@[simp] theorem State.setRoute_same (s : State) : s.setRoute s.route = s := rfl

/-! ### setFree -/

@[simp] theorem State.setFree_pending (s : State) (x : Nat) : (s.setFree x).pending = s.pending := rfl
@[simp] theorem State.setFree_service (s : State) (x : Nat) : (s.setFree x).service = s.service := rfl
@[simp] theorem State.setFree_cfg (s : State) (x : Nat) : (s.setFree x).cfg = s.cfg := rfl
@[simp] theorem State.setFree_pins (s : State) (x : Nat) : (s.setFree x).pins = s.pins := rfl
@[simp] theorem State.setFree_line (s : State) (x : Nat) : (s.setFree x).line = s.line := rfl
@[simp] theorem State.setFree_table (s : State) (x : Nat) : (s.setFree x).table = s.table := rfl
@[simp] theorem State.setFree_slot (s : State) (x : Nat) : (s.setFree x).slot = s.slot := rfl
@[simp] theorem State.setFree_trackSeq (s : State) (x : Nat) : (s.setFree x).trackSeq = s.trackSeq := rfl
@[simp] theorem State.setFree_zone (s : State) (x : Nat) : (s.setFree x).zone = s.zone := rfl
@[simp] theorem State.setFree_store (s : State) (x : Nat) : (s.setFree x).store = s.store := rfl
@[simp] theorem State.setFree_reader (s : State) (x : Nat) : (s.setFree x).reader = s.reader := rfl
@[simp] theorem State.setFree_weigh (s : State) (x : Nat) : (s.setFree x).weigh = s.weigh := rfl
@[simp] theorem State.setFree_prof (s : State) (x : Nat) : (s.setFree x).prof = s.prof := rfl
@[simp] theorem State.setFree_eval (s : State) (x : Nat) : (s.setFree x).eval = s.eval := rfl
@[simp] theorem State.setFree_wrap (s : State) (x : Nat) : (s.setFree x).wrap = s.wrap := rfl
@[simp] theorem State.setFree_label (s : State) (x : Nat) : (s.setFree x).label = s.label := rfl
@[simp] theorem State.setFree_route (s : State) (x : Nat) : (s.setFree x).route = s.route := rfl
@[simp] theorem State.setFree_free (s : State) (x : Nat) : (s.setFree x).free = x := rfl
@[simp] theorem State.setFree_twice (s : State) (x y : Nat) : (s.setFree x).setFree y = s.setFree y := rfl
@[simp] theorem State.setFree_same (s : State) : s.setFree s.free = s := rfl

end Sys2Proof.Machine
end

