-- ==== Sys2Proof/Laws/Queue.lean ====
section
/-! SUPPORT. The transmit queue's operations (R59, R60): what each can do, and that it touches the Line
Controller alone; and what bytes after a frame do (R56). -/

namespace Sys2Proof.Machine

/-! ## The queue itself -/

@[simp] theorem insertTx_length (e : TxEntry) (q : List TxEntry) : (insertTx e q).length = q.length + 1 := by
  induction q with
  | nil => rfl
  | cons x rest ih => simp only [insertTx]; split <;> simp [ih]

@[simp] theorem mem_insertTx {e x : TxEntry} {q : List TxEntry} : x ∈ insertTx e q ↔ x = e ∨ x ∈ q := by
  induction q with
  | nil => simp [insertTx]
  | cons y rest ih => simp only [insertTx]; split <;> simp [ih, or_left_comm]

@[simp] theorem replaceOffer_length (f : TxFrame) (q : List TxEntry) : (replaceOffer f q).length = q.length := by
  simp [replaceOffer]

/-- A frame handed to the Line Controller replaces an OFFER for its track, takes a free place, drops the youngest of the
greatest class, or is dropped; the last two set TX_OVERRUN (R59, R60). -/
theorem pushFrame_cases (f : TxFrame) (l : LineCtl) :
    (holdsOffer f l.tx = true ∧ pushFrame f l = { l with tx := replaceOffer f l.tx }) ∨
    (holdsOffer f l.tx = false ∧ l.tx.length < Config.txCapacity ∧
      pushFrame f l = { l with tx := insertTx (freshTx f) l.tx }) ∨
    (holdsOffer f l.tx = false ∧ Config.txCapacity ≤ l.tx.length ∧ txClass f < greatestClass l.tx ∧
      pushFrame f l = markTxOverrun { l with tx := insertTx (freshTx f) (dropYoungest (greatestClass l.tx) l.tx) }) ∨
    (holdsOffer f l.tx = false ∧ Config.txCapacity ≤ l.tx.length ∧ greatestClass l.tx ≤ txClass f ∧
      pushFrame f l = markTxOverrun l) := by
  unfold pushFrame
  split
  · exact .inl ⟨‹_›, rfl⟩
  · rename_i hn
    have hn : holdsOffer f l.tx = false := by simpa using hn
    split
    · exact .inr (.inl ⟨hn, ‹_›, rfl⟩)
    · split
      · exact .inr (.inr (.inl ⟨hn, by omega, ‹_›, rfl⟩))
      · exact .inr (.inr (.inr ⟨hn, by omega, by omega, rfl⟩))

@[simp] theorem pushFrame_rx (f : TxFrame) (l : LineCtl) : (pushFrame f l).rx = l.rx := by
  obtain ⟨-, h⟩ | ⟨-, -, h⟩ | ⟨-, -, -, h⟩ | ⟨-, -, -, h⟩ := pushFrame_cases f l <;> simp [h, markTxOverrun]

@[simp] theorem pushFrame_rxOverrun (f : TxFrame) (l : LineCtl) : (pushFrame f l).rxOverrun = l.rxOverrun := by
  obtain ⟨-, h⟩ | ⟨-, -, h⟩ | ⟨-, -, -, h⟩ | ⟨-, -, -, h⟩ := pushFrame_cases f l <;> simp [h, markTxOverrun]

/-! ## The end of an attempt -/

/-- What an attempt counted sent leaves: the entries not in it, and one that a replacement has stay (R58, R60). -/
theorem mem_keepSent {e : TxEntry} {q : List TxEntry} :
    e ∈ q.filterMap keepSent ↔
      (e ∈ q ∧ e.inAttempt = false) ∨ ∃ x ∈ q, x.inAttempt = true ∧ x.stays = true ∧ e = afterAttempt x := by
  simp only [List.mem_filterMap, keepSent]
  constructor
  · rintro ⟨x, hx, h⟩
    split at h
    · split at h <;> simp_all only [Option.some.injEq, reduceCtorEq]
      exact .inr ⟨x, hx, ‹_›, ‹_›, h.symm⟩
    · simp_all
  · rintro (⟨he, h⟩ | ⟨x, hx, h, hs, rfl⟩)
    · exact ⟨e, he, by simp [h]⟩
    · exact ⟨x, hx, by simp [h, hs]⟩

/-- What an attempt lost or errored leaves: every entry but one withdrawn in it (R58, R59). -/
theorem mem_keepTried {e : TxEntry} {q : List TxEntry} :
    e ∈ q.filterMap keepTried ↔
      (e ∈ q ∧ e.inAttempt = false) ∨ ∃ x ∈ q, x.inAttempt = true ∧ x.withdrawn = false ∧ e = afterAttempt x := by
  simp only [List.mem_filterMap, keepTried]
  constructor
  · rintro ⟨x, hx, h⟩
    split at h
    · split at h <;> simp_all only [Option.some.injEq, reduceCtorEq]
      exact .inr ⟨x, hx, ‹_›, by simp_all, h.symm⟩
    · simp_all
  · rintro (⟨he, h⟩ | ⟨x, hx, h, hs, rfl⟩)
    · exact ⟨e, he, by simp [h]⟩
    · exact ⟨x, hx, by simp [h, hs]⟩

@[simp] theorem afterAttempt_frame (e : TxEntry) : (afterAttempt e).frame = e.frame := rfl
@[simp] theorem afterAttempt_inAttempt (e : TxEntry) : (afterAttempt e).inAttempt = false := rfl
@[simp] theorem afterAttempt_withdrawn (e : TxEntry) : (afterAttempt e).withdrawn = e.withdrawn := rfl
@[simp] theorem afterAttempt_stays (e : TxEntry) : (afterAttempt e).stays = false := rfl

/-! ## queueFrame and notify -/

/-- Queueing changes the Line Controller alone. -/
theorem queueFrame_eq (f : TxFrame) (s : State) : queueFrame f s = s.setLine (queueFrame f s).line := by
  unfold queueFrame; split <;> simp

/-- Where the service state lets the frame be queued, it is pushed; elsewhere nothing happens (R61). -/
theorem queueFrame_line (f : TxFrame) (s : State) :
    (queueFrame f s).line = if mayQueue s f then pushFrame f s.line else s.line := by
  unfold queueFrame; split <;> simp

@[simp] theorem queueFrame_pending (f : TxFrame) (s : State) : (queueFrame f s).pending = s.pending := by rw [queueFrame_eq]; simp
@[simp] theorem queueFrame_service (f : TxFrame) (s : State) : (queueFrame f s).service = s.service := by rw [queueFrame_eq]; simp
@[simp] theorem queueFrame_cfg (f : TxFrame) (s : State) : (queueFrame f s).cfg = s.cfg := by rw [queueFrame_eq]; simp
@[simp] theorem queueFrame_pins (f : TxFrame) (s : State) : (queueFrame f s).pins = s.pins := by rw [queueFrame_eq]; simp
@[simp] theorem queueFrame_table (f : TxFrame) (s : State) : (queueFrame f s).table = s.table := by rw [queueFrame_eq]; simp
@[simp] theorem queueFrame_slot (f : TxFrame) (s : State) : (queueFrame f s).slot = s.slot := by rw [queueFrame_eq]; simp
@[simp] theorem queueFrame_trackSeq (f : TxFrame) (s : State) : (queueFrame f s).trackSeq = s.trackSeq := by rw [queueFrame_eq]; simp
@[simp] theorem queueFrame_zone (f : TxFrame) (s : State) : (queueFrame f s).zone = s.zone := by rw [queueFrame_eq]; simp
@[simp] theorem queueFrame_store (f : TxFrame) (s : State) : (queueFrame f s).store = s.store := by rw [queueFrame_eq]; simp
@[simp] theorem queueFrame_reader (f : TxFrame) (s : State) : (queueFrame f s).reader = s.reader := by rw [queueFrame_eq]; simp
@[simp] theorem queueFrame_weigh (f : TxFrame) (s : State) : (queueFrame f s).weigh = s.weigh := by rw [queueFrame_eq]; simp
@[simp] theorem queueFrame_prof (f : TxFrame) (s : State) : (queueFrame f s).prof = s.prof := by rw [queueFrame_eq]; simp
@[simp] theorem queueFrame_eval (f : TxFrame) (s : State) : (queueFrame f s).eval = s.eval := by rw [queueFrame_eq]; simp
@[simp] theorem queueFrame_wrap (f : TxFrame) (s : State) : (queueFrame f s).wrap = s.wrap := by rw [queueFrame_eq]; simp
@[simp] theorem queueFrame_label (f : TxFrame) (s : State) : (queueFrame f s).label = s.label := by rw [queueFrame_eq]; simp
@[simp] theorem queueFrame_route (f : TxFrame) (s : State) : (queueFrame f s).route = s.route := by rw [queueFrame_eq]; simp
@[simp] theorem queueFrame_free (f : TxFrame) (s : State) : (queueFrame f s).free = s.free := by rw [queueFrame_eq]; simp
@[simp] theorem queueFrame_rx (f : TxFrame) (s : State) : (queueFrame f s).line.rx = s.line.rx := by
  rw [queueFrame_line]; split <;> simp

/-- A NOTICE is queued like any frame (R69). -/
theorem notify_eq (n : Notice) (s : State) : notify n s = s.setLine (notify n s).line := queueFrame_eq _ s

@[simp] theorem notify_pending (n : Notice) (s : State) : (notify n s).pending = s.pending := by simp [notify]
@[simp] theorem notify_service (n : Notice) (s : State) : (notify n s).service = s.service := by simp [notify]
@[simp] theorem notify_cfg (n : Notice) (s : State) : (notify n s).cfg = s.cfg := by simp [notify]
@[simp] theorem notify_pins (n : Notice) (s : State) : (notify n s).pins = s.pins := by simp [notify]
@[simp] theorem notify_table (n : Notice) (s : State) : (notify n s).table = s.table := by simp [notify]
@[simp] theorem notify_slot (n : Notice) (s : State) : (notify n s).slot = s.slot := by simp [notify]
@[simp] theorem notify_trackSeq (n : Notice) (s : State) : (notify n s).trackSeq = s.trackSeq := by simp [notify]
@[simp] theorem notify_zone (n : Notice) (s : State) : (notify n s).zone = s.zone := by simp [notify]
@[simp] theorem notify_store (n : Notice) (s : State) : (notify n s).store = s.store := by simp [notify]
@[simp] theorem notify_reader (n : Notice) (s : State) : (notify n s).reader = s.reader := by simp [notify]
@[simp] theorem notify_weigh (n : Notice) (s : State) : (notify n s).weigh = s.weigh := by simp [notify]
@[simp] theorem notify_prof (n : Notice) (s : State) : (notify n s).prof = s.prof := by simp [notify]
@[simp] theorem notify_eval (n : Notice) (s : State) : (notify n s).eval = s.eval := by simp [notify]
@[simp] theorem notify_wrap (n : Notice) (s : State) : (notify n s).wrap = s.wrap := by simp [notify]
@[simp] theorem notify_label (n : Notice) (s : State) : (notify n s).label = s.label := by simp [notify]
@[simp] theorem notify_route (n : Notice) (s : State) : (notify n s).route = s.route := by simp [notify]
@[simp] theorem notify_free (n : Notice) (s : State) : (notify n s).free = s.free := by simp [notify]
@[simp] theorem notify_rx (n : Notice) (s : State) : (notify n s).line.rx = s.line.rx := by simp [notify]

/-! ## withdrawFrames, endOffering, stopOffering -/

@[simp] theorem withdrawFrames_pending (p : TxFrame → Bool) (s : State) : (withdrawFrames p s).pending = s.pending := by simp [withdrawFrames]
@[simp] theorem withdrawFrames_service (p : TxFrame → Bool) (s : State) : (withdrawFrames p s).service = s.service := by simp [withdrawFrames]
@[simp] theorem withdrawFrames_cfg (p : TxFrame → Bool) (s : State) : (withdrawFrames p s).cfg = s.cfg := by simp [withdrawFrames]
@[simp] theorem withdrawFrames_pins (p : TxFrame → Bool) (s : State) : (withdrawFrames p s).pins = s.pins := by simp [withdrawFrames]
@[simp] theorem withdrawFrames_table (p : TxFrame → Bool) (s : State) : (withdrawFrames p s).table = s.table := by simp [withdrawFrames]
@[simp] theorem withdrawFrames_slot (p : TxFrame → Bool) (s : State) : (withdrawFrames p s).slot = s.slot := by simp [withdrawFrames]
@[simp] theorem withdrawFrames_trackSeq (p : TxFrame → Bool) (s : State) : (withdrawFrames p s).trackSeq = s.trackSeq := by simp [withdrawFrames]
@[simp] theorem withdrawFrames_zone (p : TxFrame → Bool) (s : State) : (withdrawFrames p s).zone = s.zone := by simp [withdrawFrames]
@[simp] theorem withdrawFrames_store (p : TxFrame → Bool) (s : State) : (withdrawFrames p s).store = s.store := by simp [withdrawFrames]
@[simp] theorem withdrawFrames_reader (p : TxFrame → Bool) (s : State) : (withdrawFrames p s).reader = s.reader := by simp [withdrawFrames]
@[simp] theorem withdrawFrames_weigh (p : TxFrame → Bool) (s : State) : (withdrawFrames p s).weigh = s.weigh := by simp [withdrawFrames]
@[simp] theorem withdrawFrames_prof (p : TxFrame → Bool) (s : State) : (withdrawFrames p s).prof = s.prof := by simp [withdrawFrames]
@[simp] theorem withdrawFrames_eval (p : TxFrame → Bool) (s : State) : (withdrawFrames p s).eval = s.eval := by simp [withdrawFrames]
@[simp] theorem withdrawFrames_wrap (p : TxFrame → Bool) (s : State) : (withdrawFrames p s).wrap = s.wrap := by simp [withdrawFrames]
@[simp] theorem withdrawFrames_label (p : TxFrame → Bool) (s : State) : (withdrawFrames p s).label = s.label := by simp [withdrawFrames]
@[simp] theorem withdrawFrames_route (p : TxFrame → Bool) (s : State) : (withdrawFrames p s).route = s.route := by simp [withdrawFrames]
@[simp] theorem withdrawFrames_free (p : TxFrame → Bool) (s : State) : (withdrawFrames p s).free = s.free := by simp [withdrawFrames]
@[simp] theorem withdrawFrames_rx (p : TxFrame → Bool) (s : State) : (withdrawFrames p s).line.rx = s.line.rx := by
  simp [withdrawFrames]

/-- After a withdrawal no frame that `p` picks stands in the queue, but for one marked in its attempt (R59). -/
theorem withdrawFrames_tx (p : TxFrame → Bool) (s : State) :
    ∀ e ∈ (withdrawFrames p s).line.tx, p e.frame = true → e.inAttempt = true ∧ e.withdrawn = true := by
  intro e he hp
  simp only [withdrawFrames, State.setLine_line, List.mem_filterMap] at he
  obtain ⟨x, -, hx⟩ := he
  unfold withdrawEntry at hx
  split at hx
  · split at hx
    · simp only [Option.some.injEq] at hx; subst hx; exact ⟨‹_›, rfl⟩
    · cases hx
  · simp only [Option.some.injEq] at hx; subst hx; exact absurd hp ‹_›

@[simp] theorem endOffering_pending (s : State) : (endOffering s).pending = s.pending := by simp [endOffering]
@[simp] theorem endOffering_service (s : State) : (endOffering s).service = s.service := by simp [endOffering]
@[simp] theorem endOffering_cfg (s : State) : (endOffering s).cfg = s.cfg := by simp [endOffering]
@[simp] theorem endOffering_pins (s : State) : (endOffering s).pins = s.pins := by simp [endOffering]
@[simp] theorem endOffering_table (s : State) : (endOffering s).table = s.table := by simp [endOffering]
@[simp] theorem endOffering_slot (s : State) : (endOffering s).slot = s.slot := by simp [endOffering]
@[simp] theorem endOffering_trackSeq (s : State) : (endOffering s).trackSeq = s.trackSeq := by simp [endOffering]
@[simp] theorem endOffering_store (s : State) : (endOffering s).store = s.store := by simp [endOffering]
@[simp] theorem endOffering_reader (s : State) : (endOffering s).reader = s.reader := by simp [endOffering]
@[simp] theorem endOffering_weigh (s : State) : (endOffering s).weigh = s.weigh := by simp [endOffering]
@[simp] theorem endOffering_prof (s : State) : (endOffering s).prof = s.prof := by simp [endOffering]
@[simp] theorem endOffering_eval (s : State) : (endOffering s).eval = s.eval := by simp [endOffering]
@[simp] theorem endOffering_wrap (s : State) : (endOffering s).wrap = s.wrap := by simp [endOffering]
@[simp] theorem endOffering_label (s : State) : (endOffering s).label = s.label := by simp [endOffering]
@[simp] theorem endOffering_route (s : State) : (endOffering s).route = s.route := by simp [endOffering]
@[simp] theorem endOffering_free (s : State) : (endOffering s).free = s.free := by simp [endOffering]
@[simp] theorem endOffering_rx (s : State) : (endOffering s).line.rx = s.line.rx := by simp [endOffering]
@[simp] theorem endOffering_zone (s : State) : (endOffering s).zone = { s.zone with offerTimer := none } := by
  simp [endOffering]

/-- Offering that has ceased ends; nothing else happens (R33). -/
theorem stopOffering_cases (s : State) :
    (s.zone.offerTimer.isSome = true ∧ offering s = false ∧ stopOffering s = endOffering s) ∨
    ((s.zone.offerTimer = none ∨ offering s = true) ∧ stopOffering s = s) := by
  unfold stopOffering
  split
  · rename_i h; simp only [Bool.and_eq_true, Bool.not_eq_true'] at h; exact .inl ⟨h.1, h.2, rfl⟩
  · rename_i h
    refine .inr ⟨?_, rfl⟩
    cases ht : s.zone.offerTimer <;> cases ho : offering s <;> simp_all

@[simp] theorem stopOffering_pending (s : State) : (stopOffering s).pending = s.pending := by unfold stopOffering; split <;> simp
@[simp] theorem stopOffering_service (s : State) : (stopOffering s).service = s.service := by unfold stopOffering; split <;> simp
@[simp] theorem stopOffering_cfg (s : State) : (stopOffering s).cfg = s.cfg := by unfold stopOffering; split <;> simp
@[simp] theorem stopOffering_pins (s : State) : (stopOffering s).pins = s.pins := by unfold stopOffering; split <;> simp
@[simp] theorem stopOffering_table (s : State) : (stopOffering s).table = s.table := by unfold stopOffering; split <;> simp
@[simp] theorem stopOffering_slot (s : State) : (stopOffering s).slot = s.slot := by unfold stopOffering; split <;> simp
@[simp] theorem stopOffering_trackSeq (s : State) : (stopOffering s).trackSeq = s.trackSeq := by unfold stopOffering; split <;> simp
@[simp] theorem stopOffering_store (s : State) : (stopOffering s).store = s.store := by unfold stopOffering; split <;> simp
@[simp] theorem stopOffering_reader (s : State) : (stopOffering s).reader = s.reader := by unfold stopOffering; split <;> simp
@[simp] theorem stopOffering_weigh (s : State) : (stopOffering s).weigh = s.weigh := by unfold stopOffering; split <;> simp
@[simp] theorem stopOffering_prof (s : State) : (stopOffering s).prof = s.prof := by unfold stopOffering; split <;> simp
@[simp] theorem stopOffering_eval (s : State) : (stopOffering s).eval = s.eval := by unfold stopOffering; split <;> simp
@[simp] theorem stopOffering_wrap (s : State) : (stopOffering s).wrap = s.wrap := by unfold stopOffering; split <;> simp
@[simp] theorem stopOffering_label (s : State) : (stopOffering s).label = s.label := by unfold stopOffering; split <;> simp
@[simp] theorem stopOffering_route (s : State) : (stopOffering s).route = s.route := by unfold stopOffering; split <;> simp
@[simp] theorem stopOffering_free (s : State) : (stopOffering s).free = s.free := by unfold stopOffering; split <;> simp
@[simp] theorem stopOffering_rx (s : State) : (stopOffering s).line.rx = s.line.rx := by
  unfold stopOffering; split <;> simp

/-! ## Frames heard -/

/-- Bytes heard after the CRC take nothing from a good frame (R56). -/
theorem goodFrame_append {bytes more : List Byte} {f : Heard} (h : goodFrame bytes = some f) :
    goodFrame (bytes ++ more) = some f := by
  match bytes, h with
  | a :: k :: l :: rest, h =>
    simp only [goodFrame, List.cons_append] at h ⊢
    split at h
    · rename_i hc
      have hlen := congrArg List.length (eq_of_beq hc)
      simp only [beBytes, List.length_take, List.length_drop, List.length_cons, List.length_nil] at hlen
      have h1 : l.toNat ≤ rest.length := by omega
      have h2 : 2 ≤ (rest.drop l.toNat).length := by simp only [List.length_drop]; omega
      rw [List.take_append_of_le_length h1, List.drop_append_of_le_length h1, List.take_append_of_le_length h2, if_pos hc]
      exact h
    · exact absurd h (by simp)

end Sys2Proof.Machine
end

