-- ==== Sys2Proof/Laws/Table.lean ====
section
/-! SUPPORT. The hold set (R47, R48) and the station table (R9): what their operations do. -/

namespace Sys2Proof.Machine

/-! ## Hold set -/

theorem removeHold_self (n : Nat) (hs : List Hold) : holdOf (removeHold n hs) n = none := by
  simp [holdOf, removeHold]

theorem removeHold_other {m n : Nat} (h : m ≠ n) (hs : List Hold) : holdOf (removeHold n hs) m = holdOf hs m := by
  have : (fun x : Hold => !decide (x.node = n) && decide (x.node = m)) = fun x => decide (x.node = m) := by
    funext x
    by_cases hx : x.node = m <;> simp [hx, h]
  simp [holdOf, removeHold, List.find?_filter, bne, this]

theorem placeHold_self (h : Hold) (hs : List Hold) (hn : holdOf hs h.node = none) :
    holdOf (placeHold h hs) h.node = some h.cause := by
  induction hs with
  | nil => simp [placeHold, holdOf]
  | cons x rest ih =>
    simp only [placeHold]
    split
    · have hx : x.node ≠ h.node := by omega
      simp only [holdOf] at hn ih ⊢
      simp [hx] at hn ⊢
      simpa using ih (by simpa using hn)
    · simp [holdOf]

theorem placeHold_other {m : Nat} (h : Hold) (hm : m ≠ h.node) (hs : List Hold) :
    holdOf (placeHold h hs) m = holdOf hs m := by
  have hm' : ¬ h.node = m := fun e => hm e.symm
  induction hs with
  | nil => simp [placeHold, holdOf, hm']
  | cons x rest ih =>
    simp only [placeHold]
    split
    · simp only [holdOf] at ih ⊢
      by_cases hx : x.node = m <;> simp [hx, ih]
    · simp [holdOf, hm']

/-- A node's entry is what it was set to (R47). -/
@[simp] theorem holdOf_setHold_self (n : Nat) (c : Option HoldCause) (hs : List Hold) : holdOf (setHold n c hs) n = c := by
  cases c with
  | none => exact removeHold_self n hs
  | some c => exact placeHold_self { node := n, cause := c } _ (removeHold_self n hs)

/-- Every other node's entry is as before (R47). -/
theorem holdOf_setHold_other {m n : Nat} (h : m ≠ n) (c : Option HoldCause) (hs : List Hold) :
    holdOf (setHold n c hs) m = holdOf hs m := by
  cases c with
  | none => exact removeHold_other h hs
  | some c => rw [setHold, addHold, placeHold_other _ h]; exact removeHold_other h hs

/-! ## Zone state and table entries -/

@[simp] theorem setHolds_pending (hs : List Hold) (s : State) : (setHolds hs s).pending = s.pending := rfl
@[simp] theorem setHolds_service (hs : List Hold) (s : State) : (setHolds hs s).service = s.service := rfl
@[simp] theorem setHolds_cfg (hs : List Hold) (s : State) : (setHolds hs s).cfg = s.cfg := rfl
@[simp] theorem setHolds_pins (hs : List Hold) (s : State) : (setHolds hs s).pins = s.pins := rfl
@[simp] theorem setHolds_line (hs : List Hold) (s : State) : (setHolds hs s).line = s.line := rfl
@[simp] theorem setHolds_table (hs : List Hold) (s : State) : (setHolds hs s).table = s.table := rfl
@[simp] theorem setHolds_slot (hs : List Hold) (s : State) : (setHolds hs s).slot = s.slot := rfl
@[simp] theorem setHolds_trackSeq (hs : List Hold) (s : State) : (setHolds hs s).trackSeq = s.trackSeq := rfl
@[simp] theorem setHolds_store (hs : List Hold) (s : State) : (setHolds hs s).store = s.store := rfl
@[simp] theorem setHolds_reader (hs : List Hold) (s : State) : (setHolds hs s).reader = s.reader := rfl
@[simp] theorem setHolds_weigh (hs : List Hold) (s : State) : (setHolds hs s).weigh = s.weigh := rfl
@[simp] theorem setHolds_prof (hs : List Hold) (s : State) : (setHolds hs s).prof = s.prof := rfl
@[simp] theorem setHolds_eval (hs : List Hold) (s : State) : (setHolds hs s).eval = s.eval := rfl
@[simp] theorem setHolds_wrap (hs : List Hold) (s : State) : (setHolds hs s).wrap = s.wrap := rfl
@[simp] theorem setHolds_label (hs : List Hold) (s : State) : (setHolds hs s).label = s.label := rfl
@[simp] theorem setHolds_route (hs : List Hold) (s : State) : (setHolds hs s).route = s.route := rfl
@[simp] theorem setHolds_free (hs : List Hold) (s : State) : (setHolds hs s).free = s.free := rfl
@[simp] theorem setZoneState_pending (z : ZoneState) (s : State) : (setZoneState z s).pending = s.pending := rfl
@[simp] theorem setZoneState_service (z : ZoneState) (s : State) : (setZoneState z s).service = s.service := rfl
@[simp] theorem setZoneState_cfg (z : ZoneState) (s : State) : (setZoneState z s).cfg = s.cfg := rfl
@[simp] theorem setZoneState_pins (z : ZoneState) (s : State) : (setZoneState z s).pins = s.pins := rfl
@[simp] theorem setZoneState_line (z : ZoneState) (s : State) : (setZoneState z s).line = s.line := rfl
@[simp] theorem setZoneState_table (z : ZoneState) (s : State) : (setZoneState z s).table = s.table := rfl
@[simp] theorem setZoneState_slot (z : ZoneState) (s : State) : (setZoneState z s).slot = s.slot := rfl
@[simp] theorem setZoneState_trackSeq (z : ZoneState) (s : State) : (setZoneState z s).trackSeq = s.trackSeq := rfl
@[simp] theorem setZoneState_store (z : ZoneState) (s : State) : (setZoneState z s).store = s.store := rfl
@[simp] theorem setZoneState_reader (z : ZoneState) (s : State) : (setZoneState z s).reader = s.reader := rfl
@[simp] theorem setZoneState_weigh (z : ZoneState) (s : State) : (setZoneState z s).weigh = s.weigh := rfl
@[simp] theorem setZoneState_prof (z : ZoneState) (s : State) : (setZoneState z s).prof = s.prof := rfl
@[simp] theorem setZoneState_eval (z : ZoneState) (s : State) : (setZoneState z s).eval = s.eval := rfl
@[simp] theorem setZoneState_wrap (z : ZoneState) (s : State) : (setZoneState z s).wrap = s.wrap := rfl
@[simp] theorem setZoneState_label (z : ZoneState) (s : State) : (setZoneState z s).label = s.label := rfl
@[simp] theorem setZoneState_route (z : ZoneState) (s : State) : (setZoneState z s).route = s.route := rfl
@[simp] theorem setZoneState_free (z : ZoneState) (s : State) : (setZoneState z s).free = s.free := rfl
@[simp] theorem mapState_pending (st : RecordState) (f : Entry → Entry) (s : State) : (mapState st f s).pending = s.pending := rfl
@[simp] theorem mapState_service (st : RecordState) (f : Entry → Entry) (s : State) : (mapState st f s).service = s.service := rfl
@[simp] theorem mapState_cfg (st : RecordState) (f : Entry → Entry) (s : State) : (mapState st f s).cfg = s.cfg := rfl
@[simp] theorem mapState_pins (st : RecordState) (f : Entry → Entry) (s : State) : (mapState st f s).pins = s.pins := rfl
@[simp] theorem mapState_line (st : RecordState) (f : Entry → Entry) (s : State) : (mapState st f s).line = s.line := rfl
@[simp] theorem mapState_slot (st : RecordState) (f : Entry → Entry) (s : State) : (mapState st f s).slot = s.slot := rfl
@[simp] theorem mapState_trackSeq (st : RecordState) (f : Entry → Entry) (s : State) : (mapState st f s).trackSeq = s.trackSeq := rfl
@[simp] theorem mapState_zone (st : RecordState) (f : Entry → Entry) (s : State) : (mapState st f s).zone = s.zone := rfl
@[simp] theorem mapState_store (st : RecordState) (f : Entry → Entry) (s : State) : (mapState st f s).store = s.store := rfl
@[simp] theorem mapState_reader (st : RecordState) (f : Entry → Entry) (s : State) : (mapState st f s).reader = s.reader := rfl
@[simp] theorem mapState_weigh (st : RecordState) (f : Entry → Entry) (s : State) : (mapState st f s).weigh = s.weigh := rfl
@[simp] theorem mapState_prof (st : RecordState) (f : Entry → Entry) (s : State) : (mapState st f s).prof = s.prof := rfl
@[simp] theorem mapState_eval (st : RecordState) (f : Entry → Entry) (s : State) : (mapState st f s).eval = s.eval := rfl
@[simp] theorem mapState_wrap (st : RecordState) (f : Entry → Entry) (s : State) : (mapState st f s).wrap = s.wrap := rfl
@[simp] theorem mapState_label (st : RecordState) (f : Entry → Entry) (s : State) : (mapState st f s).label = s.label := rfl
@[simp] theorem mapState_route (st : RecordState) (f : Entry → Entry) (s : State) : (mapState st f s).route = s.route := rfl
@[simp] theorem mapState_free (st : RecordState) (f : Entry → Entry) (s : State) : (mapState st f s).free = s.free := rfl
@[simp] theorem moveState_pending (a b : RecordState) (s : State) : (moveState a b s).pending = s.pending := rfl
@[simp] theorem moveState_service (a b : RecordState) (s : State) : (moveState a b s).service = s.service := rfl
@[simp] theorem moveState_cfg (a b : RecordState) (s : State) : (moveState a b s).cfg = s.cfg := rfl
@[simp] theorem moveState_pins (a b : RecordState) (s : State) : (moveState a b s).pins = s.pins := rfl
@[simp] theorem moveState_line (a b : RecordState) (s : State) : (moveState a b s).line = s.line := rfl
@[simp] theorem moveState_slot (a b : RecordState) (s : State) : (moveState a b s).slot = s.slot := rfl
@[simp] theorem moveState_trackSeq (a b : RecordState) (s : State) : (moveState a b s).trackSeq = s.trackSeq := rfl
@[simp] theorem moveState_zone (a b : RecordState) (s : State) : (moveState a b s).zone = s.zone := rfl
@[simp] theorem moveState_store (a b : RecordState) (s : State) : (moveState a b s).store = s.store := rfl
@[simp] theorem moveState_reader (a b : RecordState) (s : State) : (moveState a b s).reader = s.reader := rfl
@[simp] theorem moveState_weigh (a b : RecordState) (s : State) : (moveState a b s).weigh = s.weigh := rfl
@[simp] theorem moveState_prof (a b : RecordState) (s : State) : (moveState a b s).prof = s.prof := rfl
@[simp] theorem moveState_eval (a b : RecordState) (s : State) : (moveState a b s).eval = s.eval := rfl
@[simp] theorem moveState_wrap (a b : RecordState) (s : State) : (moveState a b s).wrap = s.wrap := rfl
@[simp] theorem moveState_label (a b : RecordState) (s : State) : (moveState a b s).label = s.label := rfl
@[simp] theorem moveState_route (a b : RecordState) (s : State) : (moveState a b s).route = s.route := rfl
@[simp] theorem moveState_free (a b : RecordState) (s : State) : (moveState a b s).free = s.free := rfl
@[simp] theorem writeWorking_pending (f : TravelRecord → TravelRecord) (s : State) : (writeWorking f s).pending = s.pending := rfl
@[simp] theorem writeWorking_service (f : TravelRecord → TravelRecord) (s : State) : (writeWorking f s).service = s.service := rfl
@[simp] theorem writeWorking_cfg (f : TravelRecord → TravelRecord) (s : State) : (writeWorking f s).cfg = s.cfg := rfl
@[simp] theorem writeWorking_pins (f : TravelRecord → TravelRecord) (s : State) : (writeWorking f s).pins = s.pins := rfl
@[simp] theorem writeWorking_line (f : TravelRecord → TravelRecord) (s : State) : (writeWorking f s).line = s.line := rfl
@[simp] theorem writeWorking_slot (f : TravelRecord → TravelRecord) (s : State) : (writeWorking f s).slot = s.slot := rfl
@[simp] theorem writeWorking_trackSeq (f : TravelRecord → TravelRecord) (s : State) : (writeWorking f s).trackSeq = s.trackSeq := rfl
@[simp] theorem writeWorking_zone (f : TravelRecord → TravelRecord) (s : State) : (writeWorking f s).zone = s.zone := rfl
@[simp] theorem writeWorking_store (f : TravelRecord → TravelRecord) (s : State) : (writeWorking f s).store = s.store := rfl
@[simp] theorem writeWorking_reader (f : TravelRecord → TravelRecord) (s : State) : (writeWorking f s).reader = s.reader := rfl
@[simp] theorem writeWorking_weigh (f : TravelRecord → TravelRecord) (s : State) : (writeWorking f s).weigh = s.weigh := rfl
@[simp] theorem writeWorking_prof (f : TravelRecord → TravelRecord) (s : State) : (writeWorking f s).prof = s.prof := rfl
@[simp] theorem writeWorking_eval (f : TravelRecord → TravelRecord) (s : State) : (writeWorking f s).eval = s.eval := rfl
@[simp] theorem writeWorking_wrap (f : TravelRecord → TravelRecord) (s : State) : (writeWorking f s).wrap = s.wrap := rfl
@[simp] theorem writeWorking_label (f : TravelRecord → TravelRecord) (s : State) : (writeWorking f s).label = s.label := rfl
@[simp] theorem writeWorking_route (f : TravelRecord → TravelRecord) (s : State) : (writeWorking f s).route = s.route := rfl
@[simp] theorem writeWorking_free (f : TravelRecord → TravelRecord) (s : State) : (writeWorking f s).free = s.free := rfl
@[simp] theorem endWork_pending (s : State) : (endWork s).pending = s.pending := rfl
@[simp] theorem endWork_service (s : State) : (endWork s).service = s.service := rfl
@[simp] theorem endWork_cfg (s : State) : (endWork s).cfg = s.cfg := rfl
@[simp] theorem endWork_pins (s : State) : (endWork s).pins = s.pins := rfl
@[simp] theorem endWork_line (s : State) : (endWork s).line = s.line := rfl
@[simp] theorem endWork_slot (s : State) : (endWork s).slot = s.slot := rfl
@[simp] theorem endWork_trackSeq (s : State) : (endWork s).trackSeq = s.trackSeq := rfl
@[simp] theorem endWork_zone (s : State) : (endWork s).zone = s.zone := rfl
@[simp] theorem endWork_store (s : State) : (endWork s).store = s.store := rfl
@[simp] theorem endWork_reader (s : State) : (endWork s).reader = s.reader := rfl
@[simp] theorem endWork_weigh (s : State) : (endWork s).weigh = s.weigh := rfl
@[simp] theorem endWork_prof (s : State) : (endWork s).prof = s.prof := rfl
@[simp] theorem endWork_eval (s : State) : (endWork s).eval = s.eval := rfl
@[simp] theorem endWork_wrap (s : State) : (endWork s).wrap = s.wrap := rfl
@[simp] theorem endWork_label (s : State) : (endWork s).label = s.label := rfl
@[simp] theorem endWork_route (s : State) : (endWork s).route = s.route := rfl
@[simp] theorem endWork_free (s : State) : (endWork s).free = s.free := rfl
@[simp] theorem removeZoneRecord_pending (s : State) : (removeZoneRecord s).pending = s.pending := rfl
@[simp] theorem removeZoneRecord_service (s : State) : (removeZoneRecord s).service = s.service := rfl
@[simp] theorem removeZoneRecord_cfg (s : State) : (removeZoneRecord s).cfg = s.cfg := rfl
@[simp] theorem removeZoneRecord_pins (s : State) : (removeZoneRecord s).pins = s.pins := rfl
@[simp] theorem removeZoneRecord_line (s : State) : (removeZoneRecord s).line = s.line := rfl
@[simp] theorem removeZoneRecord_slot (s : State) : (removeZoneRecord s).slot = s.slot := rfl
@[simp] theorem removeZoneRecord_trackSeq (s : State) : (removeZoneRecord s).trackSeq = s.trackSeq := rfl
@[simp] theorem removeZoneRecord_zone (s : State) : (removeZoneRecord s).zone = s.zone := rfl
@[simp] theorem removeZoneRecord_store (s : State) : (removeZoneRecord s).store = s.store := rfl
@[simp] theorem removeZoneRecord_reader (s : State) : (removeZoneRecord s).reader = s.reader := rfl
@[simp] theorem removeZoneRecord_weigh (s : State) : (removeZoneRecord s).weigh = s.weigh := rfl
@[simp] theorem removeZoneRecord_prof (s : State) : (removeZoneRecord s).prof = s.prof := rfl
@[simp] theorem removeZoneRecord_eval (s : State) : (removeZoneRecord s).eval = s.eval := rfl
@[simp] theorem removeZoneRecord_wrap (s : State) : (removeZoneRecord s).wrap = s.wrap := rfl
@[simp] theorem removeZoneRecord_label (s : State) : (removeZoneRecord s).label = s.label := rfl
@[simp] theorem removeZoneRecord_route (s : State) : (removeZoneRecord s).route = s.route := rfl
@[simp] theorem removeZoneRecord_free (s : State) : (removeZoneRecord s).free = s.free := rfl
@[simp] theorem removeTrack_pending (k : Track) (s : State) : (removeTrack k s).pending = s.pending := rfl
@[simp] theorem removeTrack_service (k : Track) (s : State) : (removeTrack k s).service = s.service := rfl
@[simp] theorem removeTrack_cfg (k : Track) (s : State) : (removeTrack k s).cfg = s.cfg := rfl
@[simp] theorem removeTrack_pins (k : Track) (s : State) : (removeTrack k s).pins = s.pins := rfl
@[simp] theorem removeTrack_line (k : Track) (s : State) : (removeTrack k s).line = s.line := rfl
@[simp] theorem removeTrack_slot (k : Track) (s : State) : (removeTrack k s).slot = s.slot := rfl
@[simp] theorem removeTrack_trackSeq (k : Track) (s : State) : (removeTrack k s).trackSeq = s.trackSeq := rfl
@[simp] theorem removeTrack_zone (k : Track) (s : State) : (removeTrack k s).zone = s.zone := rfl
@[simp] theorem removeTrack_store (k : Track) (s : State) : (removeTrack k s).store = s.store := rfl
@[simp] theorem removeTrack_reader (k : Track) (s : State) : (removeTrack k s).reader = s.reader := rfl
@[simp] theorem removeTrack_weigh (k : Track) (s : State) : (removeTrack k s).weigh = s.weigh := rfl
@[simp] theorem removeTrack_prof (k : Track) (s : State) : (removeTrack k s).prof = s.prof := rfl
@[simp] theorem removeTrack_eval (k : Track) (s : State) : (removeTrack k s).eval = s.eval := rfl
@[simp] theorem removeTrack_wrap (k : Track) (s : State) : (removeTrack k s).wrap = s.wrap := rfl
@[simp] theorem removeTrack_label (k : Track) (s : State) : (removeTrack k s).label = s.label := rfl
@[simp] theorem removeTrack_route (k : Track) (s : State) : (removeTrack k s).route = s.route := rfl
@[simp] theorem removeTrack_free (k : Track) (s : State) : (removeTrack k s).free = s.free := rfl
@[simp] theorem addEntry_pending (e : Entry) (s : State) : (addEntry e s).pending = s.pending := rfl
@[simp] theorem addEntry_service (e : Entry) (s : State) : (addEntry e s).service = s.service := rfl
@[simp] theorem addEntry_cfg (e : Entry) (s : State) : (addEntry e s).cfg = s.cfg := rfl
@[simp] theorem addEntry_pins (e : Entry) (s : State) : (addEntry e s).pins = s.pins := rfl
@[simp] theorem addEntry_line (e : Entry) (s : State) : (addEntry e s).line = s.line := rfl
@[simp] theorem addEntry_slot (e : Entry) (s : State) : (addEntry e s).slot = s.slot := rfl
@[simp] theorem addEntry_trackSeq (e : Entry) (s : State) : (addEntry e s).trackSeq = s.trackSeq := rfl
@[simp] theorem addEntry_zone (e : Entry) (s : State) : (addEntry e s).zone = s.zone := rfl
@[simp] theorem addEntry_store (e : Entry) (s : State) : (addEntry e s).store = s.store := rfl
@[simp] theorem addEntry_reader (e : Entry) (s : State) : (addEntry e s).reader = s.reader := rfl
@[simp] theorem addEntry_weigh (e : Entry) (s : State) : (addEntry e s).weigh = s.weigh := rfl
@[simp] theorem addEntry_prof (e : Entry) (s : State) : (addEntry e s).prof = s.prof := rfl
@[simp] theorem addEntry_eval (e : Entry) (s : State) : (addEntry e s).eval = s.eval := rfl
@[simp] theorem addEntry_wrap (e : Entry) (s : State) : (addEntry e s).wrap = s.wrap := rfl
@[simp] theorem addEntry_label (e : Entry) (s : State) : (addEntry e s).label = s.label := rfl
@[simp] theorem addEntry_route (e : Entry) (s : State) : (addEntry e s).route = s.route := rfl
@[simp] theorem addEntry_free (e : Entry) (s : State) : (addEntry e s).free = s.free := rfl
@[simp] theorem createRecord_pending (u : Bool) (st : RecordState) (s : State) : (createRecord u st s).pending = s.pending := rfl
@[simp] theorem createRecord_service (u : Bool) (st : RecordState) (s : State) : (createRecord u st s).service = s.service := rfl
@[simp] theorem createRecord_cfg (u : Bool) (st : RecordState) (s : State) : (createRecord u st s).cfg = s.cfg := rfl
@[simp] theorem createRecord_pins (u : Bool) (st : RecordState) (s : State) : (createRecord u st s).pins = s.pins := rfl
@[simp] theorem createRecord_line (u : Bool) (st : RecordState) (s : State) : (createRecord u st s).line = s.line := rfl
@[simp] theorem createRecord_slot (u : Bool) (st : RecordState) (s : State) : (createRecord u st s).slot = s.slot := rfl
@[simp] theorem createRecord_zone (u : Bool) (st : RecordState) (s : State) : (createRecord u st s).zone = s.zone := rfl
@[simp] theorem createRecord_store (u : Bool) (st : RecordState) (s : State) : (createRecord u st s).store = s.store := rfl
@[simp] theorem createRecord_reader (u : Bool) (st : RecordState) (s : State) : (createRecord u st s).reader = s.reader := rfl
@[simp] theorem createRecord_weigh (u : Bool) (st : RecordState) (s : State) : (createRecord u st s).weigh = s.weigh := rfl
@[simp] theorem createRecord_prof (u : Bool) (st : RecordState) (s : State) : (createRecord u st s).prof = s.prof := rfl
@[simp] theorem createRecord_eval (u : Bool) (st : RecordState) (s : State) : (createRecord u st s).eval = s.eval := rfl
@[simp] theorem createRecord_wrap (u : Bool) (st : RecordState) (s : State) : (createRecord u st s).wrap = s.wrap := rfl
@[simp] theorem createRecord_label (u : Bool) (st : RecordState) (s : State) : (createRecord u st s).label = s.label := rfl
@[simp] theorem createRecord_route (u : Bool) (st : RecordState) (s : State) : (createRecord u st s).route = s.route := rfl
@[simp] theorem createRecord_free (u : Bool) (st : RecordState) (s : State) : (createRecord u st s).free = s.free := rfl

@[simp] theorem setHolds_zone (hs : List Hold) (s : State) : (setHolds hs s).zone = { s.zone with holds := hs } := rfl
@[simp] theorem setZoneState_zone (z : ZoneState) (s : State) : (setZoneState z s).zone = { s.zone with zstate := z } := rfl
@[simp] theorem mapState_table (st : RecordState) (f : Entry → Entry) (s : State) :
    (mapState st f s).table = s.table.map (fun e => if e.state = st then f e else e) := rfl
@[simp] theorem moveState_table (a b : RecordState) (s : State) :
    (moveState a b s).table = s.table.map (fun e => if e.state = a then { e with state := b } else e) := rfl
@[simp] theorem writeWorking_table (f : TravelRecord → TravelRecord) (s : State) : (writeWorking f s).table =
    s.table.map (fun e => if e.state = .working then { e with record := f e.record } else e) := rfl
@[simp] theorem endWork_table (s : State) :
    (endWork s).table = s.table.map (fun e => if e.state = .working then { e with state := .done } else e) := rfl
@[simp] theorem removeZoneRecord_table (s : State) :
    (removeZoneRecord s).table = s.table.filter (fun e => !inZone e) := rfl
@[simp] theorem removeTrack_table (k : Track) (s : State) :
    (removeTrack k s).table = s.table.filter (fun e => e.record.track != k) := rfl
@[simp] theorem addEntry_table (e : Entry) (s : State) : (addEntry e s).table = s.table ++ [e] := rfl
@[simp] theorem createRecord_table (u : Bool) (st : RecordState) (s : State) : (createRecord u st s).table =
    s.table ++ [{ record := freshRecord (newTrack s) u, state := st, takenHeard := false, timer := none }] := rfl
@[simp] theorem createRecord_trackSeq (u : Bool) (st : RecordState) (s : State) :
    (createRecord u st s).trackSeq = nextSeq (candidateSeq s) := rfl

/-- R6: the search from a sequence on passes over used sequences alone. -/
theorem freeSeq_cases (s : State) (n seq : Nat) : ∃ j ≤ n, freeSeq s n seq = Nat.repeat nextSeq j seq ∧
    (∀ i < j, trackUsed s { origin := s.cfg.node, seq := Nat.repeat nextSeq i seq } = true) ∧
    (j < n → trackUsed s { origin := s.cfg.node, seq := freeSeq s n seq } = false) := by
  have shift : ∀ j a, Nat.repeat nextSeq j (nextSeq a) = Nat.repeat nextSeq (j + 1) a := by
    intro j
    induction j with
    | zero => exact fun _ => rfl
    | succ j ih => exact fun a => congrArg nextSeq (ih a)
  induction n generalizing seq with
  | zero => exact ⟨0, Nat.le_refl 0, rfl, by simp, by simp⟩
  | succ n ih =>
    by_cases h : trackUsed s { origin := s.cfg.node, seq := seq } = true
    · obtain ⟨j, hj, he, hu, hn⟩ := ih (nextSeq seq)
      refine ⟨j + 1, by omega, by simp [freeSeq, h, he, shift], ?_, by simpa [freeSeq, h] using hn⟩
      rintro (_ | i) hi
      · simpa [Nat.repeat] using h
      · simpa [shift] using hu i (by omega)
    · exact ⟨0, by omega, by simp [freeSeq, h, Nat.repeat], by simp, by simp [freeSeq, h]⟩

/-- A record enters a table that has room, or one whose oldest OUTBOUND entry is evicted with its notice (R9). -/
theorem evict_cases (s : State) :
    (s.table.length < Config.tableCapacity ∧ evict s = s) ∨
    (Config.tableCapacity ≤ s.table.length ∧ ∃ e, zoneEntryIn s .outbound = some e ∧ evict s =
      notify (.takenMissing e.record.track) (s.setTable (s.table.eraseP (fun e => e.state = .outbound)))) ∨
    (Config.tableCapacity ≤ s.table.length ∧ zoneEntryIn s .outbound = none ∧ evict s = s) := by
  unfold evict
  split
  · exact .inl ⟨‹_›, rfl⟩
  · refine .inr ?_
    split
    · exact .inl ⟨by omega, _, ‹_›, rfl⟩
    · exact .inr ⟨by omega, ‹_›, rfl⟩

@[simp] theorem evict_pending (s : State) : (evict s).pending = s.pending := by obtain ⟨-, h⟩ | ⟨-, e, -, h⟩ | ⟨-, -, h⟩ := evict_cases s <;> simp [h]
@[simp] theorem evict_service (s : State) : (evict s).service = s.service := by obtain ⟨-, h⟩ | ⟨-, e, -, h⟩ | ⟨-, -, h⟩ := evict_cases s <;> simp [h]
@[simp] theorem evict_cfg (s : State) : (evict s).cfg = s.cfg := by obtain ⟨-, h⟩ | ⟨-, e, -, h⟩ | ⟨-, -, h⟩ := evict_cases s <;> simp [h]
@[simp] theorem evict_pins (s : State) : (evict s).pins = s.pins := by obtain ⟨-, h⟩ | ⟨-, e, -, h⟩ | ⟨-, -, h⟩ := evict_cases s <;> simp [h]
@[simp] theorem evict_slot (s : State) : (evict s).slot = s.slot := by obtain ⟨-, h⟩ | ⟨-, e, -, h⟩ | ⟨-, -, h⟩ := evict_cases s <;> simp [h]
@[simp] theorem evict_trackSeq (s : State) : (evict s).trackSeq = s.trackSeq := by obtain ⟨-, h⟩ | ⟨-, e, -, h⟩ | ⟨-, -, h⟩ := evict_cases s <;> simp [h]
@[simp] theorem evict_zone (s : State) : (evict s).zone = s.zone := by obtain ⟨-, h⟩ | ⟨-, e, -, h⟩ | ⟨-, -, h⟩ := evict_cases s <;> simp [h]
@[simp] theorem evict_store (s : State) : (evict s).store = s.store := by obtain ⟨-, h⟩ | ⟨-, e, -, h⟩ | ⟨-, -, h⟩ := evict_cases s <;> simp [h]
@[simp] theorem evict_reader (s : State) : (evict s).reader = s.reader := by obtain ⟨-, h⟩ | ⟨-, e, -, h⟩ | ⟨-, -, h⟩ := evict_cases s <;> simp [h]
@[simp] theorem evict_weigh (s : State) : (evict s).weigh = s.weigh := by obtain ⟨-, h⟩ | ⟨-, e, -, h⟩ | ⟨-, -, h⟩ := evict_cases s <;> simp [h]
@[simp] theorem evict_prof (s : State) : (evict s).prof = s.prof := by obtain ⟨-, h⟩ | ⟨-, e, -, h⟩ | ⟨-, -, h⟩ := evict_cases s <;> simp [h]
@[simp] theorem evict_eval (s : State) : (evict s).eval = s.eval := by obtain ⟨-, h⟩ | ⟨-, e, -, h⟩ | ⟨-, -, h⟩ := evict_cases s <;> simp [h]
@[simp] theorem evict_wrap (s : State) : (evict s).wrap = s.wrap := by obtain ⟨-, h⟩ | ⟨-, e, -, h⟩ | ⟨-, -, h⟩ := evict_cases s <;> simp [h]
@[simp] theorem evict_label (s : State) : (evict s).label = s.label := by obtain ⟨-, h⟩ | ⟨-, e, -, h⟩ | ⟨-, -, h⟩ := evict_cases s <;> simp [h]
@[simp] theorem evict_route (s : State) : (evict s).route = s.route := by obtain ⟨-, h⟩ | ⟨-, e, -, h⟩ | ⟨-, -, h⟩ := evict_cases s <;> simp [h]
@[simp] theorem evict_free (s : State) : (evict s).free = s.free := by obtain ⟨-, h⟩ | ⟨-, e, -, h⟩ | ⟨-, -, h⟩ := evict_cases s <;> simp [h]

/-! ## Own hold -/

/-- The own entry follows its inputs in IN_SERVICE, when they have changed it (R48). -/
theorem followOwnHold_cases (before : Option HoldCause) (s : State) :
    (inService s = true ∧ ownHold s.pins ≠ before ∧
      ∃ s1, s1 = stopOffering (setHolds (setHold s.cfg.node (ownHold s.pins) s.zone.holds) s) ∧
        followOwnHold before s =
          if helloWaiting s1 then s1 else queueFrame (holdFrame (ownHold s1.pins)) s1) ∨
    ((inService s = false ∨ ownHold s.pins = before) ∧ followOwnHold before s = s) := by
  unfold followOwnHold
  split
  · rename_i h
    simp only [Bool.and_eq_true, bne_iff_ne, ne_eq] at h
    exact .inl ⟨h.1, h.2, _, rfl, rfl⟩
  · rename_i h
    refine .inr ⟨?_, rfl⟩
    cases hs : inService s <;> simp_all

@[simp] theorem followOwnHold_pending (c : Option HoldCause) (s : State) : (followOwnHold c s).pending = s.pending := by simp only [followOwnHold]; split <;> (try split) <;> simp
@[simp] theorem followOwnHold_service (c : Option HoldCause) (s : State) : (followOwnHold c s).service = s.service := by simp only [followOwnHold]; split <;> (try split) <;> simp
@[simp] theorem followOwnHold_cfg (c : Option HoldCause) (s : State) : (followOwnHold c s).cfg = s.cfg := by simp only [followOwnHold]; split <;> (try split) <;> simp
@[simp] theorem followOwnHold_pins (c : Option HoldCause) (s : State) : (followOwnHold c s).pins = s.pins := by simp only [followOwnHold]; split <;> (try split) <;> simp
@[simp] theorem followOwnHold_table (c : Option HoldCause) (s : State) : (followOwnHold c s).table = s.table := by simp only [followOwnHold]; split <;> (try split) <;> simp
@[simp] theorem followOwnHold_slot (c : Option HoldCause) (s : State) : (followOwnHold c s).slot = s.slot := by simp only [followOwnHold]; split <;> (try split) <;> simp
@[simp] theorem followOwnHold_trackSeq (c : Option HoldCause) (s : State) : (followOwnHold c s).trackSeq = s.trackSeq := by simp only [followOwnHold]; split <;> (try split) <;> simp
@[simp] theorem followOwnHold_store (c : Option HoldCause) (s : State) : (followOwnHold c s).store = s.store := by simp only [followOwnHold]; split <;> (try split) <;> simp
@[simp] theorem followOwnHold_reader (c : Option HoldCause) (s : State) : (followOwnHold c s).reader = s.reader := by simp only [followOwnHold]; split <;> (try split) <;> simp
@[simp] theorem followOwnHold_weigh (c : Option HoldCause) (s : State) : (followOwnHold c s).weigh = s.weigh := by simp only [followOwnHold]; split <;> (try split) <;> simp
@[simp] theorem followOwnHold_prof (c : Option HoldCause) (s : State) : (followOwnHold c s).prof = s.prof := by simp only [followOwnHold]; split <;> (try split) <;> simp
@[simp] theorem followOwnHold_eval (c : Option HoldCause) (s : State) : (followOwnHold c s).eval = s.eval := by simp only [followOwnHold]; split <;> (try split) <;> simp
@[simp] theorem followOwnHold_wrap (c : Option HoldCause) (s : State) : (followOwnHold c s).wrap = s.wrap := by simp only [followOwnHold]; split <;> (try split) <;> simp
@[simp] theorem followOwnHold_label (c : Option HoldCause) (s : State) : (followOwnHold c s).label = s.label := by simp only [followOwnHold]; split <;> (try split) <;> simp
@[simp] theorem followOwnHold_route (c : Option HoldCause) (s : State) : (followOwnHold c s).route = s.route := by simp only [followOwnHold]; split <;> (try split) <;> simp
@[simp] theorem followOwnHold_free (c : Option HoldCause) (s : State) : (followOwnHold c s).free = s.free := by simp only [followOwnHold]; split <;> (try split) <;> simp

end Sys2Proof.Machine
end

