-- ==== Sys2Proof/Laws/Check.lean ====
section
/-! SUPPORT. The operations of the CHECK blocks (Chapters 4 to 7): which fields each leaves, and what the evaluation can do. -/

namespace Sys2Proof.Machine

@[simp] theorem updateEval_pending (f : Evaluation → Evaluation) (s : State) : (updateEval f s).pending = s.pending := by simp [updateEval]
@[simp] theorem updateEval_service (f : Evaluation → Evaluation) (s : State) : (updateEval f s).service = s.service := by simp [updateEval]
@[simp] theorem updateEval_cfg (f : Evaluation → Evaluation) (s : State) : (updateEval f s).cfg = s.cfg := by simp [updateEval]
@[simp] theorem updateEval_pins (f : Evaluation → Evaluation) (s : State) : (updateEval f s).pins = s.pins := by simp [updateEval]
@[simp] theorem updateEval_line (f : Evaluation → Evaluation) (s : State) : (updateEval f s).line = s.line := by simp [updateEval]
@[simp] theorem updateEval_table (f : Evaluation → Evaluation) (s : State) : (updateEval f s).table = s.table := by simp [updateEval]
@[simp] theorem updateEval_slot (f : Evaluation → Evaluation) (s : State) : (updateEval f s).slot = s.slot := by simp [updateEval]
@[simp] theorem updateEval_trackSeq (f : Evaluation → Evaluation) (s : State) : (updateEval f s).trackSeq = s.trackSeq := by simp [updateEval]
@[simp] theorem updateEval_zone (f : Evaluation → Evaluation) (s : State) : (updateEval f s).zone = s.zone := by simp [updateEval]
@[simp] theorem updateEval_store (f : Evaluation → Evaluation) (s : State) : (updateEval f s).store = s.store := by simp [updateEval]
@[simp] theorem updateEval_reader (f : Evaluation → Evaluation) (s : State) : (updateEval f s).reader = s.reader := by simp [updateEval]
@[simp] theorem updateEval_weigh (f : Evaluation → Evaluation) (s : State) : (updateEval f s).weigh = s.weigh := by simp [updateEval]
@[simp] theorem updateEval_prof (f : Evaluation → Evaluation) (s : State) : (updateEval f s).prof = s.prof := by simp [updateEval]
@[simp] theorem updateEval_wrap (f : Evaluation → Evaluation) (s : State) : (updateEval f s).wrap = s.wrap := by simp [updateEval]
@[simp] theorem updateEval_label (f : Evaluation → Evaluation) (s : State) : (updateEval f s).label = s.label := by simp [updateEval]
@[simp] theorem updateEval_route (f : Evaluation → Evaluation) (s : State) : (updateEval f s).route = s.route := by simp [updateEval]
@[simp] theorem updateEval_free (f : Evaluation → Evaluation) (s : State) : (updateEval f s).free = s.free := by simp [updateEval]

@[simp] theorem openWindow_pending (w : Window) (s : State) : (openWindow w s).pending = s.pending := by simp [openWindow]
@[simp] theorem openWindow_service (w : Window) (s : State) : (openWindow w s).service = s.service := by simp [openWindow]
@[simp] theorem openWindow_cfg (w : Window) (s : State) : (openWindow w s).cfg = s.cfg := by simp [openWindow]
@[simp] theorem openWindow_pins (w : Window) (s : State) : (openWindow w s).pins = s.pins := by simp [openWindow]
@[simp] theorem openWindow_line (w : Window) (s : State) : (openWindow w s).line = s.line := by simp [openWindow]
@[simp] theorem openWindow_table (w : Window) (s : State) : (openWindow w s).table = s.table := by simp [openWindow]
@[simp] theorem openWindow_slot (w : Window) (s : State) : (openWindow w s).slot = s.slot := by simp [openWindow]
@[simp] theorem openWindow_trackSeq (w : Window) (s : State) : (openWindow w s).trackSeq = s.trackSeq := by simp [openWindow]
@[simp] theorem openWindow_zone (w : Window) (s : State) : (openWindow w s).zone = s.zone := by simp [openWindow]
@[simp] theorem openWindow_store (w : Window) (s : State) : (openWindow w s).store = s.store := by simp [openWindow]
@[simp] theorem openWindow_weigh (w : Window) (s : State) : (openWindow w s).weigh = s.weigh := by simp [openWindow]
@[simp] theorem openWindow_prof (w : Window) (s : State) : (openWindow w s).prof = s.prof := by simp [openWindow]
@[simp] theorem openWindow_eval (w : Window) (s : State) : (openWindow w s).eval = s.eval := by simp [openWindow]
@[simp] theorem openWindow_wrap (w : Window) (s : State) : (openWindow w s).wrap = s.wrap := by simp [openWindow]
@[simp] theorem openWindow_label (w : Window) (s : State) : (openWindow w s).label = s.label := by simp [openWindow]
@[simp] theorem openWindow_route (w : Window) (s : State) : (openWindow w s).route = s.route := by simp [openWindow]
@[simp] theorem openWindow_free (w : Window) (s : State) : (openWindow w s).free = s.free := by simp [openWindow]

@[simp] theorem closeWindow_pending (s : State) : (closeWindow s).pending = s.pending := by simp [closeWindow]
@[simp] theorem closeWindow_service (s : State) : (closeWindow s).service = s.service := by simp [closeWindow]
@[simp] theorem closeWindow_cfg (s : State) : (closeWindow s).cfg = s.cfg := by simp [closeWindow]
@[simp] theorem closeWindow_pins (s : State) : (closeWindow s).pins = s.pins := by simp [closeWindow]
@[simp] theorem closeWindow_line (s : State) : (closeWindow s).line = s.line := by simp [closeWindow]
@[simp] theorem closeWindow_table (s : State) : (closeWindow s).table = s.table := by simp [closeWindow]
@[simp] theorem closeWindow_slot (s : State) : (closeWindow s).slot = s.slot := by simp [closeWindow]
@[simp] theorem closeWindow_trackSeq (s : State) : (closeWindow s).trackSeq = s.trackSeq := by simp [closeWindow]
@[simp] theorem closeWindow_zone (s : State) : (closeWindow s).zone = s.zone := by simp [closeWindow]
@[simp] theorem closeWindow_store (s : State) : (closeWindow s).store = s.store := by simp [closeWindow]
@[simp] theorem closeWindow_weigh (s : State) : (closeWindow s).weigh = s.weigh := by simp [closeWindow]
@[simp] theorem closeWindow_prof (s : State) : (closeWindow s).prof = s.prof := by simp [closeWindow]
@[simp] theorem closeWindow_eval (s : State) : (closeWindow s).eval = s.eval := by simp [closeWindow]
@[simp] theorem closeWindow_wrap (s : State) : (closeWindow s).wrap = s.wrap := by simp [closeWindow]
@[simp] theorem closeWindow_label (s : State) : (closeWindow s).label = s.label := by simp [closeWindow]
@[simp] theorem closeWindow_route (s : State) : (closeWindow s).route = s.route := by simp [closeWindow]
@[simp] theorem closeWindow_free (s : State) : (closeWindow s).free = s.free := by simp [closeWindow]

@[simp] theorem keepRead_pending (ds : Digits) (s : State) : (keepRead ds s).pending = s.pending := by simp [keepRead]
@[simp] theorem keepRead_service (ds : Digits) (s : State) : (keepRead ds s).service = s.service := by simp [keepRead]
@[simp] theorem keepRead_cfg (ds : Digits) (s : State) : (keepRead ds s).cfg = s.cfg := by simp [keepRead]
@[simp] theorem keepRead_pins (ds : Digits) (s : State) : (keepRead ds s).pins = s.pins := by simp [keepRead]
@[simp] theorem keepRead_line (ds : Digits) (s : State) : (keepRead ds s).line = s.line := by simp [keepRead]
@[simp] theorem keepRead_table (ds : Digits) (s : State) : (keepRead ds s).table = s.table := by simp [keepRead]
@[simp] theorem keepRead_slot (ds : Digits) (s : State) : (keepRead ds s).slot = s.slot := by simp [keepRead]
@[simp] theorem keepRead_trackSeq (ds : Digits) (s : State) : (keepRead ds s).trackSeq = s.trackSeq := by simp [keepRead]
@[simp] theorem keepRead_zone (ds : Digits) (s : State) : (keepRead ds s).zone = s.zone := by simp [keepRead]
@[simp] theorem keepRead_store (ds : Digits) (s : State) : (keepRead ds s).store = s.store := by simp [keepRead]
@[simp] theorem keepRead_weigh (ds : Digits) (s : State) : (keepRead ds s).weigh = s.weigh := by simp [keepRead]
@[simp] theorem keepRead_prof (ds : Digits) (s : State) : (keepRead ds s).prof = s.prof := by simp [keepRead]
@[simp] theorem keepRead_eval (ds : Digits) (s : State) : (keepRead ds s).eval = s.eval := by simp [keepRead]
@[simp] theorem keepRead_wrap (ds : Digits) (s : State) : (keepRead ds s).wrap = s.wrap := by simp [keepRead]
@[simp] theorem keepRead_label (ds : Digits) (s : State) : (keepRead ds s).label = s.label := by simp [keepRead]
@[simp] theorem keepRead_route (ds : Digits) (s : State) : (keepRead ds s).route = s.route := by simp [keepRead]
@[simp] theorem keepRead_free (ds : Digits) (s : State) : (keepRead ds s).free = s.free := by simp [keepRead]

@[simp] theorem dropLine_pending (s : State) : (dropLine s).pending = s.pending := by simp [dropLine]
@[simp] theorem dropLine_service (s : State) : (dropLine s).service = s.service := by simp [dropLine]
@[simp] theorem dropLine_cfg (s : State) : (dropLine s).cfg = s.cfg := by simp [dropLine]
@[simp] theorem dropLine_pins (s : State) : (dropLine s).pins = s.pins := by simp [dropLine]
@[simp] theorem dropLine_line (s : State) : (dropLine s).line = s.line := by simp [dropLine]
@[simp] theorem dropLine_table (s : State) : (dropLine s).table = s.table := by simp [dropLine]
@[simp] theorem dropLine_slot (s : State) : (dropLine s).slot = s.slot := by simp [dropLine]
@[simp] theorem dropLine_trackSeq (s : State) : (dropLine s).trackSeq = s.trackSeq := by simp [dropLine]
@[simp] theorem dropLine_zone (s : State) : (dropLine s).zone = s.zone := by simp [dropLine]
@[simp] theorem dropLine_store (s : State) : (dropLine s).store = s.store := by simp [dropLine]
@[simp] theorem dropLine_weigh (s : State) : (dropLine s).weigh = s.weigh := by simp [dropLine]
@[simp] theorem dropLine_prof (s : State) : (dropLine s).prof = s.prof := by simp [dropLine]
@[simp] theorem dropLine_eval (s : State) : (dropLine s).eval = s.eval := by simp [dropLine]
@[simp] theorem dropLine_wrap (s : State) : (dropLine s).wrap = s.wrap := by simp [dropLine]
@[simp] theorem dropLine_label (s : State) : (dropLine s).label = s.label := by simp [dropLine]
@[simp] theorem dropLine_route (s : State) : (dropLine s).route = s.route := by simp [dropLine]
@[simp] theorem dropLine_free (s : State) : (dropLine s).free = s.free := by simp [dropLine]

@[simp] theorem stopTagWait_pending (s : State) : (stopTagWait s).pending = s.pending := by simp [stopTagWait]
@[simp] theorem stopTagWait_service (s : State) : (stopTagWait s).service = s.service := by simp [stopTagWait]
@[simp] theorem stopTagWait_cfg (s : State) : (stopTagWait s).cfg = s.cfg := by simp [stopTagWait]
@[simp] theorem stopTagWait_pins (s : State) : (stopTagWait s).pins = s.pins := by simp [stopTagWait]
@[simp] theorem stopTagWait_line (s : State) : (stopTagWait s).line = s.line := by simp [stopTagWait]
@[simp] theorem stopTagWait_table (s : State) : (stopTagWait s).table = s.table := by simp [stopTagWait]
@[simp] theorem stopTagWait_slot (s : State) : (stopTagWait s).slot = s.slot := by simp [stopTagWait]
@[simp] theorem stopTagWait_trackSeq (s : State) : (stopTagWait s).trackSeq = s.trackSeq := by simp [stopTagWait]
@[simp] theorem stopTagWait_zone (s : State) : (stopTagWait s).zone = s.zone := by simp [stopTagWait]
@[simp] theorem stopTagWait_store (s : State) : (stopTagWait s).store = s.store := by simp [stopTagWait]
@[simp] theorem stopTagWait_weigh (s : State) : (stopTagWait s).weigh = s.weigh := by simp [stopTagWait]
@[simp] theorem stopTagWait_prof (s : State) : (stopTagWait s).prof = s.prof := by simp [stopTagWait]
@[simp] theorem stopTagWait_eval (s : State) : (stopTagWait s).eval = s.eval := by simp [stopTagWait]
@[simp] theorem stopTagWait_wrap (s : State) : (stopTagWait s).wrap = s.wrap := by simp [stopTagWait]
@[simp] theorem stopTagWait_label (s : State) : (stopTagWait s).label = s.label := by simp [stopTagWait]
@[simp] theorem stopTagWait_route (s : State) : (stopTagWait s).route = s.route := by simp [stopTagWait]
@[simp] theorem stopTagWait_free (s : State) : (stopTagWait s).free = s.free := by simp [stopTagWait]

@[simp] theorem updateEval_eval (f : Evaluation → Evaluation) (s : State) : (updateEval f s).eval = s.eval.map f := rfl

/-! ## Manifest Store (R76 to R81) -/

@[simp] theorem manifestFound_pending (m : Manifest) (s : State) : (manifestFound m s).pending = s.pending := by simp only [manifestFound]; (repeat' split) <;> simp
@[simp] theorem manifestFound_service (m : Manifest) (s : State) : (manifestFound m s).service = s.service := by simp only [manifestFound]; (repeat' split) <;> simp
@[simp] theorem manifestFound_cfg (m : Manifest) (s : State) : (manifestFound m s).cfg = s.cfg := by simp only [manifestFound]; (repeat' split) <;> simp
@[simp] theorem manifestFound_pins (m : Manifest) (s : State) : (manifestFound m s).pins = s.pins := by simp only [manifestFound]; (repeat' split) <;> simp
@[simp] theorem manifestFound_line (m : Manifest) (s : State) : (manifestFound m s).line = s.line := by simp only [manifestFound]; (repeat' split) <;> simp
@[simp] theorem manifestFound_slot (m : Manifest) (s : State) : (manifestFound m s).slot = s.slot := by simp only [manifestFound]; (repeat' split) <;> simp
@[simp] theorem manifestFound_trackSeq (m : Manifest) (s : State) : (manifestFound m s).trackSeq = s.trackSeq := by simp only [manifestFound]; (repeat' split) <;> simp
@[simp] theorem manifestFound_zone (m : Manifest) (s : State) : (manifestFound m s).zone = s.zone := by simp only [manifestFound]; (repeat' split) <;> simp
@[simp] theorem manifestFound_store (m : Manifest) (s : State) : (manifestFound m s).store = s.store := by simp only [manifestFound]; (repeat' split) <;> simp
@[simp] theorem manifestFound_reader (m : Manifest) (s : State) : (manifestFound m s).reader = s.reader := by simp only [manifestFound]; (repeat' split) <;> simp
@[simp] theorem manifestFound_weigh (m : Manifest) (s : State) : (manifestFound m s).weigh = s.weigh := by simp only [manifestFound]; (repeat' split) <;> simp
@[simp] theorem manifestFound_prof (m : Manifest) (s : State) : (manifestFound m s).prof = s.prof := by simp only [manifestFound]; (repeat' split) <;> simp
@[simp] theorem manifestFound_wrap (m : Manifest) (s : State) : (manifestFound m s).wrap = s.wrap := by simp only [manifestFound]; (repeat' split) <;> simp
@[simp] theorem manifestFound_label (m : Manifest) (s : State) : (manifestFound m s).label = s.label := by simp only [manifestFound]; (repeat' split) <;> simp
@[simp] theorem manifestFound_route (m : Manifest) (s : State) : (manifestFound m s).route = s.route := by simp only [manifestFound]; (repeat' split) <;> simp
@[simp] theorem manifestFound_free (m : Manifest) (s : State) : (manifestFound m s).free = s.free := by simp only [manifestFound]; (repeat' split) <;> simp

@[simp] theorem manifestMissing_pending (r : ManifestResolution) (s : State) : (manifestMissing r s).pending = s.pending := by simp [manifestMissing]
@[simp] theorem manifestMissing_service (r : ManifestResolution) (s : State) : (manifestMissing r s).service = s.service := by simp [manifestMissing]
@[simp] theorem manifestMissing_cfg (r : ManifestResolution) (s : State) : (manifestMissing r s).cfg = s.cfg := by simp [manifestMissing]
@[simp] theorem manifestMissing_pins (r : ManifestResolution) (s : State) : (manifestMissing r s).pins = s.pins := by simp [manifestMissing]
@[simp] theorem manifestMissing_line (r : ManifestResolution) (s : State) : (manifestMissing r s).line = s.line := by simp [manifestMissing]
@[simp] theorem manifestMissing_table (r : ManifestResolution) (s : State) : (manifestMissing r s).table = s.table := by simp [manifestMissing]
@[simp] theorem manifestMissing_slot (r : ManifestResolution) (s : State) : (manifestMissing r s).slot = s.slot := by simp [manifestMissing]
@[simp] theorem manifestMissing_trackSeq (r : ManifestResolution) (s : State) : (manifestMissing r s).trackSeq = s.trackSeq := by simp [manifestMissing]
@[simp] theorem manifestMissing_zone (r : ManifestResolution) (s : State) : (manifestMissing r s).zone = s.zone := by simp [manifestMissing]
@[simp] theorem manifestMissing_store (r : ManifestResolution) (s : State) : (manifestMissing r s).store = s.store := by simp [manifestMissing]
@[simp] theorem manifestMissing_reader (r : ManifestResolution) (s : State) : (manifestMissing r s).reader = s.reader := by simp [manifestMissing]
@[simp] theorem manifestMissing_weigh (r : ManifestResolution) (s : State) : (manifestMissing r s).weigh = s.weigh := by simp [manifestMissing]
@[simp] theorem manifestMissing_prof (r : ManifestResolution) (s : State) : (manifestMissing r s).prof = s.prof := by simp [manifestMissing]
@[simp] theorem manifestMissing_wrap (r : ManifestResolution) (s : State) : (manifestMissing r s).wrap = s.wrap := by simp [manifestMissing]
@[simp] theorem manifestMissing_label (r : ManifestResolution) (s : State) : (manifestMissing r s).label = s.label := by simp [manifestMissing]
@[simp] theorem manifestMissing_route (r : ManifestResolution) (s : State) : (manifestMissing r s).route = s.route := by simp [manifestMissing]
@[simp] theorem manifestMissing_free (r : ManifestResolution) (s : State) : (manifestMissing r s).free = s.free := by simp [manifestMissing]

@[simp] theorem raiseRequest_pending (s : State) : (raiseRequest s).pending = s.pending := by simp only [raiseRequest]; (repeat' split) <;> simp
@[simp] theorem raiseRequest_service (s : State) : (raiseRequest s).service = s.service := by simp only [raiseRequest]; (repeat' split) <;> simp
@[simp] theorem raiseRequest_cfg (s : State) : (raiseRequest s).cfg = s.cfg := by simp only [raiseRequest]; (repeat' split) <;> simp
@[simp] theorem raiseRequest_pins (s : State) : (raiseRequest s).pins = s.pins := by simp only [raiseRequest]; (repeat' split) <;> simp
@[simp] theorem raiseRequest_table (s : State) : (raiseRequest s).table = s.table := by simp only [raiseRequest]; (repeat' split) <;> simp
@[simp] theorem raiseRequest_slot (s : State) : (raiseRequest s).slot = s.slot := by simp only [raiseRequest]; (repeat' split) <;> simp
@[simp] theorem raiseRequest_trackSeq (s : State) : (raiseRequest s).trackSeq = s.trackSeq := by simp only [raiseRequest]; (repeat' split) <;> simp
@[simp] theorem raiseRequest_zone (s : State) : (raiseRequest s).zone = s.zone := by simp only [raiseRequest]; (repeat' split) <;> simp
@[simp] theorem raiseRequest_reader (s : State) : (raiseRequest s).reader = s.reader := by simp only [raiseRequest]; (repeat' split) <;> simp
@[simp] theorem raiseRequest_weigh (s : State) : (raiseRequest s).weigh = s.weigh := by simp only [raiseRequest]; (repeat' split) <;> simp
@[simp] theorem raiseRequest_prof (s : State) : (raiseRequest s).prof = s.prof := by simp only [raiseRequest]; (repeat' split) <;> simp
@[simp] theorem raiseRequest_eval (s : State) : (raiseRequest s).eval = s.eval := by simp only [raiseRequest]; (repeat' split) <;> simp
@[simp] theorem raiseRequest_wrap (s : State) : (raiseRequest s).wrap = s.wrap := by simp only [raiseRequest]; (repeat' split) <;> simp
@[simp] theorem raiseRequest_label (s : State) : (raiseRequest s).label = s.label := by simp only [raiseRequest]; (repeat' split) <;> simp
@[simp] theorem raiseRequest_route (s : State) : (raiseRequest s).route = s.route := by simp only [raiseRequest]; (repeat' split) <;> simp
@[simp] theorem raiseRequest_free (s : State) : (raiseRequest s).free = s.free := by simp only [raiseRequest]; (repeat' split) <;> simp

@[simp] theorem lookUp_pending (ds : Digits) (s : State) : (lookUp ds s).pending = s.pending := by simp only [lookUp]; (repeat' split) <;> simp
@[simp] theorem lookUp_service (ds : Digits) (s : State) : (lookUp ds s).service = s.service := by simp only [lookUp]; (repeat' split) <;> simp
@[simp] theorem lookUp_cfg (ds : Digits) (s : State) : (lookUp ds s).cfg = s.cfg := by simp only [lookUp]; (repeat' split) <;> simp
@[simp] theorem lookUp_pins (ds : Digits) (s : State) : (lookUp ds s).pins = s.pins := by simp only [lookUp]; (repeat' split) <;> simp
@[simp] theorem lookUp_slot (ds : Digits) (s : State) : (lookUp ds s).slot = s.slot := by simp only [lookUp]; (repeat' split) <;> simp
@[simp] theorem lookUp_trackSeq (ds : Digits) (s : State) : (lookUp ds s).trackSeq = s.trackSeq := by simp only [lookUp]; (repeat' split) <;> simp
@[simp] theorem lookUp_zone (ds : Digits) (s : State) : (lookUp ds s).zone = s.zone := by simp only [lookUp]; (repeat' split) <;> simp
@[simp] theorem lookUp_reader (ds : Digits) (s : State) : (lookUp ds s).reader = s.reader := by simp only [lookUp]; (repeat' split) <;> simp
@[simp] theorem lookUp_weigh (ds : Digits) (s : State) : (lookUp ds s).weigh = s.weigh := by simp only [lookUp]; (repeat' split) <;> simp
@[simp] theorem lookUp_prof (ds : Digits) (s : State) : (lookUp ds s).prof = s.prof := by simp only [lookUp]; (repeat' split) <;> simp
@[simp] theorem lookUp_wrap (ds : Digits) (s : State) : (lookUp ds s).wrap = s.wrap := by simp only [lookUp]; (repeat' split) <;> simp
@[simp] theorem lookUp_label (ds : Digits) (s : State) : (lookUp ds s).label = s.label := by simp only [lookUp]; (repeat' split) <;> simp
@[simp] theorem lookUp_route (ds : Digits) (s : State) : (lookUp ds s).route = s.route := by simp only [lookUp]; (repeat' split) <;> simp
@[simp] theorem lookUp_free (ds : Digits) (s : State) : (lookUp ds s).free = s.free := by simp only [lookUp]; (repeat' split) <;> simp

@[simp] theorem endRequest_pending (s : State) : (endRequest s).pending = s.pending := by simp only [endRequest]; (repeat' split) <;> simp
@[simp] theorem endRequest_service (s : State) : (endRequest s).service = s.service := by simp only [endRequest]; (repeat' split) <;> simp
@[simp] theorem endRequest_cfg (s : State) : (endRequest s).cfg = s.cfg := by simp only [endRequest]; (repeat' split) <;> simp
@[simp] theorem endRequest_pins (s : State) : (endRequest s).pins = s.pins := by simp only [endRequest]; (repeat' split) <;> simp
@[simp] theorem endRequest_table (s : State) : (endRequest s).table = s.table := by simp only [endRequest]; (repeat' split) <;> simp
@[simp] theorem endRequest_slot (s : State) : (endRequest s).slot = s.slot := by simp only [endRequest]; (repeat' split) <;> simp
@[simp] theorem endRequest_trackSeq (s : State) : (endRequest s).trackSeq = s.trackSeq := by simp only [endRequest]; (repeat' split) <;> simp
@[simp] theorem endRequest_zone (s : State) : (endRequest s).zone = s.zone := by simp only [endRequest]; (repeat' split) <;> simp
@[simp] theorem endRequest_reader (s : State) : (endRequest s).reader = s.reader := by simp only [endRequest]; (repeat' split) <;> simp
@[simp] theorem endRequest_weigh (s : State) : (endRequest s).weigh = s.weigh := by simp only [endRequest]; (repeat' split) <;> simp
@[simp] theorem endRequest_prof (s : State) : (endRequest s).prof = s.prof := by simp only [endRequest]; (repeat' split) <;> simp
@[simp] theorem endRequest_eval (s : State) : (endRequest s).eval = s.eval := by simp only [endRequest]; (repeat' split) <;> simp
@[simp] theorem endRequest_wrap (s : State) : (endRequest s).wrap = s.wrap := by simp only [endRequest]; (repeat' split) <;> simp
@[simp] theorem endRequest_label (s : State) : (endRequest s).label = s.label := by simp only [endRequest]; (repeat' split) <;> simp
@[simp] theorem endRequest_route (s : State) : (endRequest s).route = s.route := by simp only [endRequest]; (repeat' split) <;> simp
@[simp] theorem endRequest_free (s : State) : (endRequest s).free = s.free := by simp only [endRequest]; (repeat' split) <;> simp

@[simp] theorem tagSerial_pending (ds : Digits) (s : State) : (tagSerial ds s).pending = s.pending := by simp only [tagSerial]; (repeat' split) <;> simp
@[simp] theorem tagSerial_service (ds : Digits) (s : State) : (tagSerial ds s).service = s.service := by simp only [tagSerial]; (repeat' split) <;> simp
@[simp] theorem tagSerial_cfg (ds : Digits) (s : State) : (tagSerial ds s).cfg = s.cfg := by simp only [tagSerial]; (repeat' split) <;> simp
@[simp] theorem tagSerial_pins (ds : Digits) (s : State) : (tagSerial ds s).pins = s.pins := by simp only [tagSerial]; (repeat' split) <;> simp
@[simp] theorem tagSerial_slot (ds : Digits) (s : State) : (tagSerial ds s).slot = s.slot := by simp only [tagSerial]; (repeat' split) <;> simp
@[simp] theorem tagSerial_trackSeq (ds : Digits) (s : State) : (tagSerial ds s).trackSeq = s.trackSeq := by simp only [tagSerial]; (repeat' split) <;> simp
@[simp] theorem tagSerial_zone (ds : Digits) (s : State) : (tagSerial ds s).zone = s.zone := by simp only [tagSerial]; (repeat' split) <;> simp
@[simp] theorem tagSerial_weigh (ds : Digits) (s : State) : (tagSerial ds s).weigh = s.weigh := by simp only [tagSerial]; (repeat' split) <;> simp
@[simp] theorem tagSerial_prof (ds : Digits) (s : State) : (tagSerial ds s).prof = s.prof := by simp only [tagSerial]; (repeat' split) <;> simp
@[simp] theorem tagSerial_wrap (ds : Digits) (s : State) : (tagSerial ds s).wrap = s.wrap := by simp only [tagSerial]; (repeat' split) <;> simp
@[simp] theorem tagSerial_label (ds : Digits) (s : State) : (tagSerial ds s).label = s.label := by simp only [tagSerial]; (repeat' split) <;> simp
@[simp] theorem tagSerial_route (ds : Digits) (s : State) : (tagSerial ds s).route = s.route := by simp only [tagSerial]; (repeat' split) <;> simp
@[simp] theorem tagSerial_free (ds : Digits) (s : State) : (tagSerial ds s).free = s.free := by simp only [tagSerial]; (repeat' split) <;> simp

@[simp] theorem tagUnread_pending (s : State) : (tagUnread s).pending = s.pending := by simp [tagUnread]
@[simp] theorem tagUnread_service (s : State) : (tagUnread s).service = s.service := by simp [tagUnread]
@[simp] theorem tagUnread_cfg (s : State) : (tagUnread s).cfg = s.cfg := by simp [tagUnread]
@[simp] theorem tagUnread_pins (s : State) : (tagUnread s).pins = s.pins := by simp [tagUnread]
@[simp] theorem tagUnread_line (s : State) : (tagUnread s).line = s.line := by simp [tagUnread]
@[simp] theorem tagUnread_table (s : State) : (tagUnread s).table = s.table := by simp [tagUnread]
@[simp] theorem tagUnread_slot (s : State) : (tagUnread s).slot = s.slot := by simp [tagUnread]
@[simp] theorem tagUnread_trackSeq (s : State) : (tagUnread s).trackSeq = s.trackSeq := by simp [tagUnread]
@[simp] theorem tagUnread_zone (s : State) : (tagUnread s).zone = s.zone := by simp [tagUnread]
@[simp] theorem tagUnread_store (s : State) : (tagUnread s).store = s.store := by simp [tagUnread]
@[simp] theorem tagUnread_weigh (s : State) : (tagUnread s).weigh = s.weigh := by simp [tagUnread]
@[simp] theorem tagUnread_prof (s : State) : (tagUnread s).prof = s.prof := by simp [tagUnread]
@[simp] theorem tagUnread_wrap (s : State) : (tagUnread s).wrap = s.wrap := by simp [tagUnread]
@[simp] theorem tagUnread_label (s : State) : (tagUnread s).label = s.label := by simp [tagUnread]
@[simp] theorem tagUnread_route (s : State) : (tagUnread s).route = s.route := by simp [tagUnread]
@[simp] theorem tagUnread_free (s : State) : (tagUnread s).free = s.free := by simp [tagUnread]

@[simp] theorem bindManifest_pending (m : Manifest) (s : State) : (bindManifest m s).pending = s.pending := by simp [bindManifest]
@[simp] theorem bindManifest_service (m : Manifest) (s : State) : (bindManifest m s).service = s.service := by simp [bindManifest]
@[simp] theorem bindManifest_cfg (m : Manifest) (s : State) : (bindManifest m s).cfg = s.cfg := by simp [bindManifest]
@[simp] theorem bindManifest_pins (m : Manifest) (s : State) : (bindManifest m s).pins = s.pins := by simp [bindManifest]
@[simp] theorem bindManifest_slot (m : Manifest) (s : State) : (bindManifest m s).slot = s.slot := by simp [bindManifest]
@[simp] theorem bindManifest_trackSeq (m : Manifest) (s : State) : (bindManifest m s).trackSeq = s.trackSeq := by simp [bindManifest]
@[simp] theorem bindManifest_zone (m : Manifest) (s : State) : (bindManifest m s).zone = s.zone := by simp [bindManifest]
@[simp] theorem bindManifest_reader (m : Manifest) (s : State) : (bindManifest m s).reader = s.reader := by simp [bindManifest]
@[simp] theorem bindManifest_weigh (m : Manifest) (s : State) : (bindManifest m s).weigh = s.weigh := by simp [bindManifest]
@[simp] theorem bindManifest_prof (m : Manifest) (s : State) : (bindManifest m s).prof = s.prof := by simp [bindManifest]
@[simp] theorem bindManifest_wrap (m : Manifest) (s : State) : (bindManifest m s).wrap = s.wrap := by simp [bindManifest]
@[simp] theorem bindManifest_label (m : Manifest) (s : State) : (bindManifest m s).label = s.label := by simp [bindManifest]
@[simp] theorem bindManifest_route (m : Manifest) (s : State) : (bindManifest m s).route = s.route := by simp [bindManifest]
@[simp] theorem bindManifest_free (m : Manifest) (s : State) : (bindManifest m s).free = s.free := by simp [bindManifest]

@[simp] theorem receiveManifest_pending (p : List Byte) (s : State) : (receiveManifest p s).pending = s.pending := by simp only [receiveManifest]; (repeat' split) <;> simp
@[simp] theorem receiveManifest_service (p : List Byte) (s : State) : (receiveManifest p s).service = s.service := by simp only [receiveManifest]; (repeat' split) <;> simp
@[simp] theorem receiveManifest_cfg (p : List Byte) (s : State) : (receiveManifest p s).cfg = s.cfg := by simp only [receiveManifest]; (repeat' split) <;> simp
@[simp] theorem receiveManifest_pins (p : List Byte) (s : State) : (receiveManifest p s).pins = s.pins := by simp only [receiveManifest]; (repeat' split) <;> simp
@[simp] theorem receiveManifest_slot (p : List Byte) (s : State) : (receiveManifest p s).slot = s.slot := by simp only [receiveManifest]; (repeat' split) <;> simp
@[simp] theorem receiveManifest_trackSeq (p : List Byte) (s : State) : (receiveManifest p s).trackSeq = s.trackSeq := by simp only [receiveManifest]; (repeat' split) <;> simp
@[simp] theorem receiveManifest_zone (p : List Byte) (s : State) : (receiveManifest p s).zone = s.zone := by simp only [receiveManifest]; (repeat' split) <;> simp
@[simp] theorem receiveManifest_reader (p : List Byte) (s : State) : (receiveManifest p s).reader = s.reader := by simp only [receiveManifest]; (repeat' split) <;> simp
@[simp] theorem receiveManifest_weigh (p : List Byte) (s : State) : (receiveManifest p s).weigh = s.weigh := by simp only [receiveManifest]; (repeat' split) <;> simp
@[simp] theorem receiveManifest_prof (p : List Byte) (s : State) : (receiveManifest p s).prof = s.prof := by simp only [receiveManifest]; (repeat' split) <;> simp
@[simp] theorem receiveManifest_wrap (p : List Byte) (s : State) : (receiveManifest p s).wrap = s.wrap := by simp only [receiveManifest]; (repeat' split) <;> simp
@[simp] theorem receiveManifest_label (p : List Byte) (s : State) : (receiveManifest p s).label = s.label := by simp only [receiveManifest]; (repeat' split) <;> simp
@[simp] theorem receiveManifest_route (p : List Byte) (s : State) : (receiveManifest p s).route = s.route := by simp only [receiveManifest]; (repeat' split) <;> simp
@[simp] theorem receiveManifest_free (p : List Byte) (s : State) : (receiveManifest p s).free = s.free := by simp only [receiveManifest]; (repeat' split) <;> simp


/-! ## Weigh Unit -/

@[simp] theorem emptyWindow_pending (s : State) : (emptyWindow s).pending = s.pending := by simp [emptyWindow]
@[simp] theorem emptyWindow_service (s : State) : (emptyWindow s).service = s.service := by simp [emptyWindow]
@[simp] theorem emptyWindow_cfg (s : State) : (emptyWindow s).cfg = s.cfg := by simp [emptyWindow]
@[simp] theorem emptyWindow_pins (s : State) : (emptyWindow s).pins = s.pins := by simp [emptyWindow]
@[simp] theorem emptyWindow_line (s : State) : (emptyWindow s).line = s.line := by simp [emptyWindow]
@[simp] theorem emptyWindow_table (s : State) : (emptyWindow s).table = s.table := by simp [emptyWindow]
@[simp] theorem emptyWindow_slot (s : State) : (emptyWindow s).slot = s.slot := by simp [emptyWindow]
@[simp] theorem emptyWindow_trackSeq (s : State) : (emptyWindow s).trackSeq = s.trackSeq := by simp [emptyWindow]
@[simp] theorem emptyWindow_zone (s : State) : (emptyWindow s).zone = s.zone := by simp [emptyWindow]
@[simp] theorem emptyWindow_store (s : State) : (emptyWindow s).store = s.store := by simp [emptyWindow]
@[simp] theorem emptyWindow_reader (s : State) : (emptyWindow s).reader = s.reader := by simp [emptyWindow]
@[simp] theorem emptyWindow_prof (s : State) : (emptyWindow s).prof = s.prof := by simp [emptyWindow]
@[simp] theorem emptyWindow_eval (s : State) : (emptyWindow s).eval = s.eval := by simp [emptyWindow]
@[simp] theorem emptyWindow_wrap (s : State) : (emptyWindow s).wrap = s.wrap := by simp [emptyWindow]
@[simp] theorem emptyWindow_label (s : State) : (emptyWindow s).label = s.label := by simp [emptyWindow]
@[simp] theorem emptyWindow_route (s : State) : (emptyWindow s).route = s.route := by simp [emptyWindow]
@[simp] theorem emptyWindow_free (s : State) : (emptyWindow s).free = s.free := by simp [emptyWindow]

@[simp] theorem setScaleFault_pending (k : ZeroFaultKind) (v : Option Int) (s : State) : (setScaleFault k v s).pending = s.pending := by simp only [setScaleFault]; (repeat' split) <;> simp
@[simp] theorem setScaleFault_service (k : ZeroFaultKind) (v : Option Int) (s : State) : (setScaleFault k v s).service = s.service := by simp only [setScaleFault]; (repeat' split) <;> simp
@[simp] theorem setScaleFault_cfg (k : ZeroFaultKind) (v : Option Int) (s : State) : (setScaleFault k v s).cfg = s.cfg := by simp only [setScaleFault]; (repeat' split) <;> simp
@[simp] theorem setScaleFault_pins (k : ZeroFaultKind) (v : Option Int) (s : State) : (setScaleFault k v s).pins = s.pins := by simp only [setScaleFault]; (repeat' split) <;> simp
@[simp] theorem setScaleFault_table (k : ZeroFaultKind) (v : Option Int) (s : State) : (setScaleFault k v s).table = s.table := by simp only [setScaleFault]; (repeat' split) <;> simp
@[simp] theorem setScaleFault_slot (k : ZeroFaultKind) (v : Option Int) (s : State) : (setScaleFault k v s).slot = s.slot := by simp only [setScaleFault]; (repeat' split) <;> simp
@[simp] theorem setScaleFault_trackSeq (k : ZeroFaultKind) (v : Option Int) (s : State) : (setScaleFault k v s).trackSeq = s.trackSeq := by simp only [setScaleFault]; (repeat' split) <;> simp
@[simp] theorem setScaleFault_zone (k : ZeroFaultKind) (v : Option Int) (s : State) : (setScaleFault k v s).zone = s.zone := by simp only [setScaleFault]; (repeat' split) <;> simp
@[simp] theorem setScaleFault_store (k : ZeroFaultKind) (v : Option Int) (s : State) : (setScaleFault k v s).store = s.store := by simp only [setScaleFault]; (repeat' split) <;> simp
@[simp] theorem setScaleFault_reader (k : ZeroFaultKind) (v : Option Int) (s : State) : (setScaleFault k v s).reader = s.reader := by simp only [setScaleFault]; (repeat' split) <;> simp
@[simp] theorem setScaleFault_prof (k : ZeroFaultKind) (v : Option Int) (s : State) : (setScaleFault k v s).prof = s.prof := by simp only [setScaleFault]; (repeat' split) <;> simp
@[simp] theorem setScaleFault_eval (k : ZeroFaultKind) (v : Option Int) (s : State) : (setScaleFault k v s).eval = s.eval := by simp only [setScaleFault]; (repeat' split) <;> simp
@[simp] theorem setScaleFault_wrap (k : ZeroFaultKind) (v : Option Int) (s : State) : (setScaleFault k v s).wrap = s.wrap := by simp only [setScaleFault]; (repeat' split) <;> simp
@[simp] theorem setScaleFault_label (k : ZeroFaultKind) (v : Option Int) (s : State) : (setScaleFault k v s).label = s.label := by simp only [setScaleFault]; (repeat' split) <;> simp
@[simp] theorem setScaleFault_route (k : ZeroFaultKind) (v : Option Int) (s : State) : (setScaleFault k v s).route = s.route := by simp only [setScaleFault]; (repeat' split) <;> simp
@[simp] theorem setScaleFault_free (k : ZeroFaultKind) (v : Option Int) (s : State) : (setScaleFault k v s).free = s.free := by simp only [setScaleFault]; (repeat' split) <;> simp

@[simp] theorem zeroAttempt_pending (s : State) : (zeroAttempt s).pending = s.pending := by simp only [zeroAttempt]; (repeat' split) <;> simp
@[simp] theorem zeroAttempt_service (s : State) : (zeroAttempt s).service = s.service := by simp only [zeroAttempt]; (repeat' split) <;> simp
@[simp] theorem zeroAttempt_cfg (s : State) : (zeroAttempt s).cfg = s.cfg := by simp only [zeroAttempt]; (repeat' split) <;> simp
@[simp] theorem zeroAttempt_pins (s : State) : (zeroAttempt s).pins = s.pins := by simp only [zeroAttempt]; (repeat' split) <;> simp
@[simp] theorem zeroAttempt_table (s : State) : (zeroAttempt s).table = s.table := by simp only [zeroAttempt]; (repeat' split) <;> simp
@[simp] theorem zeroAttempt_slot (s : State) : (zeroAttempt s).slot = s.slot := by simp only [zeroAttempt]; (repeat' split) <;> simp
@[simp] theorem zeroAttempt_trackSeq (s : State) : (zeroAttempt s).trackSeq = s.trackSeq := by simp only [zeroAttempt]; (repeat' split) <;> simp
@[simp] theorem zeroAttempt_zone (s : State) : (zeroAttempt s).zone = s.zone := by simp only [zeroAttempt]; (repeat' split) <;> simp
@[simp] theorem zeroAttempt_store (s : State) : (zeroAttempt s).store = s.store := by simp only [zeroAttempt]; (repeat' split) <;> simp
@[simp] theorem zeroAttempt_reader (s : State) : (zeroAttempt s).reader = s.reader := by simp only [zeroAttempt]; (repeat' split) <;> simp
@[simp] theorem zeroAttempt_prof (s : State) : (zeroAttempt s).prof = s.prof := by simp only [zeroAttempt]; (repeat' split) <;> simp
@[simp] theorem zeroAttempt_eval (s : State) : (zeroAttempt s).eval = s.eval := by simp only [zeroAttempt]; (repeat' split) <;> simp
@[simp] theorem zeroAttempt_wrap (s : State) : (zeroAttempt s).wrap = s.wrap := by simp only [zeroAttempt]; (repeat' split) <;> simp
@[simp] theorem zeroAttempt_label (s : State) : (zeroAttempt s).label = s.label := by simp only [zeroAttempt]; (repeat' split) <;> simp
@[simp] theorem zeroAttempt_route (s : State) : (zeroAttempt s).route = s.route := by simp only [zeroAttempt]; (repeat' split) <;> simp
@[simp] theorem zeroAttempt_free (s : State) : (zeroAttempt s).free = s.free := by simp only [zeroAttempt]; (repeat' split) <;> simp

@[simp] theorem postponeZero_pending (s : State) : (postponeZero s).pending = s.pending := by simp only [postponeZero]; (repeat' split) <;> simp
@[simp] theorem postponeZero_service (s : State) : (postponeZero s).service = s.service := by simp only [postponeZero]; (repeat' split) <;> simp
@[simp] theorem postponeZero_cfg (s : State) : (postponeZero s).cfg = s.cfg := by simp only [postponeZero]; (repeat' split) <;> simp
@[simp] theorem postponeZero_pins (s : State) : (postponeZero s).pins = s.pins := by simp only [postponeZero]; (repeat' split) <;> simp
@[simp] theorem postponeZero_table (s : State) : (postponeZero s).table = s.table := by simp only [postponeZero]; (repeat' split) <;> simp
@[simp] theorem postponeZero_slot (s : State) : (postponeZero s).slot = s.slot := by simp only [postponeZero]; (repeat' split) <;> simp
@[simp] theorem postponeZero_trackSeq (s : State) : (postponeZero s).trackSeq = s.trackSeq := by simp only [postponeZero]; (repeat' split) <;> simp
@[simp] theorem postponeZero_zone (s : State) : (postponeZero s).zone = s.zone := by simp only [postponeZero]; (repeat' split) <;> simp
@[simp] theorem postponeZero_store (s : State) : (postponeZero s).store = s.store := by simp only [postponeZero]; (repeat' split) <;> simp
@[simp] theorem postponeZero_reader (s : State) : (postponeZero s).reader = s.reader := by simp only [postponeZero]; (repeat' split) <;> simp
@[simp] theorem postponeZero_prof (s : State) : (postponeZero s).prof = s.prof := by simp only [postponeZero]; (repeat' split) <;> simp
@[simp] theorem postponeZero_eval (s : State) : (postponeZero s).eval = s.eval := by simp only [postponeZero]; (repeat' split) <;> simp
@[simp] theorem postponeZero_wrap (s : State) : (postponeZero s).wrap = s.wrap := by simp only [postponeZero]; (repeat' split) <;> simp
@[simp] theorem postponeZero_label (s : State) : (postponeZero s).label = s.label := by simp only [postponeZero]; (repeat' split) <;> simp
@[simp] theorem postponeZero_route (s : State) : (postponeZero s).route = s.route := by simp only [postponeZero]; (repeat' split) <;> simp
@[simp] theorem postponeZero_free (s : State) : (postponeZero s).free = s.free := by simp only [postponeZero]; (repeat' split) <;> simp

@[simp] theorem handMass_pending (m : Option MassResolution) (s : State) : (handMass m s).pending = s.pending := by simp [handMass]
@[simp] theorem handMass_service (m : Option MassResolution) (s : State) : (handMass m s).service = s.service := by simp [handMass]
@[simp] theorem handMass_cfg (m : Option MassResolution) (s : State) : (handMass m s).cfg = s.cfg := by simp [handMass]
@[simp] theorem handMass_pins (m : Option MassResolution) (s : State) : (handMass m s).pins = s.pins := by simp [handMass]
@[simp] theorem handMass_line (m : Option MassResolution) (s : State) : (handMass m s).line = s.line := by simp [handMass]
@[simp] theorem handMass_table (m : Option MassResolution) (s : State) : (handMass m s).table = s.table := by simp [handMass]
@[simp] theorem handMass_slot (m : Option MassResolution) (s : State) : (handMass m s).slot = s.slot := by simp [handMass]
@[simp] theorem handMass_trackSeq (m : Option MassResolution) (s : State) : (handMass m s).trackSeq = s.trackSeq := by simp [handMass]
@[simp] theorem handMass_zone (m : Option MassResolution) (s : State) : (handMass m s).zone = s.zone := by simp [handMass]
@[simp] theorem handMass_store (m : Option MassResolution) (s : State) : (handMass m s).store = s.store := by simp [handMass]
@[simp] theorem handMass_reader (m : Option MassResolution) (s : State) : (handMass m s).reader = s.reader := by simp [handMass]
@[simp] theorem handMass_weigh (m : Option MassResolution) (s : State) : (handMass m s).weigh = s.weigh := by simp [handMass]
@[simp] theorem handMass_prof (m : Option MassResolution) (s : State) : (handMass m s).prof = s.prof := by simp [handMass]
@[simp] theorem handMass_wrap (m : Option MassResolution) (s : State) : (handMass m s).wrap = s.wrap := by simp [handMass]
@[simp] theorem handMass_label (m : Option MassResolution) (s : State) : (handMass m s).label = s.label := by simp [handMass]
@[simp] theorem handMass_route (m : Option MassResolution) (s : State) : (handMass m s).route = s.route := by simp [handMass]
@[simp] theorem handMass_free (m : Option MassResolution) (s : State) : (handMass m s).free = s.free := by simp [handMass]

@[simp] theorem startWeighing_pending (s : State) : (startWeighing s).pending = s.pending := by simp only [startWeighing]; (repeat' split) <;> simp
@[simp] theorem startWeighing_service (s : State) : (startWeighing s).service = s.service := by simp only [startWeighing]; (repeat' split) <;> simp
@[simp] theorem startWeighing_cfg (s : State) : (startWeighing s).cfg = s.cfg := by simp only [startWeighing]; (repeat' split) <;> simp
@[simp] theorem startWeighing_pins (s : State) : (startWeighing s).pins = s.pins := by simp only [startWeighing]; (repeat' split) <;> simp
@[simp] theorem startWeighing_line (s : State) : (startWeighing s).line = s.line := by simp only [startWeighing]; (repeat' split) <;> simp
@[simp] theorem startWeighing_table (s : State) : (startWeighing s).table = s.table := by simp only [startWeighing]; (repeat' split) <;> simp
@[simp] theorem startWeighing_slot (s : State) : (startWeighing s).slot = s.slot := by simp only [startWeighing]; (repeat' split) <;> simp
@[simp] theorem startWeighing_trackSeq (s : State) : (startWeighing s).trackSeq = s.trackSeq := by simp only [startWeighing]; (repeat' split) <;> simp
@[simp] theorem startWeighing_zone (s : State) : (startWeighing s).zone = s.zone := by simp only [startWeighing]; (repeat' split) <;> simp
@[simp] theorem startWeighing_store (s : State) : (startWeighing s).store = s.store := by simp only [startWeighing]; (repeat' split) <;> simp
@[simp] theorem startWeighing_reader (s : State) : (startWeighing s).reader = s.reader := by simp only [startWeighing]; (repeat' split) <;> simp
@[simp] theorem startWeighing_prof (s : State) : (startWeighing s).prof = s.prof := by simp only [startWeighing]; (repeat' split) <;> simp
@[simp] theorem startWeighing_wrap (s : State) : (startWeighing s).wrap = s.wrap := by simp only [startWeighing]; (repeat' split) <;> simp
@[simp] theorem startWeighing_label (s : State) : (startWeighing s).label = s.label := by simp only [startWeighing]; (repeat' split) <;> simp
@[simp] theorem startWeighing_route (s : State) : (startWeighing s).route = s.route := by simp only [startWeighing]; (repeat' split) <;> simp
@[simp] theorem startWeighing_free (s : State) : (startWeighing s).free = s.free := by simp only [startWeighing]; (repeat' split) <;> simp

@[simp] theorem endWeighing_pending (m : MassResolution) (s : State) : (endWeighing m s).pending = s.pending := by simp [endWeighing]
@[simp] theorem endWeighing_service (m : MassResolution) (s : State) : (endWeighing m s).service = s.service := by simp [endWeighing]
@[simp] theorem endWeighing_cfg (m : MassResolution) (s : State) : (endWeighing m s).cfg = s.cfg := by simp [endWeighing]
@[simp] theorem endWeighing_pins (m : MassResolution) (s : State) : (endWeighing m s).pins = s.pins := by simp [endWeighing]
@[simp] theorem endWeighing_line (m : MassResolution) (s : State) : (endWeighing m s).line = s.line := by simp [endWeighing]
@[simp] theorem endWeighing_table (m : MassResolution) (s : State) : (endWeighing m s).table = s.table := by simp [endWeighing]
@[simp] theorem endWeighing_slot (m : MassResolution) (s : State) : (endWeighing m s).slot = s.slot := by simp [endWeighing]
@[simp] theorem endWeighing_trackSeq (m : MassResolution) (s : State) : (endWeighing m s).trackSeq = s.trackSeq := by simp [endWeighing]
@[simp] theorem endWeighing_zone (m : MassResolution) (s : State) : (endWeighing m s).zone = s.zone := by simp [endWeighing]
@[simp] theorem endWeighing_store (m : MassResolution) (s : State) : (endWeighing m s).store = s.store := by simp [endWeighing]
@[simp] theorem endWeighing_reader (m : MassResolution) (s : State) : (endWeighing m s).reader = s.reader := by simp [endWeighing]
@[simp] theorem endWeighing_prof (m : MassResolution) (s : State) : (endWeighing m s).prof = s.prof := by simp [endWeighing]
@[simp] theorem endWeighing_wrap (m : MassResolution) (s : State) : (endWeighing m s).wrap = s.wrap := by simp [endWeighing]
@[simp] theorem endWeighing_label (m : MassResolution) (s : State) : (endWeighing m s).label = s.label := by simp [endWeighing]
@[simp] theorem endWeighing_route (m : MassResolution) (s : State) : (endWeighing m s).route = s.route := by simp [endWeighing]
@[simp] theorem endWeighing_free (m : MassResolution) (s : State) : (endWeighing m s).free = s.free := by simp [endWeighing]

@[simp] theorem takeStable_pending (s : State) : (takeStable s).pending = s.pending := by simp only [takeStable]; (repeat' split) <;> simp
@[simp] theorem takeStable_service (s : State) : (takeStable s).service = s.service := by simp only [takeStable]; (repeat' split) <;> simp
@[simp] theorem takeStable_cfg (s : State) : (takeStable s).cfg = s.cfg := by simp only [takeStable]; (repeat' split) <;> simp
@[simp] theorem takeStable_pins (s : State) : (takeStable s).pins = s.pins := by simp only [takeStable]; (repeat' split) <;> simp
@[simp] theorem takeStable_line (s : State) : (takeStable s).line = s.line := by simp only [takeStable]; (repeat' split) <;> simp
@[simp] theorem takeStable_table (s : State) : (takeStable s).table = s.table := by simp only [takeStable]; (repeat' split) <;> simp
@[simp] theorem takeStable_slot (s : State) : (takeStable s).slot = s.slot := by simp only [takeStable]; (repeat' split) <;> simp
@[simp] theorem takeStable_trackSeq (s : State) : (takeStable s).trackSeq = s.trackSeq := by simp only [takeStable]; (repeat' split) <;> simp
@[simp] theorem takeStable_zone (s : State) : (takeStable s).zone = s.zone := by simp only [takeStable]; (repeat' split) <;> simp
@[simp] theorem takeStable_store (s : State) : (takeStable s).store = s.store := by simp only [takeStable]; (repeat' split) <;> simp
@[simp] theorem takeStable_reader (s : State) : (takeStable s).reader = s.reader := by simp only [takeStable]; (repeat' split) <;> simp
@[simp] theorem takeStable_prof (s : State) : (takeStable s).prof = s.prof := by simp only [takeStable]; (repeat' split) <;> simp
@[simp] theorem takeStable_wrap (s : State) : (takeStable s).wrap = s.wrap := by simp only [takeStable]; (repeat' split) <;> simp
@[simp] theorem takeStable_label (s : State) : (takeStable s).label = s.label := by simp only [takeStable]; (repeat' split) <;> simp
@[simp] theorem takeStable_route (s : State) : (takeStable s).route = s.route := by simp only [takeStable]; (repeat' split) <;> simp
@[simp] theorem takeStable_free (s : State) : (takeStable s).free = s.free := by simp only [takeStable]; (repeat' split) <;> simp

@[simp] theorem disturb_pending (s : State) : (disturb s).pending = s.pending := by simp only [disturb]; (repeat' split) <;> simp
@[simp] theorem disturb_service (s : State) : (disturb s).service = s.service := by simp only [disturb]; (repeat' split) <;> simp
@[simp] theorem disturb_cfg (s : State) : (disturb s).cfg = s.cfg := by simp only [disturb]; (repeat' split) <;> simp
@[simp] theorem disturb_pins (s : State) : (disturb s).pins = s.pins := by simp only [disturb]; (repeat' split) <;> simp
@[simp] theorem disturb_line (s : State) : (disturb s).line = s.line := by simp only [disturb]; (repeat' split) <;> simp
@[simp] theorem disturb_table (s : State) : (disturb s).table = s.table := by simp only [disturb]; (repeat' split) <;> simp
@[simp] theorem disturb_slot (s : State) : (disturb s).slot = s.slot := by simp only [disturb]; (repeat' split) <;> simp
@[simp] theorem disturb_trackSeq (s : State) : (disturb s).trackSeq = s.trackSeq := by simp only [disturb]; (repeat' split) <;> simp
@[simp] theorem disturb_zone (s : State) : (disturb s).zone = s.zone := by simp only [disturb]; (repeat' split) <;> simp
@[simp] theorem disturb_store (s : State) : (disturb s).store = s.store := by simp only [disturb]; (repeat' split) <;> simp
@[simp] theorem disturb_reader (s : State) : (disturb s).reader = s.reader := by simp only [disturb]; (repeat' split) <;> simp
@[simp] theorem disturb_prof (s : State) : (disturb s).prof = s.prof := by simp only [disturb]; (repeat' split) <;> simp
@[simp] theorem disturb_wrap (s : State) : (disturb s).wrap = s.wrap := by simp only [disturb]; (repeat' split) <;> simp
@[simp] theorem disturb_label (s : State) : (disturb s).label = s.label := by simp only [disturb]; (repeat' split) <;> simp
@[simp] theorem disturb_route (s : State) : (disturb s).route = s.route := by simp only [disturb]; (repeat' split) <;> simp
@[simp] theorem disturb_free (s : State) : (disturb s).free = s.free := by simp only [disturb]; (repeat' split) <;> simp

@[simp] theorem joinScan_pending (x : Sample) (s : State) : (joinScan x s).pending = s.pending := by simp [joinScan]
@[simp] theorem joinScan_service (x : Sample) (s : State) : (joinScan x s).service = s.service := by simp [joinScan]
@[simp] theorem joinScan_cfg (x : Sample) (s : State) : (joinScan x s).cfg = s.cfg := by simp [joinScan]
@[simp] theorem joinScan_pins (x : Sample) (s : State) : (joinScan x s).pins = s.pins := by simp [joinScan]
@[simp] theorem joinScan_line (x : Sample) (s : State) : (joinScan x s).line = s.line := by simp [joinScan]
@[simp] theorem joinScan_table (x : Sample) (s : State) : (joinScan x s).table = s.table := by simp [joinScan]
@[simp] theorem joinScan_slot (x : Sample) (s : State) : (joinScan x s).slot = s.slot := by simp [joinScan]
@[simp] theorem joinScan_trackSeq (x : Sample) (s : State) : (joinScan x s).trackSeq = s.trackSeq := by simp [joinScan]
@[simp] theorem joinScan_zone (x : Sample) (s : State) : (joinScan x s).zone = s.zone := by simp [joinScan]
@[simp] theorem joinScan_store (x : Sample) (s : State) : (joinScan x s).store = s.store := by simp [joinScan]
@[simp] theorem joinScan_reader (x : Sample) (s : State) : (joinScan x s).reader = s.reader := by simp [joinScan]
@[simp] theorem joinScan_prof (x : Sample) (s : State) : (joinScan x s).prof = s.prof := by simp [joinScan]
@[simp] theorem joinScan_eval (x : Sample) (s : State) : (joinScan x s).eval = s.eval := by simp [joinScan]
@[simp] theorem joinScan_wrap (x : Sample) (s : State) : (joinScan x s).wrap = s.wrap := by simp [joinScan]
@[simp] theorem joinScan_label (x : Sample) (s : State) : (joinScan x s).label = s.label := by simp [joinScan]
@[simp] theorem joinScan_route (x : Sample) (s : State) : (joinScan x s).route = s.route := by simp [joinScan]
@[simp] theorem joinScan_free (x : Sample) (s : State) : (joinScan x s).free = s.free := by simp [joinScan]

@[simp] theorem flaggedWindow_pending (x : Sample) (s : State) : (flaggedWindow x s).pending = s.pending := by simp only [flaggedWindow]; split <;> rfl
@[simp] theorem flaggedWindow_service (x : Sample) (s : State) : (flaggedWindow x s).service = s.service := by simp only [flaggedWindow]; split <;> rfl
@[simp] theorem flaggedWindow_cfg (x : Sample) (s : State) : (flaggedWindow x s).cfg = s.cfg := by simp only [flaggedWindow]; split <;> rfl
@[simp] theorem flaggedWindow_pins (x : Sample) (s : State) : (flaggedWindow x s).pins = s.pins := by simp only [flaggedWindow]; split <;> rfl
@[simp] theorem flaggedWindow_line (x : Sample) (s : State) : (flaggedWindow x s).line = s.line := by simp only [flaggedWindow]; split <;> rfl
@[simp] theorem flaggedWindow_table (x : Sample) (s : State) : (flaggedWindow x s).table = s.table := by simp only [flaggedWindow]; split <;> rfl
@[simp] theorem flaggedWindow_slot (x : Sample) (s : State) : (flaggedWindow x s).slot = s.slot := by simp only [flaggedWindow]; split <;> rfl
@[simp] theorem flaggedWindow_trackSeq (x : Sample) (s : State) : (flaggedWindow x s).trackSeq = s.trackSeq := by simp only [flaggedWindow]; split <;> rfl
@[simp] theorem flaggedWindow_zone (x : Sample) (s : State) : (flaggedWindow x s).zone = s.zone := by simp only [flaggedWindow]; split <;> rfl
@[simp] theorem flaggedWindow_store (x : Sample) (s : State) : (flaggedWindow x s).store = s.store := by simp only [flaggedWindow]; split <;> rfl
@[simp] theorem flaggedWindow_reader (x : Sample) (s : State) : (flaggedWindow x s).reader = s.reader := by simp only [flaggedWindow]; split <;> rfl
@[simp] theorem flaggedWindow_prof (x : Sample) (s : State) : (flaggedWindow x s).prof = s.prof := by simp only [flaggedWindow]; split <;> rfl
@[simp] theorem flaggedWindow_eval (x : Sample) (s : State) : (flaggedWindow x s).eval = s.eval := by simp only [flaggedWindow]; split <;> rfl
@[simp] theorem flaggedWindow_wrap (x : Sample) (s : State) : (flaggedWindow x s).wrap = s.wrap := by simp only [flaggedWindow]; split <;> rfl
@[simp] theorem flaggedWindow_label (x : Sample) (s : State) : (flaggedWindow x s).label = s.label := by simp only [flaggedWindow]; split <;> rfl
@[simp] theorem flaggedWindow_route (x : Sample) (s : State) : (flaggedWindow x s).route = s.route := by simp only [flaggedWindow]; split <;> rfl
@[simp] theorem flaggedWindow_free (x : Sample) (s : State) : (flaggedWindow x s).free = s.free := by simp only [flaggedWindow]; split <;> rfl
@[simp] theorem weighScan_pending (x : Sample) (s : State) : (weighScan x s).pending = s.pending := by simp only [weighScan]; (repeat' split) <;> simp
@[simp] theorem weighScan_service (x : Sample) (s : State) : (weighScan x s).service = s.service := by simp only [weighScan]; (repeat' split) <;> simp
@[simp] theorem weighScan_cfg (x : Sample) (s : State) : (weighScan x s).cfg = s.cfg := by simp only [weighScan]; (repeat' split) <;> simp
@[simp] theorem weighScan_pins (x : Sample) (s : State) : (weighScan x s).pins = s.pins := by simp only [weighScan]; (repeat' split) <;> simp
@[simp] theorem weighScan_line (x : Sample) (s : State) : (weighScan x s).line = s.line := by simp only [weighScan]; (repeat' split) <;> simp
@[simp] theorem weighScan_table (x : Sample) (s : State) : (weighScan x s).table = s.table := by simp only [weighScan]; (repeat' split) <;> simp
@[simp] theorem weighScan_slot (x : Sample) (s : State) : (weighScan x s).slot = s.slot := by simp only [weighScan]; (repeat' split) <;> simp
@[simp] theorem weighScan_trackSeq (x : Sample) (s : State) : (weighScan x s).trackSeq = s.trackSeq := by simp only [weighScan]; (repeat' split) <;> simp
@[simp] theorem weighScan_zone (x : Sample) (s : State) : (weighScan x s).zone = s.zone := by simp only [weighScan]; (repeat' split) <;> simp
@[simp] theorem weighScan_store (x : Sample) (s : State) : (weighScan x s).store = s.store := by simp only [weighScan]; (repeat' split) <;> simp
@[simp] theorem weighScan_reader (x : Sample) (s : State) : (weighScan x s).reader = s.reader := by simp only [weighScan]; (repeat' split) <;> simp
@[simp] theorem weighScan_prof (x : Sample) (s : State) : (weighScan x s).prof = s.prof := by simp only [weighScan]; (repeat' split) <;> simp
@[simp] theorem weighScan_wrap (x : Sample) (s : State) : (weighScan x s).wrap = s.wrap := by simp only [weighScan]; (repeat' split) <;> simp
@[simp] theorem weighScan_label (x : Sample) (s : State) : (weighScan x s).label = s.label := by simp only [weighScan]; (repeat' split) <;> simp
@[simp] theorem weighScan_route (x : Sample) (s : State) : (weighScan x s).route = s.route := by simp only [weighScan]; (repeat' split) <;> simp
@[simp] theorem weighScan_free (x : Sample) (s : State) : (weighScan x s).free = s.free := by simp only [weighScan]; (repeat' split) <;> simp


/-! ## Profile Unit -/

@[simp] theorem resetProfiling_pending (ph : Phase) (s : State) : (resetProfiling ph s).pending = s.pending := by simp [resetProfiling]
@[simp] theorem resetProfiling_service (ph : Phase) (s : State) : (resetProfiling ph s).service = s.service := by simp [resetProfiling]
@[simp] theorem resetProfiling_cfg (ph : Phase) (s : State) : (resetProfiling ph s).cfg = s.cfg := by simp [resetProfiling]
@[simp] theorem resetProfiling_pins (ph : Phase) (s : State) : (resetProfiling ph s).pins = s.pins := by simp [resetProfiling]
@[simp] theorem resetProfiling_line (ph : Phase) (s : State) : (resetProfiling ph s).line = s.line := by simp [resetProfiling]
@[simp] theorem resetProfiling_table (ph : Phase) (s : State) : (resetProfiling ph s).table = s.table := by simp [resetProfiling]
@[simp] theorem resetProfiling_slot (ph : Phase) (s : State) : (resetProfiling ph s).slot = s.slot := by simp [resetProfiling]
@[simp] theorem resetProfiling_trackSeq (ph : Phase) (s : State) : (resetProfiling ph s).trackSeq = s.trackSeq := by simp [resetProfiling]
@[simp] theorem resetProfiling_zone (ph : Phase) (s : State) : (resetProfiling ph s).zone = s.zone := by simp [resetProfiling]
@[simp] theorem resetProfiling_store (ph : Phase) (s : State) : (resetProfiling ph s).store = s.store := by simp [resetProfiling]
@[simp] theorem resetProfiling_reader (ph : Phase) (s : State) : (resetProfiling ph s).reader = s.reader := by simp [resetProfiling]
@[simp] theorem resetProfiling_weigh (ph : Phase) (s : State) : (resetProfiling ph s).weigh = s.weigh := by simp [resetProfiling]
@[simp] theorem resetProfiling_eval (ph : Phase) (s : State) : (resetProfiling ph s).eval = s.eval := by simp [resetProfiling]
@[simp] theorem resetProfiling_wrap (ph : Phase) (s : State) : (resetProfiling ph s).wrap = s.wrap := by simp [resetProfiling]
@[simp] theorem resetProfiling_label (ph : Phase) (s : State) : (resetProfiling ph s).label = s.label := by simp [resetProfiling]
@[simp] theorem resetProfiling_route (ph : Phase) (s : State) : (resetProfiling ph s).route = s.route := by simp [resetProfiling]
@[simp] theorem resetProfiling_free (ph : Phase) (s : State) : (resetProfiling ph s).free = s.free := by simp [resetProfiling]

@[simp] theorem handProfile_pending (p : Option ProfileResolution) (s : State) : (handProfile p s).pending = s.pending := by simp [handProfile]
@[simp] theorem handProfile_service (p : Option ProfileResolution) (s : State) : (handProfile p s).service = s.service := by simp [handProfile]
@[simp] theorem handProfile_cfg (p : Option ProfileResolution) (s : State) : (handProfile p s).cfg = s.cfg := by simp [handProfile]
@[simp] theorem handProfile_pins (p : Option ProfileResolution) (s : State) : (handProfile p s).pins = s.pins := by simp [handProfile]
@[simp] theorem handProfile_line (p : Option ProfileResolution) (s : State) : (handProfile p s).line = s.line := by simp [handProfile]
@[simp] theorem handProfile_table (p : Option ProfileResolution) (s : State) : (handProfile p s).table = s.table := by simp [handProfile]
@[simp] theorem handProfile_slot (p : Option ProfileResolution) (s : State) : (handProfile p s).slot = s.slot := by simp [handProfile]
@[simp] theorem handProfile_trackSeq (p : Option ProfileResolution) (s : State) : (handProfile p s).trackSeq = s.trackSeq := by simp [handProfile]
@[simp] theorem handProfile_zone (p : Option ProfileResolution) (s : State) : (handProfile p s).zone = s.zone := by simp [handProfile]
@[simp] theorem handProfile_store (p : Option ProfileResolution) (s : State) : (handProfile p s).store = s.store := by simp [handProfile]
@[simp] theorem handProfile_reader (p : Option ProfileResolution) (s : State) : (handProfile p s).reader = s.reader := by simp [handProfile]
@[simp] theorem handProfile_weigh (p : Option ProfileResolution) (s : State) : (handProfile p s).weigh = s.weigh := by simp [handProfile]
@[simp] theorem handProfile_prof (p : Option ProfileResolution) (s : State) : (handProfile p s).prof = s.prof := by simp [handProfile]
@[simp] theorem handProfile_wrap (p : Option ProfileResolution) (s : State) : (handProfile p s).wrap = s.wrap := by simp [handProfile]
@[simp] theorem handProfile_label (p : Option ProfileResolution) (s : State) : (handProfile p s).label = s.label := by simp [handProfile]
@[simp] theorem handProfile_route (p : Option ProfileResolution) (s : State) : (handProfile p s).route = s.route := by simp [handProfile]
@[simp] theorem handProfile_free (p : Option ProfileResolution) (s : State) : (handProfile p s).free = s.free := by simp [handProfile]

@[simp] theorem completeProfile_pending (n : Nat) (b : Bool) (s : State) : (completeProfile n b s).pending = s.pending := by simp [completeProfile]
@[simp] theorem completeProfile_service (n : Nat) (b : Bool) (s : State) : (completeProfile n b s).service = s.service := by simp [completeProfile]
@[simp] theorem completeProfile_cfg (n : Nat) (b : Bool) (s : State) : (completeProfile n b s).cfg = s.cfg := by simp [completeProfile]
@[simp] theorem completeProfile_pins (n : Nat) (b : Bool) (s : State) : (completeProfile n b s).pins = s.pins := by simp [completeProfile]
@[simp] theorem completeProfile_line (n : Nat) (b : Bool) (s : State) : (completeProfile n b s).line = s.line := by simp [completeProfile]
@[simp] theorem completeProfile_table (n : Nat) (b : Bool) (s : State) : (completeProfile n b s).table = s.table := by simp [completeProfile]
@[simp] theorem completeProfile_slot (n : Nat) (b : Bool) (s : State) : (completeProfile n b s).slot = s.slot := by simp [completeProfile]
@[simp] theorem completeProfile_trackSeq (n : Nat) (b : Bool) (s : State) : (completeProfile n b s).trackSeq = s.trackSeq := by simp [completeProfile]
@[simp] theorem completeProfile_zone (n : Nat) (b : Bool) (s : State) : (completeProfile n b s).zone = s.zone := by simp [completeProfile]
@[simp] theorem completeProfile_store (n : Nat) (b : Bool) (s : State) : (completeProfile n b s).store = s.store := by simp [completeProfile]
@[simp] theorem completeProfile_reader (n : Nat) (b : Bool) (s : State) : (completeProfile n b s).reader = s.reader := by simp [completeProfile]
@[simp] theorem completeProfile_weigh (n : Nat) (b : Bool) (s : State) : (completeProfile n b s).weigh = s.weigh := by simp [completeProfile]
@[simp] theorem completeProfile_wrap (n : Nat) (b : Bool) (s : State) : (completeProfile n b s).wrap = s.wrap := by simp [completeProfile]
@[simp] theorem completeProfile_label (n : Nat) (b : Bool) (s : State) : (completeProfile n b s).label = s.label := by simp [completeProfile]
@[simp] theorem completeProfile_route (n : Nat) (b : Bool) (s : State) : (completeProfile n b s).route = s.route := by simp [completeProfile]
@[simp] theorem completeProfile_free (n : Nat) (b : Bool) (s : State) : (completeProfile n b s).free = s.free := by simp [completeProfile]

@[simp] theorem faultProfile_pending (s : State) : (faultProfile s).pending = s.pending := by simp [faultProfile]
@[simp] theorem faultProfile_service (s : State) : (faultProfile s).service = s.service := by simp [faultProfile]
@[simp] theorem faultProfile_cfg (s : State) : (faultProfile s).cfg = s.cfg := by simp [faultProfile]
@[simp] theorem faultProfile_pins (s : State) : (faultProfile s).pins = s.pins := by simp [faultProfile]
@[simp] theorem faultProfile_line (s : State) : (faultProfile s).line = s.line := by simp [faultProfile]
@[simp] theorem faultProfile_table (s : State) : (faultProfile s).table = s.table := by simp [faultProfile]
@[simp] theorem faultProfile_slot (s : State) : (faultProfile s).slot = s.slot := by simp [faultProfile]
@[simp] theorem faultProfile_trackSeq (s : State) : (faultProfile s).trackSeq = s.trackSeq := by simp [faultProfile]
@[simp] theorem faultProfile_zone (s : State) : (faultProfile s).zone = s.zone := by simp [faultProfile]
@[simp] theorem faultProfile_store (s : State) : (faultProfile s).store = s.store := by simp [faultProfile]
@[simp] theorem faultProfile_reader (s : State) : (faultProfile s).reader = s.reader := by simp [faultProfile]
@[simp] theorem faultProfile_weigh (s : State) : (faultProfile s).weigh = s.weigh := by simp [faultProfile]
@[simp] theorem faultProfile_wrap (s : State) : (faultProfile s).wrap = s.wrap := by simp [faultProfile]
@[simp] theorem faultProfile_label (s : State) : (faultProfile s).label = s.label := by simp [faultProfile]
@[simp] theorem faultProfile_route (s : State) : (faultProfile s).route = s.route := by simp [faultProfile]
@[simp] theorem faultProfile_free (s : State) : (faultProfile s).free = s.free := by simp [faultProfile]

@[simp] theorem curtainStep_pending (b : BitVec 40) (s : State) : (curtainStep b s).pending = s.pending := by simp only [curtainStep]; (repeat' split) <;> simp
@[simp] theorem curtainStep_service (b : BitVec 40) (s : State) : (curtainStep b s).service = s.service := by simp only [curtainStep]; (repeat' split) <;> simp
@[simp] theorem curtainStep_cfg (b : BitVec 40) (s : State) : (curtainStep b s).cfg = s.cfg := by simp only [curtainStep]; (repeat' split) <;> simp
@[simp] theorem curtainStep_pins (b : BitVec 40) (s : State) : (curtainStep b s).pins = s.pins := by simp only [curtainStep]; (repeat' split) <;> simp
@[simp] theorem curtainStep_line (b : BitVec 40) (s : State) : (curtainStep b s).line = s.line := by simp only [curtainStep]; (repeat' split) <;> simp
@[simp] theorem curtainStep_table (b : BitVec 40) (s : State) : (curtainStep b s).table = s.table := by simp only [curtainStep]; (repeat' split) <;> simp
@[simp] theorem curtainStep_slot (b : BitVec 40) (s : State) : (curtainStep b s).slot = s.slot := by simp only [curtainStep]; (repeat' split) <;> simp
@[simp] theorem curtainStep_trackSeq (b : BitVec 40) (s : State) : (curtainStep b s).trackSeq = s.trackSeq := by simp only [curtainStep]; (repeat' split) <;> simp
@[simp] theorem curtainStep_zone (b : BitVec 40) (s : State) : (curtainStep b s).zone = s.zone := by simp only [curtainStep]; (repeat' split) <;> simp
@[simp] theorem curtainStep_store (b : BitVec 40) (s : State) : (curtainStep b s).store = s.store := by simp only [curtainStep]; (repeat' split) <;> simp
@[simp] theorem curtainStep_reader (b : BitVec 40) (s : State) : (curtainStep b s).reader = s.reader := by simp only [curtainStep]; (repeat' split) <;> simp
@[simp] theorem curtainStep_weigh (b : BitVec 40) (s : State) : (curtainStep b s).weigh = s.weigh := by simp only [curtainStep]; (repeat' split) <;> simp
@[simp] theorem curtainStep_wrap (b : BitVec 40) (s : State) : (curtainStep b s).wrap = s.wrap := by simp only [curtainStep]; (repeat' split) <;> simp
@[simp] theorem curtainStep_label (b : BitVec 40) (s : State) : (curtainStep b s).label = s.label := by simp only [curtainStep]; (repeat' split) <;> simp
@[simp] theorem curtainStep_route (b : BitVec 40) (s : State) : (curtainStep b s).route = s.route := by simp only [curtainStep]; (repeat' split) <;> simp
@[simp] theorem curtainStep_free (b : BitVec 40) (s : State) : (curtainStep b s).free = s.free := by simp only [curtainStep]; (repeat' split) <;> simp

@[simp] theorem profileStep_pending (b : BitVec 40) (s : State) : (profileStep b s).pending = s.pending := by simp only [profileStep]; (repeat' split) <;> simp
@[simp] theorem profileStep_service (b : BitVec 40) (s : State) : (profileStep b s).service = s.service := by simp only [profileStep]; (repeat' split) <;> simp
@[simp] theorem profileStep_cfg (b : BitVec 40) (s : State) : (profileStep b s).cfg = s.cfg := by simp only [profileStep]; (repeat' split) <;> simp
@[simp] theorem profileStep_pins (b : BitVec 40) (s : State) : (profileStep b s).pins = s.pins := by simp only [profileStep]; (repeat' split) <;> simp
@[simp] theorem profileStep_line (b : BitVec 40) (s : State) : (profileStep b s).line = s.line := by simp only [profileStep]; (repeat' split) <;> simp
@[simp] theorem profileStep_table (b : BitVec 40) (s : State) : (profileStep b s).table = s.table := by simp only [profileStep]; (repeat' split) <;> simp
@[simp] theorem profileStep_slot (b : BitVec 40) (s : State) : (profileStep b s).slot = s.slot := by simp only [profileStep]; (repeat' split) <;> simp
@[simp] theorem profileStep_trackSeq (b : BitVec 40) (s : State) : (profileStep b s).trackSeq = s.trackSeq := by simp only [profileStep]; (repeat' split) <;> simp
@[simp] theorem profileStep_zone (b : BitVec 40) (s : State) : (profileStep b s).zone = s.zone := by simp only [profileStep]; (repeat' split) <;> simp
@[simp] theorem profileStep_store (b : BitVec 40) (s : State) : (profileStep b s).store = s.store := by simp only [profileStep]; (repeat' split) <;> simp
@[simp] theorem profileStep_reader (b : BitVec 40) (s : State) : (profileStep b s).reader = s.reader := by simp only [profileStep]; (repeat' split) <;> simp
@[simp] theorem profileStep_weigh (b : BitVec 40) (s : State) : (profileStep b s).weigh = s.weigh := by simp only [profileStep]; (repeat' split) <;> simp
@[simp] theorem profileStep_wrap (b : BitVec 40) (s : State) : (profileStep b s).wrap = s.wrap := by simp only [profileStep]; (repeat' split) <;> simp
@[simp] theorem profileStep_label (b : BitVec 40) (s : State) : (profileStep b s).label = s.label := by simp only [profileStep]; (repeat' split) <;> simp
@[simp] theorem profileStep_route (b : BitVec 40) (s : State) : (profileStep b s).route = s.route := by simp only [profileStep]; (repeat' split) <;> simp
@[simp] theorem profileStep_free (b : BitVec 40) (s : State) : (profileStep b s).free = s.free := by simp only [profileStep]; (repeat' split) <;> simp

@[simp] theorem dropCaptures_pending (s : State) : (dropCaptures s).pending = s.pending := by simp [dropCaptures]
@[simp] theorem dropCaptures_service (s : State) : (dropCaptures s).service = s.service := by simp [dropCaptures]
@[simp] theorem dropCaptures_cfg (s : State) : (dropCaptures s).cfg = s.cfg := by simp [dropCaptures]
@[simp] theorem dropCaptures_pins (s : State) : (dropCaptures s).pins = s.pins := by simp [dropCaptures]
@[simp] theorem dropCaptures_line (s : State) : (dropCaptures s).line = s.line := by simp [dropCaptures]
@[simp] theorem dropCaptures_table (s : State) : (dropCaptures s).table = s.table := by simp [dropCaptures]
@[simp] theorem dropCaptures_slot (s : State) : (dropCaptures s).slot = s.slot := by simp [dropCaptures]
@[simp] theorem dropCaptures_trackSeq (s : State) : (dropCaptures s).trackSeq = s.trackSeq := by simp [dropCaptures]
@[simp] theorem dropCaptures_zone (s : State) : (dropCaptures s).zone = s.zone := by simp [dropCaptures]
@[simp] theorem dropCaptures_store (s : State) : (dropCaptures s).store = s.store := by simp [dropCaptures]
@[simp] theorem dropCaptures_reader (s : State) : (dropCaptures s).reader = s.reader := by simp [dropCaptures]
@[simp] theorem dropCaptures_weigh (s : State) : (dropCaptures s).weigh = s.weigh := by simp [dropCaptures]
@[simp] theorem dropCaptures_eval (s : State) : (dropCaptures s).eval = s.eval := by simp [dropCaptures]
@[simp] theorem dropCaptures_wrap (s : State) : (dropCaptures s).wrap = s.wrap := by simp [dropCaptures]
@[simp] theorem dropCaptures_label (s : State) : (dropCaptures s).label = s.label := by simp [dropCaptures]
@[simp] theorem dropCaptures_route (s : State) : (dropCaptures s).route = s.route := by simp [dropCaptures]
@[simp] theorem dropCaptures_free (s : State) : (dropCaptures s).free = s.free := by simp [dropCaptures]

@[simp] theorem profileAtPosition_pending (s : State) : (profileAtPosition s).pending = s.pending := by simp only [profileAtPosition]; (repeat' split) <;> simp
@[simp] theorem profileAtPosition_service (s : State) : (profileAtPosition s).service = s.service := by simp only [profileAtPosition]; (repeat' split) <;> simp
@[simp] theorem profileAtPosition_cfg (s : State) : (profileAtPosition s).cfg = s.cfg := by simp only [profileAtPosition]; (repeat' split) <;> simp
@[simp] theorem profileAtPosition_pins (s : State) : (profileAtPosition s).pins = s.pins := by simp only [profileAtPosition]; (repeat' split) <;> simp
@[simp] theorem profileAtPosition_line (s : State) : (profileAtPosition s).line = s.line := by simp only [profileAtPosition]; (repeat' split) <;> simp
@[simp] theorem profileAtPosition_table (s : State) : (profileAtPosition s).table = s.table := by simp only [profileAtPosition]; (repeat' split) <;> simp
@[simp] theorem profileAtPosition_slot (s : State) : (profileAtPosition s).slot = s.slot := by simp only [profileAtPosition]; (repeat' split) <;> simp
@[simp] theorem profileAtPosition_trackSeq (s : State) : (profileAtPosition s).trackSeq = s.trackSeq := by simp only [profileAtPosition]; (repeat' split) <;> simp
@[simp] theorem profileAtPosition_zone (s : State) : (profileAtPosition s).zone = s.zone := by simp only [profileAtPosition]; (repeat' split) <;> simp
@[simp] theorem profileAtPosition_store (s : State) : (profileAtPosition s).store = s.store := by simp only [profileAtPosition]; (repeat' split) <;> simp
@[simp] theorem profileAtPosition_reader (s : State) : (profileAtPosition s).reader = s.reader := by simp only [profileAtPosition]; (repeat' split) <;> simp
@[simp] theorem profileAtPosition_weigh (s : State) : (profileAtPosition s).weigh = s.weigh := by simp only [profileAtPosition]; (repeat' split) <;> simp
@[simp] theorem profileAtPosition_wrap (s : State) : (profileAtPosition s).wrap = s.wrap := by simp only [profileAtPosition]; (repeat' split) <;> simp
@[simp] theorem profileAtPosition_label (s : State) : (profileAtPosition s).label = s.label := by simp only [profileAtPosition]; (repeat' split) <;> simp
@[simp] theorem profileAtPosition_route (s : State) : (profileAtPosition s).route = s.route := by simp only [profileAtPosition]; (repeat' split) <;> simp
@[simp] theorem profileAtPosition_free (s : State) : (profileAtPosition s).free = s.free := by simp only [profileAtPosition]; (repeat' split) <;> simp

@[simp] theorem restartProfiling_pending (s : State) : (restartProfiling s).pending = s.pending := by simp only [restartProfiling]; (repeat' split) <;> simp
@[simp] theorem restartProfiling_service (s : State) : (restartProfiling s).service = s.service := by simp only [restartProfiling]; (repeat' split) <;> simp
@[simp] theorem restartProfiling_cfg (s : State) : (restartProfiling s).cfg = s.cfg := by simp only [restartProfiling]; (repeat' split) <;> simp
@[simp] theorem restartProfiling_pins (s : State) : (restartProfiling s).pins = s.pins := by simp only [restartProfiling]; (repeat' split) <;> simp
@[simp] theorem restartProfiling_line (s : State) : (restartProfiling s).line = s.line := by simp only [restartProfiling]; (repeat' split) <;> simp
@[simp] theorem restartProfiling_table (s : State) : (restartProfiling s).table = s.table := by simp only [restartProfiling]; (repeat' split) <;> simp
@[simp] theorem restartProfiling_slot (s : State) : (restartProfiling s).slot = s.slot := by simp only [restartProfiling]; (repeat' split) <;> simp
@[simp] theorem restartProfiling_trackSeq (s : State) : (restartProfiling s).trackSeq = s.trackSeq := by simp only [restartProfiling]; (repeat' split) <;> simp
@[simp] theorem restartProfiling_zone (s : State) : (restartProfiling s).zone = s.zone := by simp only [restartProfiling]; (repeat' split) <;> simp
@[simp] theorem restartProfiling_store (s : State) : (restartProfiling s).store = s.store := by simp only [restartProfiling]; (repeat' split) <;> simp
@[simp] theorem restartProfiling_reader (s : State) : (restartProfiling s).reader = s.reader := by simp only [restartProfiling]; (repeat' split) <;> simp
@[simp] theorem restartProfiling_weigh (s : State) : (restartProfiling s).weigh = s.weigh := by simp only [restartProfiling]; (repeat' split) <;> simp
@[simp] theorem restartProfiling_wrap (s : State) : (restartProfiling s).wrap = s.wrap := by simp only [restartProfiling]; (repeat' split) <;> simp
@[simp] theorem restartProfiling_label (s : State) : (restartProfiling s).label = s.label := by simp only [restartProfiling]; (repeat' split) <;> simp
@[simp] theorem restartProfiling_route (s : State) : (restartProfiling s).route = s.route := by simp only [restartProfiling]; (repeat' split) <;> simp
@[simp] theorem restartProfiling_free (s : State) : (restartProfiling s).free = s.free := by simp only [restartProfiling]; (repeat' split) <;> simp


/-! ## Check Evaluator -/

/-- The evaluation takes place when its record is WORKING and its four inputs are resolved, and not otherwise (R122). -/
theorem evalStep_cases (s : State) :
    (∃ ev i e, hasRole s .check = true ∧ s.eval = some ev ∧ inputsOf ev = some i ∧ zoneEntryIn s .working = some e ∧
      e.record.track = ev.track ∧ evalStep s = evaluate e i s) ∨
    evalStep s = s := by
  unfold evalStep
  split
  · split
    · split
      · split
        · exact .inl ⟨_, _, _, ‹_›, ‹_›, ‹_›, ‹_›, ‹_›, rfl⟩
        · exact .inr rfl
      · exact .inr rfl
    · exact .inr rfl
  · exact .inr rfl

/-- A fail set lists its reasons in the order of R126. -/
theorem failSet_sublist (c : CheckCfg) (r : TravelRecord) (i : Inputs) : (failSet c r i).Sublist reasons :=
  List.filter_sublist

/-- A reason is in the fail set exactly when its row of Table 7-3 holds (R125). -/
theorem mem_failSet (c : CheckCfg) (r : TravelRecord) (i : Inputs) (x : Reason) :
    x ∈ failSet c r i ↔ reasonHolds c r i x = true := by
  have : x ∈ reasons := by cases x <;> decide
  simp [failSet, this]

/-- PASS is the verdict of the empty fail set alone (R126). -/
theorem verdictOf_pass (fs : List Reason) : verdictOf fs = .pass ↔ fs = [] := by cases fs <;> simp [verdictOf]

@[simp] theorem reportVerdict_pending (t : Track) (v : CheckVerdict) (s : State) : (reportVerdict t v s).pending = s.pending := by simp only [reportVerdict]; (repeat' split) <;> simp
@[simp] theorem reportVerdict_service (t : Track) (v : CheckVerdict) (s : State) : (reportVerdict t v s).service = s.service := by simp only [reportVerdict]; (repeat' split) <;> simp
@[simp] theorem reportVerdict_cfg (t : Track) (v : CheckVerdict) (s : State) : (reportVerdict t v s).cfg = s.cfg := by simp only [reportVerdict]; (repeat' split) <;> simp
@[simp] theorem reportVerdict_pins (t : Track) (v : CheckVerdict) (s : State) : (reportVerdict t v s).pins = s.pins := by simp only [reportVerdict]; (repeat' split) <;> simp
@[simp] theorem reportVerdict_table (t : Track) (v : CheckVerdict) (s : State) : (reportVerdict t v s).table = s.table := by simp only [reportVerdict]; (repeat' split) <;> simp
@[simp] theorem reportVerdict_slot (t : Track) (v : CheckVerdict) (s : State) : (reportVerdict t v s).slot = s.slot := by simp only [reportVerdict]; (repeat' split) <;> simp
@[simp] theorem reportVerdict_trackSeq (t : Track) (v : CheckVerdict) (s : State) : (reportVerdict t v s).trackSeq = s.trackSeq := by simp only [reportVerdict]; (repeat' split) <;> simp
@[simp] theorem reportVerdict_zone (t : Track) (v : CheckVerdict) (s : State) : (reportVerdict t v s).zone = s.zone := by simp only [reportVerdict]; (repeat' split) <;> simp
@[simp] theorem reportVerdict_store (t : Track) (v : CheckVerdict) (s : State) : (reportVerdict t v s).store = s.store := by simp only [reportVerdict]; (repeat' split) <;> simp
@[simp] theorem reportVerdict_reader (t : Track) (v : CheckVerdict) (s : State) : (reportVerdict t v s).reader = s.reader := by simp only [reportVerdict]; (repeat' split) <;> simp
@[simp] theorem reportVerdict_weigh (t : Track) (v : CheckVerdict) (s : State) : (reportVerdict t v s).weigh = s.weigh := by simp only [reportVerdict]; (repeat' split) <;> simp
@[simp] theorem reportVerdict_prof (t : Track) (v : CheckVerdict) (s : State) : (reportVerdict t v s).prof = s.prof := by simp only [reportVerdict]; (repeat' split) <;> simp
@[simp] theorem reportVerdict_eval (t : Track) (v : CheckVerdict) (s : State) : (reportVerdict t v s).eval = s.eval := by simp only [reportVerdict]; (repeat' split) <;> simp
@[simp] theorem reportVerdict_wrap (t : Track) (v : CheckVerdict) (s : State) : (reportVerdict t v s).wrap = s.wrap := by simp only [reportVerdict]; (repeat' split) <;> simp
@[simp] theorem reportVerdict_label (t : Track) (v : CheckVerdict) (s : State) : (reportVerdict t v s).label = s.label := by simp only [reportVerdict]; (repeat' split) <;> simp
@[simp] theorem reportVerdict_route (t : Track) (v : CheckVerdict) (s : State) : (reportVerdict t v s).route = s.route := by simp only [reportVerdict]; (repeat' split) <;> simp
@[simp] theorem reportVerdict_free (t : Track) (v : CheckVerdict) (s : State) : (reportVerdict t v s).free = s.free := by simp only [reportVerdict]; (repeat' split) <;> simp

@[simp] theorem evaluate_pending (e : Entry) (i : Inputs) (s : State) : (evaluate e i s).pending = s.pending := by simp [evaluate]
@[simp] theorem evaluate_service (e : Entry) (i : Inputs) (s : State) : (evaluate e i s).service = s.service := by simp [evaluate]
@[simp] theorem evaluate_cfg (e : Entry) (i : Inputs) (s : State) : (evaluate e i s).cfg = s.cfg := by simp [evaluate]
@[simp] theorem evaluate_pins (e : Entry) (i : Inputs) (s : State) : (evaluate e i s).pins = s.pins := by simp [evaluate]
@[simp] theorem evaluate_slot (e : Entry) (i : Inputs) (s : State) : (evaluate e i s).slot = s.slot := by simp [evaluate]
@[simp] theorem evaluate_trackSeq (e : Entry) (i : Inputs) (s : State) : (evaluate e i s).trackSeq = s.trackSeq := by simp [evaluate]
@[simp] theorem evaluate_zone (e : Entry) (i : Inputs) (s : State) : (evaluate e i s).zone = s.zone := by simp [evaluate]
@[simp] theorem evaluate_store (e : Entry) (i : Inputs) (s : State) : (evaluate e i s).store = s.store := by simp [evaluate]
@[simp] theorem evaluate_reader (e : Entry) (i : Inputs) (s : State) : (evaluate e i s).reader = s.reader := by simp [evaluate]
@[simp] theorem evaluate_prof (e : Entry) (i : Inputs) (s : State) : (evaluate e i s).prof = s.prof := by simp [evaluate]
@[simp] theorem evaluate_wrap (e : Entry) (i : Inputs) (s : State) : (evaluate e i s).wrap = s.wrap := by simp [evaluate]
@[simp] theorem evaluate_label (e : Entry) (i : Inputs) (s : State) : (evaluate e i s).label = s.label := by simp [evaluate]
@[simp] theorem evaluate_route (e : Entry) (i : Inputs) (s : State) : (evaluate e i s).route = s.route := by simp [evaluate]
@[simp] theorem evaluate_free (e : Entry) (i : Inputs) (s : State) : (evaluate e i s).free = s.free := by simp [evaluate]

@[simp] theorem evalStep_pending (s : State) : (evalStep s).pending = s.pending := by obtain ⟨ev, i, e, -, -, -, -, -, h⟩ | h := evalStep_cases s <;> simp [h]
@[simp] theorem evalStep_service (s : State) : (evalStep s).service = s.service := by obtain ⟨ev, i, e, -, -, -, -, -, h⟩ | h := evalStep_cases s <;> simp [h]
@[simp] theorem evalStep_cfg (s : State) : (evalStep s).cfg = s.cfg := by obtain ⟨ev, i, e, -, -, -, -, -, h⟩ | h := evalStep_cases s <;> simp [h]
@[simp] theorem evalStep_pins (s : State) : (evalStep s).pins = s.pins := by obtain ⟨ev, i, e, -, -, -, -, -, h⟩ | h := evalStep_cases s <;> simp [h]
@[simp] theorem evalStep_slot (s : State) : (evalStep s).slot = s.slot := by obtain ⟨ev, i, e, -, -, -, -, -, h⟩ | h := evalStep_cases s <;> simp [h]
@[simp] theorem evalStep_trackSeq (s : State) : (evalStep s).trackSeq = s.trackSeq := by obtain ⟨ev, i, e, -, -, -, -, -, h⟩ | h := evalStep_cases s <;> simp [h]
@[simp] theorem evalStep_zone (s : State) : (evalStep s).zone = s.zone := by obtain ⟨ev, i, e, -, -, -, -, -, h⟩ | h := evalStep_cases s <;> simp [h]
@[simp] theorem evalStep_store (s : State) : (evalStep s).store = s.store := by obtain ⟨ev, i, e, -, -, -, -, -, h⟩ | h := evalStep_cases s <;> simp [h]
@[simp] theorem evalStep_reader (s : State) : (evalStep s).reader = s.reader := by obtain ⟨ev, i, e, -, -, -, -, -, h⟩ | h := evalStep_cases s <;> simp [h]
@[simp] theorem evalStep_prof (s : State) : (evalStep s).prof = s.prof := by obtain ⟨ev, i, e, -, -, -, -, -, h⟩ | h := evalStep_cases s <;> simp [h]
@[simp] theorem evalStep_wrap (s : State) : (evalStep s).wrap = s.wrap := by obtain ⟨ev, i, e, -, -, -, -, -, h⟩ | h := evalStep_cases s <;> simp [h]
@[simp] theorem evalStep_label (s : State) : (evalStep s).label = s.label := by obtain ⟨ev, i, e, -, -, -, -, -, h⟩ | h := evalStep_cases s <;> simp [h]
@[simp] theorem evalStep_route (s : State) : (evalStep s).route = s.route := by obtain ⟨ev, i, e, -, -, -, -, -, h⟩ | h := evalStep_cases s <;> simp [h]
@[simp] theorem evalStep_free (s : State) : (evalStep s).free = s.free := by obtain ⟨ev, i, e, -, -, -, -, -, h⟩ | h := evalStep_cases s <;> simp [h]


/-! ## Work, acknowledge, CLEAR -/

@[simp] theorem startTagWait_pending (ev : Evaluation) (s : State) : (startTagWait ev s).pending = s.pending := by simp only [startTagWait]; (repeat' split) <;> simp
@[simp] theorem startTagWait_service (ev : Evaluation) (s : State) : (startTagWait ev s).service = s.service := by simp only [startTagWait]; (repeat' split) <;> simp
@[simp] theorem startTagWait_cfg (ev : Evaluation) (s : State) : (startTagWait ev s).cfg = s.cfg := by simp only [startTagWait]; (repeat' split) <;> simp
@[simp] theorem startTagWait_pins (ev : Evaluation) (s : State) : (startTagWait ev s).pins = s.pins := by simp only [startTagWait]; (repeat' split) <;> simp
@[simp] theorem startTagWait_line (ev : Evaluation) (s : State) : (startTagWait ev s).line = s.line := by simp only [startTagWait]; (repeat' split) <;> simp
@[simp] theorem startTagWait_table (ev : Evaluation) (s : State) : (startTagWait ev s).table = s.table := by simp only [startTagWait]; (repeat' split) <;> simp
@[simp] theorem startTagWait_slot (ev : Evaluation) (s : State) : (startTagWait ev s).slot = s.slot := by simp only [startTagWait]; (repeat' split) <;> simp
@[simp] theorem startTagWait_trackSeq (ev : Evaluation) (s : State) : (startTagWait ev s).trackSeq = s.trackSeq := by simp only [startTagWait]; (repeat' split) <;> simp
@[simp] theorem startTagWait_zone (ev : Evaluation) (s : State) : (startTagWait ev s).zone = s.zone := by simp only [startTagWait]; (repeat' split) <;> simp
@[simp] theorem startTagWait_store (ev : Evaluation) (s : State) : (startTagWait ev s).store = s.store := by simp only [startTagWait]; (repeat' split) <;> simp
@[simp] theorem startTagWait_weigh (ev : Evaluation) (s : State) : (startTagWait ev s).weigh = s.weigh := by simp only [startTagWait]; (repeat' split) <;> simp
@[simp] theorem startTagWait_prof (ev : Evaluation) (s : State) : (startTagWait ev s).prof = s.prof := by simp only [startTagWait]; (repeat' split) <;> simp
@[simp] theorem startTagWait_eval (ev : Evaluation) (s : State) : (startTagWait ev s).eval = s.eval := by simp only [startTagWait]; (repeat' split) <;> simp
@[simp] theorem startTagWait_wrap (ev : Evaluation) (s : State) : (startTagWait ev s).wrap = s.wrap := by simp only [startTagWait]; (repeat' split) <;> simp
@[simp] theorem startTagWait_label (ev : Evaluation) (s : State) : (startTagWait ev s).label = s.label := by simp only [startTagWait]; (repeat' split) <;> simp
@[simp] theorem startTagWait_route (ev : Evaluation) (s : State) : (startTagWait ev s).route = s.route := by simp only [startTagWait]; (repeat' split) <;> simp
@[simp] theorem startTagWait_free (ev : Evaluation) (s : State) : (startTagWait ev s).free = s.free := by simp only [startTagWait]; (repeat' split) <;> simp

@[simp] theorem beginCheck_pending (s : State) : (beginCheck s).pending = s.pending := by simp only [beginCheck]; (repeat' split) <;> simp
@[simp] theorem beginCheck_service (s : State) : (beginCheck s).service = s.service := by simp only [beginCheck]; (repeat' split) <;> simp
@[simp] theorem beginCheck_cfg (s : State) : (beginCheck s).cfg = s.cfg := by simp only [beginCheck]; (repeat' split) <;> simp
@[simp] theorem beginCheck_pins (s : State) : (beginCheck s).pins = s.pins := by simp only [beginCheck]; (repeat' split) <;> simp
@[simp] theorem beginCheck_line (s : State) : (beginCheck s).line = s.line := by simp only [beginCheck]; (repeat' split) <;> simp
@[simp] theorem beginCheck_slot (s : State) : (beginCheck s).slot = s.slot := by simp only [beginCheck]; (repeat' split) <;> simp
@[simp] theorem beginCheck_trackSeq (s : State) : (beginCheck s).trackSeq = s.trackSeq := by simp only [beginCheck]; (repeat' split) <;> simp
@[simp] theorem beginCheck_zone (s : State) : (beginCheck s).zone = s.zone := by simp only [beginCheck]; (repeat' split) <;> simp
@[simp] theorem beginCheck_store (s : State) : (beginCheck s).store = s.store := by simp only [beginCheck]; (repeat' split) <;> simp
@[simp] theorem beginCheck_prof (s : State) : (beginCheck s).prof = s.prof := by simp only [beginCheck]; (repeat' split) <;> simp
@[simp] theorem beginCheck_wrap (s : State) : (beginCheck s).wrap = s.wrap := by simp only [beginCheck]; (repeat' split) <;> simp
@[simp] theorem beginCheck_label (s : State) : (beginCheck s).label = s.label := by simp only [beginCheck]; (repeat' split) <;> simp
@[simp] theorem beginCheck_route (s : State) : (beginCheck s).route = s.route := by simp only [beginCheck]; (repeat' split) <;> simp
@[simp] theorem beginCheck_free (s : State) : (beginCheck s).free = s.free := by simp only [beginCheck]; (repeat' split) <;> simp

@[simp] theorem dropCheckWork_pending (s : State) : (dropCheckWork s).pending = s.pending := by simp [dropCheckWork]
@[simp] theorem dropCheckWork_service (s : State) : (dropCheckWork s).service = s.service := by simp [dropCheckWork]
@[simp] theorem dropCheckWork_cfg (s : State) : (dropCheckWork s).cfg = s.cfg := by simp [dropCheckWork]
@[simp] theorem dropCheckWork_pins (s : State) : (dropCheckWork s).pins = s.pins := by simp [dropCheckWork]
@[simp] theorem dropCheckWork_table (s : State) : (dropCheckWork s).table = s.table := by simp [dropCheckWork]
@[simp] theorem dropCheckWork_slot (s : State) : (dropCheckWork s).slot = s.slot := by simp [dropCheckWork]
@[simp] theorem dropCheckWork_trackSeq (s : State) : (dropCheckWork s).trackSeq = s.trackSeq := by simp [dropCheckWork]
@[simp] theorem dropCheckWork_zone (s : State) : (dropCheckWork s).zone = s.zone := by simp [dropCheckWork]
@[simp] theorem dropCheckWork_weigh (s : State) : (dropCheckWork s).weigh = s.weigh := by simp [dropCheckWork]
@[simp] theorem dropCheckWork_wrap (s : State) : (dropCheckWork s).wrap = s.wrap := by simp [dropCheckWork]
@[simp] theorem dropCheckWork_label (s : State) : (dropCheckWork s).label = s.label := by simp [dropCheckWork]
@[simp] theorem dropCheckWork_route (s : State) : (dropCheckWork s).route = s.route := by simp [dropCheckWork]
@[simp] theorem dropCheckWork_free (s : State) : (dropCheckWork s).free = s.free := by simp [dropCheckWork]

@[simp] theorem clearWeighing_pending (s : State) : (clearWeighing s).pending = s.pending := by simp [clearWeighing]
@[simp] theorem clearWeighing_service (s : State) : (clearWeighing s).service = s.service := by simp [clearWeighing]
@[simp] theorem clearWeighing_cfg (s : State) : (clearWeighing s).cfg = s.cfg := by simp [clearWeighing]
@[simp] theorem clearWeighing_pins (s : State) : (clearWeighing s).pins = s.pins := by simp [clearWeighing]
@[simp] theorem clearWeighing_line (s : State) : (clearWeighing s).line = s.line := by simp [clearWeighing]
@[simp] theorem clearWeighing_table (s : State) : (clearWeighing s).table = s.table := by simp [clearWeighing]
@[simp] theorem clearWeighing_slot (s : State) : (clearWeighing s).slot = s.slot := by simp [clearWeighing]
@[simp] theorem clearWeighing_trackSeq (s : State) : (clearWeighing s).trackSeq = s.trackSeq := by simp [clearWeighing]
@[simp] theorem clearWeighing_zone (s : State) : (clearWeighing s).zone = s.zone := by simp [clearWeighing]
@[simp] theorem clearWeighing_store (s : State) : (clearWeighing s).store = s.store := by simp [clearWeighing]
@[simp] theorem clearWeighing_reader (s : State) : (clearWeighing s).reader = s.reader := by simp [clearWeighing]
@[simp] theorem clearWeighing_prof (s : State) : (clearWeighing s).prof = s.prof := by simp [clearWeighing]
@[simp] theorem clearWeighing_eval (s : State) : (clearWeighing s).eval = s.eval := by simp [clearWeighing]
@[simp] theorem clearWeighing_wrap (s : State) : (clearWeighing s).wrap = s.wrap := by simp [clearWeighing]
@[simp] theorem clearWeighing_label (s : State) : (clearWeighing s).label = s.label := by simp [clearWeighing]
@[simp] theorem clearWeighing_route (s : State) : (clearWeighing s).route = s.route := by simp [clearWeighing]
@[simp] theorem clearWeighing_free (s : State) : (clearWeighing s).free = s.free := by simp [clearWeighing]

@[simp] theorem clearCheck_pending (s : State) : (clearCheck s).pending = s.pending := by simp [clearCheck]
@[simp] theorem clearCheck_service (s : State) : (clearCheck s).service = s.service := by simp [clearCheck]
@[simp] theorem clearCheck_cfg (s : State) : (clearCheck s).cfg = s.cfg := by simp [clearCheck]
@[simp] theorem clearCheck_pins (s : State) : (clearCheck s).pins = s.pins := by simp [clearCheck]
@[simp] theorem clearCheck_table (s : State) : (clearCheck s).table = s.table := by simp [clearCheck]
@[simp] theorem clearCheck_slot (s : State) : (clearCheck s).slot = s.slot := by simp [clearCheck]
@[simp] theorem clearCheck_trackSeq (s : State) : (clearCheck s).trackSeq = s.trackSeq := by simp [clearCheck]
@[simp] theorem clearCheck_zone (s : State) : (clearCheck s).zone = s.zone := by simp [clearCheck]
@[simp] theorem clearCheck_wrap (s : State) : (clearCheck s).wrap = s.wrap := by simp [clearCheck]
@[simp] theorem clearCheck_label (s : State) : (clearCheck s).label = s.label := by simp [clearCheck]
@[simp] theorem clearCheck_route (s : State) : (clearCheck s).route = s.route := by simp [clearCheck]
@[simp] theorem clearCheck_free (s : State) : (clearCheck s).free = s.free := by simp [clearCheck]

end Sys2Proof.Machine
end

