-- ==== Sys2Proof/Laws/Settle.lean ====
section
/-! SUPPORT. `settle`, the conditions evaluated afresh at the end of every event (R15, R31 to R33, R89, R169): what each of
its steps can do, and what settling never touches. -/

namespace Sys2Proof.Machine

/-- A role is one. -/
theorem not_dispatch_of_check {s : State} (h : hasRole s .check = true) : hasRole s .dispatch = false :=
  hasRole_unique h (by decide)

/-! ## The infeed permit (R32) -/

/-- The permit changes the zone state alone: off when a condition ceases, on when CHECK can accept. -/
theorem permitStep_cases (s : State) :
    (hasRole s .check = true ∧ s.zone.zstate = .inbound ∧ permitCeases s = true ∧ permitStep s = setZoneState .empty s) ∨
    (hasRole s .check = true ∧ s.zone.zstate ≠ .inbound ∧ accepting s = true ∧ permitStep s = setZoneState .inbound s) ∨
    permitStep s = s := by
  unfold permitStep
  split
  · split
    · split
      · exact .inl ⟨‹_›, ‹_›, ‹_›, rfl⟩
      · exact .inr (.inr rfl)
    · split
      · exact .inr (.inl ⟨‹_›, ‹_›, ‹_›, rfl⟩)
      · exact .inr (.inr rfl)
  · exact .inr (.inr rfl)

@[simp] theorem permitStep_pending (s : State) : (permitStep s).pending = s.pending := by obtain ⟨-, -, -, h⟩ | ⟨-, -, -, h⟩ | h := permitStep_cases s <;> simp [h]
@[simp] theorem permitStep_service (s : State) : (permitStep s).service = s.service := by obtain ⟨-, -, -, h⟩ | ⟨-, -, -, h⟩ | h := permitStep_cases s <;> simp [h]
@[simp] theorem permitStep_cfg (s : State) : (permitStep s).cfg = s.cfg := by obtain ⟨-, -, -, h⟩ | ⟨-, -, -, h⟩ | h := permitStep_cases s <;> simp [h]
@[simp] theorem permitStep_pins (s : State) : (permitStep s).pins = s.pins := by obtain ⟨-, -, -, h⟩ | ⟨-, -, -, h⟩ | h := permitStep_cases s <;> simp [h]
@[simp] theorem permitStep_line (s : State) : (permitStep s).line = s.line := by obtain ⟨-, -, -, h⟩ | ⟨-, -, -, h⟩ | h := permitStep_cases s <;> simp [h]
@[simp] theorem permitStep_table (s : State) : (permitStep s).table = s.table := by obtain ⟨-, -, -, h⟩ | ⟨-, -, -, h⟩ | h := permitStep_cases s <;> simp [h]
@[simp] theorem permitStep_slot (s : State) : (permitStep s).slot = s.slot := by obtain ⟨-, -, -, h⟩ | ⟨-, -, -, h⟩ | h := permitStep_cases s <;> simp [h]
@[simp] theorem permitStep_trackSeq (s : State) : (permitStep s).trackSeq = s.trackSeq := by obtain ⟨-, -, -, h⟩ | ⟨-, -, -, h⟩ | h := permitStep_cases s <;> simp [h]
@[simp] theorem permitStep_store (s : State) : (permitStep s).store = s.store := by obtain ⟨-, -, -, h⟩ | ⟨-, -, -, h⟩ | h := permitStep_cases s <;> simp [h]
@[simp] theorem permitStep_reader (s : State) : (permitStep s).reader = s.reader := by obtain ⟨-, -, -, h⟩ | ⟨-, -, -, h⟩ | h := permitStep_cases s <;> simp [h]
@[simp] theorem permitStep_weigh (s : State) : (permitStep s).weigh = s.weigh := by obtain ⟨-, -, -, h⟩ | ⟨-, -, -, h⟩ | h := permitStep_cases s <;> simp [h]
@[simp] theorem permitStep_prof (s : State) : (permitStep s).prof = s.prof := by obtain ⟨-, -, -, h⟩ | ⟨-, -, -, h⟩ | h := permitStep_cases s <;> simp [h]
@[simp] theorem permitStep_eval (s : State) : (permitStep s).eval = s.eval := by obtain ⟨-, -, -, h⟩ | ⟨-, -, -, h⟩ | h := permitStep_cases s <;> simp [h]
@[simp] theorem permitStep_wrap (s : State) : (permitStep s).wrap = s.wrap := by obtain ⟨-, -, -, h⟩ | ⟨-, -, -, h⟩ | h := permitStep_cases s <;> simp [h]
@[simp] theorem permitStep_label (s : State) : (permitStep s).label = s.label := by obtain ⟨-, -, -, h⟩ | ⟨-, -, -, h⟩ | h := permitStep_cases s <;> simp [h]
@[simp] theorem permitStep_route (s : State) : (permitStep s).route = s.route := by obtain ⟨-, -, -, h⟩ | ⟨-, -, -, h⟩ | h := permitStep_cases s <;> simp [h]
@[simp] theorem permitStep_free (s : State) : (permitStep s).free = s.free := by obtain ⟨-, -, -, h⟩ | ⟨-, -, -, h⟩ | h := permitStep_cases s <;> simp [h]

/-! ## The slot's OFFER (R15) -/

/-- The OFFER in the slot is accepted once the station can accept, or refused as a duplicate; else it stays. -/
theorem slotStep_cases (s : State) :
    (∃ r, s.slot = some r ∧ hasRole s .check = false ∧ accepting s = true ∧ entryOf s r.track = none ∧
      slotStep s = acceptOffer r s) ∨
    (∃ r, s.slot = some r ∧ hasRole s .check = false ∧ accepting s = true ∧ (entryOf s r.track).isSome = true ∧
      slotStep s = notify (.duplicateTrack r.track) (s.setSlot none)) ∨
    slotStep s = s := by
  unfold slotStep
  split
  · rename_i r hr
    split
    · rename_i h
      simp only [Bool.and_eq_true, Bool.not_eq_true'] at h
      split
      · exact .inr (.inl ⟨r, hr, h.1, h.2, ‹_›, rfl⟩)
      · rename_i hn
        exact .inl ⟨r, hr, h.1, h.2, by simpa using hn, rfl⟩
    · exact .inr (.inr rfl)
  · exact .inr (.inr rfl)

@[simp] theorem acceptOffer_pending (r : TravelRecord) (s : State) : (acceptOffer r s).pending = s.pending := by simp [acceptOffer]
@[simp] theorem acceptOffer_service (r : TravelRecord) (s : State) : (acceptOffer r s).service = s.service := by simp [acceptOffer]
@[simp] theorem acceptOffer_cfg (r : TravelRecord) (s : State) : (acceptOffer r s).cfg = s.cfg := by simp [acceptOffer]
@[simp] theorem acceptOffer_pins (r : TravelRecord) (s : State) : (acceptOffer r s).pins = s.pins := by simp [acceptOffer]
@[simp] theorem acceptOffer_trackSeq (r : TravelRecord) (s : State) : (acceptOffer r s).trackSeq = s.trackSeq := by simp [acceptOffer]
@[simp] theorem acceptOffer_store (r : TravelRecord) (s : State) : (acceptOffer r s).store = s.store := by simp [acceptOffer]
@[simp] theorem acceptOffer_reader (r : TravelRecord) (s : State) : (acceptOffer r s).reader = s.reader := by simp [acceptOffer]
@[simp] theorem acceptOffer_weigh (r : TravelRecord) (s : State) : (acceptOffer r s).weigh = s.weigh := by simp [acceptOffer]
@[simp] theorem acceptOffer_prof (r : TravelRecord) (s : State) : (acceptOffer r s).prof = s.prof := by simp [acceptOffer]
@[simp] theorem acceptOffer_eval (r : TravelRecord) (s : State) : (acceptOffer r s).eval = s.eval := by simp [acceptOffer]
@[simp] theorem acceptOffer_wrap (r : TravelRecord) (s : State) : (acceptOffer r s).wrap = s.wrap := by simp [acceptOffer]
@[simp] theorem acceptOffer_label (r : TravelRecord) (s : State) : (acceptOffer r s).label = s.label := by simp [acceptOffer]
@[simp] theorem acceptOffer_route (r : TravelRecord) (s : State) : (acceptOffer r s).route = s.route := by simp [acceptOffer]
@[simp] theorem acceptOffer_free (r : TravelRecord) (s : State) : (acceptOffer r s).free = s.free := by simp [acceptOffer]
@[simp] theorem acceptOffer_table (r : TravelRecord) (s : State) :
    (acceptOffer r s).table = s.table ++ [acceptedEntry s r] := by simp [acceptOffer]
@[simp] theorem acceptOffer_slot (r : TravelRecord) (s : State) : (acceptOffer r s).slot = none := by simp [acceptOffer]
@[simp] theorem acceptOffer_zone (r : TravelRecord) (s : State) :
    (acceptOffer r s).zone = { s.zone with zstate := .inbound } := by simp [acceptOffer]
@[simp] theorem acceptOffer_rx (r : TravelRecord) (s : State) : (acceptOffer r s).line.rx = s.line.rx := by
  simp [acceptOffer]

@[simp] theorem slotStep_pending (s : State) : (slotStep s).pending = s.pending := by obtain ⟨r, -, -, -, -, h⟩ | ⟨r, -, -, -, -, h⟩ | h := slotStep_cases s <;> simp [h]
@[simp] theorem slotStep_service (s : State) : (slotStep s).service = s.service := by obtain ⟨r, -, -, -, -, h⟩ | ⟨r, -, -, -, -, h⟩ | h := slotStep_cases s <;> simp [h]
@[simp] theorem slotStep_cfg (s : State) : (slotStep s).cfg = s.cfg := by obtain ⟨r, -, -, -, -, h⟩ | ⟨r, -, -, -, -, h⟩ | h := slotStep_cases s <;> simp [h]
@[simp] theorem slotStep_pins (s : State) : (slotStep s).pins = s.pins := by obtain ⟨r, -, -, -, -, h⟩ | ⟨r, -, -, -, -, h⟩ | h := slotStep_cases s <;> simp [h]
@[simp] theorem slotStep_trackSeq (s : State) : (slotStep s).trackSeq = s.trackSeq := by obtain ⟨r, -, -, -, -, h⟩ | ⟨r, -, -, -, -, h⟩ | h := slotStep_cases s <;> simp [h]
@[simp] theorem slotStep_store (s : State) : (slotStep s).store = s.store := by obtain ⟨r, -, -, -, -, h⟩ | ⟨r, -, -, -, -, h⟩ | h := slotStep_cases s <;> simp [h]
@[simp] theorem slotStep_reader (s : State) : (slotStep s).reader = s.reader := by obtain ⟨r, -, -, -, -, h⟩ | ⟨r, -, -, -, -, h⟩ | h := slotStep_cases s <;> simp [h]
@[simp] theorem slotStep_weigh (s : State) : (slotStep s).weigh = s.weigh := by obtain ⟨r, -, -, -, -, h⟩ | ⟨r, -, -, -, -, h⟩ | h := slotStep_cases s <;> simp [h]
@[simp] theorem slotStep_prof (s : State) : (slotStep s).prof = s.prof := by obtain ⟨r, -, -, -, -, h⟩ | ⟨r, -, -, -, -, h⟩ | h := slotStep_cases s <;> simp [h]
@[simp] theorem slotStep_eval (s : State) : (slotStep s).eval = s.eval := by obtain ⟨r, -, -, -, -, h⟩ | ⟨r, -, -, -, -, h⟩ | h := slotStep_cases s <;> simp [h]
@[simp] theorem slotStep_wrap (s : State) : (slotStep s).wrap = s.wrap := by obtain ⟨r, -, -, -, -, h⟩ | ⟨r, -, -, -, -, h⟩ | h := slotStep_cases s <;> simp [h]
@[simp] theorem slotStep_label (s : State) : (slotStep s).label = s.label := by obtain ⟨r, -, -, -, -, h⟩ | ⟨r, -, -, -, -, h⟩ | h := slotStep_cases s <;> simp [h]
@[simp] theorem slotStep_route (s : State) : (slotStep s).route = s.route := by obtain ⟨r, -, -, -, -, h⟩ | ⟨r, -, -, -, -, h⟩ | h := slotStep_cases s <;> simp [h]
@[simp] theorem slotStep_free (s : State) : (slotStep s).free = s.free := by obtain ⟨r, -, -, -, -, h⟩ | ⟨r, -, -, -, -, h⟩ | h := slotStep_cases s <;> simp [h]
@[simp] theorem slotStep_rx (s : State) : (slotStep s).line.rx = s.line.rx := by
  obtain ⟨r, -, -, -, -, h⟩ | ⟨r, -, -, -, -, h⟩ | h := slotStep_cases s <;> simp [h]

/-! ## Offering that comes to hold (R33) -/

/-- Offering begins with an OFFER of the head record and the repeat timer, or nothing happens. -/
theorem offerStep_cases (s : State) :
    (∃ e, offering s = true ∧ s.zone.offerTimer = none ∧ headEntry s = some e ∧
      offerStep s = queueFrame (.offer (downstream s) e.record)
        (s.setZone { s.zone with offerTimer := some s.cfg.timing.offerRepeat })) ∨
    ((offering s = false ∨ s.zone.offerTimer.isSome = true) ∧ offerStep s = s) := by
  unfold offerStep
  split
  · rename_i h
    simp only [Bool.and_eq_true, Option.isNone_iff_eq_none] at h
    have hd : headDone s = true := (offering_iff.1 h.1).2.1
    simp only [offerNow]
    split
    · exact .inl ⟨_, h.1, h.2, ‹_›, rfl⟩
    · rename_i hn
      simp [headDone, hn] at hd
  · rename_i h
    refine .inr ⟨?_, rfl⟩
    cases ho : offering s <;> cases ht : s.zone.offerTimer <;> simp_all

@[simp] theorem offerStep_pending (s : State) : (offerStep s).pending = s.pending := by obtain ⟨e, -, -, -, h⟩ | ⟨-, h⟩ := offerStep_cases s <;> simp [h]
@[simp] theorem offerStep_service (s : State) : (offerStep s).service = s.service := by obtain ⟨e, -, -, -, h⟩ | ⟨-, h⟩ := offerStep_cases s <;> simp [h]
@[simp] theorem offerStep_cfg (s : State) : (offerStep s).cfg = s.cfg := by obtain ⟨e, -, -, -, h⟩ | ⟨-, h⟩ := offerStep_cases s <;> simp [h]
@[simp] theorem offerStep_pins (s : State) : (offerStep s).pins = s.pins := by obtain ⟨e, -, -, -, h⟩ | ⟨-, h⟩ := offerStep_cases s <;> simp [h]
@[simp] theorem offerStep_table (s : State) : (offerStep s).table = s.table := by obtain ⟨e, -, -, -, h⟩ | ⟨-, h⟩ := offerStep_cases s <;> simp [h]
@[simp] theorem offerStep_slot (s : State) : (offerStep s).slot = s.slot := by obtain ⟨e, -, -, -, h⟩ | ⟨-, h⟩ := offerStep_cases s <;> simp [h]
@[simp] theorem offerStep_trackSeq (s : State) : (offerStep s).trackSeq = s.trackSeq := by obtain ⟨e, -, -, -, h⟩ | ⟨-, h⟩ := offerStep_cases s <;> simp [h]
@[simp] theorem offerStep_store (s : State) : (offerStep s).store = s.store := by obtain ⟨e, -, -, -, h⟩ | ⟨-, h⟩ := offerStep_cases s <;> simp [h]
@[simp] theorem offerStep_reader (s : State) : (offerStep s).reader = s.reader := by obtain ⟨e, -, -, -, h⟩ | ⟨-, h⟩ := offerStep_cases s <;> simp [h]
@[simp] theorem offerStep_weigh (s : State) : (offerStep s).weigh = s.weigh := by obtain ⟨e, -, -, -, h⟩ | ⟨-, h⟩ := offerStep_cases s <;> simp [h]
@[simp] theorem offerStep_prof (s : State) : (offerStep s).prof = s.prof := by obtain ⟨e, -, -, -, h⟩ | ⟨-, h⟩ := offerStep_cases s <;> simp [h]
@[simp] theorem offerStep_eval (s : State) : (offerStep s).eval = s.eval := by obtain ⟨e, -, -, -, h⟩ | ⟨-, h⟩ := offerStep_cases s <;> simp [h]
@[simp] theorem offerStep_wrap (s : State) : (offerStep s).wrap = s.wrap := by obtain ⟨e, -, -, -, h⟩ | ⟨-, h⟩ := offerStep_cases s <;> simp [h]
@[simp] theorem offerStep_label (s : State) : (offerStep s).label = s.label := by obtain ⟨e, -, -, -, h⟩ | ⟨-, h⟩ := offerStep_cases s <;> simp [h]
@[simp] theorem offerStep_route (s : State) : (offerStep s).route = s.route := by obtain ⟨e, -, -, -, h⟩ | ⟨-, h⟩ := offerStep_cases s <;> simp [h]
@[simp] theorem offerStep_free (s : State) : (offerStep s).free = s.free := by obtain ⟨e, -, -, -, h⟩ | ⟨-, h⟩ := offerStep_cases s <;> simp [h]
@[simp] theorem offerStep_rx (s : State) : (offerStep s).line.rx = s.line.rx := by
  obtain ⟨e, -, -, -, h⟩ | ⟨-, h⟩ := offerStep_cases s <;> simp [h]

/-! ## The route (R168 to R172) -/

/-- Only DISPATCH decides a route. -/
theorem routeStep_of_not_dispatch {s : State} (h : hasRole s .dispatch = false) : routeStep s = s := by
  simp [routeStep, h]

@[simp] theorem fixExitClass_pending (r : TravelRecord) (s : State) : (fixExitClass r s).pending = s.pending := by simp only [fixExitClass]; split <;> (try split) <;> simp
@[simp] theorem fixExitClass_service (r : TravelRecord) (s : State) : (fixExitClass r s).service = s.service := by simp only [fixExitClass]; split <;> (try split) <;> simp
@[simp] theorem fixExitClass_cfg (r : TravelRecord) (s : State) : (fixExitClass r s).cfg = s.cfg := by simp only [fixExitClass]; split <;> (try split) <;> simp
@[simp] theorem fixExitClass_pins (r : TravelRecord) (s : State) : (fixExitClass r s).pins = s.pins := by simp only [fixExitClass]; split <;> (try split) <;> simp
@[simp] theorem fixExitClass_table (r : TravelRecord) (s : State) : (fixExitClass r s).table = s.table := by simp only [fixExitClass]; split <;> (try split) <;> simp
@[simp] theorem fixExitClass_slot (r : TravelRecord) (s : State) : (fixExitClass r s).slot = s.slot := by simp only [fixExitClass]; split <;> (try split) <;> simp
@[simp] theorem fixExitClass_trackSeq (r : TravelRecord) (s : State) : (fixExitClass r s).trackSeq = s.trackSeq := by simp only [fixExitClass]; split <;> (try split) <;> simp
@[simp] theorem fixExitClass_zone (r : TravelRecord) (s : State) : (fixExitClass r s).zone = s.zone := by simp only [fixExitClass]; split <;> (try split) <;> simp
@[simp] theorem fixExitClass_store (r : TravelRecord) (s : State) : (fixExitClass r s).store = s.store := by simp only [fixExitClass]; split <;> (try split) <;> simp
@[simp] theorem fixExitClass_reader (r : TravelRecord) (s : State) : (fixExitClass r s).reader = s.reader := by simp only [fixExitClass]; split <;> (try split) <;> simp
@[simp] theorem fixExitClass_weigh (r : TravelRecord) (s : State) : (fixExitClass r s).weigh = s.weigh := by simp only [fixExitClass]; split <;> (try split) <;> simp
@[simp] theorem fixExitClass_prof (r : TravelRecord) (s : State) : (fixExitClass r s).prof = s.prof := by simp only [fixExitClass]; split <;> (try split) <;> simp
@[simp] theorem fixExitClass_eval (r : TravelRecord) (s : State) : (fixExitClass r s).eval = s.eval := by simp only [fixExitClass]; split <;> (try split) <;> simp
@[simp] theorem fixExitClass_wrap (r : TravelRecord) (s : State) : (fixExitClass r s).wrap = s.wrap := by simp only [fixExitClass]; split <;> (try split) <;> simp
@[simp] theorem fixExitClass_label (r : TravelRecord) (s : State) : (fixExitClass r s).label = s.label := by simp only [fixExitClass]; split <;> (try split) <;> simp
@[simp] theorem fixExitClass_free (r : TravelRecord) (s : State) : (fixExitClass r s).free = s.free := by simp only [fixExitClass]; split <;> (try split) <;> simp
@[simp] theorem fixExitClass_rx (r : TravelRecord) (s : State) : (fixExitClass r s).line.rx = s.line.rx := by
  simp only [fixExitClass]; split <;> (try split) <;> simp

@[simp] theorem startDelivery_pending (x : RouteCode) (s : State) : (startDelivery x s).pending = s.pending := by simp [startDelivery]
@[simp] theorem startDelivery_service (x : RouteCode) (s : State) : (startDelivery x s).service = s.service := by simp [startDelivery]
@[simp] theorem startDelivery_cfg (x : RouteCode) (s : State) : (startDelivery x s).cfg = s.cfg := by simp [startDelivery]
@[simp] theorem startDelivery_pins (x : RouteCode) (s : State) : (startDelivery x s).pins = s.pins := by simp [startDelivery]
@[simp] theorem startDelivery_line (x : RouteCode) (s : State) : (startDelivery x s).line = s.line := by simp [startDelivery]
@[simp] theorem startDelivery_slot (x : RouteCode) (s : State) : (startDelivery x s).slot = s.slot := by simp [startDelivery]
@[simp] theorem startDelivery_trackSeq (x : RouteCode) (s : State) : (startDelivery x s).trackSeq = s.trackSeq := by simp [startDelivery]
@[simp] theorem startDelivery_store (x : RouteCode) (s : State) : (startDelivery x s).store = s.store := by simp [startDelivery]
@[simp] theorem startDelivery_reader (x : RouteCode) (s : State) : (startDelivery x s).reader = s.reader := by simp [startDelivery]
@[simp] theorem startDelivery_weigh (x : RouteCode) (s : State) : (startDelivery x s).weigh = s.weigh := by simp [startDelivery]
@[simp] theorem startDelivery_prof (x : RouteCode) (s : State) : (startDelivery x s).prof = s.prof := by simp [startDelivery]
@[simp] theorem startDelivery_eval (x : RouteCode) (s : State) : (startDelivery x s).eval = s.eval := by simp [startDelivery]
@[simp] theorem startDelivery_wrap (x : RouteCode) (s : State) : (startDelivery x s).wrap = s.wrap := by simp [startDelivery]
@[simp] theorem startDelivery_label (x : RouteCode) (s : State) : (startDelivery x s).label = s.label := by simp [startDelivery]
@[simp] theorem startDelivery_free (x : RouteCode) (s : State) : (startDelivery x s).free = s.free := by simp [startDelivery]

@[simp] theorem decideRoute_pending (r : TravelRecord) (s : State) : (decideRoute r s).pending = s.pending := by simp only [decideRoute]; split <;> simp
@[simp] theorem decideRoute_service (r : TravelRecord) (s : State) : (decideRoute r s).service = s.service := by simp only [decideRoute]; split <;> simp
@[simp] theorem decideRoute_cfg (r : TravelRecord) (s : State) : (decideRoute r s).cfg = s.cfg := by simp only [decideRoute]; split <;> simp
@[simp] theorem decideRoute_pins (r : TravelRecord) (s : State) : (decideRoute r s).pins = s.pins := by simp only [decideRoute]; split <;> simp
@[simp] theorem decideRoute_slot (r : TravelRecord) (s : State) : (decideRoute r s).slot = s.slot := by simp only [decideRoute]; split <;> simp
@[simp] theorem decideRoute_trackSeq (r : TravelRecord) (s : State) : (decideRoute r s).trackSeq = s.trackSeq := by simp only [decideRoute]; split <;> simp
@[simp] theorem decideRoute_store (r : TravelRecord) (s : State) : (decideRoute r s).store = s.store := by simp only [decideRoute]; split <;> simp
@[simp] theorem decideRoute_reader (r : TravelRecord) (s : State) : (decideRoute r s).reader = s.reader := by simp only [decideRoute]; split <;> simp
@[simp] theorem decideRoute_weigh (r : TravelRecord) (s : State) : (decideRoute r s).weigh = s.weigh := by simp only [decideRoute]; split <;> simp
@[simp] theorem decideRoute_prof (r : TravelRecord) (s : State) : (decideRoute r s).prof = s.prof := by simp only [decideRoute]; split <;> simp
@[simp] theorem decideRoute_eval (r : TravelRecord) (s : State) : (decideRoute r s).eval = s.eval := by simp only [decideRoute]; split <;> simp
@[simp] theorem decideRoute_wrap (r : TravelRecord) (s : State) : (decideRoute r s).wrap = s.wrap := by simp only [decideRoute]; split <;> simp
@[simp] theorem decideRoute_label (r : TravelRecord) (s : State) : (decideRoute r s).label = s.label := by simp only [decideRoute]; split <;> simp
@[simp] theorem decideRoute_free (r : TravelRecord) (s : State) : (decideRoute r s).free = s.free := by simp only [decideRoute]; split <;> simp
@[simp] theorem decideRoute_rx (r : TravelRecord) (s : State) : (decideRoute r s).line.rx = s.line.rx := by
  simp only [decideRoute]; split <;> simp

@[simp] theorem dropLaneWait_pending (s : State) : (dropLaneWait s).pending = s.pending := rfl
@[simp] theorem dropLaneWait_service (s : State) : (dropLaneWait s).service = s.service := rfl
@[simp] theorem dropLaneWait_cfg (s : State) : (dropLaneWait s).cfg = s.cfg := rfl
@[simp] theorem dropLaneWait_pins (s : State) : (dropLaneWait s).pins = s.pins := rfl
@[simp] theorem dropLaneWait_line (s : State) : (dropLaneWait s).line = s.line := rfl
@[simp] theorem dropLaneWait_table (s : State) : (dropLaneWait s).table = s.table := rfl
@[simp] theorem dropLaneWait_slot (s : State) : (dropLaneWait s).slot = s.slot := rfl
@[simp] theorem dropLaneWait_trackSeq (s : State) : (dropLaneWait s).trackSeq = s.trackSeq := rfl
@[simp] theorem dropLaneWait_zone (s : State) : (dropLaneWait s).zone = s.zone := rfl
@[simp] theorem dropLaneWait_store (s : State) : (dropLaneWait s).store = s.store := rfl
@[simp] theorem dropLaneWait_reader (s : State) : (dropLaneWait s).reader = s.reader := rfl
@[simp] theorem dropLaneWait_weigh (s : State) : (dropLaneWait s).weigh = s.weigh := rfl
@[simp] theorem dropLaneWait_prof (s : State) : (dropLaneWait s).prof = s.prof := rfl
@[simp] theorem dropLaneWait_eval (s : State) : (dropLaneWait s).eval = s.eval := rfl
@[simp] theorem dropLaneWait_wrap (s : State) : (dropLaneWait s).wrap = s.wrap := rfl
@[simp] theorem dropLaneWait_label (s : State) : (dropLaneWait s).label = s.label := rfl
@[simp] theorem dropLaneWait_free (s : State) : (dropLaneWait s).free = s.free := rfl
@[simp] theorem dropLaneWait_route (s : State) :
    (dropLaneWait s).route = { s.route with laneWait := none, waitExpired := false } := rfl

/-- The test of R171: a record that has an exit leaves no lane wait; for one that lacks an exit the lane wait runs afresh,
or stays as it runs or has expired. -/
theorem watchLaneWait_cases (s : State) :
    (lacksExit s = false ∧ watchLaneWait s = dropLaneWait s) ∨
    (lacksExit s = true ∧ laneWaitOn s = false ∧
      watchLaneWait s = s.setRoute { s.route with laneWait := some s.cfg.dispatch.laneWait }) ∨
    (lacksExit s = true ∧ laneWaitOn s = true ∧ watchLaneWait s = s) := by
  unfold watchLaneWait
  cases lacksExit s <;> cases laneWaitOn s <;> simp

@[simp] theorem watchLaneWait_pending (s : State) : (watchLaneWait s).pending = s.pending := by unfold watchLaneWait; split <;> (try split) <;> simp
@[simp] theorem watchLaneWait_service (s : State) : (watchLaneWait s).service = s.service := by unfold watchLaneWait; split <;> (try split) <;> simp
@[simp] theorem watchLaneWait_cfg (s : State) : (watchLaneWait s).cfg = s.cfg := by unfold watchLaneWait; split <;> (try split) <;> simp
@[simp] theorem watchLaneWait_pins (s : State) : (watchLaneWait s).pins = s.pins := by unfold watchLaneWait; split <;> (try split) <;> simp
@[simp] theorem watchLaneWait_line (s : State) : (watchLaneWait s).line = s.line := by unfold watchLaneWait; split <;> (try split) <;> simp
@[simp] theorem watchLaneWait_table (s : State) : (watchLaneWait s).table = s.table := by unfold watchLaneWait; split <;> (try split) <;> simp
@[simp] theorem watchLaneWait_slot (s : State) : (watchLaneWait s).slot = s.slot := by unfold watchLaneWait; split <;> (try split) <;> simp
@[simp] theorem watchLaneWait_trackSeq (s : State) : (watchLaneWait s).trackSeq = s.trackSeq := by unfold watchLaneWait; split <;> (try split) <;> simp
@[simp] theorem watchLaneWait_zone (s : State) : (watchLaneWait s).zone = s.zone := by unfold watchLaneWait; split <;> (try split) <;> simp
@[simp] theorem watchLaneWait_store (s : State) : (watchLaneWait s).store = s.store := by unfold watchLaneWait; split <;> (try split) <;> simp
@[simp] theorem watchLaneWait_reader (s : State) : (watchLaneWait s).reader = s.reader := by unfold watchLaneWait; split <;> (try split) <;> simp
@[simp] theorem watchLaneWait_weigh (s : State) : (watchLaneWait s).weigh = s.weigh := by unfold watchLaneWait; split <;> (try split) <;> simp
@[simp] theorem watchLaneWait_prof (s : State) : (watchLaneWait s).prof = s.prof := by unfold watchLaneWait; split <;> (try split) <;> simp
@[simp] theorem watchLaneWait_eval (s : State) : (watchLaneWait s).eval = s.eval := by unfold watchLaneWait; split <;> (try split) <;> simp
@[simp] theorem watchLaneWait_wrap (s : State) : (watchLaneWait s).wrap = s.wrap := by unfold watchLaneWait; split <;> (try split) <;> simp
@[simp] theorem watchLaneWait_label (s : State) : (watchLaneWait s).label = s.label := by unfold watchLaneWait; split <;> (try split) <;> simp
@[simp] theorem watchLaneWait_free (s : State) : (watchLaneWait s).free = s.free := by unfold watchLaneWait; split <;> (try split) <;> simp

@[simp] theorem routeStep_pending (s : State) : (routeStep s).pending = s.pending := by unfold routeStep; split <;> (try split) <;> (try split) <;> simp
@[simp] theorem routeStep_service (s : State) : (routeStep s).service = s.service := by unfold routeStep; split <;> (try split) <;> (try split) <;> simp
@[simp] theorem routeStep_cfg (s : State) : (routeStep s).cfg = s.cfg := by unfold routeStep; split <;> (try split) <;> (try split) <;> simp
@[simp] theorem routeStep_pins (s : State) : (routeStep s).pins = s.pins := by unfold routeStep; split <;> (try split) <;> (try split) <;> simp
@[simp] theorem routeStep_slot (s : State) : (routeStep s).slot = s.slot := by unfold routeStep; split <;> (try split) <;> (try split) <;> simp
@[simp] theorem routeStep_trackSeq (s : State) : (routeStep s).trackSeq = s.trackSeq := by unfold routeStep; split <;> (try split) <;> (try split) <;> simp
@[simp] theorem routeStep_store (s : State) : (routeStep s).store = s.store := by unfold routeStep; split <;> (try split) <;> (try split) <;> simp
@[simp] theorem routeStep_reader (s : State) : (routeStep s).reader = s.reader := by unfold routeStep; split <;> (try split) <;> (try split) <;> simp
@[simp] theorem routeStep_weigh (s : State) : (routeStep s).weigh = s.weigh := by unfold routeStep; split <;> (try split) <;> (try split) <;> simp
@[simp] theorem routeStep_prof (s : State) : (routeStep s).prof = s.prof := by unfold routeStep; split <;> (try split) <;> (try split) <;> simp
@[simp] theorem routeStep_eval (s : State) : (routeStep s).eval = s.eval := by unfold routeStep; split <;> (try split) <;> (try split) <;> simp
@[simp] theorem routeStep_wrap (s : State) : (routeStep s).wrap = s.wrap := by unfold routeStep; split <;> (try split) <;> (try split) <;> simp
@[simp] theorem routeStep_label (s : State) : (routeStep s).label = s.label := by unfold routeStep; split <;> (try split) <;> (try split) <;> simp
@[simp] theorem routeStep_free (s : State) : (routeStep s).free = s.free := by unfold routeStep; split <;> (try split) <;> (try split) <;> simp
@[simp] theorem routeStep_rx (s : State) : (routeStep s).line.rx = s.line.rx := by
  unfold routeStep; split <;> (try split) <;> (try split) <;> simp

/-- What the route evaluation can do: nothing away from DISPATCH and for a DONE record that is not to be delivered now; a
decision and the test of its lane wait while the delivery conditions hold; the lane wait dropped with no DONE record. -/
theorem routeStep_cases (s : State) :
    routeStep s = s ∨ (zoneEntryIn s .done = none ∧ routeStep s = dropLaneWait s) ∨
    (∃ e, zoneEntryIn s .done = some e ∧ delivering s = true ∧
      routeStep s = watchLaneWait (decideRoute e.record s)) := by
  unfold routeStep
  cases hasRole s .dispatch
  · simp
  · cases h : zoneEntryIn s .done
    · simp
    · cases delivering s <;> simp

/-! ## The platform (R89, R91) -/

/-- The settle window is emptied when the platform-empty condition has changed at CHECK, and nothing else happens. -/
theorem windowStep_cases (b s : State) : windowStep b s = emptyWindow s ∨ windowStep b s = s := by
  unfold windowStep; split
  · exact .inl rfl
  · exact .inr rfl

/-- A platform that at CHECK becomes empty, or ceases to be, leaves the window empty (R89, R91). -/
theorem windowStep_window {b s : State} (hw : works s .check = true) (hp : platformEmpty b ≠ platformEmpty s) :
    (windowStep b s).weigh.window = [] := by simp [windowStep, hw, hp, emptyWindow]

@[simp] theorem platformEmpty_windowStep (b s : State) : platformEmpty (windowStep b s) = platformEmpty s := by
  obtain h | h := windowStep_cases b s <;> rw [h]; rfl

@[simp] theorem windowStep_pending (b s : State) : (windowStep b s).pending = s.pending := by obtain h | h := windowStep_cases b s <;> simp [h, emptyWindow]
@[simp] theorem windowStep_service (b s : State) : (windowStep b s).service = s.service := by obtain h | h := windowStep_cases b s <;> simp [h, emptyWindow]
@[simp] theorem windowStep_cfg (b s : State) : (windowStep b s).cfg = s.cfg := by obtain h | h := windowStep_cases b s <;> simp [h, emptyWindow]
@[simp] theorem windowStep_pins (b s : State) : (windowStep b s).pins = s.pins := by obtain h | h := windowStep_cases b s <;> simp [h, emptyWindow]
@[simp] theorem windowStep_line (b s : State) : (windowStep b s).line = s.line := by obtain h | h := windowStep_cases b s <;> simp [h, emptyWindow]
@[simp] theorem windowStep_table (b s : State) : (windowStep b s).table = s.table := by obtain h | h := windowStep_cases b s <;> simp [h, emptyWindow]
@[simp] theorem windowStep_slot (b s : State) : (windowStep b s).slot = s.slot := by obtain h | h := windowStep_cases b s <;> simp [h, emptyWindow]
@[simp] theorem windowStep_trackSeq (b s : State) : (windowStep b s).trackSeq = s.trackSeq := by obtain h | h := windowStep_cases b s <;> simp [h, emptyWindow]
@[simp] theorem windowStep_zone (b s : State) : (windowStep b s).zone = s.zone := by obtain h | h := windowStep_cases b s <;> simp [h, emptyWindow]
@[simp] theorem windowStep_store (b s : State) : (windowStep b s).store = s.store := by obtain h | h := windowStep_cases b s <;> simp [h, emptyWindow]
@[simp] theorem windowStep_reader (b s : State) : (windowStep b s).reader = s.reader := by obtain h | h := windowStep_cases b s <;> simp [h, emptyWindow]
@[simp] theorem windowStep_prof (b s : State) : (windowStep b s).prof = s.prof := by obtain h | h := windowStep_cases b s <;> simp [h, emptyWindow]
@[simp] theorem windowStep_eval (b s : State) : (windowStep b s).eval = s.eval := by obtain h | h := windowStep_cases b s <;> simp [h, emptyWindow]
@[simp] theorem windowStep_wrap (b s : State) : (windowStep b s).wrap = s.wrap := by obtain h | h := windowStep_cases b s <;> simp [h, emptyWindow]
@[simp] theorem windowStep_label (b s : State) : (windowStep b s).label = s.label := by obtain h | h := windowStep_cases b s <;> simp [h, emptyWindow]
@[simp] theorem windowStep_route (b s : State) : (windowStep b s).route = s.route := by obtain h | h := windowStep_cases b s <;> simp [h, emptyWindow]
@[simp] theorem windowStep_free (b s : State) : (windowStep b s).free = s.free := by obtain h | h := windowStep_cases b s <;> simp [h, emptyWindow]

/-! ## settle -/

/-- In STARTING and IN_SERVICE the steps run in their order; elsewhere nothing is evaluated. -/
theorem settle_active {b s : State} (h : active s = true) :
    settle b s = windowStep b (offerStep (slotStep (routeStep (permitStep (stopOffering s))))) := by simp [settle, h]

theorem settle_inactive {b s : State} (h : active s = false) : settle b s = s := by simp [settle, h]

@[simp] theorem settle_pending (b s : State) : (settle b s).pending = s.pending := by unfold settle; split <;> simp
@[simp] theorem settle_service (b s : State) : (settle b s).service = s.service := by unfold settle; split <;> simp
@[simp] theorem settle_cfg (b s : State) : (settle b s).cfg = s.cfg := by unfold settle; split <;> simp
@[simp] theorem settle_pins (b s : State) : (settle b s).pins = s.pins := by unfold settle; split <;> simp
@[simp] theorem settle_trackSeq (b s : State) : (settle b s).trackSeq = s.trackSeq := by unfold settle; split <;> simp
@[simp] theorem settle_store (b s : State) : (settle b s).store = s.store := by unfold settle; split <;> simp
@[simp] theorem settle_reader (b s : State) : (settle b s).reader = s.reader := by unfold settle; split <;> simp
@[simp] theorem settle_prof (b s : State) : (settle b s).prof = s.prof := by unfold settle; split <;> simp
@[simp] theorem settle_eval (b s : State) : (settle b s).eval = s.eval := by unfold settle; split <;> simp
@[simp] theorem settle_wrap (b s : State) : (settle b s).wrap = s.wrap := by unfold settle; split <;> simp
@[simp] theorem settle_label (b s : State) : (settle b s).label = s.label := by unfold settle; split <;> simp
@[simp] theorem settle_free (b s : State) : (settle b s).free = s.free := by unfold settle; split <;> simp
@[simp] theorem settle_rx (b s : State) : (settle b s).line.rx = s.line.rx := by unfold settle; split <;> simp

end Sys2Proof.Machine
end

