-- ==== Sys2Proof/Laws/WrapLabel.lean ====
section
/-! SUPPORT. The operations of the Wrap Sequencer (Chapter 8) and the Label Unit (Chapter 9): which fields each leaves, and when an attempt is requested or a print started. -/

namespace Sys2Proof.Machine

@[simp] theorem spendFree_pending (b : Bool) (s : State) : (spendFree b s).pending = s.pending := by simp only [spendFree]; (repeat' split) <;> simp
@[simp] theorem spendFree_service (b : Bool) (s : State) : (spendFree b s).service = s.service := by simp only [spendFree]; (repeat' split) <;> simp
@[simp] theorem spendFree_cfg (b : Bool) (s : State) : (spendFree b s).cfg = s.cfg := by simp only [spendFree]; (repeat' split) <;> simp
@[simp] theorem spendFree_pins (b : Bool) (s : State) : (spendFree b s).pins = s.pins := by simp only [spendFree]; (repeat' split) <;> simp
@[simp] theorem spendFree_line (b : Bool) (s : State) : (spendFree b s).line = s.line := by simp only [spendFree]; (repeat' split) <;> simp
@[simp] theorem spendFree_table (b : Bool) (s : State) : (spendFree b s).table = s.table := by simp only [spendFree]; (repeat' split) <;> simp
@[simp] theorem spendFree_slot (b : Bool) (s : State) : (spendFree b s).slot = s.slot := by simp only [spendFree]; (repeat' split) <;> simp
@[simp] theorem spendFree_trackSeq (b : Bool) (s : State) : (spendFree b s).trackSeq = s.trackSeq := by simp only [spendFree]; (repeat' split) <;> simp
@[simp] theorem spendFree_zone (b : Bool) (s : State) : (spendFree b s).zone = s.zone := by simp only [spendFree]; (repeat' split) <;> simp
@[simp] theorem spendFree_store (b : Bool) (s : State) : (spendFree b s).store = s.store := by simp only [spendFree]; (repeat' split) <;> simp
@[simp] theorem spendFree_reader (b : Bool) (s : State) : (spendFree b s).reader = s.reader := by simp only [spendFree]; (repeat' split) <;> simp
@[simp] theorem spendFree_weigh (b : Bool) (s : State) : (spendFree b s).weigh = s.weigh := by simp only [spendFree]; (repeat' split) <;> simp
@[simp] theorem spendFree_prof (b : Bool) (s : State) : (spendFree b s).prof = s.prof := by simp only [spendFree]; (repeat' split) <;> simp
@[simp] theorem spendFree_eval (b : Bool) (s : State) : (spendFree b s).eval = s.eval := by simp only [spendFree]; (repeat' split) <;> simp
@[simp] theorem spendFree_wrap (b : Bool) (s : State) : (spendFree b s).wrap = s.wrap := by simp only [spendFree]; (repeat' split) <;> simp
@[simp] theorem spendFree_label (b : Bool) (s : State) : (spendFree b s).label = s.label := by simp only [spendFree]; (repeat' split) <;> simp
@[simp] theorem spendFree_route (b : Bool) (s : State) : (spendFree b s).route = s.route := by simp only [spendFree]; (repeat' split) <;> simp

@[simp] theorem wrapDone_pending (v : WrapVerdict) (s : State) : (wrapDone v s).pending = s.pending := by simp [wrapDone]
@[simp] theorem wrapDone_service (v : WrapVerdict) (s : State) : (wrapDone v s).service = s.service := by simp [wrapDone]
@[simp] theorem wrapDone_cfg (v : WrapVerdict) (s : State) : (wrapDone v s).cfg = s.cfg := by simp [wrapDone]
@[simp] theorem wrapDone_pins (v : WrapVerdict) (s : State) : (wrapDone v s).pins = s.pins := by simp [wrapDone]
@[simp] theorem wrapDone_line (v : WrapVerdict) (s : State) : (wrapDone v s).line = s.line := by simp [wrapDone]
@[simp] theorem wrapDone_slot (v : WrapVerdict) (s : State) : (wrapDone v s).slot = s.slot := by simp [wrapDone]
@[simp] theorem wrapDone_trackSeq (v : WrapVerdict) (s : State) : (wrapDone v s).trackSeq = s.trackSeq := by simp [wrapDone]
@[simp] theorem wrapDone_zone (v : WrapVerdict) (s : State) : (wrapDone v s).zone = s.zone := by simp [wrapDone]
@[simp] theorem wrapDone_store (v : WrapVerdict) (s : State) : (wrapDone v s).store = s.store := by simp [wrapDone]
@[simp] theorem wrapDone_reader (v : WrapVerdict) (s : State) : (wrapDone v s).reader = s.reader := by simp [wrapDone]
@[simp] theorem wrapDone_weigh (v : WrapVerdict) (s : State) : (wrapDone v s).weigh = s.weigh := by simp [wrapDone]
@[simp] theorem wrapDone_prof (v : WrapVerdict) (s : State) : (wrapDone v s).prof = s.prof := by simp [wrapDone]
@[simp] theorem wrapDone_eval (v : WrapVerdict) (s : State) : (wrapDone v s).eval = s.eval := by simp [wrapDone]
@[simp] theorem wrapDone_wrap (v : WrapVerdict) (s : State) : (wrapDone v s).wrap = s.wrap := by simp [wrapDone]
@[simp] theorem wrapDone_label (v : WrapVerdict) (s : State) : (wrapDone v s).label = s.label := by simp [wrapDone]
@[simp] theorem wrapDone_route (v : WrapVerdict) (s : State) : (wrapDone v s).route = s.route := by simp [wrapDone]
@[simp] theorem wrapDone_free (v : WrapVerdict) (s : State) : (wrapDone v s).free = s.free := by simp [wrapDone]

@[simp] theorem wrapIdle_pending (s : State) : (wrapIdle s).pending = s.pending := by simp [wrapIdle]
@[simp] theorem wrapIdle_service (s : State) : (wrapIdle s).service = s.service := by simp [wrapIdle]
@[simp] theorem wrapIdle_cfg (s : State) : (wrapIdle s).cfg = s.cfg := by simp [wrapIdle]
@[simp] theorem wrapIdle_pins (s : State) : (wrapIdle s).pins = s.pins := by simp [wrapIdle]
@[simp] theorem wrapIdle_line (s : State) : (wrapIdle s).line = s.line := by simp [wrapIdle]
@[simp] theorem wrapIdle_table (s : State) : (wrapIdle s).table = s.table := by simp [wrapIdle]
@[simp] theorem wrapIdle_slot (s : State) : (wrapIdle s).slot = s.slot := by simp [wrapIdle]
@[simp] theorem wrapIdle_trackSeq (s : State) : (wrapIdle s).trackSeq = s.trackSeq := by simp [wrapIdle]
@[simp] theorem wrapIdle_zone (s : State) : (wrapIdle s).zone = s.zone := by simp [wrapIdle]
@[simp] theorem wrapIdle_store (s : State) : (wrapIdle s).store = s.store := by simp [wrapIdle]
@[simp] theorem wrapIdle_reader (s : State) : (wrapIdle s).reader = s.reader := by simp [wrapIdle]
@[simp] theorem wrapIdle_weigh (s : State) : (wrapIdle s).weigh = s.weigh := by simp [wrapIdle]
@[simp] theorem wrapIdle_prof (s : State) : (wrapIdle s).prof = s.prof := by simp [wrapIdle]
@[simp] theorem wrapIdle_eval (s : State) : (wrapIdle s).eval = s.eval := by simp [wrapIdle]
@[simp] theorem wrapIdle_label (s : State) : (wrapIdle s).label = s.label := by simp [wrapIdle]
@[simp] theorem wrapIdle_route (s : State) : (wrapIdle s).route = s.route := by simp [wrapIdle]
@[simp] theorem wrapIdle_free (s : State) : (wrapIdle s).free = s.free := by simp [wrapIdle]

@[simp] theorem beginWrap_pending (r : TravelRecord) (s : State) : (beginWrap r s).pending = s.pending := by simp only [beginWrap]; (repeat' split) <;> simp
@[simp] theorem beginWrap_service (r : TravelRecord) (s : State) : (beginWrap r s).service = s.service := by simp only [beginWrap]; (repeat' split) <;> simp
@[simp] theorem beginWrap_cfg (r : TravelRecord) (s : State) : (beginWrap r s).cfg = s.cfg := by simp only [beginWrap]; (repeat' split) <;> simp
@[simp] theorem beginWrap_pins (r : TravelRecord) (s : State) : (beginWrap r s).pins = s.pins := by simp only [beginWrap]; (repeat' split) <;> simp
@[simp] theorem beginWrap_line (r : TravelRecord) (s : State) : (beginWrap r s).line = s.line := by simp only [beginWrap]; (repeat' split) <;> simp
@[simp] theorem beginWrap_slot (r : TravelRecord) (s : State) : (beginWrap r s).slot = s.slot := by simp only [beginWrap]; (repeat' split) <;> simp
@[simp] theorem beginWrap_trackSeq (r : TravelRecord) (s : State) : (beginWrap r s).trackSeq = s.trackSeq := by simp only [beginWrap]; (repeat' split) <;> simp
@[simp] theorem beginWrap_zone (r : TravelRecord) (s : State) : (beginWrap r s).zone = s.zone := by simp only [beginWrap]; (repeat' split) <;> simp
@[simp] theorem beginWrap_store (r : TravelRecord) (s : State) : (beginWrap r s).store = s.store := by simp only [beginWrap]; (repeat' split) <;> simp
@[simp] theorem beginWrap_reader (r : TravelRecord) (s : State) : (beginWrap r s).reader = s.reader := by simp only [beginWrap]; (repeat' split) <;> simp
@[simp] theorem beginWrap_weigh (r : TravelRecord) (s : State) : (beginWrap r s).weigh = s.weigh := by simp only [beginWrap]; (repeat' split) <;> simp
@[simp] theorem beginWrap_prof (r : TravelRecord) (s : State) : (beginWrap r s).prof = s.prof := by simp only [beginWrap]; (repeat' split) <;> simp
@[simp] theorem beginWrap_eval (r : TravelRecord) (s : State) : (beginWrap r s).eval = s.eval := by simp only [beginWrap]; (repeat' split) <;> simp
@[simp] theorem beginWrap_label (r : TravelRecord) (s : State) : (beginWrap r s).label = s.label := by simp only [beginWrap]; (repeat' split) <;> simp
@[simp] theorem beginWrap_route (r : TravelRecord) (s : State) : (beginWrap r s).route = s.route := by simp only [beginWrap]; (repeat' split) <;> simp

/-- WAITING is left for REQUESTED exactly when the request conditions hold (R141). -/
theorem wrapStep_cases (s : State) :
    (wrapReady s = true ∧
      wrapStep s = s.setWrap { s.wrap with hs := .requested, startTimer := some s.cfg.wrap.startTimeout }) ∨
    (wrapReady s = false ∧ wrapStep s = s) := by
  unfold wrapStep
  split
  · exact .inl ⟨‹_›, rfl⟩
  · rename_i h; exact .inr ⟨by simpa using h, rfl⟩

@[simp] theorem wrapStep_pending (s : State) : (wrapStep s).pending = s.pending := by obtain ⟨-, h⟩ | ⟨-, h⟩ := wrapStep_cases s <;> simp [h]
@[simp] theorem wrapStep_service (s : State) : (wrapStep s).service = s.service := by obtain ⟨-, h⟩ | ⟨-, h⟩ := wrapStep_cases s <;> simp [h]
@[simp] theorem wrapStep_cfg (s : State) : (wrapStep s).cfg = s.cfg := by obtain ⟨-, h⟩ | ⟨-, h⟩ := wrapStep_cases s <;> simp [h]
@[simp] theorem wrapStep_pins (s : State) : (wrapStep s).pins = s.pins := by obtain ⟨-, h⟩ | ⟨-, h⟩ := wrapStep_cases s <;> simp [h]
@[simp] theorem wrapStep_line (s : State) : (wrapStep s).line = s.line := by obtain ⟨-, h⟩ | ⟨-, h⟩ := wrapStep_cases s <;> simp [h]
@[simp] theorem wrapStep_table (s : State) : (wrapStep s).table = s.table := by obtain ⟨-, h⟩ | ⟨-, h⟩ := wrapStep_cases s <;> simp [h]
@[simp] theorem wrapStep_slot (s : State) : (wrapStep s).slot = s.slot := by obtain ⟨-, h⟩ | ⟨-, h⟩ := wrapStep_cases s <;> simp [h]
@[simp] theorem wrapStep_trackSeq (s : State) : (wrapStep s).trackSeq = s.trackSeq := by obtain ⟨-, h⟩ | ⟨-, h⟩ := wrapStep_cases s <;> simp [h]
@[simp] theorem wrapStep_zone (s : State) : (wrapStep s).zone = s.zone := by obtain ⟨-, h⟩ | ⟨-, h⟩ := wrapStep_cases s <;> simp [h]
@[simp] theorem wrapStep_store (s : State) : (wrapStep s).store = s.store := by obtain ⟨-, h⟩ | ⟨-, h⟩ := wrapStep_cases s <;> simp [h]
@[simp] theorem wrapStep_reader (s : State) : (wrapStep s).reader = s.reader := by obtain ⟨-, h⟩ | ⟨-, h⟩ := wrapStep_cases s <;> simp [h]
@[simp] theorem wrapStep_weigh (s : State) : (wrapStep s).weigh = s.weigh := by obtain ⟨-, h⟩ | ⟨-, h⟩ := wrapStep_cases s <;> simp [h]
@[simp] theorem wrapStep_prof (s : State) : (wrapStep s).prof = s.prof := by obtain ⟨-, h⟩ | ⟨-, h⟩ := wrapStep_cases s <;> simp [h]
@[simp] theorem wrapStep_eval (s : State) : (wrapStep s).eval = s.eval := by obtain ⟨-, h⟩ | ⟨-, h⟩ := wrapStep_cases s <;> simp [h]
@[simp] theorem wrapStep_label (s : State) : (wrapStep s).label = s.label := by obtain ⟨-, h⟩ | ⟨-, h⟩ := wrapStep_cases s <;> simp [h]
@[simp] theorem wrapStep_route (s : State) : (wrapStep s).route = s.route := by obtain ⟨-, h⟩ | ⟨-, h⟩ := wrapStep_cases s <;> simp [h]
@[simp] theorem wrapStep_free (s : State) : (wrapStep s).free = s.free := by obtain ⟨-, h⟩ | ⟨-, h⟩ := wrapStep_cases s <;> simp [h]

@[simp] theorem wrapGivesUp_pending (c : WrapCause) (s : State) : (wrapGivesUp c s).pending = s.pending := by simp only [wrapGivesUp]; (repeat' split) <;> simp
@[simp] theorem wrapGivesUp_service (c : WrapCause) (s : State) : (wrapGivesUp c s).service = s.service := by simp only [wrapGivesUp]; (repeat' split) <;> simp
@[simp] theorem wrapGivesUp_cfg (c : WrapCause) (s : State) : (wrapGivesUp c s).cfg = s.cfg := by simp only [wrapGivesUp]; (repeat' split) <;> simp
@[simp] theorem wrapGivesUp_pins (c : WrapCause) (s : State) : (wrapGivesUp c s).pins = s.pins := by simp only [wrapGivesUp]; (repeat' split) <;> simp
@[simp] theorem wrapGivesUp_slot (c : WrapCause) (s : State) : (wrapGivesUp c s).slot = s.slot := by simp only [wrapGivesUp]; (repeat' split) <;> simp
@[simp] theorem wrapGivesUp_trackSeq (c : WrapCause) (s : State) : (wrapGivesUp c s).trackSeq = s.trackSeq := by simp only [wrapGivesUp]; (repeat' split) <;> simp
@[simp] theorem wrapGivesUp_zone (c : WrapCause) (s : State) : (wrapGivesUp c s).zone = s.zone := by simp only [wrapGivesUp]; (repeat' split) <;> simp
@[simp] theorem wrapGivesUp_store (c : WrapCause) (s : State) : (wrapGivesUp c s).store = s.store := by simp only [wrapGivesUp]; (repeat' split) <;> simp
@[simp] theorem wrapGivesUp_reader (c : WrapCause) (s : State) : (wrapGivesUp c s).reader = s.reader := by simp only [wrapGivesUp]; (repeat' split) <;> simp
@[simp] theorem wrapGivesUp_weigh (c : WrapCause) (s : State) : (wrapGivesUp c s).weigh = s.weigh := by simp only [wrapGivesUp]; (repeat' split) <;> simp
@[simp] theorem wrapGivesUp_prof (c : WrapCause) (s : State) : (wrapGivesUp c s).prof = s.prof := by simp only [wrapGivesUp]; (repeat' split) <;> simp
@[simp] theorem wrapGivesUp_eval (c : WrapCause) (s : State) : (wrapGivesUp c s).eval = s.eval := by simp only [wrapGivesUp]; (repeat' split) <;> simp
@[simp] theorem wrapGivesUp_label (c : WrapCause) (s : State) : (wrapGivesUp c s).label = s.label := by simp only [wrapGivesUp]; (repeat' split) <;> simp
@[simp] theorem wrapGivesUp_route (c : WrapCause) (s : State) : (wrapGivesUp c s).route = s.route := by simp only [wrapGivesUp]; (repeat' split) <;> simp
@[simp] theorem wrapGivesUp_free (c : WrapCause) (s : State) : (wrapGivesUp c s).free = s.free := by simp only [wrapGivesUp]; (repeat' split) <;> simp

@[simp] theorem failWrap_pending (c : WrapCause) (s : State) : (failWrap c s).pending = s.pending := by simp only [failWrap]; (repeat' split) <;> simp
@[simp] theorem failWrap_service (c : WrapCause) (s : State) : (failWrap c s).service = s.service := by simp only [failWrap]; (repeat' split) <;> simp
@[simp] theorem failWrap_cfg (c : WrapCause) (s : State) : (failWrap c s).cfg = s.cfg := by simp only [failWrap]; (repeat' split) <;> simp
@[simp] theorem failWrap_pins (c : WrapCause) (s : State) : (failWrap c s).pins = s.pins := by simp only [failWrap]; (repeat' split) <;> simp
@[simp] theorem failWrap_slot (c : WrapCause) (s : State) : (failWrap c s).slot = s.slot := by simp only [failWrap]; (repeat' split) <;> simp
@[simp] theorem failWrap_trackSeq (c : WrapCause) (s : State) : (failWrap c s).trackSeq = s.trackSeq := by simp only [failWrap]; (repeat' split) <;> simp
@[simp] theorem failWrap_zone (c : WrapCause) (s : State) : (failWrap c s).zone = s.zone := by simp only [failWrap]; (repeat' split) <;> simp
@[simp] theorem failWrap_store (c : WrapCause) (s : State) : (failWrap c s).store = s.store := by simp only [failWrap]; (repeat' split) <;> simp
@[simp] theorem failWrap_reader (c : WrapCause) (s : State) : (failWrap c s).reader = s.reader := by simp only [failWrap]; (repeat' split) <;> simp
@[simp] theorem failWrap_weigh (c : WrapCause) (s : State) : (failWrap c s).weigh = s.weigh := by simp only [failWrap]; (repeat' split) <;> simp
@[simp] theorem failWrap_prof (c : WrapCause) (s : State) : (failWrap c s).prof = s.prof := by simp only [failWrap]; (repeat' split) <;> simp
@[simp] theorem failWrap_eval (c : WrapCause) (s : State) : (failWrap c s).eval = s.eval := by simp only [failWrap]; (repeat' split) <;> simp
@[simp] theorem failWrap_label (c : WrapCause) (s : State) : (failWrap c s).label = s.label := by simp only [failWrap]; (repeat' split) <;> simp
@[simp] theorem failWrap_route (c : WrapCause) (s : State) : (failWrap c s).route = s.route := by simp only [failWrap]; (repeat' split) <;> simp
@[simp] theorem failWrap_free (c : WrapCause) (s : State) : (failWrap c s).free = s.free := by simp only [failWrap]; (repeat' split) <;> simp

@[simp] theorem completeWrap_pending (s : State) : (completeWrap s).pending = s.pending := by simp [completeWrap]
@[simp] theorem completeWrap_service (s : State) : (completeWrap s).service = s.service := by simp [completeWrap]
@[simp] theorem completeWrap_cfg (s : State) : (completeWrap s).cfg = s.cfg := by simp [completeWrap]
@[simp] theorem completeWrap_pins (s : State) : (completeWrap s).pins = s.pins := by simp [completeWrap]
@[simp] theorem completeWrap_line (s : State) : (completeWrap s).line = s.line := by simp [completeWrap]
@[simp] theorem completeWrap_slot (s : State) : (completeWrap s).slot = s.slot := by simp [completeWrap]
@[simp] theorem completeWrap_trackSeq (s : State) : (completeWrap s).trackSeq = s.trackSeq := by simp [completeWrap]
@[simp] theorem completeWrap_zone (s : State) : (completeWrap s).zone = s.zone := by simp [completeWrap]
@[simp] theorem completeWrap_store (s : State) : (completeWrap s).store = s.store := by simp [completeWrap]
@[simp] theorem completeWrap_reader (s : State) : (completeWrap s).reader = s.reader := by simp [completeWrap]
@[simp] theorem completeWrap_weigh (s : State) : (completeWrap s).weigh = s.weigh := by simp [completeWrap]
@[simp] theorem completeWrap_prof (s : State) : (completeWrap s).prof = s.prof := by simp [completeWrap]
@[simp] theorem completeWrap_eval (s : State) : (completeWrap s).eval = s.eval := by simp [completeWrap]
@[simp] theorem completeWrap_label (s : State) : (completeWrap s).label = s.label := by simp [completeWrap]
@[simp] theorem completeWrap_route (s : State) : (completeWrap s).route = s.route := by simp [completeWrap]
@[simp] theorem completeWrap_free (s : State) : (completeWrap s).free = s.free := by simp [completeWrap]

@[simp] theorem clearWrap_pending (s : State) : (clearWrap s).pending = s.pending := by simp [clearWrap]
@[simp] theorem clearWrap_service (s : State) : (clearWrap s).service = s.service := by simp [clearWrap]
@[simp] theorem clearWrap_cfg (s : State) : (clearWrap s).cfg = s.cfg := by simp [clearWrap]
@[simp] theorem clearWrap_pins (s : State) : (clearWrap s).pins = s.pins := by simp [clearWrap]
@[simp] theorem clearWrap_line (s : State) : (clearWrap s).line = s.line := by simp [clearWrap]
@[simp] theorem clearWrap_table (s : State) : (clearWrap s).table = s.table := by simp [clearWrap]
@[simp] theorem clearWrap_slot (s : State) : (clearWrap s).slot = s.slot := by simp [clearWrap]
@[simp] theorem clearWrap_trackSeq (s : State) : (clearWrap s).trackSeq = s.trackSeq := by simp [clearWrap]
@[simp] theorem clearWrap_zone (s : State) : (clearWrap s).zone = s.zone := by simp [clearWrap]
@[simp] theorem clearWrap_store (s : State) : (clearWrap s).store = s.store := by simp [clearWrap]
@[simp] theorem clearWrap_reader (s : State) : (clearWrap s).reader = s.reader := by simp [clearWrap]
@[simp] theorem clearWrap_weigh (s : State) : (clearWrap s).weigh = s.weigh := by simp [clearWrap]
@[simp] theorem clearWrap_prof (s : State) : (clearWrap s).prof = s.prof := by simp [clearWrap]
@[simp] theorem clearWrap_eval (s : State) : (clearWrap s).eval = s.eval := by simp [clearWrap]
@[simp] theorem clearWrap_label (s : State) : (clearWrap s).label = s.label := by simp [clearWrap]
@[simp] theorem clearWrap_route (s : State) : (clearWrap s).route = s.route := by simp [clearWrap]
@[simp] theorem clearWrap_free (s : State) : (clearWrap s).free = s.free := by simp [clearWrap]


/-! ## Label Unit -/

@[simp] theorem sendEngine_pending (m : List Byte) (s : State) : (sendEngine m s).pending = s.pending := by simp [sendEngine]
@[simp] theorem sendEngine_service (m : List Byte) (s : State) : (sendEngine m s).service = s.service := by simp [sendEngine]
@[simp] theorem sendEngine_cfg (m : List Byte) (s : State) : (sendEngine m s).cfg = s.cfg := by simp [sendEngine]
@[simp] theorem sendEngine_pins (m : List Byte) (s : State) : (sendEngine m s).pins = s.pins := by simp [sendEngine]
@[simp] theorem sendEngine_line (m : List Byte) (s : State) : (sendEngine m s).line = s.line := by simp [sendEngine]
@[simp] theorem sendEngine_table (m : List Byte) (s : State) : (sendEngine m s).table = s.table := by simp [sendEngine]
@[simp] theorem sendEngine_slot (m : List Byte) (s : State) : (sendEngine m s).slot = s.slot := by simp [sendEngine]
@[simp] theorem sendEngine_trackSeq (m : List Byte) (s : State) : (sendEngine m s).trackSeq = s.trackSeq := by simp [sendEngine]
@[simp] theorem sendEngine_zone (m : List Byte) (s : State) : (sendEngine m s).zone = s.zone := by simp [sendEngine]
@[simp] theorem sendEngine_store (m : List Byte) (s : State) : (sendEngine m s).store = s.store := by simp [sendEngine]
@[simp] theorem sendEngine_reader (m : List Byte) (s : State) : (sendEngine m s).reader = s.reader := by simp [sendEngine]
@[simp] theorem sendEngine_weigh (m : List Byte) (s : State) : (sendEngine m s).weigh = s.weigh := by simp [sendEngine]
@[simp] theorem sendEngine_prof (m : List Byte) (s : State) : (sendEngine m s).prof = s.prof := by simp [sendEngine]
@[simp] theorem sendEngine_eval (m : List Byte) (s : State) : (sendEngine m s).eval = s.eval := by simp [sendEngine]
@[simp] theorem sendEngine_wrap (m : List Byte) (s : State) : (sendEngine m s).wrap = s.wrap := by simp [sendEngine]
@[simp] theorem sendEngine_route (m : List Byte) (s : State) : (sendEngine m s).route = s.route := by simp [sendEngine]
@[simp] theorem sendEngine_free (m : List Byte) (s : State) : (sendEngine m s).free = s.free := by simp [sendEngine]

@[simp] theorem abortEngine_pending (s : State) : (abortEngine s).pending = s.pending := by simp [abortEngine]
@[simp] theorem abortEngine_service (s : State) : (abortEngine s).service = s.service := by simp [abortEngine]
@[simp] theorem abortEngine_cfg (s : State) : (abortEngine s).cfg = s.cfg := by simp [abortEngine]
@[simp] theorem abortEngine_pins (s : State) : (abortEngine s).pins = s.pins := by simp [abortEngine]
@[simp] theorem abortEngine_line (s : State) : (abortEngine s).line = s.line := by simp [abortEngine]
@[simp] theorem abortEngine_table (s : State) : (abortEngine s).table = s.table := by simp [abortEngine]
@[simp] theorem abortEngine_slot (s : State) : (abortEngine s).slot = s.slot := by simp [abortEngine]
@[simp] theorem abortEngine_trackSeq (s : State) : (abortEngine s).trackSeq = s.trackSeq := by simp [abortEngine]
@[simp] theorem abortEngine_zone (s : State) : (abortEngine s).zone = s.zone := by simp [abortEngine]
@[simp] theorem abortEngine_store (s : State) : (abortEngine s).store = s.store := by simp [abortEngine]
@[simp] theorem abortEngine_reader (s : State) : (abortEngine s).reader = s.reader := by simp [abortEngine]
@[simp] theorem abortEngine_weigh (s : State) : (abortEngine s).weigh = s.weigh := by simp [abortEngine]
@[simp] theorem abortEngine_prof (s : State) : (abortEngine s).prof = s.prof := by simp [abortEngine]
@[simp] theorem abortEngine_eval (s : State) : (abortEngine s).eval = s.eval := by simp [abortEngine]
@[simp] theorem abortEngine_wrap (s : State) : (abortEngine s).wrap = s.wrap := by simp [abortEngine]
@[simp] theorem abortEngine_route (s : State) : (abortEngine s).route = s.route := by simp [abortEngine]
@[simp] theorem abortEngine_free (s : State) : (abortEngine s).free = s.free := by simp [abortEngine]

@[simp] theorem labelDone_pending (v : LabelVerdict) (s : State) : (labelDone v s).pending = s.pending := by simp [labelDone]
@[simp] theorem labelDone_service (v : LabelVerdict) (s : State) : (labelDone v s).service = s.service := by simp [labelDone]
@[simp] theorem labelDone_cfg (v : LabelVerdict) (s : State) : (labelDone v s).cfg = s.cfg := by simp [labelDone]
@[simp] theorem labelDone_pins (v : LabelVerdict) (s : State) : (labelDone v s).pins = s.pins := by simp [labelDone]
@[simp] theorem labelDone_line (v : LabelVerdict) (s : State) : (labelDone v s).line = s.line := by simp [labelDone]
@[simp] theorem labelDone_slot (v : LabelVerdict) (s : State) : (labelDone v s).slot = s.slot := by simp [labelDone]
@[simp] theorem labelDone_trackSeq (v : LabelVerdict) (s : State) : (labelDone v s).trackSeq = s.trackSeq := by simp [labelDone]
@[simp] theorem labelDone_zone (v : LabelVerdict) (s : State) : (labelDone v s).zone = s.zone := by simp [labelDone]
@[simp] theorem labelDone_store (v : LabelVerdict) (s : State) : (labelDone v s).store = s.store := by simp [labelDone]
@[simp] theorem labelDone_reader (v : LabelVerdict) (s : State) : (labelDone v s).reader = s.reader := by simp [labelDone]
@[simp] theorem labelDone_weigh (v : LabelVerdict) (s : State) : (labelDone v s).weigh = s.weigh := by simp [labelDone]
@[simp] theorem labelDone_prof (v : LabelVerdict) (s : State) : (labelDone v s).prof = s.prof := by simp [labelDone]
@[simp] theorem labelDone_eval (v : LabelVerdict) (s : State) : (labelDone v s).eval = s.eval := by simp [labelDone]
@[simp] theorem labelDone_wrap (v : LabelVerdict) (s : State) : (labelDone v s).wrap = s.wrap := by simp [labelDone]
@[simp] theorem labelDone_label (v : LabelVerdict) (s : State) : (labelDone v s).label = s.label := by simp [labelDone]
@[simp] theorem labelDone_route (v : LabelVerdict) (s : State) : (labelDone v s).route = s.route := by simp [labelDone]
@[simp] theorem labelDone_free (v : LabelVerdict) (s : State) : (labelDone v s).free = s.free := by simp [labelDone]

@[simp] theorem labelIdle_pending (s : State) : (labelIdle s).pending = s.pending := by simp [labelIdle]
@[simp] theorem labelIdle_service (s : State) : (labelIdle s).service = s.service := by simp [labelIdle]
@[simp] theorem labelIdle_cfg (s : State) : (labelIdle s).cfg = s.cfg := by simp [labelIdle]
@[simp] theorem labelIdle_pins (s : State) : (labelIdle s).pins = s.pins := by simp [labelIdle]
@[simp] theorem labelIdle_line (s : State) : (labelIdle s).line = s.line := by simp [labelIdle]
@[simp] theorem labelIdle_table (s : State) : (labelIdle s).table = s.table := by simp [labelIdle]
@[simp] theorem labelIdle_slot (s : State) : (labelIdle s).slot = s.slot := by simp [labelIdle]
@[simp] theorem labelIdle_trackSeq (s : State) : (labelIdle s).trackSeq = s.trackSeq := by simp [labelIdle]
@[simp] theorem labelIdle_zone (s : State) : (labelIdle s).zone = s.zone := by simp [labelIdle]
@[simp] theorem labelIdle_store (s : State) : (labelIdle s).store = s.store := by simp [labelIdle]
@[simp] theorem labelIdle_reader (s : State) : (labelIdle s).reader = s.reader := by simp [labelIdle]
@[simp] theorem labelIdle_weigh (s : State) : (labelIdle s).weigh = s.weigh := by simp [labelIdle]
@[simp] theorem labelIdle_prof (s : State) : (labelIdle s).prof = s.prof := by simp [labelIdle]
@[simp] theorem labelIdle_eval (s : State) : (labelIdle s).eval = s.eval := by simp [labelIdle]
@[simp] theorem labelIdle_wrap (s : State) : (labelIdle s).wrap = s.wrap := by simp [labelIdle]
@[simp] theorem labelIdle_route (s : State) : (labelIdle s).route = s.route := by simp [labelIdle]
@[simp] theorem labelIdle_free (s : State) : (labelIdle s).free = s.free := by simp [labelIdle]

@[simp] theorem beginLabel_pending (r : TravelRecord) (s : State) : (beginLabel r s).pending = s.pending := by simp only [beginLabel]; (repeat' split) <;> simp
@[simp] theorem beginLabel_service (r : TravelRecord) (s : State) : (beginLabel r s).service = s.service := by simp only [beginLabel]; (repeat' split) <;> simp
@[simp] theorem beginLabel_cfg (r : TravelRecord) (s : State) : (beginLabel r s).cfg = s.cfg := by simp only [beginLabel]; (repeat' split) <;> simp
@[simp] theorem beginLabel_pins (r : TravelRecord) (s : State) : (beginLabel r s).pins = s.pins := by simp only [beginLabel]; (repeat' split) <;> simp
@[simp] theorem beginLabel_line (r : TravelRecord) (s : State) : (beginLabel r s).line = s.line := by simp only [beginLabel]; (repeat' split) <;> simp
@[simp] theorem beginLabel_slot (r : TravelRecord) (s : State) : (beginLabel r s).slot = s.slot := by simp only [beginLabel]; (repeat' split) <;> simp
@[simp] theorem beginLabel_trackSeq (r : TravelRecord) (s : State) : (beginLabel r s).trackSeq = s.trackSeq := by simp only [beginLabel]; (repeat' split) <;> simp
@[simp] theorem beginLabel_zone (r : TravelRecord) (s : State) : (beginLabel r s).zone = s.zone := by simp only [beginLabel]; (repeat' split) <;> simp
@[simp] theorem beginLabel_store (r : TravelRecord) (s : State) : (beginLabel r s).store = s.store := by simp only [beginLabel]; (repeat' split) <;> simp
@[simp] theorem beginLabel_reader (r : TravelRecord) (s : State) : (beginLabel r s).reader = s.reader := by simp only [beginLabel]; (repeat' split) <;> simp
@[simp] theorem beginLabel_weigh (r : TravelRecord) (s : State) : (beginLabel r s).weigh = s.weigh := by simp only [beginLabel]; (repeat' split) <;> simp
@[simp] theorem beginLabel_prof (r : TravelRecord) (s : State) : (beginLabel r s).prof = s.prof := by simp only [beginLabel]; (repeat' split) <;> simp
@[simp] theorem beginLabel_eval (r : TravelRecord) (s : State) : (beginLabel r s).eval = s.eval := by simp only [beginLabel]; (repeat' split) <;> simp
@[simp] theorem beginLabel_wrap (r : TravelRecord) (s : State) : (beginLabel r s).wrap = s.wrap := by simp only [beginLabel]; (repeat' split) <;> simp
@[simp] theorem beginLabel_route (r : TravelRecord) (s : State) : (beginLabel r s).route = s.route := by simp only [beginLabel]; (repeat' split) <;> simp

@[simp] theorem startPrint_pending (s : State) : (startPrint s).pending = s.pending := by simp only [startPrint]; (repeat' split) <;> simp
@[simp] theorem startPrint_service (s : State) : (startPrint s).service = s.service := by simp only [startPrint]; (repeat' split) <;> simp
@[simp] theorem startPrint_cfg (s : State) : (startPrint s).cfg = s.cfg := by simp only [startPrint]; (repeat' split) <;> simp
@[simp] theorem startPrint_pins (s : State) : (startPrint s).pins = s.pins := by simp only [startPrint]; (repeat' split) <;> simp
@[simp] theorem startPrint_line (s : State) : (startPrint s).line = s.line := by simp only [startPrint]; (repeat' split) <;> simp
@[simp] theorem startPrint_table (s : State) : (startPrint s).table = s.table := by simp only [startPrint]; (repeat' split) <;> simp
@[simp] theorem startPrint_slot (s : State) : (startPrint s).slot = s.slot := by simp only [startPrint]; (repeat' split) <;> simp
@[simp] theorem startPrint_trackSeq (s : State) : (startPrint s).trackSeq = s.trackSeq := by simp only [startPrint]; (repeat' split) <;> simp
@[simp] theorem startPrint_zone (s : State) : (startPrint s).zone = s.zone := by simp only [startPrint]; (repeat' split) <;> simp
@[simp] theorem startPrint_store (s : State) : (startPrint s).store = s.store := by simp only [startPrint]; (repeat' split) <;> simp
@[simp] theorem startPrint_reader (s : State) : (startPrint s).reader = s.reader := by simp only [startPrint]; (repeat' split) <;> simp
@[simp] theorem startPrint_weigh (s : State) : (startPrint s).weigh = s.weigh := by simp only [startPrint]; (repeat' split) <;> simp
@[simp] theorem startPrint_prof (s : State) : (startPrint s).prof = s.prof := by simp only [startPrint]; (repeat' split) <;> simp
@[simp] theorem startPrint_eval (s : State) : (startPrint s).eval = s.eval := by simp only [startPrint]; (repeat' split) <;> simp
@[simp] theorem startPrint_wrap (s : State) : (startPrint s).wrap = s.wrap := by simp only [startPrint]; (repeat' split) <;> simp
@[simp] theorem startPrint_route (s : State) : (startPrint s).route = s.route := by simp only [startPrint]; (repeat' split) <;> simp
@[simp] theorem startPrint_free (s : State) : (startPrint s).free = s.free := by simp only [startPrint]; (repeat' split) <;> simp

/-- WAITING starts the print exactly when the print conditions hold (R157). -/
theorem labelStep_cases (s : State) :
    (printReady s = true ∧ labelStep s = startPrint s) ∨ (printReady s = false ∧ labelStep s = s) := by
  unfold labelStep
  split
  · exact .inl ⟨‹_›, rfl⟩
  · rename_i h; exact .inr ⟨by simpa using h, rfl⟩

/-- A history never holds more than four starts (R157). -/
theorem addStart_length (w : Nat) (h : List PrintStart) (hl : h.length ≤ Config.historySize) :
    (addStart w h).length ≤ Config.historySize := by
  unfold addStart
  split <;> simp [Config.historySize] at * <;> omega

@[simp] theorem labelStep_pending (s : State) : (labelStep s).pending = s.pending := by obtain ⟨-, h⟩ | ⟨-, h⟩ := labelStep_cases s <;> simp [h]
@[simp] theorem labelStep_service (s : State) : (labelStep s).service = s.service := by obtain ⟨-, h⟩ | ⟨-, h⟩ := labelStep_cases s <;> simp [h]
@[simp] theorem labelStep_cfg (s : State) : (labelStep s).cfg = s.cfg := by obtain ⟨-, h⟩ | ⟨-, h⟩ := labelStep_cases s <;> simp [h]
@[simp] theorem labelStep_pins (s : State) : (labelStep s).pins = s.pins := by obtain ⟨-, h⟩ | ⟨-, h⟩ := labelStep_cases s <;> simp [h]
@[simp] theorem labelStep_line (s : State) : (labelStep s).line = s.line := by obtain ⟨-, h⟩ | ⟨-, h⟩ := labelStep_cases s <;> simp [h]
@[simp] theorem labelStep_table (s : State) : (labelStep s).table = s.table := by obtain ⟨-, h⟩ | ⟨-, h⟩ := labelStep_cases s <;> simp [h]
@[simp] theorem labelStep_slot (s : State) : (labelStep s).slot = s.slot := by obtain ⟨-, h⟩ | ⟨-, h⟩ := labelStep_cases s <;> simp [h]
@[simp] theorem labelStep_trackSeq (s : State) : (labelStep s).trackSeq = s.trackSeq := by obtain ⟨-, h⟩ | ⟨-, h⟩ := labelStep_cases s <;> simp [h]
@[simp] theorem labelStep_zone (s : State) : (labelStep s).zone = s.zone := by obtain ⟨-, h⟩ | ⟨-, h⟩ := labelStep_cases s <;> simp [h]
@[simp] theorem labelStep_store (s : State) : (labelStep s).store = s.store := by obtain ⟨-, h⟩ | ⟨-, h⟩ := labelStep_cases s <;> simp [h]
@[simp] theorem labelStep_reader (s : State) : (labelStep s).reader = s.reader := by obtain ⟨-, h⟩ | ⟨-, h⟩ := labelStep_cases s <;> simp [h]
@[simp] theorem labelStep_weigh (s : State) : (labelStep s).weigh = s.weigh := by obtain ⟨-, h⟩ | ⟨-, h⟩ := labelStep_cases s <;> simp [h]
@[simp] theorem labelStep_prof (s : State) : (labelStep s).prof = s.prof := by obtain ⟨-, h⟩ | ⟨-, h⟩ := labelStep_cases s <;> simp [h]
@[simp] theorem labelStep_eval (s : State) : (labelStep s).eval = s.eval := by obtain ⟨-, h⟩ | ⟨-, h⟩ := labelStep_cases s <;> simp [h]
@[simp] theorem labelStep_wrap (s : State) : (labelStep s).wrap = s.wrap := by obtain ⟨-, h⟩ | ⟨-, h⟩ := labelStep_cases s <;> simp [h]
@[simp] theorem labelStep_route (s : State) : (labelStep s).route = s.route := by obtain ⟨-, h⟩ | ⟨-, h⟩ := labelStep_cases s <;> simp [h]
@[simp] theorem labelStep_free (s : State) : (labelStep s).free = s.free := by obtain ⟨-, h⟩ | ⟨-, h⟩ := labelStep_cases s <;> simp [h]

@[simp] theorem startApply_pending (s : State) : (startApply s).pending = s.pending := by simp [startApply]
@[simp] theorem startApply_service (s : State) : (startApply s).service = s.service := by simp [startApply]
@[simp] theorem startApply_cfg (s : State) : (startApply s).cfg = s.cfg := by simp [startApply]
@[simp] theorem startApply_pins (s : State) : (startApply s).pins = s.pins := by simp [startApply]
@[simp] theorem startApply_line (s : State) : (startApply s).line = s.line := by simp [startApply]
@[simp] theorem startApply_table (s : State) : (startApply s).table = s.table := by simp [startApply]
@[simp] theorem startApply_slot (s : State) : (startApply s).slot = s.slot := by simp [startApply]
@[simp] theorem startApply_trackSeq (s : State) : (startApply s).trackSeq = s.trackSeq := by simp [startApply]
@[simp] theorem startApply_zone (s : State) : (startApply s).zone = s.zone := by simp [startApply]
@[simp] theorem startApply_store (s : State) : (startApply s).store = s.store := by simp [startApply]
@[simp] theorem startApply_reader (s : State) : (startApply s).reader = s.reader := by simp [startApply]
@[simp] theorem startApply_weigh (s : State) : (startApply s).weigh = s.weigh := by simp [startApply]
@[simp] theorem startApply_prof (s : State) : (startApply s).prof = s.prof := by simp [startApply]
@[simp] theorem startApply_eval (s : State) : (startApply s).eval = s.eval := by simp [startApply]
@[simp] theorem startApply_wrap (s : State) : (startApply s).wrap = s.wrap := by simp [startApply]
@[simp] theorem startApply_route (s : State) : (startApply s).route = s.route := by simp [startApply]
@[simp] theorem startApply_free (s : State) : (startApply s).free = s.free := by simp [startApply]

@[simp] theorem labelGivesUp_pending (s : State) : (labelGivesUp s).pending = s.pending := by simp only [labelGivesUp]; (repeat' split) <;> simp
@[simp] theorem labelGivesUp_service (s : State) : (labelGivesUp s).service = s.service := by simp only [labelGivesUp]; (repeat' split) <;> simp
@[simp] theorem labelGivesUp_cfg (s : State) : (labelGivesUp s).cfg = s.cfg := by simp only [labelGivesUp]; (repeat' split) <;> simp
@[simp] theorem labelGivesUp_pins (s : State) : (labelGivesUp s).pins = s.pins := by simp only [labelGivesUp]; (repeat' split) <;> simp
@[simp] theorem labelGivesUp_slot (s : State) : (labelGivesUp s).slot = s.slot := by simp only [labelGivesUp]; (repeat' split) <;> simp
@[simp] theorem labelGivesUp_trackSeq (s : State) : (labelGivesUp s).trackSeq = s.trackSeq := by simp only [labelGivesUp]; (repeat' split) <;> simp
@[simp] theorem labelGivesUp_zone (s : State) : (labelGivesUp s).zone = s.zone := by simp only [labelGivesUp]; (repeat' split) <;> simp
@[simp] theorem labelGivesUp_store (s : State) : (labelGivesUp s).store = s.store := by simp only [labelGivesUp]; (repeat' split) <;> simp
@[simp] theorem labelGivesUp_reader (s : State) : (labelGivesUp s).reader = s.reader := by simp only [labelGivesUp]; (repeat' split) <;> simp
@[simp] theorem labelGivesUp_weigh (s : State) : (labelGivesUp s).weigh = s.weigh := by simp only [labelGivesUp]; (repeat' split) <;> simp
@[simp] theorem labelGivesUp_prof (s : State) : (labelGivesUp s).prof = s.prof := by simp only [labelGivesUp]; (repeat' split) <;> simp
@[simp] theorem labelGivesUp_eval (s : State) : (labelGivesUp s).eval = s.eval := by simp only [labelGivesUp]; (repeat' split) <;> simp
@[simp] theorem labelGivesUp_wrap (s : State) : (labelGivesUp s).wrap = s.wrap := by simp only [labelGivesUp]; (repeat' split) <;> simp
@[simp] theorem labelGivesUp_route (s : State) : (labelGivesUp s).route = s.route := by simp only [labelGivesUp]; (repeat' split) <;> simp
@[simp] theorem labelGivesUp_free (s : State) : (labelGivesUp s).free = s.free := by simp only [labelGivesUp]; (repeat' split) <;> simp

@[simp] theorem failLabel_pending (c : LabelCause) (s : State) : (failLabel c s).pending = s.pending := by simp only [failLabel]; (repeat' split) <;> simp
@[simp] theorem failLabel_service (c : LabelCause) (s : State) : (failLabel c s).service = s.service := by simp only [failLabel]; (repeat' split) <;> simp
@[simp] theorem failLabel_cfg (c : LabelCause) (s : State) : (failLabel c s).cfg = s.cfg := by simp only [failLabel]; (repeat' split) <;> simp
@[simp] theorem failLabel_pins (c : LabelCause) (s : State) : (failLabel c s).pins = s.pins := by simp only [failLabel]; (repeat' split) <;> simp
@[simp] theorem failLabel_slot (c : LabelCause) (s : State) : (failLabel c s).slot = s.slot := by simp only [failLabel]; (repeat' split) <;> simp
@[simp] theorem failLabel_trackSeq (c : LabelCause) (s : State) : (failLabel c s).trackSeq = s.trackSeq := by simp only [failLabel]; (repeat' split) <;> simp
@[simp] theorem failLabel_zone (c : LabelCause) (s : State) : (failLabel c s).zone = s.zone := by simp only [failLabel]; (repeat' split) <;> simp
@[simp] theorem failLabel_store (c : LabelCause) (s : State) : (failLabel c s).store = s.store := by simp only [failLabel]; (repeat' split) <;> simp
@[simp] theorem failLabel_reader (c : LabelCause) (s : State) : (failLabel c s).reader = s.reader := by simp only [failLabel]; (repeat' split) <;> simp
@[simp] theorem failLabel_weigh (c : LabelCause) (s : State) : (failLabel c s).weigh = s.weigh := by simp only [failLabel]; (repeat' split) <;> simp
@[simp] theorem failLabel_prof (c : LabelCause) (s : State) : (failLabel c s).prof = s.prof := by simp only [failLabel]; (repeat' split) <;> simp
@[simp] theorem failLabel_eval (c : LabelCause) (s : State) : (failLabel c s).eval = s.eval := by simp only [failLabel]; (repeat' split) <;> simp
@[simp] theorem failLabel_wrap (c : LabelCause) (s : State) : (failLabel c s).wrap = s.wrap := by simp only [failLabel]; (repeat' split) <;> simp
@[simp] theorem failLabel_route (c : LabelCause) (s : State) : (failLabel c s).route = s.route := by simp only [failLabel]; (repeat' split) <;> simp
@[simp] theorem failLabel_free (c : LabelCause) (s : State) : (failLabel c s).free = s.free := by simp only [failLabel]; (repeat' split) <;> simp

@[simp] theorem judgeVerify_pending (ds : Digits) (s : State) : (judgeVerify ds s).pending = s.pending := by simp only [judgeVerify]; (repeat' split) <;> simp
@[simp] theorem judgeVerify_service (ds : Digits) (s : State) : (judgeVerify ds s).service = s.service := by simp only [judgeVerify]; (repeat' split) <;> simp
@[simp] theorem judgeVerify_cfg (ds : Digits) (s : State) : (judgeVerify ds s).cfg = s.cfg := by simp only [judgeVerify]; (repeat' split) <;> simp
@[simp] theorem judgeVerify_pins (ds : Digits) (s : State) : (judgeVerify ds s).pins = s.pins := by simp only [judgeVerify]; (repeat' split) <;> simp
@[simp] theorem judgeVerify_slot (ds : Digits) (s : State) : (judgeVerify ds s).slot = s.slot := by simp only [judgeVerify]; (repeat' split) <;> simp
@[simp] theorem judgeVerify_trackSeq (ds : Digits) (s : State) : (judgeVerify ds s).trackSeq = s.trackSeq := by simp only [judgeVerify]; (repeat' split) <;> simp
@[simp] theorem judgeVerify_zone (ds : Digits) (s : State) : (judgeVerify ds s).zone = s.zone := by simp only [judgeVerify]; (repeat' split) <;> simp
@[simp] theorem judgeVerify_store (ds : Digits) (s : State) : (judgeVerify ds s).store = s.store := by simp only [judgeVerify]; (repeat' split) <;> simp
@[simp] theorem judgeVerify_weigh (ds : Digits) (s : State) : (judgeVerify ds s).weigh = s.weigh := by simp only [judgeVerify]; (repeat' split) <;> simp
@[simp] theorem judgeVerify_prof (ds : Digits) (s : State) : (judgeVerify ds s).prof = s.prof := by simp only [judgeVerify]; (repeat' split) <;> simp
@[simp] theorem judgeVerify_eval (ds : Digits) (s : State) : (judgeVerify ds s).eval = s.eval := by simp only [judgeVerify]; (repeat' split) <;> simp
@[simp] theorem judgeVerify_wrap (ds : Digits) (s : State) : (judgeVerify ds s).wrap = s.wrap := by simp only [judgeVerify]; (repeat' split) <;> simp
@[simp] theorem judgeVerify_route (ds : Digits) (s : State) : (judgeVerify ds s).route = s.route := by simp only [judgeVerify]; (repeat' split) <;> simp
@[simp] theorem judgeVerify_free (ds : Digits) (s : State) : (judgeVerify ds s).free = s.free := by simp only [judgeVerify]; (repeat' split) <;> simp

@[simp] theorem clearLabel_pending (s : State) : (clearLabel s).pending = s.pending := by simp [clearLabel]
@[simp] theorem clearLabel_service (s : State) : (clearLabel s).service = s.service := by simp [clearLabel]
@[simp] theorem clearLabel_cfg (s : State) : (clearLabel s).cfg = s.cfg := by simp [clearLabel]
@[simp] theorem clearLabel_pins (s : State) : (clearLabel s).pins = s.pins := by simp [clearLabel]
@[simp] theorem clearLabel_line (s : State) : (clearLabel s).line = s.line := by simp [clearLabel]
@[simp] theorem clearLabel_table (s : State) : (clearLabel s).table = s.table := by simp [clearLabel]
@[simp] theorem clearLabel_slot (s : State) : (clearLabel s).slot = s.slot := by simp [clearLabel]
@[simp] theorem clearLabel_trackSeq (s : State) : (clearLabel s).trackSeq = s.trackSeq := by simp [clearLabel]
@[simp] theorem clearLabel_zone (s : State) : (clearLabel s).zone = s.zone := by simp [clearLabel]
@[simp] theorem clearLabel_store (s : State) : (clearLabel s).store = s.store := by simp [clearLabel]
@[simp] theorem clearLabel_weigh (s : State) : (clearLabel s).weigh = s.weigh := by simp [clearLabel]
@[simp] theorem clearLabel_prof (s : State) : (clearLabel s).prof = s.prof := by simp [clearLabel]
@[simp] theorem clearLabel_eval (s : State) : (clearLabel s).eval = s.eval := by simp [clearLabel]
@[simp] theorem clearLabel_wrap (s : State) : (clearLabel s).wrap = s.wrap := by simp [clearLabel]
@[simp] theorem clearLabel_route (s : State) : (clearLabel s).route = s.route := by simp [clearLabel]
@[simp] theorem clearLabel_free (s : State) : (clearLabel s).free = s.free := by simp [clearLabel]

/-- The digits of a decimal text, one character each (R153, 12.2). -/
theorem decimalFuel_eq (fuel n : Nat) (h : n < fuel) :
    decimalFuel fuel n = (Nat.toDigits 10 n).map (fun ch => BitVec.ofNat 8 ch.toNat) := by
  have digit : ∀ d < 10, BitVec.ofNat 8 (Nat.digitChar d).toNat = digitByte d := by decide
  induction fuel generalizing n with
  | zero => omega
  | succ fuel ih =>
    by_cases hn : n < 10
    · simp [decimalFuel, hn, Nat.toDigits_of_lt_base hn, digit n hn]
    · rw [Nat.toDigits_of_base_le (by omega) (by omega)]
      simp [decimalFuel, hn, ih (n / 10) (by omega), digit (n % 10) (by omega)]

theorem decimal_eq (n : Nat) : decimal n = (Nat.toDigits 10 n).map (fun ch => BitVec.ofNat 8 ch.toNat) :=
  decimalFuel_eq (n + 1) n (by omega)

end Sys2Proof.Machine
end

