-- ==== Sys2Proof/Laws/Zone.lean ====
section
/-! SUPPORT. The operations of the Zone Controller and the Start Controller (Chapters 2 and 11): which fields each leaves. -/

namespace Sys2Proof.Machine

@[simp] theorem beginWork_pending (r : TravelRecord) (s : State) : (beginWork r s).pending = s.pending := by simp only [beginWork]; (repeat' split) <;> simp
@[simp] theorem beginWork_service (r : TravelRecord) (s : State) : (beginWork r s).service = s.service := by simp only [beginWork]; (repeat' split) <;> simp
@[simp] theorem beginWork_cfg (r : TravelRecord) (s : State) : (beginWork r s).cfg = s.cfg := by simp only [beginWork]; (repeat' split) <;> simp
@[simp] theorem beginWork_pins (r : TravelRecord) (s : State) : (beginWork r s).pins = s.pins := by simp only [beginWork]; (repeat' split) <;> simp
@[simp] theorem beginWork_line (r : TravelRecord) (s : State) : (beginWork r s).line = s.line := by simp only [beginWork]; (repeat' split) <;> simp
@[simp] theorem beginWork_slot (r : TravelRecord) (s : State) : (beginWork r s).slot = s.slot := by simp only [beginWork]; (repeat' split) <;> simp
@[simp] theorem beginWork_trackSeq (r : TravelRecord) (s : State) : (beginWork r s).trackSeq = s.trackSeq := by simp only [beginWork]; (repeat' split) <;> simp
@[simp] theorem beginWork_zone (r : TravelRecord) (s : State) : (beginWork r s).zone = s.zone := by simp only [beginWork]; (repeat' split) <;> simp
@[simp] theorem beginWork_store (r : TravelRecord) (s : State) : (beginWork r s).store = s.store := by simp only [beginWork]; (repeat' split) <;> simp
@[simp] theorem beginWork_prof (r : TravelRecord) (s : State) : (beginWork r s).prof = s.prof := by simp only [beginWork]; (repeat' split) <;> simp
@[simp] theorem beginWork_route (r : TravelRecord) (s : State) : (beginWork r s).route = s.route := by simp only [beginWork]; (repeat' split) <;> simp

@[simp] theorem enterWorking_pending (s : State) : (enterWorking s).pending = s.pending := by simp only [enterWorking]; (repeat' split) <;> simp
@[simp] theorem enterWorking_service (s : State) : (enterWorking s).service = s.service := by simp only [enterWorking]; (repeat' split) <;> simp
@[simp] theorem enterWorking_cfg (s : State) : (enterWorking s).cfg = s.cfg := by simp only [enterWorking]; (repeat' split) <;> simp
@[simp] theorem enterWorking_pins (s : State) : (enterWorking s).pins = s.pins := by simp only [enterWorking]; (repeat' split) <;> simp
@[simp] theorem enterWorking_line (s : State) : (enterWorking s).line = s.line := by simp only [enterWorking]; (repeat' split) <;> simp
@[simp] theorem enterWorking_slot (s : State) : (enterWorking s).slot = s.slot := by simp only [enterWorking]; (repeat' split) <;> simp
@[simp] theorem enterWorking_trackSeq (s : State) : (enterWorking s).trackSeq = s.trackSeq := by simp only [enterWorking]; (repeat' split) <;> simp
@[simp] theorem enterWorking_zone (s : State) : (enterWorking s).zone = s.zone := by simp only [enterWorking]; (repeat' split) <;> simp
@[simp] theorem enterWorking_store (s : State) : (enterWorking s).store = s.store := by simp only [enterWorking]; (repeat' split) <;> simp
@[simp] theorem enterWorking_prof (s : State) : (enterWorking s).prof = s.prof := by simp only [enterWorking]; (repeat' split) <;> simp
@[simp] theorem enterWorking_route (s : State) : (enterWorking s).route = s.route := by simp only [enterWorking]; (repeat' split) <;> simp


/-! ## Arrival -/

@[simp] theorem startPositioning_pending (s : State) : (startPositioning s).pending = s.pending := by simp [startPositioning]
@[simp] theorem startPositioning_service (s : State) : (startPositioning s).service = s.service := by simp [startPositioning]
@[simp] theorem startPositioning_cfg (s : State) : (startPositioning s).cfg = s.cfg := by simp [startPositioning]
@[simp] theorem startPositioning_pins (s : State) : (startPositioning s).pins = s.pins := by simp [startPositioning]
@[simp] theorem startPositioning_line (s : State) : (startPositioning s).line = s.line := by simp [startPositioning]
@[simp] theorem startPositioning_table (s : State) : (startPositioning s).table = s.table := by simp [startPositioning]
@[simp] theorem startPositioning_slot (s : State) : (startPositioning s).slot = s.slot := by simp [startPositioning]
@[simp] theorem startPositioning_trackSeq (s : State) : (startPositioning s).trackSeq = s.trackSeq := by simp [startPositioning]
@[simp] theorem startPositioning_store (s : State) : (startPositioning s).store = s.store := by simp [startPositioning]
@[simp] theorem startPositioning_reader (s : State) : (startPositioning s).reader = s.reader := by simp [startPositioning]
@[simp] theorem startPositioning_weigh (s : State) : (startPositioning s).weigh = s.weigh := by simp [startPositioning]
@[simp] theorem startPositioning_prof (s : State) : (startPositioning s).prof = s.prof := by simp [startPositioning]
@[simp] theorem startPositioning_eval (s : State) : (startPositioning s).eval = s.eval := by simp [startPositioning]
@[simp] theorem startPositioning_wrap (s : State) : (startPositioning s).wrap = s.wrap := by simp [startPositioning]
@[simp] theorem startPositioning_label (s : State) : (startPositioning s).label = s.label := by simp [startPositioning]
@[simp] theorem startPositioning_route (s : State) : (startPositioning s).route = s.route := by simp [startPositioning]
@[simp] theorem startPositioning_free (s : State) : (startPositioning s).free = s.free := by simp [startPositioning]

@[simp] theorem openEvaluation_pending (t : Track) (s : State) : (openEvaluation t s).pending = s.pending := by simp [openEvaluation]
@[simp] theorem openEvaluation_service (t : Track) (s : State) : (openEvaluation t s).service = s.service := by simp [openEvaluation]
@[simp] theorem openEvaluation_cfg (t : Track) (s : State) : (openEvaluation t s).cfg = s.cfg := by simp [openEvaluation]
@[simp] theorem openEvaluation_pins (t : Track) (s : State) : (openEvaluation t s).pins = s.pins := by simp [openEvaluation]
@[simp] theorem openEvaluation_line (t : Track) (s : State) : (openEvaluation t s).line = s.line := by simp [openEvaluation]
@[simp] theorem openEvaluation_table (t : Track) (s : State) : (openEvaluation t s).table = s.table := by simp [openEvaluation]
@[simp] theorem openEvaluation_slot (t : Track) (s : State) : (openEvaluation t s).slot = s.slot := by simp [openEvaluation]
@[simp] theorem openEvaluation_trackSeq (t : Track) (s : State) : (openEvaluation t s).trackSeq = s.trackSeq := by simp [openEvaluation]
@[simp] theorem openEvaluation_zone (t : Track) (s : State) : (openEvaluation t s).zone = s.zone := by simp [openEvaluation]
@[simp] theorem openEvaluation_store (t : Track) (s : State) : (openEvaluation t s).store = s.store := by simp [openEvaluation]
@[simp] theorem openEvaluation_reader (t : Track) (s : State) : (openEvaluation t s).reader = s.reader := by simp [openEvaluation]
@[simp] theorem openEvaluation_weigh (t : Track) (s : State) : (openEvaluation t s).weigh = s.weigh := by simp [openEvaluation]
@[simp] theorem openEvaluation_prof (t : Track) (s : State) : (openEvaluation t s).prof = s.prof := by simp [openEvaluation]
@[simp] theorem openEvaluation_wrap (t : Track) (s : State) : (openEvaluation t s).wrap = s.wrap := by simp [openEvaluation]
@[simp] theorem openEvaluation_label (t : Track) (s : State) : (openEvaluation t s).label = s.label := by simp [openEvaluation]
@[simp] theorem openEvaluation_route (t : Track) (s : State) : (openEvaluation t s).route = s.route := by simp [openEvaluation]
@[simp] theorem openEvaluation_free (t : Track) (s : State) : (openEvaluation t s).free = s.free := by simp [openEvaluation]

@[simp] theorem arriveAtCheck_pending (s : State) : (arriveAtCheck s).pending = s.pending := by simp [arriveAtCheck]
@[simp] theorem arriveAtCheck_service (s : State) : (arriveAtCheck s).service = s.service := by simp [arriveAtCheck]
@[simp] theorem arriveAtCheck_cfg (s : State) : (arriveAtCheck s).cfg = s.cfg := by simp [arriveAtCheck]
@[simp] theorem arriveAtCheck_pins (s : State) : (arriveAtCheck s).pins = s.pins := by simp [arriveAtCheck]
@[simp] theorem arriveAtCheck_slot (s : State) : (arriveAtCheck s).slot = s.slot := by simp [arriveAtCheck]
@[simp] theorem arriveAtCheck_zone (s : State) : (arriveAtCheck s).zone = s.zone := by simp [arriveAtCheck]
@[simp] theorem arriveAtCheck_store (s : State) : (arriveAtCheck s).store = s.store := by simp [arriveAtCheck]
@[simp] theorem arriveAtCheck_weigh (s : State) : (arriveAtCheck s).weigh = s.weigh := by simp [arriveAtCheck]
@[simp] theorem arriveAtCheck_wrap (s : State) : (arriveAtCheck s).wrap = s.wrap := by simp [arriveAtCheck]
@[simp] theorem arriveAtCheck_label (s : State) : (arriveAtCheck s).label = s.label := by simp [arriveAtCheck]
@[simp] theorem arriveAtCheck_route (s : State) : (arriveAtCheck s).route = s.route := by simp [arriveAtCheck]
@[simp] theorem arriveAtCheck_free (s : State) : (arriveAtCheck s).free = s.free := by simp [arriveAtCheck]

@[simp] theorem bindExpected_pending (s : State) : (bindExpected s).pending = s.pending := by simp [bindExpected]
@[simp] theorem bindExpected_service (s : State) : (bindExpected s).service = s.service := by simp [bindExpected]
@[simp] theorem bindExpected_cfg (s : State) : (bindExpected s).cfg = s.cfg := by simp [bindExpected]
@[simp] theorem bindExpected_pins (s : State) : (bindExpected s).pins = s.pins := by simp [bindExpected]
@[simp] theorem bindExpected_line (s : State) : (bindExpected s).line = s.line := by simp [bindExpected]
@[simp] theorem bindExpected_slot (s : State) : (bindExpected s).slot = s.slot := by simp [bindExpected]
@[simp] theorem bindExpected_trackSeq (s : State) : (bindExpected s).trackSeq = s.trackSeq := by simp [bindExpected]
@[simp] theorem bindExpected_zone (s : State) : (bindExpected s).zone = s.zone := by simp [bindExpected]
@[simp] theorem bindExpected_store (s : State) : (bindExpected s).store = s.store := by simp [bindExpected]
@[simp] theorem bindExpected_reader (s : State) : (bindExpected s).reader = s.reader := by simp [bindExpected]
@[simp] theorem bindExpected_weigh (s : State) : (bindExpected s).weigh = s.weigh := by simp [bindExpected]
@[simp] theorem bindExpected_prof (s : State) : (bindExpected s).prof = s.prof := by simp [bindExpected]
@[simp] theorem bindExpected_eval (s : State) : (bindExpected s).eval = s.eval := by simp [bindExpected]
@[simp] theorem bindExpected_wrap (s : State) : (bindExpected s).wrap = s.wrap := by simp [bindExpected]
@[simp] theorem bindExpected_label (s : State) : (bindExpected s).label = s.label := by simp [bindExpected]
@[simp] theorem bindExpected_route (s : State) : (bindExpected s).route = s.route := by simp [bindExpected]
@[simp] theorem bindExpected_free (s : State) : (bindExpected s).free = s.free := by simp [bindExpected]

@[simp] theorem arriveElsewhere_pending (s : State) : (arriveElsewhere s).pending = s.pending := by simp only [arriveElsewhere]; (repeat' split) <;> simp
@[simp] theorem arriveElsewhere_service (s : State) : (arriveElsewhere s).service = s.service := by simp only [arriveElsewhere]; (repeat' split) <;> simp
@[simp] theorem arriveElsewhere_cfg (s : State) : (arriveElsewhere s).cfg = s.cfg := by simp only [arriveElsewhere]; (repeat' split) <;> simp
@[simp] theorem arriveElsewhere_pins (s : State) : (arriveElsewhere s).pins = s.pins := by simp only [arriveElsewhere]; (repeat' split) <;> simp
@[simp] theorem arriveElsewhere_slot (s : State) : (arriveElsewhere s).slot = s.slot := by simp only [arriveElsewhere]; (repeat' split) <;> simp
@[simp] theorem arriveElsewhere_zone (s : State) : (arriveElsewhere s).zone = s.zone := by simp only [arriveElsewhere]; (repeat' split) <;> simp
@[simp] theorem arriveElsewhere_store (s : State) : (arriveElsewhere s).store = s.store := by simp only [arriveElsewhere]; (repeat' split) <;> simp
@[simp] theorem arriveElsewhere_reader (s : State) : (arriveElsewhere s).reader = s.reader := by simp only [arriveElsewhere]; (repeat' split) <;> simp
@[simp] theorem arriveElsewhere_weigh (s : State) : (arriveElsewhere s).weigh = s.weigh := by simp only [arriveElsewhere]; (repeat' split) <;> simp
@[simp] theorem arriveElsewhere_prof (s : State) : (arriveElsewhere s).prof = s.prof := by simp only [arriveElsewhere]; (repeat' split) <;> simp
@[simp] theorem arriveElsewhere_eval (s : State) : (arriveElsewhere s).eval = s.eval := by simp only [arriveElsewhere]; (repeat' split) <;> simp
@[simp] theorem arriveElsewhere_wrap (s : State) : (arriveElsewhere s).wrap = s.wrap := by simp only [arriveElsewhere]; (repeat' split) <;> simp
@[simp] theorem arriveElsewhere_label (s : State) : (arriveElsewhere s).label = s.label := by simp only [arriveElsewhere]; (repeat' split) <;> simp
@[simp] theorem arriveElsewhere_route (s : State) : (arriveElsewhere s).route = s.route := by simp only [arriveElsewhere]; (repeat' split) <;> simp
@[simp] theorem arriveElsewhere_free (s : State) : (arriveElsewhere s).free = s.free := by simp only [arriveElsewhere]; (repeat' split) <;> simp

@[simp] theorem arrive_pending (s : State) : (arrive s).pending = s.pending := by simp only [arrive]; (repeat' split) <;> simp
@[simp] theorem arrive_service (s : State) : (arrive s).service = s.service := by simp only [arrive]; (repeat' split) <;> simp
@[simp] theorem arrive_cfg (s : State) : (arrive s).cfg = s.cfg := by simp only [arrive]; (repeat' split) <;> simp
@[simp] theorem arrive_pins (s : State) : (arrive s).pins = s.pins := by simp only [arrive]; (repeat' split) <;> simp
@[simp] theorem arrive_slot (s : State) : (arrive s).slot = s.slot := by simp only [arrive]; (repeat' split) <;> simp
@[simp] theorem arrive_store (s : State) : (arrive s).store = s.store := by simp only [arrive]; (repeat' split) <;> simp
@[simp] theorem arrive_weigh (s : State) : (arrive s).weigh = s.weigh := by simp only [arrive]; (repeat' split) <;> simp
@[simp] theorem arrive_wrap (s : State) : (arrive s).wrap = s.wrap := by simp only [arrive]; (repeat' split) <;> simp
@[simp] theorem arrive_label (s : State) : (arrive s).label = s.label := by simp only [arrive]; (repeat' split) <;> simp
@[simp] theorem arrive_route (s : State) : (arrive s).route = s.route := by simp only [arrive]; (repeat' split) <;> simp
@[simp] theorem arrive_free (s : State) : (arrive s).free = s.free := by simp only [arrive]; (repeat' split) <;> simp


/-! ## Positioning, release, jam -/

@[simp] theorem positionComplete_pending (s : State) : (positionComplete s).pending = s.pending := by simp only [positionComplete]; (repeat' split) <;> simp
@[simp] theorem positionComplete_service (s : State) : (positionComplete s).service = s.service := by simp only [positionComplete]; (repeat' split) <;> simp
@[simp] theorem positionComplete_cfg (s : State) : (positionComplete s).cfg = s.cfg := by simp only [positionComplete]; (repeat' split) <;> simp
@[simp] theorem positionComplete_pins (s : State) : (positionComplete s).pins = s.pins := by simp only [positionComplete]; (repeat' split) <;> simp
@[simp] theorem positionComplete_line (s : State) : (positionComplete s).line = s.line := by simp only [positionComplete]; (repeat' split) <;> simp
@[simp] theorem positionComplete_slot (s : State) : (positionComplete s).slot = s.slot := by simp only [positionComplete]; (repeat' split) <;> simp
@[simp] theorem positionComplete_trackSeq (s : State) : (positionComplete s).trackSeq = s.trackSeq := by simp only [positionComplete]; (repeat' split) <;> simp
@[simp] theorem positionComplete_store (s : State) : (positionComplete s).store = s.store := by simp only [positionComplete]; (repeat' split) <;> simp
@[simp] theorem positionComplete_route (s : State) : (positionComplete s).route = s.route := by simp only [positionComplete]; (repeat' split) <;> simp

@[simp] theorem startReleasing_pending (s : State) : (startReleasing s).pending = s.pending := by simp [startReleasing]
@[simp] theorem startReleasing_service (s : State) : (startReleasing s).service = s.service := by simp [startReleasing]
@[simp] theorem startReleasing_cfg (s : State) : (startReleasing s).cfg = s.cfg := by simp [startReleasing]
@[simp] theorem startReleasing_pins (s : State) : (startReleasing s).pins = s.pins := by simp [startReleasing]
@[simp] theorem startReleasing_line (s : State) : (startReleasing s).line = s.line := by simp [startReleasing]
@[simp] theorem startReleasing_table (s : State) : (startReleasing s).table = s.table := by simp [startReleasing]
@[simp] theorem startReleasing_slot (s : State) : (startReleasing s).slot = s.slot := by simp [startReleasing]
@[simp] theorem startReleasing_trackSeq (s : State) : (startReleasing s).trackSeq = s.trackSeq := by simp [startReleasing]
@[simp] theorem startReleasing_store (s : State) : (startReleasing s).store = s.store := by simp [startReleasing]
@[simp] theorem startReleasing_reader (s : State) : (startReleasing s).reader = s.reader := by simp [startReleasing]
@[simp] theorem startReleasing_weigh (s : State) : (startReleasing s).weigh = s.weigh := by simp [startReleasing]
@[simp] theorem startReleasing_prof (s : State) : (startReleasing s).prof = s.prof := by simp [startReleasing]
@[simp] theorem startReleasing_eval (s : State) : (startReleasing s).eval = s.eval := by simp [startReleasing]
@[simp] theorem startReleasing_wrap (s : State) : (startReleasing s).wrap = s.wrap := by simp [startReleasing]
@[simp] theorem startReleasing_label (s : State) : (startReleasing s).label = s.label := by simp [startReleasing]
@[simp] theorem startReleasing_route (s : State) : (startReleasing s).route = s.route := by simp [startReleasing]
@[simp] theorem startReleasing_free (s : State) : (startReleasing s).free = s.free := by simp [startReleasing]

@[simp] theorem startRelease_pending (s : State) : (startRelease s).pending = s.pending := by simp [startRelease]
@[simp] theorem startRelease_service (s : State) : (startRelease s).service = s.service := by simp [startRelease]
@[simp] theorem startRelease_cfg (s : State) : (startRelease s).cfg = s.cfg := by simp [startRelease]
@[simp] theorem startRelease_pins (s : State) : (startRelease s).pins = s.pins := by simp [startRelease]
@[simp] theorem startRelease_slot (s : State) : (startRelease s).slot = s.slot := by simp [startRelease]
@[simp] theorem startRelease_trackSeq (s : State) : (startRelease s).trackSeq = s.trackSeq := by simp [startRelease]
@[simp] theorem startRelease_store (s : State) : (startRelease s).store = s.store := by simp [startRelease]
@[simp] theorem startRelease_reader (s : State) : (startRelease s).reader = s.reader := by simp [startRelease]
@[simp] theorem startRelease_weigh (s : State) : (startRelease s).weigh = s.weigh := by simp [startRelease]
@[simp] theorem startRelease_prof (s : State) : (startRelease s).prof = s.prof := by simp [startRelease]
@[simp] theorem startRelease_eval (s : State) : (startRelease s).eval = s.eval := by simp [startRelease]
@[simp] theorem startRelease_wrap (s : State) : (startRelease s).wrap = s.wrap := by simp [startRelease]
@[simp] theorem startRelease_label (s : State) : (startRelease s).label = s.label := by simp [startRelease]
@[simp] theorem startRelease_route (s : State) : (startRelease s).route = s.route := by simp [startRelease]
@[simp] theorem startRelease_free (s : State) : (startRelease s).free = s.free := by simp [startRelease]

@[simp] theorem leaveReleasing_pending (s : State) : (leaveReleasing s).pending = s.pending := by simp [leaveReleasing]
@[simp] theorem leaveReleasing_service (s : State) : (leaveReleasing s).service = s.service := by simp [leaveReleasing]
@[simp] theorem leaveReleasing_cfg (s : State) : (leaveReleasing s).cfg = s.cfg := by simp [leaveReleasing]
@[simp] theorem leaveReleasing_pins (s : State) : (leaveReleasing s).pins = s.pins := by simp [leaveReleasing]
@[simp] theorem leaveReleasing_line (s : State) : (leaveReleasing s).line = s.line := by simp [leaveReleasing]
@[simp] theorem leaveReleasing_table (s : State) : (leaveReleasing s).table = s.table := by simp [leaveReleasing]
@[simp] theorem leaveReleasing_slot (s : State) : (leaveReleasing s).slot = s.slot := by simp [leaveReleasing]
@[simp] theorem leaveReleasing_trackSeq (s : State) : (leaveReleasing s).trackSeq = s.trackSeq := by simp [leaveReleasing]
@[simp] theorem leaveReleasing_store (s : State) : (leaveReleasing s).store = s.store := by simp [leaveReleasing]
@[simp] theorem leaveReleasing_reader (s : State) : (leaveReleasing s).reader = s.reader := by simp [leaveReleasing]
@[simp] theorem leaveReleasing_weigh (s : State) : (leaveReleasing s).weigh = s.weigh := by simp [leaveReleasing]
@[simp] theorem leaveReleasing_prof (s : State) : (leaveReleasing s).prof = s.prof := by simp [leaveReleasing]
@[simp] theorem leaveReleasing_eval (s : State) : (leaveReleasing s).eval = s.eval := by simp [leaveReleasing]
@[simp] theorem leaveReleasing_wrap (s : State) : (leaveReleasing s).wrap = s.wrap := by simp [leaveReleasing]
@[simp] theorem leaveReleasing_label (s : State) : (leaveReleasing s).label = s.label := by simp [leaveReleasing]
@[simp] theorem leaveReleasing_route (s : State) : (leaveReleasing s).route = s.route := by simp [leaveReleasing]
@[simp] theorem leaveReleasing_free (s : State) : (leaveReleasing s).free = s.free := by simp [leaveReleasing]

@[simp] theorem moveOn_pending (e : Entry) (s : State) : (moveOn e s).pending = s.pending := by simp only [moveOn]; (repeat' split) <;> simp
@[simp] theorem moveOn_service (e : Entry) (s : State) : (moveOn e s).service = s.service := by simp only [moveOn]; (repeat' split) <;> simp
@[simp] theorem moveOn_cfg (e : Entry) (s : State) : (moveOn e s).cfg = s.cfg := by simp only [moveOn]; (repeat' split) <;> simp
@[simp] theorem moveOn_pins (e : Entry) (s : State) : (moveOn e s).pins = s.pins := by simp only [moveOn]; (repeat' split) <;> simp
@[simp] theorem moveOn_line (e : Entry) (s : State) : (moveOn e s).line = s.line := by simp only [moveOn]; (repeat' split) <;> simp
@[simp] theorem moveOn_slot (e : Entry) (s : State) : (moveOn e s).slot = s.slot := by simp only [moveOn]; (repeat' split) <;> simp
@[simp] theorem moveOn_trackSeq (e : Entry) (s : State) : (moveOn e s).trackSeq = s.trackSeq := by simp only [moveOn]; (repeat' split) <;> simp
@[simp] theorem moveOn_zone (e : Entry) (s : State) : (moveOn e s).zone = s.zone := by simp only [moveOn]; (repeat' split) <;> simp
@[simp] theorem moveOn_store (e : Entry) (s : State) : (moveOn e s).store = s.store := by simp only [moveOn]; (repeat' split) <;> simp
@[simp] theorem moveOn_reader (e : Entry) (s : State) : (moveOn e s).reader = s.reader := by simp only [moveOn]; (repeat' split) <;> simp
@[simp] theorem moveOn_weigh (e : Entry) (s : State) : (moveOn e s).weigh = s.weigh := by simp only [moveOn]; (repeat' split) <;> simp
@[simp] theorem moveOn_prof (e : Entry) (s : State) : (moveOn e s).prof = s.prof := by simp only [moveOn]; (repeat' split) <;> simp
@[simp] theorem moveOn_eval (e : Entry) (s : State) : (moveOn e s).eval = s.eval := by simp only [moveOn]; (repeat' split) <;> simp
@[simp] theorem moveOn_wrap (e : Entry) (s : State) : (moveOn e s).wrap = s.wrap := by simp only [moveOn]; (repeat' split) <;> simp
@[simp] theorem moveOn_label (e : Entry) (s : State) : (moveOn e s).label = s.label := by simp only [moveOn]; (repeat' split) <;> simp
@[simp] theorem moveOn_route (e : Entry) (s : State) : (moveOn e s).route = s.route := by simp only [moveOn]; (repeat' split) <;> simp
@[simp] theorem moveOn_free (e : Entry) (s : State) : (moveOn e s).free = s.free := by simp only [moveOn]; (repeat' split) <;> simp

@[simp] theorem completeRelease_pending (s : State) : (completeRelease s).pending = s.pending := by simp only [completeRelease]; (repeat' split) <;> simp
@[simp] theorem completeRelease_service (s : State) : (completeRelease s).service = s.service := by simp only [completeRelease]; (repeat' split) <;> simp
@[simp] theorem completeRelease_cfg (s : State) : (completeRelease s).cfg = s.cfg := by simp only [completeRelease]; (repeat' split) <;> simp
@[simp] theorem completeRelease_pins (s : State) : (completeRelease s).pins = s.pins := by simp only [completeRelease]; (repeat' split) <;> simp
@[simp] theorem completeRelease_slot (s : State) : (completeRelease s).slot = s.slot := by simp only [completeRelease]; (repeat' split) <;> simp
@[simp] theorem completeRelease_trackSeq (s : State) : (completeRelease s).trackSeq = s.trackSeq := by simp only [completeRelease]; (repeat' split) <;> simp
@[simp] theorem completeRelease_store (s : State) : (completeRelease s).store = s.store := by simp only [completeRelease]; (repeat' split) <;> simp
@[simp] theorem completeRelease_reader (s : State) : (completeRelease s).reader = s.reader := by simp only [completeRelease]; (repeat' split) <;> simp
@[simp] theorem completeRelease_weigh (s : State) : (completeRelease s).weigh = s.weigh := by simp only [completeRelease]; (repeat' split) <;> simp
@[simp] theorem completeRelease_prof (s : State) : (completeRelease s).prof = s.prof := by simp only [completeRelease]; (repeat' split) <;> simp
@[simp] theorem completeRelease_eval (s : State) : (completeRelease s).eval = s.eval := by simp only [completeRelease]; (repeat' split) <;> simp
@[simp] theorem completeRelease_wrap (s : State) : (completeRelease s).wrap = s.wrap := by simp only [completeRelease]; (repeat' split) <;> simp
@[simp] theorem completeRelease_label (s : State) : (completeRelease s).label = s.label := by simp only [completeRelease]; (repeat' split) <;> simp
@[simp] theorem completeRelease_route (s : State) : (completeRelease s).route = s.route := by simp only [completeRelease]; (repeat' split) <;> simp
@[simp] theorem completeRelease_free (s : State) : (completeRelease s).free = s.free := by simp only [completeRelease]; (repeat' split) <;> simp

@[simp] theorem completeDelivery_pending (s : State) : (completeDelivery s).pending = s.pending := by simp only [completeDelivery]; (repeat' split) <;> simp
@[simp] theorem completeDelivery_service (s : State) : (completeDelivery s).service = s.service := by simp only [completeDelivery]; (repeat' split) <;> simp
@[simp] theorem completeDelivery_cfg (s : State) : (completeDelivery s).cfg = s.cfg := by simp only [completeDelivery]; (repeat' split) <;> simp
@[simp] theorem completeDelivery_pins (s : State) : (completeDelivery s).pins = s.pins := by simp only [completeDelivery]; (repeat' split) <;> simp
@[simp] theorem completeDelivery_slot (s : State) : (completeDelivery s).slot = s.slot := by simp only [completeDelivery]; (repeat' split) <;> simp
@[simp] theorem completeDelivery_trackSeq (s : State) : (completeDelivery s).trackSeq = s.trackSeq := by simp only [completeDelivery]; (repeat' split) <;> simp
@[simp] theorem completeDelivery_store (s : State) : (completeDelivery s).store = s.store := by simp only [completeDelivery]; (repeat' split) <;> simp
@[simp] theorem completeDelivery_reader (s : State) : (completeDelivery s).reader = s.reader := by simp only [completeDelivery]; (repeat' split) <;> simp
@[simp] theorem completeDelivery_weigh (s : State) : (completeDelivery s).weigh = s.weigh := by simp only [completeDelivery]; (repeat' split) <;> simp
@[simp] theorem completeDelivery_prof (s : State) : (completeDelivery s).prof = s.prof := by simp only [completeDelivery]; (repeat' split) <;> simp
@[simp] theorem completeDelivery_eval (s : State) : (completeDelivery s).eval = s.eval := by simp only [completeDelivery]; (repeat' split) <;> simp
@[simp] theorem completeDelivery_wrap (s : State) : (completeDelivery s).wrap = s.wrap := by simp only [completeDelivery]; (repeat' split) <;> simp
@[simp] theorem completeDelivery_label (s : State) : (completeDelivery s).label = s.label := by simp only [completeDelivery]; (repeat' split) <;> simp
@[simp] theorem completeDelivery_free (s : State) : (completeDelivery s).free = s.free := by simp only [completeDelivery]; (repeat' split) <;> simp

@[simp] theorem jam_pending (c : JamCause) (s : State) : (jam c s).pending = s.pending := by simp [jam]
@[simp] theorem jam_service (c : JamCause) (s : State) : (jam c s).service = s.service := by simp [jam]
@[simp] theorem jam_cfg (c : JamCause) (s : State) : (jam c s).cfg = s.cfg := by simp [jam]
@[simp] theorem jam_pins (c : JamCause) (s : State) : (jam c s).pins = s.pins := by simp [jam]
@[simp] theorem jam_table (c : JamCause) (s : State) : (jam c s).table = s.table := by simp [jam]
@[simp] theorem jam_slot (c : JamCause) (s : State) : (jam c s).slot = s.slot := by simp [jam]
@[simp] theorem jam_trackSeq (c : JamCause) (s : State) : (jam c s).trackSeq = s.trackSeq := by simp [jam]
@[simp] theorem jam_store (c : JamCause) (s : State) : (jam c s).store = s.store := by simp [jam]
@[simp] theorem jam_reader (c : JamCause) (s : State) : (jam c s).reader = s.reader := by simp [jam]
@[simp] theorem jam_weigh (c : JamCause) (s : State) : (jam c s).weigh = s.weigh := by simp [jam]
@[simp] theorem jam_prof (c : JamCause) (s : State) : (jam c s).prof = s.prof := by simp [jam]
@[simp] theorem jam_eval (c : JamCause) (s : State) : (jam c s).eval = s.eval := by simp [jam]
@[simp] theorem jam_wrap (c : JamCause) (s : State) : (jam c s).wrap = s.wrap := by simp [jam]
@[simp] theorem jam_label (c : JamCause) (s : State) : (jam c s).label = s.label := by simp [jam]
@[simp] theorem jam_route (c : JamCause) (s : State) : (jam c s).route = s.route := by simp [jam]
@[simp] theorem jam_free (c : JamCause) (s : State) : (jam c s).free = s.free := by simp [jam]

@[simp] theorem returnToDone_pending (s : State) : (returnToDone s).pending = s.pending := by simp [returnToDone]
@[simp] theorem returnToDone_service (s : State) : (returnToDone s).service = s.service := by simp [returnToDone]
@[simp] theorem returnToDone_cfg (s : State) : (returnToDone s).cfg = s.cfg := by simp [returnToDone]
@[simp] theorem returnToDone_pins (s : State) : (returnToDone s).pins = s.pins := by simp [returnToDone]
@[simp] theorem returnToDone_line (s : State) : (returnToDone s).line = s.line := by simp [returnToDone]
@[simp] theorem returnToDone_slot (s : State) : (returnToDone s).slot = s.slot := by simp [returnToDone]
@[simp] theorem returnToDone_trackSeq (s : State) : (returnToDone s).trackSeq = s.trackSeq := by simp [returnToDone]
@[simp] theorem returnToDone_zone (s : State) : (returnToDone s).zone = s.zone := by simp [returnToDone]
@[simp] theorem returnToDone_store (s : State) : (returnToDone s).store = s.store := by simp [returnToDone]
@[simp] theorem returnToDone_reader (s : State) : (returnToDone s).reader = s.reader := by simp [returnToDone]
@[simp] theorem returnToDone_weigh (s : State) : (returnToDone s).weigh = s.weigh := by simp [returnToDone]
@[simp] theorem returnToDone_prof (s : State) : (returnToDone s).prof = s.prof := by simp [returnToDone]
@[simp] theorem returnToDone_eval (s : State) : (returnToDone s).eval = s.eval := by simp [returnToDone]
@[simp] theorem returnToDone_wrap (s : State) : (returnToDone s).wrap = s.wrap := by simp [returnToDone]
@[simp] theorem returnToDone_label (s : State) : (returnToDone s).label = s.label := by simp [returnToDone]
@[simp] theorem returnToDone_route (s : State) : (returnToDone s).route = s.route := by simp [returnToDone]
@[simp] theorem returnToDone_free (s : State) : (returnToDone s).free = s.free := by simp [returnToDone]

@[simp] theorem deriveFromEyes_pending (s : State) : (deriveFromEyes s).pending = s.pending := by simp only [deriveFromEyes]; (repeat' split) <;> simp
@[simp] theorem deriveFromEyes_service (s : State) : (deriveFromEyes s).service = s.service := by simp only [deriveFromEyes]; (repeat' split) <;> simp
@[simp] theorem deriveFromEyes_cfg (s : State) : (deriveFromEyes s).cfg = s.cfg := by simp only [deriveFromEyes]; (repeat' split) <;> simp
@[simp] theorem deriveFromEyes_pins (s : State) : (deriveFromEyes s).pins = s.pins := by simp only [deriveFromEyes]; (repeat' split) <;> simp
@[simp] theorem deriveFromEyes_line (s : State) : (deriveFromEyes s).line = s.line := by simp only [deriveFromEyes]; (repeat' split) <;> simp
@[simp] theorem deriveFromEyes_slot (s : State) : (deriveFromEyes s).slot = s.slot := by simp only [deriveFromEyes]; (repeat' split) <;> simp
@[simp] theorem deriveFromEyes_store (s : State) : (deriveFromEyes s).store = s.store := by simp only [deriveFromEyes]; (repeat' split) <;> simp
@[simp] theorem deriveFromEyes_reader (s : State) : (deriveFromEyes s).reader = s.reader := by simp only [deriveFromEyes]; (repeat' split) <;> simp
@[simp] theorem deriveFromEyes_weigh (s : State) : (deriveFromEyes s).weigh = s.weigh := by simp only [deriveFromEyes]; (repeat' split) <;> simp
@[simp] theorem deriveFromEyes_prof (s : State) : (deriveFromEyes s).prof = s.prof := by simp only [deriveFromEyes]; (repeat' split) <;> simp
@[simp] theorem deriveFromEyes_eval (s : State) : (deriveFromEyes s).eval = s.eval := by simp only [deriveFromEyes]; (repeat' split) <;> simp
@[simp] theorem deriveFromEyes_wrap (s : State) : (deriveFromEyes s).wrap = s.wrap := by simp only [deriveFromEyes]; (repeat' split) <;> simp
@[simp] theorem deriveFromEyes_label (s : State) : (deriveFromEyes s).label = s.label := by simp only [deriveFromEyes]; (repeat' split) <;> simp
@[simp] theorem deriveFromEyes_route (s : State) : (deriveFromEyes s).route = s.route := by simp only [deriveFromEyes]; (repeat' split) <;> simp
@[simp] theorem deriveFromEyes_free (s : State) : (deriveFromEyes s).free = s.free := by simp only [deriveFromEyes]; (repeat' split) <;> simp

@[simp] theorem jam_zone (c : JamCause) (s : State) : (jam c s).zone =
    { s.zone with zstate := .jammed, exitSeen := false, jam := true, positionTimer := none, releaseTimer := none } := by
  simp [jam]

/-! ## Start -/

@[simp] theorem payOwedFault_pending (s : State) : (payOwedFault s).pending = s.pending := by simp only [payOwedFault]; (repeat' split) <;> simp
@[simp] theorem payOwedFault_service (s : State) : (payOwedFault s).service = s.service := by simp only [payOwedFault]; (repeat' split) <;> simp
@[simp] theorem payOwedFault_cfg (s : State) : (payOwedFault s).cfg = s.cfg := by simp only [payOwedFault]; (repeat' split) <;> simp
@[simp] theorem payOwedFault_pins (s : State) : (payOwedFault s).pins = s.pins := by simp only [payOwedFault]; (repeat' split) <;> simp
@[simp] theorem payOwedFault_table (s : State) : (payOwedFault s).table = s.table := by simp only [payOwedFault]; (repeat' split) <;> simp
@[simp] theorem payOwedFault_slot (s : State) : (payOwedFault s).slot = s.slot := by simp only [payOwedFault]; (repeat' split) <;> simp
@[simp] theorem payOwedFault_trackSeq (s : State) : (payOwedFault s).trackSeq = s.trackSeq := by simp only [payOwedFault]; (repeat' split) <;> simp
@[simp] theorem payOwedFault_zone (s : State) : (payOwedFault s).zone = s.zone := by simp only [payOwedFault]; (repeat' split) <;> simp
@[simp] theorem payOwedFault_store (s : State) : (payOwedFault s).store = s.store := by simp only [payOwedFault]; (repeat' split) <;> simp
@[simp] theorem payOwedFault_reader (s : State) : (payOwedFault s).reader = s.reader := by simp only [payOwedFault]; (repeat' split) <;> simp
@[simp] theorem payOwedFault_prof (s : State) : (payOwedFault s).prof = s.prof := by simp only [payOwedFault]; (repeat' split) <;> simp
@[simp] theorem payOwedFault_eval (s : State) : (payOwedFault s).eval = s.eval := by simp only [payOwedFault]; (repeat' split) <;> simp
@[simp] theorem payOwedFault_wrap (s : State) : (payOwedFault s).wrap = s.wrap := by simp only [payOwedFault]; (repeat' split) <;> simp
@[simp] theorem payOwedFault_label (s : State) : (payOwedFault s).label = s.label := by simp only [payOwedFault]; (repeat' split) <;> simp
@[simp] theorem payOwedFault_route (s : State) : (payOwedFault s).route = s.route := by simp only [payOwedFault]; (repeat' split) <;> simp
@[simp] theorem payOwedFault_free (s : State) : (payOwedFault s).free = s.free := by simp only [payOwedFault]; (repeat' split) <;> simp

@[simp] theorem reportFilm_pending (s : State) : (reportFilm s).pending = s.pending := by simp only [reportFilm]; (repeat' split) <;> simp
@[simp] theorem reportFilm_service (s : State) : (reportFilm s).service = s.service := by simp only [reportFilm]; (repeat' split) <;> simp
@[simp] theorem reportFilm_cfg (s : State) : (reportFilm s).cfg = s.cfg := by simp only [reportFilm]; (repeat' split) <;> simp
@[simp] theorem reportFilm_pins (s : State) : (reportFilm s).pins = s.pins := by simp only [reportFilm]; (repeat' split) <;> simp
@[simp] theorem reportFilm_table (s : State) : (reportFilm s).table = s.table := by simp only [reportFilm]; (repeat' split) <;> simp
@[simp] theorem reportFilm_slot (s : State) : (reportFilm s).slot = s.slot := by simp only [reportFilm]; (repeat' split) <;> simp
@[simp] theorem reportFilm_trackSeq (s : State) : (reportFilm s).trackSeq = s.trackSeq := by simp only [reportFilm]; (repeat' split) <;> simp
@[simp] theorem reportFilm_zone (s : State) : (reportFilm s).zone = s.zone := by simp only [reportFilm]; (repeat' split) <;> simp
@[simp] theorem reportFilm_store (s : State) : (reportFilm s).store = s.store := by simp only [reportFilm]; (repeat' split) <;> simp
@[simp] theorem reportFilm_reader (s : State) : (reportFilm s).reader = s.reader := by simp only [reportFilm]; (repeat' split) <;> simp
@[simp] theorem reportFilm_weigh (s : State) : (reportFilm s).weigh = s.weigh := by simp only [reportFilm]; (repeat' split) <;> simp
@[simp] theorem reportFilm_prof (s : State) : (reportFilm s).prof = s.prof := by simp only [reportFilm]; (repeat' split) <;> simp
@[simp] theorem reportFilm_eval (s : State) : (reportFilm s).eval = s.eval := by simp only [reportFilm]; (repeat' split) <;> simp
@[simp] theorem reportFilm_wrap (s : State) : (reportFilm s).wrap = s.wrap := by simp only [reportFilm]; (repeat' split) <;> simp
@[simp] theorem reportFilm_label (s : State) : (reportFilm s).label = s.label := by simp only [reportFilm]; (repeat' split) <;> simp
@[simp] theorem reportFilm_route (s : State) : (reportFilm s).route = s.route := by simp only [reportFilm]; (repeat' split) <;> simp
@[simp] theorem reportFilm_free (s : State) : (reportFilm s).free = s.free := by simp only [reportFilm]; (repeat' split) <;> simp

@[simp] theorem addOwnHold_pending (s : State) : (addOwnHold s).pending = s.pending := by simp [addOwnHold]
@[simp] theorem addOwnHold_service (s : State) : (addOwnHold s).service = s.service := by simp [addOwnHold]
@[simp] theorem addOwnHold_cfg (s : State) : (addOwnHold s).cfg = s.cfg := by simp [addOwnHold]
@[simp] theorem addOwnHold_pins (s : State) : (addOwnHold s).pins = s.pins := by simp [addOwnHold]
@[simp] theorem addOwnHold_line (s : State) : (addOwnHold s).line = s.line := by simp [addOwnHold]
@[simp] theorem addOwnHold_table (s : State) : (addOwnHold s).table = s.table := by simp [addOwnHold]
@[simp] theorem addOwnHold_slot (s : State) : (addOwnHold s).slot = s.slot := by simp [addOwnHold]
@[simp] theorem addOwnHold_trackSeq (s : State) : (addOwnHold s).trackSeq = s.trackSeq := by simp [addOwnHold]
@[simp] theorem addOwnHold_store (s : State) : (addOwnHold s).store = s.store := by simp [addOwnHold]
@[simp] theorem addOwnHold_reader (s : State) : (addOwnHold s).reader = s.reader := by simp [addOwnHold]
@[simp] theorem addOwnHold_weigh (s : State) : (addOwnHold s).weigh = s.weigh := by simp [addOwnHold]
@[simp] theorem addOwnHold_prof (s : State) : (addOwnHold s).prof = s.prof := by simp [addOwnHold]
@[simp] theorem addOwnHold_eval (s : State) : (addOwnHold s).eval = s.eval := by simp [addOwnHold]
@[simp] theorem addOwnHold_wrap (s : State) : (addOwnHold s).wrap = s.wrap := by simp [addOwnHold]
@[simp] theorem addOwnHold_label (s : State) : (addOwnHold s).label = s.label := by simp [addOwnHold]
@[simp] theorem addOwnHold_route (s : State) : (addOwnHold s).route = s.route := by simp [addOwnHold]
@[simp] theorem addOwnHold_free (s : State) : (addOwnHold s).free = s.free := by simp [addOwnHold]

@[simp] theorem enterInService_pending (s : State) : (enterInService s).pending = s.pending := by simp [enterInService]
@[simp] theorem enterInService_cfg (s : State) : (enterInService s).cfg = s.cfg := by simp [enterInService]
@[simp] theorem enterInService_pins (s : State) : (enterInService s).pins = s.pins := by simp [enterInService]
@[simp] theorem enterInService_table (s : State) : (enterInService s).table = s.table := by simp [enterInService]
@[simp] theorem enterInService_slot (s : State) : (enterInService s).slot = s.slot := by simp [enterInService]
@[simp] theorem enterInService_trackSeq (s : State) : (enterInService s).trackSeq = s.trackSeq := by simp [enterInService]
@[simp] theorem enterInService_reader (s : State) : (enterInService s).reader = s.reader := by simp [enterInService]
@[simp] theorem enterInService_prof (s : State) : (enterInService s).prof = s.prof := by simp [enterInService]
@[simp] theorem enterInService_eval (s : State) : (enterInService s).eval = s.eval := by simp [enterInService]
@[simp] theorem enterInService_wrap (s : State) : (enterInService s).wrap = s.wrap := by simp [enterInService]
@[simp] theorem enterInService_label (s : State) : (enterInService s).label = s.label := by simp [enterInService]
@[simp] theorem enterInService_route (s : State) : (enterInService s).route = s.route := by simp [enterInService]
@[simp] theorem enterInService_free (s : State) : (enterInService s).free = s.free := by simp [enterInService]

@[simp] theorem endStartTask_pending (s : State) : (endStartTask s).pending = s.pending := by simp only [endStartTask]; (repeat' split) <;> simp
@[simp] theorem endStartTask_cfg (s : State) : (endStartTask s).cfg = s.cfg := by simp only [endStartTask]; (repeat' split) <;> simp
@[simp] theorem endStartTask_pins (s : State) : (endStartTask s).pins = s.pins := by simp only [endStartTask]; (repeat' split) <;> simp
@[simp] theorem endStartTask_table (s : State) : (endStartTask s).table = s.table := by simp only [endStartTask]; (repeat' split) <;> simp
@[simp] theorem endStartTask_slot (s : State) : (endStartTask s).slot = s.slot := by simp only [endStartTask]; (repeat' split) <;> simp
@[simp] theorem endStartTask_trackSeq (s : State) : (endStartTask s).trackSeq = s.trackSeq := by simp only [endStartTask]; (repeat' split) <;> simp
@[simp] theorem endStartTask_reader (s : State) : (endStartTask s).reader = s.reader := by simp only [endStartTask]; (repeat' split) <;> simp
@[simp] theorem endStartTask_prof (s : State) : (endStartTask s).prof = s.prof := by simp only [endStartTask]; (repeat' split) <;> simp
@[simp] theorem endStartTask_eval (s : State) : (endStartTask s).eval = s.eval := by simp only [endStartTask]; (repeat' split) <;> simp
@[simp] theorem endStartTask_wrap (s : State) : (endStartTask s).wrap = s.wrap := by simp only [endStartTask]; (repeat' split) <;> simp
@[simp] theorem endStartTask_label (s : State) : (endStartTask s).label = s.label := by simp only [endStartTask]; (repeat' split) <;> simp
@[simp] theorem endStartTask_route (s : State) : (endStartTask s).route = s.route := by simp only [endStartTask]; (repeat' split) <;> simp
@[simp] theorem endStartTask_free (s : State) : (endStartTask s).free = s.free := by simp only [endStartTask]; (repeat' split) <;> simp

/-- The level of WR_FILM is the one said, or stays, or is free for one that rose before the start task ended (R146, log 6). -/
theorem findFilm_cases (film : Option Bool) (s : State) :
    (∃ level, film = some level ∧ findFilm film s = s.setPins { s.pins with wrFilm := level }) ∨
    (film = none ∧ (s.service ≠ .starting ∨ s.pins.wrFilm = false) ∧ findFilm film s = s) ∨
    (film = none ∧ s.service = .starting ∧ s.pins.wrFilm = true ∧ findFilm film s =
      (s.setPins { s.pins with wrFilm := Config.filmStands s.free }).setFree (s.free + 1)) := by
  cases film with
  | some level => exact .inl ⟨level, rfl, rfl⟩
  | none =>
    by_cases h : s.service = .starting ∧ s.pins.wrFilm = true
    · exact .inr (.inr ⟨rfl, h.1, h.2, by simp [findFilm, spendFree, h.1, h.2]⟩)
    · refine .inr (.inl ⟨rfl, ?_, by simp_all [findFilm]⟩)
      cases hw : s.pins.wrFilm <;> simp_all

@[simp] theorem findFilm_pending (film : Option Bool) (s : State) : (findFilm film s).pending = s.pending := by simp only [findFilm]; (repeat' split) <;> simp
@[simp] theorem findFilm_service (film : Option Bool) (s : State) : (findFilm film s).service = s.service := by simp only [findFilm]; (repeat' split) <;> simp
@[simp] theorem findFilm_cfg (film : Option Bool) (s : State) : (findFilm film s).cfg = s.cfg := by simp only [findFilm]; (repeat' split) <;> simp
@[simp] theorem findFilm_line (film : Option Bool) (s : State) : (findFilm film s).line = s.line := by simp only [findFilm]; (repeat' split) <;> simp
@[simp] theorem findFilm_table (film : Option Bool) (s : State) : (findFilm film s).table = s.table := by simp only [findFilm]; (repeat' split) <;> simp
@[simp] theorem findFilm_slot (film : Option Bool) (s : State) : (findFilm film s).slot = s.slot := by simp only [findFilm]; (repeat' split) <;> simp
@[simp] theorem findFilm_trackSeq (film : Option Bool) (s : State) : (findFilm film s).trackSeq = s.trackSeq := by simp only [findFilm]; (repeat' split) <;> simp
@[simp] theorem findFilm_zone (film : Option Bool) (s : State) : (findFilm film s).zone = s.zone := by simp only [findFilm]; (repeat' split) <;> simp
@[simp] theorem findFilm_store (film : Option Bool) (s : State) : (findFilm film s).store = s.store := by simp only [findFilm]; (repeat' split) <;> simp
@[simp] theorem findFilm_reader (film : Option Bool) (s : State) : (findFilm film s).reader = s.reader := by simp only [findFilm]; (repeat' split) <;> simp
@[simp] theorem findFilm_weigh (film : Option Bool) (s : State) : (findFilm film s).weigh = s.weigh := by simp only [findFilm]; (repeat' split) <;> simp
@[simp] theorem findFilm_prof (film : Option Bool) (s : State) : (findFilm film s).prof = s.prof := by simp only [findFilm]; (repeat' split) <;> simp
@[simp] theorem findFilm_eval (film : Option Bool) (s : State) : (findFilm film s).eval = s.eval := by simp only [findFilm]; (repeat' split) <;> simp
@[simp] theorem findFilm_wrap (film : Option Bool) (s : State) : (findFilm film s).wrap = s.wrap := by simp only [findFilm]; (repeat' split) <;> simp
@[simp] theorem findFilm_label (film : Option Bool) (s : State) : (findFilm film s).label = s.label := by simp only [findFilm]; (repeat' split) <;> simp
@[simp] theorem findFilm_route (film : Option Bool) (s : State) : (findFilm film s).route = s.route := by simp only [findFilm]; (repeat' split) <;> simp

@[simp] theorem endWrapStart_pending (s : State) : (endWrapStart s).pending = s.pending := by simp only [endWrapStart]; (repeat' split) <;> simp
@[simp] theorem endWrapStart_cfg (s : State) : (endWrapStart s).cfg = s.cfg := by simp only [endWrapStart]; (repeat' split) <;> simp
@[simp] theorem endWrapStart_pins (s : State) : (endWrapStart s).pins = s.pins := by simp only [endWrapStart]; (repeat' split) <;> simp
@[simp] theorem endWrapStart_table (s : State) : (endWrapStart s).table = s.table := by simp only [endWrapStart]; (repeat' split) <;> simp
@[simp] theorem endWrapStart_slot (s : State) : (endWrapStart s).slot = s.slot := by simp only [endWrapStart]; (repeat' split) <;> simp
@[simp] theorem endWrapStart_trackSeq (s : State) : (endWrapStart s).trackSeq = s.trackSeq := by simp only [endWrapStart]; (repeat' split) <;> simp
@[simp] theorem endWrapStart_reader (s : State) : (endWrapStart s).reader = s.reader := by simp only [endWrapStart]; (repeat' split) <;> simp
@[simp] theorem endWrapStart_prof (s : State) : (endWrapStart s).prof = s.prof := by simp only [endWrapStart]; (repeat' split) <;> simp
@[simp] theorem endWrapStart_eval (s : State) : (endWrapStart s).eval = s.eval := by simp only [endWrapStart]; (repeat' split) <;> simp
@[simp] theorem endWrapStart_wrap (s : State) : (endWrapStart s).wrap = s.wrap := by simp only [endWrapStart]; (repeat' split) <;> simp
@[simp] theorem endWrapStart_label (s : State) : (endWrapStart s).label = s.label := by simp only [endWrapStart]; (repeat' split) <;> simp
@[simp] theorem endWrapStart_route (s : State) : (endWrapStart s).route = s.route := by simp only [endWrapStart]; (repeat' split) <;> simp
@[simp] theorem endWrapStart_free (s : State) : (endWrapStart s).free = s.free := by simp only [endWrapStart]; (repeat' split) <;> simp

@[simp] theorem endStartZero_pending (s : State) : (endStartZero s).pending = s.pending := by simp [endStartZero]
@[simp] theorem endStartZero_cfg (s : State) : (endStartZero s).cfg = s.cfg := by simp [endStartZero]
@[simp] theorem endStartZero_pins (s : State) : (endStartZero s).pins = s.pins := by simp [endStartZero]
@[simp] theorem endStartZero_table (s : State) : (endStartZero s).table = s.table := by simp [endStartZero]
@[simp] theorem endStartZero_slot (s : State) : (endStartZero s).slot = s.slot := by simp [endStartZero]
@[simp] theorem endStartZero_trackSeq (s : State) : (endStartZero s).trackSeq = s.trackSeq := by simp [endStartZero]
@[simp] theorem endStartZero_reader (s : State) : (endStartZero s).reader = s.reader := by simp [endStartZero]
@[simp] theorem endStartZero_prof (s : State) : (endStartZero s).prof = s.prof := by simp [endStartZero]
@[simp] theorem endStartZero_eval (s : State) : (endStartZero s).eval = s.eval := by simp [endStartZero]
@[simp] theorem endStartZero_wrap (s : State) : (endStartZero s).wrap = s.wrap := by simp [endStartZero]
@[simp] theorem endStartZero_label (s : State) : (endStartZero s).label = s.label := by simp [endStartZero]
@[simp] theorem endStartZero_route (s : State) : (endStartZero s).route = s.route := by simp [endStartZero]
@[simp] theorem endStartZero_free (s : State) : (endStartZero s).free = s.free := by simp [endStartZero]

@[simp] theorem enterInService_service (s : State) : (enterInService s).service = .inService := by simp [enterInService]

/-- The own entry of the hold set is what the own inputs give from the entry to IN_SERVICE on (R48, R61). -/
@[simp] theorem enterInService_zone (s : State) :
    (enterInService s).zone = { s.zone with holds := setHold s.cfg.node (ownHold s.pins) s.zone.holds } := by
  simp [enterInService, addOwnHold]

end Sys2Proof.Machine
end

