-- ==== Sys2Proof/Laws/Exec.lean ====
section
/-! SUPPORT. No command stops the part: every command, and so every step, answers a next state. -/

namespace Sys2Proof.Machine

/-- Every command has a next state (Chapters 2 to 11 give every event its effect). -/
theorem exec_next (c : Instr) (s : State) : ∃ t, exec c s = .next t := by
  cases c <;> exact ⟨_, rfl⟩

/-- Every step has a next state. -/
theorem step_next (s : State) : ∃ t, step s = .next t := by
  unfold step
  split
  · exact exec_next _ _
  · exact ⟨_, rfl⟩

/-- A step is a command from the front of the queue, or a tick (log 2). -/
theorem step_cases {s t : State} (h : step s = .next t) :
    (∃ c rest, s.pending = c :: rest ∧ exec c (s.setPending rest) = .next t) ∨ (s.pending = [] ∧ t = tick s) := by
  unfold step at h
  split at h
  · exact .inl ⟨_, _, ‹_›, h⟩
  · exact .inr ⟨‹_›, by cases h; rfl⟩

end Sys2Proof.Machine
end

