-- ==== Sys2Proof/WellFormed.lean ====
section
/-! DEFINITION. Which commands are well formed: the operands that the pins and lines can bring. A meaning never asks
for it (the spec's own tests decide what a strange operand does); it says what a sender can send. -/

namespace Sys2Proof

/-- The carriage return that ends a line, and so never stands inside one (12.2). -/
def carriageReturn : Byte := 0x0D

/-- A completed line holds no CR of its own. -/
def lineOk (line : List RxChar) : Bool := !line.contains (some carriageReturn)

/-- A command is well formed when its operands are ones the hardware can bring: an image of at most 1024 bytes
(11.2), a heard frame of at most 3 header bytes, 255 payload bytes and 2 CRC bytes (12.1, the length is one byte), a
track with origin 1..24 and sequence 1..2047 (1.2), a line without a CR (12.2). -/
def Instr.wellFormed : Instr → Bool
  | .imageReadComplete image => image.length ≤ 1024
  | .frameReceived bytes => bytes.length ≤ 260
  | .takenTimerExpiry t => 1 ≤ t.origin && t.origin ≤ 24 && 1 ≤ t.seq && t.seq ≤ 2047
  | .codeReaderLine chars => lineOk chars
  | .pdReceived line => lineOk line
  | .apReceived line => lineOk line
  | .msReceived line => lineOk line
  | .ftReceived line => lineOk line
  | .ryReceived line => lineOk line
  | .reset => true
  | .resetRelease => true
  | .holdReceived => true
  | .resumeReceived => true
  | .clearReceived => true
  | .offerReceived => true
  | .acceptReceived => true
  | .releasedReceived => true
  | .takenReceived => true
  | .lostReceived => true
  | .manifestReceived => true
  | .helloReceived => true
  | .queryReceived => true
  | .lineIdle => true
  | .attemptCountedSent => true
  | .lostArbitration => true
  | .attemptErrored => true
  | .entryEyeBlocks => true
  | .entryEyeClears => true
  | .positionEyeBlocks => true
  | .positionEyeClears => true
  | .exitEyeBlocks => true
  | .exitEyeClears => true
  | .safeAsserted => true
  | .safeReleased => true
  | .holdSwChange _ => true
  | .ackPress => true
  | .offerRepeatExpiry => true
  | .arrivalTimerExpiry => true
  | .positionTimerExpiry => true
  | .releaseTimerExpiry => true
  | .tagWaitExpiry => true
  | .manifestWaitExpiry => true
  | .scanStart => true
  | .scanComplete _ => true
  | .startZeroTimerExpiry => true
  | .zeroDueExpiry => true
  | .settleTimerExpiry => true
  | .encoderStep _ => true
  | .wrReadyRises => true
  | .wrReadyFalls => true
  | .wrRunRises => true
  | .wrDoneRises => true
  | .wrFaultRises => true
  | .wrFaultFalls => true
  | .wrFilmRises => true
  | .startTimerExpiry => true
  | .wrapTimerExpiry => true
  | .wrAbortPulseEnd _ => true
  | .historyEntryLeavesWindow => true
  | .printTimerExpiry => true
  | .applyTimerExpiry => true
  | .verifyTimerExpiry => true
  | .abortWaitExpiry => true
  | .laneInputChange _ _ => true
  | .laneWaitExpiry => true

end Sys2Proof
end

