-- ==== Sys2Proof/Tests/Slice0.lean ====
section
/-! SUPPORT. The model's own tests: the checks of well-formed commands; the spec's worked figures (expected values are the
spec's or hand sums from its rules); one step on small states; and, for every statement with hypotheses, a concrete state
and operands that meet them, clause by clause at the edges of their ranges. -/

namespace Sys2Proof.Tests

-- One proof at a time: a hundred kernel evaluations at once would each take a thread's stack.
set_option Elab.async false

open Sys2Proof.Machine

/-! ## Small states -/

def checkCfg : CheckCfg :=
  { tagWait := 300, manifestWait := 300, scanPeriod := 10, windowSize := 3, settleBand := 20, settleTimeout := 400
    zeroInterval := 6000, zeroRange := 1000, startRange := 5000, deadLoad := 38600, capacity := 200000
    conversions := [{ input := .lc1, gain := 32768, offset := 0, low := -1000, high := 30000 }]
    nominalLength := 1200, overhangAllowance := 40, maxPassSteps := 400, gapAllowance := 1, voidLimit := 6
    baseHeight := 150, heightAllowance := 75, fixedAllowance := 300, perMille := 5, caseAllowance := 15
    trayAllowance := 10, kegAllowance := 80 }

/-- The recipe table of the example in Chapter 8. -/
def wrapCfg : WrapCfg :=
  { startTimeout := 300, wrapTimeout := 18000, defaultIndex := 8
    recipes := [
      { code := 1, hasCase := false, hasTray := false, hasKeg := true, heightMin := 600, heightMax := 2075
        massMin := 0, massMax := 250000 },
      { code := 5, hasCase := true, hasTray := true, hasKeg := false, heightMin := 1201, heightMax := 1800
        massMin := 0, massMax := 120000 },
      { code := 12, hasCase := false, hasTray := false, hasKeg := false, heightMin := 0, heightMax := 0
        massMin := 0, massMax := 0 }] }

def labelCfg : LabelCfg :=
  { attempts := 3, printTimeout := 500, applyTimeout := 300, verifyWait := 400, printWindow := 2000, site := [3, 7]
    siteText := [], gather := [{ row := 1, source := .serial }, { row := 12, source := .labelSeq }] }

def dispatchCfg : DispatchCfg :=
  { laneWait := 6000, duty1 := .dutyPaid, letter1 := .a, duty2 := .inBond, letter2 := .a }

/-- Node 4 between 3 and 5, in a role. -/
def cfg (r : Role) : Loaded :=
  { node := 4, role := some r, up := some (if r = .check then 0 else 3), down := some (if r = .dispatch then 0 else 5)
    timing := { offerRepeat := 50, release := 800, transit := 600, position := 600 }
    check := checkCfg, wrap := wrapCfg, label := labelCfg, dispatch := dispatchCfg }

/-- A station of a role in IN_SERVICE, its zone EMPTY, its table and queues empty; a CHECK station has an established zero. -/
def station (r : Role) : State :=
  let s := (State.reset.setService .inService).setCfg (cfg r)
  s.setWeigh { s.weigh with established := true, z := 38650, z0 := 38600 }

def serial : Digits := [4, 1, 0, 2, 5, 5, 9, 8, 1, 3]

/-- The dispatch code of that serial at site 37 (Chapter 9). -/
def code : Digits := [3, 7, 4, 1, 0, 2, 5, 5, 9, 8, 1, 3, 8]

/-- The goods of the manifest example in Chapter 7: 48 cases of 14.80 kg in 4 layers of 260 mm, 30 trays of 10.20 kg in 2
of 140 mm. -/
def goods : List GoodsLine :=
  [{ article := [4, 1, 0, 2, 3, 3], unitClass := .caseUnit, count := 48, mass := 1480, layers := 4, layerHeight := 260 },
   { article := [4, 1, 0, 8, 7, 1], unitClass := .tray, count := 30, mass := 1020, layers := 2, layerHeight := 140 }]

def manifest : Manifest :=
  { serial := serial, order := some [2, 0, 4, 1, 7, 7, 3, 6], duty := .dutyPaid, laneClass := .a, tare := 2500, lines := goods }

/-- The pallet 1,201 fresh from the infeed. -/
def fresh : TravelRecord := freshRecord { origin := 1, seq := 201 } false

/-- The pallet 1,201 with its manifest. -/
def bound : TravelRecord := writeManifest manifest (writeSerial serial fresh)

/-- The pallet 1,201 as a passed, wrapped and labelled record. -/
def passed : TravelRecord :=
  { bound with gross := some 102595, height := some 1475, length := some 1215, deviation := some (-1545)
               check := some .pass, wrap := some (.wrapped 5), label := some (.labelled 1 code), hops := 14 }

def entry (st : RecordState) (r : TravelRecord) : Entry := { record := r, state := st, takenHeard := false, timer := none }

def withTable (t : List Entry) (s : State) : State := s.setTable t

def withZone (z : ZoneState) (s : State) : State := s.setZone { s.zone with zstate := z }

def withPos (s : State) : State := s.setPins { s.pins with eyePos := true }

/-- A frame at the head of the receive queue. -/
def heard (f : RxFrame) (s : State) : State := s.setLine { s.line with rx := [f] }

/-- A zone record in a zone state. -/
def holding (z : ZoneState) (st : RecordState) (r : TravelRecord) (s : State) : State :=
  withZone z (withTable [entry st r] s)

/-- A record of another track. -/
def other (n : Nat) : TravelRecord := freshRecord { origin := 2, seq := n } false

/-- Six OUTBOUND entries: a full table. -/
def fullTable : List Entry := (List.range 6).map (fun n => entry .outbound (other (n + 1)))

/-- The state after a command, or the state itself if there is none. -/
def after (c : Instr) (s : State) : State :=
  match exec c s with
  | .next t => t
  | .fault _ => s
  | .refused _ => s

/-- Digits as a reader sends them. -/
def asciiLine (ds : Digits) : List RxChar := ds.map (fun (d : Digit) => some (digitByte d.val))

/-- An image of a role from the bytes after its checksummed head: the words of its body and the balancing checksum. -/
def word (n : Nat) : List Byte := beBytes 2 n

def image (len role up down : Nat) (body : List Byte) : List Byte :=
  let b := word 0x5A17 ++ word len ++ [4, BitVec.ofNat 8 role, BitVec.ofNat 8 up, BitVec.ofNat 8 down] ++ word 50 ++
    word 800 ++ word 600 ++ word 600 ++ body
  b ++ word ((65536 - ((List.range (b.length / 2)).map (fun k => imageWord b (2 * k))).sum % 65536) % 65536)

def plainImage : List Byte := image 18 2 3 5 []

def dispatchImage : List Byte := image 24 5 3 0 (word 6000 ++ [2, 1, 1, 1])

def labelImage : List Byte :=
  image 76 4 3 5 ([3] ++ word 500 ++ word 300 ++ word 400 ++ word 2000 ++ [0x37] ++ List.replicate 24 0 ++
    [1, 2, 2, 1] ++ List.replicate 20 0)

def recipeBytes (c cls h1 h2 m1 m2 : Nat) : List Byte :=
  [BitVec.ofNat 8 c, BitVec.ofNat 8 cls] ++ word h1 ++ word h2 ++ beBytes 4 m1 ++ beBytes 4 m2

def wrapImage : List Byte :=
  image 136 3 3 5 (word 300 ++ word 18000 ++ [8] ++ recipeBytes 1 4 600 2075 0 250000 ++
    recipeBytes 5 3 1201 1800 0 120000 ++ (List.replicate 5 (recipeBytes 2 0 0 0 0 0)).flatten ++ recipeBytes 12 0 0 0 0 0 ++
    [0])

def convBytes (i en g : Nat) (lo hi : Int) : List Byte :=
  [BitVec.ofNat 8 i, BitVec.ofNat 8 en] ++ word g ++ word 0 ++ intBytes 4 lo ++ intBytes 4 hi

def checkImage : List Byte :=
  image 174 1 0 5 (word 300 ++ word 300 ++ word 10 ++ [8] ++ word 20 ++ word 400 ++ word 6000 ++ word 1000 ++ word 5000 ++
    beBytes 4 38600 ++ beBytes 4 200000 ++ convBytes 1 1 65535 (-73727) 73724 ++
    (List.replicate 7 (convBytes 1 0 32768 0 0)).flatten ++ word 1200 ++ [40] ++ word 400 ++ [1, 6, 150] ++ word 75 ++
    word 300 ++ [5] ++ word 15 ++ word 10 ++ word 80)

/-! ## Well-formed commands: an ill-formed term for each check -/

theorem test_image_too_long : (Instr.imageReadComplete (List.replicate 1025 0)).wellFormed = false := by decide +kernel

theorem test_frame_too_long : (Instr.frameReceived (List.replicate 261 0)).wellFormed = false := by decide +kernel

theorem test_track_origin_zero : (Instr.takenTimerExpiry { origin := 0, seq := 1 }).wellFormed = false := by decide

theorem test_track_origin_high : (Instr.takenTimerExpiry { origin := 25, seq := 1 }).wellFormed = false := by decide

theorem test_track_seq_zero : (Instr.takenTimerExpiry { origin := 1, seq := 0 }).wellFormed = false := by decide

theorem test_track_seq_high : (Instr.takenTimerExpiry { origin := 1, seq := 2048 }).wellFormed = false := by decide

theorem test_reader_line_with_cr : (Instr.codeReaderLine [some 0x31, some 0x0D]).wellFormed = false := by decide

theorem test_link_lines_with_cr :
    [Instr.pdReceived [some 0x0D], .apReceived [some 0x0D], .msReceived [some 0x0D], .ftReceived [some 0x0D],
      .ryReceived [some 0x0D]].all (fun c => !c.wellFormed) = true := by decide

theorem test_well_formed :
    [Instr.takenTimerExpiry { origin := 24, seq := 2047 }, .codeReaderLine [none], .imageReadComplete plainImage,
      .scanStart].all Instr.wellFormed = true := by decide +kernel

/-! ## Decode: the table gives no row bits -/

theorem test_no_word_spells_a_command : decodeTableWord 8 0 = none ∧ decodeTableWord 16 0x5A17 = none := by decide

/-! ## Worked figures -/

/-- R56: the CRC with that polynomial, start value and bit order; 29B1H is its published check value for the characters 1 to 9. -/
theorem test_crc_check_value :
    crc16 [0x31, 0x32, 0x33, 0x34, 0x35, 0x36, 0x37, 0x38, 0x39] = 0x29B1 := by decide +kernel

/-- R75's example: the tag 41025598132. -/
theorem test_tag_check_digit : checkDigit serial = 2 := by decide

/-- R151's example: the dispatch code 3741025598138. -/
theorem test_dispatch_code : dispatchCode [3, 7] serial = code := by decide

/-- The example of 5.1: r = 17820, g = 64850, b = −210 give 35057. -/
theorem test_correction :
    corrected { input := .lc1, gain := 64850, offset := -210, low := 0, high := 0 } 17820 = 35057 := by decide

/-- Chapter 7's example: E = 2500 + 48 × 1480 + 30 × 1020 = 104140 and tol = 300 + 521 + 48 × 15 + 30 × 10 = 1841. -/
theorem test_expected_mass_and_tolerance :
    expectedMass bound = 104140 ∧ tolerance checkCfg bound = 1841 ∧ expectedHeight checkCfg bound = 1470 := by decide

/-- Chapter 8's example: CASE, 1475 mm, 1025.95 kg take the recipe of code 5. -/
theorem test_recipe : recipeCode wrapCfg (dominantClass goods) 1475 102595 = 5 := by decide

/-- R153: a gross of 102595 reads 1025.95. -/
theorem test_gross_text :
    grossText 102595 = [0x31, 0x30, 0x32, 0x35, 0x2E, 0x39, 0x35] := by decide +kernel

/-- R6: after 2047 comes 1, and a number in use is passed over. -/
theorem test_track_numbers :
    newTrack ((station .check).setTrackSeq 2047) = { origin := 4, seq := 2047 } ∧ nextSeq 2047 = 1 ∧
      newTrack (((station .check).setTrackSeq 5).setTable [entry .outbound (freshRecord { origin := 4, seq := 5 } false)]) =
        { origin := 4, seq := 6 } := by decide

/-- Chapter 7, case B: NOT_FOUND, top beam 39, a stable mass: {NO_MANIFEST, HEIGHT_HIGH}. -/
theorem test_verdict_case_b :
    verdictOf (failSet checkCfg fresh
      { tag := .serial serial, manifest := .notFound
        profile := .complete { top := 39, height := 2075, length := 1190, gaps := 0, overrun := false }
        mass := .stable 97300 }) = .fail .noManifest [.noManifest, .heightHigh] := by decide

/-- Chapter 7, the complete example: PASS at 102595, one case short (101115) UNDERWEIGHT. -/
theorem test_verdict_pass_and_short_pick :
    let i : Inputs :=
      { tag := .serial serial, manifest := .found manifest
        profile := .complete { top := 27, height := 1475, length := 1215, gaps := 2, overrun := false }
        mass := .stable 102595 }
    verdictOf (failSet checkCfg bound i) = .pass ∧
      verdictOf (failSet checkCfg bound { i with mass := .stable 101115 }) = .fail .underweight [.underweight] := by decide

/-! ## One step on small states -/

/-- R38, R11: an arrival at CHECK makes the record (4, 1) and opens the tag window. -/
theorem test_entryEyeBlocks :
    (after .entryEyeBlocks (withZone .inbound (station .check))).table.map (fun e => (e.record.track, e.state)) =
        [({ origin := 4, seq := 1 }, .present)] ∧
      (after .entryEyeBlocks (withZone .inbound (station .check))).reader.window = .tag := by decide +kernel

/-- R39, R13: at PLAIN the pallet at position is DONE and offered. -/
theorem test_positionEyeBlocks :
    (after .positionEyeBlocks (holding .positioning .present passed (station .plain))).line.tx.map TxEntry.frame =
        [.offer 5 passed] ∧
      (after .positionEyeBlocks (holding .positioning .present passed (station .plain))).zone.offerTimer = some 50 := by
  decide +kernel

/-- R36: the exit eye clears, the record is OUTBOUND with 6 s + 2 s. -/
theorem test_exitEyeClears :
    let s := holding .releasing .releasing passed (station .plain)
    (after .exitEyeClears (s.setZone { s.zone with exitSeen := true })).table.map (fun e => (e.state, e.timer)) =
      [(.outbound, some 800)] := by decide +kernel

/-- R26: a blocked exit eye marks a release. -/
theorem test_exitEyeBlocks :
    (after .exitEyeBlocks (holding .releasing .releasing passed (station .plain))).zone.exitSeen = true := by decide +kernel

/-- R15: a clearing entry eye lets the slot's OFFER in, with its fifteenth hop (R5). -/
theorem test_entryEyeClears :
    let s := (station .plain).setPins { Pins.idle with eyeEntry := true }
    (after .entryEyeClears (s.setSlot (some passed))).table.map (fun e => (e.record.hops, e.state, e.timer)) =
      [(15, .expected, some 1400)] := by decide +kernel

/-- R28, R48: SAFE# adds the own entry and announces it. -/
theorem test_safeAsserted :
    (after .safeAsserted (station .plain)).zone.holds = [{ node := 4, cause := .safety }] ∧
      (after .safeAsserted (station .plain)).line.tx.map TxEntry.frame = [.hold .safety] := by decide +kernel

/-- R42, R43: acknowledged with all eyes clear, the record is removed. -/
theorem test_ackPress :
    let s := holding .jammed .present passed (station .plain)
    (after .ackPress s).table = [] ∧ (after .ackPress s).line.tx.map TxEntry.frame = [.notice (.jamCleared none)] := by
  decide +kernel

/-- R47: a hold set keeps node order. -/
theorem test_holdReceived :
    let s := heard (.hold 7 .operator) (station .plain)
    (after .holdReceived (s.setZone { s.zone with holds := [{ node := 9, cause := .safety }] })).zone.holds =
      [{ node := 7, cause := .operator }, { node := 9, cause := .safety }] := by decide +kernel

/-- R35: ACCEPT starts the release. -/
theorem test_acceptReceived :
    (after .acceptReceived (heard (.accept passed.track) (holding .stopped .done passed (station .plain)))).zone.releaseTimer =
      some 800 := by decide +kernel

/-- R61: HELLO counted sent is followed by the announcement. -/
theorem test_attemptCountedSent :
    let s := (station .plain).setLine { tx := [freshTx .hello], sending := none, rx := [], txOverrun := false, rxOverrun := false }
    (after .attemptCountedSent (after .lineIdle s)).line.tx.map TxEntry.frame = [.resume] := by decide +kernel

/-- R180: a valid PLAIN image brings the station into service with HELLO. -/
theorem test_imageReadComplete :
    (after (.imageReadComplete plainImage) (after .resetRelease State.reset)).service = .inService ∧
      (after (.imageReadComplete plainImage) (after .resetRelease State.reset)).line.tx.map TxEntry.frame = [.hello] := by
  decide +kernel

/-- R76, R78: the tag of R75's example misses in an empty store: WANTED. -/
theorem test_codeReaderLine :
    let s := (station .check).setReader { Reader.atReset with window := .tag }
    (after (.codeReaderLine (asciiLine (serial ++ [2]))) s).line.tx.map TxEntry.frame =
      [.wanted serial] := by decide +kernel

/-- R89: three scans of 38640, 38650 and 38651 have the stable sum floor(38647 + 1/2). -/
theorem test_stableSum :
    stableSum [{ gross := 38640, flagged := false }, { gross := 38650, flagged := false },
      { gross := 38651, flagged := false }] = 38647 := by decide

/-- R113, R116: the rear edge at counter 4 of a front edge at 65533 gives 7 steps, 35 mm. -/
theorem test_encoderStep :
    let s := (station .check).setProf { Profile.atReset with
      counter := 3, phase := .inCurtain, front := some 65533, compare := some 397, top := some 27 }
    let s1 := s.setEval (some { track := fresh.track, tag := none, manifest := none, profile := none, mass := none })
    (after (.encoderStep 0) s1).eval.bind Evaluation.profile =
      some (.complete { top := 27, height := 1475, length := 35, gaps := 0, overrun := false }) := by decide +kernel

/-- R141, R142: ready, the waiting attempt is requested. -/
theorem test_wrReadyRises :
    let s := holding .stopped .working passed (station .wrap)
    let s1 := s.setWrap { s.wrap with hs := .waiting, attempt := 1, recipe := 5, fault := true }
    (after .wrReadyRises s1).wrap.hs = .requested ∧ (after .wrReadyRises s1).wrap.startTimer = some 300 := by decide +kernel

/-- R154, R157: a print start fills the sequence and advances it. -/
theorem test_historyEntryLeavesWindow :
    let s := holding .stopped .working passed (station .label)
    let s1 := s.setLabel { s.label with
      lstate := .waiting, attempt := 1
      label := some { code := code, rows := [{ number := 12, text := .labelSeq }] }, seq := 999999 }
    (after .historyEntryLeavesWindow s1).label.seq = 1 ∧ (after .historyEntryLeavesWindow s1).label.tx =
      [[0x50, 0x52] ++ digitsText code ++ [0x2F, 0x31, 0x32, 0x39, 0x39, 0x39, 0x39, 0x39, 0x39, 0x0D]] := by decide +kernel

/-- R162, 12.2: FT with a leading zero is no message; FT255 sets ENGINE_FAULT. -/
theorem test_ftReceived :
    (after (.ftReceived [some 0x46, some 0x54, some 0x30, some 0x37]) (station .label)).label.fault = false ∧
      (after (.ftReceived [some 0x46, some 0x54, some 0x32, some 0x35, some 0x35]) (station .label)).label.fault = true := by
  decide +kernel

/-- R169, R170, R172: the full lane that a waiting record matches opens, and the delivery begins. -/
theorem test_laneInputChange :
    let s := holding .stopped .done passed (station .dispatch)
    let s1 := (s.setRoute { s.route with exitClass := some (.lane true false), laneWait := some 3 }).setPins
      { Pins.idle with lane1Full := true }
    (after (.laneInputChange .lane1Full false) s1).route.code = .lane1 ∧
      (after (.laneInputChange .lane1Full false) s1).zone.zstate = .releasing := by decide +kernel

/-- R60: an OFFER that replaced one withdrawn in its attempt stays when the attempt is counted sent. -/
theorem test_replaced_offer_stays :
    let s := (station .plain).setLine { (station .plain).line with
      tx := [{ frame := .offer 5 fresh, inAttempt := true, withdrawn := true, stays := false }]
      sending := some { bytes := [], reported := none, txSince := false, rxSince := false } }
    (after .attemptCountedSent (queueFrame (.offer 5 fresh) s)).line.tx = [freshTx (.offer 5 fresh)] := by decide +kernel

/-- R89, R102: a flagged scan withdraws the held value, and the window is empty. -/
theorem test_scanComplete :
    let s := withPos (holding .stopped .working fresh (station .check))
    let s1 := s.setWeigh { s.weigh with
      weighing := true, held := some { sum := 20000, gross := 0 }, window := [{ gross := 20000, flagged := false }] }
    (after (.scanComplete { lc1 := 30001, lc2 := 0, lc3 := 0, lc4 := 0, exc := 0 }) s1).weigh.held = none ∧
      (after (.scanComplete { lc1 := 30001, lc2 := 0, lc3 := 0, lc4 := 0, exc := 0 }) s1).weigh.window = [] := by
  decide +kernel

/-- R146: the end of the abort pulse reports a WR_FILM that is found asserted, and not one that has fallen or never rose. -/
theorem test_wrAbortPulseEnd :
    let s := (station .wrap).setService .starting
    let s1 := s.setWrap { s.wrap with abort := some 1 }
    let s2 := s1.setPins { s1.pins with wrFilm := true }
    (after (.wrAbortPulseEnd (some true)) s1).line.tx.map TxEntry.frame = [.hello, .notice .filmLow] ∧
      (after (.wrAbortPulseEnd (some false)) s2).line.tx.map TxEntry.frame = [.hello] ∧
      (after (.wrAbortPulseEnd none) s1).line.tx.map TxEntry.frame = [.hello] := by decide +kernel

/-- 2.2, R29: a tick brings an expiring timer's command. -/
theorem test_tick :
    let s := (station .plain).setZone { ZoneCtl.atReset with zstate := .positioning, positionTimer := some 1 }
    (tick s).pending = [.positionTimerExpiry] ∧ (tick s).zone.positionTimer = some 0 := by decide +kernel

/-! ## Witnesses: states and operands that meet the hypotheses of the statements, clause by clause -/

theorem test_witness_StepRunsTheFrontCommand :
    ((station .plain).setPending [.ackPress, .reset]).pending = .ackPress :: [.reset] := by decide

/-- In IN_SERVICE, STARTING and another state, a timer one step before zero and one that does not run. -/
theorem test_witness_IdleStepCountsTheTimers :
    (station .plain).pending = [] ∧ active (station .plain) = true ∧
      ((station .plain).setService .starting).pending = [] ∧ active ((station .plain).setService .starting) = true ∧
      State.reset.pending = [] ∧ active State.reset = false ∧
      (fun t : Option Nat => t.any (fun n => n ≤ 1)) (some 1) = true ∧
      (fun t : Option Nat => t.any (fun n => n ≤ 1)) none = false := by
  and_intros <;> decide

/-- An image that is not readable, one whose checksum is bad, and one whose upstream is out of range as well. -/
theorem test_witness_LoadingFollowsReset :
    State.reset.service = .reset ∧ (station .plain).service ≠ .reset ∧ (station .plain).service ≠ .loading ∧
      (after .resetRelease State.reset).service = .loading ∧ imageVerdict [] = .error Loaded.none ∧
      imageVerdict (plainImage.set 9 51) =
        .error { Loaded.none with node := 4, role := some .plain, up := some 3, down := some 5 } ∧
      imageVerdict (plainImage.set 6 25) = .error { Loaded.none with node := 4 } := by
  and_intros <;> decide +kernel

/-- The verdict on an image is a configuration of this role. -/
def loadsAs (img : List Byte) (r : Role) : Bool :=
  match imageVerdict img with
  | .ok c => c.role = some r
  | .error _ => false

/-- LOADING with the eyes at these levels. -/
def loading (p : Pins) : State := (State.reset.setService .loading).setPins p

theorem test_witness_ValidImageStartsTheStation :
    (∀ p ∈ [Pins.idle, { Pins.idle with eyePos := true }, { Pins.idle with eyeEntry := true }],
      StationSound (loading p) ∧ (loading p).service = .loading ∧ (loading p).line.tx = [] ∧
        (loading p).store.request = none) ∧
      loadsAs checkImage .check = true ∧ loadsAs plainImage .plain = true ∧ loadsAs wrapImage .wrap = true ∧
      loadsAs labelImage .label = true ∧ loadsAs dispatchImage .dispatch = true := by
  and_intros <;> decide +kernel

theorem test_witness_LoadedImageHasPassedItsChecks :
    loadsAs checkImage .check = true ∧ loadsAs plainImage .plain = true ∧ loadsAs wrapImage .wrap = true ∧
      loadsAs labelImage .label = true ∧ loadsAs dispatchImage .dispatch = true := by
  and_intros <;> decide +kernel

/-- A frame discarded and one taken, malformed, cut short, with a wrong CRC and with bytes after it; the queue at its bound, and
the bounds of a payload, a node and a track. -/
theorem test_witness_HeardFramesEnterTheReceiveQueue :
    heardFrame (station .plain) [] = none ∧ heardFrame (station .plain) (wireBytes 0 7 1 [2]) = some (.hold 7 .operator) ∧
      heardFrame (station .plain) (wireBytes 0 7 1 [2] ++ [0]) = some (.hold 7 .operator) ∧
      heardFrame (station .plain) ((wireBytes 0 7 1 [2]).take 5) = none ∧
      heardFrame (station .plain) ((wireBytes 0 7 1 [2]).take 4 ++ [0, 0]) = none ∧
      [0, 0] ≠ (wireBytes 0 7 1 [2]).drop 4 ∧ heardFrame (station .plain) (wireBytes 0 7 1 [3]) = none ∧
      heardFrame (station .plain) (wireBytes 2 7 0x24 [6, 1, 24]) = none ∧
      heardFrame (station .plain) (wireBytes 2 7 0x24 [5, 1, 25]) = none ∧
      heardFrame (station .plain) (wireBytes 1 5 0x11 [4, 7, 1]) = none ∧
      heardFrame (station .plain) (wireBytes 1 5 0x11 [4, 8, 0]) = none ∧
      heardFrame (station .plain) (wireBytes 1 5 0x11 [4, 8, 1]) = some (.accept { origin := 1, seq := 1 }) ∧
      (List.replicate 3 RxFrame.query).length < 4 ∧ 4 ≤ (List.replicate 4 RxFrame.query).length ∧
      (List.replicate 112 (0 : Byte)).length ≤ 112 ∧ (station .plain).line.rx.length < 4 ∧ (station .plain).cfg.node ≤ 24 ∧
      isTrack { origin := 24, seq := 2047 } = true ∧ upstream (station .plain) = 3 ∧ downstream (station .plain) = 5 ∧
      hasRole (station .check) .check = true ∧ inService (station .check) = true ∧
      maySend ((station .plain).setService .outOfService) = true := by
  and_intros <;> decide +kernel

/-- Two witnesses: a full record at the bounds of its fields, and a fresh one. -/
theorem test_witness_OfferedRecordTravelsWhole :
    inService (station .plain) = true ∧ isNode (station .plain).cfg.node = true ∧
      isNode (upstream (station .plain)) = true ∧ upstream (station .plain) ≠ (station .plain).cfg.node ∧
      recordCarried { passed with track := { origin := 24, seq := 2047 }, gross := some 16777215, hops := 15
                                  deviation := some (-2147483648) } = true ∧
      recordCarried fresh = true ∧ (station .plain).line.rx.length < 4 := by
  and_intros <;> decide +kernel

/-- A transmit queue of one NOTICE, waiting or in its attempt. -/
def oneFrame (trying : Bool) : State :=
  (station .plain).setLine { (station .plain).line with
    tx := [{ frame := .notice .filmLow, inAttempt := trying, withdrawn := trying, stays := false }]
    sending := if trying then some { bytes := [], reported := none, txSince := false, rxSince := false } else none }

theorem test_witness_IdleLineBeginsAnAttempt :
    let q := (station .check).setLine { (station .check).line with tx := [freshTx .status], txOverrun := true }
    maySend (oneFrame false) = true ∧ (oneFrame false).line.sending = none ∧
      (oneFrame false).line.tx = freshTx (.notice .filmLow) :: [] ∧ maySend State.reset = false ∧
      (oneFrame true).line.sending.isSome = true ∧ (station .plain).line.tx = [] ∧ maySend q = true ∧
      q.line.sending = none ∧ q.line.tx = freshTx .status :: [] ∧ (freshTx .status).frame = .status ∧
      (let d := (station .check).setLine { (station .check).line with tx := [freshTx (.wanted serial)] }
       maySend d = true ∧ d.line.sending = none ∧ d.line.tx = freshTx (.wanted serial) :: [] ∧
         (after .lineIdle d).line.sending.map Sending.bytes =
           some (wireBytes 2 4 0x22 [0x41, 0x02, 0x55, 0x98, 0x13])) := by
  and_intros <;> decide +kernel

/-- No attempt; an attempt of a withdrawn frame, of an OFFER replaced after a withdrawal, of HELLO, and of a STATUS that
reports TX_OVERRUN. -/
theorem test_witness_AttemptsEndByTheRule :
    let a : Sending := { bytes := [], reported := some (true, false), txSince := false, rxSince := true }
    let w : TxEntry := { frame := .notice .filmLow, inAttempt := true, withdrawn := true, stays := false }
    let o : TxEntry := { frame := .offer 5 passed, inAttempt := true, withdrawn := false, stays := true }
    (station .plain).line.sending = none ∧ (oneFrame true).line.sending.isSome = true ∧
      (oneFrame true).line.tx = [] ++ w :: [] ∧
      (∀ e ∈ [w, o, { freshTx .hello with inAttempt := true }, { freshTx .status with inAttempt := true }],
        let s := (station .plain).setLine { (station .plain).line with tx := [e], sending := some a }
        s.line.sending = some a ∧ s.line.tx = [] ++ e :: [] ∧ e.inAttempt = true ∧ inService s = true) ∧
      ([] : List TxEntry).all (fun x => !x.inAttempt) = true := by
  and_intros <;> decide +kernel

/-- Eight waiting NOTICEs. -/
def eightNotices : State :=
  (station .plain).setLine { (station .plain).line with tx := List.replicate 8 (freshTx (.notice .filmLow)) }

theorem test_witness_FullQueueDropsTheLeastUrgent :
    let x := freshTx (.notice .filmLow)
    let w : TxEntry := { frame := .offer 5 passed, inAttempt := true, withdrawn := true, stays := false }
    let o := (station .plain).setLine { (station .plain).line with tx := [w] }
    mayQueue eightNotices .resume = true ∧ mayQueue eightNotices .status = true ∧ eightNotices.line.tx.length = 8 ∧
      holdsOffer .resume eightNotices.line.tx = false ∧ holdsOffer .status eightNotices.line.tx = false ∧
      eightNotices.line.tx = List.replicate 7 x ++ x :: [] ∧ droppable x = true ∧
      eightNotices.line.tx.all (fun y => !droppable y || txClass y.frame ≤ txClass x.frame) = true ∧
      ([] : List TxEntry).all (fun y => !droppable y || txClass y.frame < txClass x.frame) = true ∧
      txClass TxFrame.resume < txClass x.frame ∧ txClass x.frame ≤ txClass TxFrame.status ∧
      mayQueue State.reset .status = false ∧ mayQueue o (.offer 5 passed) = true ∧ o.line.tx = [] ++ w :: [] ∧
      (offerTrack (.offer 5 passed)).isSome = true ∧ offerTrack w.frame = offerTrack (.offer 5 passed) ∧
      mayQueue o .resume = true ∧ o.line.tx.length < 8 ∧ holdsOffer .resume o.line.tx = false := by
  and_intros <;> decide +kernel

theorem test_witness_QueryIsAnsweredOnce :
    let s := heard .query (station .plain)
    let s1 := s.setLine { s.line with tx := [freshTx .status] }
    s.line.rx = .query :: [] ∧ maySend s = true ∧ roomFor 1 s = true ∧ queued .status s = false ∧
      s1.line.rx = .query :: [] ∧ maySend s1 = true ∧ roomFor 1 s1 = true ∧ queued .status s1 = true := by
  and_intros <;> decide +kernel

theorem test_witness_HoldFramesChangeTheHoldSet :
    inService (heard (.hold 24 .safety) (station .plain)) = true ∧
      (heard (.hold 24 .safety) (station .plain)).line.rx = .hold 24 .safety :: [] ∧
      (heard (.resume 1) (station .plain)).line.rx = .resume 1 :: [] ∧
      (let s := (heard (.hold 5 .safety) (holding .releasing .releasing passed (station .plain)))
       inService s = true ∧ s.line.rx = .hold 5 .safety :: [] ∧ 5 = downstream s ∧ s.zone.zstate = .releasing) ∧
      (let s := heard (.resume 3) (let x := holding .inbound .expected passed (station .plain)
        x.setZone { x.zone with holds := [{ node := 3, cause := .safety }] })
       inService s = true ∧ s.line.rx = .resume 3 :: [] ∧ 3 = upstream s ∧ s.zone.zstate = .inbound ∧
         hasRole s .check = false) := by
  and_intros <;> decide +kernel

/-- Every role, with all eyes clear, a pallet at position and one elsewhere; at DISPATCH the spur full and not. -/
theorem test_witness_ClearDerivesAFreshStation :
    (∀ r ∈ [Role.check, .plain, .wrap, .label, .dispatch],
      StationSound (heard .clear (station r)) ∧ (heard .clear (station r)).line.rx = .clear :: [] ∧
        inService (heard .clear (station r)) = true ∧ StationSound (heard .clear (withPos (station r)))) ∧
      eyesClear (station .plain).pins = true ∧ (withPos (station .plain)).pins.eyePos = true ∧
      eyesClear { Pins.idle with eyeEntry := true } = false ∧ ownHold Pins.idle = none ∧
      ownHold { Pins.idle with safe := true } = some .safety ∧ helloWaiting (station .plain) = false ∧
      roomFor 2 (station .plain) = true := by
  and_intros <;> decide +kernel

theorem test_witness_OwnHoldFollowsItsInputs :
    let h := (station .plain).setLine { (station .plain).line with tx := [freshTx .hello] }
    inService (station .plain) = true ∧ LineSound (station .plain) ∧ OwnHoldSound (station .plain) ∧
      ownHold { (station .plain).pins with safe := true } ≠ ownHold (station .plain).pins ∧
      ownHold { (station .plain).pins with holdSw := false } = ownHold (station .plain).pins ∧
      helloWaiting (station .plain) = false ∧ roomFor 3 (station .plain) = true ∧ inService h = true ∧ LineSound h ∧
      OwnHoldSound h ∧ helloWaiting h = true ∧
      (∀ x ∈ [holding .inbound .expected passed (station .plain), withZone .inbound (station .check), station .check],
        inService x = true ∧ LineSound x ∧ OwnHoldSound x ∧
          ownHold { x.pins with safe := true } ≠ ownHold x.pins) := by
  and_intros <;> decide +kernel

/-- The premises of the law, in a release that a hold meets: SAFE# asserted while RELEASING. -/
theorem test_witness_NoReleaseBeginsUnderAHold :
    let t := after .safeAsserted (holding .releasing .releasing passed (station .plain))
    exec .safeAsserted (holding .releasing .releasing passed (station .plain)) = .next t ∧ t.zone.zstate = .releasing ∧
      t.zone.holds ≠ [] := ⟨rfl, by decide +kernel, by decide +kernel⟩

/-- A station that can accept, and one whose zone is taken; and OFFERs in the slot, of a new track and of one in the table, that
an eye, the last hold or a full table kept out. -/
theorem test_witness_NewOfferIsAcceptedOrKept :
    let s := heard (.offer passed) (station .plain)
    let s1 := heard (.offer passed) (holding .positioning .present (other 7) (station .plain))
    let e := ((station .plain).setPins { Pins.idle with eyeEntry := true }).setSlot (some passed)
    let h := (heard (.resume 5) ((station .plain).setZone { (station .plain).zone with
      holds := [{ node := 5, cause := .operator }] })).setSlot (some passed)
    let f := (heard (.taken (other 1).track) (withTable fullTable (station .plain))).setSlot (some passed)
    let d := (withTable [entry .outbound passed] ((station .plain).setPins { Pins.idle with eyeExit := true })).setSlot
      (some passed)
    (∀ x ∈ [s, s1, e, h, f, d], Settled x ∧ inService x = true ∧ hasRole x .check = false ∧ roomFor 1 x = true) ∧
      s.line.rx = .offer passed :: [] ∧ entryOf s passed.track = none ∧ accepting s = true ∧
      s1.line.rx = .offer passed :: [] ∧ entryOf s1 passed.track = none ∧ accepting s1 = false ∧
      (∀ x ∈ [e, h, f, d], x.slot = some passed) ∧ accepting (e.setPins { e.pins with eyeEntry := false }) = true ∧
      entryOf e passed.track = none ∧ h.line.rx = .resume 5 :: [] ∧
      accepting ((h.setLine { h.line with rx := [] }).setZone { h.zone with holds := [] }) = true ∧
      f.line.rx = .taken (other 1).track :: [] ∧ (∀ x ∈ f.table, x.state = .outbound) ∧
      accepting (f.setTable (f.table.filter (fun x => x.record.track != (other 1).track))) = true ∧
      d.zone.zstate = .empty ∧ accepting (d.setPins { d.pins with eyeExit := false }) = true ∧
      (entryOf d passed.track).isSome = true := by
  and_intros <;> decide +kernel

/-- A station that waits for the pallet 1,201. -/
def expecting : State :=
  holding .inbound .expected passed (station .plain)

theorem test_witness_RepeatedOfferIsAnsweredByItsEntry :
    let s := heard (.offer passed) expecting
    let s1 := heard (.offer passed) (holding .positioning .present passed (station .plain))
    Settled s ∧ inService s = true ∧ s.line.rx = .offer passed :: [] ∧ entryOf s passed.track = some (entry .expected passed) ∧
      roomFor 1 s = true ∧ Settled s1 ∧ inService s1 = true ∧ s1.line.rx = .offer passed :: [] ∧
      entryOf s1 passed.track = some (entry .present passed) ∧ roomFor 1 s1 = true := by
  and_intros <;> decide +kernel

/-- A station that offers the pallet 1,201. -/
def offeringState : State :=
  let s := withPos (holding .stopped .done passed (station .plain))
  s.setZone { s.zone with offerTimer := some 50 }

theorem test_witness_AcceptStartsTheRelease :
    let s := heard (.accept passed.track) offeringState
    let s1 := heard (.accept (other 1).track) offeringState
    StationSound s ∧ Settled s ∧ inService s = true ∧ s.line.rx = .accept passed.track :: [] ∧
      (∃ e ∈ s.table, e.state = .done ∧ e.record.track = passed.track) ∧ s.zone.zstate = .stopped ∧ s.zone.holds = [] ∧
      hasRole s .dispatch = false ∧ StationSound s1 ∧ Settled s1 ∧ s1.line.rx = .accept (other 1).track :: [] ∧
      (∀ e ∈ s1.table, e.state ≠ .done ∨ e.record.track ≠ (other 1).track) := by
  and_intros <;> decide +kernel

theorem test_witness_ReleasedRestartsTheArrivalTimer :
    Settled (heard (.released passed.track) expecting) ∧ inService (heard (.released passed.track) expecting) = true ∧
      (heard (.released passed.track) expecting).line.rx = .released passed.track :: [] := by
  and_intros <;> decide +kernel

/-- A full table of OUTBOUND entries, with and without an OFFER in the slot. -/
theorem test_witness_TakenAndLostEndAnOutboundEntry :
    let s := heard (.taken (other 1).track) (withTable fullTable (station .plain))
    let s1 := heard (.lost (other 1).track) ((withTable fullTable (station .plain)).setSlot (some passed))
    StationSound s ∧ Settled s ∧ inService s = true ∧ hasRole s .dispatch = false ∧
      s.line.rx = .taken (other 1).track :: [] ∧ s.slot = none ∧
      StationSound s1 ∧ Settled s1 ∧ s1.line.rx = .lost (other 1).track :: [] := by
  and_intros <;> decide +kernel

/-- From the upstream, from the downstream of a release, at CHECK, at DISPATCH with a record that waits, and from a node
that is both neighbours. -/
theorem test_witness_HelloRestartsTheTransfer :
    let s := heard (.hello 3) expecting
    let s1 := heard (.hello 5) (holding .releasing .releasing passed (station .plain))
    let c := heard (.hello 5) (withTable fullTable (station .check))
    let d := heard (.hello 3) (withPos (holding .stopped .done passed (station .dispatch)))
    let b := s1.setCfg { s1.cfg with up := some 5 }
    (∀ x ∈ [s, s1, c, d, b, heard (.hello 5) (withPos (holding .stopped .done passed (station .plain)))],
      StationSound x ∧ inService x = true ∧ PermitSound x) ∧
      s.line.rx = .hello 3 :: [] ∧ 3 = upstream s ∧ hasRole s .dispatch = false ∧ s1.line.rx = .hello 5 :: [] ∧
      5 = downstream s1 ∧ s1.zone.zstate = .releasing ∧ hasRole c .check = true ∧ upstream c = 0 ∧
      c.line.rx = .hello 5 :: [] ∧ 5 = downstream c ∧ hasRole d .dispatch = true ∧ downstream d = 0 ∧
      d.line.rx = .hello 3 :: [] ∧ 3 = upstream d ∧ d.zone.zstate = .stopped ∧
      d.zone.holds.all (fun h => h.node = 3) = true ∧ zoneEntryIn d .done = some (entry .done passed) ∧
      b.line.rx = .hello 5 :: [] ∧ 5 = upstream b ∧ 5 = downstream b := by
  and_intros <;> decide +kernel

/-- Arrivals at CHECK: permitted, and after the permit went with a full table of OUTBOUND entries. -/
theorem test_witness_ArrivalAtCheckMakesARecord :
    StationSound (withZone .inbound (station .check)) ∧ works (withZone .inbound (station .check)) .check = true ∧
      (withZone .inbound (station .check)).zone.zstate = .inbound ∧
      StationSound (withTable fullTable (station .check)) ∧ works (withTable fullTable (station .check)) .check = true ∧
      (withTable fullTable (station .check)).zone.zstate = .empty ∧ Settled (withTable fullTable (station .check)) ∧
      inService (withTable fullTable (station .check)) = true ∧ roomFor 1 (withTable fullTable (station .check)) = true := by
  and_intros <;> decide +kernel

theorem test_witness_ArrivalBindsTheExpectedRecord :
    StationSound expecting ∧ Settled expecting ∧ active expecting = true ∧ hasRole expecting .check = false ∧
      expecting.zone.zstate = .inbound ∧ inService expecting = true ∧ roomFor 2 expecting = true ∧
      StationSound (station .wrap) ∧ Settled (station .wrap) ∧ active (station .wrap) = true ∧
      hasRole (station .wrap) .check = false ∧ (station .wrap).zone.zstate = .empty := by
  and_intros <;> decide +kernel

theorem test_witness_EyeEdgesWithoutAnEffect :
    (∀ s ∈ [holding .positioning .present fresh (station .check), offeringState,
        holding .releasing .releasing passed (station .plain), holding .jammed .present passed (station .plain)],
      Settled s ∧ s.zone.zstate ≠ .empty ∧ s.zone.zstate ≠ .inbound ∧ active s = true) ∧
    (∀ s ∈ [State.reset, (station .plain).setService .outOfService], Settled s ∧ active s = false) ∧
    (∀ s ∈ [station .plain, expecting, withZone .inbound (station .check),
        (station .check).setPins { (station .check).pins with eyePos := true }],
      Settled s ∧ StationSound s ∧ active s = true ∧ (s.zone.zstate = .empty ∨ s.zone.zstate = .inbound) ∧
        s.slot = none) ∧
    (let s := (station .check).setPins { (station .check).pins with eyePos := true }
     accepting (s.setPins { s.pins with eyePos := false }) = true) := by
  and_intros <;> decide +kernel

/-- The pallet 1,201 on its way to position, with its evaluation open at CHECK. -/
def positioning (r : Role) : State := holding .positioning .present fresh (station r)

def evaluated0 (s : State) : State :=
  s.setEval (some { track := fresh.track, tag := none, manifest := none, profile := none, mass := none })

/-- CHECK with the tag unresolved and read, the zero established and SCALE_FAULT, the profile in each phase; PLAIN; DISPATCH free
and under a hold; WRAP with a record done before. -/
theorem test_witness_PositionEyeBeginsTheWork :
    let c := evaluated0 (positioning .check)
    let d := positioning .dispatch
    (∀ s ∈ [c, c.setWeigh { c.weigh with scaleFault := true },
        c.setEval (c.eval.map (fun ev => { ev with tag := some (.serial serial), manifest := some (.found manifest) })),
        c.setProf { c.prof with phase := .armed }, c.setProf { c.prof with phase := .inCurtain, front := some 65535 },
        c.setProf { c.prof with phase := .complete }, positioning .plain, d,
        d.setZone { d.zone with holds := [{ node := 3, cause := .operator }] },
        holding .positioning .done passed (station .wrap)],
      (StationSound s ∧ active s = true) ∧ Settled s ∧ s.zone.zstate = .positioning ∧ (zoneEntry s).isSome = true) ∧
      c.eval.all (fun ev => ev.mass.isNone && ev.track = fresh.track) = true ∧ c.weigh.scaleFault = false ∧
      c.weigh.established = true ∧ inService d = true ∧ d.zone.holds = [] ∧ d.route.exitClass = none ∧
      laneWaitOn d = false := by
  and_intros <;> decide +kernel

/-- A release with the exit-seen mark set. -/
def leaving (r : Role) (heardTaken : Bool) : State :=
  let s := withZone .releasing (withTable [{ entry .releasing passed with takenHeard := heardTaken }] (station r))
  s.setZone { s.zone with exitSeen := true }

theorem test_witness_ExitEyeCompletesTheRelease :
    (∀ b ∈ [true, false], StationSound (leaving .plain b) ∧ active (leaving .plain b) = true ∧
      hasRole (leaving .plain b) .dispatch = false ∧ (leaving .plain b).zone.zstate = .releasing ∧
      (leaving .plain b).zone.exitSeen = true ∧ (zoneEntry (leaving .plain b)).map Entry.takenHeard = some b ∧
      inService (leaving .plain b) = true ∧ roomFor 3 (leaving .plain b) = true ∧ (leaving .plain b).slot = none ∧
      hasRole (leaving .plain b) .check = false ∧ (leaving .plain b).zone.holds = [] ∧
      (leaving .plain b).pins.eyeEntry = false ∧ (leaving .plain b).pins.eyePos = false ∧
      StationSound ((leaving .plain b).setSlot (some (other 1)))) := by
  decide +kernel

theorem test_witness_ExitEyeCompletesTheDelivery :
    StationSound (leaving .dispatch false) ∧ works (leaving .dispatch false) .dispatch = true ∧
      (leaving .dispatch false).zone.zstate = .releasing ∧ (leaving .dispatch false).zone.exitSeen = true ∧
      zoneEntry (leaving .dispatch false) = some (entry .releasing passed) ∧ inService (leaving .dispatch false) = true ∧
      roomFor 3 (leaving .dispatch false) = true ∧ (leaving .dispatch false).slot = none := by
  and_intros <;> decide +kernel

/-- JAMMED with nothing, the position eye, and the exit eye blocked, in each role with a PRESENT record, and at DISPATCH also
under a hold. -/
theorem test_witness_AcknowledgeEndsTheJam :
    let s := holding .jammed .releasing passed (station .plain)
    let s2 := s.setPins { s.pins with eyeExit := true }
    let d := holding .jammed .releasing passed (station .dispatch)
    StationSound s ∧ inService s = true ∧ s.zone.zstate = .jammed ∧ zoneEntry s = some (entry .releasing passed) ∧
      eyesClear s.pins = true ∧ s.slot = none ∧ roomFor 3 s = true ∧ (withPos s).pins.eyePos = true ∧
      StationSound (withPos s) ∧ s2.pins.eyePos = false ∧ eyesClear s2.pins = false ∧ StationSound s2 ∧
      (station .plain).zone.zstate ≠ .jammed ∧
      (∀ r ∈ [Role.check, .plain, .wrap, .label, .dispatch],
        let x := withPos (holding .jammed .present fresh (station r))
        StationSound x ∧ inService x = true ∧ x.zone.zstate = .jammed ∧ zoneEntry x = some (entry .present fresh)) ∧
      (∃ ev ∈ (evaluated0 (station .check)).eval, ev.track = fresh.track) ∧ StationSound d ∧ d.zone.holds = [] ∧
      StationSound (d.setZone { d.zone with holds := [{ node := 3, cause := .operator }] }) ∧
      (let x := holding .jammed .present fresh (evaluated0 (station .check))
       let y := x.setStore { x.store with request := some { serial := serial, wait := some 10 } }
       StationSound y ∧ inService y = true ∧ eyesClear y.pins = true ∧ y.slot = none ∧ y.eval.isSome = true ∧
         StationSound (y.setPins { y.pins with eyeEntry := true })) := by
  and_intros <;> decide +kernel

/-- The arrival timer and the taken timer run, or are frozen by the halt; the station offers. -/
theorem test_witness_HandoffTimersExpire :
    let e := { entry .expected passed with timer := some 1 }
    let o := { entry .outbound (other 1) with timer := some 1 }
    let s := withZone .inbound (withTable [o, e] (station .plain))
    StationSound s ∧ Settled s ∧ inService s = true ∧ e ∈ s.table ∧ o ∈ s.table ∧ roomFor 3 s = true ∧
      arrivalFrozen s = false ∧ releaseFrozen s = false ∧ e.timer.isSome = true ∧ o.timer.isSome = true ∧
      arrivalFrozen (s.setPins { s.pins with safe := true }) = true ∧ Settled (s.setPins { s.pins with safe := true }) ∧
      StationSound offeringState ∧ Settled offeringState ∧ entry .done passed ∈ offeringState.table ∧
      headEntry offeringState = some (entry .done passed) ∧ offering offeringState = true ∧ offering s = false := by
  and_intros <;> decide +kernel

theorem test_witness_TimeoutsJamTheZone :
    let s := positioning .plain
    let s1 := s.setZone { s.zone with positionTimer := some 1 }
    let r := leaving .plain false
    let r1 := r.setZone { r.zone with releaseTimer := some 1 }
    Settled s1 ∧ inService s1 = true ∧ s1.zone.zstate = .positioning ∧ s1.zone.positionTimer.isSome = true ∧
      s1.pins.safe = false ∧ roomFor 1 s1 = true ∧ Settled r1 ∧ inService r1 = true ∧ r1.zone.zstate = .releasing ∧
      r1.zone.releaseTimer.isSome = true ∧ releaseFrozen r1 = false ∧ roomFor 1 r1 = true ∧
      releaseFrozen (r1.setPins { r1.pins with safe := true }) = true ∧
      (let x := s1.setService .starting
       Settled x ∧ active x = true ∧ x.zone.zstate = .positioning ∧ x.zone.positionTimer.isSome = true) := by
  and_intros <;> decide +kernel

/-! ### CHECK -/

/-- The pallet 1,201 at work at CHECK: its window open, its weighing on. -/
def working : State :=
  let s := evaluated0 (withPos (holding .stopped .working fresh (station .check)))
  let s1 := s.setReader { s.reader with window := .tag, tagWait := some 300 }
  s1.setWeigh { s1.weigh with weighing := true, settle := some 400 }

theorem test_witness_TagLineIsResolved :
    StationSound working ∧ Settled working ∧ RoleFollows working ∧ works working .check = true ∧
      working.reader.window = .tag ∧ tagRead (readerLine (asciiLine (serial ++ [2])) working) = some serial ∧
      tagRead (readerLine (asciiLine (serial ++ [3])) working) = none ∧
      working.store.manifests.all (fun m => m.serial != serial) = true ∧
      [manifest].find? (fun m => m.serial == serial) = some manifest := by
  and_intros <;> decide +kernel

theorem test_witness_WaitsEndWithoutAReading :
    StationSound working ∧ works working .check = true ∧ working.reader.tagWait.isSome = true ∧
      manifestWaiting working = false ∧
      manifestWaiting (working.setStore { manifests := [], request := some { serial := serial, wait := some 1 } }) = true := by
  and_intros <;> decide +kernel

/-- The bytes of that manifest: serial, order, DUTY_PAID, lane class A, tare, two lines (Table 12-4). -/
def manifestBytes : List Byte :=
  packDigits serial ++ packDigits [2, 0, 4, 1, 7, 7, 3, 6] ++ [2, 1] ++ word 2500 ++ [2] ++
    goods.flatMap (fun l => packDigits l.article ++ [if l.unitClass = .caseUnit then 1 else 2, BitVec.ofNat 8 l.count] ++
      word l.mass ++ [BitVec.ofNat 8 l.layers] ++ word l.layerHeight)

def isOk (x : Except Rejection Manifest) (m : Manifest) : Bool :=
  match x with
  | .ok y => y = m
  | .error _ => false

/-- A manifest that the request names, one that it does not, and one that fails a check. -/
theorem test_witness_ManifestIsBoundOrStored :
    let s := heard (.manifest manifestBytes) working
    let q := s.setStore { manifests := [], request := some { serial := serial, wait := some 1 } }
    let b := heard (.manifest []) working
    (∀ x ∈ [s, q, b], StationSound x ∧ CheckSound x ∧ RoleFollows x ∧ inService x = true) ∧
      (∀ x ∈ [s, q, b], Settled x ∧ hasRole x .check = true ∧ roomFor 1 x = true) ∧
      s.line.rx = .manifest manifestBytes :: [] ∧ isOk (validateManifest manifestBytes) manifest = true ∧
      q.store.request.any (fun r => r.serial = manifest.serial) = true ∧ manifestBytes.length = 34 ∧ b.line.rx = .manifest [] :: [] ∧
      (match validateManifest [] with
       | .ok _ => false
       | .error _ => true) = true := by
  and_intros <;> decide +kernel

/-- Raw values of one cell in 1:1 give the gross itself. -/
def raw (v : BitVec 16) : RawScan := { lc1 := v, lc2 := 0, lc3 := 0, lc4 := 0, exc := 0 }

/-- A scan in a weighing: flagged, unflagged with a held value 20 and 21 away, and completing a stable window; and one outside a
weighing that completes a stable window on an empty platform, for the start-zero task, for a zero owed, and for neither. -/
theorem test_witness_ScansWeighThePallet :
    let h := working.setWeigh { working.weigh with held := some { sum := 20000, gross := 0 }, settle := none }
    let w := working.setWeigh { working.weigh with
      window := [{ gross := 20000, flagged := false }, { gross := 20020, flagged := false }] }
    let z := (withZone .inbound (station .check)).setWeigh { (station .check).weigh with
      window := [{ gross := 20000, flagged := false }, { gross := 20020, flagged := false }] }
    let st := ((withZone .empty z).setService .starting).setWeigh { z.weigh with startZero := some 1, established := false }
    (∀ x ∈ [working, h, w, z, st, z.setWeigh { z.weigh with postponed := 1 }],
      StationSound x ∧ Settled x ∧ works x .check = true) ∧ working.weigh.weighing = true ∧
      (sampleOf checkCfg.conversions (raw 30001)).flagged = true ∧
      (sampleOf checkCfg.conversions (raw 30000)).flagged = false ∧
      checkCfg.settleBand < ((sampleOf checkCfg.conversions (raw 20021)).gross - 20000).natAbs ∧
      ¬ checkCfg.settleBand < ((sampleOf checkCfg.conversions (raw 20020)).gross - 20000).natAbs ∧
      RoleFollows working ∧ RoleFollows h ∧ inService z = true ∧ roomFor 2 z = true ∧ z.weigh.scaleFault = false ∧
      zeroInRange st 50000 = false ∧ (∀ x ∈ [w, z, st], stableWindow checkCfg ((x.weigh.window ++ [sampleOf checkCfg.conversions (raw 20001)]).drop
        (x.weigh.window.length + 1 - checkCfg.windowSize)) = true) ∧ z.weigh.weighing = false ∧
      platformEmpty z = true ∧ platformEmpty st = true ∧ st.weigh.startZero.isSome = true ∧ z.weigh.startZero = none ∧
      st.line.tx = [] := by
  and_intros <;> decide +kernel

theorem test_witness_ScaleTimersExpire :
    let s := (station .check).setService .starting
    let s1 := s.setWeigh { s.weigh with startZero := some 1, established := false }
    let z := (station .check).setWeigh { (station .check).weigh with zeroDue := some 1, postponed := 7 }
    let z1 := z.setWeigh { z.weigh with window := List.replicate 3 { gross := 39600, flagged := false } }
    StationSound s1 ∧ CheckSound s1 ∧ works s1 .check = true ∧ s1.weigh.startZero.isSome = true ∧ s1.service = .starting ∧
      s1.line.tx = [] ∧ StationSound z ∧ CheckSound z ∧ works z .check = true ∧ z.weigh.zeroDue.isSome = true ∧
      stableEmpty z = false ∧ z.weigh.postponed = 7 ∧ stableEmpty z1 = true ∧
      zeroInRange z1 (stableSum z1.weigh.window) = true ∧ zeroInRange z1 39601 = false ∧ StationSound working ∧
      CheckSound working ∧ working.weigh.settle.isSome = true := by
  and_intros <;> decide +kernel

/-- The profile of the pallet in a phase. -/
def profiling (ph : Phase) (compare : BitVec 16) : State :=
  let s := evaluated0 (positioning .check)
  s.setProf { s.prof with
    counter := 65535, phase := ph, front := some 65535, compare := some compare, ever := true, top := some 3 }

/-- Every phase, with the counter at its wrap; the compare reached by the step, and not. -/
theorem test_witness_EncoderStepsProfileThePallet :
    (∀ s ∈ [profiling .none 399, profiling .unarmed 399, profiling .armed 399, profiling .inCurtain 399,
        profiling .inCurtain 0, profiling .complete 399, profiling .faulted 399],
      StationSound s ∧ Settled s ∧ RoleFollows s ∧ works s .check = true ∧ s.prof.counter + 1 = 0) ∧
      (profiling .inCurtain 399).prof.compare ≠ some 0 ∧ (profiling .inCurtain 0).prof.compare = some 0 := by
  and_intros <;> decide +kernel

/-- The inputs of that pallet with a height and a mass. -/
def inputs (height : Nat) (mass : MassResolution) : Inputs :=
  { tag := .serial serial, manifest := .found manifest
    profile := .complete { top := 27, height := height, length := 1240, gaps := 6, overrun := false }, mass := mass }

/-- EH is 1470: heights at EH + HA, one above it, at EH − HA, one below it; a profile fault; a manifest not found. -/
theorem test_witness_ProfileReasonsFollowTheFigures :
    (∀ h ∈ [1545, 1546, 1395, 1394], (inputs h .unstable).profile =
        .complete { top := 27, height := h, length := 1240, gaps := 6, overrun := false } ∧
      true = (match (inputs h .unstable).manifest with
        | .found _ => true
        | _ => false)) ∧
      { inputs 0 .unstable with profile := .profileFault }.profile = .profileFault ∧
      false = (match { inputs 0 .unstable with manifest := .notFound }.manifest with
        | .found _ => true
        | _ => false) ∧
      (1470 : Int) = (checkCfg.baseHeight : Int) + ((bound.lines.map (fun l => (l.layers : Int) * l.layerHeight)).sum) := by
  decide

/-- E is 104140 and tol 1841: D at −tol and one below it. -/
theorem test_witness_MassDecidesTheVerdict :
    (∀ g ∈ [102299, 102298], (inputs 1475 (.stable g)).manifest = .found manifest ∧
        (inputs 1475 (.stable g)).mass = .stable g ∧ (inputs 1475 (.stable g)).tag ≠ .unread) ∧
      104140 = bound.tare.getD 0 + (bound.lines.map (fun l => l.count * l.mass)).sum ∧
      1841 = min 65535 (checkCfg.fixedAllowance + (104140 * checkCfg.perMille + 999) / 1000 +
        (bound.lines.map (fun l => l.count * (match l.unitClass with
          | .caseUnit => checkCfg.caseAllowance
          | .tray => checkCfg.trayAllowance
          | .keg => checkCfg.kegAllowance))).sum) ∧
      (102299 : Int) - 104140 = -(1841 : Int) ∧ (102298 : Int) - 104140 < -(1841 : Int) ∧
      (failSet checkCfg fresh { inputs 1475 (.stable 102299) with tag := .unread, manifest := .notApplicable }) =
        .tagUnread :: [] := by
  and_intros <;> decide

theorem test_witness_EvaluationWritesTheRecord :
    let ev : Evaluation :=
      { track := bound.track, tag := some (.serial serial), manifest := some (.found manifest)
        profile := some (.complete { top := 27, height := 1475, length := 1215, gaps := 2, overrun := false })
        mass := some (.stable 102595) }
    let s := (holding .stopped .working bound (station .check)).setEval (some ev)
    StationSound s ∧ hasRole s .check = true ∧ s.eval = some ev ∧ (inputsOf ev).isSome = true ∧
      zoneEntryIn s .working = some (entry .working bound) ∧ (entry .working bound).record.track = ev.track ∧
      inService s = true ∧ roomFor 1 s = true := by
  and_intros <;> decide +kernel

/-! ### WRAP and LABEL -/

theorem test_witness_DominantClassHasTheLargestTotal :
    dominantClass goods = .caseUnit ∧ dominantClass [] = .keg ∧ dominantClass (goods.drop 1) = .tray := by
  and_intros <;> decide

/-- To be wrapped, to be labelled, skipped, of unknown origin, done before. -/
theorem test_witness_PalletsToWorkOnAreChosen :
    (∀ r ∈ [Role.wrap, .label], ∀ x ∈ [passed, { passed with wrap := none }, { passed with label := none }, fresh,
        freshRecord { origin := 2, seq := 1 } true],
      StationSound (holding .positioning .present x (station r)) ∧ active (holding .positioning .present x (station r)) = true ∧
        (holding .positioning .present x (station r)).zone.zstate = .positioning ∧
        zoneEntry (holding .positioning .present x (station r)) = some (entry .present x)) := by
  decide +kernel

/-- The pallet 1,201 at the wrapper in a handshake state. -/
def wrapping (h : Handshake) (attempt : Nat) : State :=
  let s := withPos (holding .stopped .working { passed with wrap := none, label := none } (station .wrap))
  s.setWrap { s.wrap with
    hs := h, attempt := attempt, recipe := 5
    startTimer := if h = .requested then some 300 else none
    wrapTimer := if h = .wrapping then some 18000 else none }

theorem test_witness_WrapperEdgesAreFollowed :
    (∀ s ∈ [wrapping .waiting 1, wrapping .requested 1, station .wrap,
        (wrapping .waiting 1).setWrap { (wrapping .waiting 1).wrap with abort := some 1 },
        ((station .wrap).setWrap { (station .wrap).wrap with abort := some 1 }).setService .starting,
        (((station .wrap).setWrap { (station .wrap).wrap with abort := some 1 }).setService .starting).setPins
          { (station .wrap).pins with wrFilm := true }],
      Settled s ∧ works s .wrap = true ∧ s.line.tx = []) := by
  decide +kernel

theorem test_witness_WrapsEndByTheRule :
    (∀ s ∈ [wrapping .requested 1, wrapping .requested 2, wrapping .wrapping 1, wrapping .wrapping 2, wrapping .waiting 1],
      StationSound s ∧ WrapSound s ∧ s.pins.safe = false ∧ (zoneEntryIn s .working).isSome = true ∧
        inService s = true ∧ roomFor 2 s = true) ∧
    (∀ s ∈ [wrapping .requested 1, wrapping .requested 2, wrapping .wrapping 1, wrapping .wrapping 2, wrapping .waiting 1],
      Settled s ∧ works s .wrap = true) := by
  and_intros <;> decide +kernel

/-- The pallet 1,201 at the labeller in a label state. -/
def labelling (l : LabelState) (attempt : Nat) : State :=
  let s := withPos (holding .stopped .working { passed with label := none } (station .label))
  let s1 := s.setReader { s.reader with window := if l = .verifying then .verify else .closed }
  s1.setLabel { s1.label with
    lstate := l, attempt := attempt, label := some { code := code, rows := [] }
    history := [{ inWindow := true, left := 9 }, { inWindow := true, left := 19 }, { inWindow := true, left := 29 },
                { inWindow := true, left := 39 }]
    printTimer := if l = .printing then some 500 else none
    applyTimer := if l = .applying then some 300 else none
    verifyTimer := if l = .verifying then some 400 else none }

theorem test_witness_EngineAnswersMoveTheLabelOn :
    (∀ s ∈ [labelling .printing 1, (labelling .printing 1).setPins { Pins.idle with safe := true, eyePos := true },
        labelling .printed 1, labelling .applying 1, labelling .waiting 1,
        ((station .label).setLabel { (station .label).label with abortWait := some 1, fault := true }).setService .starting],
      OfferingFollows s ∧ AcceptingFollows s ∧ RouteFollows s ∧ PermitSound s ∧ RoleFollows s ∧ works s .label = true ∧
        s.label.rxBuffer = [] ∧ s.label.rxOverlong = false) ∧
      (∀ k < 256, ([] : List RxChar) ≠ [some 0x46, some 0x54] ++ (decimal k).map some) := by
  and_intros <;> decide +kernel

theorem test_witness_LabelAttemptsFailByTheRule :
    (∀ l ∈ [LabelState.printing, .printed, .applying, .verifying], ∀ n ∈ [2, 3],
      StationSound (labelling l n) ∧ LabelSound (labelling l n) ∧ works (labelling l n) .label = true ∧
        (labelling l n).label.rxBuffer = [] ∧ (labelling l n).label.rxOverlong = false ∧
        (labelling l n).pins.safe = false ∧ (zoneEntryIn (labelling l n) .working).isSome = true ∧
        (labelling l n).cfg.label.attempts = 3 ∧ inService (labelling l n) = true ∧ roomFor 2 (labelling l n) = true) := by
  decide +kernel

theorem test_witness_VerifyReadDecidesTheLabel :
    (∀ n ∈ [2, 3], StationSound (labelling .verifying n) ∧ Settled (labelling .verifying n) ∧
      RoleFollows (labelling .verifying n) ∧ works (labelling .verifying n) .label = true ∧
      (labelling .verifying n).reader.window = .verify) ∧
      verifyRead (readerLine (asciiLine code) (labelling .verifying 2)) = some code ∧
      verifyRead (readerLine (asciiLine (code.drop 1)) (labelling .verifying 2)) = none ∧
      verifyRead (readerLine (asciiLine (code.drop 1 ++ [0])) (labelling .verifying 2)) = some (code.drop 1 ++ [0]) := by
  and_intros <;> decide +kernel

/-- Four starts in the window hold the fifth print back until the oldest leaves; and the same history with no label at work. -/
theorem test_witness_PrintsAreStartedByTheHistory :
    let s := labelling .waiting 2
    Settled s ∧ works s .label = true ∧ s.label.history = [] ++ { inWindow := true, left := 9 } :: s.label.history.drop 1 ∧
      s.label.label = some { code := code, rows := [] } ∧ s.label.lstate = .waiting ∧ s.service = .inService ∧
      s.label.fault = false ∧ s.label.abortWait = none ∧ s.pins.safe = false ∧
      ((s.label.history.drop 1).filter PrintStart.inWindow).length < 4 ∧
      (let x := (station .label).setLabel { (station .label).label with history := s.label.history }
       Settled x ∧ works x .label = true ∧ x.label.history = [] ++ { inWindow := true, left := 9 } :: s.label.history.drop 1 ∧
         x.label.lstate = .idle ∧ x.label.label = none) := by
  and_intros <;> decide +kernel

/-- SAFE# asserted while a print waits. -/
theorem test_witness_NothingIsPrintedWhileHalted :
    exec .safeAsserted (labelling .waiting 1) = .next (after .safeAsserted (labelling .waiting 1)) ∧
      Instr.safeAsserted ≠ .reset ∧ (after .safeAsserted (labelling .waiting 1)).pins.safe = true :=
  ⟨rfl, by decide, by decide +kernel⟩

/-! ### DISPATCH -/

/-- The pallet 1,201, for lane 1 alone, waits: the lane is full. -/
def waitingForLane : State :=
  let s := withPos (holding .stopped .done passed (station .dispatch))
  (s.setRoute { s.route with exitClass := some (.lane true false), laneWait := some 1 }).setPins
    { s.pins with lane1Full := true }

/-- A record that waits to be delivered, and one that a hold keeps, with and without its lane wait; a delivery under way, an
empty station, and one of another role. -/
theorem test_witness_WaitingRecordTakesTheExitThatOpens :
    let x : ExitClass := .lane true false
    let h := waitingForLane.setZone { waitingForLane.zone with holds := [{ node := 3, cause := .operator }] }
    let h1 := (h.setRoute { h.route with laneWait := none }).setPins { h.pins with lane1Full := false }
    (∀ s ∈ [waitingForLane, h, h1], StationSound s ∧ Settled s ∧ works s .dispatch = true ∧
      s.route.exitClass = some x ∧ zoneEntryIn s .done = some (entry .done passed)) ∧
      delivering waitingForLane = true ∧ delivering h = false ∧ delivering h1 = false ∧
      chooseExit (setLaneInput .lane1Full false waitingForLane.pins) waitingForLane.route.lastLane x = some .lane1 ∧
      chooseExit (setLaneInput .lane2Full true waitingForLane.pins) waitingForLane.route.lastLane x = none ∧
      waitingForLane.route.laneWait.isSome = true ∧ laneWaitOn h = true ∧ laneWaitOn h1 = false ∧
      h1.route.laneWait = none ∧ roomFor 1 waitingForLane = true ∧
      (let r := holding .releasing .releasing passed (waitingForLane.setRoute Route.atReset)
       StationSound r ∧ Settled r ∧ works r .dispatch = true ∧ r.zone.zstate = .releasing) ∧
      (StationSound (station .dispatch) ∧ Settled (station .dispatch) ∧ zoneEntryIn (station .dispatch) .done = none) ∧
      (StationSound (station .plain) ∧ Settled (station .plain) ∧ works (station .plain) .dispatch = false) := by
  and_intros <;> decide +kernel

theorem test_witness_ExitIsChosenByTheTests :
    (decide (dispatchCfg.duty1 = passed.duty) &&
      (decide (passed.laneClass = .any) || decide (passed.laneClass = dispatchCfg.letter1))) = true ∧
    (decide (dispatchCfg.duty2 = passed.duty) &&
      (decide (passed.laneClass = .any) || decide (passed.laneClass = dispatchCfg.letter2))) = false := by
  and_intros <;> decide

/-! ### Laws -/

/-- A state with a record, a command and a next state, for the laws that every step keeps. -/
theorem test_witness_StepsKeepTheStationSound :
    StationSound (expecting.setPending [.entryEyeBlocks]) ∧
      step (expecting.setPending [.entryEyeBlocks]) = .next (after .entryEyeBlocks (expecting.setPending [])) :=
  ⟨by decide +kernel, rfl⟩

theorem test_witness_StepsKeepTheQueuesAndSetsSound :
    LineSound eightNotices ∧ CheckSound working ∧ OwnHoldSound (station .plain) ∧
      step (eightNotices.setPending [.lineIdle]) = .next (after .lineIdle (eightNotices.setPending [])) :=
  ⟨by decide +kernel, by decide +kernel, by decide +kernel, rfl⟩

theorem test_witness_StepsKeepTheVerdictLaw :
    StationSound (working.setPending [.tagWaitExpiry]) ∧ EvalSound (working.setPending [.tagWaitExpiry]) ∧
      VerdictSound (working.setPending [.tagWaitExpiry]) ∧
      step (working.setPending [.tagWaitExpiry]) = .next (after .tagWaitExpiry (working.setPending [])) :=
  ⟨by decide +kernel, by decide +kernel, by decide +kernel, rfl⟩

theorem test_witness_StepsKeepTheMachinesSound :
    StationSound (labelling .printing 1) ∧ WrapSound (labelling .printing 1) ∧ LabelSound (labelling .printing 1) ∧
      StationSound (wrapping .requested 1) ∧ WrapSound (wrapping .requested 1) ∧ LabelSound (wrapping .requested 1) ∧
      step ((wrapping .requested 1).setPending [.wrRunRises]) =
        .next (after .wrRunRises ((wrapping .requested 1).setPending [])) :=
  ⟨by decide +kernel, by decide +kernel, by decide +kernel, by decide +kernel, by decide +kernel, by decide +kernel, rfl⟩

theorem test_witness_StepsLeaveNothingWaiting :
    StationSound (waitingForLane.setPending [.laneInputChange .lane1Full false]) ∧
      RouteSound (waitingForLane.setPending [.laneInputChange .lane1Full false]) ∧
      Settled (waitingForLane.setPending [.laneInputChange .lane1Full false]) ∧
      step (waitingForLane.setPending [.laneInputChange .lane1Full false]) =
        .next (after (.laneInputChange .lane1Full false) (waitingForLane.setPending [])) :=
  ⟨by decide +kernel, by decide +kernel, by decide +kernel, rfl⟩

/-- The clauses of an offering that begins with the last RESUME, and of a platform that ceases to be empty. -/
theorem test_witness_StepsLeaveNothingWaiting_begins :
    (let s := (heard (.resume 7) ((withPos (holding .stopped .done passed (station .plain))).setZone
       { (withPos (holding .stopped .done passed (station .plain))).zone with
         holds := [{ node := 7, cause := .operator }] })).setPending [.resumeReceived]
     let t := after .resumeReceived (s.setPending [])
     StationSound s ∧ RouteSound s ∧ Settled s ∧ offering s = false ∧ roomFor 3 s = true ∧ offering t = true ∧
       (headEntry t).isSome = true) ∧
    (let s := (withZone .inbound (station .check)).setPending [.entryEyeBlocks]
     let t := after .entryEyeBlocks (s.setPending [])
     StationSound s ∧ RouteSound s ∧ Settled s ∧ works s .check = true ∧ works t .check = true ∧
       platformEmpty t ≠ platformEmpty s) := by
  and_intros <;> decide +kernel

theorem test_witness_StepsLeaveNoWorkWaiting :
    StationSound (labelling .waiting 1) ∧ RoleFollows (labelling .waiting 1) ∧
      step ((labelling .waiting 1).setPending [.historyEntryLeavesWindow]) =
        .next (after .historyEntryLeavesWindow ((labelling .waiting 1).setPending [])) :=
  ⟨by decide +kernel, by decide +kernel, rfl⟩

/-- A DONE record, and an EXPECTED and a PRESENT one that stay as they are. -/
theorem test_witness_FinishedRecordsKeepTheirFields :
    (StationSound offeringState ∧ exec .positionEyeClears offeringState = .next (after .positionEyeClears offeringState) ∧
      Instr.positionEyeClears ≠ .clearReceived ∧ entry .done passed ∈ offeringState.table ∧
      entry .done passed ∈ (after .positionEyeClears offeringState).table) ∧
    (StationSound expecting ∧ exec .scanStart expecting = .next (after .scanStart expecting) ∧
      Instr.scanStart ≠ .clearReceived ∧ entry .expected passed ∈ expecting.table ∧
      entry .expected passed ∈ (after .scanStart expecting).table ∧
      expecting.slot.all (fun r => r.track != passed.track) = true) ∧
    StationSound (positioning .plain) ∧ entry .present fresh ∈ (positioning .plain).table :=
  ⟨⟨by decide +kernel, rfl, by decide, by decide +kernel, by decide +kernel⟩,
    ⟨by decide +kernel, rfl, by decide, by decide +kernel, by decide +kernel, by decide +kernel⟩,
    by decide +kernel, by decide +kernel⟩

end Sys2Proof.Tests
end

