-- ==== Proofs/Shape.lean ====
section
/-! PROOF. The shape of a sound station table: OUTBOUND entries, and behind them at most one entry, which is the zone record or
the EXPECTED entry as the zone state has it (R8, Table 2-1). -/

namespace Sys2Proof.Machine

/-! ## Tables that begin with OUTBOUND entries -/

/-- Every entry is OUTBOUND. -/
def allOutbound (T : List Entry) : Prop := ∀ e ∈ T, e.state = .outbound

theorem allOutbound_of_append {A B : List Entry} (h : allOutbound (A ++ B)) : allOutbound A :=
  fun e he => h e (List.mem_append_left B he)

/-- A test that OUTBOUND entries fail is decided by the entries behind them. -/
theorem find?_behind {outs l : List Entry} {p : Entry → Bool} (ho : allOutbound outs)
    (hp : ∀ e, e.state = .outbound → p e = false) : (outs ++ l).find? p = l.find? p := by
  rw [List.find?_append, List.find?_eq_none.2 (fun e he => by simp [hp e (ho e he)])]
  rfl

/-- A change that leaves OUTBOUND entries alone happens behind them. -/
theorem map_behind {outs l : List Entry} {f : Entry → Entry} (ho : allOutbound outs)
    (hf : ∀ e, e.state = .outbound → f e = e) : (outs ++ l).map f = outs ++ l.map f := by
  rw [List.map_append, List.map_congr_left (g := id) fun e he => hf e (ho e he), List.map_id]

/-- A choice that keeps OUTBOUND entries is made behind them. -/
theorem filter_behind {outs l : List Entry} {p : Entry → Bool} (ho : allOutbound outs)
    (hp : ∀ e, e.state = .outbound → p e = true) : (outs ++ l).filter p = outs ++ l.filter p := by
  rw [List.filter_append, List.filter_eq_self.2 (fun e he => hp e (ho e he))]

theorem inZone_of_outbound {e : Entry} (h : e.state = .outbound) : inZone e = false := by simp [inZone, isZoneState, h]

/-- A zone record is neither EXPECTED nor OUTBOUND (R8). -/
theorem inZone_iff {e : Entry} :
    inZone e = true ↔ e.state = .present ∨ e.state = .working ∨ e.state = .done ∨ e.state = .releasing := by
  simp [inZone, isZoneState, or_assoc]

theorem inZone_iff_ne {e : Entry} : inZone e = true ↔ e.state ≠ .expected ∧ e.state ≠ .outbound := by
  rw [inZone_iff]
  cases e.state <;> simp

/-- The states Table 2-1 allows are those of a zone record. -/
theorem inZone_of_allowed {z : ZoneState} {e : Entry} (h : zoneAllows z e.state = true) : inZone e = true := by
  rw [inZone_iff]
  cases z <;> cases he : e.state <;> simp_all [zoneAllows]

section find
variable {s : State} {outs l : List Entry}

theorem zoneEntry_of_table (hT : s.table = outs ++ l) (ho : allOutbound outs) : zoneEntry s = l.find? inZone := by
  rw [zoneEntry, hT, find?_behind ho fun e he => inZone_of_outbound he]

theorem headEntry_of_table (hT : s.table = outs ++ l) (ho : allOutbound outs) :
    headEntry s = l.find? (fun e => e.state != .outbound) := by
  rw [headEntry, hT, find?_behind ho fun e he => by simp [he]]

theorem expectedEntry_of_table (hT : s.table = outs ++ l) (ho : allOutbound outs) :
    expectedEntry s = l.find? (fun e => e.state = .expected) := by
  rw [expectedEntry, hT, find?_behind ho fun e he => by simp [he]]

theorem zoneEntryIn_of_table (hT : s.table = outs ++ l) (ho : allOutbound outs) {st : RecordState}
    (hst : st ≠ .outbound) : zoneEntryIn s st = l.find? (fun e => e.state = st) := by
  rw [zoneEntryIn, hT, find?_behind ho fun e he => by simp [he, hst.symm]]

/-- A change of the entry in a zone state, or of the EXPECTED one, happens behind the OUTBOUND entries. -/
theorem mapState_of_table (hT : s.table = outs ++ l) (ho : allOutbound outs) {st : RecordState} (hst : st ≠ .outbound)
    (f : Entry → Entry) :
    (mapState st f s).table = outs ++ l.map (fun e => if e.state = st then f e else e) := by
  rw [mapState_table, hT, map_behind ho fun e he => by simp [he, hst.symm]]

theorem moveState_of_table (hT : s.table = outs ++ l) (ho : allOutbound outs) {a : RecordState} (ha : a ≠ .outbound)
    (b : RecordState) :
    (moveState a b s).table = outs ++ l.map (fun e => if e.state = a then { e with state := b } else e) :=
  mapState_of_table hT ho ha _

theorem removeZoneRecord_of_table (hT : s.table = outs ++ l) (ho : allOutbound outs) :
    (removeZoneRecord s).table = outs ++ l.filter (fun e => !inZone e) := by
  rw [removeZoneRecord_table, hT, filter_behind ho fun e he => by simp [inZone_of_outbound he]]

end find

/-! ## The entry behind the OUTBOUND entries -/

/-- What may stand behind the OUTBOUND entries: nothing in an EMPTY zone and in INBOUND at CHECK, the EXPECTED entry in INBOUND
elsewhere, the zone record in a state that Table 2-1 allows in the other zone states. -/
def tailFits (chk : Bool) (z : ZoneState) : Option Entry → Prop
  | none => z = .empty ∨ (z = .inbound ∧ chk = true)
  | some e => (z = .inbound ∧ chk = false ∧ e.state = .expected) ∨ zoneAllows z e.state = true

/-- OUTBOUND entries and behind them what fits the zone state. -/
def Shaped (chk : Bool) (z : ZoneState) (T : List Entry) : Prop :=
  ∃ outs tail, T = outs ++ Option.toList tail ∧ allOutbound outs ∧ tailFits chk z tail

theorem tailFits_empty {chk : Bool} {tail : Option Entry} : tailFits chk .empty tail ↔ tail = none := by
  cases tail <;> simp [tailFits, zoneAllows]

theorem tailFits_positioning {chk : Bool} {tail : Option Entry} :
    tailFits chk .positioning tail ↔ ∃ e, tail = some e ∧ (e.state = .present ∨ e.state = .done) := by
  cases tail with
  | none => simp [tailFits]
  | some e => cases h : e.state <;> simp [tailFits, zoneAllows, h]

theorem tailFits_stopped {chk : Bool} {tail : Option Entry} :
    tailFits chk .stopped tail ↔ ∃ e, tail = some e ∧ (e.state = .working ∨ e.state = .done) := by
  cases tail with
  | none => simp [tailFits]
  | some e => cases h : e.state <;> simp [tailFits, zoneAllows, h]

theorem tailFits_releasing {chk : Bool} {tail : Option Entry} :
    tailFits chk .releasing tail ↔ ∃ e, tail = some e ∧ e.state = .releasing := by
  cases tail with
  | none => simp [tailFits]
  | some e => cases h : e.state <;> simp [tailFits, zoneAllows, h]

theorem tailFits_jammed {chk : Bool} {tail : Option Entry} :
    tailFits chk .jammed tail ↔
      ∃ e, tail = some e ∧ (e.state = .present ∨ e.state = .done ∨ e.state = .releasing) := by
  cases tail with
  | none => simp [tailFits]
  | some e => cases h : e.state <;> simp [tailFits, zoneAllows, h]

theorem tailFits_inbound_check {tail : Option Entry} : tailFits true .inbound tail ↔ tail = none := by
  cases tail <;> simp [tailFits, zoneAllows]

theorem tailFits_inbound {tail : Option Entry} :
    tailFits false .inbound tail ↔ ∃ e, tail = some e ∧ e.state = .expected := by
  cases tail <;> simp [tailFits, zoneAllows]

/-- No OUTBOUND entry fits behind the others. -/
theorem tailFits_not_outbound {chk : Bool} {z : ZoneState} {e : Entry} (h : tailFits chk z (some e)) :
    e.state ≠ .outbound := by
  intro he
  obtain ⟨-, -, hx⟩ | hz := h
  · simp [he] at hx
  · have := inZone_of_allowed hz
    simp [inZone_of_outbound he] at this

/-- The zone record is what stands behind the OUTBOUND entries in a zone that is not vacant. -/
theorem tailFits_zone {chk : Bool} {z : ZoneState} {tail : Option Entry} (h : tailFits chk z tail)
    (hz : z ≠ .empty ∧ z ≠ .inbound) : ∃ e, tail = some e ∧ inZone e = true ∧ zoneAllows z e.state = true := by
  cases tail with
  | none => simp_all [tailFits]
  | some e =>
    obtain ⟨hi, -⟩ | ha := h
    · exact absurd hi hz.2
    · exact ⟨e, rfl, inZone_of_allowed ha, ha⟩

/-- R8 and Table 2-1 together say that the table has this shape. -/
theorem ordered_and_agrees_iff (s : State) :
    tableOrdered s ∧ zoneAgrees s ↔ Shaped (hasRole s .check) s.zone.zstate s.table := by
  constructor
  · rintro ⟨hord, hzone, hsome, hexp, hinb⟩
    have hsplit := (List.takeWhile_append_dropWhile (p := fun e : Entry => decide (e.state = .outbound)) (l := s.table)).symm
    have ho : allOutbound (s.table.takeWhile fun e => decide (e.state = .outbound)) :=
      fun e he => by simpa using List.mem_takeWhile_imp he
    cases hd : s.table.dropWhile fun e => decide (e.state = .outbound) with
    | nil =>
      rw [hd] at hsplit
      refine ⟨_, none, hsplit, ho, ?_⟩
      rw [zoneEntry_of_table hsplit ho] at hsome
      rw [expectedEntry_of_table hsplit ho] at hinb
      clear hsplit
      cases hz : s.zone.zstate <;> simp_all [zoneVacant, tailFits]
    | cons x rest =>
      rw [hd] at hsplit
      have hx : x.state ≠ .outbound := by
        have := List.head?_dropWhile_not (fun e : Entry => decide (e.state = .outbound)) s.table
        simpa [hd] using this
      have hxm : x ∈ s.table := by rw [hsplit]; simp
      have hrest : rest = [] := by
        rw [List.eq_nil_iff_forall_not_mem]
        intro y hy
        have hym : y ∈ s.table := by rw [hsplit]; simp [hy]
        have hxy : olderThan x y = true := by
          have h := hord
          rw [tableOrdered, hsplit, List.pairwise_append] at h
          exact List.rel_of_pairwise_cons h.2.1 hy
        have hplace : placeOf y.state < placeOf x.state := by simpa [olderThan, hx] using hxy
        have hxe : x.state ≠ .expected := fun h => by simp [placeOf, h] at hplace
        have hye : y.state = .expected := by
          by_contra h
          revert hplace
          simp only [placeOf, hx, hxe, h, if_false]
          split <;> omega
        have h1 := hzone x hxm (inZone_iff_ne.2 ⟨hxe, hx⟩)
        rw [(hexp y hym hye).1] at h1
        simp [zoneAllows] at h1
      subst hrest
      refine ⟨_, some x, hsplit, ho, ?_⟩
      by_cases hxe : x.state = .expected
      · exact .inl ⟨(hexp x hxm hxe).1, (hexp x hxm hxe).2, hxe⟩
      · exact .inr (hzone x hxm (inZone_iff_ne.2 ⟨hxe, hx⟩))
  · rintro ⟨outs, tail, hT, ho, hfit⟩
    have hmem : ∀ e ∈ s.table, e.state ≠ .outbound → tail = some e := by
      intro e he hne
      rw [hT, List.mem_append] at he
      obtain he | he := he
      · exact absurd (ho e he) hne
      · simpa using he
    refine ⟨?_, ?_, ?_, ?_, ?_⟩
    · rw [tableOrdered, hT, List.pairwise_append]
      refine ⟨List.pairwise_of_forall_mem_list fun a ha b hb => by simp [olderThan, ho a ha, ho b hb],
        by cases tail <;> simp, fun a ha b hb => ?_⟩
      have hb' : tail = some b := by simpa using hb
      have hne : b.state ≠ .outbound := tailFits_not_outbound (hb' ▸ hfit)
      simp only [olderThan, ho a ha, placeOf, hne, if_false]
      cases h : b.state <;> simp_all
    · intro e he hz
      rw [hmem e he fun h => by simp [inZone_of_outbound h] at hz] at hfit
      obtain ⟨-, -, h⟩ | h := hfit
      · simp [inZone, isZoneState, h] at hz
      · exact h
    · intro hv
      rw [zoneVacant, Bool.or_eq_false_iff, decide_eq_false_iff_not, decide_eq_false_iff_not] at hv
      obtain ⟨e, rfl, hz, -⟩ := tailFits_zone hfit hv
      simp [zoneEntry_of_table hT ho, hz]
    · intro e he hx
      rw [hmem e he (by simp [hx])] at hfit
      obtain ⟨h1, h2, -⟩ | h := hfit
      · exact ⟨h1, h2⟩
      · have := inZone_of_allowed h
        simp [inZone, isZoneState, hx] at this
    · intro hi hc
      rw [hi, hc] at hfit
      obtain ⟨e, rfl, hx⟩ := tailFits_inbound.1 hfit
      simp [expectedEntry_of_table hT ho, hx]

/-- The laws of the station table and the zone, by the table's shape. -/
theorem stationSound_iff (s : State) : StationSound s ↔
    tableSound s ∧ Shaped (hasRole s .check) s.zone.zstate s.table ∧ idleWhenInactive s := by
  rw [StationSound, ← ordered_and_agrees_iff]
  tauto

/-- The shape of a sound station's table. -/
theorem StationSound.shape {s : State} (h : StationSound s) :
    ∃ outs tail, s.table = outs ++ Option.toList tail ∧ allOutbound outs ∧
      tailFits (hasRole s .check) s.zone.zstate tail :=
  ((stationSound_iff s).1 h).2.1

theorem StationSound.tracks {s : State} (h : StationSound s) : tableSound s := h.1

theorem StationSound.idle {s : State} (h : StationSound s) : idleWhenInactive s := h.2.2.2

/-- A station whose zone holds a pallet has its record behind the OUTBOUND entries. -/
theorem StationSound.shape_zone {s : State} (h : StationSound s) (hz : s.zone.zstate ≠ .empty ∧ s.zone.zstate ≠ .inbound) :
    ∃ outs e, s.table = outs ++ [e] ∧ allOutbound outs ∧ inZone e = true ∧ zoneAllows s.zone.zstate e.state = true := by
  obtain ⟨outs, tail, hT, ho, hfit⟩ := h.shape
  obtain ⟨e, rfl, hin, ha⟩ := tailFits_zone hfit hz
  exact ⟨outs, e, hT, ho, hin, ha⟩

/-- The laws read the role, the service state, the zone state, the table and the slot alone. -/
theorem stationSound_congr {s t : State} (h : StationSound s) (hs : t.service = s.service) (hc : t.cfg = s.cfg)
    (hz : t.zone.zstate = s.zone.zstate) (hT : t.table = s.table) (hl : t.slot = s.slot) : StationSound t := by
  rw [stationSound_iff] at h ⊢
  simp only [tableSound, tableTracks, idleWhenInactive, hT, hl, hz, hasRole_congr hc, active_congr hs] at h ⊢
  exact h

/-- An active station with such a table obeys the laws. -/
theorem stationSound_of_shape {t : State} {outs : List Entry} {tail : Option Entry} (ha : active t = true)
    (hts : tableSound t) (hT : t.table = outs ++ Option.toList tail) (ho : allOutbound outs)
    (hfit : tailFits (hasRole t .check) t.zone.zstate tail) : StationSound t :=
  (stationSound_iff t).2 ⟨hts, ⟨outs, tail, hT, ho, hfit⟩, fun h => by simp [ha] at h⟩

/-- A table that is a sound station's but for dropped entries and changed fields keeps the bound and the distinct tracks. -/
theorem tableSound_of_sublist {s t : State} (h : tableSound s)
    (hsub : (tableTracks t).Sublist (tableTracks s)) : tableSound t := by
  refine ⟨?_, h.2.sublist hsub⟩
  have := hsub.length_le
  simp only [tableTracks, List.length_map] at this
  exact this.trans h.1

end Sys2Proof.Machine
end

