-- ==== Proofs/Settling.lean ====
section
/-! PROOF. `settle`, step by step: what leaves it nothing to do, and which laws each of its steps keeps or brings about (R15,
R31 to R33, R89, R168 to R171). -/

namespace Sys2Proof.Machine

/-! ## States that agree where the conditions look -/

/-- Two states agree on every field that the conditions evaluated at the end of an event read, but for the offer repeat timer. -/
structure SameCore (s t : State) : Prop where
  service : t.service = s.service
  cfg : t.cfg = s.cfg
  table : t.table = s.table
  slot : t.slot = s.slot
  zstate : t.zone.zstate = s.zone.zstate
  holds : t.zone.holds = s.zone.holds
  route : t.route = s.route
  eyes : eyesClear t.pins = eyesClear s.pins
  exits : chooseExit t.pins = chooseExit s.pins
  fault : t.weigh.scaleFault = s.weigh.scaleFault
  postponed : t.weigh.postponed = s.weigh.postponed

namespace SameCore
variable {s t u : State}

theorem refl (s : State) : SameCore s s := ⟨rfl, rfl, rfl, rfl, rfl, rfl, rfl, rfl, rfl, rfl, rfl⟩

theorem trans (h : SameCore s t) (k : SameCore t u) : SameCore s u :=
  ⟨k.1.trans h.1, k.2.trans h.2, k.3.trans h.3, k.4.trans h.4, k.5.trans h.5, k.6.trans h.6, k.7.trans h.7, k.8.trans h.8,
    k.9.trans h.9, k.10.trans h.10, k.11.trans h.11⟩

theorem active (h : SameCore s t) : active t = active s := active_congr h.service
theorem role (h : SameCore s t) (r : Role) : hasRole t r = hasRole s r := hasRole_congr h.cfg r
theorem works (h : SameCore s t) (r : Role) : works t r = works s r := works_congr h.service h.cfg r
theorem offering (h : SameCore s t) : offering t = offering s :=
  offering_congr h.service h.cfg h.table h.zstate h.holds
theorem delivering (h : SameCore s t) : delivering t = delivering s :=
  delivering_congr h.service h.cfg h.table h.zstate h.holds
theorem accepting (h : SameCore s t) : accepting t = accepting s := by
  simp [Machine.accepting, inService_congr h.service, hasRole_congr h.cfg, expectedEntry_congr h.table,
    holdsEmpty_congr h.holds, zeroOverdue_congr h.postponed, h.eyes, h.table, h.zstate, h.fault]
theorem lacksExit (h : SameCore s t) : lacksExit t = lacksExit s := by
  simp [Machine.lacksExit, zoneEntryIn_congr h.table, h.route, h.exits]
theorem laneWaitOn (h : SameCore s t) : laneWaitOn t = laneWaitOn s := by simp [Machine.laneWaitOn, h.route]
theorem platformEmpty (h : SameCore s t) : platformEmpty t = platformEmpty s := by
  simp [Machine.platformEmpty, zoneEntry_congr h.table, h.eyes, h.zstate]

theorem stationSound (h : SameCore s t) (hs : StationSound s) : StationSound t :=
  stationSound_congr hs h.service h.cfg h.zstate h.table h.slot

theorem permitSound (h : SameCore s t) (hs : PermitSound s) : PermitSound t := by
  simpa [PermitSound, h.works, h.zstate, holdsEmpty_congr h.holds, h.fault, zeroOverdue_congr h.postponed] using hs

theorem acceptingFollows (h : SameCore s t) (hs : AcceptingFollows s) : AcceptingFollows t := by
  simpa [AcceptingFollows, h.role, h.slot, h.accepting] using hs

theorem routeFollows (h : SameCore s t) (hs : RouteFollows s) : RouteFollows t := by
  simpa [RouteFollows, h.delivering, h.lacksExit, h.laneWaitOn] using hs

theorem settled (h : SameCore s t) (ht : t.zone.offerTimer = s.zone.offerTimer) (hs : Settled s) : Settled t :=
  ⟨by simpa [OfferingFollows, h.offering, ht] using hs.1, h.acceptingFollows hs.2.1, h.routeFollows hs.2.2.1,
    h.permitSound hs.2.2.2⟩

end SameCore

/-- The law of the route reads the configuration, the table, the exit class and the route code. -/
theorem routeSound_congr {s t : State} (h : RouteSound s) (hc : t.cfg = s.cfg)
    (hr : (deliveredRecord t) = deliveredRecord s) (hx : t.route.exitClass = s.route.exitClass)
    (hcode : t.route.code = s.route.code) : RouteSound t := by
  simpa [RouteSound, hasRole_congr hc, hc, hr, hx, hcode] using h

theorem deliveredRecord_congr {s t : State} (h : t.table = s.table) : deliveredRecord t = deliveredRecord s := by
  simp [deliveredRecord, zoneEntry_congr h]

theorem SameCore.routeSound {s t : State} (h : SameCore s t) (hs : RouteSound s) : RouteSound t :=
  routeSound_congr hs h.cfg (deliveredRecord_congr h.table) (by rw [h.route]) (by rw [h.route])

/-! ## Roles and states that exclude each other -/

theorem active_of_inService {s : State} (h : inService s = true) : active s = true := by
  simp_all [active, inService]

theorem check_false_of_dispatch {s : State} (h : hasRole s .dispatch = true) : hasRole s .check = false :=
  hasRole_unique h (by decide)

theorem offering_false_of_zone {s : State} (h : s.zone.zstate ≠ .stopped) : offering s = false := by
  simp [offering, h]

theorem offering_false_of_dispatch {s : State} (h : hasRole s .dispatch = true) : offering s = false := by
  simp [offering, h]

theorem delivering_false_of_zone {s : State} (h : s.zone.zstate ≠ .stopped) : delivering s = false := by
  simp [delivering, h]

theorem delivering_false_of_role {s : State} (h : hasRole s .dispatch = false) : delivering s = false := by
  simp [delivering, h]

theorem accepting_false_of_zone {s : State} (h : s.zone.zstate ≠ .empty) : accepting s = false := by
  simp [accepting, h]

theorem accepting_zone {s : State} (h : accepting s = true) : s.zone.zstate = .empty := (accepting_iff.1 h).2.1

theorem not_offering_of_accepting {s : State} (h : accepting s = true) : offering s = false :=
  offering_false_of_zone (by simp [accepting_zone h])

/-- A PermitSound that speaks of CHECK in INBOUND says nothing of any other role or zone state. -/
theorem permitSound_of_zone {s : State} (h : s.zone.zstate ≠ .inbound) : PermitSound s := fun _ hz => absurd hz h

theorem permitSound_of_role {s : State} (h : hasRole s .check = false) : PermitSound s := fun hw => by
  simp [(works_iff _).1 hw |>.2] at h

/-! ## Steps that find nothing to do -/

theorem stopOffering_of {m : State} (h : m.zone.offerTimer.isSome = true → offering m = true) : stopOffering m = m := by
  obtain ⟨ht, ho, -⟩ | ⟨-, hm⟩ := stopOffering_cases m
  · simp [h ht] at ho
  · exact hm

theorem offerStep_of {m : State} (h : offering m = true → m.zone.offerTimer.isSome = true) : offerStep m = m := by
  obtain ⟨e, ho, ht, -⟩ | ⟨-, hm⟩ := offerStep_cases m
  · simp [ht] at h
    simp [h] at ho
  · exact hm

theorem permitStep_of_role {m : State} (h : hasRole m .check = false) : permitStep m = m := by simp [permitStep, h]

theorem permitStep_of {m : State} (ha : active m = true) (hp : PermitSound m)
    (hacc : hasRole m .check = true → accepting m = false) : permitStep m = m := by
  obtain ⟨hc, hz, hcease, -⟩ | ⟨hc, -, hn, -⟩ | hm := permitStep_cases m
  · have := hp ((works_iff _).2 ⟨ha, hc⟩) hz
    simp [permitCeases, this] at hcease
  · simp [hacc hc] at hn
  · exact hm

theorem slotStep_of {m : State} (h : m.slot.isSome = true → accepting m = false ∨ hasRole m .check = true) :
    slotStep m = m := by
  obtain ⟨r, hr, hc, ha, -⟩ | ⟨r, hr, hc, ha, -⟩ | hm := slotStep_cases m
  · simp [hr, ha, hc] at h
  · simp [hr, ha, hc] at h
  · exact hm

theorem windowStep_of_works {b m : State} (h : works m .check = false) : windowStep b m = m := by simp [windowStep, h]

theorem windowStep_of {b m : State} (h : works m .check = true → platformEmpty b = platformEmpty m) :
    windowStep b m = m := by
  unfold windowStep
  cases hw : works m .check <;> simp_all

theorem dropLaneWait_of {m : State} (h : laneWaitOn m = false) : dropLaneWait m = m := by
  obtain ⟨h1, h2⟩ := Bool.or_eq_false_iff.1 h
  have hr : ({ m.route with laneWait := none, waitExpired := false } : Route) = m.route := by
    cases hm : m.route; simp_all
  simp [dropLaneWait, hr]

theorem routeStep_of {m : State} (h : RouteFollows m) : routeStep m = m := by
  obtain hm | ⟨hd, hm⟩ | ⟨e, hd, hdel, hm⟩ := routeStep_cases m
  · exact hm
  · rw [hm]
    refine dropLaneWait_of (Bool.eq_false_iff.2 fun hw => ?_)
    have := h.2 hw
    simp [lacksExit, hd] at this
  · obtain ⟨hl, hw⟩ := h.1 hdel
    obtain ⟨-, x, hx, hno⟩ : (zoneEntryIn m .done).isSome = true ∧
        ∃ x, m.route.exitClass = some x ∧ chooseExit m.pins m.route.lastLane x = none := by
      simpa [lacksExit, Option.any_eq_true, and_comm] using hl
    have hdec : decideRoute e.record m = m := by simp [decideRoute, fixExitClass, hx, hno]
    obtain ⟨hl', -⟩ | ⟨-, hw', -⟩ | ⟨-, -, hs⟩ := watchLaneWait_cases m
    · simp [hl] at hl'
    · simp [hw] at hw'
    · rw [hm, hdec, hs]

/-- A state that nothing waits in stays as it is, but for the settle window when the platform has changed. -/
theorem settle_of_settled_window {b m : State} (ha : active m = true) (h : Settled m) : settle b m = windowStep b m := by
  obtain ⟨ho, hacc, hr, hp⟩ := h
  rw [settle_active ha, stopOffering_of (by rw [ho]; exact id), permitStep_of ha hp fun hc => hacc (.inl hc),
    routeStep_of hr, slotStep_of fun hs => .inl (hacc (.inr hs)), offerStep_of (by rw [ho]; exact id)]

theorem settle_of_settled {b m : State} (h : Settled m) (hb : works m .check = true → platformEmpty b = platformEmpty m) :
    settle b m = m := by
  cases ha : active m
  · exact settle_inactive ha
  · rw [settle_of_settled_window ha h, windowStep_of hb]

/-! ## The steps keep the laws of the station -/

@[simp] theorem stopOffering_zstate (s : State) : (stopOffering s).zone.zstate = s.zone.zstate := by
  obtain ⟨-, -, h⟩ | ⟨-, h⟩ := stopOffering_cases s <;> simp [h]

@[simp] theorem stopOffering_holds (s : State) : (stopOffering s).zone.holds = s.zone.holds := by
  obtain ⟨-, -, h⟩ | ⟨-, h⟩ := stopOffering_cases s <;> simp [h]

theorem sameCore_stopOffering (s : State) : SameCore s (stopOffering s) := by constructor <;> simp

theorem sameCore_endOffering (s : State) : SameCore s (endOffering s) := by constructor <;> simp

@[simp] theorem offerStep_zstate (s : State) : (offerStep s).zone.zstate = s.zone.zstate := by
  obtain ⟨e, -, -, -, h⟩ | ⟨-, h⟩ := offerStep_cases s <;> simp [h]

@[simp] theorem offerStep_holds (s : State) : (offerStep s).zone.holds = s.zone.holds := by
  obtain ⟨e, -, -, -, h⟩ | ⟨-, h⟩ := offerStep_cases s <;> simp [h]

theorem sameCore_offerStep (s : State) : SameCore s (offerStep s) := by constructor <;> simp

@[simp] theorem windowStep_scaleFault (b s : State) : (windowStep b s).weigh.scaleFault = s.weigh.scaleFault := by
  obtain h | h := windowStep_cases b s <;> simp [h, emptyWindow]

@[simp] theorem windowStep_postponed (b s : State) : (windowStep b s).weigh.postponed = s.weigh.postponed := by
  obtain h | h := windowStep_cases b s <;> simp [h, emptyWindow]

theorem sameCore_windowStep (b s : State) : SameCore s (windowStep b s) := by constructor <;> simp

/-- The permit is the zone state INBOUND at CHECK, which has no record in the zone either way (R25, R32). -/
theorem StationSound.permitStep {s : State} (h : StationSound s) : StationSound (permitStep s) := by
  obtain ⟨outs, tail, hT, ho, hfit⟩ := h.shape
  obtain ⟨hc, hz, -, hp⟩ | ⟨hc, -, hacc, hp⟩ | hp := permitStep_cases s
  · rw [hz, hc, tailFits_inbound_check] at hfit
    rw [hp, stationSound_iff]
    exact ⟨h.tracks, ⟨outs, tail, hT, ho, tailFits_empty.2 hfit⟩, fun ha => ⟨(h.idle ha).1, (h.idle ha).2.1, rfl⟩⟩
  · rw [accepting_zone hacc, tailFits_empty] at hfit
    rw [hp]
    refine stationSound_of_shape (tail := tail) (active_of_inService (accepting_iff.1 hacc).1) h.tracks hT ho ?_
    rw [hasRole_congr (s := s) (by simp), hc, hfit]
    exact .inr ⟨rfl, rfl⟩
  · rwa [hp]

/-- A table takes one more entry at its tail, with a track of its own. -/
theorem tableSound_append {s t : State} {e : Entry} (h : tableSound s) (hT : t.table = s.table ++ [e])
    (hlen : s.table.length < Config.tableCapacity) (hk : ∀ x ∈ s.table, x.record.track ≠ e.record.track) :
    tableSound t := by
  refine ⟨by simpa [hT] using hlen, ?_⟩
  rw [tableTracks, hT, List.map_append, List.nodup_append]
  refine ⟨h.2, by simp, ?_⟩
  simpa [tableTracks] using hk

theorem entryOf_eq_none {s : State} {k : Track} : entryOf s k = none ↔ ∀ x ∈ s.table, x.record.track ≠ k := by
  simp [entryOf]

/-- An accepted OFFER stands EXPECTED at the tail of an INBOUND zone (R10). -/
theorem StationSound.acceptOffer {s : State} {r : TravelRecord} (h : StationSound s) (hc : hasRole s .check = false)
    (hacc : accepting s = true) (hk : entryOf s r.track = none) : StationSound (acceptOffer r s) := by
  obtain ⟨outs, tail, hT, ho, hfit⟩ := h.shape
  obtain ⟨hin, hz, -, -, hlen, -⟩ := accepting_iff.1 hacc
  rw [hz, tailFits_empty] at hfit
  subst hfit
  refine stationSound_of_shape (outs := outs) (tail := some (acceptedEntry s r))
    (by rw [active_congr (s := s) (by simp)]; exact active_of_inService hin)
    (tableSound_append h.tracks (acceptOffer_table r s) hlen (entryOf_eq_none.1 hk)) (by simp [hT]) ho ?_
  rw [hasRole_congr (s := s) (by simp), hc]
  simp [tailFits_inbound, acceptedEntry]

theorem StationSound.slotStep {s : State} (h : StationSound s) : StationSound (slotStep s) := by
  obtain ⟨r, -, hc, hacc, hk, hs⟩ | ⟨r, -, -, hacc, -, hs⟩ | hs := slotStep_cases s
  · rw [hs]; exact h.acceptOffer hc hacc hk
  · rw [hs]
    obtain ⟨outs, tail, hT, ho, hfit⟩ := h.shape
    have hin : active s = true := active_of_inService (accepting_iff.1 hacc).1
    refine stationSound_of_shape (outs := outs) (tail := tail) (by simpa [active] using hin)
      (tableSound_of_sublist h.tracks ?_) (by simpa using hT) ho (by simpa [hasRole] using hfit)
    simp [tableTracks]
  · rwa [hs]

/-! ## The route -/

/-- What a delivery that begins does to the table, zone and route (R172). -/
theorem startDelivery_eq (exit : RouteCode) (s : State) : startDelivery exit s =
    ((moveState .done .releasing s).setRoute { s.route with code := exit }).setZone
      { s.zone with zstate := .releasing, exitSeen := s.pins.eyeExit, releaseTimer := some s.cfg.timing.release } := rfl

/-- The first decision fixes the exit class and touches the route and the queue alone (R168). -/
theorem fixExitClass_route (r : TravelRecord) (s : State) :
    (fixExitClass r s).route = { s.route with exitClass := some (s.route.exitClass.getD (exitClassOf s.cfg.dispatch r)) } := by
  simp only [fixExitClass]
  cases hx : s.route.exitClass with
  | some x => cases hr : s.route; simp_all
  | none => simp only [Option.isSome_none, Bool.false_eq_true, if_false, Option.getD_none]; split <;> simp

theorem sameTableZone_fixExitClass (r : TravelRecord) (s : State) :
    (fixExitClass r s).table = s.table ∧ (fixExitClass r s).zone = s.zone ∧ (fixExitClass r s).pins = s.pins := by
  simp

/-- A decision begins a delivery to the exit it finds, or leaves the record waiting with its exit class fixed (R168, R170). -/
theorem decideRoute_cases (r : TravelRecord) (s : State) :
    (∃ x exit, (fixExitClass r s).route.exitClass = some x ∧ chooseExit s.pins s.route.lastLane x = some exit ∧
      decideRoute r s = startDelivery exit (fixExitClass r s)) ∨
    (∃ x, (fixExitClass r s).route.exitClass = some x ∧ chooseExit s.pins s.route.lastLane x = none ∧
      decideRoute r s = fixExitClass r s) := by
  have hx : (fixExitClass r s).route.exitClass = some (s.route.exitClass.getD (exitClassOf s.cfg.dispatch r)) := by
    rw [fixExitClass_route]
  have hl : (fixExitClass r s).route.lastLane = s.route.lastLane := by rw [fixExitClass_route]
  simp only [decideRoute, hx, hl, Option.bind_some, fixExitClass_pins]
  cases hch : chooseExit s.pins s.route.lastLane (s.route.exitClass.getD (exitClassOf s.cfg.dispatch r)) with
  | some exit => exact .inl ⟨_, exit, rfl, hch, rfl⟩
  | none => exact .inr ⟨_, rfl, hch, rfl⟩

/-- The DONE record of a STOPPED zone starts to leave. -/
theorem StationSound.startDelivery {s : State} {e : Entry} {exit : RouteCode} (h : StationSound s)
    (hz : s.zone.zstate = .stopped) (hd : zoneEntryIn s .done = some e) : StationSound (startDelivery exit s) := by
  obtain ⟨outs, tail, hT, ho, hfit⟩ := h.shape
  have ha : active s = true := by
    by_contra hn
    have := (h.idle (by simpa using hn)).2.2
    simp [hz] at this
  rw [hz, tailFits_stopped] at hfit
  obtain ⟨e', rfl, -⟩ := hfit
  have he : e'.state = .done := by
    by_contra hn
    simp [zoneEntryIn_of_table hT ho (show RecordState.done ≠ .outbound by decide), hn] at hd
  have hT' : (moveState .done .releasing s).table = outs ++ [{ e' with state := .releasing }] := by
    rw [moveState_of_table hT ho (by decide)]
    simp [he]
  refine stationSound_of_shape (outs := outs) (tail := some { e' with state := .releasing }) ha
    (tableSound_of_sublist h.tracks ?_) (by rw [startDelivery_eq]; exact hT') ho ?_
  · have : tableTracks (Machine.startDelivery exit s) = tableTracks s := by
      simp only [tableTracks, startDelivery_eq, State.setZone_table, State.setRoute_table, hT', hT]
      simp
    rw [this]
  · simp [startDelivery_eq, tailFits_releasing]

theorem StationSound.fixExitClass {s : State} (h : StationSound s) (r : TravelRecord) : StationSound (fixExitClass r s) :=
  stationSound_congr h (by simp) (by simp) (by simp) (by simp) (by simp)

theorem StationSound.watchLaneWait {s : State} (h : StationSound s) : StationSound (watchLaneWait s) :=
  stationSound_congr h (by simp) (by simp) (by simp) (by simp) (by simp)

/-- The delivery conditions, one by one (R169). -/
theorem delivering_iff {s : State} : delivering s = true ↔ hasRole s .dispatch = true ∧ inService s = true ∧
    (zoneEntryIn s .done).isSome = true ∧ s.zone.zstate = .stopped ∧ holdsEmpty s = true := by
  simp [delivering, and_assoc]

theorem StationSound.routeStep {s : State} (h : StationSound s) : StationSound (routeStep s) := by
  obtain hs | ⟨-, hs⟩ | ⟨e, hd, hdel, hs⟩ := routeStep_cases s
  · rwa [hs]
  · rw [hs]
    exact stationSound_congr h rfl rfl rfl rfl rfl
  · rw [hs]
    refine StationSound.watchLaneWait ?_
    obtain ⟨x, exit, -, -, hdec⟩ | ⟨x, -, -, hdec⟩ := decideRoute_cases e.record s
    · rw [hdec]
      refine (h.fixExitClass e.record).startDelivery (e := e) ?_ ?_
      · simp [(delivering_iff.1 hdel).2.2.2.1]
      · rw [zoneEntryIn_congr (s := s) (by simp), hd]
    · rw [hdec]
      exact h.fixExitClass e.record

/-- Whatever is evaluated afresh, the laws of the station table and the zone stay. -/
theorem StationSound.settle {b m : State} (h : StationSound m) : StationSound (settle b m) := by
  cases ha : active m
  · rwa [settle_inactive ha]
  · rw [settle_active ha]
    refine (sameCore_windowStep _ _).stationSound ((sameCore_offerStep _).stationSound ?_)
    exact ((sameCore_stopOffering m).stationSound h).permitStep.routeStep.slotStep

/-! ## What settling brings about -/

/-- The lane wait of a DONE record waits for an exit it lacks; DISPATCH drops one that stays behind without a DONE record. -/
def RouteWaits (m : State) : Prop :=
  laneWaitOn m = true → lacksExit m = true ∨ (hasRole m .dispatch = true ∧ zoneEntryIn m .done = none)

theorem RouteFollows.waits {m : State} (h : RouteFollows m) : RouteWaits m := fun hw => .inl (h.2 hw)

theorem SameCore.routeWaits {s t : State} (h : SameCore s t) (hs : RouteWaits s) : RouteWaits t := by
  simpa [RouteWaits, h.laneWaitOn, h.lacksExit, h.role, zoneEntryIn_congr h.table] using hs

/-- Where the permit is evaluated, no CHECK zone stays EMPTY that could accept, and none INBOUND that could not (R32). -/
theorem permitStep_permits (s : State) :
    PermitSound (permitStep s) ∧ (hasRole s .check = true → accepting (permitStep s) = false) := by
  cases hc : hasRole s .check
  · rw [permitStep_of_role hc]
    exact ⟨permitSound_of_role hc, by simp⟩
  · by_cases hz : s.zone.zstate = .inbound
    · cases hp : permitCeases s
      · have hs : permitStep s = s := by simp [permitStep, hc, hz, hp]
        rw [hs]
        refine ⟨fun _ _ => ?_, fun _ => accepting_false_of_zone (by simp [hz])⟩
        simpa [permitCeases, and_assoc] using hp
      · have hs : permitStep s = setZoneState .empty s := by simp [permitStep, hc, hz, hp]
        rw [hs]
        refine ⟨permitSound_of_zone (by simp [setZoneState]), fun _ => Bool.eq_false_iff.2 fun hn => ?_⟩
        obtain ⟨-, -, -, -, -, hh, hf⟩ := accepting_iff.1 hn
        obtain ⟨h1, h2⟩ := hf hc
        simp [permitCeases, show holdsEmpty s = true from hh, show s.weigh.scaleFault = false from h1,
          show zeroOverdue s = false from h2] at hp
    · cases ha : accepting s
      · have hs : permitStep s = s := by simp [permitStep, hc, hz, ha]
        rw [hs]
        exact ⟨permitSound_of_zone hz, fun _ => ha⟩
      · have hs : permitStep s = setZoneState .inbound s := by simp [permitStep, hc, hz, ha]
        rw [hs]
        obtain ⟨-, -, -, -, -, hh, hf⟩ := accepting_iff.1 ha
        exact ⟨fun _ _ => ⟨hh, hf hc⟩, fun _ => accepting_false_of_zone (by simp [setZoneState])⟩

/-- Where the slot is evaluated, no OFFER stays in it that could be accepted (R15). -/
theorem slotStep_follows {s : State} (h : hasRole s .check = true → accepting s = false) :
    AcceptingFollows (slotStep s) := by
  obtain ⟨r, -, hc, -, -, hs⟩ | ⟨r, hr, hc, ha, -, hs⟩ | hs := slotStep_cases s
  · rw [hs]
    exact fun _ => accepting_false_of_zone (by simp)
  · rw [hs]
    rintro (hcheck | hslot)
    · simp [hasRole_congr (s := s) (t := notify _ (s.setSlot none)), hc] at hcheck
    · simp at hslot
  · rw [hs]
    rintro (hcheck | hslot)
    · exact h hcheck
    · cases hc : hasRole s .check
      · refine Bool.eq_false_iff.2 fun ha => ?_
        obtain ⟨r, hr⟩ := Option.isSome_iff_exists.1 hslot
        have hself := congrArg State.slot hs
        cases hk : entryOf s r.track <;> simp [slotStep, hr, hc, ha, hk] at hself
      · exact h hc

/-- The route evaluated: a record that could be delivered waits for want of an exit, with its lane wait (R169, R171). -/
theorem routeStep_follows {s : State} (h : RouteWaits s) : RouteFollows (routeStep s) := by
  cases hdisp : hasRole s .dispatch
  · rw [routeStep_of_not_dispatch hdisp]
    refine ⟨fun hd => by simp [delivering_false_of_role hdisp] at hd, fun hw => (h hw).resolve_right ?_⟩
    simp [hdisp]
  · cases hd : zoneEntryIn s .done with
    | none =>
      have hs : routeStep s = dropLaneWait s := by simp [routeStep, hdisp, hd]
      rw [hs]
      refine ⟨fun hdel => ?_, fun hw => by simp [laneWaitOn] at hw⟩
      have := (delivering_iff.1 hdel).2.2.1
      simp [zoneEntryIn_congr (s := s) (t := dropLaneWait s) rfl, hd] at this
    | some e =>
      cases hdel : delivering s
      · have hs : routeStep s = s := by simp [routeStep, hdisp, hd, hdel]
        rw [hs]
        exact ⟨fun hn => by simp [hdel] at hn, fun hw => (h hw).resolve_right (by simp [hd])⟩
      · have hs : routeStep s = watchLaneWait (decideRoute e.record s) := by simp [routeStep, hdisp, hd, hdel]
        have hwait : delivering (decideRoute e.record s) = true → lacksExit (decideRoute e.record s) = true := by
          obtain ⟨x, exit, -, -, hdec⟩ | ⟨x, hx, hno, hdec⟩ := decideRoute_cases e.record s
          · rw [hdec]
            intro hn
            have := (delivering_iff.1 hn).2.2.2.1
            simp [startDelivery_eq] at this
          · rw [hdec]
            intro hn
            have hl : (Machine.fixExitClass e.record s).route.lastLane = s.route.lastLane := by rw [fixExitClass_route]
            simp [lacksExit, (delivering_iff.1 hn).2.2.1, hx, hl, hno]
        rw [hs]
        have hdd : ∀ u : State, delivering (watchLaneWait u) = delivering u := fun u =>
          delivering_congr (by simp) (by simp) (by simp) (by simp) (by simp)
        have hll : ∀ u : State, lacksExit (watchLaneWait u) = lacksExit u := fun u => by
          obtain ⟨-, hu⟩ | ⟨-, -, hu⟩ | ⟨-, -, hu⟩ := watchLaneWait_cases u <;> simp [hu, lacksExit, zoneEntryIn]
        rw [RouteFollows, hdd, hll]
        obtain ⟨hl, hu⟩ | ⟨hl, -, hu⟩ | ⟨hl, hw, hu⟩ := watchLaneWait_cases (decideRoute e.record s)
        · refine ⟨fun hn => by simp [hwait hn] at hl, fun hw => ?_⟩
          rw [hu] at hw
          simp [laneWaitOn] at hw
        · exact ⟨fun _ => ⟨hl, by simp [hu, laneWaitOn]⟩, fun _ => hl⟩
        · exact ⟨fun _ => ⟨hl, by rw [hu]; exact hw⟩, fun _ => hl⟩

@[simp] theorem routeStep_offerTimer (s : State) : (routeStep s).zone.offerTimer = s.zone.offerTimer := by
  obtain h | ⟨-, h⟩ | ⟨e, -, -, h⟩ := routeStep_cases s
  · rw [h]
  · rw [h]; rfl
  · rw [h]
    obtain ⟨x, exit, -, -, hd⟩ | ⟨x, -, -, hd⟩ := decideRoute_cases e.record s <;> simp [hd, startDelivery_eq]

@[simp] theorem permitStep_offerTimer (s : State) : (permitStep s).zone.offerTimer = s.zone.offerTimer := by
  obtain ⟨-, -, -, h⟩ | ⟨-, -, -, h⟩ | h := permitStep_cases s <;> simp [h, setZoneState]

@[simp] theorem slotStep_offerTimer (s : State) : (slotStep s).zone.offerTimer = s.zone.offerTimer := by
  obtain ⟨r, -, -, -, -, h⟩ | ⟨r, -, -, -, -, h⟩ | h := slotStep_cases s <;> simp [h]

/-- The permit, the route and the slot are evaluated where nothing is offered, and let nothing be offered. -/
theorem offering_middle (s : State) : offering (slotStep (routeStep (permitStep s))) = offering s := by
  have h1 : offering (permitStep s) = offering s := by
    obtain ⟨-, hz, -, h⟩ | ⟨-, -, ha, h⟩ | h := permitStep_cases s
    · rw [h, offering_false_of_zone (s := s) (by simp [hz]), offering_false_of_zone (by simp [setZoneState])]
    · rw [h, not_offering_of_accepting ha, offering_false_of_zone (by simp [setZoneState])]
    · rw [h]
  have h2 : ∀ u : State, offering (routeStep u) = offering u := fun u => by
    cases hd : hasRole u .dispatch
    · rw [routeStep_of_not_dispatch hd]
    · rw [offering_false_of_dispatch hd, offering_false_of_dispatch (by simpa [hasRole] using hd)]
  have h3 : ∀ u : State, offering (slotStep u) = offering u := fun u => by
    obtain ⟨r, -, -, ha, -, h⟩ | ⟨r, -, -, ha, -, h⟩ | h := slotStep_cases u
    · rw [h, not_offering_of_accepting ha, offering_false_of_zone (by simp)]
    · rw [h]
      exact offering_congr (by simp) (by simp) (by simp) (by simp) (by simp)
    · rw [h]
  rw [h3, h2, h1]

/-- Offering evaluated last leaves the repeat timer running exactly while the station offers (R33). -/
theorem offerStep_follows {s : State} (h : s.zone.offerTimer.isSome = true → offering s = true) :
    OfferingFollows (offerStep s) := by
  rw [OfferingFollows, (sameCore_offerStep s).offering]
  obtain ⟨e, ho, -, -, hs⟩ | ⟨hor, hs⟩ := offerStep_cases s
  · simp [hs, ho]
  · rw [hs]
    cases ho : offering s <;> cases ht : s.zone.offerTimer <;> simp_all

theorem stopOffering_timer (s : State) : (stopOffering s).zone.offerTimer.isSome = true → offering (stopOffering s) = true := by
  rw [(sameCore_stopOffering s).offering]
  obtain ⟨-, -, h⟩ | ⟨ho, h⟩ := stopOffering_cases s
  · simp [h]
  · rw [h]
    obtain hn | ho := ho
    · simp [hn]
    · simp [ho]

/-- At the end of an event of an active station nothing that could happen is left waiting. -/
theorem settled_settle {b m : State} (ha : active m = true) (h : RouteWaits m) : Settled (settle b m) := by
  rw [settle_active ha]
  refine (sameCore_windowStep _ _).settled (by simp) ?_
  obtain ⟨hperm, hchk⟩ := permitStep_permits (stopOffering m)
  have hroute : RouteFollows (routeStep (permitStep (stopOffering m))) := by
    refine routeStep_follows ?_
    have hsc := (sameCore_stopOffering m).routeWaits h
    intro hw
    have := hsc (by simpa [laneWaitOn] using hw)
    simpa [lacksExit, hasRole_congr (s := stopOffering m) (t := permitStep (stopOffering m)), zoneEntryIn] using this
  have hchk' : hasRole (routeStep (permitStep (stopOffering m))) .check = true →
      accepting (routeStep (permitStep (stopOffering m))) = false := fun hc => by
    have hc' : hasRole (stopOffering m) .check = true := by simpa [hasRole] using hc
    rw [routeStep_of_not_dispatch (not_dispatch_of_check (by simpa [hasRole] using hc'))]
    exact hchk hc'
  have hperm' : PermitSound (routeStep (permitStep (stopOffering m))) := by
    cases hd : hasRole (permitStep (stopOffering m)) .dispatch
    · rwa [routeStep_of_not_dispatch hd]
    · refine permitSound_of_role (check_false_of_dispatch ?_)
      simpa [hasRole] using hd
  generalize hu : routeStep (permitStep (stopOffering m)) = u at hroute hchk' hperm'
  refine ⟨?_, ?_, ?_, ?_⟩
  · refine offerStep_follows fun ht => ?_
    rw [← hu] at ht ⊢
    rw [offering_middle]
    simpa using stopOffering_timer m (by simpa using ht)
  · exact (sameCore_offerStep _).acceptingFollows (slotStep_follows hchk')
  · refine (sameCore_offerStep _).routeFollows ?_
    obtain ⟨r, -, -, ha, -, h⟩ | ⟨r, -, -, -, -, h⟩ | h := slotStep_cases u
    · rw [h]
      have hz := accepting_zone ha
      refine ⟨fun hn => by simp [delivering_false_of_zone (s := acceptOffer r u) (by simp)] at hn, fun hw => ?_⟩
      have := hroute.2 (by simpa [laneWaitOn] using hw)
      simp only [lacksExit, zoneEntryIn, acceptOffer_table, acceptOffer_route, acceptOffer_pins, Bool.and_eq_true] at this ⊢
      exact ⟨by simp [this.1], this.2⟩
    · rw [h]
      have hd : delivering (notify (.duplicateTrack r.track) (u.setSlot none)) = delivering u :=
        delivering_congr (by simp) (by simp) (by simp) (by simp) (by simp)
      have hl : lacksExit (notify (.duplicateTrack r.track) (u.setSlot none)) = lacksExit u := by
        simp [lacksExit, zoneEntryIn]
      simpa [RouteFollows, hd, hl, laneWaitOn] using hroute
    · rwa [h]
  · refine (sameCore_offerStep _).permitSound ?_
    obtain ⟨r, -, hc, -, -, h⟩ | ⟨r, -, hc, -, -, h⟩ | h := slotStep_cases u
    · rw [h]
      exact permitSound_of_role (by simpa [hasRole] using hc)
    · rw [h]
      exact permitSound_of_role (by simpa [hasRole] using hc)
    · rwa [h]

end Sys2Proof.Machine
end

