-- ==== Proofs/Offers.lean ====
section
/-! PROOF. When a frame handed to the Line Controller is sure to stand in the queue (R60), and the OFFER with which offering begins
(R33). -/

namespace Sys2Proof.Machine

/-! ## Room in the transmit queue -/

/-- A frame that is no OFFER replaces none. -/
theorem holdsOffer_of_not_offer {f : TxFrame} (h : offerTrack f = none) (q : List TxEntry) : holdsOffer f q = false := by
  simp only [holdsOffer, h, List.any_eq_false, Bool.and_eq_true, decide_eq_true_eq]
  rintro e - ⟨h1, h2⟩
  simp [h2] at h1

/-- A frame that is no OFFER takes a free place (R59). -/
theorem pushFrame_room {f : TxFrame} {l : LineCtl} (h : offerTrack f = none) (hroom : l.tx.length < Config.txCapacity) :
    pushFrame f l = { l with tx := insertTx (freshTx f) l.tx } := by
  simp [pushFrame, holdsOffer_of_not_offer h, hroom]

theorem mayQueue_of_inService {s : State} (h : inService s = true) (f : TxFrame) : mayQueue s f = true := by
  simp [mayQueue, h]

theorem queueFrame_room {f : TxFrame} {s : State} (hin : inService s = true) (h : offerTrack f = none)
    (hroom : s.line.tx.length < Config.txCapacity) :
    queueFrame f s = s.setLine { s.line with tx := insertTx (freshTx f) s.line.tx } := by
  simp [queueFrame, mayQueue_of_inService hin, pushFrame_room h hroom]

/-- Outside IN_SERVICE only OUT_OF_SERVICE queues, and only a STATUS (R61). -/
theorem queueFrame_of_starting {f : TxFrame} {s : State} (h : inService s = false) (hf : f ≠ .status) :
    queueFrame f s = s := by simp [queueFrame, mayQueue, h, hf]

theorem greatestClass_le {q : List TxEntry} {e : TxEntry} (he : e ∈ q) (hd : droppable e = true) :
    txClass e.frame ≤ greatestClass q := by
  have key : ∀ (l : List Nat) (a : Nat), a ≤ l.foldl max a ∧ ∀ x ∈ l, x ≤ l.foldl max a := by
    intro l
    induction l with
    | nil => simp
    | cons y l ih =>
      intro a
      obtain ⟨h1, h2⟩ := ih (max a y)
      refine ⟨(Nat.le_max_left a y).trans h1, fun x hx => ?_⟩
      obtain rfl | hx := List.mem_cons.1 hx
      · exact (Nat.le_max_right a x).trans h1
      · exact h2 x hx
  exact (key _ 0).2 _ (List.mem_map.2 ⟨e, List.mem_filter.2 ⟨he, hd⟩, rfl⟩)

/-- A class that may be dropped is that of an entry. -/
theorem exists_of_greatestClass {q : List TxEntry} (h : 0 < greatestClass q) :
    ∃ e ∈ q, droppable e = true ∧ txClass e.frame = greatestClass q := by
  have key : ∀ (l : List Nat) (a : Nat), l.foldl max a = a ∨ l.foldl max a ∈ l := by
    intro l
    induction l with
    | nil => simp
    | cons y l ih =>
      intro a
      obtain h | h := ih (max a y)
      · rw [List.foldl_cons, h]
        obtain hm | hm := max_choice a y <;> simp [hm]
      · exact .inr (List.mem_cons_of_mem _ h)
  obtain h0 | hm := key ((q.filter droppable).map fun e => txClass e.frame) 0
  · simp [greatestClass, h0] at h
  · obtain ⟨e, he, hc⟩ := List.mem_map.1 hm
    obtain ⟨hq, hd⟩ := List.mem_filter.1 he
    exact ⟨e, hq, hd, hc⟩

theorem dropYoungest_length {q : List TxEntry} (h : 0 < greatestClass q) :
    (dropYoungest (greatestClass q) q).length + 1 = q.length := by
  obtain ⟨e, he, hd, hc⟩ := exists_of_greatestClass h
  have hlen := List.length_eraseP_of_mem (p := fun e => droppable e && txClass e.frame = greatestClass q)
    (l := q.reverse) (a := e) (by simpa using he) (by simp [hd, hc])
  have hpos : 0 < q.length := List.length_pos_of_mem he
  simp only [dropYoungest, List.length_reverse] at hlen ⊢
  omega

/-- The queue is within its bound, and an OFFER is sure of a place: a free one, or that of a frame that it precedes. -/
def RoomForOffer (l : LineCtl) : Prop :=
  l.tx.length ≤ Config.txCapacity ∧
    (l.tx.length < Config.txCapacity ∨ ∃ e ∈ l.tx, droppable e = true ∧ 2 ≤ txClass e.frame)

/-- A queue with a free place after `n` more. -/
theorem roomForOffer_of_lt {l : LineCtl} (h : l.tx.length < Config.txCapacity) : RoomForOffer l := ⟨h.le, .inl h⟩

/-- A frame of class 2 or 3 leaves the place of an OFFER, its own if need be. -/
theorem RoomForOffer.pushFrame {f : TxFrame} {l : LineCtl} (h : RoomForOffer l) (hf : 2 ≤ txClass f)
    (hh : f ≠ .hello) : RoomForOffer (pushFrame f l) := by
  have hno : offerTrack f = none := by cases f <;> simp_all [offerTrack, txClass, txKind, kindClass]
  have hfresh : droppable (freshTx f) = true := by simp [droppable, freshTx, hh]
  obtain ⟨hlen, hor⟩ := h
  obtain ⟨hoff, -⟩ | ⟨-, hlt, hp⟩ | ⟨-, hge, hgc, hp⟩ | ⟨-, hge, -, hp⟩ := pushFrame_cases f l
  · simp [holdsOffer_of_not_offer hno] at hoff
  · rw [hp]
    exact ⟨by simpa using hlt, .inr ⟨freshTx f, by simp, hfresh, hf⟩⟩
  · rw [hp]
    have := dropYoungest_length (q := l.tx) (by omega)
    exact ⟨by simp only [markTxOverrun, insertTx_length]; omega, .inr ⟨freshTx f, by simp [markTxOverrun], hfresh, hf⟩⟩
  · rw [hp]
    exact ⟨hlen, hor⟩

theorem RoomForOffer.queueFrame {f : TxFrame} {s : State} (h : RoomForOffer s.line) (hf : 2 ≤ txClass f)
    (hh : f ≠ .hello) : RoomForOffer (queueFrame f s).line := by
  rw [queueFrame_line]
  split
  · exact h.pushFrame hf hh
  · exact h

theorem RoomForOffer.notify {n : Notice} {s : State} (h : RoomForOffer s.line) : RoomForOffer (notify n s).line :=
  h.queueFrame (by simp [txClass, txKind, kindClass]) (by simp)

/-- The first frame of an event that any room was left for. -/
theorem RoomForOffer.first {f : TxFrame} {s : State} (h : s.line.tx.length + 1 < Config.txCapacity)
    (hf : offerTrack f = none) : RoomForOffer (Machine.queueFrame f s).line := by
  rw [queueFrame_line]
  split
  · rw [pushFrame_room hf (by omega)]
    exact roomForOffer_of_lt (by simpa using h)
  · exact roomForOffer_of_lt (by omega)

/-- A withdrawal frees places, or finds the frame it withdraws in its attempt. -/
theorem RoomForOffer.withdrawFrames {p : TxFrame → Bool} {s : State} (h : RoomForOffer s.line) :
    RoomForOffer (withdrawFrames p s).line := by
  obtain ⟨hlen, hor⟩ := h
  have hle : (s.line.tx.filterMap (withdrawEntry p)).length ≤ s.line.tx.length := List.length_filterMap_le ..
  refine ⟨hle.trans hlen, ?_⟩
  obtain hlt | ⟨e, he, hd, hc⟩ := hor
  · exact .inl (hle.trans_lt hlt)
  · by_cases hw : (withdrawEntry p e).isSome = true
    · refine .inr ⟨e, ?_, hd, hc⟩
      refine List.mem_filterMap.2 ⟨e, he, ?_⟩
      unfold withdrawEntry at hw ⊢
      split
      · simp_all [droppable]
      · rfl
    · left
      refine lt_of_lt_of_le ?_ hlen
      exact List.length_filterMap_lt_length_iff_exists.2 ⟨e, he, by simpa using hw⟩

theorem queued_iff {f : TxFrame} {s : State} : queued f s = true ↔ ∃ e ∈ s.line.tx, e.frame = f := by
  rw [queued, List.any_eq_true]
  exact exists_congr fun e => and_congr_right fun _ => decide_eq_true_iff

/-- Whether a frame is queued is a matter of the queue alone. -/
theorem queued_congr {s t : State} (h : t.line = s.line) (f : TxFrame) : queued f t = queued f s := by simp [queued, h]

/-- An OFFER that is sure of a place stands in the queue, in the place of one for its track if there is one (R60). -/
theorem queued_offer {n : Nat} {r : TravelRecord} {s : State} (hin : inService s = true) (h : RoomForOffer s.line) :
    queued (.offer n r) (queueFrame (.offer n r) s) = true := by
  obtain ⟨hlen, hor⟩ := h
  rw [queued, queueFrame_line, if_pos (mayQueue_of_inService hin _)]
  obtain ⟨hoff, hp⟩ | ⟨-, hlt, hp⟩ | ⟨-, hge, hgc, hp⟩ | ⟨-, hge, hgc, -⟩ := pushFrame_cases (.offer n r) s.line
  · rw [hp]
    obtain ⟨e, he, hk⟩ := List.any_eq_true.1 hoff
    refine List.any_eq_true.2 ⟨_, List.mem_map_of_mem he, ?_⟩
    have hk' : offerTrack e.frame = some r.track := of_decide_eq_true (Bool.and_eq_true_iff.1 hk).2
    rw [hk']
    simp [offerTrack]
  · simp [hp, freshTx]
  · simp [hp, freshTx, markTxOverrun]
  · obtain hlt | ⟨e, he, hd, hc⟩ := hor
    · omega
    · have := greatestClass_le he hd
      simp only [txClass, txKind, kindClass] at hgc hc this
      omega

/-! ## Where offering begins -/

/-- A station that offers is IN_SERVICE with its zone STOPPED: of the end of an event only offering and the platform matter. -/
theorem settle_of_offering {b m : State} (h : offering m = true) : settle b m = windowStep b (offerStep m) := by
  obtain ⟨hd, -, hz, -, hin⟩ := offering_iff.1 h
  rw [settle_active (active_of_inService hin), stopOffering_of fun _ => h,
    permitStep_of (active_of_inService hin) (permitSound_of_zone (by simp [hz]))
      fun _ => accepting_false_of_zone (by simp [hz]),
    routeStep_of_not_dispatch hd, slotStep_of fun _ => .inl (accepting_false_of_zone (by simp [hz]))]

/-- What settling leaves to offer was to be offered before. -/
theorem offering_of_settle {b m : State} (h : offering (settle b m) = true) : offering m = true := by
  cases ha : active m
  · rwa [settle_inactive ha] at h
  · rw [settle_active ha, (sameCore_windowStep _ _).offering, (sameCore_offerStep _).offering, offering_middle,
      (sameCore_stopOffering m).offering] at h
    exact h

/-- An offer repeat timer that did not run starts with an OFFER of the head record (R33). -/
theorem settle_offers {b m : State} {e : Entry} (h : offering (settle b m) = true) (ht : m.zone.offerTimer = none)
    (he : headEntry (settle b m) = some e) :
    (settle b m).zone.offerTimer = some (settle b m).cfg.timing.offerRepeat ∧
      (RoomForOffer m.line → queued (.offer (downstream (settle b m)) e.record) (settle b m) = true) := by
  have ho := offering_of_settle h
  have hs := settle_of_offering (b := b) ho
  have he' : headEntry m = some e := by
    rw [← he]
    exact (headEntry_congr (by rw [hs]; simp)).symm
  obtain ⟨e', -, -, hd, hn⟩ | ⟨hor, -⟩ := offerStep_cases m
  · obtain rfl : e' = e := by simpa [hd] using he'
    rw [hs, hn]
    refine ⟨by simp, fun hr => ?_⟩
    have hq := queued_offer (n := downstream m) (r := e'.record)
      (s := m.setZone { m.zone with offerTimer := some m.cfg.timing.offerRepeat }) (offering_iff.1 ho).2.2.2.2 hr
    rwa [queued_congr (windowStep_line b _), downstream_congr (s := m) (by simp)]
  · simp [ho, ht] at hor

/-! ## The law of the route -/

/-- The record in the zone is the one whose entry stands in a zone state. -/
theorem StationSound.deliveredRecord {s : State} {e : Entry} {st : RecordState} (h : StationSound s)
    (he : zoneEntryIn s st = some e) (hst : st ≠ .expected) (hso : st ≠ .outbound) :
    deliveredRecord s = some e.record := by
  obtain ⟨outs, tail, hT, ho, -⟩ := h.shape
  rw [zoneEntryIn_of_table hT ho hso] at he
  cases tail with
  | none => simp at he
  | some x =>
    obtain ⟨hx, rfl⟩ : x.state = st ∧ x = e := by simpa using he
    have : inZone x = true := inZone_iff_ne.2 ⟨hx ▸ hst, hx ▸ hso⟩
    simp [Machine.deliveredRecord, zoneEntry_of_table hT ho, this]

/-- Moving the zone record from one zone state to another leaves its fields. -/
theorem deliveredRecord_moveState {s : State} {a b : RecordState} (ha : a ≠ .expected ∧ a ≠ .outbound)
    (hb : b ≠ .expected ∧ b ≠ .outbound) : deliveredRecord (moveState a b s) = deliveredRecord s := by
  simp only [deliveredRecord, zoneEntry, moveState_table, List.find?_map, Option.map_map]
  have hp : (inZone ∘ fun e : Entry => if e.state = a then { e with state := b } else e) = inZone := by
    funext e
    by_cases h : e.state = a
    · simp [h, inZone_iff_ne.2 (show e.state ≠ .expected ∧ e.state ≠ .outbound from h ▸ ha),
        inZone_iff_ne.2 (show ({ e with state := b } : Entry).state ≠ .expected ∧ _ from hb)]
    · simp [h]
  rw [hp]
  congr 1
  funext e
  by_cases h : e.state = a <;> simp [h]

theorem RouteSound.dropLaneWait {s : State} (h : RouteSound s) : RouteSound (dropLaneWait s) :=
  routeSound_congr h rfl rfl rfl rfl

theorem RouteSound.watchLaneWait {s : State} (h : RouteSound s) : RouteSound (watchLaneWait s) := by
  obtain ⟨-, hs⟩ | ⟨-, -, hs⟩ | ⟨-, -, hs⟩ := watchLaneWait_cases s
  · rw [hs]; exact h.dropLaneWait
  · rw [hs]; exact routeSound_congr h rfl rfl rfl rfl
  · rwa [hs]

/-- The exit class that a decision fixes is the record's (R168). -/
theorem RouteSound.fixExitClass {s : State} {r : TravelRecord} (h : RouteSound s) (hd : hasRole s .dispatch = true)
    (hr : deliveredRecord s = some r) : RouteSound (fixExitClass r s) := by
  obtain ⟨-, h2, h3, h4⟩ := h
  have hrec : deliveredRecord (Machine.fixExitClass r s) = some r := by
    rw [deliveredRecord_congr (s := s) (by simp), hr]
  have hx := congrArg Route.exitClass (fixExitClass_route r s)
  have hc := congrArg Route.code (fixExitClass_route r s)
  simp only at hx hc
  refine ⟨fun hn => ?_, fun x hxm => ?_, fun hl => ?_, fun hl => ?_⟩
  · simp [hasRole_congr (s := s) (t := Machine.fixExitClass r s) (by simp), hd] at hn
  · rw [hrec, fixExitClass_cfg]
    rw [hx] at hxm
    cases he : s.route.exitClass with
    | none => simpa [he] using hxm
    | some y =>
      have hy := h2 y he
      simp_all
  · rw [hc] at hl
    have := h3 hl
    cases he : s.route.exitClass <;> simp_all
  · rw [hc] at hl
    have := h4 hl
    cases he : s.route.exitClass <;> simp_all

/-- A lane is chosen only for a class that has it (R170). -/
theorem classHasLane_of_chooseExit {p : Pins} {last : Option LaneNo} {x : ExitClass} {exit : RouteCode}
    (h : chooseExit p last x = some exit) :
    (exit = .lane1 → classHasLane .one x = true) ∧ (exit = .lane2 → classHasLane .two x = true) := by
  cases x with
  | reject reason =>
    simp only [chooseExit] at h
    split at h <;> simp_all
    subst h
    simp
  | lane m1 m2 =>
    cases m1 <;> cases m2 <;> cases h1 : laneOpen p .one <;> cases h2 : laneOpen p .two <;>
      simp_all [chooseExit, classHasLane] <;> subst h <;> simp

theorem RouteSound.decideRoute {s : State} {r : TravelRecord} (h : RouteSound s) (hd : hasRole s .dispatch = true)
    (hr : deliveredRecord s = some r) : RouteSound (decideRoute r s) := by
  have hfix := h.fixExitClass hd hr
  obtain ⟨x, exit, hx, hch, hs⟩ | ⟨x, -, -, hs⟩ := decideRoute_cases r s
  · obtain ⟨h1, h2⟩ := classHasLane_of_chooseExit hch
    rw [hs]
    have hrec : Machine.deliveredRecord (startDelivery exit (Machine.fixExitClass r s)) =
        Machine.deliveredRecord (Machine.fixExitClass r s) :=
      deliveredRecord_moveState (s := Machine.fixExitClass r s) (a := .done) (b := .releasing) (by decide) (by decide)
    refine ⟨hfix.1, fun y hy => ?_, fun hl => ?_, fun hl => ?_⟩
    · rw [hrec]; exact hfix.2.1 y hy
    · simp only [startDelivery_eq, State.setZone_route, State.setRoute_route] at hl ⊢
      simp [hx, h1 hl]
    · simp only [startDelivery_eq, State.setZone_route, State.setRoute_route] at hl ⊢
      simp [hx, h2 hl]
  · rw [hs]; exact hfix

theorem RouteSound.routeStep {s : State} (h : RouteSound s) (hs : StationSound s) : RouteSound (routeStep s) := by
  obtain he | ⟨-, he⟩ | ⟨e, hd, hdel, he⟩ := routeStep_cases s
  · rwa [he]
  · rw [he]; exact h.dropLaneWait
  · rw [he]
    exact (h.decideRoute (delivering_iff.1 hdel).1 (hs.deliveredRecord hd (by decide) (by decide))).watchLaneWait

/-- The slot's OFFER enters the table behind the record to be delivered. -/
theorem RouteSound.slotStep {s : State} (h : RouteSound s) : RouteSound (slotStep s) := by
  refine routeSound_congr h (by simp) ?_ (by simp) (by simp)
  obtain ⟨r, -, -, -, -, hs⟩ | ⟨r, -, -, -, -, hs⟩ | hs := slotStep_cases s
  · rw [hs, deliveredRecord, zoneEntry, acceptOffer_table, List.find?_append]
    simp [deliveredRecord, zoneEntry, acceptedEntry, inZone, isZoneState]
  · rw [hs]
    exact deliveredRecord_congr (by simp)
  · rw [hs]

theorem RouteSound.settle {b m : State} (h : RouteSound m) (hs : StationSound m) : RouteSound (settle b m) := by
  cases ha : active m
  · rwa [settle_inactive ha]
  · rw [settle_active ha]
    refine (sameCore_windowStep _ _).routeSound ((sameCore_offerStep _).routeSound (RouteSound.slotStep ?_))
    refine RouteSound.routeStep ?_ ((sameCore_stopOffering m).stationSound hs).permitStep
    exact routeSound_congr ((sameCore_stopOffering m).routeSound h) (by simp) (deliveredRecord_congr (by simp))
      (by simp) (by simp)

/-- The event in which a CHECK platform becomes empty, or ceases to be, leaves the settle window empty (R89, R91). -/
theorem settle_window {b m : State} (hw : works (settle b m) .check = true)
    (hp : platformEmpty (settle b m) ≠ platformEmpty b) : (settle b m).weigh.window = [] := by
  have ha : active m = true := by
    rw [← active_congr (settle_service b m)]
    exact ((works_iff _).1 hw).1
  rw [settle_active ha] at hw hp ⊢
  rw [platformEmpty_windowStep] at hp
  rw [(sameCore_windowStep _ _).works] at hw
  exact windowStep_window hw (Ne.symm hp)

end Sys2Proof.Machine
end

