-- ==== Proofs/Evolution.lean ====
section
/-! PROOF. What most commands do to the station table, the zone and the queue: OUTBOUND entries leave, the record in WORKING is
written or ends its work, and nothing else of the table changes (R4, R7, R17). -/

namespace Sys2Proof.Machine

/-! ## Tables that evolve -/

/-- An entry stays, its mark and timer aside; where work is allowed (`w`), one in WORKING may be written or be DONE. -/
def Carried (w : Bool) (e e' : Entry) : Prop :=
  e'.record.track = e.record.track ∧
    ((e'.state = e.state ∧ e'.record = e.record) ∨
      (w = true ∧ e.state = .working ∧ (e'.state = .working ∨ e'.state = .done)))

theorem Carried.refl (w : Bool) (e : Entry) : Carried w e e := ⟨rfl, .inl ⟨rfl, rfl⟩⟩

theorem Carried.trans {w : Bool} {a b c : Entry} (h : Carried w a b) (k : Carried w b c) : Carried w a c := by
  obtain ⟨h1, h2⟩ := h
  obtain ⟨k1, k2⟩ := k
  refine ⟨k1.trans h1, ?_⟩
  obtain ⟨hs, hr⟩ | ⟨hw, ha, hb⟩ := h2
  · obtain ⟨ks, kr⟩ | ⟨kw, kb, kc⟩ := k2
    · exact .inl ⟨ks.trans hs, kr.trans hr⟩
    · exact .inr ⟨kw, hs ▸ kb, kc⟩
  · obtain ⟨ks, -⟩ | ⟨-, -, kc⟩ := k2
    · exact .inr ⟨hw, ha, by rwa [ks]⟩
    · exact .inr ⟨hw, ha, kc⟩

/-- A table after an event in which OUTBOUND entries may leave and the others are carried on. -/
inductive Evolved (w : Bool) : List Entry → List Entry → Prop
  | nil : Evolved w [] []
  | keep {e e' : Entry} {T T' : List Entry} : Carried w e e' → Evolved w T T' → Evolved w (e :: T) (e' :: T')
  | drop {e : Entry} {T T' : List Entry} : e.state = .outbound → Evolved w T T' → Evolved w (e :: T) T'

namespace Evolved
variable {w : Bool} {T T' T'' : List Entry}

theorem refl (w : Bool) (T : List Entry) : Evolved w T T := by
  induction T with
  | nil => exact .nil
  | cons e T ih => exact .keep (Carried.refl w e) ih

theorem trans (h : Evolved w T T') (k : Evolved w T' T'') : Evolved w T T'' := by
  induction h generalizing T'' with
  | nil => exact k
  | keep hc _ ih =>
    cases k with
    | keep kc k => exact .keep (hc.trans kc) (ih k)
    | drop ko k =>
      refine .drop ?_ (ih k)
      obtain ⟨hs, -⟩ | ⟨-, -, hb⟩ := hc.2
      · rw [← hs, ko]
      · simp [ko] at hb
  | drop ho _ ih => exact .drop ho (ih k)

theorem of_eq (h : T' = T) : Evolved w T T' := h ▸ refl w T

theorem of_map {f : Entry → Entry} (h : ∀ e ∈ T, Carried w e (f e)) : Evolved w T (T.map f) := by
  induction T with
  | nil => exact .nil
  | cons e T ih => exact .keep (h e List.mem_cons_self) (ih fun x hx => h x (List.mem_cons_of_mem e hx))

theorem of_filter {p : Entry → Bool} (h : ∀ e ∈ T, p e = false → e.state = .outbound) : Evolved w T (T.filter p) := by
  induction T with
  | nil => exact .nil
  | cons e T ih =>
    have ih := ih fun x hx => h x (List.mem_cons_of_mem e hx)
    cases hp : p e
    · rw [List.filter_cons_of_neg (by simp [hp])]
      exact .drop (h e List.mem_cons_self hp) ih
    · rw [List.filter_cons_of_pos hp]
      exact .keep (Carried.refl w e) ih

theorem of_eraseP_outbound : Evolved w T (T.eraseP fun e => e.state = .outbound) := by
  induction T with
  | nil => exact .nil
  | cons e T ih =>
    by_cases h : e.state = .outbound
    · simpa [List.eraseP_cons, h] using Evolved.drop h (refl w T)
    · simpa [List.eraseP_cons, h] using Evolved.keep (Carried.refl w e) ih

theorem eq_nil (h : Evolved w [] T) : T = [] := by cases h; rfl

/-- Every entry that is there afterwards was there before. -/
theorem exists_of_mem (h : Evolved w T T') {e' : Entry} (he : e' ∈ T') : ∃ e ∈ T, Carried w e e' := by
  induction h with
  | nil => simp at he
  | keep hc _ ih =>
    obtain rfl | he := List.mem_cons.1 he
    · exact ⟨_, List.mem_cons_self, hc⟩
    · obtain ⟨e, hm, hc⟩ := ih he
      exact ⟨e, List.mem_cons_of_mem _ hm, hc⟩
  | drop _ _ ih =>
    obtain ⟨e, hm, hc⟩ := ih he
    exact ⟨e, List.mem_cons_of_mem _ hm, hc⟩

theorem tracks_sublist (h : Evolved w T T') :
    (T'.map fun e => e.record.track).Sublist (T.map fun e => e.record.track) := by
  induction h with
  | nil => exact .slnil
  | keep hc _ ih => rw [List.map_cons, List.map_cons, hc.1]; exact ih.cons_cons _
  | drop _ _ ih => exact ih.cons _

/-- The entry behind the OUTBOUND entries is carried on. -/
theorem shape {outs : List Entry} {tail : Option Entry} (h : Evolved w (outs ++ tail.toList) T')
    (ho : allOutbound outs) (ht : ∀ x ∈ tail, x.state ≠ .outbound) :
    ∃ outs' tail', T' = outs' ++ Option.toList tail' ∧ allOutbound outs' ∧ Option.Rel (Carried w) tail tail' := by
  induction outs generalizing T' with
  | nil =>
    cases tail with
    | none => cases h; exact ⟨[], none, rfl, by simp [allOutbound], .none⟩
    | some x =>
      cases h with
      | keep hc h => cases h; exact ⟨[], some _, rfl, by simp [allOutbound], .some hc⟩
      | drop hx _ => exact absurd hx (ht x rfl)
  | cons o outs ih =>
    have ho' : allOutbound outs := fun e he => ho e (List.mem_cons_of_mem o he)
    cases h with
    | keep hc h =>
      obtain ⟨outs', tail', rfl, hall, hrel⟩ := ih h ho'
      refine ⟨_ :: outs', tail', rfl, fun e he => ?_, hrel⟩
      obtain rfl | he := List.mem_cons.1 he
      · obtain ⟨hs, -⟩ | ⟨-, hw, -⟩ := hc.2
        · rw [hs, ho o List.mem_cons_self]
        · simp [ho o List.mem_cons_self] at hw
      · exact hall e he
    | drop _ h => exact ih h ho'

end Evolved

/-- What fits the zone state still fits it when it is carried on. -/
theorem tailFits_carried {w chk : Bool} {z : ZoneState} {tail tail' : Option Entry}
    (h : tailFits chk z tail) (hrel : Option.Rel (Carried w) tail tail') : tailFits chk z tail' := by
  cases hrel with
  | none => exact h
  | @some e e' hc =>
    obtain ⟨hs, -⟩ | ⟨-, hw, hb⟩ := hc.2
    · simpa [tailFits, hs] using h
    · obtain ⟨-, -, hx⟩ | hz := h
      · simp [hw] at hx
      · cases z <;> simp [zoneAllows, hw] at hz
        obtain hb | hb := hb <;> simp [tailFits, zoneAllows, hb]

/-! ## Work: operations of the role's blocks -/

/-- What an operation of a role's block may do: write the queue with frames that leave room for an OFFER, carry the table on,
and change its own block. -/
structure Worked (s m : State) : Prop where
  cfg : m.cfg = s.cfg
  service : m.service = s.service
  slot : m.slot = s.slot
  zone : m.zone = s.zone
  route : m.route = s.route
  exits : chooseExit m.pins = chooseExit s.pins
  table : Evolved (!hasRole s .dispatch) s.table m.table
  line : RoomForOffer s.line → RoomForOffer m.line

namespace Worked
variable {s m u : State}

theorem trans (h : Worked s m) (k : Worked m u) : Worked s u where
  cfg := k.cfg.trans h.cfg
  service := k.service.trans h.service
  slot := k.slot.trans h.slot
  zone := k.zone.trans h.zone
  route := k.route.trans h.route
  exits := k.exits.trans h.exits
  table := h.table.trans (by simpa [hasRole_congr h.cfg] using k.table)
  line := fun hl => k.line (h.line hl)

/-- An operation that leaves the table and the frames to be sent. -/
theorem of_same (hc : m.cfg = s.cfg) (hs : m.service = s.service) (hl : m.slot = s.slot) (hz : m.zone = s.zone)
    (hr : m.route = s.route) (hp : m.pins = s.pins) (ht : m.table = s.table) (htx : m.line.tx = s.line.tx) :
    Worked s m :=
  ⟨hc, hs, hl, hz, hr, by rw [hp], .of_eq ht, fun h => by simpa [RoomForOffer, htx] using h⟩

theorem refl (s : State) : Worked s s := of_same rfl rfl rfl rfl rfl rfl rfl rfl

theorem store (s : State) (x : Store) : Worked s (s.setStore x) := of_same rfl rfl rfl rfl rfl rfl rfl rfl
theorem reader (s : State) (x : Reader) : Worked s (s.setReader x) := of_same rfl rfl rfl rfl rfl rfl rfl rfl
theorem weigh (s : State) (x : Weigh) : Worked s (s.setWeigh x) := of_same rfl rfl rfl rfl rfl rfl rfl rfl
theorem prof (s : State) (x : Profile) : Worked s (s.setProf x) := of_same rfl rfl rfl rfl rfl rfl rfl rfl
theorem eval (s : State) (x : Option Evaluation) : Worked s (s.setEval x) := of_same rfl rfl rfl rfl rfl rfl rfl rfl
theorem wrap (s : State) (x : WrapSeq) : Worked s (s.setWrap x) := of_same rfl rfl rfl rfl rfl rfl rfl rfl
theorem label (s : State) (x : LabelUnit) : Worked s (s.setLabel x) := of_same rfl rfl rfl rfl rfl rfl rfl rfl

theorem dropHead (s : State) : Worked s (dropHead s) := of_same rfl rfl rfl rfl rfl rfl rfl rfl

/-- A frame of class 2 or 3 is queued. -/
theorem queueFrame {f : TxFrame} (s : State) (hf : 2 ≤ txClass f) (hh : f ≠ .hello) : Worked s (queueFrame f s) :=
  ⟨by simp, by simp, by simp, by simp, by simp, by simp, .of_eq (by simp), fun h => h.queueFrame hf hh⟩

theorem notify (n : Notice) (s : State) : Worked s (notify n s) :=
  queueFrame s (by simp [txClass, txKind, kindClass]) (by simp)

theorem withdrawFrames (p : TxFrame → Bool) (s : State) : Worked s (withdrawFrames p s) :=
  ⟨by simp, by simp, by simp, by simp, by simp, by simp, .of_eq (by simp), fun h => h.withdrawFrames⟩

/-- Fields of the record in WORKING are written. -/
theorem writeWorking {f : TravelRecord → TravelRecord} (s : State) (hd : hasRole s .dispatch = false)
    (hf : ∀ r, (f r).track = r.track) : Worked s (writeWorking f s) where
  cfg := rfl
  service := rfl
  slot := rfl
  zone := rfl
  route := rfl
  exits := rfl
  line := id
  table := by
    refine .of_map fun e _ => ?_
    by_cases h : e.state = .working
    · exact ⟨by simp [h, hf], .inr ⟨by simp [hd], h, .inl (by simp [h])⟩⟩
    · simpa [h] using Carried.refl _ e

/-- The record in WORKING is DONE. -/
theorem endWork (s : State) (hd : hasRole s .dispatch = false) : Worked s (endWork s) where
  cfg := rfl
  service := rfl
  slot := rfl
  zone := rfl
  route := rfl
  exits := rfl
  line := id
  table := by
    refine .of_map fun e _ => ?_
    by_cases h : e.state = .working
    · exact ⟨by simp [h], .inr ⟨by simp [hd], h, .inr (by simp [h])⟩⟩
    · simpa [h] using Carried.refl _ e

/-- The role stays through work. -/
theorem role (h : Worked s m) {r : Role} {b : Bool} (hr : hasRole s r = b) : hasRole m r = b := by
  rw [hasRole_congr h.cfg, hr]

end Worked

/-! ### CHECK -/

section check
variable (s : State)

theorem worked_updateEval (f : Evaluation → Evaluation) : Worked s (updateEval f s) := Worked.eval s _
theorem worked_openWindow (w : Window) : Worked s (openWindow w s) := Worked.reader s _
theorem worked_keepRead (ds : Digits) : Worked s (keepRead ds s) := Worked.reader s _
theorem worked_dropLine : Worked s (dropLine s) := Worked.reader s _
theorem worked_stopTagWait : Worked s (stopTagWait s) := Worked.reader s _
theorem worked_handMass (x : Option MassResolution) : Worked s (handMass x s) := worked_updateEval s _
theorem worked_handProfile (x : Option ProfileResolution) : Worked s (handProfile x s) := worked_updateEval s _
theorem worked_emptyWindow : Worked s (emptyWindow s) := Worked.weigh s _

theorem worked_raiseRequest : Worked s (raiseRequest s) := by
  unfold raiseRequest
  split
  · split
    · exact (Worked.store s _).trans (Worked.queueFrame _ (by simp [txClass, txKind, kindClass]) (by simp))
    · exact Worked.refl s
  · exact Worked.refl s

theorem worked_endRequest : Worked s (endRequest s) := by
  unfold endRequest
  split
  · exact (Worked.store s _).trans (Worked.withdrawFrames _ _)
  · exact Worked.refl s

theorem worked_manifestMissing (x : ManifestResolution) : Worked s (manifestMissing x s) := worked_updateEval s _

variable {s}

theorem worked_manifestFound (m : Manifest) (hd : hasRole s .dispatch = false) : Worked s (manifestFound m s) := by
  have h1 := worked_updateEval s fun e => { e with manifest := some (.found m) }
  simp only [manifestFound]
  split
  · exact h1.trans (Worked.writeWorking _ (h1.role hd) fun r => rfl)
  · exact h1

theorem worked_lookUp (ds : Digits) (hd : hasRole s .dispatch = false) : Worked s (lookUp ds s) := by
  unfold lookUp
  split
  · exact (Worked.store s _).trans (worked_manifestFound _ hd)
  · exact (Worked.store s _).trans (worked_raiseRequest _)

theorem worked_tagSerial (ds : Digits) (hd : hasRole s .dispatch = false) : Worked s (tagSerial ds s) := by
  have h1 := ((worked_keepRead s (ds ++ [checkDigit ds])).trans (worked_stopTagWait _)).trans
    (worked_updateEval _ fun e => { e with tag := some (.serial ds) })
  simp only [tagSerial]
  split
  · have h2 := h1.trans (Worked.writeWorking (f := writeSerial ds) _ (h1.role hd) fun r => rfl)
    exact h2.trans (worked_lookUp ds (h2.role hd))
  · exact h1.trans (worked_lookUp ds (h1.role hd))

theorem worked_tagUnread (s : State) : Worked s (tagUnread s) :=
  (((worked_openWindow s .closed).trans (worked_stopTagWait _)).trans (worked_updateEval _ _)).trans
    (worked_manifestMissing _ _)

theorem worked_receiveManifest (p : List Byte) (hd : hasRole s .dispatch = false) :
    Worked s (receiveManifest p s) := by
  unfold receiveManifest
  split
  · exact Worked.notify _ s
  · split
    · exact (worked_endRequest s).trans (worked_manifestFound _ ((worked_endRequest s).role hd))
    · exact Worked.store s _

theorem worked_evalStep (hd : hasRole s .dispatch = false) : Worked s (evalStep s) := by
  have key : ∀ (e : Entry) (i : Inputs), Worked s (evaluate e i s) := fun e i => by
    have h1 := Worked.weigh s { s.weigh with weighing := false, settle := none }
    have h2 := h1.trans (Worked.writeWorking (f := evaluated s.cfg.check i) _ (h1.role hd) fun r => rfl)
    have h3 := (h2.trans (Worked.endWork _ (h2.role hd))).trans (Worked.eval _ none)
    unfold evaluate reportVerdict
    split
    · exact h3
    · exact h3.trans (Worked.notify _ _)
  unfold evalStep
  split
  · split
    · split
      · split
        · exact key _ _
        · exact Worked.refl s
      · exact Worked.refl s
    · exact Worked.refl s
  · exact Worked.refl s

theorem worked_setScaleFault (k : ZeroFaultKind) (v : Option Int) (s : State) : Worked s (setScaleFault k v s) := by
  unfold setScaleFault
  split
  · exact Worked.refl s
  · split
    · exact (Worked.weigh s _).trans (Worked.notify _ _)
    · exact Worked.weigh s _

theorem worked_zeroAttempt (s : State) : Worked s (zeroAttempt s) := by
  simp only [zeroAttempt]
  split
  · exact Worked.weigh s _
  · exact (worked_setScaleFault _ _ s).trans (worked_emptyWindow _)

theorem worked_postponeZero (s : State) : Worked s (postponeZero s) := by
  simp only [postponeZero]
  split
  · split
    · exact (Worked.weigh s _).trans (Worked.notify _ _)
    · exact Worked.weigh s _
  · exact Worked.refl s

theorem worked_endWeighing (x : MassResolution) (s : State) : Worked s (endWeighing x s) :=
  (Worked.weigh s _).trans (worked_handMass _ _)

theorem worked_startWeighing (s : State) : Worked s (startWeighing s) := by
  simp only [startWeighing]
  split <;> exact (Worked.weigh s _).trans (worked_handMass _ _)

theorem worked_joinScan (x : Sample) (s : State) : Worked s (joinScan x s) := Worked.weigh s _

theorem worked_takeStable (s : State) : Worked s (takeStable s) := by
  unfold takeStable
  split
  · exact worked_endWeighing _ s
  · exact (Worked.weigh s _).trans (worked_handMass _ _)

theorem worked_disturb (s : State) : Worked s (disturb s) := by
  unfold disturb
  split
  · exact (Worked.weigh s _).trans (worked_handMass _ _)
  · exact (worked_emptyWindow s).trans (worked_endWeighing _ _)

theorem worked_flaggedWindow (x : Sample) (s : State) : Worked s (flaggedWindow x s) := by
  unfold flaggedWindow
  split
  · exact worked_emptyWindow s
  · exact worked_joinScan x s

theorem worked_weighScan (x : Sample) (s : State) : Worked s (weighScan x s) := by
  unfold weighScan
  split
  · exact (worked_flaggedWindow x s).trans (worked_endWeighing _ _)
  · split
    · split
      · exact worked_disturb s
      · exact worked_joinScan x s
    · split
      · exact (worked_joinScan x s).trans (worked_takeStable _)
      · exact worked_joinScan x s

theorem worked_completeProfile (n : Nat) (b : Bool) (s : State) : Worked s (completeProfile n b s) :=
  (Worked.prof s _).trans (worked_handProfile _ _)

theorem worked_faultProfile (s : State) : Worked s (faultProfile s) := (Worked.prof s _).trans (worked_handProfile _ _)

theorem worked_profileStep (beams : BitVec 40) (s : State) : Worked s (profileStep beams s) := by
  have curtain : Worked s (curtainStep beams s) := by
    unfold curtainStep
    split
    · exact (Worked.prof s _).trans (worked_completeProfile _ _ _)
    · simp only
      split
      · exact (Worked.prof s _).trans (worked_completeProfile _ _ _)
      · exact Worked.prof s _
  unfold profileStep
  split
  · split
    · exact Worked.prof s _
    · exact Worked.refl s
  · split
    · exact Worked.refl s
    · exact Worked.prof s _
  · exact curtain
  all_goals exact Worked.refl s

theorem worked_profileAtPosition (s : State) : Worked s (profileAtPosition s) := by
  unfold profileAtPosition
  split
  · exact Worked.refl s
  · split
    · exact (worked_faultProfile s).trans (Worked.prof _ _)
    · exact (worked_faultProfile s).trans (Worked.prof _ _)
    · exact (worked_completeProfile _ _ s).trans (Worked.prof _ _)
    · exact Worked.prof s _
    all_goals exact Worked.refl s

theorem worked_restartProfiling (s : State) : Worked s (restartProfiling s) := by
  unfold restartProfiling
  split
  · exact Worked.refl s
  · exact (Worked.prof s _).trans (worked_handProfile _ _)

theorem worked_beginCheck (hd : hasRole s .dispatch = false) : Worked s (beginCheck s) := by
  unfold beginCheck
  split
  · rename_i ev _
    have h1 : Worked s (writeWorking (writeHeld ev) s) := Worked.writeWorking s hd fun r => by
      unfold writeHeld
      repeat' split
      all_goals rfl
    refine (h1.trans ?_).trans (worked_startWeighing _)
    unfold startTagWait
    split
    · exact Worked.reader _ _
    · exact Worked.refl _
  · exact worked_emptyWindow s

theorem worked_dropCheckWork (s : State) : Worked s (dropCheckWork s) :=
  (((worked_endRequest s).trans (worked_openWindow _ _)).trans (worked_stopTagWait _)).trans
    ((Worked.eval _ _).trans (Worked.prof _ _))

end check

/-! ### WRAP -/

section wrap
variable {s : State}

theorem worked_spendFree (b : Bool) (s : State) : Worked s (spendFree b s) := by
  unfold spendFree
  split
  · exact Worked.of_same rfl rfl rfl rfl rfl rfl rfl rfl
  · exact Worked.refl s

theorem worked_wrapDone (v : WrapVerdict) (hd : hasRole s .dispatch = false) : Worked s (wrapDone v s) := by
  have h1 : Worked s (writeWorking (fun r => { r with wrap := some v }) s) := Worked.writeWorking s hd fun r => rfl
  exact h1.trans (Worked.endWork _ (h1.role hd))

theorem worked_wrapIdle (s : State) : Worked s (wrapIdle s) := Worked.wrap s _

theorem worked_beginWrap (r : TravelRecord) (hd : hasRole s .dispatch = false) : Worked s (beginWrap r s) := by
  unfold beginWrap
  split
  · exact Worked.endWork s hd
  · split
    · exact worked_wrapDone _ hd
    · exact (Worked.wrap s _).trans (worked_spendFree _ _)

theorem worked_wrapStep (s : State) : Worked s (wrapStep s) := by
  obtain ⟨-, h⟩ | ⟨-, h⟩ := wrapStep_cases s
  · rw [h]; exact Worked.wrap s _
  · rw [h]; exact Worked.refl s

theorem worked_failWrap (c : WrapCause) (hd : hasRole s .dispatch = false) : Worked s (failWrap c s) := by
  simp only [failWrap]
  split
  · exact (Worked.wrap s _).trans (Worked.wrap _ _)
  · have h1 := (Worked.wrap s { s.wrap with fault := true }).trans (worked_wrapIdle _)
    have h2 := h1.trans (worked_wrapDone .wrapFailed (h1.role hd))
    simp only [wrapGivesUp]
    split
    · exact h2.trans (Worked.notify _ _)
    · exact h2

theorem worked_completeWrap (hd : hasRole s .dispatch = false) : Worked s (completeWrap s) :=
  ((worked_wrapIdle s).trans (worked_wrapDone _ ((worked_wrapIdle s).role hd))).trans (Worked.wrap _ _)

end wrap

/-! ### LABEL -/

section label
variable {s : State}

theorem worked_sendEngine (msg : List Byte) (s : State) : Worked s (sendEngine msg s) := Worked.label s _

theorem worked_abortEngine (s : State) : Worked s (abortEngine s) := (worked_sendEngine _ s).trans (Worked.label _ _)

theorem worked_labelDone (v : LabelVerdict) (hd : hasRole s .dispatch = false) : Worked s (labelDone v s) := by
  have h1 : Worked s (writeWorking (fun r => { r with label := some v }) s) := Worked.writeWorking s hd fun r => rfl
  exact h1.trans (Worked.endWork _ (h1.role hd))

theorem worked_labelIdle (s : State) : Worked s (labelIdle s) := Worked.label s _

theorem worked_beginLabel (r : TravelRecord) (hd : hasRole s .dispatch = false) : Worked s (beginLabel r s) := by
  unfold beginLabel
  split
  · exact Worked.endWork s hd
  · split
    · exact worked_labelDone _ hd
    · exact (Worked.label s _).trans (worked_spendFree _ _)

theorem worked_labelStep (s : State) : Worked s (labelStep s) := by
  obtain ⟨-, h⟩ | ⟨-, h⟩ := labelStep_cases s
  · rw [h]
    unfold startPrint
    split
    · exact (worked_sendEngine _ s).trans (Worked.label _ _)
    · exact Worked.label s _
  · rw [h]; exact Worked.refl s

theorem worked_startApply (s : State) : Worked s (startApply s) := (worked_sendEngine _ s).trans (Worked.label _ _)

theorem worked_failLabel (c : LabelCause) (hd : hasRole s .dispatch = false) : Worked s (failLabel c s) := by
  have h1 := Worked.label s { s.label with causes := s.label.causes ++ [c], printTimer := none, applyTimer := none,
                                           verifyTimer := none }
  simp only [failLabel]
  generalize hu : (if abortsEngine c = true then _ else _ : State) = u
  have h2 : Worked s u := by
    rw [← hu]
    split
    · exact h1.trans (worked_abortEngine _)
    · exact h1
  split
  · exact h2.trans (Worked.label _ _)
  · have h3 := h2.trans (worked_labelIdle u)
    have h4 := h3.trans (worked_labelDone .labelFailed (h3.role hd))
    simp only [labelGivesUp]
    split
    · exact h4.trans (Worked.notify _ _)
    · exact h4

theorem worked_judgeVerify (ds : Digits) (hd : hasRole s .dispatch = false) : Worked s (judgeVerify ds s) := by
  have h1 := worked_keepRead s ds
  simp only [judgeVerify]
  split
  · have h2 := h1.trans (worked_labelIdle _)
    exact h2.trans (worked_labelDone _ (h2.role hd))
  · exact h1.trans (worked_failLabel _ (h1.role hd))

theorem worked_judgeLine (chars : List RxChar) (hd : hasRole s .dispatch = false) : Worked s (judgeLine chars s) := by
  unfold judgeLine
  split
  · exact worked_dropLine s
  · split
    · exact worked_tagSerial _ hd
    · exact worked_dropLine s
  · split
    · exact worked_judgeVerify _ hd
    · exact worked_dropLine s

theorem worked_emptyLink (s : State) : Worked s (emptyLink s) := Worked.label s _

theorem worked_heardMissed (hd : hasRole s .dispatch = false) : Worked s (heardMissed s) := by
  unfold heardMissed
  split
  · exact worked_failLabel _ hd
  · exact Worked.refl s

theorem worked_heardFault (n : Nat) (hd : hasRole s .dispatch = false) : Worked s (heardFault n s) := by
  simp only [heardFault]
  split
  · exact (Worked.label s _).trans (worked_failLabel _ hd)
  · exact Worked.label s _

end label

/-- The work that begins with the record in WORKING. -/
theorem worked_beginWork {s : State} (r : TravelRecord) (hd : hasRole s .dispatch = false) : Worked s (beginWork r s) := by
  unfold beginWork
  split
  · split
    · exact (worked_emptyWindow s).trans (Worked.endWork _ hd)
    · exact worked_beginCheck hd
  · split
    · exact Worked.endWork s hd
    · exact (worked_beginWrap r hd).trans (worked_wrapStep _)
  · split
    · exact Worked.endWork s hd
    · exact (worked_beginLabel r hd).trans (worked_labelStep _)
  all_goals exact Worked.endWork s hd

end Sys2Proof.Machine
end

