-- ==== Proofs/PlainCommands.lean ====
section
/-! PROOF. The commands that leave the zone state and carry the table on: the frames of the holds, of TAKEN, LOST and RELEASED, the
eyes' plain edges, SAFE# and HOLD_SW, the role's inputs and timers, and the line's own commands. -/

namespace Sys2Proof.Machine

/-! ## What such a command does before the end of its event -/

/-- The zone state, slot and route stay, the table is carried on, offering at most ends, and the queue has room for an OFFER. -/
structure Evolves (s m : State) : Prop where
  cfg : m.cfg = s.cfg
  service : m.service = s.service ∨ (active s = true ∧ m.service = .inService)
  slot : m.slot = s.slot
  zstate : m.zone.zstate = s.zone.zstate
  timer : m.zone.offerTimer = s.zone.offerTimer ∨ m.zone.offerTimer = none
  route : m.route = s.route
  exits : chooseExit m.pins = chooseExit s.pins
  table : Evolved (!hasRole s .dispatch) s.table m.table
  line : roomFor 3 s = true → RoomForOffer m.line

theorem tx_of_roomFor {n : Nat} {s : State} (h : roomFor n s = true) : s.line.tx.length + n ≤ 8 := of_decide_eq_true h

theorem roomForOffer_of_roomFor {n : Nat} {s : State} (h : roomFor (n + 1) s = true) : RoomForOffer s.line := by
  have := tx_of_roomFor h
  exact roomForOffer_of_lt (by simp only [Config.txCapacity]; omega)

namespace Evolves
variable {s m u : State}

theorem of_worked (h : Worked s m) : Evolves s m :=
  ⟨h.cfg, .inl h.service, h.slot, by rw [h.zone], .inl (by rw [h.zone]), h.route, h.exits, h.table,
    fun hr => h.line (roomForOffer_of_roomFor hr)⟩

theorem refl (s : State) : Evolves s s := of_worked (Worked.refl s)

theorem active (h : Evolves s m) : active m = active s := by
  obtain hs | ⟨ha, hs⟩ := h.service
  · exact active_congr hs
  · rw [ha]; simp [Machine.active, hs]

theorem andThen (h : Evolves s m) (k : Worked m u) : Evolves s u where
  cfg := k.cfg.trans h.cfg
  service := by rw [k.service]; exact h.service
  slot := k.slot.trans h.slot
  zstate := by rw [k.zone]; exact h.zstate
  timer := by rw [k.zone]; exact h.timer
  route := k.route.trans h.route
  exits := k.exits.trans h.exits
  table := h.table.trans (by simpa [hasRole_congr h.cfg] using k.table)
  line := fun hr => k.line (h.line hr)

theorem role (h : Evolves s m) {r : Role} {b : Bool} (hr : hasRole s r = b) : hasRole m r = b := by
  rw [hasRole_congr h.cfg, hr]

/-- Input levels that choose no exit change. -/
theorem pins {p : Pins} (hp : chooseExit p = chooseExit s.pins) : Evolves s (s.setPins p) :=
  ⟨rfl, .inl rfl, rfl, rfl, .inl rfl, rfl, hp, .refl _ _, fun hr => (roomForOffer_of_roomFor hr :)⟩

/-- The hold set, and what of the zone is neither its state nor the offer repeat timer, changes. -/
theorem zone {z : ZoneCtl} (hz : z.zstate = s.zone.zstate) (ht : z.offerTimer = s.zone.offerTimer) :
    Evolves s (s.setZone z) :=
  ⟨rfl, .inl rfl, rfl, hz, .inl ht, rfl, rfl, .refl _ _, fun hr => (roomForOffer_of_roomFor hr :)⟩

/-- The zone state, slot and route as before: so are the laws of the table and the zone. -/
theorem stationSound (h : Evolves s m) (hs : StationSound s) : StationSound m := by
  obtain ⟨outs, tail, hT, ho, hfit⟩ := hs.shape
  have hev := h.table
  rw [hT] at hev
  obtain ⟨outs', tail', hT', ho', hrel⟩ := hev.shape ho fun x hx => tailFits_not_outbound (hx ▸ hfit)
  refine (stationSound_iff m).2 ⟨tableSound_of_sublist hs.tracks h.table.tracks_sublist, ⟨outs', tail', hT', ho', ?_⟩,
    fun ha => ?_⟩
  · rw [hasRole_congr h.cfg, h.zstate]
    exact tailFits_carried hfit hrel
  · rw [h.active] at ha
    obtain ⟨h1, h2, h3⟩ := hs.idle ha
    have hev := h.table
    rw [h1] at hev
    exact ⟨hev.eq_nil, by rw [h.slot, h2], by rw [h.zstate, h3]⟩

/-- At DISPATCH no block writes into a record, so the entry behind the OUTBOUND entries keeps its state and record. -/
theorem tail_dispatch (h : Evolves s m) (hs : StationSound s) (hd : hasRole s .dispatch = true) :
    ∃ outs outs' tail tail', s.table = outs ++ Option.toList tail ∧ m.table = outs' ++ Option.toList tail' ∧
      allOutbound outs ∧ allOutbound outs' ∧
      Option.Rel (fun e e' => e'.state = e.state ∧ e'.record = e.record) tail tail' := by
  obtain ⟨outs, tail, hT, ho, hfit⟩ := hs.shape
  have hev := h.table
  rw [hT, hd] at hev
  obtain ⟨outs', tail', hT', ho', hrel⟩ := hev.shape ho fun x hx => tailFits_not_outbound (hx ▸ hfit)
  refine ⟨outs, outs', tail, tail', hT, hT', ho, ho', ?_⟩
  cases hrel with
  | none => exact .none
  | some hc => exact .some (hc.2.resolve_right (by simp))

theorem deliveredRecord (h : Evolves s m) (hs : StationSound s) (hd : hasRole s .dispatch = true) :
    deliveredRecord m = deliveredRecord s := by
  obtain ⟨outs, outs', tail, tail', hT, hT', ho, ho', hrel⟩ := h.tail_dispatch hs hd
  rw [Machine.deliveredRecord, Machine.deliveredRecord, zoneEntry_of_table hT ho, zoneEntry_of_table hT' ho']
  cases hrel with
  | none => rfl
  | @some e e' hc =>
    have : inZone e' = inZone e := by simp [inZone, hc.1]
    cases hz : inZone e <;> simp [this, hz, hc.2]

theorem done (h : Evolves s m) (hs : StationSound s) (hd : hasRole s .dispatch = true) :
    (zoneEntryIn m .done).isSome = (zoneEntryIn s .done).isSome := by
  obtain ⟨outs, outs', tail, tail', hT, hT', ho, ho', hrel⟩ := h.tail_dispatch hs hd
  rw [zoneEntryIn_of_table hT ho (by decide), zoneEntryIn_of_table hT' ho' (by decide)]
  cases hrel with
  | none => rfl
  | @some e e' hc => by_cases hx : e.state = .done <;> simp [hc.1, hx]

theorem routeSound (h : Evolves s m) (hs : StationSound s) (hr : RouteSound s) : RouteSound m := by
  cases hd : hasRole s .dispatch
  · obtain ⟨h1, -, h3, h4⟩ := hr
    have hx := h1 hd
    refine ⟨fun _ => by rw [h.route, hx], fun x hm => by simp [h.route, hx] at hm, ?_, ?_⟩
    · simpa [h.route] using h3
    · simpa [h.route] using h4
  · exact routeSound_congr hr h.cfg (h.deliveredRecord hs hd) (by rw [h.route]) (by rw [h.route])

theorem routeWaits (h : Evolves s m) (hs : StationSound s) (hr : RouteSound s) (hw : RouteFollows s) : RouteWaits m := by
  intro hm
  have hl := hw.2 (by simpa [laneWaitOn, h.route] using hm)
  have hd : hasRole s .dispatch = true := by
    by_contra hn
    simp [lacksExit, hr.1 (by simpa using hn)] at hl
  left
  simpa [lacksExit, h.done hs hd, h.route, h.exits] using hl

/-- The head record has the same track. -/
theorem head (h : Evolves s m) (hs : StationSound s) :
    (headEntry m).map (fun x => x.record.track) = (headEntry s).map (fun x => x.record.track) := by
  obtain ⟨outs, tail, hT, ho, hfit⟩ := hs.shape
  have hev := h.table
  rw [hT] at hev
  obtain ⟨outs', tail', hT', ho', hrel⟩ := hev.shape ho fun x hx => tailFits_not_outbound (hx ▸ hfit)
  rw [headEntry_of_table hT ho, headEntry_of_table hT' ho']
  cases hrel with
  | none => rfl
  | @some e e' hc =>
    have he : e.state ≠ .outbound := tailFits_not_outbound hfit
    have he' : e'.state ≠ .outbound := tailFits_not_outbound (tailFits_carried hfit (.some hc))
    simp [he, he', hc.1]

end Evolves

/-! ## Commands that leave what the conditions read, and commands whose event ends with `settle` -/

/-- After such a command the station stands as before where the conditions look, or its table was carried on and its conditions
were evaluated afresh. -/
inductive Plain (s : State) : State → Prop
  | still {t : State} : SameCore s t → t.zone.offerTimer = s.zone.offerTimer → Plain s t
  | settled {m : State} : Evolves s m → Plain s (settle s m)

theorem Plain.refl (s : State) : Plain s s := .still (SameCore.refl s) rfl

theorem Plain.worked {s m : State} (h : Worked s m) : Plain s (settle s m) := .settled (.of_worked h)

/-- The operations of the blocks outside the zone and the table leave what the conditions read. -/
theorem Plain.of_same {s t : State} (hs : t.service = s.service) (hc : t.cfg = s.cfg) (hT : t.table = s.table)
    (hl : t.slot = s.slot) (hz : t.zone = s.zone) (hr : t.route = s.route) (he : eyesClear t.pins = eyesClear s.pins)
    (hx : chooseExit t.pins = chooseExit s.pins) (hf : t.weigh.scaleFault = s.weigh.scaleFault)
    (hp : t.weigh.postponed = s.weigh.postponed) : Plain s t :=
  .still ⟨hs, hc, hT, hl, by rw [hz], by rw [hz], hr, he, hx, hf, hp⟩ (by rw [hz])

theorem not_dispatch_of_works {s : State} {r : Role} (h : works s r = true) (hr : r ≠ .dispatch) :
    hasRole s .dispatch = false := hasRole_unique ((works_iff r).1 h).2 hr

/-- The exit that a class has open is a matter of the lane and spur inputs. -/
theorem chooseExit_congr {p q : Pins} (h1 : q.lane1Full = p.lane1Full) (h2 : q.lane1Shut = p.lane1Shut)
    (h3 : q.lane2Full = p.lane2Full) (h4 : q.lane2Shut = p.lane2Shut) (h5 : q.spurFull = p.spurFull) :
    chooseExit q = chooseExit p := by
  funext last x
  cases x <;> simp [chooseExit, laneOpen, h1, h2, h3, h4, h5]

section line
variable {s t : State}

theorem plain_frameReceived {bytes : List Byte} (h : execFrameReceived bytes s = .next t) : Plain s t := by
  obtain rfl := Host.Outcome.next.inj h
  split
  · exact .of_same rfl rfl rfl rfl rfl rfl rfl rfl rfl rfl
  · exact .refl s

theorem plain_lineIdle (h : execLineIdle s = .next t) : Plain s t := by
  obtain rfl := Host.Outcome.next.inj h
  split
  · unfold startAttempt
    split
    · exact .of_same rfl rfl rfl rfl rfl rfl rfl rfl rfl rfl
    · exact .refl s
  · exact .refl s

theorem plain_attemptCountedSent (h : execAttemptCountedSent s = .next t) : Plain s t := by
  obtain rfl := Host.Outcome.next.inj h
  split
  · simp only [attemptSent]
    split
    · exact .of_same (by simp) (by simp) (by simp) (by simp) (by simp) (by simp) (by simp) (by simp) (by simp) (by simp)
    · exact .of_same rfl rfl rfl rfl rfl rfl rfl rfl rfl rfl
  · exact .refl s

theorem plain_attemptFailed (h : execLostArbitration s = .next t ∨ execAttemptErrored s = .next t) : Plain s t := by
  obtain rfl : (if s.line.sending.isSome then attemptFailed s else s) = t := by
    obtain h | h := h <;> exact Host.Outcome.next.inj h
  split
  · exact .of_same rfl rfl rfl rfl rfl rfl rfl rfl rfl rfl
  · exact .refl s

theorem plain_queryReceived (h : execQueryReceived s = .next t) : Plain s t := by
  obtain rfl := Host.Outcome.next.inj h
  split
  · split
    · unfold answerQuery
      split
      · exact .of_same rfl rfl rfl rfl rfl rfl rfl rfl rfl rfl
      · have h1 : SameCore s (dropHead s) := ⟨rfl, rfl, rfl, rfl, rfl, rfl, rfl, rfl, rfl, rfl, rfl⟩
        have h2 : SameCore (dropHead s) (queueFrame .status (dropHead s)) := by constructor <;> simp
        exact .still (h1.trans h2) (by simp [dropHead])
    · exact .refl s
  · exact .refl s

end line

/-! ## Frames handed on -/

section handoff
variable {s t : State}

theorem plain_holdReceived (h : execHoldReceived s = .next t) : Plain s t := by
  obtain rfl := Host.Outcome.next.inj h
  split
  · split
    · refine .settled ⟨rfl, .inl rfl, rfl, rfl, .inl rfl, rfl, rfl, .refl _ _, fun hr => (roomForOffer_of_roomFor hr :)⟩
    · exact .refl s
  · exact .refl s

theorem plain_resumeReceived (h : execResumeReceived s = .next t) : Plain s t := by
  obtain rfl := Host.Outcome.next.inj h
  split
  · split
    · refine .settled ⟨rfl, .inl rfl, rfl, rfl, .inl rfl, rfl, rfl, .refl _ _, fun hr => (roomForOffer_of_roomFor hr :)⟩
    · exact .refl s
  · exact .refl s

/-- An operation that carries the table on and changes nothing else. -/
theorem Worked.table_only {T : List Entry} (h : Evolved (!hasRole s .dispatch) s.table T) : Worked s (s.setTable T) :=
  ⟨rfl, rfl, rfl, rfl, rfl, rfl, h, id⟩

theorem worked_heardReleased (k : Track) (s : State) : Worked s (heardReleased k s) := by
  refine Worked.table_only (.of_map fun e _ => ?_)
  split
  · exact ⟨rfl, .inl ⟨rfl, rfl⟩⟩
  · exact Carried.refl _ e

theorem worked_dropOutbound (k : Track) (s : State) : Worked s (dropOutbound k s) := by
  refine Worked.table_only (.of_filter fun e _ hp => ?_)
  have : e.state = .outbound ∧ e.record.track = k := by simpa using hp
  exact this.1

theorem worked_heardTaken (k : Track) (s : State) : Worked s (heardTaken k s) := by
  unfold heardTaken
  split
  · exact Worked.refl s
  · refine (worked_dropOutbound k s).trans (Worked.table_only (.of_map fun e _ => ?_))
    split
    · exact ⟨rfl, .inl ⟨rfl, rfl⟩⟩
    · exact Carried.refl _ e

theorem plain_releasedReceived (h : execReleasedReceived s = .next t) : Plain s t := by
  obtain rfl := Host.Outcome.next.inj h
  split
  · split
    · exact .worked ((Worked.dropHead s).trans (worked_heardReleased _ _))
    · exact .refl s
  · exact .refl s

theorem plain_takenReceived (h : execTakenReceived s = .next t) : Plain s t := by
  obtain rfl := Host.Outcome.next.inj h
  split
  · split
    · exact .worked ((Worked.dropHead s).trans (worked_heardTaken _ _))
    · exact .refl s
  · exact .refl s

theorem plain_lostReceived (h : execLostReceived s = .next t) : Plain s t := by
  obtain rfl := Host.Outcome.next.inj h
  split
  · split
    · exact .worked ((Worked.dropHead s).trans (worked_dropOutbound _ _))
    · exact .refl s
  · exact .refl s

theorem plain_manifestReceived (h : execManifestReceived s = .next t) : Plain s t := by
  obtain rfl := Host.Outcome.next.inj h
  split
  · split
    · refine .worked ((Worked.dropHead s).trans ?_)
      split
      · rename_i p _ _ _ hc
        have hd : hasRole (dropHead s) .dispatch = false := hasRole_unique (s := dropHead s) (r := .check) hc (by decide)
        have h1 := worked_receiveManifest (s := dropHead s) p hd
        exact h1.trans (worked_evalStep (h1.role hd))
      · exact Worked.refl _
    · exact .refl s
  · exact .refl s

/-- The entry of a track is the only one with it. -/
theorem eq_of_track {T : List Entry} (h : (T.map fun e => e.record.track).Nodup) {x y : Entry} (hx : x ∈ T) (hy : y ∈ T)
    (hk : x.record.track = y.record.track) : x = y := List.inj_on_of_nodup_map h hx hy hk

theorem entryOf_eq_some {k : Track} {e : Entry} (h : entryOf s k = some e) : e ∈ s.table ∧ e.record.track = k :=
  ⟨List.mem_of_find?_eq_some h, by simpa using List.find?_some h⟩

theorem worked_removeTrack {k : Track} {e : Entry} (hs : tableSound s) (he : entryOf s k = some e)
    (ho : e.state = .outbound) : Worked s (removeTrack k s) := by
  obtain ⟨hm, hk⟩ := entryOf_eq_some he
  refine Worked.table_only (.of_filter fun x hx hp => ?_)
  have hxk : x.record.track = k := by simpa using hp
  rw [eq_of_track hs.2 hx hm (hxk.trans hk.symm), ho]

theorem plain_takenTimerExpiry {k : Track} (hs : tableSound s) (h : execTakenTimerExpiry k s = .next t) : Plain s t := by
  obtain rfl := Host.Outcome.next.inj h
  split
  · rename_i e he
    split
    · rename_i hc
      simp only [Bool.and_eq_true, decide_eq_true_eq] at hc
      exact .worked ((worked_removeTrack hs he hc.1.1.2).trans (Worked.notify _ _))
    · exact .refl s
  · exact .refl s

end handoff

/-! ## Eyes, SAFE#, HOLD_SW -/

section pins
variable {s t : State}

theorem evolves_eyes {p : Pins} (h : p = { s.pins with eyeEntry := p.eyeEntry, eyePos := p.eyePos, eyeExit := p.eyeExit }) :
    Evolves s (s.setPins p) := .pins (by rw [h]; exact chooseExit_congr rfl rfl rfl rfl rfl)

theorem plain_entryEyeClears (h : execEntryEyeClears s = .next t) : Plain s t := by
  obtain rfl := Host.Outcome.next.inj h
  exact .settled (evolves_eyes rfl)

theorem plain_positionEyeClears (h : execPositionEyeClears s = .next t) : Plain s t := by
  obtain rfl := Host.Outcome.next.inj h
  exact .settled (evolves_eyes rfl)

theorem plain_exitEyeBlocks (h : execExitEyeBlocks s = .next t) : Plain s t := by
  obtain rfl := Host.Outcome.next.inj h
  refine .settled ?_
  split
  · exact ⟨rfl, .inl rfl, rfl, rfl, .inl rfl, rfl, chooseExit_congr rfl rfl rfl rfl rfl, .refl _ _,
      fun hr => (roomForOffer_of_roomFor hr :)⟩
  · exact evolves_eyes rfl

theorem queueFrame_length_le (f : TxFrame) (s : State) :
    (queueFrame f s).line.tx.length ≤ s.line.tx.length + 1 := by
  rw [queueFrame_line]
  split
  · obtain ⟨-, hp⟩ | ⟨-, -, hp⟩ | ⟨-, -, hgc, hp⟩ | ⟨-, -, -, hp⟩ := pushFrame_cases f s.line
    · simp [hp]
    · simp [hp]
    · have := dropYoungest_length (q := s.line.tx) (by omega)
      simp only [hp, markTxOverrun, insertTx_length]
      omega
    · simp [hp, markTxOverrun]
  · omega

/-- The own hold entry follows its inputs: the hold set and the queue change, and offering may end (R48). -/
theorem evolves_followOwnHold {p : Pins} {before : Option HoldCause} (hp : chooseExit p = chooseExit s.pins) :
    Evolves s (followOwnHold before (s.setPins p)) := by
  obtain ⟨-, -, s1, hs1, h⟩ | ⟨-, h⟩ := followOwnHold_cases before (s.setPins p)
  · have hlen : s1.line.tx.length ≤ s.line.tx.length := by
      obtain ⟨-, -, hso⟩ | ⟨-, hso⟩ := stopOffering_cases
        (setHolds (setHold (s.setPins p).cfg.node (ownHold (s.setPins p).pins) (s.setPins p).zone.holds) (s.setPins p))
      · rw [hs1, hso]
        exact List.length_filterMap_le ..
      · rw [hs1, hso]; rfl
    have htimer : s1.zone.offerTimer = s.zone.offerTimer ∨ s1.zone.offerTimer = none := by
      obtain ⟨-, -, hso⟩ | ⟨-, hso⟩ := stopOffering_cases
        (setHolds (setHold (s.setPins p).cfg.node (ownHold (s.setPins p).pins) (s.setPins p).zone.holds) (s.setPins p))
      · rw [hs1, hso]; exact .inr (by simp)
      · rw [hs1, hso]; exact .inl rfl
    rw [h]
    split
    · refine ⟨by simp [hs1], .inl (by simp [hs1]), by simp [hs1], by simp [hs1, setHolds], htimer, by simp [hs1],
        by simpa [hs1] using hp, .of_eq (by simp [hs1]), fun hr => roomForOffer_of_lt ?_⟩
      have := tx_of_roomFor hr
      simp only [Config.txCapacity]
      omega
    · refine ⟨by simp [hs1], .inl (by simp [hs1]), by simp [hs1], by simp [hs1, setHolds], by simpa using htimer,
        by simp [hs1], by simpa [hs1] using hp, .of_eq (by simp [hs1]), fun hr => RoomForOffer.first ?_ ?_⟩
      · have := tx_of_roomFor hr
        simp only [Config.txCapacity]
        omega
      · cases ownHold s1.pins <;> rfl
  · rw [h]
    exact .pins hp

theorem worked_haltWrap (s : State) : Worked s (haltWrap s) := by
  unfold haltWrap
  split
  · exact Worked.wrap s _
  · exact Worked.refl s

theorem worked_resumeRole (s : State) : Worked s (resumeRole s) := by
  unfold resumeRole
  split
  · exact worked_wrapStep s
  · split
    · split
      · exact (worked_startApply s).trans (worked_labelStep _)
      · exact worked_labelStep s
    · exact Worked.refl s

theorem plain_safeAsserted (h : execSafeAsserted s = .next t) : Plain s t := by
  obtain rfl := Host.Outcome.next.inj h
  have h1 := evolves_followOwnHold (s := s) (p := { s.pins with safe := true }) (before := ownHold s.pins)
    (chooseExit_congr rfl rfl rfl rfl rfl)
  exact .settled (h1.andThen (worked_haltWrap _))

theorem plain_safeReleased (h : execSafeReleased s = .next t) : Plain s t := by
  obtain rfl := Host.Outcome.next.inj h
  have h1 := evolves_followOwnHold (s := s) (p := { s.pins with safe := false }) (before := ownHold s.pins)
    (chooseExit_congr rfl rfl rfl rfl rfl)
  exact .settled (h1.andThen (worked_resumeRole _))

theorem plain_holdSwChange {on : Bool} (h : execHoldSwChange on s = .next t) : Plain s t := by
  obtain rfl := Host.Outcome.next.inj h
  exact .settled (evolves_followOwnHold (chooseExit_congr rfl rfl rfl rfl rfl))

end pins

/-! ## The role's inputs and timers -/

section check
variable {s t : State}

theorem plain_codeReaderLine {chars : List RxChar} (h : execCodeReaderLine chars s = .next t) : Plain s t := by
  obtain rfl := Host.Outcome.next.inj h
  split
  · rename_i hw
    have hd := not_dispatch_of_works hw (by decide)
    have h1 := worked_judgeLine chars hd
    exact .worked (h1.trans (worked_evalStep (h1.role hd)))
  · split
    · rename_i hw
      have hd := not_dispatch_of_works hw (by decide)
      exact .worked ((worked_judgeLine chars hd).trans (worked_labelStep _))
    · exact .refl s

theorem plain_tagWaitExpiry (h : execTagWaitExpiry s = .next t) : Plain s t := by
  obtain rfl := Host.Outcome.next.inj h
  split
  · rename_i hw
    have hd := not_dispatch_of_works (Bool.and_eq_true_iff.1 hw).1 (by decide)
    have h1 := worked_tagUnread s
    exact .worked (h1.trans (worked_evalStep (h1.role hd)))
  · exact .refl s

theorem plain_manifestWaitExpiry (h : execManifestWaitExpiry s = .next t) : Plain s t := by
  obtain rfl := Host.Outcome.next.inj h
  split
  · rename_i hw
    have hd := not_dispatch_of_works (Bool.and_eq_true_iff.1 hw).1 (by decide)
    have h1 := (worked_endRequest s).trans (worked_manifestMissing _ .notFound)
    exact .worked (h1.trans (worked_evalStep (h1.role hd)))
  · exact .refl s

theorem plain_scanStart (h : execScanStart s = .next t) : Plain s t := by
  obtain rfl := Host.Outcome.next.inj h
  split
  · exact .of_same rfl rfl rfl rfl rfl rfl rfl rfl rfl rfl
  · exact .refl s

/-- The entry to IN_SERVICE: HELLO first, then what STARTING owes (R180, R181). -/
theorem evolves_enterInService {m : State} (h : Worked s m) (ha : active s = true)
    (hlen : m.line.tx.length ≤ s.line.tx.length + 1) : Evolves s (enterInService m) := by
  have h1 : Evolves s (addOwnHold (queueFrame .hello (m.setService .inService))) := by
    refine ⟨by simp [h.cfg], .inr ⟨ha, by simp⟩, by simp [h.slot], by simp [addOwnHold, setHolds, h.zone],
      .inl (by simp [addOwnHold, setHolds, h.zone]), by simp [h.route], by simp [h.exits], by simpa using h.table,
      fun hr => RoomForOffer.first (s := m.setService .inService) ?_ rfl⟩
    have := tx_of_roomFor hr
    simp only [Config.txCapacity, State.setService_line]
    omega
  refine (h1.andThen ?_).andThen (worked_raiseRequest _)
  unfold payOwedFault
  split
  · exact (Worked.weigh _ _).trans (Worked.notify _ _)
  · exact Worked.refl _

theorem setScaleFault_length_le (k : ZeroFaultKind) (v : Option Int) (s : State) :
    (setScaleFault k v s).line.tx.length ≤ s.line.tx.length + 1 := by
  unfold setScaleFault
  split
  · omega
  · split
    · exact queueFrame_length_le _ _
    · simp

theorem zeroAttempt_length_le (s : State) : (zeroAttempt s).line.tx.length ≤ s.line.tx.length + 1 := by
  simp only [zeroAttempt]
  split
  · simp
  · simpa using setScaleFault_length_le _ _ s

theorem evolves_takeScan {x : Sample} {u : State} (ha : active s = true) (hd : hasRole s .dispatch = false)
    (h : Worked s u) (hu : u.line = s.line) : Evolves s (takeScan x u) := by
  unfold takeScan
  split
  · have h1 := h.trans (worked_weighScan x u)
    exact .of_worked (h1.trans (worked_evalStep (h1.role hd)))
  · have h1 := h.trans (worked_joinScan x u)
    unfold idleScan
    split
    · exact .of_worked h1
    · split
      · refine evolves_enterInService ((h1.trans (worked_zeroAttempt _)).trans (Worked.weigh _ _)) ha ?_
        refine (zeroAttempt_length_le (joinScan x u)).trans ?_
        rw [joinScan_line, hu]
      · split
        · exact .of_worked (h1.trans (worked_zeroAttempt _))
        · exact .of_worked h1

theorem plain_scanComplete {raw : RawScan} (h : execScanComplete raw s = .next t) : Plain s t := by
  obtain rfl := Host.Outcome.next.inj h
  split
  · rename_i hw
    exact .settled (evolves_takeScan ((works_iff _).1 hw).1 (not_dispatch_of_works hw (by decide)) (Worked.weigh s _) rfl)
  · exact .refl s

theorem plain_startZeroTimerExpiry (h : execStartZeroTimerExpiry s = .next t) : Plain s t := by
  obtain rfl := Host.Outcome.next.inj h
  split
  · rename_i hw
    have ha := ((works_iff _).1 (Bool.and_eq_true_iff.1 hw).1).1
    exact .settled (evolves_enterInService ((worked_setScaleFault _ _ s).trans (Worked.weigh _ _)) ha
      (setScaleFault_length_le _ _ s))
  · exact .refl s

theorem plain_zeroDueExpiry (h : execZeroDueExpiry s = .next t) : Plain s t := by
  obtain rfl := Host.Outcome.next.inj h
  split
  · have h1 := Worked.weigh s { s.weigh with zeroDue := some s.cfg.check.zeroInterval }
    refine .worked (h1.trans ?_)
    split
    · exact worked_zeroAttempt _
    · exact worked_postponeZero _
  · exact .refl s

theorem plain_settleTimerExpiry (h : execSettleTimerExpiry s = .next t) : Plain s t := by
  obtain rfl := Host.Outcome.next.inj h
  split
  · rename_i hw
    have hd := not_dispatch_of_works (Bool.and_eq_true_iff.1 hw).1 (by decide)
    have h1 := worked_endWeighing .unstable s
    exact .worked (h1.trans (worked_evalStep (h1.role hd)))
  · exact .refl s

theorem plain_encoderStep {beams : BitVec 40} (h : execEncoderStep beams s = .next t) : Plain s t := by
  obtain rfl := Host.Outcome.next.inj h
  split
  · rename_i hw
    have hd := not_dispatch_of_works hw (by decide)
    have h1 := (Worked.prof s { s.prof with counter := s.prof.counter + 1 }).trans (worked_profileStep beams _)
    exact .worked (h1.trans (worked_evalStep (h1.role hd)))
  · exact .refl s

end check

section wrap
variable {s t : State}

theorem plain_wrReadyRises (h : execWrReadyRises s = .next t) : Plain s t := by
  obtain rfl := Host.Outcome.next.inj h
  have hp : Evolves s (s.setPins { s.pins with wrReady := true }) := .pins (chooseExit_congr rfl rfl rfl rfl rfl)
  split
  · have h1 := hp.andThen (Worked.wrap _ { s.wrap with fault := false })
    exact .settled (h1.andThen (worked_wrapStep _))
  · exact .of_same rfl rfl rfl rfl rfl rfl rfl (chooseExit_congr rfl rfl rfl rfl rfl) rfl rfl

theorem plain_wrReadyFalls (h : execWrReadyFalls s = .next t) : Plain s t := by
  obtain rfl := Host.Outcome.next.inj h
  exact .of_same rfl rfl rfl rfl rfl rfl rfl (chooseExit_congr rfl rfl rfl rfl rfl) rfl rfl

theorem plain_wrRunRises (h : execWrRunRises s = .next t) : Plain s t := by
  obtain rfl := Host.Outcome.next.inj h
  split
  · exact .of_same rfl rfl rfl rfl rfl rfl rfl rfl rfl rfl
  · exact .refl s

theorem plain_wrDoneRises (h : execWrDoneRises s = .next t) : Plain s t := by
  obtain rfl := Host.Outcome.next.inj h
  split
  · rename_i hw
    exact .worked (worked_completeWrap (not_dispatch_of_works (Bool.and_eq_true_iff.1 hw).1 (by decide)))
  · exact .refl s

theorem plain_wrFaultRises (h : execWrFaultRises s = .next t) : Plain s t := by
  obtain rfl := Host.Outcome.next.inj h
  have hp : Evolves s (s.setPins { s.pins with wrFault := true }) := .pins (chooseExit_congr rfl rfl rfl rfl rfl)
  split
  · rename_i hw
    refine .settled (hp.andThen ?_)
    split
    · exact worked_failWrap _ (hp.role (not_dispatch_of_works hw (by decide)))
    · exact Worked.wrap _ _
  · exact .of_same rfl rfl rfl rfl rfl rfl rfl (chooseExit_congr rfl rfl rfl rfl rfl) rfl rfl

theorem plain_wrFaultFalls (h : execWrFaultFalls s = .next t) : Plain s t := by
  obtain rfl := Host.Outcome.next.inj h
  have hp : Evolves s (s.setPins { s.pins with wrFault := false }) := .pins (chooseExit_congr rfl rfl rfl rfl rfl)
  split
  · exact .settled (hp.andThen (worked_wrapStep _))
  · exact .of_same rfl rfl rfl rfl rfl rfl rfl (chooseExit_congr rfl rfl rfl rfl rfl) rfl rfl

theorem plain_wrFilmRises (h : execWrFilmRises s = .next t) : Plain s t := by
  obtain rfl := Host.Outcome.next.inj h
  split
  · refine .of_same (by simp) (by simp) (by simp) (by simp) (by simp) (by simp) (by simp [eyesClear]) ?_ (by simp)
      (by simp)
    rw [notify_pins]
    exact chooseExit_congr rfl rfl rfl rfl rfl
  · exact .of_same rfl rfl rfl rfl rfl rfl rfl (chooseExit_congr rfl rfl rfl rfl rfl) rfl rfl

theorem plain_startTimerExpiry (h : execStartTimerExpiry s = .next t) : Plain s t := by
  obtain rfl := Host.Outcome.next.inj h
  split
  · rename_i hw
    simp only [Bool.and_eq_true] at hw
    exact .worked (worked_failWrap _ (not_dispatch_of_works hw.1.1 (by decide)))
  · exact .refl s

theorem plain_wrapTimerExpiry (h : execWrapTimerExpiry s = .next t) : Plain s t := by
  obtain rfl := Host.Outcome.next.inj h
  split
  · rename_i hw
    simp only [Bool.and_eq_true] at hw
    exact .worked (worked_failWrap _ (not_dispatch_of_works hw.1.1.1 (by decide)))
  · exact .refl s

/-- The level of WR_FILM is found; nothing else but the free values' counter changes. -/
theorem worked_findFilm (film : Option Bool) (s : State) : Worked s (findFilm film s) := by
  refine ⟨by simp, by simp, by simp, by simp, by simp, ?_, .of_eq (by simp), by simp⟩
  obtain ⟨level, -, h⟩ | ⟨-, -, h⟩ | ⟨-, -, -, h⟩ := findFilm_cases film s <;> rw [h]
  all_goals exact chooseExit_congr rfl rfl rfl rfl rfl

theorem plain_wrAbortPulseEnd {film : Option Bool} (h : execWrAbortPulseEnd s film = .next t) : Plain s t := by
  obtain rfl := Host.Outcome.next.inj h
  have h1 := worked_findFilm film s
  split
  · rename_i hw
    have ha := ((works_iff _).1 (Bool.and_eq_true_iff.1 hw).1).1
    have h2 := h1.trans (Worked.wrap _ { (findFilm film s).wrap with abort := none })
    refine .settled (Evolves.andThen ?_ (worked_wrapStep _))
    unfold endWrapStart
    split
    · refine (evolves_enterInService h2 ha (by simp)).andThen ?_
      unfold reportFilm
      split
      · exact Worked.notify _ _
      · exact Worked.refl _
    · exact .of_worked h2
  · exact .refl s

end wrap

section label
variable {s t : State}

theorem plain_of_label {x : LabelUnit} : Plain s (s.setLabel x) := .of_same rfl rfl rfl rfl rfl rfl rfl rfl rfl rfl

theorem plain_pdReceived {line : List RxChar} (h : execPdReceived line s = .next t) : Plain s t := by
  obtain rfl := Host.Outcome.next.inj h
  split
  · split
    · unfold heardPrinted
      split
      · split <;> exact .of_same rfl rfl rfl rfl rfl rfl rfl rfl rfl rfl
      · exact plain_of_label
    · exact plain_of_label
  · exact .refl s

theorem plain_apReceived {line : List RxChar} (h : execApReceived line s = .next t) : Plain s t := by
  obtain rfl := Host.Outcome.next.inj h
  split
  · split
    · unfold heardApplied
      split
      · exact .of_same rfl rfl rfl rfl rfl rfl rfl rfl rfl rfl
      · exact plain_of_label
    · exact plain_of_label
  · exact .refl s

theorem plain_msReceived {line : List RxChar} (h : execMsReceived line s = .next t) : Plain s t := by
  obtain rfl := Host.Outcome.next.inj h
  split
  · rename_i hw
    split
    · have hd := (worked_emptyLink s).role (not_dispatch_of_works hw (by decide))
      exact .worked (((worked_emptyLink s).trans (worked_heardMissed hd)).trans (worked_labelStep _))
    · exact plain_of_label
  · exact .refl s

theorem plain_ftReceived {line : List RxChar} (h : execFtReceived line s = .next t) : Plain s t := by
  obtain rfl := Host.Outcome.next.inj h
  split
  · rename_i hw
    split
    · have hd := (worked_emptyLink s).role (not_dispatch_of_works hw (by decide))
      exact .worked ((worked_emptyLink s).trans (worked_heardFault _ hd))
    · exact plain_of_label
  · exact .refl s

theorem evolves_endStartTask {m : State} (h : Worked s m) (ha : active s = true) (hl : m.line = s.line) :
    Evolves s (endStartTask m) := by
  unfold endStartTask
  split
  · exact evolves_enterInService h ha (by rw [hl]; omega)
  · exact .of_worked h

theorem plain_ryReceived {line : List RxChar} (h : execRyReceived line s = .next t) : Plain s t := by
  obtain rfl := Host.Outcome.next.inj h
  split
  · rename_i hw
    split
    · have h1 := (worked_emptyLink s).trans
        (Worked.label _ { (emptyLink s).label with fault := false, abortWait := none })
      exact .settled ((evolves_endStartTask h1 ((works_iff _).1 hw).1 rfl).andThen (worked_labelStep _))
    · exact plain_of_label
  · exact .refl s

theorem plain_printTimerExpiry (h : execPrintTimerExpiry s = .next t) : Plain s t := by
  obtain rfl := Host.Outcome.next.inj h
  split
  · rename_i hw
    simp only [Bool.and_eq_true] at hw
    exact .worked (worked_failLabel _ (not_dispatch_of_works hw.1.1.1 (by decide)))
  · exact .refl s

theorem plain_applyTimerExpiry (h : execApplyTimerExpiry s = .next t) : Plain s t := by
  obtain rfl := Host.Outcome.next.inj h
  split
  · rename_i hw
    simp only [Bool.and_eq_true] at hw
    exact .worked (worked_failLabel _ (not_dispatch_of_works hw.1.1.1 (by decide)))
  · exact .refl s

theorem plain_verifyTimerExpiry (h : execVerifyTimerExpiry s = .next t) : Plain s t := by
  obtain rfl := Host.Outcome.next.inj h
  split
  · rename_i hw
    simp only [Bool.and_eq_true] at hw
    have h1 := worked_openWindow s .closed
    have h2 := h1.trans (worked_failLabel .verifyTimeout (h1.role (not_dispatch_of_works hw.1.1.1 (by decide))))
    exact .worked (h2.trans (worked_labelStep _))
  · exact .refl s

theorem plain_abortWaitExpiry (h : execAbortWaitExpiry s = .next t) : Plain s t := by
  obtain rfl := Host.Outcome.next.inj h
  split
  · rename_i hw
    exact .settled (evolves_endStartTask (Worked.label s _) ((works_iff _).1 (Bool.and_eq_true_iff.1 hw).1).1 rfl)
  · exact .refl s

theorem plain_historyEntryLeavesWindow (h : execHistoryEntryLeavesWindow s = .next t) : Plain s t := by
  obtain rfl := Host.Outcome.next.inj h
  split
  · exact .worked ((Worked.label s _).trans (worked_labelStep _))
  · exact .refl s

end label

/-! ## All of them -/

/-- The commands that change the zone state, the slot or the route, or the service state by RESET and the image. -/
def changesZone : Instr → Bool
  | .reset | .resetRelease | .imageReadComplete _ | .clearReceived | .offerReceived | .acceptReceived | .helloReceived
  | .entryEyeBlocks | .positionEyeBlocks | .exitEyeClears | .ackPress | .offerRepeatExpiry | .arrivalTimerExpiry
  | .positionTimerExpiry | .releaseTimerExpiry | .laneInputChange _ _ | .laneWaitExpiry => true
  | _ => false

/-- Every other command is plain. -/
theorem exec_plain {c : Instr} {s t : State} (hc : changesZone c = false) (hs : tableSound s) (h : exec c s = .next t) :
    Plain s t := by
  cases c with
  | frameReceived bytes => exact plain_frameReceived h
  | holdReceived => exact plain_holdReceived h
  | resumeReceived => exact plain_resumeReceived h
  | releasedReceived => exact plain_releasedReceived h
  | takenReceived => exact plain_takenReceived h
  | lostReceived => exact plain_lostReceived h
  | manifestReceived => exact plain_manifestReceived h
  | queryReceived => exact plain_queryReceived h
  | lineIdle => exact plain_lineIdle h
  | attemptCountedSent => exact plain_attemptCountedSent h
  | lostArbitration => exact plain_attemptFailed (.inl h)
  | attemptErrored => exact plain_attemptFailed (.inr h)
  | entryEyeClears => exact plain_entryEyeClears h
  | positionEyeClears => exact plain_positionEyeClears h
  | exitEyeBlocks => exact plain_exitEyeBlocks h
  | safeAsserted => exact plain_safeAsserted h
  | safeReleased => exact plain_safeReleased h
  | holdSwChange on => exact plain_holdSwChange h
  | takenTimerExpiry k => exact plain_takenTimerExpiry hs h
  | codeReaderLine chars => exact plain_codeReaderLine h
  | tagWaitExpiry => exact plain_tagWaitExpiry h
  | manifestWaitExpiry => exact plain_manifestWaitExpiry h
  | scanStart => exact plain_scanStart h
  | scanComplete raw => exact plain_scanComplete h
  | startZeroTimerExpiry => exact plain_startZeroTimerExpiry h
  | zeroDueExpiry => exact plain_zeroDueExpiry h
  | settleTimerExpiry => exact plain_settleTimerExpiry h
  | encoderStep beams => exact plain_encoderStep h
  | wrReadyRises => exact plain_wrReadyRises h
  | wrReadyFalls => exact plain_wrReadyFalls h
  | wrRunRises => exact plain_wrRunRises h
  | wrDoneRises => exact plain_wrDoneRises h
  | wrFaultRises => exact plain_wrFaultRises h
  | wrFaultFalls => exact plain_wrFaultFalls h
  | wrFilmRises => exact plain_wrFilmRises h
  | startTimerExpiry => exact plain_startTimerExpiry h
  | wrapTimerExpiry => exact plain_wrapTimerExpiry h
  | wrAbortPulseEnd film => exact plain_wrAbortPulseEnd h
  | historyEntryLeavesWindow => exact plain_historyEntryLeavesWindow h
  | pdReceived line => exact plain_pdReceived h
  | apReceived line => exact plain_apReceived h
  | msReceived line => exact plain_msReceived h
  | ftReceived line => exact plain_ftReceived h
  | ryReceived line => exact plain_ryReceived h
  | printTimerExpiry => exact plain_printTimerExpiry h
  | applyTimerExpiry => exact plain_applyTimerExpiry h
  | verifyTimerExpiry => exact plain_verifyTimerExpiry h
  | abortWaitExpiry => exact plain_abortWaitExpiry h
  | _ => simp [changesZone] at hc

end Sys2Proof.Machine
end

