-- ==== Proofs/ZoneCommands.lean ====
section
/-! PROOF. The commands that change the zone state, the slot or the route: the table and the zone each leaves before the end of its
event (Table 2-1, R10, R18, R35 to R45, R51 to R53). -/

namespace Sys2Proof.Machine

/-! ## Track numbers (R6) -/

/-- Where the counter stands after `j` steps, as a number. -/
theorem repeat_nextSeq (j a : Nat) (h : j < 2047) : Nat.repeat nextSeq j a =
    if j = 0 then a else if 2047 ≤ a then j else if a + j ≤ 2047 then a + j else a + j - 2047 := by
  induction j with
  | zero => rfl
  | succ j ih =>
    have ih := ih (by omega)
    rw [Nat.repeat, nextSeq, if_neg (Nat.succ_ne_zero j)]
    generalize Nat.repeat nextSeq j a = r at ih ⊢
    split_ifs at ih ⊢ <;> omega

/-- Seven steps of the counter name seven sequences. -/
theorem repeat_nextSeq_inj {i j a : Nat} (hij : i < j) (hj : j ≤ 7) : Nat.repeat nextSeq i a ≠ Nat.repeat nextSeq j a := by
  rw [repeat_nextSeq i a (by omega), repeat_nextSeq j a (by omega)]
  split_ifs <;> omega

theorem trackUsed_iff {s : State} {k : Track} : trackUsed s k = true ↔ k ∈ tableTracks s := by
  simp [trackUsed, tableTracks]

/-- The track a new record takes is one that no record of the table has (R6): a table of six entries leaves one of seven. -/
theorem newTrack_free {s : State} (hlen : s.table.length ≤ 6) : trackUsed s (newTrack s) = false := by
  obtain ⟨j, hj, heq, hused, hfree⟩ := freeSeq_cases s s.table.length s.trackSeq
  obtain hlt | rfl := Nat.lt_or_eq_of_le hj
  · exact hfree hlt
  · by_contra hn
    have hnew : newTrack s ∈ tableTracks s := trackUsed_iff.1 (by simpa using hn)
    set cand : Nat → Track := fun i => { origin := s.cfg.node, seq := Nat.repeat nextSeq i s.trackSeq } with hcand
    have hall : ∀ i ∈ List.range (s.table.length + 1), cand i ∈ tableTracks s := by
      intro i hi
      obtain hlt | rfl := Nat.lt_or_eq_of_le (Nat.lt_succ_iff.1 (List.mem_range.1 hi))
      · exact trackUsed_iff.1 (hused i hlt)
      · simpa [hcand, newTrack, candidateSeq, heq] using hnew
    have hnd : ((List.range (s.table.length + 1)).map cand).Nodup := by
      refine List.Nodup.map_on (fun x hx y hy hxy => ?_) List.nodup_range
      have hx := List.mem_range.1 hx
      have hy := List.mem_range.1 hy
      have hxy : Nat.repeat nextSeq x s.trackSeq = Nat.repeat nextSeq y s.trackSeq := by
        simpa [hcand] using hxy
      obtain h | h | h := Nat.lt_trichotomy x y
      · exact absurd hxy (repeat_nextSeq_inj h (by omega))
      · exact h
      · exact absurd hxy.symm (repeat_nextSeq_inj h (by omega))
    have hsub := hnd.subperm fun k hk => by
      obtain ⟨i, hi, rfl⟩ := List.mem_map.1 hk
      exact hall i hi
    have := hsub.length_le
    simp [tableTracks] at this

/-- The entry of a record made here. -/
def madeEntry (s : State) (unknownOrigin : Bool) (st : RecordState) : Entry :=
  { record := freshRecord (newTrack s) unknownOrigin, state := st, takenHeard := false, timer := none }

theorem createRecord_table' (u : Bool) (st : RecordState) (s : State) :
    (createRecord u st s).table = s.table ++ [madeEntry s u st] := rfl

@[simp] theorem madeEntry_track (s : State) (u : Bool) (st : RecordState) :
    (madeEntry s u st).record.track = newTrack s := rfl

@[simp] theorem madeEntry_state (s : State) (u : Bool) (st : RecordState) : (madeEntry s u st).state = st := rfl

/-- A record made here has a track of its own and a place in a table with room. -/
theorem tableSound_createRecord {s : State} {u : Bool} {st : RecordState} (h : tableSound s)
    (hlen : s.table.length < Config.tableCapacity) : tableSound (createRecord u st s) := by
  refine tableSound_append h (createRecord_table' u st s) hlen fun x hx hk => ?_
  have := newTrack_free (s := s) (by simp only [Config.tableCapacity] at hlen; omega)
  rw [Bool.eq_false_iff, ne_eq, trackUsed_iff] at this
  exact this (List.mem_map.2 ⟨x, hx, hk⟩)

/-- A table of OUTBOUND entries alone has room after the eviction of its oldest (R9). -/
theorem evict_vacant {s : State} (h : tableSound s) (ho : allOutbound s.table) :
    (evict s).table = (if s.table.length < 6 then s.table else s.table.drop 1) ∧
      (evict s).table.length < Config.tableCapacity ∧ allOutbound (evict s).table ∧ tableSound (evict s) := by
  have key : (evict s).table = (if s.table.length < 6 then s.table else s.table.drop 1) := by
    obtain ⟨hlen, he⟩ | ⟨hlen, e, -, he⟩ | ⟨hlen, hnone, -⟩ := evict_cases s
    · rw [he, if_pos (by simpa [Config.tableCapacity] using hlen)]
    · rw [he, if_neg (by simpa [Config.tableCapacity] using hlen), notify_table, State.setTable_table]
      cases hT : s.table with
      | nil => simp [hT, Config.tableCapacity] at hlen
      | cons x rest => simp [ho x (by simp [hT])]
    · cases hT : s.table with
      | nil => simp [hT, Config.tableCapacity] at hlen
      | cons x rest => simp [zoneEntryIn, hT, ho x (by simp [hT])] at hnone
  have hlen := h.1
  simp only [Config.tableCapacity] at hlen ⊢
  have hsub : (evict s).table.Sublist s.table := by
    rw [key]
    split
    · exact List.Sublist.refl _
    · exact List.drop_sublist 1 _
  refine ⟨key, ?_, fun e he => ho e (hsub.subset he), tableSound_of_sublist h (hsub.map _)⟩
  rw [key]
  split
  · assumption
  · rw [List.length_drop]
    omega

/-! ## What the end of the event finds -/

/-- A route that neither the table nor the exit class moves away from keeps its law: where DISPATCH has fixed a class, the record
is the same. -/
theorem routeSound_of_route {s m : State} (h : RouteSound s) (hc : m.cfg = s.cfg)
    (hx : m.route.exitClass = s.route.exitClass) (hcode : m.route.code = s.route.code ∨ m.route.code = .none)
    (hr : hasRole s .dispatch = true → s.route.exitClass.isSome = true → deliveredRecord m = deliveredRecord s) :
    RouteSound m := by
  obtain ⟨h1, h2, h3, h4⟩ := h
  refine ⟨fun hd => by rw [hx, h1 (by rwa [hasRole_congr hc] at hd)], fun x hm => ?_, fun hl => ?_, fun hl => ?_⟩
  · rw [hx] at hm
    cases hd : hasRole s .dispatch
    · simp [h1 hd] at hm
    · rw [hr hd (by simp [Option.mem_def.1 hm]), hc]
      exact h2 x hm
  · obtain hk | hk := hcode
    · rw [hx]; exact h3 (by rw [← hk, hl])
    · simp [hk] at hl
  · obtain hk | hk := hcode
    · rw [hx]; exact h4 (by rw [← hk, hl])
    · simp [hk] at hl

/-- Nothing is routed. -/
theorem routeSound_of_none {m : State} (hx : m.route.exitClass = none) (hcode : m.route.code = .none) : RouteSound m :=
  ⟨fun _ => hx, fun x hm => by simp [hx] at hm, fun h => by simp [hcode] at h, fun h => by simp [hcode] at h⟩

/-- A lane wait that ran for want of an exit still does, or its record has left DONE. -/
theorem routeWaits_of_route {s m : State} (hr : RouteSound s) (hw : RouteFollows s) (hc : m.cfg = s.cfg)
    (hx : m.route.exitClass = s.route.exitClass) (hl : m.route.lastLane = s.route.lastLane)
    (ho : laneWaitOn m = laneWaitOn s) (he : chooseExit m.pins = chooseExit s.pins) : RouteWaits m := by
  intro hm
  have hlack := hw.2 (by rw [← ho, hm])
  obtain ⟨-, hany⟩ : (zoneEntryIn s .done).isSome = true ∧
      s.route.exitClass.any (fun x => (chooseExit s.pins s.route.lastLane x).isNone) = true := by
    simpa only [lacksExit, Bool.and_eq_true] using hlack
  have hd : hasRole s .dispatch = true := by
    by_contra hn
    simp [hr.1 (by simpa using hn)] at hany
  cases hz : zoneEntryIn m .done with
  | none => exact .inr ⟨by rw [hasRole_congr hc, hd], rfl⟩
  | some e => exact .inl (by simp only [lacksExit, hz, hx, hl, he, Option.isSome_some, Bool.true_and]; exact hany)

/-- What the end of an event finds that gives it a sound station to settle, and an OFFER to queue where offering begins. -/
structure Ready (s m : State) : Prop where
  sound : StationSound m
  active : active m = true
  route : RouteSound s → RouteSound m
  waits : RouteSound s → RouteFollows s → RouteWaits m
  offers : OfferingFollows s → offering m = true →
    (m.zone.offerTimer = none ∧ (roomFor 3 s = true → RoomForOffer m.line)) ∨
    (offering s = true ∧ (headEntry m).map (fun x => x.record.track) = (headEntry s).map (fun x => x.record.track)) ∨
    (m.zone.offerTimer = some m.cfg.timing.offerRepeat ∧ (roomFor 3 s = true → ∀ e ∈ headEntry m,
      queued (.offer (downstream m) e.record) m = true))

/-- Where the zone does not stand STOPPED, nothing is offered. -/
theorem ready_of_zone {s m : State} (hs : StationSound m) (ha : active m = true) (hr : RouteSound s → RouteSound m)
    (hw : RouteSound s → RouteFollows s → RouteWaits m) (hz : m.zone.zstate ≠ .stopped) : Ready s m :=
  ⟨hs, ha, hr, hw, fun _ ho => by simp [offering_false_of_zone hz] at ho⟩

/-- A command's event ends in `settle`, after operations as above; or it leaves the station out of service. -/
inductive Ends (s : State) : State → Prop
  | plain {t : State} : Plain s t → Ends s t
  | ready {m : State} : Ready s m → Ends s (settle s m)
  | inactive {t : State} : active t = false → StationSound t → (RouteSound s → RouteSound t) →
      (RouteSound s → Settled s → t.zone.offerTimer = none ∧ laneWaitOn t = false) → Ends s t

/-! ## Jam, arrival timer, offer repeat timer -/

section
variable {s t : State}

theorem routeSound_jam (c : JamCause) (s : State) (hr : RouteSound s) : RouteSound (jam c s) :=
  routeSound_congr hr (by simp) (deliveredRecord_congr (by simp)) (by simp) (by simp)

/-- The zone record stays where it is when the zone jams (R41). -/
theorem ready_jam {c : JamCause} (h : StationSound s) (ha : active s = true)
    (hz : s.zone.zstate = .positioning ∨ s.zone.zstate = .releasing) : Ready s (jam c s) := by
  obtain ⟨outs, tail, hT, ho, hfit⟩ := h.shape
  refine ready_of_zone ?_ (by simpa [active] using ha) (routeSound_jam c s)
    (fun hr hw => routeWaits_of_route hr hw (by simp) (by simp) (by simp) (by simp [laneWaitOn]) (by simp)) (by simp)
  refine stationSound_of_shape (by simpa [active] using ha) (tableSound_of_sublist h.tracks (by simp [tableTracks]))
    (by simpa using hT) ho ?_
  obtain hz | hz := hz
  · rw [hz, tailFits_positioning] at hfit
    obtain ⟨e, rfl, he | he⟩ := hfit <;> simp [tailFits_jammed, he]
  · rw [hz, tailFits_releasing] at hfit
    obtain ⟨e, rfl, he⟩ := hfit
    simp [tailFits_jammed, he]

theorem ends_positionTimerExpiry (hs : StationSound s) (h : execPositionTimerExpiry s = .next t) : Ends s t := by
  obtain rfl := Host.Outcome.next.inj h
  split
  · rename_i hc
    simp only [Bool.and_eq_true, decide_eq_true_eq] at hc
    exact .ready (ready_jam hs hc.1.1.1 (.inl hc.1.1.2))
  · exact .plain (.refl s)

theorem ends_releaseTimerExpiry (hs : StationSound s) (h : execReleaseTimerExpiry s = .next t) : Ends s t := by
  obtain rfl := Host.Outcome.next.inj h
  split
  · rename_i hc
    simp only [Bool.and_eq_true, decide_eq_true_eq] at hc
    exact .ready (ready_jam hs hc.1.1.1 (.inr hc.1.1.2))
  · exact .plain (.refl s)

/-- The station of an EXPECTED entry is INBOUND, not CHECK, and has no other entry but OUTBOUND ones. -/
theorem StationSound.shape_expected {e : Entry} (h : StationSound s) (he : expectedEntry s = some e) :
    ∃ outs, s.table = outs ++ [e] ∧ allOutbound outs ∧ e.state = .expected ∧ s.zone.zstate = .inbound ∧
      hasRole s .check = false := by
  obtain ⟨outs, tail, hT, ho, hfit⟩ := h.shape
  rw [expectedEntry_of_table hT ho] at he
  cases tail with
  | none => simp at he
  | some x =>
    obtain ⟨hx, rfl⟩ : x.state = .expected ∧ x = e := by simpa using he
    obtain ⟨hz, hc, -⟩ | ha := hfit
    · exact ⟨outs, hT, ho, hx, hz, hc⟩
    · have := inZone_of_allowed ha
      simp [inZone, isZoneState, hx] at this

/-- The entry behind the OUTBOUND ones is the only one with its track. -/
theorem removeTrack_tail {outs : List Entry} {e : Entry} (hs : tableSound s) (hT : s.table = outs ++ [e]) :
    (removeTrack e.record.track s).table = outs := by
  have hn := hs.2
  rw [tableTracks, hT, List.map_append, List.nodup_append] at hn
  rw [removeTrack_table, hT, List.filter_append, List.filter_eq_self.2 fun x hx => ?_]
  · simp
  · simpa using hn.2.2 _ (List.mem_map_of_mem hx) _ (by simp)

/-- What is left when the EXPECTED entry is lost (R18). -/
theorem loseExpected_zone (e : Entry) (s : State) : (loseExpected e s).zone = { s.zone with zstate := .empty } := by
  simp [loseExpected, setZoneState]

theorem loseExpected_table (e : Entry) (s : State) : (loseExpected e s).table = (removeTrack e.record.track s).table := by
  simp [loseExpected]

theorem ready_loseExpected {e : Entry} (h : StationSound s) (ha : active s = true) (he : expectedEntry s = some e) :
    Ready s (loseExpected e s) := by
  obtain ⟨outs, hT, ho, hx, hz, hc⟩ := h.shape_expected he
  have hT' : (loseExpected e s).table = outs := by rw [loseExpected_table, removeTrack_tail h.tracks hT]
  have hact : active (loseExpected e s) = true := by simpa [active, loseExpected] using ha
  refine ready_of_zone (stationSound_of_shape (outs := outs) (tail := none) hact
    (tableSound_of_sublist h.tracks ?_) (by simp [hT']) ho ?_) hact (fun hr => ?_) (fun hr hw => ?_)
    (by simp [loseExpected_zone])
  · simp [tableTracks, hT', hT]
  · simp [loseExpected_zone, tailFits_empty]
  · refine routeSound_of_route hr (by simp [loseExpected]) (by simp [loseExpected]) (.inl (by simp [loseExpected]))
      fun _ _ => ?_
    have hT'' : (loseExpected e s).table = outs ++ [] := by simp [hT']
    rw [deliveredRecord, deliveredRecord, zoneEntry_of_table hT ho, zoneEntry_of_table hT'' ho]
    simp [inZone, isZoneState, hx]
  · exact routeWaits_of_route hr hw (by simp [loseExpected]) (by simp [loseExpected]) (by simp [loseExpected])
      (by simp [laneWaitOn, loseExpected]) (by simp [loseExpected])

theorem ends_arrivalTimerExpiry (hs : StationSound s) (h : execArrivalTimerExpiry s = .next t) : Ends s t := by
  obtain rfl := Host.Outcome.next.inj h
  split
  · rename_i e he
    split
    · rename_i hc
      simp only [Bool.and_eq_true] at hc
      exact .ready (ready_loseExpected hs hc.1.1 he)
    · exact .plain (.refl s)
  · exact .plain (.refl s)

theorem sameCore_offerNow (s : State) : SameCore s (offerNow s) := by
  unfold offerNow
  split
  · constructor <;> simp
  · exact SameCore.refl s

theorem ends_offerRepeatExpiry (hs : StationSound s) (h : execOfferRepeatExpiry s = .next t) : Ends s t := by
  obtain rfl := Host.Outcome.next.inj h
  split
  · rename_i hc
    have ho : offering s = true := (Bool.and_eq_true_iff.1 hc).2
    have hsame := sameCore_offerNow s
    refine .ready ⟨hsame.stationSound hs, by rw [hsame.active]; exact active_of_inService (offering_iff.1 ho).2.2.2.2,
      fun hr => hsame.routeSound hr, fun _ hw => hsame.routeWaits hw.waits, fun _ _ => .inr (.inl ⟨ho, ?_⟩)⟩
    rw [headEntry_congr hsame.table]
  · exact .plain (.refl s)

end

/-! ## OFFER and ACCEPT -/

section
variable {s t : State}

theorem ends_offerReceived (hs : StationSound s) (h : execOfferReceived s = .next t) : Ends s t := by
  obtain rfl := Host.Outcome.next.inj h
  split
  case h_2 => exact .plain (.refl s)
  rename_i r _ _
  split
  case isFalse => exact .plain (.refl s)
  rename_i hin
  have hs' : StationSound (dropHead s) := stationSound_congr hs rfl rfl rfl rfl rfl
  unfold takeOffer
  split
  · split
    · split
      · refine .plain (.settled ⟨by simp [dropHead], .inl (by simp [dropHead]), by simp [dropHead], by simp [dropHead],
          .inl (by simp [dropHead]), by simp [dropHead], by simp [dropHead], .of_eq (by simp [dropHead]), fun hr =>
            RoomForOffer.first ?_ rfl⟩)
        have := tx_of_roomFor hr
        simp only [dropHead, State.setLine_line, Config.txCapacity]
        omega
      · exact .plain (.worked (Worked.dropHead s))
    · exact .plain (.worked ((Worked.dropHead s).trans (Worked.notify _ _)))
  · rename_i hk
    split
    · exact .plain (.worked (Worked.dropHead s))
    · rename_i hc
      split
      · rename_i hacc
        refine .ready (ready_of_zone (hs'.acceptOffer (by simpa using hc) hacc hk)
          (by simpa [active, inService, dropHead] using active_of_inService hin) (fun hr => ?_) (fun hr hw => ?_) (by simp))
        · refine routeSound_congr hr (by simp [dropHead]) ?_ (by simp [dropHead]) (by simp [dropHead])
          rw [deliveredRecord, zoneEntry, acceptOffer_table, List.find?_append]
          simp [deliveredRecord, zoneEntry, acceptedEntry, inZone, isZoneState, dropHead]
        · exact routeWaits_of_route hr hw (by simp [dropHead]) (by simp [dropHead]) (by simp [dropHead])
            (by simp [laneWaitOn, dropHead]) (by simp [dropHead])
      · refine .ready ⟨?_, active_of_inService (s := s) hin, fun hr => routeSound_congr hr rfl rfl rfl rfl,
          fun hr hw => routeWaits_of_route hr hw rfl rfl rfl rfl rfl, fun _ ho => .inr (.inl ⟨ho, rfl⟩)⟩
        obtain ⟨outs, tail, hT, ho, hfit⟩ := hs.shape
        exact stationSound_of_shape (active_of_inService (s := s) hin) hs.tracks hT ho hfit

/-- An ACCEPT that starts a release finds the DONE head record in a STOPPED zone, away from DISPATCH (R35). -/
theorem acceptStarts_iff {k : Track} {s : State} : acceptStarts k s = true ↔ hasRole s .dispatch = false ∧
    (∃ e, headEntry s = some e ∧ e.state = .done ∧ e.record.track = k) ∧ s.zone.zstate = .stopped ∧
      holdsEmpty s = true := by
  simp only [acceptStarts, Bool.and_eq_true, Bool.not_eq_true', Option.any_eq_true, decide_eq_true_eq, and_assoc]

/-- The zone record of a STOPPED zone. -/
theorem StationSound.shape_stopped (h : StationSound s) (hz : s.zone.zstate = .stopped) :
    ∃ outs e, s.table = outs ++ [e] ∧ allOutbound outs ∧ (e.state = .working ∨ e.state = .done) := by
  obtain ⟨outs, tail, hT, ho, hfit⟩ := h.shape
  rw [hz, tailFits_stopped] at hfit
  obtain ⟨e, rfl, he⟩ := hfit
  exact ⟨outs, e, hT, ho, he⟩

theorem startRelease_table (s : State) : (startRelease s).table =
    s.table.map (fun e => if e.state = .done then { e with state := .releasing } else e) := by
  simp [startRelease]

theorem startRelease_zstate (s : State) : (startRelease s).zone.zstate = .releasing := rfl

/-- A change of entries that leaves their tracks keeps the table's bound and the distinct tracks. -/
theorem tableSound_of_tracks {s t : State} (h : tableSound s) (ht : tableTracks t = tableTracks s) : tableSound t :=
  tableSound_of_sublist h (by rw [ht])

theorem ends_acceptReceived (hs : StationSound s) (h : execAcceptReceived s = .next t) : Ends s t := by
  obtain rfl := Host.Outcome.next.inj h
  split
  case h_2 => exact .plain (.refl s)
  rename_i k _ _
  split
  case isFalse => exact .plain (.refl s)
  rename_i hin
  split
  · rename_i hstart
    obtain ⟨hd, ⟨e, he, hdone, -⟩, hz, -⟩ := acceptStarts_iff.1 hstart
    obtain ⟨outs, x, hT, ho, hx⟩ := hs.shape_stopped hz
    have hT' : (startRelease (dropHead s)).table =
        outs ++ [if x.state = .done then { x with state := .releasing } else x] := by
      rw [startRelease_table, show (dropHead s).table = s.table from rfl, hT, map_behind ho fun e he => by simp [he]]
      rfl
    have hxd : x = e := by
      rw [headEntry_of_table hT ho] at he
      obtain hx | hx := hx <;> simpa [hx] using he
    subst hxd
    rw [if_pos hdone] at hT'
    have hact : active (startRelease (dropHead s)) = true := by
      simpa [active, dropHead] using active_of_inService hin
    refine .ready (ready_of_zone (stationSound_of_shape (tail := some { x with state := .releasing }) hact
      (tableSound_of_tracks hs.tracks ?_) hT' ho ?_) hact (fun hr => ?_) (fun hr hw => ?_)
      (by simp [startRelease_zstate]))
    · simp [tableTracks, hT', hT]
    · simp [startRelease_zstate, tailFits_releasing]
    · exact routeSound_of_route hr (by simp [dropHead]) (by simp [dropHead]) (.inl (by simp [dropHead]))
        fun hn => by simp [hd] at hn
    · exact routeWaits_of_route hr hw (by simp [dropHead]) (by simp [dropHead]) (by simp [dropHead])
        (by simp [laneWaitOn, dropHead]) (by simp [dropHead])
  · exact .plain (.worked (Worked.dropHead s))

end

/-! ## Lane and spur inputs, the lane wait -/

section
variable {s t : State}

theorem lacksExit_watchLaneWait (s : State) : lacksExit (watchLaneWait s) = lacksExit s := by
  obtain ⟨-, h⟩ | ⟨-, -, h⟩ | ⟨-, -, h⟩ := watchLaneWait_cases s <;> simp [h, lacksExit, zoneEntryIn]

/-- The test of R171 leaves a lane wait only for a record that lacks an exit. -/
theorem routeWaits_watchLaneWait (s : State) : RouteWaits (watchLaneWait s) := by
  intro hw
  left
  rw [lacksExit_watchLaneWait]
  obtain ⟨-, h⟩ | ⟨hl, -, -⟩ | ⟨hl, -, -⟩ := watchLaneWait_cases s
  · rw [h] at hw
    simp [laneWaitOn] at hw
  · exact hl
  · exact hl

/-- A lane wait is on only at DISPATCH. -/
theorem laneWaitOn_of_not_dispatch (hr : RouteSound s) (hw : RouteFollows s) (hd : hasRole s .dispatch = false) :
    laneWaitOn s = false := by
  by_contra hn
  have := hw.2 (by simpa using hn)
  simp [lacksExit, hr.1 hd] at this

theorem laneWaitOn_of_empty_table (hw : RouteFollows s) (hT : s.table = []) : laneWaitOn s = false := by
  by_contra hn
  have := hw.2 (by simpa using hn)
  simp [lacksExit, zoneEntryIn, hT] at this

theorem not_offering_of_inactive (ha : active s = false) : offering s = false := by
  refine Bool.eq_false_iff.2 fun ho => ?_
  simp [active_of_inService (offering_iff.1 ho).2.2.2.2] at ha

theorem timer_of_not_offering (h : OfferingFollows s) (ho : offering s = false) : s.zone.offerTimer = none := by
  simpa [OfferingFollows, ho] using h

theorem ends_laneInputChange {i : LaneInput} {level : Bool} (hs : StationSound s)
    (h : execLaneInputChange i level s = .next t) : Ends s t := by
  obtain rfl := Host.Outcome.next.inj h
  have hs1 : StationSound (s.setPins (setLaneInput i level s.pins)) := stationSound_congr hs rfl rfl rfl rfl rfl
  have hr1 : RouteSound s → RouteSound (s.setPins (setLaneInput i level s.pins)) :=
    fun hr => routeSound_congr hr rfl rfl rfl rfl
  cases ha : active s
  · have hw : works s .dispatch = false := by simp [works, ha]
    rw [hw, if_neg Bool.false_ne_true, settle_inactive (by exact ha)]
    refine .inactive ha hs1 hr1 fun hr hset => ⟨timer_of_not_offering hset.1 (not_offering_of_inactive ha), ?_⟩
    exact laneWaitOn_of_empty_table (s := s) hset.2.2.1 (hs.idle ha).1
  · cases hd : hasRole s .dispatch
    · have hw : works s .dispatch = false := by simp [works, hd]
      rw [hw]
      refine .ready ⟨hs1, ha, hr1, fun hr hf hn => ?_, fun _ ho => .inr (.inl ⟨ho, rfl⟩)⟩
      have := laneWaitOn_of_not_dispatch hr hf hd
      simp [show laneWaitOn s = true from hn] at this
    · have hw : works s .dispatch = true := by simp [works, ha, hd]
      rw [if_pos hw]
      refine .ready ⟨hs1.watchLaneWait, by simpa [active] using ha, fun hr => (hr1 hr).watchLaneWait,
        fun _ _ => routeWaits_watchLaneWait _, fun _ ho => ?_⟩
      rw [offering_false_of_dispatch (by simpa [hasRole] using hd)] at ho
      simp at ho

theorem ends_laneWaitExpiry (hs : StationSound s) (h : execLaneWaitExpiry s = .next t) : Ends s t := by
  obtain rfl := Host.Outcome.next.inj h
  split
  case isFalse => exact .plain (.refl s)
  rename_i hc
  simp only [Bool.and_eq_true] at hc
  obtain ⟨hw, hwait⟩ := hc
  obtain ⟨ha, hd⟩ := (works_iff _).1 hw
  set u := s.setRoute { s.route with laneWait := none, waitExpired := true } with hu
  have hrep : ∃ l, reportLaneWait u = u.setLine l := by
    unfold reportLaneWait
    split
    · exact ⟨_, notify_eq _ _⟩
    · exact ⟨u.line, rfl⟩
  obtain ⟨l, hl⟩ := hrep
  rw [hl]
  refine .ready ⟨stationSound_congr hs rfl rfl rfl rfl rfl, ha, fun hr => routeSound_congr hr rfl rfl rfl rfl,
    fun _ hf _ => .inl ?_, fun _ ho => ?_⟩
  · exact hf.2 (by simp [laneWaitOn, hwait])
  · rw [offering_false_of_dispatch (by exact hd)] at ho
    simp at ho

end

end Sys2Proof.Machine
end

