-- ==== Proofs/PalletCommands.lean ====
section
/-! PROOF. The commands that bring a pallet in, to position and out, the acknowledge, HELLO, CLEAR and the image: the table and
the zone each leaves before the end of its event (R6, R12, R21 to R23, R36, R38, R39, R42 to R45, R51 to R53, R180). -/

namespace Sys2Proof.Machine

/-! ## A sound station, and the role's work upon it -/

section
variable {s u m t : State}

/-- Work leaves a lane wait with the record that lacks an exit, or behind with none. -/
theorem Evolves.waits (h : Evolves u m) (hs : StationSound u) (hr : RouteSound u) (hw : RouteWaits u) : RouteWaits m := by
  intro hm
  have hd : hasRole u .dispatch = true := by
    by_contra hn
    obtain hl | ⟨hd, -⟩ := hw (by simpa [laneWaitOn, h.route] using hm)
    · simp [lacksExit, hr.1 (by simpa using hn)] at hl
    · exact hn hd
  have hdone := h.done hs hd
  obtain hl | ⟨-, hn⟩ := hw (by simpa [laneWaitOn, h.route] using hm)
  · exact .inl (by simpa [lacksExit, hdone, h.route, h.exits] using hl)
  · exact .inr ⟨h.role hd, by simpa [hn] using hdone⟩

/-- A command that leaves a sound station for the role's work, with no offering left over from before the event. -/
theorem ready_of_evolves (hs : StationSound u) (ha : active u = true) (hr : RouteSound s → RouteSound u)
    (hw : RouteSound s → RouteFollows s → RouteWaits u) (k : Evolves u m)
    (ho : u.zone.zstate = .stopped → OfferingFollows s →
      u.zone.offerTimer = none ∧ (roomFor 3 s = true → RoomForOffer m.line)) : Ready s m := by
  refine ⟨k.stationSound hs, by rw [k.active, ha], fun h => k.routeSound hs (hr h),
    fun h hf => k.waits hs (hr h) (hw h hf), fun hf hoff => .inl ?_⟩
  obtain ⟨ht, hl⟩ := ho (k.zstate ▸ (offering_iff.1 hoff).2.2.1) hf
  exact ⟨by simpa [ht] using k.timer, hl⟩

theorem ready_of_worked (hs : StationSound u) (ha : active u = true) (hr : RouteSound s → RouteSound u)
    (hw : RouteSound s → RouteFollows s → RouteWaits u) (k : Worked u m)
    (ho : u.zone.zstate = .stopped → OfferingFollows s →
      u.zone.offerTimer = none ∧ (roomFor 3 s = true → RoomForOffer u.line)) : Ready s m :=
  ready_of_evolves hs ha hr hw (.of_worked k) fun hz hf => ⟨(ho hz hf).1, fun hroom => k.line ((ho hz hf).2 hroom)⟩

/-- The zone of a vacant station holds no record. -/
theorem StationSound.zoneEntry_of_vacant (h : StationSound s) (hz : s.zone.zstate = .empty ∨ s.zone.zstate = .inbound) :
    zoneEntry s = none := by
  obtain ⟨outs, tail, hT, ho, hfit⟩ := h.shape
  rw [zoneEntry_of_table hT ho]
  cases tail with
  | none => rfl
  | some e =>
    obtain ⟨-, -, hx⟩ | ha := hfit
    · simp [inZone, isZoneState, hx]
    · obtain hz | hz := hz <;> simp [hz, zoneAllows] at ha

/-- Without a zone record there is no exit class. -/
theorem exitClass_of_vacant (hr : RouteSound s) (hz : zoneEntry s = none) : s.route.exitClass = none := by
  cases hx : s.route.exitClass with
  | none => rfl
  | some x => simpa [deliveredRecord, hz] using hr.2.1 x hx

/-- Without an exit class no lane is selected. -/
theorem routeSound_of_exitClass (hr : RouteSound s) (hx : s.route.exitClass = none) (hm : m.route = s.route) :
    RouteSound m := by
  refine ⟨fun _ => by rw [hm, hx], fun x hc => by simp [hm, hx] at hc, ?_, ?_⟩
  · simpa [hm] using hr.2.2.1
  · simpa [hm] using hr.2.2.2

/-- Offering that has not begun finds its timer at rest. -/
theorem offerTimer_of_zone (h : OfferingFollows s) (hz : s.zone.zstate ≠ .stopped) : s.zone.offerTimer = none :=
  timer_of_not_offering h (offering_false_of_zone hz)

/-! ## Arrival -/

theorem arriveAtCheck_table' (s : State) : (arriveAtCheck s).table = (createRecord false .present (evict s)).table := rfl

theorem startPositioning_zstate (s : State) : (startPositioning s).zone.zstate = .positioning := rfl

/-- The EXPECTED entry behind the others becomes PRESENT (R12). -/
theorem bindExpected_table {outs : List Entry} {e : Entry} (hT : s.table = outs ++ [e]) (ho : allOutbound outs)
    (he : e.state = .expected) : (bindExpected s).table = outs ++ [{ e with state := .present, timer := none }] := by
  rw [bindExpected, mapState_of_table hT ho (by decide)]
  simp [he]

/-- A sound station whose zone is vacant and expects nothing holds OUTBOUND entries alone. -/
theorem StationSound.allOutbound_of_vacant (h : StationSound s)
    (hz : s.zone.zstate = .empty ∨ s.zone.zstate = .inbound) (hx : expectedEntry s = none) : allOutbound s.table := by
  obtain ⟨outs, tail, hT, ho, hfit⟩ := h.shape
  cases tail with
  | none => simpa [hT] using ho
  | some e =>
    have hne : e.state ≠ .expected := fun he => by simp [expectedEntry_of_table hT ho, he] at hx
    obtain ⟨-, -, he⟩ | ha := hfit
    · exact absurd he hne
    · obtain hz | hz := hz <;> simp [hz, zoneAllows] at ha

/-- CHECK expects nothing (R25). -/
theorem StationSound.expected_of_check (h : StationSound s) (hc : hasRole s .check = true) : expectedEntry s = none := by
  cases he : expectedEntry s with
  | none => rfl
  | some e =>
    obtain ⟨-, -, -, -, -, hn⟩ := h.shape_expected he
    simp [hc] at hn

/-- An arrival leaves the OUTBOUND entries that stay and behind them the PRESENT record of the pallet, in POSITIONING (R38). -/
theorem arrive_shape (h : StationSound s) (hz : s.zone.zstate = .empty ∨ s.zone.zstate = .inbound) :
    ∃ outs e, (arrive s).table = outs ++ [e] ∧ allOutbound outs ∧ e.state = .present ∧ tableSound (arrive s) := by
  have made : ∀ (u : Bool) (m : State), expectedEntry s = none →
      m.table = (createRecord u .present (evict s)).table →
      ∃ outs e, m.table = outs ++ [e] ∧ allOutbound outs ∧ e.state = .present ∧ tableSound m := fun u m hx hm => by
    obtain ⟨-, hlt, ho, hts⟩ := evict_vacant h.tracks (h.allOutbound_of_vacant hz hx)
    refine ⟨_, _, hm.trans (createRecord_table' u .present (evict s)), ho, rfl, ?_⟩
    exact tableSound_of_tracks (tableSound_createRecord (u := u) (st := .present) hts hlt) (by simp only [tableTracks, hm])
  cases hc : hasRole s .check
  · have harr : (arrive s).table = (arriveElsewhere s).table := by simp [arrive, hc, startPositioning]
    cases he : expectedEntry s with
    | none => exact made true _ he (by simp [harr, arriveElsewhere, he])
    | some e =>
      obtain ⟨outs, hT, ho, hx, -⟩ := h.shape_expected he
      have hT' : (arrive s).table = outs ++ [{ e with state := .present, timer := none }] := by
        rw [harr, ← bindExpected_table hT ho hx]
        simp [arriveElsewhere, he]
      exact ⟨_, _, hT', ho, rfl, tableSound_of_tracks h.tracks (by simp [tableTracks, hT', hT])⟩
  · refine made false _ (h.expected_of_check hc) ?_
    simp [arrive, hc, startPositioning, arriveAtCheck_table']

theorem arrivalZone_iff : arrivalZone s = true ↔ s.zone.zstate = .empty ∨ s.zone.zstate = .inbound := by
  simp [arrivalZone]

theorem ends_entryEyeBlocks (hs : StationSound s) (h : execEntryEyeBlocks s = .next t) : Ends s t := by
  obtain rfl := Host.Outcome.next.inj h
  set s1 := s.setPins { s.pins with eyeEntry := true } with hs1
  have hsame : chooseExit s1.pins = chooseExit s.pins := chooseExit_congr rfl rfl rfl rfl rfl
  split
  · rename_i hc
    obtain ⟨ha, hz⟩ := Bool.and_eq_true_iff.1 hc
    have hz := arrivalZone_iff.1 hz
    have hsound : StationSound s1 := stationSound_congr hs rfl rfl rfl rfl rfl
    obtain ⟨outs, e, hT, ho, he, hts⟩ := arrive_shape hsound hz
    have hact : active (arrive s1) = true := by rw [active_congr (s := s) (by simp [hs1]), ha]
    refine .ready (ready_of_zone (stationSound_of_shape (tail := some e) hact hts hT ho ?_) hact (fun hr => ?_)
      (fun hr hw => ?_) (by simp [arrive, startPositioning_zstate]))
    · rw [arrive, startPositioning_zstate]
      exact tailFits_positioning.2 ⟨e, rfl, .inl he⟩
    · exact routeSound_of_exitClass hr (exitClass_of_vacant hr (hs.zoneEntry_of_vacant hz)) (by simp [hs1])
    · exact routeWaits_of_route hr hw (by simp [hs1]) (by simp [hs1]) (by simp [hs1]) (by simp [laneWaitOn, hs1])
        (by simpa using hsame)
  · exact .plain (.settled (evolves_eyes rfl))

/-! ## Position -/

theorem enterWorking_eq {e : Entry} (h : zoneEntryIn s .present = some e) :
    enterWorking s = beginWork e.record (moveState .present .working s) := by simp [enterWorking, h]

theorem evalStep_of_role (h : hasRole s .check = false) : evalStep s = s := by simp [evalStep, h]

/-- Where only CHECK, WRAP and LABEL have work to do, the record is DONE at once (R7). -/
theorem beginWork_of_dispatch (r : TravelRecord) (h : hasRole s .dispatch = true) : beginWork r s = endWork s := by
  have hr : s.cfg.role = some .dispatch := by simpa [hasRole] using h
  simp [beginWork, hr]

/-- The record that stands at position with the zone STOPPED: PRESENT, it goes to work; DONE, it stays so (R39, R44). -/
theorem ready_atPosition {outs : List Entry} {e : Entry} (ha : active u = true) (hts : tableSound u)
    (hT : u.table = outs ++ [e]) (ho : allOutbound outs) (he : e.state = .present ∨ e.state = .done)
    (hz : u.zone.zstate = .stopped) (hr : RouteSound s → RouteSound u)
    (hw : RouteSound s → RouteFollows s → laneWaitOn u = true → lacksExit u = true)
    (hoff : OfferingFollows s → u.zone.offerTimer = none ∧ (roomFor 3 s = true → RoomForOffer u.line)) :
    Ready s (evalStep (if (zoneEntryIn u .present).isSome then enterWorking (profileAtPosition u) else u)) := by
  have hfind := zoneEntryIn_of_table hT ho (show RecordState.present ≠ .outbound by decide)
  obtain he | he := he
  case inr =>
    rw [hfind, if_neg (by simp [he])]
    have hs : StationSound u := stationSound_of_shape (tail := some e) ha hts hT ho (by simp [hz, tailFits_stopped, he])
    have hwork : Worked u (evalStep u) := by
      cases hc : hasRole u .check
      · rw [evalStep_of_role hc]; exact Worked.refl u
      · exact worked_evalStep (not_dispatch_of_check hc)
    exact ready_of_worked hs ha hr (fun hr hf hl => .inl (hw hr hf hl)) hwork fun _ => hoff
  case inl =>
    have hwait : RouteSound s → RouteFollows s → laneWaitOn u = false := fun hr hf => by
      by_contra hn
      have hl := hw hr hf (by simpa using hn)
      simp [lacksExit, zoneEntryIn_of_table hT ho (show RecordState.done ≠ .outbound by decide), he] at hl
    have hpres : zoneEntryIn (profileAtPosition u) .present = some e := by
      rw [zoneEntryIn_congr (s := u) (by simp), hfind]
      simp [he]
    rw [hfind, if_pos (by simp [he]), enterWorking_eq hpres]
    have hwk := worked_profileAtPosition u
    have hT1 : (profileAtPosition u).table = outs ++ [e] := by simpa using hT
    have hT2 : (moveState .present .working (profileAtPosition u)).table = outs ++ [{ e with state := .working }] := by
      rw [moveState_of_table hT1 ho (by decide)]
      simp [he]
    have hrec : deliveredRecord u = some e.record := by
      rw [deliveredRecord, zoneEntry_of_table hT ho]
      simp [inZone, isZoneState, he]
    cases hd : hasRole u .dispatch
    · set v := moveState .present .working (profileAtPosition u) with hv
      have hdv : hasRole v .dispatch = false := by
        rw [hasRole_congr (s := u) (by simp [hv]), hd]
      have hva : active v = true := by rw [active_congr (s := u) (by simp [hv]), ha]
      have hvs : StationSound v := by
        refine stationSound_of_shape (tail := some { e with state := .working }) hva
          (tableSound_of_tracks hts (by simp [tableTracks, hT2, hT])) hT2 ho ?_
        rw [show v.zone = u.zone by simp [hv], hz]
        simp [tailFits_stopped]
      have hb := worked_beginWork (s := v) e.record hdv
      refine ready_of_worked hvs hva (fun hrs => ?_) (fun hrs hf hl => ?_) (hb.trans (worked_evalStep (hb.role hdv)))
        fun _ hf => ?_
      · exact routeSound_of_exitClass (hr hrs) ((hr hrs).1 hd) (by simp [hv])
      · have hno := hwait hrs hf
        rw [laneWaitOn, show v.route = u.route by simp [hv]] at hl
        simp [laneWaitOn, hl] at hno
      · obtain ⟨h1, h2⟩ := hoff hf
        exact ⟨by simpa [hv] using h1, fun hroom => by simpa [hv] using h2 hroom⟩
    · have hdv : hasRole (moveState .present .working (profileAtPosition u)) .dispatch = true := by
        rw [hasRole_congr (s := u) (by simp), hd]
      rw [beginWork_of_dispatch _ hdv]
      set v := endWork (moveState .present .working (profileAtPosition u)) with hv
      have hT3 : v.table = outs ++ [{ e with state := .done }] := by
        rw [hv, endWork, moveState_of_table hT2 ho (by decide)]
        simp
      have hva : active v = true := by rw [active_congr (s := u) (by simp [hv]), ha]
      have hdv : hasRole v .dispatch = true := by rw [hasRole_congr (s := u) (by simp [hv]), hd]
      have hzv : v.zone = u.zone := by simp [hv]
      rw [evalStep_of_role (check_false_of_dispatch hdv)]
      refine ready_of_worked (stationSound_of_shape (tail := some { e with state := .done }) hva
        (tableSound_of_tracks hts (by simp [tableTracks, hT3, hT])) hT3 ho ?_) hva (fun hrs => ?_) (fun hrs hf hl => ?_)
        (Worked.refl v) fun _ hf => ?_
      · rw [hzv, hz]
        simp [tailFits_stopped]
      · refine routeSound_congr (hr hrs) (by simp [hv]) ?_ (by simp [hv]) (by simp [hv])
        rw [hrec, deliveredRecord, zoneEntry_of_table hT3 ho]
        simp [inZone, isZoneState]
      · have hno := hwait hrs hf
        rw [laneWaitOn, show v.route = u.route by simp [hv]] at hl
        simp [laneWaitOn, hl] at hno
      · obtain ⟨h1, h2⟩ := hoff hf
        exact ⟨by rw [hzv]; exact h1, fun hroom => by simpa [hv] using h2 hroom⟩

/-- The zone STOPPED with its position timer at rest. -/
def stopAtPosition (s : State) : State := s.setZone { s.zone with zstate := .stopped, positionTimer := none }

theorem positionComplete_eq (s : State) : positionComplete s =
    (if (zoneEntryIn (stopAtPosition s) .present).isSome then enterWorking (profileAtPosition (stopAtPosition s))
      else stopAtPosition s) := rfl

theorem ends_positionEyeBlocks (hs : StationSound s) (h : execPositionEyeBlocks s = .next t) : Ends s t := by
  obtain rfl := Host.Outcome.next.inj h
  set s1 := s.setPins { s.pins with eyePos := true } with hs1
  have hsame : chooseExit s1.pins = chooseExit s.pins := chooseExit_congr rfl rfl rfl rfl rfl
  split
  · rename_i hc
    obtain ⟨ha, hz⟩ := Bool.and_eq_true_iff.1 hc
    have hz : s.zone.zstate = .positioning := of_decide_eq_true hz
    obtain ⟨outs, tail, hT, ho, hfit⟩ := hs.shape
    rw [hz, tailFits_positioning] at hfit
    obtain ⟨e, rfl, he⟩ := hfit
    rw [positionComplete_eq]
    refine .ready (ready_atPosition (u := stopAtPosition s1) (outs := outs) (e := e) ha hs.tracks hT ho he rfl
      (fun hr => routeSound_congr hr rfl rfl rfl rfl) (fun hr hw hl => ?_) fun hf => ?_)
    · have hl' : lacksExit (stopAtPosition s1) = lacksExit s := by
        rw [lacksExit, lacksExit, show (stopAtPosition s1).pins = s1.pins from rfl, hsame]
        rfl
      rw [hl']
      exact hw.2 hl
    · exact ⟨offerTimer_of_zone (s := s) hf (by simp [hz]), fun hroom => (roomForOffer_of_roomFor hroom :)⟩
  · exact .plain (.settled (evolves_eyes rfl))

/-! ## Release and delivery -/

/-- The zone record of a RELEASING zone. -/
theorem StationSound.shape_releasing (h : StationSound s) (hz : s.zone.zstate = .releasing) :
    ∃ outs e, s.table = outs ++ [e] ∧ allOutbound outs ∧ e.state = .releasing ∧ zoneEntryIn s .releasing = some e := by
  obtain ⟨outs, tail, hT, ho, hfit⟩ := h.shape
  rw [hz, tailFits_releasing] at hfit
  obtain ⟨e, rfl, he⟩ := hfit
  refine ⟨outs, e, hT, ho, he, ?_⟩
  rw [zoneEntryIn_of_table hT ho (by decide)]
  simp [he]

/-- A released record is OUTBOUND, or gone when its TAKEN was heard (R36). -/
theorem moveOn_table' {outs : List Entry} {e : Entry} (hT : s.table = outs ++ [e]) (ho : allOutbound outs)
    (he : e.state = .releasing) : (moveOn e s).table =
      if e.takenHeard then outs
      else outs ++ [{ e with state := .outbound, timer := some (s.cfg.timing.transit + Config.takenExtra) }] := by
  unfold moveOn
  split
  · rw [removeZoneRecord_of_table hT ho]
    simp [inZone, isZoneState, he]
  · rw [mapState_of_table hT ho (by decide)]
    simp [he]

theorem leaveReleasing_zstate (s : State) : (leaveReleasing s).zone.zstate = .empty := rfl

theorem ends_exitEyeClears (hs : StationSound s) (h : execExitEyeClears s = .next t) : Ends s t := by
  obtain rfl := Host.Outcome.next.inj h
  set s1 := s.setPins { s.pins with eyeExit := false } with hs1
  have hsame : chooseExit s1.pins = chooseExit s.pins := chooseExit_congr rfl rfl rfl rfl rfl
  split
  case isFalse => exact .plain (.settled (evolves_eyes rfl))
  rename_i hc
  simp only [Bool.and_eq_true, decide_eq_true_eq] at hc
  obtain ⟨⟨ha, hz⟩, -⟩ := hc
  have hsound : StationSound s1 := stationSound_congr hs rfl rfl rfl rfl rfl
  obtain ⟨outs, e, hT, ho, he, hfind⟩ := hsound.shape_releasing hz
  split
  · rename_i hd
    have hT' : (removeZoneRecord (leaveReleasing s1)).table = outs := by
      rw [removeZoneRecord_of_table (s := leaveReleasing s1) hT ho]
      simp [inZone, isZoneState, he]
    have hcd : completeDelivery s1 = queueFrame (dispatchedFrame s1.route e.record)
        ((removeZoneRecord (leaveReleasing s1)).setRoute (dropRoute (countDelivery s1.route))) := by
      simp [completeDelivery, hfind]
    have hact : active (completeDelivery s1) = true := by rw [active_congr (s := s) (by simp [hs1]), ha]
    have hT'' : (completeDelivery s1).table = outs ++ Option.toList none := by rw [hcd]; simpa using hT'
    refine .ready (ready_of_zone (stationSound_of_shape hact (tableSound_of_sublist hs.tracks ?_) hT'' ho ?_) hact
      (fun _ => routeSound_of_none ?_ ?_) (fun _ _ hl => ?_) ?_)
    · simp [tableTracks, hT'', show s.table = outs ++ [e] from hT]
    · rw [hcd]
      simp [leaveReleasing_zstate, tailFits_empty]
    · rw [hcd]; simp [dropRoute]
    · rw [hcd]; simp [dropRoute]
    · rw [hcd] at hl; simp [laneWaitOn, dropRoute] at hl
    · rw [hcd]; simp [leaveReleasing_zstate]
  · rename_i hd
    have hcr : completeRelease s1 = queueFrame (.released (downstream s1) e.record.track) (moveOn e (leaveReleasing s1)) := by
      simp [completeRelease, hfind]
    have hT' := moveOn_table' (s := leaveReleasing s1) hT ho he
    have hact : active (completeRelease s1) = true := by rw [active_congr (s := s) (by simp [hs1]), ha]
    have hz' : (completeRelease s1).zone.zstate = .empty := by rw [hcr]; simp [leaveReleasing_zstate]
    have hT'' : (completeRelease s1).table = (moveOn e (leaveReleasing s1)).table := by rw [hcr]; simp
    have hall : allOutbound (completeRelease s1).table := by
      rw [hT'', hT']
      split
      · exact ho
      · intro x hx
        obtain hx | rfl := by simpa using hx
        · exact ho x hx
        · rfl
    have hts : tableSound (completeRelease s1) := by
      refine tableSound_of_sublist hs.tracks ?_
      rw [tableTracks, tableTracks, hT'', hT', show s.table = outs ++ [e] from hT]
      split <;> simp
    refine .ready (ready_of_zone (stationSound_of_shape (tail := none) hact hts (by simp) hall ?_) hact (fun hr => ?_)
      (fun hr hw => ?_) (by simp [hz']))
    · rw [hz']
      exact tailFits_empty.2 rfl
    · exact routeSound_of_exitClass hr (hr.1 (by simpa [hs1, hasRole] using hd)) (by simp [hs1])
    · exact routeWaits_of_route hr hw (by simp [hs1]) (by simp [hs1]) (by simp [hs1]) (by simp [laneWaitOn, hs1])
        (by simpa using hsame)

end

end Sys2Proof.Machine
end

