-- ==== Proofs/RestartCommands.lean ====
section
/-! PROOF. The acknowledge, HELLO, CLEAR, RESET and the image (R21 to R23, R42 to R45, R51 to R53, R174, R177, R180). -/

namespace Sys2Proof.Machine

section
variable {s u m t : State}

/-! ## The route given up -/

/-- At DISPATCH the route is given up, elsewhere there is none. -/
theorem routeSound_dropped (hr : RouteSound s)
    (hm : m.route = if hasRole s .dispatch then dropRoute s.route else s.route) : RouteSound m := by
  cases hd : hasRole s .dispatch
  · rw [hd] at hm
    exact routeSound_of_exitClass hr (hr.1 hd) hm
  · rw [hd] at hm
    exact routeSound_of_none (by simp [hm, dropRoute]) (by simp [hm, dropRoute])

theorem laneWaitOn_dropped (hr : RouteSound s) (hw : RouteFollows s)
    (hm : m.route = if hasRole s .dispatch then dropRoute s.route else s.route) : laneWaitOn m = false := by
  cases hd : hasRole s .dispatch
  · rw [hd] at hm
    simpa [laneWaitOn, hm] using laneWaitOn_of_not_dispatch hr hw hd
  · simp [laneWaitOn, hm, hd, dropRoute]

theorem routeWaits_of_off (h : laneWaitOn m = false) : RouteWaits m := fun hw => by simp [h] at hw

/-! ## The acknowledge -/

theorem dropRoleWork_cases (s : State) :
    (hasRole s .check = true ∧ dropRoleWork s = dropCheckWork s) ∨
    (hasRole s .dispatch = true ∧ dropRoleWork s = s.setRoute (dropRoute s.route)) ∨
    (hasRole s .check = false ∧ hasRole s .dispatch = false ∧ dropRoleWork s = s) := by
  unfold dropRoleWork
  cases hc : hasRole s .check
  · cases hd : hasRole s .dispatch <;> simp
  · simp

@[simp] theorem dropRoleWork_cfg (s : State) : (dropRoleWork s).cfg = s.cfg := by
  obtain ⟨-, h⟩ | ⟨-, h⟩ | ⟨-, -, h⟩ := dropRoleWork_cases s <;> simp [h]
@[simp] theorem dropRoleWork_service (s : State) : (dropRoleWork s).service = s.service := by
  obtain ⟨-, h⟩ | ⟨-, h⟩ | ⟨-, -, h⟩ := dropRoleWork_cases s <;> simp [h]
@[simp] theorem dropRoleWork_table (s : State) : (dropRoleWork s).table = s.table := by
  obtain ⟨-, h⟩ | ⟨-, h⟩ | ⟨-, -, h⟩ := dropRoleWork_cases s <;> simp [h]
@[simp] theorem dropRoleWork_zone (s : State) : (dropRoleWork s).zone = s.zone := by
  obtain ⟨-, h⟩ | ⟨-, h⟩ | ⟨-, -, h⟩ := dropRoleWork_cases s <;> simp [h]
@[simp] theorem dropRoleWork_slot (s : State) : (dropRoleWork s).slot = s.slot := by
  obtain ⟨-, h⟩ | ⟨-, h⟩ | ⟨-, -, h⟩ := dropRoleWork_cases s <;> simp [h]
@[simp] theorem dropRoleWork_pins (s : State) : (dropRoleWork s).pins = s.pins := by
  obtain ⟨-, h⟩ | ⟨-, h⟩ | ⟨-, -, h⟩ := dropRoleWork_cases s <;> simp [h]

theorem dropRoleWork_route (s : State) :
    (dropRoleWork s).route = if hasRole s .dispatch then dropRoute s.route else s.route := by
  obtain ⟨hc, h⟩ | ⟨hd, h⟩ | ⟨-, hd, h⟩ := dropRoleWork_cases s
  · simp [h, not_dispatch_of_check hc]
  · simp [h, hd]
  · simp [h, hd]

/-- What the acknowledge of a zone found clear leaves, but for the line (R43). -/
theorem ackAllClear_eq (s : State) : ∃ l, ackAllClear s =
    ((setZoneState .empty (removeZoneRecord (dropRoleWork s))).setZone
      { s.zone with zstate := .empty, jam := false }).setLine l := by
  have key : ∀ v : State, ∃ l, clearJam none v = (v.setZone { v.zone with jam := false }).setLine l :=
    fun v => ⟨_, notify_eq _ _⟩
  have lost : ∀ (e : Entry) (v : State), ∃ l, lostIfReleasing e v = v.setLine l := fun e v => by
    unfold lostIfReleasing
    split
    · exact ⟨_, queueFrame_eq _ _⟩
    · exact ⟨v.line, rfl⟩
  unfold ackAllClear
  cases zoneEntry s with
  | none =>
    obtain ⟨l, h⟩ := key (setZoneState .empty (removeZoneRecord (dropRoleWork s)))
    exact ⟨l, by rw [h]; simp⟩
  | some e =>
    obtain ⟨l1, h1⟩ := lost e (setZoneState .empty (removeZoneRecord (dropRoleWork s)))
    obtain ⟨l, h⟩ := key (lostIfReleasing e (setZoneState .empty (removeZoneRecord (dropRoleWork s))))
    exact ⟨l, by rw [h, h1]; simp; rfl⟩

theorem StationSound.shape_jammed (h : StationSound s) (hz : s.zone.zstate = .jammed) :
    ∃ outs e, s.table = outs ++ [e] ∧ allOutbound outs ∧
      (e.state = .present ∨ e.state = .done ∨ e.state = .releasing) := by
  obtain ⟨outs, tail, hT, ho, hfit⟩ := h.shape
  rw [hz, tailFits_jammed] at hfit
  obtain ⟨e, rfl, he⟩ := hfit
  exact ⟨outs, e, hT, ho, he⟩

theorem ready_ackAllClear (h : StationSound s) (ha : active s = true) (hz : s.zone.zstate = .jammed) :
    Ready s (ackAllClear s) := by
  obtain ⟨outs, e, hT, ho, he⟩ := h.shape_jammed hz
  obtain ⟨l, hl⟩ := ackAllClear_eq s
  have hin : inZone e = true := inZone_iff.2 (by tauto)
  have hT' : (ackAllClear s).table = outs ++ Option.toList none := by
    have hrem := removeZoneRecord_of_table (s := dropRoleWork s) (l := [e]) (by simpa using hT) ho
    simpa [hl, hin] using hrem
  have hact : active (ackAllClear s) = true := by rw [active_congr (s := s) (by simp [hl]), ha]
  have hroute : (ackAllClear s).route = if hasRole s .dispatch then dropRoute s.route else s.route := by
    rw [← dropRoleWork_route]
    simp [hl]
  refine ready_of_zone (stationSound_of_shape hact (tableSound_of_sublist h.tracks ?_) hT' ho ?_) hact
    (fun hr => routeSound_dropped hr hroute) (fun hr hw => routeWaits_of_off (laneWaitOn_dropped hr hw hroute))
    (by simp [hl])
  · simp [tableTracks, hT', hT]
  · simp [hl, tailFits_empty]

/-- The record at position before the role's work: RELEASING is DONE again, the zone STOPPED, JAM clear (R44). -/
def ackStopped (s : State) : State :=
  clearJam (zoneTrack s) (setZoneState .stopped (dropRouteCode (returnToDone (restartPresent s))))

theorem ackAtPosition_eq (s : State) : ackAtPosition s =
    if (zoneEntryIn (ackStopped s) .present).isSome then enterWorking (profileAtPosition (ackStopped s))
    else ackStopped s := rfl

theorem worked_restartPresent (s : State) : Worked s (restartPresent s) := by
  unfold restartPresent
  split
  · exact worked_restartProfiling s
  · exact Worked.refl s

@[simp] theorem restartPresent_table (s : State) : (restartPresent s).table = s.table := by
  unfold restartPresent
  split <;> simp

@[simp] theorem restartPresent_line (s : State) : (restartPresent s).line = s.line := by
  unfold restartPresent
  split <;> simp

@[simp] theorem restartPresent_pins (s : State) : (restartPresent s).pins = s.pins := by
  unfold restartPresent
  split <;> simp

theorem dropRouteCode_eq (s : State) :
    dropRouteCode s = s.setRoute (if hasRole s .dispatch then { s.route with code := .none } else s.route) := by
  unfold dropRouteCode
  split <;> rfl

/-- RELEASING back to DONE, at the entry behind the OUTBOUND ones. -/
def redone (e : Entry) : Entry := if e.state = .releasing then { e with state := .done, takenHeard := false } else e

@[simp] theorem redone_record (e : Entry) : (redone e).record = e.record := by
  unfold redone
  split <;> rfl

theorem redone_state (e : Entry) : (redone e).state = if e.state = .releasing then .done else e.state := by
  unfold redone
  split <;> rfl

theorem inZone_redone (e : Entry) : inZone (redone e) = inZone e := by
  by_cases h : e.state = .releasing <;> simp [inZone, isZoneState, redone_state, h]

theorem returnToDone_table' {outs l : List Entry} (hT : s.table = outs ++ l) (ho : allOutbound outs) :
    (returnToDone s).table = outs ++ l.map redone :=
  mapState_of_table hT ho (by decide) _

theorem ready_ackAtPosition (h : StationSound s) (ha : active s = true) (hz : s.zone.zstate = .jammed) :
    Ready s (evalStep (ackAtPosition s)) := by
  obtain ⟨outs, e, hT, ho, he⟩ := h.shape_jammed hz
  have hw := worked_restartPresent s
  have hT' : (ackStopped s).table = outs ++ [redone e] := by
    have := returnToDone_table' (s := restartPresent s) (l := [e]) (by simpa using hT) ho
    simpa [ackStopped, clearJam, dropRouteCode_eq] using this
  have hcfg : (ackStopped s).cfg = s.cfg := by simp [ackStopped, clearJam, dropRouteCode_eq, hw.cfg]
  have hpins : (ackStopped s).pins = s.pins := by simp [ackStopped, clearJam, dropRouteCode_eq]
  have hroute : (ackStopped s).route =
      if hasRole s .dispatch then { s.route with code := .none } else s.route := by
    simp [ackStopped, clearJam, dropRouteCode_eq, hw.route, hasRole_congr (s := s) (t := returnToDone (restartPresent s))
      (by simp [hw.cfg])]
  have hact : active (ackStopped s) = true := by
    rw [active_congr (s := s) (by simp [ackStopped, clearJam, dropRouteCode_eq, hw.service]), ha]
  have hrec : deliveredRecord (ackStopped s) = deliveredRecord s := by
    rw [deliveredRecord, deliveredRecord, zoneEntry_of_table hT' ho, zoneEntry_of_table hT ho]
    have hin : inZone e = true := inZone_iff.2 (by tauto)
    simp [hin, inZone_redone]
  have hx : (ackStopped s).route.exitClass = s.route.exitClass := by rw [hroute]; split <;> rfl
  rw [ackAtPosition_eq]
  refine ready_atPosition hact (tableSound_of_tracks h.tracks (by simp [tableTracks, hT', hT])) hT' ho ?_
    (by simp [ackStopped, clearJam]) (fun hr => ?_) (fun hr hf hl => ?_) fun hf => ⟨?_, fun hroom => ?_⟩
  · rw [redone_state]
    obtain he | he | he := he <;> simp [he]
  · refine routeSound_of_route hr hcfg hx ?_ fun _ _ => hrec
    rw [hroute]
    split <;> simp
  · have hl' : laneWaitOn s = true := by
      rw [← hl, laneWaitOn, laneWaitOn, hroute]
      split <;> rfl
    have hlast : (ackStopped s).route.lastLane = s.route.lastLane := by rw [hroute]; split <;> rfl
    have hlack := hf.2 hl'
    simp only [lacksExit, hx, hpins, hlast, Bool.and_eq_true] at hlack ⊢
    refine ⟨?_, hlack.2⟩
    have hd := hlack.1
    rw [zoneEntryIn_of_table hT ho (by decide)] at hd
    rw [zoneEntryIn_of_table hT' ho (by decide)]
    have : e.state = .done := by simpa using hd
    simp [redone_state, this]
  · simpa [ackStopped, clearJam, dropRouteCode_eq, hw.zone] using offerTimer_of_zone hf (by simp [hz])
  · refine RoomForOffer.notify ?_
    simpa [dropRouteCode_eq] using roomForOffer_of_roomFor hroom

theorem ready_ackElsewhere (h : StationSound s) (ha : active s = true) (hz : s.zone.zstate = .jammed) :
    Ready s (ackElsewhere s) := by
  obtain ⟨outs, e, hT, ho, he⟩ := h.shape_jammed hz
  have hw := worked_restartPresent s
  have hfind := zoneEntryIn_of_table hT ho (show RecordState.releasing ≠ .outbound by decide)
  have ready : ∀ v : State, Worked s v → v.table = s.table → v.pins = s.pins →
      ∀ z : ZoneCtl, z.zstate ≠ .stopped → tailFits (hasRole s .check) z.zstate (some e) →
      Ready s (clearJam (zoneTrack s) (v.setZone z)) := fun v hv hvT hvp z hz hfit => by
    have hact : active (clearJam (zoneTrack s) (v.setZone z)) = true := by
      rw [active_congr (s := s) (by simp [clearJam, hv.service]), ha]
    refine ready_of_zone (stationSound_of_shape (tail := some e) hact
      (tableSound_of_tracks h.tracks (by simp [tableTracks, clearJam, hvT])) (by simpa [clearJam, hvT] using hT) ho ?_)
      hact (fun hr => ?_) (fun hr hf => ?_) (by simpa [clearJam] using hz)
    · rw [hasRole_congr (s := s) (by simp [clearJam, hv.cfg])]
      simpa [clearJam] using hfit
    · exact routeSound_congr hr (by simp [clearJam, hv.cfg]) (deliveredRecord_congr (by simp [clearJam, hvT]))
        (by simp [clearJam, hv.route]) (by simp [clearJam, hv.route])
    · exact routeWaits_of_route hr hf (by simp [clearJam, hv.cfg]) (by simp [clearJam, hv.route])
        (by simp [clearJam, hv.route]) (by simp [laneWaitOn, clearJam, hv.route]) (by simp [clearJam, hvp])
  unfold ackElsewhere
  by_cases hr : e.state = .releasing
  · rw [hfind, if_pos (by simp [hr])]
    exact ready s (Worked.refl s) rfl rfl _ (by simp) (tailFits_releasing.2 ⟨e, rfl, hr⟩)
  · rw [hfind, if_neg (by simp [hr])]
    exact ready _ hw (by simp) (by simp) _ (by simp) (tailFits_positioning.2 ⟨e, rfl, by tauto⟩)

theorem ends_ackPress (hs : StationSound s) (h : execAckPress s = .next t) : Ends s t := by
  obtain rfl := Host.Outcome.next.inj h
  split
  case isFalse => exact .plain (.refl s)
  rename_i hc
  obtain ⟨hin, hz⟩ := Bool.and_eq_true_iff.1 hc
  have hz : s.zone.zstate = .jammed := of_decide_eq_true hz
  have ha := active_of_inService hin
  refine .ready ?_
  split
  · exact ready_ackAllClear hs ha hz
  · split
    · exact ready_ackAtPosition hs ha hz
    · exact ready_ackElsewhere hs ha hz

/-! ## HELLO -/

/-- The upstream's HELLO ends INBOUND (R52). -/
theorem helloFromUpstream_eq (s : State) : helloFromUpstream s =
    (((s.setTable (s.table.filter (fun e => e.state != .expected))).setSlot none).setZone
      { s.zone with zstate := if s.zone.zstate = .inbound then .empty else s.zone.zstate }) := by
  unfold helloFromUpstream
  split <;> rfl

/-- What the hold set and the upstream's part of a HELLO leave. -/
structure Greeted (s u : State) : Prop where
  sound : StationSound u
  service : u.service = s.service
  cfg : u.cfg = s.cfg
  route : u.route = s.route
  pins : u.pins = s.pins
  tx : u.line.tx = s.line.tx
  timer : u.zone.offerTimer = s.zone.offerTimer
  record : zoneEntry u = zoneEntry s
  stopped : u.zone.zstate = .stopped → s.zone.zstate = .stopped ∧ u.table = s.table

theorem Greeted.holds (hs : StationSound s) (hl : List Hold) : Greeted s (setHolds hl (dropHead s)) :=
  ⟨stationSound_congr hs rfl rfl rfl rfl rfl, rfl, rfl, rfl, rfl, rfl, rfl, rfl, fun h => ⟨h, rfl⟩⟩

/-- EXPECTED stands in INBOUND alone (Table 2-1). -/
theorem StationSound.not_expected (h : StationSound s) (hz : s.zone.zstate ≠ .inbound) {e : Entry} (he : e ∈ s.table) :
    e.state ≠ .expected := fun hx => hz (h.2.2.1.2.2.1 e he hx).1

theorem Greeted.upstream (h : Greeted s u) (ha : active s = true) : Greeted s (helloFromUpstream u) := by
  rw [helloFromUpstream_eq]
  have hau : active u = true := by rw [active_congr h.service, ha]
  obtain ⟨outs, tail, hT, ho, hfit⟩ := h.sound.shape
  have hkeep : u.zone.zstate ≠ .inbound → u.table.filter (fun e => e.state != .expected) = u.table := fun hz =>
    List.filter_eq_self.2 fun e he => by simpa using h.sound.not_expected hz he
  refine ⟨?_, h.service, h.cfg, h.route, h.pins, h.tx, h.timer, ?_, fun hz => ?_⟩
  · by_cases hz : u.zone.zstate = .inbound
    · have hT' : u.table.filter (fun e => e.state != .expected) = outs ++ [] := by
        rw [hT, filter_behind ho fun e he => by simp [he]]
        cases tail with
        | none => rfl
        | some e =>
          rw [hz] at hfit
          obtain ⟨-, -, hx⟩ | hx := hfit
          · simp [hx]
          · simp [zoneAllows] at hx
      refine stationSound_of_shape (outs := outs) (tail := none) hau (tableSound_of_sublist h.sound.tracks ?_) hT' ho ?_
      · exact (List.filter_sublist).map _
      · simp [hz, tailFits_empty]
    · exact stationSound_of_shape hau (tableSound_of_sublist h.sound.tracks (by simp [tableTracks, hkeep hz]))
        (by simpa [hkeep hz] using hT) ho (by simpa [hz, hasRole] using hfit)
  · rw [← h.record, zoneEntry, zoneEntry]
    refine (List.find?_filter ..).trans ?_
    congr 1
    funext e
    by_cases hx : e.state = .expected <;> simp [hx, inZone, isZoneState]
  · have hz : (if u.zone.zstate = .inbound then ZoneState.empty else u.zone.zstate) = .stopped := hz
    by_cases hi : u.zone.zstate = .inbound
    · simp [hi] at hz
    · rw [if_neg hi] at hz
      exact ⟨(h.stopped hz).1, (hkeep hi).trans (h.stopped hz).2⟩

theorem Greeted.ready (h : Greeted s u) (ha : active s = true) : Ready s u := by
  refine ⟨h.sound, by rw [active_congr h.service, ha],
    fun hr => routeSound_congr hr h.cfg (by simp [deliveredRecord, h.record]) (by rw [h.route]) (by rw [h.route]),
    fun hr hw => routeWaits_of_route hr hw h.cfg (by rw [h.route]) (by rw [h.route]) (by simp [laneWaitOn, h.route])
      (by rw [h.pins]), fun hf ho => ?_⟩
  obtain ⟨-, hT⟩ := h.stopped (offering_iff.1 ho).2.2.1
  cases hs : offering s
  · refine .inl ⟨by rw [h.timer, timer_of_not_offering hf hs], fun hroom => ?_⟩
    simpa [RoomForOffer, h.tx] using roomForOffer_of_roomFor hroom
  · exact .inr (.inl ⟨rfl, by rw [headEntry_congr hT]⟩)

/-- Offering resumed at once queues OFFER and starts its timer (R51); elsewhere nothing happens. -/
theorem ready_offerAtOnce (hs : StationSound m) (ha : active m = true) (hr : RouteSound s → RouteSound m)
    (hw : RouteSound s → RouteFollows s → RouteWaits m)
    (hroom : m.zone.zstate = .stopped → roomFor 3 s = true → RoomForOffer m.line) : Ready s (offerAtOnce m) := by
  unfold offerAtOnce
  split
  · rename_i ho
    have hsame := sameCore_offerNow m
    obtain ⟨e, he, -⟩ := Option.any_eq_true _ _ |>.1 (show (headEntry m).any _ = true from (offering_iff.1 ho).2.1)
    have hnow : offerNow m = queueFrame (.offer (downstream m) e.record)
        (m.setZone { m.zone with offerTimer := some m.cfg.timing.offerRepeat }) := by simp [offerNow, he]
    refine ⟨hsame.stationSound hs, by rw [hsame.active, ha], fun h => hsame.routeSound (hr h),
      fun h hf => hsame.routeWaits (hw h hf), fun _ _ => .inr (.inr ⟨by simp [hnow], fun hr3 x hx => ?_⟩)⟩
    obtain rfl : e = x := by
      rw [headEntry_congr hsame.table, he] at hx
      simpa using hx
    rw [hnow, downstream_congr (s := m) (by simp)]
    exact queued_offer (offering_iff.1 ho).2.2.2.2 (hroom (offering_iff.1 ho).2.2.1 hr3)
  · rename_i ho
    exact ⟨hs, ha, hr, hw, fun _ h => absurd h ho⟩

theorem Greeted.downstream (h : Greeted s u) (ha : active s = true) : Ready s (helloFromDownstream u) := by
  have hau : active u = true := by rw [active_congr h.service, ha]
  obtain ⟨outs, tail, hT, ho, hfit⟩ := h.sound.shape
  have hru := (h.ready ha).route
  set d := returnToDone (u.setTable (u.table.filter (fun e => e.state != .outbound))) with hd
  have hdT : d.table = [] ++ Option.toList (tail.map redone) := by
    have hf : u.table.filter (fun e => e.state != .outbound) = [] ++ tail.toList := by
      rw [hT, List.filter_append, List.filter_eq_nil_iff.2 fun e he => by simp [ho e he]]
      cases tail with
      | none => rfl
      | some e => simp [tailFits_not_outbound hfit]
    rw [hd, returnToDone_table' (s := u.setTable _) hf (by simp [allOutbound])]
    cases tail <;> rfl
  have hnil : allOutbound [] := by simp [allOutbound]
  have hts : tableSound d := by
    refine tableSound_of_sublist h.sound.tracks ?_
    rw [tableTracks, tableTracks, hdT, hT]
    cases tail <;> simp
  have hrec : deliveredRecord d = deliveredRecord u := by
    rw [deliveredRecord, deliveredRecord, zoneEntry_of_table hdT hnil, zoneEntry_of_table hT ho]
    cases tail with
    | none => rfl
    | some e => cases hin : inZone e <;> simp [hin, inZone_redone]
  have goes : ∀ v : State, v.service = d.service → v.cfg = d.cfg → v.table = d.table → v.route = d.route →
      v.pins = d.pins → tailFits (hasRole u .check) v.zone.zstate (tail.map redone) →
      (v.zone.zstate = .stopped → v.line = d.line) → Ready s (offerAtOnce v) := by
    intro v h1 h2 h3 h4 h5 h6 h7
    have hva : active v = true := by rw [active_congr (s := u) (by simp [h1, hd]), hau]
    have hvc : v.cfg = u.cfg := by simp [h2, hd]
    refine ready_offerAtOnce (stationSound_of_shape hva (tableSound_of_tracks hts (by simp [tableTracks, h3]))
      (by rw [h3]; exact hdT) hnil (by rwa [hasRole_congr hvc])) hva (fun hr => ?_) (fun hr hw => ?_) fun hz hroom => ?_
    · exact routeSound_congr (hru hr) hvc ((deliveredRecord_congr h3).trans hrec) (by simp [h4, hd]) (by simp [h4, hd])
    · exact routeWaits_of_route hr hw (hvc.trans h.cfg) (by simp [h4, hd, h.route]) (by simp [h4, hd, h.route])
        (by simp [laneWaitOn, h4, hd, h.route]) (by simp [h5, hd, h.pins])
    · simpa [RoomForOffer, h7 hz, hd, h.tx] using roomForOffer_of_roomFor hroom
  have hdown : helloFromDownstream u = offerAtOnce (if u.zone.zstate = .releasing then stopOrJam d else d) := rfl
  rw [hdown]
  split
  · rename_i hz
    rw [hz, tailFits_releasing] at hfit
    obtain ⟨e, rfl, he⟩ := hfit
    unfold stopOrJam
    split
    · refine goes _ rfl rfl rfl rfl rfl ?_ fun _ => rfl
      simp [tailFits_stopped, redone_state, he]
    · refine goes _ (by simp) (by simp) (by simp) (by simp) (by simp) ?_ (by simp)
      simp [tailFits_jammed, redone_state, he]
  · rename_i hz
    refine goes d rfl rfl rfl rfl rfl ?_ fun _ => rfl
    rw [show d.zone = u.zone by simp [hd]]
    cases tail with
    | none => exact hfit
    | some e =>
      by_cases he : e.state = .releasing
      · obtain ⟨-, -, hx⟩ | hall := hfit
        · simp [he] at hx
        · cases hzz : u.zone.zstate <;> simp [hzz, he, zoneAllows] at hall hz
          simp [tailFits_jammed, redone_state, he]
      · simpa [redone, he] using hfit

theorem ready_heardHello (hs : StationSound s) (ha : active s = true) (n : Nat) : Ready s (heardHello n (dropHead s)) := by
  have h1 := Greeted.holds hs (removeHold n (dropHead s).zone.holds)
  simp only [heardHello]
  split
  · split
    · exact (h1.upstream ha).downstream ha
    · exact h1.downstream ha
  · split
    · exact (h1.upstream ha).ready ha
    · exact h1.ready ha

theorem ends_helloReceived (hs : StationSound s) (h : execHelloReceived s = .next t) : Ends s t := by
  obtain rfl := Host.Outcome.next.inj h
  split
  case h_2 => exact .plain (.refl s)
  rename_i n _ _
  split
  · rename_i hin
    exact .ready (ready_heardHello hs (active_of_inService hin) n)
  · exact .plain (.refl s)

/-! ## CLEAR, RESET and the image -/

/-- The zone and the table that the eyes give an empty station (R23, R53, R180). -/
theorem StationSound.derive (ha : active u = true) (hT : u.table = []) (hz : u.zone.zstate = .empty) :
    StationSound (deriveFromEyes u) := by
  have hnil : allOutbound [] := by simp [allOutbound]
  have hts : tableSound u := by simp [tableSound, tableTracks, hT]
  have hnew : ∀ st, tableSound (createRecord true st u) := fun st =>
    tableSound_createRecord hts (by simp [hT, Config.tableCapacity])
  have hcr : ∀ st, (createRecord true st u).table = [] ++ [madeEntry u true st] := fun st => by
    rw [createRecord_table', hT]
  unfold deriveFromEyes
  split
  · exact stationSound_of_shape (tail := some _) ha (hnew .done) (hcr .done) hnil (by simp [tailFits_stopped])
  · split
    · exact stationSound_of_shape (tail := some _) ha (hnew .present) (hcr .present) hnil
        (by simp [startPositioning, tailFits_positioning])
    · exact stationSound_of_shape (tail := none) ha hts (by simpa using hT) hnil (by simp [hz, tailFits_empty])

theorem deriveFromEyes_timer (s : State) : (deriveFromEyes s).zone.offerTimer = s.zone.offerTimer := by
  unfold deriveFromEyes
  split
  · rfl
  · split <;> rfl

@[simp] theorem clearRole_cfg (s : State) : (clearRole s).cfg = s.cfg := by
  unfold clearRole
  split <;> simp
@[simp] theorem clearRole_service (s : State) : (clearRole s).service = s.service := by
  unfold clearRole
  split <;> simp
@[simp] theorem clearRole_pins (s : State) : (clearRole s).pins = s.pins := by
  unfold clearRole
  split <;> simp

theorem clearRole_route (s : State) :
    (clearRole s).route = if hasRole s .dispatch then dropRoute s.route else s.route := by
  unfold clearRole hasRole
  split <;> simp_all

theorem withdrawFrames_length_le (p : TxFrame → Bool) (s : State) :
    (withdrawFrames p s).line.tx.length ≤ s.line.tx.length := List.length_filterMap_le ..

/-- CLEAR withdraws frames and queues none before the own hold is announced (R59). -/
theorem clearRole_length_le (s : State) : (clearRole s).line.tx.length ≤ s.line.tx.length := by
  unfold clearRole
  split
  · have h : (clearCheck s).line = (endRequest s).line := by simp [clearCheck, dropCheckWork]
    rw [h]
    unfold endRequest
    split
    · exact withdrawFrames_length_le _ _
    · exact le_rfl
  all_goals simp

/-- The own entry put back changes the hold set and the queue alone. -/
theorem announceOwnHold_cases (s : State) : announceOwnHold s = s ∨
    ∃ c, announceOwnHold s = addOwnHold s ∨ announceOwnHold s = queueFrame (.hold c) (addOwnHold s) := by
  unfold announceOwnHold
  split
  · rename_i c _
    split
    · exact .inr ⟨c, .inl rfl⟩
    · exact .inr ⟨c, .inr rfl⟩
  · exact .inl rfl

theorem ends_clearReceived (h : execClearReceived s = .next t) : Ends s t := by
  obtain rfl := Host.Outcome.next.inj h
  split
  case h_2 => exact .plain (.refl s)
  split
  case isFalse => exact .plain (.refl s)
  rename_i hin
  set d := deriveFromEyes (clearZone (clearRole (endOffering (dropHead s)))) with hd
  have hda : active d = true := by
    rw [active_congr (s := s) (by simp [hd, clearZone, dropHead]), active_of_inService hin]
  have hds : StationSound d := by
    refine StationSound.derive ?_ rfl rfl
    rw [active_congr (s := s) (by simp [clearZone, dropHead]), active_of_inService hin]
  have hdr : d.route = if hasRole s .dispatch then dropRoute s.route else s.route := by
    have := clearRole_route (endOffering (dropHead s))
    simpa [hd, clearZone, dropHead, hasRole_congr (s := s) (t := endOffering (s.setLine _))] using this
  have hlen : d.line.tx.length ≤ s.line.tx.length := by
    have h1 := clearRole_length_le (endOffering (dropHead s))
    have h2 := withdrawFrames_length_le (fun f => (offerTrack f).isSome)
      ((dropHead s).setZone { (dropHead s).zone with offerTimer := none })
    have h3 : d.line = (clearRole (endOffering (dropHead s))).line := by simp [hd, clearZone]
    rw [h3]
    exact h1.trans h2
  have hfin : Evolves d (announceOwnHold d) := by
    obtain he | ⟨c, he | he⟩ := announceOwnHold_cases d
    · rw [he]; exact .refl d
    · rw [he]; exact .zone rfl rfl
    · rw [he]
      refine ⟨by simp [addOwnHold], .inl (by simp [addOwnHold]), by simp [addOwnHold], by simp [addOwnHold],
        .inl (by simp [addOwnHold]), by simp [addOwnHold], by simp [addOwnHold], .of_eq (by simp [addOwnHold]),
        fun hr => RoomForOffer.first ?_ rfl⟩
      have := tx_of_roomFor hr
      simp only [addOwnHold, setHolds_line, Config.txCapacity]
      omega
  refine .ready (ready_of_evolves hds hda (fun hr => routeSound_dropped hr hdr)
    (fun hr hw => routeWaits_of_off (laneWaitOn_dropped hr hw hdr)) hfin fun _ _ => ⟨?_, fun hr => hfin.line ?_⟩)
  · rw [hd, deriveFromEyes_timer]
    rfl
  · have := tx_of_roomFor hr
    exact decide_eq_true (show d.line.tx.length + 3 ≤ 8 by omega)

/-- A part that is out of service, with nothing on its table, obeys the laws (R24). -/
theorem stationSound_of_idle (hT : s.table = []) (hl : s.slot = none)
    (hz : s.zone.zstate = .empty) : StationSound s := by
  refine (stationSound_iff s).2 ⟨by simp [tableSound, tableTracks, hT], ⟨[], none, by simp [hT], by simp [allOutbound], ?_⟩,
    fun _ => ⟨hT, hl, hz⟩⟩
  rw [hz]
  exact tailFits_empty.2 rfl

theorem ends_reset (h : execReset s = .next t) : Ends s t := by
  obtain rfl := Host.Outcome.next.inj h
  exact .inactive rfl (stationSound_of_idle rfl rfl rfl) (fun _ => routeSound_of_none rfl rfl)
    fun _ _ => ⟨rfl, rfl⟩

/-- Out of service nothing is offered, and no lane wait runs. -/
theorem Settled.idle (h : Settled s) (hs : StationSound s) (ha : active s = false) :
    s.zone.offerTimer = none ∧ laneWaitOn s = false :=
  ⟨timer_of_not_offering h.1 (not_offering_of_inactive ha), laneWaitOn_of_empty_table h.2.2.1 (hs.idle ha).1⟩

theorem ends_resetRelease (hs : StationSound s) (h : execResetRelease s = .next t) : Ends s t := by
  obtain rfl := Host.Outcome.next.inj h
  split
  · rename_i hres
    have ha : active s = false := by simp [active, hres]
    obtain ⟨hT, hl, hz⟩ := hs.idle ha
    exact .inactive rfl (stationSound_of_idle hT hl hz) (fun hr => routeSound_congr hr rfl rfl rfl rfl)
      fun _ hset => hset.idle hs ha
  · exact .plain (.refl s)

/-- The start task of the role: for PLAIN and DISPATCH the entry to IN_SERVICE (R180). -/
theorem evolves_startTask (ha : active s = true) : Evolves s (startTask s) := by
  have enter := evolves_enterInService (Worked.refl s) ha (by omega)
  unfold startTask
  split
  · exact .of_worked (Worked.weigh s _)
  · exact .of_worked (Worked.wrap s _)
  · exact .of_worked ((worked_abortEngine s).trans (Worked.label _ _))
  · exact enter
  · exact enter
  · exact .refl s

theorem ends_imageReadComplete {image : List Byte} (hs : StationSound s) (h : execImageReadComplete image s = .next t) :
    Ends s t := by
  obtain rfl := Host.Outcome.next.inj h
  split
  case isFalse => exact .plain (.refl s)
  rename_i hl
  have ha : active s = false := by simp [active, hl]
  obtain ⟨hT, hslot, hz⟩ := hs.idle ha
  have hvac : RouteSound s → s.route.exitClass = none := fun hr =>
    exitClass_of_vacant hr (hs.zoneEntry_of_vacant (.inl hz))
  split
  · rename_i cfg _
    set d := deriveFromEyes ((s.setCfg cfg).setService .starting) with hd
    have hda : active d = true := by simp [hd, active]
    refine .ready (ready_of_evolves (u := d) (StationSound.derive (by simp [active]) hT hz) hda
      (fun hr => routeSound_of_exitClass hr (hvac hr) (by simp [hd]))
      (fun _ hw => routeWaits_of_off ?_) (evolves_startTask hda) fun _ hf => ⟨?_, fun hr => (evolves_startTask hda).line ?_⟩)
    · rw [laneWaitOn, show d.route = s.route by simp [hd]]
      exact laneWaitOn_of_empty_table hw hT
    · rw [hd, deriveFromEyes_timer]
      exact timer_of_not_offering (s := s) hf (not_offering_of_inactive ha)
    · simpa [roomFor, hd] using hr
  · rename_i kept _
    exact .inactive rfl (stationSound_of_idle hT hslot hz)
      (fun hr => routeSound_of_exitClass hr (hvac hr) rfl) fun _ hset => hset.idle hs ha

/-- Every command leaves the station as one of the three kinds of event does. -/
theorem exec_ends {c : Instr} (hs : StationSound s) (h : exec c s = .next t) : Ends s t := by
  cases hc : changesZone c
  · exact .plain (exec_plain hc hs.tracks h)
  cases c with
  | reset => exact ends_reset h
  | resetRelease => exact ends_resetRelease hs h
  | imageReadComplete image => exact ends_imageReadComplete hs h
  | clearReceived => exact ends_clearReceived h
  | offerReceived => exact ends_offerReceived hs h
  | acceptReceived => exact ends_acceptReceived hs h
  | helloReceived => exact ends_helloReceived hs h
  | entryEyeBlocks => exact ends_entryEyeBlocks hs h
  | positionEyeBlocks => exact ends_positionEyeBlocks hs h
  | exitEyeClears => exact ends_exitEyeClears hs h
  | ackPress => exact ends_ackPress hs h
  | offerRepeatExpiry => exact ends_offerRepeatExpiry hs h
  | arrivalTimerExpiry => exact ends_arrivalTimerExpiry hs h
  | positionTimerExpiry => exact ends_positionTimerExpiry hs h
  | releaseTimerExpiry => exact ends_releaseTimerExpiry hs h
  | laneInputChange input level => exact ends_laneInputChange hs h
  | laneWaitExpiry => exact ends_laneWaitExpiry hs h
  | _ => simp [changesZone] at hc

end

end Sys2Proof.Machine
end

