-- ==== Proofs/StationLaws.lean ====
section
/-! PROOF. The tick of the clock, and the laws of the station over every step (O53, O58); the part as reset leaves it (O3, O54). -/

namespace Sys2Proof.Machine

section
variable {s t : State}

/-! ## A tick -/

/-- A tick changes timers alone; the table's by `tickEntry`, while the station is active. -/
theorem tick_table (s : State) : (tick s).table = if active s then s.table.map (tickEntry s) else s.table := by
  unfold tick
  split <;> rfl

/-- A test that reads no timer finds the entry it found before. -/
theorem tick_find? {p : Entry → Bool} (hp : ∀ e, p (tickEntry s e) = p e) :
    (tick s).table.find? p = (s.table.find? p).map (fun e => if active s then tickEntry s e else e) := by
  rw [tick_table]
  split
  · rename_i ha
    rw [List.find?_map]
    simp [hp]
  · simp

@[simp] theorem tickEntry_state (s : State) (e : Entry) : (tickEntry s e).state = e.state := rfl
@[simp] theorem tickEntry_record (s : State) (e : Entry) : (tickEntry s e).record = e.record := rfl

theorem inZone_tickEntry (s : State) (e : Entry) : inZone (tickEntry s e) = inZone e := rfl

/-- An active station's tick, or an idle one's, changes none of these. -/
structure Ticked (s t : State) : Prop where
  service : t.service = s.service
  cfg : t.cfg = s.cfg
  slot : t.slot = s.slot
  pins : t.pins = s.pins
  zstate : t.zone.zstate = s.zone.zstate
  holds : t.zone.holds = s.zone.holds
  timer : t.zone.offerTimer.isSome = s.zone.offerTimer.isSome
  exitClass : t.route.exitClass = s.route.exitClass
  code : t.route.code = s.route.code
  lastLane : t.route.lastLane = s.route.lastLane
  wait : laneWaitOn t = laneWaitOn s
  fault : t.weigh.scaleFault = s.weigh.scaleFault
  postponed : t.weigh.postponed = s.weigh.postponed
  head : (headEntry t).map (fun e => (e.state, e.record)) = (headEntry s).map (fun e => (e.state, e.record))
  zone : (zoneEntry t).map Entry.record = (zoneEntry s).map Entry.record
  inState : ∀ st, (zoneEntryIn t st).isSome = (zoneEntryIn s st).isSome
  expected : (expectedEntry t).isNone = (expectedEntry s).isNone
  length : t.table.length = s.table.length

theorem ticked (s : State) : Ticked s (tick s) := by
  have hmap : ∀ e : Entry, ((if active s then tickEntry s e else e).state,
      (if active s then tickEntry s e else e).record) = (e.state, e.record) := fun e => by split <;> rfl
  constructor
  case head =>
    rw [headEntry, tick_find? fun e => rfl, Option.map_map]
    exact Option.map_congr fun e _ => hmap e
  case zone =>
    rw [zoneEntry, tick_find? (inZone_tickEntry s), Option.map_map]
    exact Option.map_congr fun e _ => congrArg Prod.snd (hmap e)
  case inState =>
    intro st
    rw [zoneEntryIn, tick_find? fun e => rfl, Option.isSome_map]
    rfl
  case expected =>
    rw [expectedEntry, tick_find? fun e => rfl, Option.isNone_map]
    rfl
  case length =>
    rw [tick_table]
    split <;> simp
  all_goals
    unfold tick
    split <;> simp [tickTimers, tickZone, tickTimer, tickRoute, tickWeigh, laneWaitOn]

namespace Ticked

theorem offering (h : Ticked s t) : offering t = offering s := by
  have hd : headDone t = headDone s := by
    have hh := congrArg (Option.map fun x => decide (x.1 = RecordState.done)) h.head
    simp only [Option.map_map] at hh
    unfold headDone
    cases hs : headEntry s <;> cases ht : headEntry t <;> simp_all
  simp [Machine.offering, hasRole_congr h.cfg, hd, h.zstate, holdsEmpty_congr h.holds, inService_congr h.service]

theorem accepting (h : Ticked s t) : accepting t = accepting s := by
  simp [Machine.accepting, inService_congr h.service, h.zstate, h.pins, h.expected, h.length, holdsEmpty_congr h.holds,
    hasRole_congr h.cfg, h.fault, zeroOverdue_congr h.postponed]

theorem delivering (h : Ticked s t) : delivering t = delivering s := by
  simp [Machine.delivering, inService_congr h.service, h.zstate, h.inState, holdsEmpty_congr h.holds,
    hasRole_congr h.cfg]

theorem lacksExit (h : Ticked s t) : lacksExit t = lacksExit s := by
  simp [Machine.lacksExit, h.inState, h.exitClass, h.pins, h.lastLane]

theorem platformEmpty (h : Ticked s t) : platformEmpty t = platformEmpty s := by
  have hz := congrArg Option.isNone h.zone
  simp only [Option.isNone_map] at hz
  simp [Machine.platformEmpty, h.zstate, h.pins, hz]

theorem routeSound (h : Ticked s t) (hr : RouteSound s) : RouteSound t :=
  routeSound_congr hr h.cfg h.zone h.exitClass h.code

theorem settled (h : Ticked s t) (hs : Settled s) : Settled t := by
  obtain ⟨ho, ha, hr, hp⟩ := hs
  refine ⟨by rw [OfferingFollows, h.timer, h.offering, ho], fun hc => ?_, ⟨fun hd => ?_, fun hw => ?_⟩, fun hw hz => ?_⟩
  · rw [h.accepting]
    exact ha (by simpa [hasRole_congr h.cfg, h.slot] using hc)
  · rw [h.lacksExit, h.wait]
    exact hr.1 (by rwa [h.delivering] at hd)
  · rw [h.lacksExit]
    exact hr.2 (by rwa [h.wait] at hw)
  · rw [holdsEmpty_congr h.holds, h.fault, zeroOverdue_congr h.postponed]
    exact hp (by rwa [works_congr h.service h.cfg] at hw) (by rwa [h.zstate] at hz)

end Ticked

/-- A tick keeps the laws of the station table: each entry keeps its state and its record. -/
theorem StationSound.tick (h : StationSound s) : StationSound (tick s) := by
  have hk := ticked s
  have hev : Evolved (!hasRole s .dispatch) s.table (Machine.tick s).table := by
    rw [tick_table]
    split
    · exact .of_map fun e _ => ⟨rfl, .inl ⟨rfl, rfl⟩⟩
    · exact .refl _ _
  exact stationSound_congr ((Evolves.of_worked (Worked.table_only hev)).stationSound h) hk.service hk.cfg hk.zstate rfl
    hk.slot

/-! ## Every step -/

theorem Ends.stationSound (h : Ends s t) (hs : StationSound s) : StationSound t := by
  cases h with
  | plain hp =>
    cases hp with
    | still hc _ => exact hc.stationSound hs
    | settled he => exact (he.stationSound hs).settle
  | ready hr => exact hr.sound.settle
  | inactive _ ht _ _ => exact ht

/-- Settles O53: each event's own effect on table and zone, and then `settle`, keep the table's shape. -/
theorem stepsKeepTheStationSound : Obligations.StepsKeepTheStationSound := by
  intro s t hs h
  obtain ⟨c, rest, -, hc⟩ | ⟨-, rfl⟩ := step_cases h
  · exact (exec_ends (s := s.setPending rest) hs hc).stationSound hs
  · exact hs.tick

/-- What O58 says of the event in which offering begins. -/
def OfferBegins (s t : State) : Prop :=
  ∀ e ∈ headEntry t, offering t = true →
    offering s = false ∨ (headEntry s).map (fun x => x.record.track) ≠ some e.record.track →
    t.zone.offerTimer = some t.cfg.timing.offerRepeat ∧
      (roomFor 3 s = true → queued (.offer (downstream t) e.record) t = true)

/-- Where the station offered the same record before, offering does not begin. -/
theorem offerBegins_of_same (h : offering t = true → offering s = true ∧
    (headEntry t).map (fun x => x.record.track) = (headEntry s).map (fun x => x.record.track)) : OfferBegins s t := by
  intro e he ho hor
  obtain ⟨hs, hk⟩ := h ho
  obtain hn | hn := hor
  · simp [hs] at hn
  · exact absurd (by rw [← hk, Option.mem_def.1 he]; rfl) hn

/-- An event that ends in `settle` begins offering as the state before the end has it. -/
theorem Ready.offerBegins {m : State} (h : Ready s m) (hf : OfferingFollows s) : OfferBegins s (settle s m) := by
  cases hom : offering m
  case false =>
    refine offerBegins_of_same fun ho => ?_
    simp [offering_of_settle ho] at hom
  have hset := settle_of_offering (b := s) hom
  have hhead : headEntry (settle s m) = headEntry m := headEntry_congr (by rw [hset]; simp)
  obtain ⟨ht, hl⟩ | ⟨hos, hk⟩ | ⟨ht, hq⟩ := h.offers hf hom
  · intro e he ho _
    obtain ⟨h1, h2⟩ := settle_offers ho ht he
    exact ⟨h1, fun hr => h2 (hl hr)⟩
  · exact offerBegins_of_same fun _ => ⟨hos, by rw [hhead, hk]⟩
  · intro e he _ _
    rw [offerStep_of fun _ => by simp [ht]] at hset
    rw [hset, windowStep_zone, windowStep_cfg, downstream_congr (s := m) (by simp), queued_congr (windowStep_line s m)]
    exact ⟨ht, fun hr => hq hr e (by rwa [← hhead])⟩

theorem Evolves.offerBegins {m : State} (h : Evolves s m) (hs : StationSound s) (hf : OfferingFollows s) :
    OfferBegins s (settle s m) := by
  cases hos : offering s
  · intro e he ho _
    have ht := timer_of_not_offering hf hos
    obtain ⟨h1, h2⟩ := settle_offers ho (by simpa [ht] using h.timer) he
    exact ⟨h1, fun hr => h2 (h.line hr)⟩
  · refine offerBegins_of_same fun ho => ⟨hos, ?_⟩
    have hset := settle_of_offering (b := s) (offering_of_settle ho)
    rw [headEntry_congr (t := settle s m) (s := m) (by rw [hset]; simp), h.head hs]

/-- What O58 asks of an event, from what kind of event it is. -/
theorem Ends.leavesNothing (h : Ends s t) (hs : StationSound s) (hr : RouteSound s) (hset : Settled s) :
    RouteSound t ∧ Settled t ∧ OfferBegins s t ∧
      (works s .check = true → works t .check = true → platformEmpty t ≠ platformEmpty s → t.weigh.window = []) := by
  cases h with
  | plain hp =>
    cases hp with
    | still hc ht =>
      refine ⟨hc.routeSound hr, hc.settled ht hset, offerBegins_of_same fun ho => ?_, fun _ _ hp => absurd hc.platformEmpty hp⟩
      exact ⟨by rwa [hc.offering] at ho, by rw [headEntry_congr hc.table]⟩
    | @settled m he =>
      refine ⟨(he.routeSound hs hr).settle (he.stationSound hs), ?_, he.offerBegins hs hset.1,
        fun _ hw hp => settle_window hw hp⟩
      cases ha : active m
      · rw [settle_inactive ha]
        obtain ⟨h1, h2⟩ := hset.idle hs (by rwa [← he.active])
        have ho := not_offering_of_inactive ha
        have hin : inService m = false := by
          by_contra hn
          simp [active_of_inService (by simpa using hn)] at ha
        refine ⟨?_, fun _ => by simp [accepting, hin], ⟨fun hd => by simp [delivering, hin] at hd, fun hw => ?_⟩,
          permitSound_of_zone ?_⟩
        · rw [OfferingFollows, ho]
          obtain ht | ht := he.timer <;> simp [ht, h1]
        · rw [laneWaitOn, he.route] at hw
          simp [laneWaitOn, hw] at h2
        · rw [he.zstate, (hs.idle (by rwa [← he.active])).2.2]
          decide
      · exact settled_settle ha (he.routeWaits hs hr hset.2.2.1)
  | ready hm =>
    exact ⟨(hm.route hr).settle hm.sound, settled_settle hm.active (hm.waits hr hset.2.2.1), hm.offerBegins hset.1,
      fun _ hw hp => settle_window hw hp⟩
  | inactive ha ht hrt hidle =>
    obtain ⟨h1, h2⟩ := hidle hr hset
    have ho := not_offering_of_inactive ha
    have hin : inService t = false := by
      by_contra hn
      simp [active_of_inService (by simpa using hn)] at ha
    refine ⟨hrt hr, ⟨by simp [OfferingFollows, h1, ho], fun _ => by simp [accepting, hin],
      ⟨fun hd => by simp [delivering, hin] at hd, fun hw => by simp [h2] at hw⟩, permitSound_of_zone ?_⟩,
      offerBegins_of_same fun hn => by simp [ho] at hn, fun _ hw => by simp [works, ha] at hw⟩
    rw [(ht.idle ha).2.2]
    decide

/-- Settles O58: `settle` takes up whatever waits, and a command without it leaves what the conditions read. -/
theorem stepsLeaveNothingWaiting : Obligations.StepsLeaveNothingWaiting := by
  intro s t hs hr hset h
  obtain ⟨c, rest, -, hc⟩ | ⟨-, rfl⟩ := step_cases h
  · exact (exec_ends (s := s.setPending rest) hs hc).leavesNothing hs hr hset
  · have hk := ticked s
    refine ⟨hk.routeSound hr, hk.settled hset, offerBegins_of_same fun ho => ⟨by rwa [hk.offering] at ho, ?_⟩,
      fun _ _ hp => absurd hk.platformEmpty hp⟩
    have hh := congrArg (Option.map fun x => x.2.track) hk.head
    simpa [Option.map_map, Function.comp_def] using hh

/-! ## The part as reset leaves it -/

/-- Settles O3: each value is the reset value of its block, and the outputs are read from them. -/
theorem resetLeavesResetValues : Obligations.ResetLeavesResetValues := by
  intro s
  refine ⟨_, rfl, ?_⟩
  and_intros <;> rfl

/-- Settles O54: every queue and table is empty, every block idle, so that each law holds of nothing. -/
theorem resetIsSound : Obligations.ResetIsSound := by
  unfold Obligations.ResetIsSound
  refine ⟨stationSound_of_idle rfl rfl rfl, ?_, ?_, ?_, ?_, ?_, ?_, ?_, routeSound_of_none rfl rfl, ?_, ?_⟩
  · decide
  · decide
  · decide
  · decide
  · decide
  · decide
  · decide
  · decide
  · decide

end

end Sys2Proof.Machine
end

