-- ==== Proofs/RecordFields.lean ====
section
/-! PROOF. No block writes into a record that is not in WORKING (R4, O60): where each entry of the table comes from. -/

namespace Sys2Proof.Machine

/-! ## Entries that come of entries -/

/-- The entry has been at work: it is past PRESENT. -/
def late (e : Entry) : Prop := e.state ≠ .expected ∧ e.state ≠ .present

/-- The entry's work is over. -/
def finished (e : Entry) : Prop := e.state = .done ∨ e.state = .releasing ∨ e.state = .outbound

theorem finished.late {e : Entry} (h : finished e) : late e := by
  obtain h | h | h := h <;> simp [Machine.late, h]

/-- `e'` is the entry `e` after some operations: past PRESENT and past WORKING it does not come back, and its record is written on
the way through WORKING alone. -/
structure Derived (e e' : Entry) : Prop where
  track : e'.record.track = e.record.track
  late : late e → late e'
  finished : finished e → finished e'
  record : e'.record = e.record ∨ (¬ Machine.finished e ∧ Machine.late e')

namespace Derived

theorem refl (e : Entry) : Derived e e := ⟨rfl, id, id, .inl rfl⟩

theorem trans {a b c : Entry} (h : Derived a b) (k : Derived b c) : Derived a c := by
  refine ⟨k.track.trans h.track, fun ha => k.late (h.late ha), fun ha => k.finished (h.finished ha), ?_⟩
  obtain hr | ⟨hf, hl⟩ := h.record
  · obtain kr | ⟨kf, kl⟩ := k.record
    · exact .inl (kr.trans hr)
    · exact .inr ⟨fun ha => kf (h.finished ha), kl⟩
  · exact .inr ⟨hf, k.late hl⟩

/-- The record as it was, in a state that is not further back. -/
theorem of_state {e e' : Entry} (hr : e'.record = e.record) (hl : Machine.late e → Machine.late e')
    (hf : Machine.finished e → Machine.finished e') : Derived e e' := ⟨by rw [hr], hl, hf, .inl hr⟩

theorem of_carried {w : Bool} {e e' : Entry} (h : Carried w e e') : Derived e e' := by
  obtain ⟨hk, ⟨hs, hr⟩ | ⟨-, hw, hb⟩⟩ := h
  · exact of_state hr (by simp [Machine.late, hs]) (by simp [Machine.finished, hs])
  · refine ⟨hk, fun _ => ?_, fun hf => by simp [Machine.finished, hw] at hf, .inr ⟨by simp [Machine.finished, hw], ?_⟩⟩
    all_goals obtain hb | hb := hb <;> simp [Machine.late, hb]

/-- What became of a finished entry, and of one that is PRESENT or EXPECTED still, has its fields. -/
theorem record_eq {e e' : Entry} (h : Derived e e') (hor : Machine.finished e ∨ ¬ Machine.late e') :
    e'.record = e.record := by
  obtain hr | ⟨hf, hl⟩ := h.record
  · exact hr
  · obtain h | h := hor
    · exact absurd h hf
    · exact absurd hl h

end Derived

/-- Every entry of the second table comes of one of the first. -/
def Derives (T T' : List Entry) : Prop := ∀ e' ∈ T', ∃ e ∈ T, Derived e e'

namespace Derives
variable {T T' T'' : List Entry}

theorem refl (T : List Entry) : Derives T T := fun e he => ⟨e, he, .refl e⟩

theorem trans (h : Derives T T') (k : Derives T' T'') : Derives T T'' := fun c hc => by
  obtain ⟨b, hb, kb⟩ := k c hc
  obtain ⟨a, ha, kh⟩ := h b hb
  exact ⟨a, ha, kh.trans kb⟩

theorem of_eq (h : T' = T) : Derives T T' := h ▸ refl T

theorem of_sublist (h : T'.Sublist T) : Derives T T' := fun e he => ⟨e, h.subset he, .refl e⟩

theorem of_map {f : Entry → Entry} (h : ∀ e ∈ T, Derived e (f e)) : Derives T (T.map f) := fun e' he' => by
  obtain ⟨e, he, rfl⟩ := List.mem_map.1 he'
  exact ⟨e, he, h e he⟩

theorem of_evolved {w : Bool} (h : Evolved w T T') : Derives T T' := fun e' he' => by
  obtain ⟨e, he, hc⟩ := h.exists_of_mem he'
  exact ⟨e, he, .of_carried hc⟩

/-- The entry in one state goes to another that is not further back. -/
theorem moveState {a b : RecordState} {s : State} (hl : (a ≠ .expected ∧ a ≠ .present) → b ≠ .expected ∧ b ≠ .present)
    (hf : (a = .done ∨ a = .releasing ∨ a = .outbound) → b = .done ∨ b = .releasing ∨ b = .outbound) :
    Derives s.table (moveState a b s).table := by
  refine of_map fun e _ => ?_
  by_cases h : e.state = a
  · rw [if_pos h]
    exact .of_state rfl (fun hl' => hl (h ▸ hl')) (fun hf' => hf (h ▸ hf'))
  · rw [if_neg h]
    exact .refl e

end Derives

/-! ## Entries that are new -/

/-- The table's entries come of the old ones, or are new: EXPECTED with a track that the table had not, unless it was the slot's; or
PRESENT with a track that at most an OUTBOUND entry had. -/
def Descends (s : State) (T : List Entry) : Prop :=
  ∀ e' ∈ T, (∃ e ∈ s.table, Derived e e') ∨
    (e'.state = .expected ∧ ∀ e ∈ s.table, e.record.track = e'.record.track →
      s.slot.any (fun r => r.track = e'.record.track) = true) ∨
    (e'.state = .present ∧ ∀ e ∈ s.table, e.record.track = e'.record.track → e.state = .outbound)

/-- What a new entry taken from the slot would be. -/
def slotDescends (s m : State) : Prop :=
  ∀ r ∈ m.slot, ∀ e ∈ s.table, e.record.track = r.track → s.slot.any (fun q => q.track = r.track) = true

section
variable {s m t : State}

theorem Descends.of_derives {T : List Entry} (h : Derives s.table T) : Descends s T := fun e' he' => .inl (h e' he')

theorem slotDescends_of_slot (h : m.slot = s.slot ∨ m.slot = none) : slotDescends s m := by
  intro r hr e _ _
  obtain h | h := h
  · rw [h] at hr
    simp [Option.mem_def.1 hr]
  · simp [h] at hr

/-- The end of an event takes a DONE record to RELEASING and the slot's OFFER into the table, and changes no other entry. -/
theorem Descends.settle {b : State} (h : Descends s m.table) (hslot : slotDescends s m) :
    Descends s (settle b m).table := by
  cases ha : active m
  · rwa [settle_inactive ha]
  rw [settle_active ha, windowStep_table, offerStep_table]
  have h1 : (permitStep (stopOffering m)).table = m.table := by simp
  have h2 : Descends s (routeStep (permitStep (stopOffering m))).table := by
    rw [← h1] at h
    generalize permitStep (stopOffering m) = u at h
    obtain hs | ⟨-, hs⟩ | ⟨e, -, -, hs⟩ := routeStep_cases u
    · rwa [hs]
    · rw [hs]; exact h
    · rw [hs, watchLaneWait_table]
      obtain ⟨x, exit, -, -, hd⟩ | ⟨x, -, -, hd⟩ := decideRoute_cases e.record u
      · have hT : (decideRoute e.record u).table = (moveState .done .releasing u).table := by
          rw [hd, startDelivery_eq]
          simp
        rw [hT]
        intro y hy
        obtain ⟨x, hx, rfl⟩ := List.mem_map.1 hy
        by_cases hxd : x.state = .done
        · rw [if_pos hxd]
          obtain ⟨e, he, hk⟩ | ⟨hn, -⟩ | ⟨hn, -⟩ := h x hx
          · refine .inl ⟨e, he, hk.trans (.of_state rfl (fun _ => by simp [late]) fun _ => by simp [finished])⟩
          · simp [hxd] at hn
          · simp [hxd] at hn
        · rw [if_neg hxd]
          exact h x hx
      · rw [hd, fixExitClass_table]
        exact h
  have h3 : (routeStep (permitStep (stopOffering m))).slot = m.slot := by simp
  generalize routeStep (permitStep (stopOffering m)) = u at h2 h3
  obtain ⟨r, hr, -, -, -, hs⟩ | ⟨r, -, -, -, -, hs⟩ | hs := slotStep_cases u
  · rw [hs, acceptOffer_table]
    intro y hy
    obtain hy | hy := List.mem_append.1 hy
    · exact h2 y hy
    · obtain rfl := List.mem_singleton.1 hy
      refine .inr (.inl ⟨rfl, fun e he hk => ?_⟩)
      exact hslot r (by rw [← h3, hr]; rfl) e he hk
  · rw [hs]
    simpa using h2
  · rwa [hs]

theorem Descends.settle_derives {b : State} (h : Derives s.table m.table) (hslot : m.slot = s.slot ∨ m.slot = none) :
    Descends s (Machine.settle b m).table := (Descends.of_derives h).settle (slotDescends_of_slot hslot)

theorem Plain.descends (h : Plain s t) : Descends s t.table := by
  cases h with
  | still hc _ => exact .of_derives (.of_eq hc.table)
  | settled he => exact .settle_derives (.of_evolved he.table) (.inl he.slot)

/-! ## The commands that change the zone -/

theorem descends_refl (s : State) : Descends s s.table := .of_derives (.refl _)

theorem descends_offerReceived (h : execOfferReceived s = .next t) : Descends s t.table := by
  obtain rfl := Host.Outcome.next.inj h
  split
  case h_2 => exact descends_refl s
  rename_i r _ _
  split
  case isFalse => exact descends_refl s
  have hsame : ∀ m : State, m.table = s.table → m.slot = s.slot → Descends s (settle s m).table :=
    fun m hT hl => .settle_derives (.of_eq hT) (.inl hl)
  unfold takeOffer
  split
  · split
    · split
      · exact hsame _ (by simp [dropHead]) (by simp [dropHead])
      · exact hsame _ rfl rfl
    · exact hsame _ (by simp [dropHead]) (by simp [dropHead])
  · rename_i hk
    have hk : ∀ x ∈ s.table, x.record.track ≠ r.track := (entryOf_eq_none (s := s)).1 hk
    split
    · exact hsame _ rfl rfl
    · split
      · refine Descends.settle ?_ (slotDescends_of_slot (.inr (by simp)))
        rw [acceptOffer_table]
        intro y hy
        obtain hy | hy := List.mem_append.1 hy
        · exact descends_refl s y hy
        · obtain rfl := List.mem_singleton.1 hy
          exact .inr (.inl ⟨rfl, fun e he hek => absurd hek (hk e he)⟩)
      · refine (descends_refl s).settle (m := (dropHead s).setSlot (some r)) fun q hq e he hek => ?_
        obtain rfl : r = q := by simpa using hq
        exact absurd hek (hk e he)

theorem derives_startRelease (s : State) : Derives s.table (startRelease s).table := by
  rw [startRelease_table]
  exact Derives.moveState (s := s) (by decide) (by decide)

theorem descends_acceptReceived (h : execAcceptReceived s = .next t) : Descends s t.table := by
  obtain rfl := Host.Outcome.next.inj h
  split
  case h_2 => exact descends_refl s
  split
  case isFalse => exact descends_refl s
  split
  · exact .settle_derives (derives_startRelease (dropHead s)) (.inl (by simp [dropHead]))
  · exact .settle_derives (.refl _) (.inl rfl)

theorem derives_redone (T : List Entry) : Derives T (T.map redone) :=
  .of_map fun e _ => .of_state (redone_record e) (fun hl => by
    by_cases h : e.state = .releasing
    · simp [late, redone_state, h]
    · simpa [late, redone_state, h] using hl) fun hf => by
    by_cases h : e.state = .releasing
    · simp [finished, redone_state, h]
    · simpa [finished, redone_state, h] using hf

theorem descends_helloReceived (h : execHelloReceived s = .next t) : Descends s t.table := by
  obtain rfl := Host.Outcome.next.inj h
  split
  case h_2 => exact descends_refl s
  rename_i n _ _
  split
  case isFalse => exact descends_refl s
  have up : ∀ u : State, Derives u.table (helloFromUpstream u).table ∧ (helloFromUpstream u).slot = none := fun u => by
    rw [helloFromUpstream_eq]
    exact ⟨.of_sublist List.filter_sublist, rfl⟩
  have down : ∀ u : State, Derives u.table (helloFromDownstream u).table ∧ (helloFromDownstream u).slot = u.slot := fun u => by
    have hnow : ∀ v : State, (offerAtOnce v).table = v.table ∧ (offerAtOnce v).slot = v.slot := fun v => by
      unfold offerAtOnce
      split
      · exact ⟨(sameCore_offerNow v).table, (sameCore_offerNow v).slot⟩
      · exact ⟨rfl, rfl⟩
    have hstop : ∀ v : State, (stopOrJam v).table = v.table ∧ (stopOrJam v).slot = v.slot := fun v => by
      unfold stopOrJam
      split <;> simp
    have hbase := (Derives.of_sublist (T := u.table) (List.filter_sublist (p := fun e => e.state != .outbound))).trans
      (derives_redone _)
    unfold helloFromDownstream
    rw [(hnow _).1, (hnow _).2]
    split
    · rw [(hstop _).1, (hstop _).2]
      exact ⟨hbase, rfl⟩
    · exact ⟨hbase, rfl⟩
  have h0 : Derives s.table (setHolds (removeHold n (dropHead s).zone.holds) (dropHead s)).table := .refl _
  refine .settle_derives ?_ ?_
  · simp only [heardHello]
    split
    · split
      · exact (h0.trans (up _).1).trans (down _).1
      · exact h0.trans (down _).1
    · split
      · exact h0.trans (up _).1
      · exact h0
  · simp only [heardHello]
    split
    · rw [(down _).2]
      split
      · exact .inr (up _).2
      · exact .inl rfl
    · split
      · exact .inr (up _).2
      · exact .inl rfl

/-- A full table makes room by its oldest OUTBOUND entry alone (R9). -/
theorem evict_mem {e : Entry} (s : State) (he : e ∈ s.table) (hne : e.state ≠ .outbound) : e ∈ (evict s).table := by
  obtain ⟨-, h⟩ | ⟨-, x, -, h⟩ | ⟨-, -, h⟩ := evict_cases s
  · rwa [h]
  · rw [h, notify_table, State.setTable_table]
    exact (List.mem_eraseP_of_neg (by simpa using hne)).2 he
  · rwa [h]

theorem evict_sublist (s : State) : (evict s).table.Sublist s.table := by
  obtain ⟨-, h⟩ | ⟨-, e, -, h⟩ | ⟨-, -, h⟩ := evict_cases s
  · rw [h]
  · rw [h, notify_table, State.setTable_table]
    exact List.eraseP_sublist
  · rw [h]

theorem descends_arrive (hs : tableSound s) : Descends s (arrive s).table := by
  have made : ∀ u, Descends s (createRecord u .present (evict s)).table := fun u y hy => by
    rw [createRecord_table'] at hy
    obtain hy | hy := List.mem_append.1 hy
    · exact .inl ⟨y, (evict_sublist s).subset hy, .refl y⟩
    · obtain rfl := List.mem_singleton.1 hy
      refine .inr (.inr ⟨rfl, fun e he hk => ?_⟩)
      by_contra hne
      have hfree := newTrack_free (s := evict s) ((evict_sublist s).length_le.trans hs.1)
      rw [Bool.eq_false_iff, ne_eq, trackUsed_iff] at hfree
      exact hfree (List.mem_map.2 ⟨e, evict_mem s he hne, hk⟩)
  unfold arrive
  split
  · rw [startPositioning_table, arriveAtCheck_table']
    exact made false
  · rw [startPositioning_table]
    unfold arriveElsewhere
    split
    · rw [queueFrame_table]
      refine .of_derives (.of_map fun e _ => ?_)
      by_cases he : e.state = .expected
      · rw [if_pos he]
        exact .of_state rfl (by simp [late, he]) (by simp [finished, he])
      · rw [if_neg he]
        exact .refl e
    · rw [notify_table]
      exact made true

theorem descends_entryEyeBlocks (hs : tableSound s) (h : execEntryEyeBlocks s = .next t) : Descends s t.table := by
  obtain rfl := Host.Outcome.next.inj h
  refine Descends.settle ?_ (slotDescends_of_slot (.inl ?_))
  · split
    · exact descends_arrive (s := s.setPins { s.pins with eyeEntry := true }) hs
    · exact descends_refl s
  · split <;> simp

/-- The role's work writes into the WORKING record, or ends it. -/
theorem derives_beginWork (r : TravelRecord) (s : State) : Derives s.table (beginWork r s).table := by
  cases hd : hasRole s .dispatch
  · exact .of_evolved (worked_beginWork r hd).table
  · rw [beginWork_of_dispatch r hd]
    exact .moveState (by decide) (by decide)

theorem derives_enterWorking (s : State) : Derives s.table (enterWorking s).table := by
  unfold enterWorking
  split
  · exact (Derives.moveState (s := s) (by decide) (by decide)).trans (derives_beginWork _ _)
  · exact .refl _

theorem derives_evalStep (s : State) : Derives s.table (evalStep s).table := by
  cases hc : hasRole s .check
  · rw [evalStep_of_role hc]
    exact .refl _
  · exact .of_evolved (worked_evalStep (not_dispatch_of_check hc)).table

/-- What a PRESENT record at position goes through. -/
theorem derives_atPosition (s : State) : Derives s.table
    (evalStep (if (zoneEntryIn s .present).isSome then enterWorking (profileAtPosition s) else s)).table := by
  refine Derives.trans ?_ (derives_evalStep _)
  split
  · have h := derives_enterWorking (profileAtPosition s)
    rwa [profileAtPosition_table] at h
  · exact .refl _

theorem descends_positionEyeBlocks (h : execPositionEyeBlocks s = .next t) : Descends s t.table := by
  obtain rfl := Host.Outcome.next.inj h
  split
  · rw [positionComplete_eq]
    refine .settle_derives (derives_atPosition (stopAtPosition (s.setPins { s.pins with eyePos := true }))) (.inl ?_)
    rw [evalStep_slot]
    split <;> simp [stopAtPosition]
  · exact .settle_derives (.refl _) (.inl rfl)

theorem descends_exitEyeClears (h : execExitEyeClears s = .next t) : Descends s t.table := by
  obtain rfl := Host.Outcome.next.inj h
  set s1 := s.setPins { s.pins with eyeExit := false } with hs1
  have gone : Derives s.table (s.table.filter (fun e => !inZone e)) := .of_sublist List.filter_sublist
  have out : Derives s.table (s.table.map fun x => if x.state = .releasing then
      { x with state := .outbound, timer := some (s.cfg.timing.transit + Config.takenExtra) } else x) := by
    refine .of_map fun e _ => ?_
    by_cases he : e.state = .releasing
    · rw [if_pos he]
      exact .of_state rfl (by simp [late]) (by simp [finished])
    · rw [if_neg he]
      exact .refl e
  split
  case isFalse => exact .settle_derives (.refl _) (.inl rfl)
  split
  · refine .settle_derives ?_ (.inl (by simp [hs1]))
    unfold completeDelivery
    split
    · rw [queueFrame_table]
      exact gone
    · exact .refl _
  · refine .settle_derives ?_ (.inl (by simp [hs1]))
    unfold completeRelease
    split
    · rw [queueFrame_table]
      unfold moveOn
      split
      · exact gone
      · exact out
    · exact .refl _

theorem descends_ackPress (h : execAckPress s = .next t) : Descends s t.table := by
  obtain rfl := Host.Outcome.next.inj h
  split
  case isFalse => exact descends_refl s
  split
  · obtain ⟨l, hl⟩ := ackAllClear_eq s
    refine .settle_derives (.of_sublist ?_) (.inl (by simp [hl]))
    have hT : (ackAllClear s).table = s.table.filter (fun e => !inZone e) := by simp [hl]
    rw [hT]
    exact List.filter_sublist
  · split
    · rw [ackAtPosition_eq]
      have hT : (ackStopped s).table = s.table.map redone := by
        simp [ackStopped, clearJam, dropRouteCode_eq, returnToDone, redone]
      refine .settle_derives (Derives.trans ?_ (derives_atPosition (ackStopped s))) (.inl ?_)
      · rw [hT]
        exact derives_redone _
      · rw [evalStep_slot]
        split <;> simp [ackStopped, clearJam, dropRouteCode_eq, (worked_restartPresent s).slot]
    · have hT : (ackElsewhere s).table = s.table ∧ (ackElsewhere s).slot = s.slot := by
        unfold ackElsewhere
        split <;> simp [clearJam, (worked_restartPresent s).slot]
      exact .settle_derives (.of_eq hT.1) (.inl hT.2)

theorem descends_offerRepeatExpiry (h : execOfferRepeatExpiry s = .next t) : Descends s t.table := by
  obtain rfl := Host.Outcome.next.inj h
  split
  · exact .settle_derives (.of_eq (sameCore_offerNow s).table) (.inl (sameCore_offerNow s).slot)
  · exact descends_refl s

theorem descends_arrivalTimerExpiry (h : execArrivalTimerExpiry s = .next t) : Descends s t.table := by
  obtain rfl := Host.Outcome.next.inj h
  split
  · split
    · refine .settle_derives ?_ (.inl (by simp [loseExpected]))
      rw [loseExpected_table]
      exact .of_sublist List.filter_sublist
    · exact descends_refl s
  · exact descends_refl s

theorem descends_jamTimerExpiry {c : Instr} (hc : c = .positionTimerExpiry ∨ c = .releaseTimerExpiry)
    (h : exec c s = .next t) : Descends s t.table := by
  have jammed : ∀ k, Descends s (settle s (jam k s)).table := fun k => .settle_derives (.of_eq (by simp)) (.inl (by simp))
  obtain rfl | rfl := hc
  all_goals
    obtain rfl := Host.Outcome.next.inj h
    split
    · exact jammed _
    · exact descends_refl s

theorem descends_laneInputChange {i : LaneInput} {level : Bool} (h : execLaneInputChange i level s = .next t) :
    Descends s t.table := by
  obtain rfl := Host.Outcome.next.inj h
  refine .settle_derives (.of_eq ?_) (.inl ?_) <;> split <;> simp

theorem descends_laneWaitExpiry (h : execLaneWaitExpiry s = .next t) : Descends s t.table := by
  obtain rfl := Host.Outcome.next.inj h
  split
  · refine .settle_derives (.of_eq ?_) (.inl ?_) <;> (unfold reportLaneWait; split <;> simp)
  · exact descends_refl s

/-- With a pallet on the table the service is under way, so that the image is not read. -/
theorem StationSound.image_idle {image : List Byte} {e : Entry} (hs : StationSound s) (he : e ∈ s.table)
    (h : execImageReadComplete image s = .next t) : t = s := by
  obtain rfl := Host.Outcome.next.inj h
  rw [if_neg]
  intro hl
  have hT := (hs.idle (by simp [active, hl])).1
  simp [hT] at he

/-- Where every entry comes from, over all commands but CLEAR, which makes the table anew, for a table with an entry. -/
theorem exec_descends {c : Instr} {e : Entry} (hs : StationSound s) (hne : c ≠ .clearReceived) (he : e ∈ s.table)
    (h : exec c s = .next t) : Descends s t.table := by
  cases hc : changesZone c
  · exact (exec_plain hc hs.tracks h).descends
  cases c with
  | reset =>
    obtain rfl := Host.Outcome.next.inj h
    intro y hy
    simp [State.reset] at hy
  | resetRelease =>
    obtain rfl := Host.Outcome.next.inj h
    split <;> exact descends_refl s
  | imageReadComplete image =>
    rw [hs.image_idle he h]
    exact descends_refl s
  | offerReceived => exact descends_offerReceived h
  | acceptReceived => exact descends_acceptReceived h
  | helloReceived => exact descends_helloReceived h
  | entryEyeBlocks => exact descends_entryEyeBlocks hs.tracks h
  | positionEyeBlocks => exact descends_positionEyeBlocks h
  | exitEyeClears => exact descends_exitEyeClears h
  | ackPress => exact descends_ackPress h
  | offerRepeatExpiry => exact descends_offerRepeatExpiry h
  | arrivalTimerExpiry => exact descends_arrivalTimerExpiry h
  | positionTimerExpiry => exact descends_jamTimerExpiry (.inl rfl) h
  | releaseTimerExpiry => exact descends_jamTimerExpiry (.inr rfl) h
  | laneInputChange input level => exact descends_laneInputChange h
  | laneWaitExpiry => exact descends_laneWaitExpiry h
  | clearReceived => exact absurd rfl hne
  | _ => simp [changesZone] at hc

/-- Settles O60: an entry of the new table either comes of the old entry of its track, or is new and EXPECTED or PRESENT. -/
theorem finishedRecordsKeepTheirFields : Obligations.FinishedRecordsKeepTheirFields := by
  intro s t c e e' hs h hne he he' hk
  obtain ⟨d, hd, hder⟩ | ⟨hx, hnew⟩ | ⟨hp, hnew⟩ := exec_descends hs hne he h e' he'
  · obtain rfl := eq_of_track hs.tracks.2 he hd (hk.symm.trans hder.track)
    refine ⟨fun hf _ _ => hder.record_eq (.inl hf), fun _ hp => hder.record_eq (.inr ?_),
      fun _ _ hor => hder.record_eq (.inr ?_)⟩
    · simp [late, hp]
    · obtain h | h := hor <;> simp [late, h]
  · refine ⟨fun _ hn _ => absurd hx hn, fun _ hp => by simp [hp] at hx, fun _ hslot _ => ?_⟩
    have hany := hnew e he hk.symm
    cases hr : s.slot with
    | none => simp [hr] at hany
    | some r => simp_all
  · have ho := hnew e he hk.symm
    exact ⟨fun _ _ hn => absurd hp hn, fun hpres => by simp [ho] at hpres, fun hexp => by simp [ho] at hexp⟩

end

end Sys2Proof.Machine
end

