-- ==== Proofs/EndOfEvent.lean ====
section
/-! PROOF. What `settle` comes to where little waits: a station that offers nothing, or as before, has its permit and its slot
evaluated, and nothing else (R15, R31 to R33, R89). -/

namespace Sys2Proof.Machine

section
variable {b s m t : State}

/-! ## The end of an event in a zone that offers nothing -/

theorem stopOffering_idem (m : State) : stopOffering (stopOffering m) = stopOffering m :=
  stopOffering_of (stopOffering_timer m)

/-- A platform is empty in EMPTY and INBOUND alike, between which the permit changes the zone (R25, R89). -/
theorem platformEmpty_permitStep (m : State) : platformEmpty (permitStep m) = platformEmpty m := by
  obtain ⟨-, hz, -, h⟩ | ⟨-, -, ha, h⟩ | h := permitStep_cases m
  · rw [h]
    simp [platformEmpty, hz, zoneEntry]
  · rw [h]
    simp [platformEmpty, accepting_zone ha, zoneEntry]
  · rw [h]

theorem slotStep_of_check (h : hasRole m .check = true) : slotStep m = m := slotStep_of fun _ => .inr h

/-- Where nothing is left to offer and the route has nothing to decide, the permit, the slot and the platform remain. -/
theorem settle_of_not_offering (ha : active m = true) (ho : offering m = false)
    (hr : hasRole m .dispatch = true → RouteFollows m) :
    settle b m = windowStep b (slotStep (permitStep (stopOffering m))) := by
  have hroute : routeStep (permitStep (stopOffering m)) = permitStep (stopOffering m) := by
    cases hd : hasRole m .dispatch
    · exact routeStep_of_not_dispatch (by rw [hasRole_congr (s := m) (by simp), hd])
    · rw [permitStep_of_role (check_false_of_dispatch (by rw [hasRole_congr (s := m) (by simp), hd]))]
      exact routeStep_of ((sameCore_stopOffering m).routeFollows (hr hd))
  have hoff : offering (slotStep (permitStep (stopOffering m))) = false := by
    rw [← hroute, offering_middle, (sameCore_stopOffering m).offering, ho]
  rw [settle_active ha, hroute, offerStep_of fun h => by simp [hoff] at h]

/-- Where the offering goes on or off as before, and the platform too, only the permit and the slot remain. -/
theorem settle_of_offeringFollows (ha : active m = true) (ho : OfferingFollows m)
    (hr : hasRole m .dispatch = true → RouteFollows m)
    (hp : works m .check = true → platformEmpty b = platformEmpty m) : settle b m = slotStep (permitStep m) := by
  have hstop : stopOffering m = m := stopOffering_of fun h => by rwa [ho] at h
  have hroute : routeStep (permitStep m) = permitStep m := by
    cases hd : hasRole m .dispatch
    · exact routeStep_of_not_dispatch (by rw [hasRole_congr (s := m) (by simp), hd])
    · rw [permitStep_of_role (check_false_of_dispatch hd)]
      exact routeStep_of (hr hd)
  have hoff : offering (slotStep (permitStep m)) = offering m := by rw [← hroute, offering_middle]
  rw [settle_active ha, hstop, hroute, offerStep_of fun h => by
    rw [slotStep_offerTimer, permitStep_offerTimer, ho, ← hoff, h], windowStep_of fun hw => ?_]
  have hc : hasRole m .check = true := by
    rw [← hasRole_congr (s := m) (t := slotStep (permitStep m)) (by simp)]
    exact ((works_iff _).1 hw).2
  rw [hp (by rw [works_congr (s := m) (by simp) (by simp)] at hw; exact hw),
    slotStep_of_check (by rw [hasRole_congr (s := m) (by simp), hc]), platformEmpty_permitStep]

/-- With no OFFER to take up and no permit to turn, the end of the event is `stopOffering`'s and the platform's. -/
theorem settle_of_occupied (ha : active m = true) (hz : m.zone.zstate ≠ .stopped) (he : m.zone.zstate ≠ .empty)
    (hi : m.zone.zstate ≠ .inbound) (hr : hasRole m .dispatch = true → laneWaitOn m = false) :
    settle b m = windowStep b (stopOffering m) := by
  have hacc : accepting (stopOffering m) = false := accepting_false_of_zone (by simpa using he)
  rw [settle_of_not_offering ha (offering_false_of_zone hz) fun hd => ⟨fun h => by
      simp [delivering_false_of_zone hz] at h, fun h => by simp [hr hd] at h⟩,
    permitStep_of (by rw [(sameCore_stopOffering m).active, ha]) (permitSound_of_zone (by simpa using hi)) fun _ => hacc,
    slotStep_of fun _ => .inl hacc]

/-! ## The permit and the slot -/

/-- A permit that need not cease turns on or stays as it was (R32). -/
theorem permitStep_zone (hin : inService s = true) (hp : PermitSound s) : (permitStep s).zone =
    if infeedPermit (permitStep s) then { s.zone with zstate := .inbound } else s.zone := by
  have hin' : ∀ u : State, u.service = s.service → inService u = true := fun u h => by rw [inService_congr h, hin]
  obtain ⟨hc, hz, hcease, -⟩ | ⟨hc, -, -, h⟩ | h := permitStep_cases s
  · have := hp ((works_iff _).2 ⟨active_of_inService hin, hc⟩) hz
    simp [permitCeases, this] at hcease
  · have hperm : infeedPermit (setZoneState .inbound s) = true := by
      simp [infeedPermit, hin' (setZoneState .inbound s) rfl, hasRole_congr (s := s) (t := setZoneState .inbound s) rfl, hc]
    rw [h, if_pos hperm]
    simp
  · rw [h]
    split
    · rename_i hperm
      have hz : s.zone.zstate = .inbound := by simp [infeedPermit] at hperm; exact hperm.2
      cases hzz : s.zone
      simp_all
    · rfl

/-- Outside CHECK there is no permit. -/
theorem infeedPermit_of_role (h : hasRole s .check = false) : infeedPermit s = false := by simp [infeedPermit, h]

/-- The slot's part of the end of an event: nothing, the OFFER accepted, or the OFFER refused. -/
theorem slotStep_table_cases (m : State) : (slotStep m).table = m.table ∨
    ∃ r, m.slot = some r ∧ (slotStep m).table = m.table ++ [acceptedEntry m r] := by
  obtain ⟨r, hr, -, -, -, h⟩ | ⟨r, -, -, -, -, h⟩ | h := slotStep_cases m
  · exact .inr ⟨r, hr, by rw [h, acceptOffer_table]⟩
  · exact .inl (by rw [h]; simp)
  · exact .inl (by rw [h])

theorem slotStep_of_none (h : m.slot = none) : slotStep m = m := slotStep_of fun hs => by simp [h] at hs

/-- The slot's OFFER taken up (R15). -/
theorem slotStep_accept {r : TravelRecord} (hc : hasRole m .check = false) (ha : accepting m = true)
    (hr : m.slot = some r) (hk : entryOf m r.track = none) : slotStep m = acceptOffer r m := by
  simp [slotStep, hr, hc, ha, hk]

theorem slotStep_refuse {r : TravelRecord} (hc : hasRole m .check = false) (ha : accepting m = true)
    (hr : m.slot = some r) (hk : (entryOf m r.track).isSome = true) :
    slotStep m = notify (.duplicateTrack r.track) (m.setSlot none) := by
  simp [slotStep, hr, hc, ha, hk]

/-- The table only grows at its tail. -/
theorem isPrefixOf_slotStep (m : State) : m.table.isPrefixOf (slotStep m).table = true := by
  rw [List.isPrefixOf_iff_prefix]
  obtain h | ⟨r, -, h⟩ := slotStep_table_cases m
  · rw [h]
  · rw [h]
    exact List.prefix_append _ _

theorem slotStep_length_le (m : State) : (slotStep m).table.length ≤ m.table.length + 1 := by
  obtain h | ⟨r, -, h⟩ := slotStep_table_cases m <;> simp [h]

theorem mem_slotStep {y : Entry} (h : y ∈ (slotStep m).table) : y ∈ m.table ∨ y.state = .expected := by
  obtain hT | ⟨r, -, hT⟩ := slotStep_table_cases m
  · exact .inl (by rwa [hT] at h)
  · rw [hT] at h
    obtain h | h := List.mem_append.1 h
    · exact .inl h
    · obtain rfl := List.mem_singleton.1 h
      exact .inr rfl

/-! ## Frames that stay queued -/

/-- A frame queued stays so when another takes a free place. -/
theorem queued_queueFrame {f g : TxFrame} (hg : offerTrack g = none) (hroom : s.line.tx.length < 8)
    (h : queued f s = true) : queued f (queueFrame g s) = true := by
  rw [queued_iff] at h ⊢
  obtain ⟨e, he, hf⟩ := h
  refine ⟨e, ?_, hf⟩
  rw [queueFrame_line]
  split
  · rw [pushFrame_room hg hroom]
    simp [he]
  · exact he

/-- A frame that takes a free place stands in the queue. -/
theorem queued_self {f : TxFrame} (hin : inService s = true) (hf : offerTrack f = none) (hroom : s.line.tx.length < 8) :
    queued f (queueFrame f s) = true := by
  rw [queued_iff, queueFrame_line, if_pos (mayQueue_of_inService hin f), pushFrame_room hf hroom]
  exact ⟨freshTx f, by simp, rfl⟩

/-- A withdrawal leaves the frames it does not pick. -/
theorem queued_withdrawFrames {f : TxFrame} {p : TxFrame → Bool} (hp : p f = false) (h : queued f s = true) :
    queued f (withdrawFrames p s) = true := by
  rw [queued_iff] at h ⊢
  obtain ⟨e, he, hf⟩ := h
  exact ⟨e, List.mem_filterMap.2 ⟨e, he, by simp [withdrawEntry, hf, hp]⟩, hf⟩

theorem stopOffering_length_le (m : State) : (stopOffering m).line.tx.length ≤ m.line.tx.length := by
  obtain ⟨-, -, h⟩ | ⟨-, h⟩ := stopOffering_cases m
  · rw [h]
    exact withdrawFrames_length_le _ _
  · rw [h]

theorem queued_stopOffering {f : TxFrame} (hf : offerTrack f = none) (h : queued f m = true) :
    queued f (stopOffering m) = true := by
  obtain ⟨-, -, hs⟩ | ⟨-, hs⟩ := stopOffering_cases m
  · rw [hs]
    exact queued_withdrawFrames (s := m.setZone _) (by simp [hf]) h
  · rwa [hs]

theorem queued_slotStep {f : TxFrame} (hroom : m.line.tx.length < 8) (h : queued f m = true) :
    queued f (slotStep m) = true := by
  obtain ⟨r, -, -, -, -, hs⟩ | ⟨r, -, -, -, -, hs⟩ | hs := slotStep_cases m
  · rw [hs]
    exact queued_queueFrame (s := setZoneState .inbound ((addEntry (acceptedEntry m r) m).setSlot none)) rfl hroom h
  · rw [hs]
    exact queued_queueFrame (s := m.setSlot none) rfl hroom h
  · rwa [hs]

/-- The permit and the slot keep what is queued, if there is room for the answer to the OFFER. -/
theorem queued_endOfEvent {f : TxFrame} (hroom : m.line.tx.length < 8) (h : queued f m = true) :
    queued f (slotStep (permitStep m)) = true := by
  refine queued_slotStep (by simpa using hroom) ?_
  rwa [queued_congr (s := m) (by simp)]

/-! ## What stays the same -/

/-- A state whose other fields are untouched before the end of the event has them untouched after it. -/
theorem onlyChanges_settle {bs : List Block} (h : onlyChanges bs s m) : onlyChanges (bs ++ settleBlocks) s (settle b m) := by
  intro k
  obtain hk | hk := h k
  · exact .inl (List.mem_append_left _ hk)
  · cases k <;> simp_all [settleBlocks, Block.same]

/-- The permit and the slot touch line, table, slot and zone alone. -/
theorem onlyChanges_endOfEvent (m : State) : onlyChanges [.line, .table, .slot, .zone] m (slotStep (permitStep m)) := by
  intro k
  cases k <;> simp [Block.same]

theorem onlyChanges.trans {bs cs ds : List Block} (h : onlyChanges bs s m) (k : onlyChanges cs m t)
    (hb : ∀ x ∈ bs, x ∈ ds) (hc : ∀ x ∈ cs, x ∈ ds) : onlyChanges ds s t := by
  intro x
  obtain hx | hx := h x
  · exact .inl (hb x hx)
  · obtain kx | kx := k x
    · exact .inl (hc x kx)
    · refine .inr ?_
      cases x <;> simp only [Block.same] at hx kx ⊢ <;> exact kx.trans hx

theorem hopsAfter_eq (h : Nat) : hopsAfter h = if h < 15 then h + 1 else 15 := by
  unfold hopsAfter
  split <;> omega

end

end Sys2Proof.Machine
end

