-- ==== Proofs/Handoff.lean ====
section
/-! PROOF. The handoff between stations: OFFER (O17, O18), TAKEN and LOST (O21), and the timers that watch over it (O30). -/

namespace Sys2Proof.Machine

section
variable {b s m t : State}

/-! ## OFFER -/

/-- What the route waits for is a matter of the table's DONE record and of fields that no OFFER touches. -/
theorem RouteFollows.of_zone (h : RouteFollows s) (hz : m.zone.zstate ≠ .stopped) (hroute : m.route = s.route)
    (hx : chooseExit m.pins = chooseExit s.pins)
    (hd : (zoneEntryIn s .done).isSome = true → (zoneEntryIn m .done).isSome = true) : RouteFollows m := by
  refine ⟨fun hn => by simp [delivering_false_of_zone hz] at hn, fun hw => ?_⟩
  have hl := h.2 (by simpa [laneWaitOn, hroute] using hw)
  simp only [lacksExit, hroute, hx, Bool.and_eq_true] at hl ⊢
  exact ⟨hd hl.1, hl.2⟩

/-- An accepted OFFER leaves nothing to settle. -/
theorem settle_acceptOffer {r : TravelRecord} (hc : hasRole m .check = false) (ha : accepting m = true)
    (ho : m.zone.offerTimer = none) (hr : RouteFollows m) : settle b (acceptOffer r m) = acceptOffer r m := by
  have hin := (accepting_iff.1 ha).1
  have hrole : hasRole (acceptOffer r m) .check = false := by rw [hasRole_congr (s := m) (by simp), hc]
  have hnoff : offering (acceptOffer r m) = false := offering_false_of_zone (by simp)
  rw [settle_of_offeringFollows (by rw [active_congr (s := m) (by simp), active_of_inService hin])
      (by simp [OfferingFollows, hnoff, ho]) (fun _ => hr.of_zone (by simp) (by simp) (by simp) fun hd => ?_)
      (fun hw => by simp [works, hrole] at hw),
    permitStep_of_role hrole, slotStep_of_none (by simp)]
  rw [zoneEntryIn, acceptOffer_table, List.find?_append]
  rw [zoneEntryIn] at hd
  simp [hd]

/-- What an accepted OFFER makes of the state, where the queue has room (R10). -/
theorem acceptOffer_eq {r : TravelRecord} (hin : inService m = true) (hroom : m.line.tx.length < 8) :
    acceptOffer r m = (((m.setTable (m.table ++ [acceptedEntry m r])).setSlot none).setZone
      { m.zone with zstate := .inbound }).setLine { m.line with
        tx := insertTx (freshTx (.accept (upstream m) r.track)) m.line.tx } := by
  rw [acceptOffer, queueFrame_room (s := setZoneState .inbound ((addEntry (acceptedEntry m r) m).setSlot none)) hin rfl
    hroom]
  rfl

/-- Nothing waits after the head of the receive queue is dropped, and a frame queued, if nothing waited before. -/
theorem Settled.answered (h : Settled s) {f : TxFrame} : Settled (queueFrame f (dropHead s)) := by
  have hsame : SameCore s (queueFrame f (dropHead s)) := by constructor <;> simp [dropHead]
  exact hsame.settled (by simp [dropHead]) h

theorem dropHead_eq {f : RxFrame} {rest : List RxFrame} (h : s.line.rx = f :: rest) :
    dropHead s = s.setLine { s.line with rx := rest } := by simp [dropHead, h]

theorem settle_same (h : Settled m) (hp : platformEmpty b = platformEmpty m) : settle b m = m :=
  settle_of_settled h fun _ => hp

/-- Settles O18: the answer depends on the state of the entry and the hold set alone, and leaves nothing to settle. -/
theorem repeatedOfferIsAnsweredByItsEntry : Obligations.RepeatedOfferIsAnsweredByItsEntry := by
  intro s r rest e hset hin hrx he hroom
  have hlen : (dropHead s).line.tx.length < 8 := by
    have := tx_of_roomFor hroom
    simp only [dropHead, State.setLine_line]
    omega
  have hin' : inService (dropHead s) = true := hin
  have he' : entryOf (dropHead s) r.track = some e := he
  have hd := dropHead_eq hrx
  have hexec : exec .offerReceived s = .next (settle s (takeOffer r (dropHead s))) := by
    simp [exec, execOfferReceived, hrx, hin]
  have hquiet : ∀ l, SameCore s (s.setLine l) := fun l => ⟨rfl, rfl, rfl, rfl, rfl, rfl, rfl, rfl, rfl, rfl, rfl⟩
  have answer : ∀ f, offerTrack f = none → takeOffer r (dropHead s) = queueFrame f (dropHead s) →
      exec .offerReceived s = .next (s.setLine { s.line with rx := rest, tx := insertTx (freshTx f) s.line.tx }) := by
    intro f hf ht
    rw [hexec, ht, settle_same hset.answered (SameCore.platformEmpty (by constructor <;> simp [dropHead])).symm,
      queueFrame_room hin' hf hlen, hd]
    rfl
  have onlyLine : ∀ l, onlyChanges [.line] s (s.setLine l) := fun l k => by cases k <;> simp [Block.same]
  by_cases hx : e.state = .expected
  · by_cases hh : s.zone.holds = []
    · refine ⟨_, answer (.accept (upstream s) r.track) rfl ?_, onlyLine _, by simp [hx, hh]⟩
      have hh' : holdsEmpty (dropHead s) = true := by simp [holdsEmpty, dropHead, hh]
      simp only [takeOffer, he', if_pos hx, hh', if_true]
      rfl
    · have hh' : holdsEmpty (dropHead s) = false := by simp [holdsEmpty, dropHead, hh]
      have ht : takeOffer r (dropHead s) = dropHead s := by simp [takeOffer, he', hx, hh']
      have hsame := hquiet { s.line with rx := rest }
      refine ⟨s.setLine { s.line with rx := rest }, ?_, onlyLine _, by simp [hx, hh]⟩
      rw [hexec, ht, hd]
      exact congrArg _ (settle_same (hsame.settled rfl hset) hsame.platformEmpty.symm)
  · refine ⟨_, answer (.notice (.duplicateTrack r.track)) rfl ?_, onlyLine _, by simp [hx]⟩
    simp only [takeOffer, he', if_neg hx]
    rfl

/-- The slot's OFFER is what an event that completes the accepting conditions takes up (R15). -/
theorem settle_slot (ha : accepting m = true) (hc : hasRole m .check = false) (ho : m.zone.offerTimer = none)
    (hr : RouteFollows m) : settle b m = slotStep m := by
  rw [settle_of_offeringFollows (active_of_inService (accepting_iff.1 ha).1)
    (by simp [OfferingFollows, not_offering_of_accepting ha, ho]) (fun _ => hr) (fun hw => by simp [works, hc] at hw),
    permitStep_of_role hc]

/-- Of OUTBOUND entries TAKEN removes the one it names (R17). -/
theorem heardTaken_of_outbound {k : Track} (hd : hasRole s .dispatch = false) (h : ∀ e ∈ s.table, e.state = .outbound) :
    heardTaken k s = s.setTable (s.table.filter (fun e => e.record.track != k)) := by
  have hf : s.table.filter (fun e => !(e.state = .outbound && e.record.track = k)) =
      s.table.filter (fun e => e.record.track != k) := by
    refine List.filter_congr fun e he => ?_
    rw [h e he]
    by_cases hk : e.record.track = k <;> simp [hk]
  have hmap : (s.table.filter (fun e => e.record.track != k)).map (fun e =>
      if e.state = .releasing && e.record.track = k then { e with takenHeard := true } else e) =
      s.table.filter (fun e => e.record.track != k) := by
    refine (List.map_congr_left fun e he => ?_).trans (List.map_id _)
    simp [h e (List.mem_filter.1 he).1]
  simp only [heardTaken, hd, Bool.false_eq_true, if_false, dropOutbound, hf, State.setTable_table, hmap]
  rfl

/-- The entry that an accepted OFFER becomes, in the spec's figures (R5, R34). -/
theorem acceptedEntry_eq {r : TravelRecord} (hc : m.cfg = s.cfg) : acceptedEntry m r =
    { record := { r with hops := if r.hops < 15 then r.hops + 1 else 15 }, state := .expected, takenHeard := false,
      timer := some (s.cfg.timing.release + s.cfg.timing.transit) } := by
  simp [acceptedEntry, hopsAfter_eq, hc]

/-- What becomes of the slot's OFFER in the event that completes the accepting conditions (R15, R16). -/
theorem settle_takes_slot {r : TravelRecord} (hc : hasRole s .check = false) (ha : accepting m = true)
    (hcfg : m.cfg = s.cfg) (hslot : m.slot = some r) (htx : m.line.tx = s.line.tx) (hlen : s.line.tx.length < 8)
    (ho : m.zone.offerTimer = none) (hr : RouteFollows m) :
    (entryOf m r.track = none → settle b m = (((m.setTable (m.table ++
        [{ record := { r with hops := if r.hops < 15 then r.hops + 1 else 15 }, state := .expected, takenHeard := false
           timer := some (s.cfg.timing.release + s.cfg.timing.transit) }])).setSlot none).setZone
        { m.zone with zstate := .inbound }).setLine { m.line with
          tx := insertTx (freshTx (.accept (upstream s) r.track)) s.line.tx }) ∧
    ((entryOf m r.track).isSome = true → settle b m = (m.setSlot none).setLine { m.line with
      tx := insertTx (freshTx (.notice (.duplicateTrack r.track))) s.line.tx }) := by
  have hcm : hasRole m .check = false := by rw [hasRole_congr hcfg, hc]
  have hin := (accepting_iff.1 ha).1
  have hup : upstream m = upstream s := by simp [upstream, hcfg]
  refine ⟨fun hk => ?_, fun hk => ?_⟩
  · rw [settle_slot ha hcm ho hr, slotStep_accept hcm ha hslot hk, acceptOffer_eq hin (by rw [htx]; exact hlen),
      acceptedEntry_eq hcfg, hup, htx]
  · rw [settle_slot ha hcm ho hr, slotStep_refuse hcm ha hslot hk, notify,
      queueFrame_room (s := m.setSlot none) hin rfl (by rw [State.setSlot_line, htx]; exact hlen), ← htx]
    rfl

/-- Settles O17: where the station accepts, nothing else waits, so that `settle` takes the OFFER up and does no more. -/
theorem newOfferIsAcceptedOrKept : Obligations.NewOfferIsAcceptedOrKept := by
  intro s r rest c m n k hset hin hc hroom
  have hlen : s.line.tx.length < 8 := by
    have := tx_of_roomFor hroom
    omega
  obtain ⟨ho, hacc, hroute, hperm⟩ := hset
  have htimer : s.zone.zstate = .empty → s.zone.offerTimer = none := fun hz => offerTimer_of_zone ho (by simp [hz])
  refine ⟨fun hrx hk => ?_, fun hslot hm ha => ?_⟩
  · have hd := dropHead_eq hrx
    have hexec : exec .offerReceived s = .next (settle s (takeOffer r (dropHead s))) := by
      simp [exec, execOfferReceived, hrx, hin]
    have hk' : entryOf (dropHead s) r.track = none := hk
    have hc' : hasRole (dropHead s) .check = false := hc
    have ht : takeOffer r (dropHead s) =
        if accepting (dropHead s) then acceptOffer r (dropHead s) else (dropHead s).setSlot (some r) := by
      simp [takeOffer, hk', hc']
    have haccd : accepting (dropHead s) = accepting s := rfl
    refine ⟨fun ha => ?_, fun ha => ?_⟩
    · have hz := accepting_zone ha
      rw [hexec, ht, haccd, if_pos ha, settle_acceptOffer hc' ha (htimer hz) hroute, acceptOffer_eq (m := dropHead s) hin
        hlen, acceptedEntry_eq (m := dropHead s) (s := s) rfl, hd]
      refine ⟨_, rfl, fun x => by cases x <;> simp [Block.same], rfl, rfl, rfl, rfl⟩
    · rw [hexec, ht, haccd, if_neg (by simp [ha]), hd]
      refine congrArg _ (settle_of_settled ?_ fun _ => rfl)
      exact ⟨ho, fun _ => ha, hroute, hperm⟩
  · have hz : m.zone.zstate = .empty := accepting_zone ha
    have hkeep : ∀ p : Pins, chooseExit p = chooseExit s.pins → s.zone.zstate = .empty →
        RouteFollows (s.setPins p) := fun p hp hzs => hroute.of_zone (by simp [hzs]) rfl hp id
    have facts : exec c s = .next (settle s m) ∧ m.cfg = s.cfg ∧ m.slot = some r ∧ m.line.tx = s.line.tx ∧
        m.zone.offerTimer = none ∧ RouteFollows m := by
      obtain ⟨rfl, rfl⟩ | ⟨rfl, rfl⟩ | ⟨rfl, hzs, rfl⟩ | ⟨rfl, hrx, rfl⟩ | ⟨rfl, hrx, hd, hall, rfl⟩ := hm
      · exact ⟨rfl, rfl, hslot, rfl, htimer hz, hkeep _ (chooseExit_congr rfl rfl rfl rfl rfl) hz⟩
      · exact ⟨rfl, rfl, hslot, rfl, htimer hz, hkeep _ (chooseExit_congr rfl rfl rfl rfl rfl) hz⟩
      · refine ⟨?_, rfl, hslot, rfl, htimer hz, hkeep _ (chooseExit_congr rfl rfl rfl rfl rfl) hz⟩
        simp [exec, execExitEyeClears, hzs]
      · refine ⟨?_, rfl, hslot, rfl, htimer hz, hroute.of_zone (by rw [hz]; decide) rfl rfl id⟩
        simp [exec, execResumeReceived, hrx, hin, dropHead, removeHold, setHolds]
      · refine ⟨?_, rfl, hslot, rfl, htimer hz, hroute.of_zone (by rw [hz]; decide) rfl rfl fun hdone => ?_⟩
        · have hexec : exec .takenReceived s = .next (settle s (heardTaken k (dropHead s))) := by
            simp [exec, execTakenReceived, hrx, hin]
          rw [hexec, heardTaken_of_outbound (s := dropHead s) hd hall, dropHead_eq hrx]
          rfl
        · obtain ⟨e, he, hst⟩ : ∃ e ∈ s.table, e.state = .done := by simpa [zoneEntryIn] using hdone
          simp [hall e he] at hst
    obtain ⟨hexec, hcfg, hms, htx, hmt, hmr⟩ := facts
    obtain ⟨h1, h2⟩ := settle_takes_slot (b := s) hc ha hcfg hms htx hlen hmt hmr
    rw [hexec]
    exact ⟨fun hk => congrArg _ (h1 hk), fun hk => congrArg _ (h2 hk)⟩

/-! ## TAKEN and LOST -/

/-- Every entry that stays has the state and the record it had. -/
def Stays (T T' : List Entry) : Prop := ∀ e' ∈ T', ∃ e ∈ T, e'.state = e.state ∧ e'.record = e.record

/-- Where entries only leave, behind the OUTBOUND ones, the station offers as before. -/
theorem Evolves.offering_of_stays (h : Evolves s m) (hs : StationSound s) (hserv : m.service = s.service)
    (hholds : m.zone.holds = s.zone.holds) (hst : Stays s.table m.table) : offering m = offering s := by
  have hhead : headDone m = headDone s := by
    have hk := h.head hs
    unfold headDone
    cases hs' : headEntry s with
    | none =>
      have : headEntry m = none := by simpa [hs'] using hk
      simp [this]
    | some e =>
      obtain ⟨e', he', hke⟩ : ∃ e', headEntry m = some e' ∧ e'.record.track = e.record.track := by
        simpa [hs'] using hk
      obtain ⟨x, hx, hxs, hxr⟩ := hst e' (List.mem_of_find?_eq_some he')
      obtain rfl := eq_of_track hs.tracks.2 hx (List.mem_of_find?_eq_some hs') (by rw [← hxr, hke])
      simp [he', hxs]
  simp [offering, hhead, inService_congr hserv, hasRole_congr h.cfg, holdsEmpty_congr hholds, h.zstate]

/-- In a sound station the platform's record is a matter of the zone state. -/
theorem StationSound.platformEmpty (h : StationSound s) :
    platformEmpty s = ((s.zone.zstate = .empty || s.zone.zstate = .inbound) && eyesClear s.pins) := by
  by_cases hz : s.zone.zstate = .empty ∨ s.zone.zstate = .inbound
  · simp [Machine.platformEmpty, h.zoneEntry_of_vacant hz]
  · rw [not_or] at hz
    simp [Machine.platformEmpty, hz.1, hz.2]

/-- What is left to evaluate where a table's OUTBOUND entries leave and nothing waited before: the permit and the slot. -/
theorem settle_of_stays (hs : StationSound s) (hset : Settled s) (ha : active s = true) (h : Worked s m)
    (hpins : m.pins = s.pins) (hst : Stays s.table m.table) : settle s m = slotStep (permitStep m) := by
  have he := Evolves.of_worked h
  have hoff := he.offering_of_stays hs h.service (by rw [h.zone]) hst
  refine settle_of_offeringFollows (by rw [he.active, ha]) (by rw [OfferingFollows, hoff, h.zone]; exact hset.1)
    (fun hd => ?_) (fun _ => ?_)
  · have hd' : hasRole s .dispatch = true := by rwa [hasRole_congr h.cfg] at hd
    have hdone := he.done hs hd'
    have hl : lacksExit m = lacksExit s := by simp [lacksExit, hdone, h.route, hpins]
    have hdel : delivering m = delivering s := by
      simp [delivering, hdone, hasRole_congr h.cfg, inService_congr h.service, h.zone,
        holdsEmpty_congr (show m.zone.holds = s.zone.holds by rw [h.zone])]
    simpa [RouteFollows, hl, hdel, laneWaitOn, h.route] using hset.2.2.1
  · rw [hs.platformEmpty, (he.stationSound hs).platformEmpty, h.zone, hpins]

/-- The permit holds of a state that differs from a settled one in its table and its line alone. -/
theorem PermitSound.of_worked (h : PermitSound s) (k : Worked s m) (hw : m.weigh = s.weigh) : PermitSound m := by
  simpa [PermitSound, works_congr k.service k.cfg, k.zone, hw, holdsEmpty, zeroOverdue] using h

theorem Stays.of_sublist {T T' : List Entry} (h : T'.Sublist T) : Stays T T' :=
  fun e he => ⟨e, h.subset he, rfl, rfl⟩

/-- What O21 and O30 say of an event in which OUTBOUND entries leave the table. -/
theorem endOfEvent_of_stays {kept : List Entry} (hin : inService s = true) (hp : PermitSound s) (h : Worked s m)
    (hw : m.weigh = s.weigh) (hT : m.table = kept) :
    kept.isPrefixOf (slotStep (permitStep m)).table = true ∧
    (slotStep (permitStep m)).table.length ≤ kept.length + 1 ∧
    (s.slot = none → (slotStep (permitStep m)).table = kept ∧ (slotStep (permitStep m)).slot = none ∧
      (slotStep (permitStep m)).line = m.line ∧
      (slotStep (permitStep m)).zone =
        if infeedPermit (slotStep (permitStep m)) then { s.zone with zstate := .inbound } else s.zone) := by
  have hT' : (permitStep m).table = kept := by simp [hT]
  refine ⟨hT' ▸ isPrefixOf_slotStep _, hT' ▸ slotStep_length_le _, fun hslot => ?_⟩
  have hslot' : (permitStep m).slot = none := by simp [h.slot, hslot]
  rw [slotStep_of_none hslot', permitStep_zone (by rw [inService_congr h.service, hin]) (hp.of_worked h hw), h.zone]
  exact ⟨hT', hslot', by simp, rfl⟩

/-- Settles O21: neither frame changes what the conditions read but the table's length. -/
theorem takenAndLostEndAnOutboundEntry : Obligations.TakenAndLostEndAnOutboundEntry := by
  intro s k rest kept hs hset hin hd
  have ha := active_of_inService hin
  have goes : ∀ (c : Instr) (m : State), exec c s = .next (settle s m) → Worked s m → m.pins = s.pins → m.weigh = s.weigh →
      Stays s.table m.table → onlyChanges [.line, .table] s m → m.table = kept → kept.length ≤ s.table.length →
      m.line = { s.line with rx := rest } →
      ∃ t, exec c s = .next t ∧ onlyChanges [.line, .table, .slot, .zone] s t ∧
        kept.isPrefixOf t.table = true ∧ t.table.length ≤ s.table.length + 1 ∧
        (s.slot = none → t.table = kept ∧ t.slot = none ∧ t.line = { s.line with rx := rest } ∧
          t.zone = if infeedPermit t then { s.zone with zstate := .inbound } else s.zone) := by
    intro c m hexec hwork hpins hweigh hst honly hT hlen hline
    obtain ⟨hpre, hle, hnone⟩ := endOfEvent_of_stays hin hset.2.2.2 hwork hweigh hT
    refine ⟨_, by rw [hexec, settle_of_stays hs hset ha hwork hpins hst], ?_, hpre, by omega, fun hslot => ?_⟩
    · exact honly.trans (onlyChanges_endOfEvent m) (by simp) (by simp)
    · obtain ⟨h1, h2, h3, h4⟩ := hnone hslot
      exact ⟨h1, h2, h3.trans hline, h4⟩
  have hfilter := List.filter_sublist (l := s.table) (p := fun e => !(e.state = .outbound && e.record.track = k))
  refine ⟨fun hrx hkept => ?_, fun hrx hkept => ?_⟩
  · have hT : (heardTaken k (dropHead s)).table = kept := by
      have hd' : hasRole (dropHead s) .dispatch = false := hd
      rw [heardTaken, if_neg (by simp [hd']), hkept]
      simp [dropOutbound, dropHead]
    have hwork := (Worked.dropHead s).trans (worked_heardTaken k _)
    refine goes .takenReceived (heardTaken k (dropHead s)) (by simp [exec, execTakenReceived, hrx, hin]) hwork ?_ ?_ ?_ ?_
      hT ?_ ?_
    · simp [heardTaken, dropHead, apply_ite State.pins, dropOutbound]
    · simp [heardTaken, dropHead, apply_ite State.weigh, dropOutbound]
    · rw [hT, hkept]
      intro e' he'
      obtain ⟨e, he, rfl⟩ := List.mem_map.1 he'
      refine ⟨e, hfilter.subset he, ?_⟩
      split <;> simp
    · intro x
      unfold heardTaken
      split <;> cases x <;> simp [Block.same, dropHead, dropOutbound]
    · rw [hkept, List.length_map]
      exact hfilter.length_le
    · unfold heardTaken
      split <;> simp [dropHead, dropOutbound, hrx]
  · refine goes .lostReceived (dropOutbound k (dropHead s)) (by simp [exec, execLostReceived, hrx, hin])
      ((Worked.dropHead s).trans (worked_dropOutbound k _)) rfl rfl (.of_sublist hfilter) ?_ hkept.symm ?_ ?_
    · intro x
      cases x <;> simp [Block.same, dropHead, dropOutbound]
    · rw [hkept]
      exact hfilter.length_le
    · simp [dropHead, dropOutbound, hrx]

/-! ## The timers of the handoff -/

/-- An EXPECTED entry of a sound station is the one that its arrival timer watches. -/
theorem StationSound.expectedEntry_of_mem {e : Entry} (h : StationSound s) (he : e ∈ s.table) (hx : e.state = .expected) :
    expectedEntry s = some e := by
  cases hf : expectedEntry s with
  | none => simpa [hx] using List.find?_eq_none.1 hf e he
  | some x =>
    obtain ⟨outs, hT, ho, -⟩ := h.shape_expected hf
    rw [hT] at he
    obtain he | he := List.mem_append.1 he
    · simp [ho e he] at hx
    · rw [List.mem_singleton.1 he]

/-- The entry of a track is found by it. -/
theorem StationSound.entryOf_of_mem {e : Entry} (h : StationSound s) (he : e ∈ s.table) :
    entryOf s e.record.track = some e := by
  cases hf : entryOf s e.record.track with
  | none => exact absurd rfl (entryOf_eq_none.1 hf e he)
  | some x =>
    obtain ⟨hx, hk⟩ := entryOf_eq_some hf
    rw [eq_of_track h.tracks.2 hx he hk]

/-- The frames that report a lost pallet, where the queue has room for them (R18). -/
theorem loseExpected_queued {e : Entry} (hin : inService s = true) (hroom : s.line.tx.length < 7) :
    queued (.lost (upstream s) e.record.track) (loseExpected e s) = true ∧
      queued (.notice (.palletLost e.record.track)) (loseExpected e s) = true ∧
      (loseExpected e s).line.tx.length ≤ s.line.tx.length + 2 := by
  set u := setZoneState .empty (removeTrack e.record.track s) with hu
  set v := queueFrame (.lost (upstream s) e.record.track) u with hv
  have hl : loseExpected e s = notify (.palletLost e.record.track) v := rfl
  have hinv : inService v = true := by rw [inService_congr (s := s) (by simp [hv, hu]), hin]
  have hlen : v.line.tx.length ≤ s.line.tx.length + 1 := queueFrame_length_le _ u
  rw [hl]
  refine ⟨queued_queueFrame rfl (by omega) ?_, queued_self hinv rfl (by omega),
    (queueFrame_length_le _ v).trans (by omega)⟩
  exact queued_self (s := u) hin rfl (by simp [hu]; omega)

/-- The arrival timer's expiry (R18). -/
theorem arrivalTimer_expires {e : Entry} (hs : StationSound s) (hset : Settled s) (hin : inService s = true)
    (he : expectedEntry s = some e) (ht : e.timer.isSome = true) (hf : arrivalFrozen s = false) :
    exec .arrivalTimerExpiry s = .next (slotStep (loseExpected e s)) := by
  have ha := active_of_inService hin
  obtain ⟨outs, hT, ho, hx, hz, hc⟩ := hs.shape_expected he
  have hready := ready_loseExpected hs ha he
  have hdone : zoneEntryIn s .done = none := by
    rw [zoneEntryIn_of_table hT ho (by decide)]
    simp [hx]
  have hoff : offering (loseExpected e s) = false := offering_false_of_zone (by simp [loseExpected_zone])
  have hexec : exec .arrivalTimerExpiry s = .next (settle s (loseExpected e s)) := by
    simp [exec, execArrivalTimerExpiry, he, ha, ht, hf]
  have hcm : hasRole (loseExpected e s) .check = false := by rw [hasRole_congr (s := s) (by simp [loseExpected]), hc]
  rw [hexec, settle_of_offeringFollows hready.active, permitStep_of_role hcm]
  · rw [OfferingFollows, hoff, loseExpected_zone, offerTimer_of_zone hset.1 (by simp [hz])]
    rfl
  · refine fun _ => ⟨fun hd => ?_, fun hw => ?_⟩
    · simp [delivering_false_of_zone (s := loseExpected e s) (by simp [loseExpected_zone])] at hd
    · have := hset.2.2.1.2 (by simpa [laneWaitOn, loseExpected] using hw)
      simp [lacksExit, hdone] at this
  · exact fun hw => by simp [works, hcm] at hw

/-- An OFFER in the slot of another track does not bring back the one that left. -/
theorem entryOf_slotStep {k : Track} (hm : ∀ x ∈ m.table, x.record.track ≠ k) (hk : ∀ r ∈ m.slot, r.track ≠ k) :
    entryOf (slotStep m) k = none := by
  refine entryOf_eq_none.2 fun x hx => ?_
  obtain hT | ⟨r, hr, hT⟩ := slotStep_table_cases m
  · exact hm x (by rwa [hT] at hx)
  · rw [hT] at hx
    obtain hx | hx := List.mem_append.1 hx
    · exact hm x hx
    · rw [List.mem_singleton.1 hx]
      exact hk r hr

/-- The taken timer's expiry (R17). -/
theorem takenTimer_expires {e : Entry} (hs : StationSound s) (hset : Settled s) (hin : inService s = true)
    (he : e ∈ s.table) (ho : e.state = .outbound) (ht : e.timer.isSome = true) (hf : releaseFrozen s = false) :
    exec (.takenTimerExpiry e.record.track) s =
      .next (slotStep (permitStep (notify (.takenMissing e.record.track) (removeTrack e.record.track s)))) := by
  have ha := active_of_inService hin
  have hfind := hs.entryOf_of_mem he
  have hexec : exec (.takenTimerExpiry e.record.track) s =
      .next (settle s (notify (.takenMissing e.record.track) (removeTrack e.record.track s))) := by
    simp [exec, execTakenTimerExpiry, hfind, ha, ho, ht, hf]
  rw [hexec, settle_of_stays hs hset ha ((worked_removeTrack hs.tracks hfind ho).trans (Worked.notify _ _)) (by simp)]
  exact .of_sublist (by simp [removeTrack])

/-- The OFFER that is sent again takes the place of the one queued, or a free one (R33, R60). -/
theorem offerRepeat_expires {e : Entry} (hset : Settled s) (he : headEntry s = some e) (ho : offering s = true) :
    exec .offerRepeatExpiry s = .next (queueFrame (.offer (downstream s) e.record)
      (s.setZone { s.zone with offerTimer := some s.cfg.timing.offerRepeat })) := by
  have hnow : offerNow s = queueFrame (.offer (downstream s) e.record)
      (s.setZone { s.zone with offerTimer := some s.cfg.timing.offerRepeat }) := by simp [offerNow, he]
  have hsame := sameCore_offerNow s
  have hset' : Settled (offerNow s) := by
    obtain ⟨h1, h2, h3, h4⟩ := hset
    refine ⟨?_, hsame.acceptingFollows h2, hsame.routeFollows h3, hsame.permitSound h4⟩
    rw [OfferingFollows, hsame.offering, ho, hnow]
    simp
  have hexec : exec .offerRepeatExpiry s = .next (settle s (offerNow s)) := by
    have ht : s.zone.offerTimer.isSome = true := by rw [hset.1, ho]
    simp [exec, execOfferRepeatExpiry, ht, ho]
  rw [hexec, settle_same hset' hsame.platformEmpty.symm, hnow]

/-- An OFFER for which there is room overruns nothing. -/
theorem pushFrame_txOverrun {f : TxFrame} {l : LineCtl} (h : l.tx.length < 8) :
    (pushFrame f l).txOverrun = l.txOverrun := by
  obtain ⟨-, hp⟩ | ⟨-, -, hp⟩ | ⟨-, hge, -, -⟩ | ⟨-, hge, -, -⟩ := pushFrame_cases f l
  · rw [hp]
  · rw [hp]
  · exact absurd h (Nat.not_lt.2 hge)
  · exact absurd h (Nat.not_lt.2 hge)

theorem queueFrame_txOverrun {f : TxFrame} (h : s.line.tx.length < 8) :
    (queueFrame f s).line.txOverrun = s.line.txOverrun := by
  rw [queueFrame_line]
  split
  · exact pushFrame_txOverrun h
  · rfl

/-- Settles O30: each expiry removes its entry or queues its OFFER, and leaves the permit and the slot to evaluate. -/
theorem handoffTimersExpire : Obligations.HandoffTimersExpire := by
  intro s e hs hset hin he
  have ha := active_of_inService hin
  refine ⟨fun hx ht => ⟨fun hf => ?_, fun hf => ?_⟩, fun hx ht => ⟨fun hf => ?_, fun hf => ?_⟩, fun hx hhead ho => ?_,
    fun ho => ?_⟩
  · simp [exec, execArrivalTimerExpiry, hs.expectedEntry_of_mem he hx, hf]
  · have hexp := hs.expectedEntry_of_mem he hx
    obtain ⟨outs, hT, hout, -, hz, hc⟩ := hs.shape_expected hexp
    have hlost : (loseExpected e s).table = outs := by rw [loseExpected_table, removeTrack_tail hs.tracks hT]
    have hkept : s.table.filter (fun x => x.state != .expected) = outs := by
      rw [hT, filter_behind hout fun x hx => by simp [hx]]
      simp [hx]
    refine ⟨_, arrivalTimer_expires hs hset hin hexp ht hf, ?_, ?_, fun hslot => ?_, fun r hr hk => ?_, fun hroom => ?_⟩
    · intro x
      cases x <;> simp [settleBlocks, Block.same, loseExpected]
    · rw [hkept, ← hlost]
      exact isPrefixOf_slotStep _
    · rw [slotStep_of_none (by simp [loseExpected, hslot]), hkept, loseExpected_zone]
      refine ⟨hlost, rfl, ?_⟩
      simp [drive, loseExpected_zone]
    · refine entryOf_slotStep (fun x hx => ?_) fun q hq => ?_
      · rw [loseExpected_table] at hx
        simpa [removeTrack] using (List.mem_filter.1 hx).2
      · obtain rfl : r = q := by
          have : s.slot = some q := by simpa [loseExpected] using hq
          simpa [Option.mem_def.1 hr] using this
        exact hk
    · have hlen := tx_of_roomFor hroom
      obtain ⟨h1, h2, h3⟩ := loseExpected_queued (e := e) hin (by omega)
      exact ⟨queued_slotStep (by omega) h1, queued_slotStep (by omega) h2⟩
  · simp [exec, execTakenTimerExpiry, hs.entryOf_of_mem he, hf]
  · set m := notify (.takenMissing e.record.track) (removeTrack e.record.track s) with hm
    have hwork : Worked s m := (worked_removeTrack hs.tracks (hs.entryOf_of_mem he) hx).trans (Worked.notify _ _)
    have hT : m.table = s.table.filter (fun x => x.record.track != e.record.track) := by simp [hm]
    obtain ⟨hpre, -, hnone⟩ := endOfEvent_of_stays hin hset.2.2.2 hwork (by simp [hm]) hT
    refine ⟨_, takenTimer_expires hs hset hin he hx ht hf, ?_, hpre, fun hslot => ?_, fun y hy => ?_, fun hroom => ?_⟩
    · intro x
      cases x <;> simp [settleBlocks, Block.same]
    · obtain ⟨h1, -, -, h4⟩ := hnone hslot
      exact ⟨h1, h4⟩
    · obtain hy | hy := mem_slotStep hy
      · exact .inl (by simpa [hT] using hy)
      · exact .inr hy
    · have hlen := tx_of_roomFor hroom
      have hlen' : m.line.tx.length ≤ s.line.tx.length + 1 := queueFrame_length_le _ (removeTrack e.record.track s)
      exact queued_endOfEvent (m := m) (by omega) (queued_self (s := removeTrack e.record.track s) hin rfl (by simp; omega))
  · refine ⟨_, offerRepeat_expires hset hhead ho, fun x => by cases x <;> simp [Block.same], by simp, by simp,
      fun hroom => ?_⟩
    have hlen := tx_of_roomFor hroom
    refine ⟨queued_offer hin (roomForOffer_of_lt (by simp [Config.txCapacity]; omega)), ?_⟩
    exact queueFrame_txOverrun (by simp; omega)
  · simp [exec, execOfferRepeatExpiry, ho]

end

end Sys2Proof.Machine
end

