-- ==== Proofs/Departure.lean ====
section
/-! PROOF. What the exit eye completes: a release (O27) and a delivery (O28). -/

namespace Sys2Proof.Machine

section
variable {b s m t : State}

/-! ## The end of an event in a vacated zone -/

theorem permitStep_zone_state (u : State) : ∃ z, (permitStep u).zone = { u.zone with zstate := z } := by
  obtain ⟨-, -, -, h⟩ | ⟨-, -, -, h⟩ | h := permitStep_cases u
  · exact ⟨.empty, by rw [h]; rfl⟩
  · exact ⟨.inbound, by rw [h]; rfl⟩
  · exact ⟨u.zone.zstate, by rw [h]⟩

theorem slotStep_zone_state (u : State) : ∃ z, (slotStep u).zone = { u.zone with zstate := z } := by
  obtain ⟨r, -, -, -, -, h⟩ | ⟨r, -, -, -, -, h⟩ | h := slotStep_cases u
  · exact ⟨.inbound, by rw [h, acceptOffer_zone]⟩
  · exact ⟨u.zone.zstate, by rw [h]; simp⟩
  · exact ⟨u.zone.zstate, by rw [h]⟩

/-- The permit and the slot change of the zone its state alone. -/
theorem endOfEvent_zone (u : State) : ∃ z, (slotStep (permitStep u)).zone = { u.zone with zstate := z } := by
  obtain ⟨z, hz⟩ := permitStep_zone_state u
  obtain ⟨z', hz'⟩ := slotStep_zone_state (permitStep u)
  exact ⟨z', by rw [hz', hz]⟩

/-- Of a zone that offers nothing, the end of the event changes the state and the offer repeat timer alone. -/
theorem settle_zone_of_not_offering (ha : active m = true) (ho : offering m = false)
    (hr : hasRole m .dispatch = true → RouteFollows m) :
    ∃ z o, (settle b m).zone = { m.zone with zstate := z, offerTimer := o } := by
  obtain ⟨z, hz⟩ := endOfEvent_zone (stopOffering m)
  rw [settle_of_not_offering ha ho hr, windowStep_zone, hz]
  obtain ⟨-, -, h⟩ | ⟨-, h⟩ := stopOffering_cases m
  · exact ⟨z, none, by rw [h]; simp⟩
  · exact ⟨z, m.zone.offerTimer, by rw [h]⟩

/-- An EMPTY zone turns INBOUND for the permit, or stays (R32). -/
theorem permitStep_zstate_of_empty {u : State} (hz : u.zone.zstate = .empty) :
    (permitStep u).zone.zstate = if infeedPermit (permitStep u) then .inbound else .empty := by
  obtain ⟨-, hi, -, -⟩ | ⟨hc, -, ha, h⟩ | h := permitStep_cases u
  · simp [hz] at hi
  · have hperm : infeedPermit (setZoneState .inbound u) = true := by
      have hin : inService (setZoneState .inbound u) = true := (accepting_iff.1 ha).1
      have hrole : hasRole (setZoneState .inbound u) .check = true := hc
      simp [infeedPermit, hin, hrole]
    rw [h, hperm]
    rfl
  · have hperm : infeedPermit u = false := by simp [infeedPermit, hz]
    rw [h, hperm]
    exact hz

theorem infeedPermit_congr (h1 : t.service = s.service) (h2 : t.cfg = s.cfg) (h3 : t.zone.zstate = s.zone.zstate) :
    infeedPermit t = infeedPermit s := by simp [infeedPermit, inService_congr h1, hasRole_congr h2, h3]

/-- What the end of the event makes of a vacated zone with no OFFER in the slot. -/
theorem settle_vacated (ha : active m = true) (hz : m.zone.zstate = .empty) (hr : hasRole m .dispatch = true → RouteFollows m)
    (hslot : m.slot = none) : (settle b m).table = m.table ∧
      (settle b m).zone.zstate = if infeedPermit (settle b m) then .inbound else .empty := by
  have hs' : (permitStep (stopOffering m)).slot = none := by simp [hslot]
  have hp := permitStep_zstate_of_empty (u := stopOffering m) (by simp [hz])
  rw [settle_of_not_offering ha (offering_false_of_zone (by simp [hz])) hr, slotStep_of_none hs', windowStep_table,
    windowStep_zone, infeedPermit_congr (s := permitStep (stopOffering m)) (by simp) (by simp) (by simp)]
  exact ⟨by simp, hp⟩

/-- What it makes of one with an OFFER in the slot that the station can accept. -/
theorem settle_vacated_accepts {r : TravelRecord} (ha : accepting m = true) (hc : hasRole m .check = false)
    (hr : hasRole m .dispatch = true → RouteFollows m) (hslot : m.slot = some r) (hk : entryOf m r.track = none) :
    settle b m = acceptOffer r (stopOffering m) := by
  have hsame := sameCore_stopOffering m
  have hcs : hasRole (stopOffering m) .check = false := by rw [hsame.role, hc]
  rw [settle_of_not_offering (active_of_inService (accepting_iff.1 ha).1) (not_offering_of_accepting ha) hr,
    permitStep_of_role hcs, slotStep_accept hcs (by rw [hsame.accepting, ha]) (by rw [hsame.slot, hslot])
      (by rw [entryOf_congr hsame.table, hk]), windowStep_of_works]
  rw [works_congr (s := stopOffering m) (by simp) (by simp), works, hcs, Bool.and_false]

/-- What is queued in a vacated zone stays so. -/
theorem queued_settle {f : TxFrame} (ha : active m = true) (ho : offering m = false)
    (hr : hasRole m .dispatch = true → RouteFollows m) (hf : offerTrack f = none) (hroom : m.line.tx.length < 8)
    (h : queued f m = true) : queued f (settle b m) = true := by
  rw [settle_of_not_offering ha ho hr, queued_congr (windowStep_line _ _)]
  exact queued_endOfEvent ((stopOffering_length_le m).trans_lt hroom) (queued_stopOffering hf h)

/-- The table of a vacated zone grows at most at its tail. -/
theorem isPrefixOf_settle (ha : active m = true) (ho : offering m = false)
    (hr : hasRole m .dispatch = true → RouteFollows m) : m.table.isPrefixOf (settle b m).table = true := by
  rw [settle_of_not_offering ha ho hr, windowStep_table]
  have h := isPrefixOf_slotStep (permitStep (stopOffering m))
  simpa using h

/-! ## The exit eye -/

/-- The exit eye's level, clear. -/
def exitCleared (s : State) : State := s.setPins { s.pins with eyeExit := false }

theorem exec_exitEyeClears (ha : active s = true) (hz : s.zone.zstate = .releasing) (hx : s.zone.exitSeen = true) :
    exec .exitEyeClears s = .next (settle s (if hasRole s .dispatch then completeDelivery (exitCleared s)
      else completeRelease (exitCleared s))) := by
  simp [exec, execExitEyeClears, ha, hz, hx, exitCleared]

theorem completeRelease_eq {e : Entry} (h : zoneEntryIn s .releasing = some e) : completeRelease s =
    queueFrame (.released (downstream s) e.record.track) (moveOn e (leaveReleasing s)) := by
  simp [completeRelease, h]

theorem completeDelivery_eq {e : Entry} (h : zoneEntryIn s .releasing = some e) : completeDelivery s =
    queueFrame (dispatchedFrame s.route e.record)
      ((removeZoneRecord (leaveReleasing s)).setRoute (dropRoute (countDelivery s.route))) := by
  simp [completeDelivery, h]

/-- The zone record of a RELEASING zone is the RELEASING one. -/
theorem StationSound.releasing_of_zoneEntry {e : Entry} (h : StationSound s) (hz : s.zone.zstate = .releasing)
    (he : zoneEntry s = some e) :
    ∃ outs, s.table = outs ++ [e] ∧ allOutbound outs ∧ e.state = .releasing ∧ zoneEntryIn s .releasing = some e := by
  obtain ⟨outs, x, hT, ho, hx, hfind⟩ := h.shape_releasing hz
  have : zoneEntry s = some x := by
    rw [zoneEntry_of_table hT ho]
    simp [inZone, isZoneState, hx]
  obtain rfl : e = x := by simpa [he] using this
  exact ⟨outs, hT, ho, hx, hfind⟩

/-- Settles O27: the release leaves an EMPTY zone, in which the permit and the slot are evaluated. -/
theorem exitEyeCompletesTheRelease : Obligations.ExitEyeCompletesTheRelease := by
  intro s e kept hs ha hd hz hx he hkept
  obtain ⟨outs, hT, ho, hrel, hfind⟩ := hs.releasing_of_zoneEntry hz he
  set m := completeRelease (exitCleared s) with hm
  have hmeq : m = queueFrame (.released (downstream s) e.record.track) (moveOn e (leaveReleasing (exitCleared s))) :=
    completeRelease_eq (s := exitCleared s) hfind
  have hTm : m.table = kept := by
    have hmo := moveOn_table' (s := leaveReleasing (exitCleared s)) hT ho hrel
    rw [hmeq, queueFrame_table, hmo, hkept, hT]
    split
    · rw [filter_behind ho fun x hx => by simp [hx]]
      simp [hrel]
    · rw [map_behind ho fun x hx => by simp [hx]]
      simp [hrel]
      rfl
  have ham : active m = true := by rw [active_congr (s := s) (by simp [hm, exitCleared]), ha]
  have hdm : hasRole m .dispatch = false := by rw [hasRole_congr (s := s) (by simp [hm, exitCleared]), hd]
  have hrm : hasRole m .dispatch = true → RouteFollows m := fun h => by simp [hdm] at h
  have hzm : m.zone = { s.zone with zstate := .empty, exitSeen := false, releaseTimer := none } := by
    rw [hmeq]
    simp [leaveReleasing, exitCleared]
  have hslotm : m.slot = s.slot := by simp [hm, exitCleared]
  have hom : offering m = false := offering_false_of_zone (by simp [hzm])
  obtain ⟨z, o, hzt⟩ := settle_zone_of_not_offering (b := s) ham hom hrm
  have hlen : m.line.tx.length ≤ s.line.tx.length + 1 := by
    rw [hmeq]
    refine (queueFrame_length_le _ _).trans ?_
    simp [leaveReleasing, exitCleared]
  refine ⟨settle s m, by rw [exec_exitEyeClears ha hz hx, if_neg (by simp [hd])], by simp [hm, exitCleared], ?_,
    by rw [hzt, hzm], by rw [hzt, hzm], hTm ▸ isPrefixOf_settle ham hom hrm, fun hslot => ?_, fun hin hroom => ?_,
    fun hslot => (settle_vacated ham (by simp [hzm]) hrm (by rw [hslotm, hslot])).2,
    fun r hr hc hin hh h1 h2 hlt hall => ?_⟩
  · intro x
    cases x <;> simp [settleBlocks, Block.same, hm, exitCleared]
  · rw [(settle_vacated ham (by simp [hzm]) hrm (by rw [hslotm, hslot])).1, hTm]
  · have hr3 := tx_of_roomFor hroom
    refine queued_settle ham hom hrm rfl (by omega) ?_
    rw [hmeq]
    refine queued_self (by rw [inService_congr (s := s) (by simp [leaveReleasing, exitCleared]), hin]) rfl ?_
    simp [leaveReleasing, exitCleared]
    omega
  · have hinm : inService m = true := by rw [inService_congr (s := s) (by simp [hm, exitCleared]), hin]
    have hcm : hasRole m .check = false := by rw [hasRole_congr (s := s) (by simp [hm, exitCleared]), hc]
    have hall : ∀ x ∈ kept, x.state ≠ .expected ∧ x.record.track ≠ r.track := by simpa using hall
    have hacc : accepting m = true := by
      refine accepting_iff.2 ⟨hinm, by simp [hzm], by simp [hm, exitCleared, eyesClear, h1, h2], ?_, by rw [hTm]; exact hlt,
        by simp [holdsEmpty, hzm, hh], fun h => by simp [hcm] at h⟩
      simp only [expectedEntry, hTm, Option.isNone_iff_eq_none, List.find?_eq_none]
      exact fun x hx => by simpa using (hall x hx).1
    have hk : entryOf m r.track = none := entryOf_eq_none.2 fun x hx => (hall x (hTm ▸ hx)).2
    rw [settle_vacated_accepts hacc hcm hrm (by rw [hslotm, hr]) hk]
    refine ⟨by simp, by simp, ?_, fun hroom => ?_⟩
    · rw [acceptOffer_table, acceptedEntry_eq (s := s) (by simp [hm, exitCleared])]
      simp [hTm]
    · have hr3 := tx_of_roomFor hroom
      have hlen2 := stopOffering_length_le m
      have hup : upstream (stopOffering m) = upstream s := by simp [upstream, hm, exitCleared]
      rw [← hup]
      exact queued_self (s := setZoneState .inbound ((addEntry _ (stopOffering m)).setSlot none))
        (by rw [inService_congr (s := m) (by simp), hinm]) rfl (by simp; omega)

/-- The counts and the last lane after a delivery (R173). -/
theorem dropRoute_countDelivery (r : Route) : dropRoute (countDelivery r) = { r with
    exitClass := none, code := .none, laneWait := none, waitExpired := false
    lane1 := if r.code = .lane1 then r.lane1 + 1 else r.lane1
    lane2 := if r.code = .lane2 then r.lane2 + 1 else r.lane2
    rejects := if r.code = .reject then r.rejects + 1 else r.rejects
    lastLane := if r.code = .lane1 then some .one else if r.code = .lane2 then some .two else r.lastLane } := by
  unfold countDelivery
  cases h : r.code <;> simp [dropRoute]

/-- Settles O28: the delivery leaves an EMPTY zone with no route, in which the slot is evaluated. -/
theorem exitEyeCompletesTheDelivery : Obligations.ExitEyeCompletesTheDelivery := by
  intro s e hs hw hz hx he
  obtain ⟨ha, hd⟩ := (works_iff _).1 hw
  obtain ⟨outs, hT, ho, hrel, hfind⟩ := hs.releasing_of_zoneEntry hz he
  have hkept : s.table.filter (fun x => !inZone x) = outs := by
    rw [hT, filter_behind ho fun x hx => by simp [inZone_of_outbound hx]]
    simp [inZone, isZoneState, hrel]
  set m := completeDelivery (exitCleared s) with hm
  have hmeq : m = queueFrame (dispatchedFrame s.route e.record)
      ((removeZoneRecord (leaveReleasing (exitCleared s))).setRoute (dropRoute (countDelivery s.route))) :=
    completeDelivery_eq (s := exitCleared s) hfind
  have hTm : m.table = outs := by
    rw [hmeq, queueFrame_table, ← hkept]
    rfl
  have hrm : m.route = dropRoute (countDelivery s.route) := by rw [hmeq]; simp
  have hzm : m.zone = { s.zone with zstate := .empty, exitSeen := false, releaseTimer := none } := by
    rw [hmeq]
    simp [leaveReleasing, exitCleared]
  have ham : active m = true := by rw [active_congr (s := s) (by simp [hm, exitCleared]), ha]
  have hcm : hasRole m .check = false := by
    rw [hasRole_congr (s := s) (by simp [hm, exitCleared]), check_false_of_dispatch hd]
  have hslotm : m.slot = s.slot := by simp [hm, exitCleared]
  have hom : offering m = false := offering_false_of_zone (by simp [hzm])
  have hfol : hasRole m .dispatch = true → RouteFollows m := fun _ =>
    ⟨fun h => by simp [delivering_false_of_zone (s := m) (by simp [hzm])] at h,
      fun h => by simp [laneWaitOn, hrm, dropRoute] at h⟩
  have hend : settle s m = slotStep (stopOffering m) := by
    have hcs : hasRole (stopOffering m) .check = false := by rw [(sameCore_stopOffering m).role, hcm]
    rw [settle_of_not_offering ham hom hfol, permitStep_of_role hcs, windowStep_of_works]
    rw [works_congr (s := stopOffering m) (by simp) (by simp), works, hcs, Bool.and_false]
  have hroute : (settle s m).route = dropRoute (countDelivery s.route) := by rw [hend]; simp [hrm]
  obtain ⟨z, o, hzt⟩ := settle_zone_of_not_offering (b := s) ham hom hfol
  refine ⟨settle s m, by rw [exec_exitEyeClears ha hz hx, if_pos hd], by simp [hm, exitCleared], ?_, by rw [hzt, hzm],
    by rw [hzt, hzm], fun hslot => ?_, ?_, ?_, ?_, fun hin hroom => ?_, ?_⟩
  · intro x
    cases x <;> simp [settleBlocks, Block.same, hm, exitCleared]
  · rw [hend, slotStep_of_none (by simp [hslotm, hslot])]
    refine ⟨by simp [hzm], by simp [hTm, hkept], ?_⟩
    simp [drive, hzm]
  · rw [hend]
    obtain ⟨r, hr, -, -, -, h⟩ | ⟨r, -, -, -, -, h⟩ | h := slotStep_cases (stopOffering m)
    · have : s.slot = some r := by simpa [hslotm] using hr
      exact .inr ⟨by simp [h], by simp [this]⟩
    · exact .inl (by simp [h, hzm])
    · exact .inl (by simp [h, hzm])
  · simp [routeSelect, hroute, dropRoute]
  · rw [hkept, ← hTm]
    exact isPrefixOf_settle ham hom hfol
  · have hr3 := tx_of_roomFor hroom
    have hinner : (removeZoneRecord (leaveReleasing (exitCleared s))).line = s.line := rfl
    refine queued_settle ham hom hfol rfl ?_ ?_
    · rw [hmeq]
      refine (queueFrame_length_le _ _).trans_lt ?_
      simp only [State.setRoute_line, hinner]
      omega
    · rw [hmeq]
      exact queued_self hin rfl (by simp only [State.setRoute_line, hinner]; omega)
  · rw [hroute, dropRoute_countDelivery]

end

end Sys2Proof.Machine
end

