-- ==== Proofs/Arrival.lean ====
section
/-! PROOF. What an arrival makes of the station, at CHECK (O23) and elsewhere (O24). -/

namespace Sys2Proof.Machine

section
variable {b s m t : State}

/-! ## The new record -/

/-- The track of a new record is the first free one from the counter on (R6). -/
theorem firstFree_newTrack (hts : tableSound s) (hlen : s.table.length < 6) (hc : m.cfg = s.cfg)
    (hq : m.trackSeq = s.trackSeq) : firstFree m s.table (newTrack s) := by
  obtain ⟨j, hj, heq, hused, -⟩ := freeSeq_cases s s.table.length s.trackSeq
  refine ⟨by simp [newTrack, hc], ?_, j, by omega, by simp [newTrack, candidateSeq, heq, hq], fun i hi => ?_⟩
  · have hfree := newTrack_free (s := s) hts.1
    simpa [trackUsed] using hfree
  · have := hused i hi
    rw [hc, hq]
    exact this

/-- The eviction's notice, where there is room for it: none with a table that has room, else that of its oldest entry (R9). -/
theorem evict_line (hin : inService s = true) (hroom : s.line.tx.length < 8) (ho : allOutbound s.table) :
    (s.table.length < 6 ∧ (evict s).line = s.line) ∨
    (∃ o rest, s.table = o :: rest ∧ 6 ≤ s.table.length ∧ (evict s).line =
      { s.line with tx := insertTx (freshTx (.notice (.takenMissing o.record.track))) s.line.tx }) := by
  obtain ⟨hlt, h⟩ | ⟨hge, e, he, h⟩ | ⟨hge, hnone, -⟩ := evict_cases s
  · exact .inl ⟨hlt, by rw [h]⟩
  · cases hT : s.table with
    | nil => simp [zoneEntryIn, hT] at he
    | cons o rest =>
      obtain rfl : o = e := by simpa [zoneEntryIn, hT, ho o (by simp [hT])] using he
      refine .inr ⟨o, rest, rfl, hT ▸ hge, ?_⟩
      have hq := queueFrame_room (f := .notice (.takenMissing o.record.track))
        (s := s.setTable (s.table.eraseP (fun e => e.state = .outbound))) hin rfl hroom
      rw [h, notify, hq]
      rfl
  · cases hT : s.table with
    | nil => simp [hT, Config.tableCapacity] at hge
    | cons o rest => simp [zoneEntryIn, hT, ho o (by simp [hT])] at hnone

/-- The queue after it, as the statements have it. -/
theorem evict_tx (hin : inService s = true) (hroom : s.line.tx.length < 8) (ho : allOutbound s.table) :
    (evict s).line = { s.line with tx := match s.table[5]?, s.table.head? with
      | some _, some o => insertTx (freshTx (.notice (.takenMissing o.record.track))) s.line.tx
      | _, _ => s.line.tx } := by
  obtain ⟨hlt, h⟩ | ⟨o, rest, hT, hge, h⟩ := evict_line hin hroom ho
  · rw [h, List.getElem?_eq_none (by omega)]
  · obtain ⟨x, h5⟩ : ∃ x, s.table[5]? = some x := ⟨_, List.getElem?_eq_getElem (by omega)⟩
    have h0 : s.table.head? = some o := by rw [hT]; rfl
    rw [h, h5, h0]

theorem evict_length_le (s : State) : (evict s).line.tx.length ≤ s.line.tx.length + 1 := by
  obtain ⟨-, h⟩ | ⟨-, e, -, h⟩ | ⟨-, -, h⟩ := evict_cases s
  · rw [h]; omega
  · rw [h]; exact queueFrame_length_le _ _
  · rw [h]; omega

/-- What the two statements say of the record that an arrival makes. -/
theorem madeEntry_spec {u : Bool} (hs : tableSound s) (ho : allOutbound s.table) :
    (createRecord u .present (evict s)).table =
      (if s.table.length < 6 then s.table else s.table.drop 1) ++ [madeEntry (evict s) u .present] ∧
    firstFree s (if s.table.length < 6 then s.table else s.table.drop 1) (newTrack (evict s)) ∧
    (createRecord u .present (evict s)).table.all (fun x => x = madeEntry (evict s) u .present ||
      x.record.track != newTrack (evict s)) = true ∧
    (createRecord u .present (evict s)).trackSeq = nextSeq (newTrack (evict s)).seq := by
  obtain ⟨hT, hlt, -, hts⟩ := evict_vacant hs ho
  have hfirst := firstFree_newTrack (m := s) hts hlt (by simp) (by simp)
  rw [hT] at hfirst
  have hmade := createRecord_table' u .present (evict s)
  rw [hT] at hmade
  refine ⟨hmade, hfirst, ?_, rfl⟩
  rw [hmade]
  simp only [List.all_append, List.all_cons, List.all_nil, decide_true, Bool.true_or, Bool.and_true]
  rw [List.all_eq_true]
  intro x hx
  have := List.all_eq_true.1 hfirst.2.1 x hx
  rw [this, Bool.or_true]

/-! ## The arrival -/

/-- Where the zone holds a pallet on its way, the end of the event leaves table, slot, route and zone, but for the repeat timer. -/
theorem settle_occupied_fields (ha : active m = true) (hz : m.zone.zstate ≠ .stopped) (he : m.zone.zstate ≠ .empty)
    (hi : m.zone.zstate ≠ .inbound) (hr : hasRole m .dispatch = true → laneWaitOn m = false) :
    (settle b m).table = m.table ∧ (settle b m).slot = m.slot ∧ (settle b m).route = m.route ∧
      ∃ o, (settle b m).zone = { m.zone with offerTimer := o } := by
  rw [settle_of_occupied ha hz he hi hr]
  refine ⟨by simp, by simp, by simp, ?_⟩
  rw [windowStep_zone]
  obtain ⟨-, -, h⟩ | ⟨-, h⟩ := stopOffering_cases m
  · exact ⟨none, by rw [h]; simp⟩
  · exact ⟨m.zone.offerTimer, by rw [h]⟩

/-- The entry eye's level, blocked. -/
def entryBlocked (s : State) : State := s.setPins { s.pins with eyeEntry := true }

theorem exec_entryEyeBlocks (ha : active s = true) (hz : s.zone.zstate = .empty ∨ s.zone.zstate = .inbound) :
    exec .entryEyeBlocks s = .next (settle s (arrive (entryBlocked s))) := by
  simp [exec, execEntryEyeBlocks, ha, arrivalZone_iff.2 hz, entryBlocked]

theorem arrive_of_check (h : hasRole s .check = true) : arrive s = startPositioning (arriveAtCheck s) := by
  simp [arrive, h]

theorem arrive_elsewhere (h : hasRole s .check = false) : arrive s = startPositioning (arriveElsewhere s) := by
  simp [arrive, h]

/-- What the blocks of CHECK hold after an arrival (R73, R109, R120). -/
theorem arriveAtCheck_blocks (s : State) :
    (arriveAtCheck s).reader.window = .tag ∧ (arriveAtCheck s).reader.kept = none ∧
    (arriveAtCheck s).prof.phase = .unarmed ∧ (arriveAtCheck s).prof.front = none ∧ (arriveAtCheck s).prof.gaps = 0 ∧
    (arriveAtCheck s).prof.counter = s.prof.counter ∧ (arriveAtCheck s).line = (evict s).line ∧
    (arriveAtCheck s).trackSeq = nextSeq (newTrack (evict s)).seq ∧
    (arriveAtCheck s).eval =
      some { track := newTrack (evict s), tag := none, manifest := none, profile := none, mass := none } := by
  simp [arriveAtCheck, resetProfiling, openWindow, openEvaluation, newTrack]

/-- The offer repeat timer is at rest when a pallet arrives where nothing waited. -/
theorem stopOffering_arrive (hset : Settled s) (hz : s.zone.zstate = .empty ∨ s.zone.zstate = .inbound) :
    stopOffering (arrive (entryBlocked s)) = arrive (entryBlocked s) := by
  refine stopOffering_of fun h => ?_
  have hmt : (arrive (entryBlocked s)).zone.offerTimer = s.zone.offerTimer := by
    cases hc : hasRole (entryBlocked s) .check
    · rw [arrive_elsewhere hc]
      simp [startPositioning, entryBlocked]
    · rw [arrive_of_check hc]
      simp [startPositioning, entryBlocked]
  rw [hmt, offerTimer_of_zone hset.1 (by obtain h | h := hz <;> simp [h])] at h
  simp at h

/-- An arrival ends an empty platform, and with it at CHECK the settle window (R89, R91). -/
theorem settle_arrive_weigh (hs : StationSound s) (hw : works s .check = true)
    (hz : s.zone.zstate = .empty ∨ s.zone.zstate = .inbound) :
    (settle s (arrive (entryBlocked s))).weigh =
      if eyesClear s.pins = true then { s.weigh with window := [] } else s.weigh := by
  obtain ⟨ha, hc⟩ := (works_iff _).1 hw
  have hzm : (arrive (entryBlocked s)).zone.zstate = .positioning := by simp [arrive, startPositioning_zstate]
  set v := stopOffering (arrive (entryBlocked s)) with hv
  have hact : active (arrive (entryBlocked s)) = true := by rw [active_congr (s := s) (by simp [entryBlocked]), ha]
  have hdm : hasRole (arrive (entryBlocked s)) .dispatch = false := by
    rw [hasRole_congr (s := s) (by simp [entryBlocked]), not_dispatch_of_check hc]
  have hp : platformEmpty v = false := by simp [hv, platformEmpty, hzm]
  have hwv : works v .check = true := by
    rw [works_congr (s := s) (by simp [hv, entryBlocked]) (by simp [hv, entryBlocked]), hw]
  have hvac : (decide (s.zone.zstate = .empty) || decide (s.zone.zstate = .inbound)) = true := by simpa using hz
  have hweigh : v.weigh = s.weigh := by simp [hv, entryBlocked]
  rw [settle_of_occupied hact (by simp [hzm]) (by simp [hzm]) (by simp [hzm]) fun hd => by simp [hdm] at hd]
  rw [windowStep, hwv, hp, hs.platformEmpty, hvac]
  by_cases he : eyesClear s.pins = true
  · simp [he, emptyWindow, ← hv, hweigh]
  · simp [he, ← hv, hweigh]

/-- Settles O23: the arrival makes the record, and ends the empty platform. -/
theorem arrivalAtCheckMakesARecord : Obligations.ArrivalAtCheckMakesARecord := by
  intro s hs hw hz
  obtain ⟨ha, hc⟩ := (works_iff _).1 hw
  set u := entryBlocked s with hu
  have hou : allOutbound u.table := hs.allOutbound_of_vacant hz (hs.expected_of_check hc)
  obtain ⟨hT, hfirst, hall, hseq⟩ := madeEntry_spec (u := false) (s := u) hs.tracks hou
  obtain ⟨hwin, hkept, hphase, hfront, hgaps, hcount, hline, htrack, heval⟩ := arriveAtCheck_blocks u
  have hma : arrive u = startPositioning (arriveAtCheck u) := arrive_of_check hc
  have hact : active (arrive u) = true := by rw [active_congr (s := s) (by simp [hu, entryBlocked]), ha]
  have hdm : hasRole (arrive u) .dispatch = false := by
    rw [hasRole_congr (s := s) (by simp [hu, entryBlocked]), not_dispatch_of_check hc]
  have hzm : (arrive u).zone.zstate = .positioning := by rw [hma]; rfl
  obtain ⟨hTt, hslot, hroute, o, hzone⟩ := settle_occupied_fields (b := s) hact (by simp [hzm]) (by simp [hzm])
    (by simp [hzm]) fun hd => by simp [hdm] at hd
  have hTm : (arrive u).table = (createRecord false .present (evict u)).table := by rw [hma]; rfl
  have hzt : (settle s (arrive u)).zone.zstate = .positioning := by rw [hzone]; exact hzm
  have hprof : (arrive u).prof = (arriveAtCheck u).prof := by rw [hma, startPositioning_prof]
  have hreader : (arrive u).reader = (arriveAtCheck u).reader := by rw [hma, startPositioning_reader]
  refine ⟨settle s (arrive u), exec_entryEyeBlocks ha hz, ?_, by simp [hu, entryBlocked],
    madeEntry (evict u) false .present, ?_, ?_, rfl, rfl, ?_, hfirst, ?_, fun hset hin hroom => ?_, ?_, hzt,
    by simp [infeedPermit, hzt], ?_, ?_, ?_, settle_arrive_weigh hs hw hz, ?_, ?_, ?_, ?_, ?_⟩
  · have h1 : onlyChanges [.pins] s u := fun x => by cases x <;> simp [Block.same, hu, entryBlocked]
    refine h1.trans (fun x => ?_) (by simp) fun _ => id
    cases x <;> simp [Block.same, hslot, hroute]
  · rw [hTt, hTm, hT]
    simp
  · rw [hTt, hTm, hT]
    rfl
  · simp [newTrack, hu, entryBlocked]
  · rw [hTt, hTm]
    exact hall
  · have hr1 := tx_of_roomFor hroom
    have hl : (settle s (arrive u)).line = (evict u).line := by
      rw [settle_of_occupied hact (by simp [hzm]) (by simp [hzm]) (by simp [hzm]) fun hd => by simp [hdm] at hd,
        windowStep_line, stopOffering_arrive hset hz, hma, startPositioning_line, hline]
    have hul : u.line.tx.length = s.line.tx.length := rfl
    rw [hl, evict_tx (s := u) hin (by omega) hou]
    show _ = (match u.table[5]?, u.table.head? with
      | some _, some o => { s.line with tx := insertTx (freshTx (.notice (.takenMissing o.record.track))) s.line.tx }
      | _, _ => s.line)
    split <;> rfl
  · rw [settle_trackSeq, hma, startPositioning_trackSeq, htrack]
    rfl
  · rw [hzone, hma]
    simp [startPositioning, hu, entryBlocked]
  · rw [settle_reader, hreader, hwin]
  · rw [settle_reader, hreader, hkept]
  · rw [settle_prof, hprof, hphase]
  · rw [settle_prof, hprof, hfront]
  · rw [settle_prof, hprof, hgaps]
  · rw [settle_prof, hprof, hcount]
    rfl
  · rw [settle_eval, hma, startPositioning_eval, heval]
    rfl

/-- In an EMPTY or INBOUND zone no record is DONE. -/
theorem StationSound.not_done_of_vacant (h : StationSound s) (hz : s.zone.zstate = .empty ∨ s.zone.zstate = .inbound) :
    zoneEntryIn s .done = none := by
  have hnone := h.zoneEntry_of_vacant hz
  rw [zoneEntry, List.find?_eq_none] at hnone
  rw [zoneEntryIn, List.find?_eq_none]
  intro e he hd
  exact hnone e he (inZone_iff.2 (.inr (.inr (.inl (by simpa using hd)))))

/-- Settles O24: outside CHECK, and with nothing waiting, the arrival is all of its event. -/
theorem arrivalBindsTheExpectedRecord : Obligations.ArrivalBindsTheExpectedRecord := by
  intro s hs hset ha hc hz
  set u := entryBlocked s with hu
  have hsu : StationSound u := stationSound_congr hs rfl rfl rfl rfl rfl
  set m := arrive u with hm
  have hma : m = startPositioning (arriveElsewhere u) := arrive_elsewhere hc
  have hwait : laneWaitOn s = false := by
    by_contra hn
    have hl := hset.2.2.1.2 (by simpa using hn)
    simp [lacksExit, hs.not_done_of_vacant hz] at hl
  have hzm : m.zone.zstate = .positioning := by rw [hma]; rfl
  have hact : active m = true := by rw [active_congr (s := s) (by simp [hm, hu, entryBlocked]), ha]
  have hcm : hasRole m .check = false := by rw [hasRole_congr (s := s) (by simp [hm, hu, entryBlocked]), hc]
  have hexec : exec .entryEyeBlocks s = .next m := by
    rw [exec_entryEyeBlocks ha hz, ← hu, ← hm]
    rw [settle_of_occupied hact (by simp [hzm]) (by simp [hzm]) (by simp [hzm]) fun _ => by
      simpa [laneWaitOn, hm, hu, entryBlocked] using hwait]
    have hstop : stopOffering m = m := stopOffering_arrive hset hz
    rw [hstop, windowStep_of_works (by simp [works, hcm])]
  refine ⟨m, hexec, ?_, by simp [hm, hu, entryBlocked], by rw [hma]; rfl, ?_, fun hzi => ?_, fun hze => ?_⟩
  · intro x
    cases x <;> simp [Block.same, hma, hu, entryBlocked]
  · rw [hma]
    simp [startPositioning, hu, entryBlocked]
  · obtain ⟨e, he⟩ := Option.isSome_iff_exists.1 (hs.2.2.1.2.2.2 hzi hc)
    obtain ⟨outs, hT, ho, hx, -⟩ := hs.shape_expected he
    have hb : arriveElsewhere u = queueFrame (.taken (upstream u) e.record.track) (bindExpected u) := by
      have he' : expectedEntry u = some e := he
      simp [arriveElsewhere, he']
    refine ⟨by rw [hma, hb]; simp [hu, entryBlocked, bindExpected], by rw [hma, hb]; simp [hu, entryBlocked, bindExpected],
      fun hin hroom => ⟨e, by simp [hT], hx, ?_⟩⟩
    have hr1 := tx_of_roomFor hroom
    rw [hma, hb, queued_congr (s := queueFrame (.taken (upstream u) e.record.track) (bindExpected u)) (by simp)]
    exact queued_self (s := bindExpected u) hin rfl (by simp [bindExpected, hu, entryBlocked]; omega)
  · have hx : expectedEntry u = none := by
      cases he : expectedEntry u with
      | none => rfl
      | some e =>
        obtain ⟨-, -, -, -, hzi, -⟩ := hsu.shape_expected he
        rw [show u.zone = s.zone from rfl, hze] at hzi
        simp at hzi
    have hou : allOutbound u.table := hsu.allOutbound_of_vacant hz hx
    obtain ⟨hT, hfirst, -, hseq⟩ := madeEntry_spec (u := true) hsu.tracks hou
    have hb : arriveElsewhere u = notify (.unknownPallet (newTrack (evict u))) (createRecord true .present (evict u)) := by
      simp [arriveElsewhere, hx]
    have hTm : m.table = (createRecord true .present (evict u)).table := by rw [hma, hb]; simp
    refine ⟨madeEntry (evict u) true .present, by rw [hTm, hT]; simp, hTm.trans hT, rfl, rfl, rfl, hfirst, ?_, rfl,
      fun hin hroom => ?_⟩
    · rw [hma, hb]
      simpa using hseq
    · have hr2 := tx_of_roomFor hroom
      have hle := evict_length_le u
      have hul : u.line = s.line := rfl
      rw [hul] at hle
      have hml : m.line = (notify (.unknownPallet (newTrack (evict u))) (createRecord true .present (evict u))).line := by
        rw [hma, hb]
        simp
      have hinv : inService (createRecord true .present (evict u)) = true := by
        rw [inService_congr (s := s) (by simp [hu, entryBlocked]), hin]
      rw [hml, notify, queueFrame_room hinv rfl (by simp only [createRecord_line, Config.txCapacity]; omega), State.setLine_line, createRecord_line,
        evict_tx (s := u) hin (by rw [hul]; omega) hou, hul]
      rfl

end

end Sys2Proof.Machine
end

