-- ==== Proofs/AtPosition.lean ====
section
/-! PROOF. What becomes of the record found at position: `workAfresh`, then the evaluation (R13, R39, R44, R115, R122). -/

namespace Sys2Proof.Machine

section
variable {b s u m t : State} {outs : List Entry} {e : Entry}

/-! ## The evaluation that finds no record at work -/

theorem evalStep_of_no_working (h : zoneEntryIn u .working = none) : evalStep u = u := by
  obtain ⟨-, -, e, -, -, -, he, -⟩ | h := evalStep_cases u
  · simp [he] at h
  · exact h

/-- With its record in another state the evaluation has nothing to do. -/
theorem evalStep_of_table (hT : u.table = outs ++ [e]) (ho : allOutbound outs) (he : e.state ≠ .working) :
    evalStep u = u := by
  refine evalStep_of_no_working ?_
  rw [zoneEntryIn_of_table hT ho (by decide)]
  simp [he]

/-! ## The record enters WORKING -/

theorem workAfresh_of_other (hT : u.table = outs ++ [e]) (ho : allOutbound outs) (he : e.state ≠ .present) :
    workAfresh u = u := by
  rw [workAfresh, zoneEntryIn_of_table hT ho (by decide), if_neg (by simp [he])]

/-- What a record that is not PRESENT finds at position: nothing happens to it (R39). -/
theorem atPosition_of_done (hT : u.table = outs ++ [e]) (ho : allOutbound outs) (he : e.state = .done) :
    evalStep (workAfresh u) = u := by
  rw [workAfresh_of_other hT ho (by simp [he]), evalStep_of_table hT ho (by simp [he])]

/-- The state in which the role's work begins. -/
def entered (u : State) : State := moveState .present .working (profileAtPosition u)

theorem workAfresh_of_present (hT : u.table = outs ++ [e]) (ho : allOutbound outs) (he : e.state = .present) :
    workAfresh u = beginWork e.record (entered u) := by
  have hfind := zoneEntryIn_of_table hT ho (show RecordState.present ≠ .outbound by decide)
  have hpres : zoneEntryIn (profileAtPosition u) .present = some e := by
    rw [zoneEntryIn_congr (s := u) (by simp), hfind]
    simp [he]
  rw [workAfresh, hfind, if_pos (by simp [he]), enterWorking_eq hpres, entered]

theorem entered_table (hT : u.table = outs ++ [e]) (ho : allOutbound outs) (he : e.state = .present) :
    (entered u).table = outs ++ [{ e with state := .working }] := by
  rw [entered, moveState_of_table (s := profileAtPosition u) (by simpa using hT) ho (by decide)]
  simp [he]

/-- The record at work is DONE at once. -/
theorem endWork_at_tail (hT : u.table = outs ++ [e]) (ho : allOutbound outs) :
    (endWork u).table = outs ++ [if e.state = .working then { e with state := .done } else e] := by
  rw [endWork, moveState_of_table hT ho (by decide)]
  rfl

/-- A field of the record at work is written. -/
theorem writeWorking_at_tail {f : TravelRecord → TravelRecord} (hT : u.table = outs ++ [e]) (ho : allOutbound outs) :
    (writeWorking f u).table = outs ++ [if e.state = .working then { e with record := f e.record } else e] := by
  rw [writeWorking_table, hT, map_behind ho fun x hx => by simp [hx]]
  rfl

/-- A record of unknown origin, or one where the role has no work, is DONE at once (R7, R13). -/
theorem beginWork_idle {r : TravelRecord} (h : r.unknownOrigin = true ∨ (hasRole u .check = false ∧
    hasRole u .wrap = false ∧ hasRole u .label = false)) :
    beginWork r u = endWork u ∨ (hasRole u .check = true ∧ beginWork r u = endWork (emptyWindow u)) := by
  unfold beginWork
  obtain h | ⟨hc, hw, hl⟩ := h
  · split
    · rename_i hr
      exact .inr ⟨by simp [hasRole, hr], by rw [if_pos h]⟩
    all_goals simp [h]
  · split <;> simp_all [hasRole]

theorem atPosition_idle_table (hT : u.table = outs ++ [e]) (ho : allOutbound outs) (he : e.state = .present)
    (h : e.record.unknownOrigin = true ∨ (hasRole u .check = false ∧ hasRole u .wrap = false ∧ hasRole u .label = false)) :
    (evalStep (workAfresh u)).table = outs ++ [{ e with state := .done }] := by
  have hT2 := entered_table hT ho he
  have hrole : ∀ r, hasRole (entered u) r = hasRole u r := fun r => hasRole_congr (by simp [entered]) r
  have hdone : (beginWork e.record (entered u)).table = outs ++ [{ e with state := .done }] := by
    obtain hb | ⟨-, hb⟩ := beginWork_idle (u := entered u) (r := e.record) (by simpa [hrole] using h)
    · rw [hb, endWork_at_tail hT2 ho]
      rfl
    · rw [hb, endWork_at_tail (u := emptyWindow (entered u)) (by simpa using hT2) ho]
      rfl
  rw [workAfresh_of_present hT ho he, evalStep_of_table hdone ho (by simp), hdone]

/-- At DISPATCH the record is DONE, and that is all (R39). -/
theorem atPosition_of_dispatch (hT : u.table = outs ++ [e]) (ho : allOutbound outs) (he : e.state = .present)
    (hd : hasRole u .dispatch = true) : evalStep (workAfresh u) = endWork (entered u) := by
  have hde : hasRole (entered u) .dispatch = true := by rw [hasRole_congr (s := u) (by simp [entered]), hd]
  rw [workAfresh_of_present hT ho he, beginWork_of_dispatch _ hde, evalStep_of_role]
  exact check_false_of_dispatch (by rw [hasRole_congr (s := u) (by simp [entered]), hd])

/-- Whatever the role, the record stays at the tail: WORKING, or DONE. -/
theorem atPosition_tail (hT : u.table = outs ++ [e]) (ho : allOutbound outs) (he : e.state = .present ∨ e.state = .done) :
    ∃ outs' y, (evalStep (workAfresh u)).table = outs' ++ [y] ∧ allOutbound outs' ∧ y.record.track = e.record.track ∧
      (y.state = .working ∨ y.state = .done) := by
  obtain he | he := he
  case inr => exact ⟨outs, e, by rw [atPosition_of_done hT ho he, hT], ho, rfl, .inr he⟩
  have hT2 := entered_table hT ho he
  cases hd : hasRole u .dispatch
  · have hde : hasRole (entered u) .dispatch = false := by rw [hasRole_congr (s := u) (by simp [entered]), hd]
    have hb := worked_beginWork (s := entered u) e.record hde
    have hw := hb.trans (worked_evalStep (hb.role hde))
    have hev := hw.table
    rw [hT2, hde] at hev
    obtain ⟨outs', tail, hT', ho', hrel⟩ := hev.shape (tail := some { e with state := .working }) ho (by simp)
    cases hrel with
    | @some _ y hy =>
      obtain ⟨htrack, hs⟩ := hy
      refine ⟨outs', y, by rw [workAfresh_of_present hT ho he]; exact hT', ho', htrack, ?_⟩
      obtain ⟨hs, -⟩ | ⟨-, -, hs⟩ := hs
      · exact .inl hs
      · exact hs
  · rw [atPosition_of_dispatch hT ho he hd]
    exact ⟨outs, _, endWork_at_tail hT2 ho, ho, by simp, .inr (by simp)⟩

/-! ## What else stays -/

@[simp] theorem workAfresh_pending (s : State) : (workAfresh s).pending = s.pending := by unfold workAfresh; split <;> simp
@[simp] theorem workAfresh_service (s : State) : (workAfresh s).service = s.service := by unfold workAfresh; split <;> simp
@[simp] theorem workAfresh_cfg (s : State) : (workAfresh s).cfg = s.cfg := by unfold workAfresh; split <;> simp
@[simp] theorem workAfresh_pins (s : State) : (workAfresh s).pins = s.pins := by unfold workAfresh; split <;> simp
@[simp] theorem workAfresh_line (s : State) : (workAfresh s).line = s.line := by unfold workAfresh; split <;> simp
@[simp] theorem workAfresh_slot (s : State) : (workAfresh s).slot = s.slot := by unfold workAfresh; split <;> simp
@[simp] theorem workAfresh_trackSeq (s : State) : (workAfresh s).trackSeq = s.trackSeq := by unfold workAfresh; split <;> simp
@[simp] theorem workAfresh_zone (s : State) : (workAfresh s).zone = s.zone := by unfold workAfresh; split <;> simp
@[simp] theorem workAfresh_store (s : State) : (workAfresh s).store = s.store := by unfold workAfresh; split <;> simp
@[simp] theorem workAfresh_route (s : State) : (workAfresh s).route = s.route := by unfold workAfresh; split <;> simp

/-! ## CHECK at position -/

/-- The profile of a record whose pallet has come to position: complete with the steps so far, or faulted (R115). -/
def resolvedPhase (p : Profile) : Profile :=
  match p.phase with
  | .unarmed => { p with phase := .faulted, front := none, rear := none, compare := none }
  | .armed => { p with phase := .faulted, front := none, rear := none, compare := none }
  | .inCurtain => { p with phase := .complete, front := none, rear := none, compare := none }
  | .complete => { p with front := none, rear := none, compare := none }
  | .none => p
  | .faulted => p

/-- The profile input it is handed (R115, R121). -/
def resolvedInput (p : Profile) (held : Option ProfileResolution) : Option ProfileResolution :=
  match p.phase with
  | .unarmed => some .profileFault
  | .armed => some .profileFault
  | .inCurtain => some (.complete { top := p.top.getD 0, height := beamHeight (p.top.getD 0),
                                    length := max 5 (stepsFrom p.front p.counter * 5), gaps := p.gaps, overrun := false })
  | .complete => held
  | .none => held
  | .faulted => held

theorem profileAtPosition_eq {ev : Evaluation} (h : u.eval = some ev) :
    (profileAtPosition u).prof = resolvedPhase u.prof ∧
      (profileAtPosition u).eval = some { ev with profile := resolvedInput u.prof ev.profile } := by
  unfold profileAtPosition resolvedPhase resolvedInput
  rw [if_neg (by simp [h])]
  split <;> rename_i hp <;>
    simp [hp, h, dropCaptures, faultProfile, completeProfile, handProfile]

/-- The mass that is known when the weighing would begin: SCALE_FAULT, with the scale at fault or without a zero (R98). -/
def massAtPosition (w : Weigh) : Option MassResolution := if w.scaleFault || !w.established then some .scaleFault else none

/-- The weighing as it begins (R98). -/
def weighingBegun (c : CheckCfg) (w : Weigh) : Weigh :=
  { w with held := none, restarts := 0, window := [], weighing := !(w.scaleFault || !w.established)
           settle := if w.scaleFault || !w.established then none else some c.settleTimeout }

theorem startWeighing_weigh (s : State) : (startWeighing s).weigh = weighingBegun s.cfg.check s.weigh := by
  unfold startWeighing weighingBegun
  cases s.weigh.scaleFault || !s.weigh.established <;> simp [handMass]

theorem startWeighing_eval (s : State) :
    (startWeighing s).eval = s.eval.map fun e => { e with mass := massAtPosition s.weigh } := by
  unfold startWeighing massAtPosition
  cases s.weigh.scaleFault || !s.weigh.established <;> simp [handMass]

/-- The evaluation with the inputs that positioning resolves. -/
def begunEval (u : State) (ev : Evaluation) : Evaluation :=
  { ev with profile := resolvedInput u.prof ev.profile, mass := massAtPosition u.weigh }

/-- What the blocks of CHECK are at position with a record whose evaluation is `ev`: the record is at work on the inputs held,
or, where these are all resolved (the mass by SCALE_FAULT), evaluated at once (R74, R98, R115, R122). -/
structure CheckBegun (u t : State) (outs : List Entry) (e : Entry) (ev : Evaluation) : Prop where
  prof : t.prof = resolvedPhase u.prof
  reader : t.reader = if ev.tag = none then { u.reader with tagWait := some u.cfg.check.tagWait } else u.reader
  weigh : t.weigh = weighingBegun u.cfg.check u.weigh
  outcome :
    (t.eval = some (begunEval u ev) ∧
      t.table = outs ++ [{ e with state := .working, record := writeHeld ev e.record }]) ∨
    (massAtPosition u.weigh = some .scaleFault ∧ t.eval = none ∧ ∃ i, t.table = outs ++
      [{ e with state := .done, record := evaluated u.cfg.check i (writeHeld ev e.record) }])

theorem writeHeld_track (ev : Evaluation) (r : TravelRecord) : (writeHeld ev r).track = r.track := by
  unfold writeHeld
  cases ev.tag with
  | none => cases ev.manifest with
    | none => rfl
    | some m => cases m <;> rfl
  | some x => cases x <;> cases ev.manifest with
    | none => rfl
    | some m => cases m <;> rfl

/-- The work of CHECK as it begins, before an evaluation. -/
theorem beginCheck_begun {ev : Evaluation} (hT : u.table = outs ++ [e]) (ho : allOutbound outs) (he : e.state = .present)
    (hev : u.eval = some ev) : CheckBegun u (beginCheck (entered u)) outs e ev ∧
      (beginCheck (entered u)).eval = some (begunEval u ev) := by
  obtain ⟨hprof, heval⟩ := profileAtPosition_eq hev
  have hprof' : (entered u).prof = resolvedPhase u.prof := by simp [entered, hprof]
  have heval' : (entered u).eval = some { ev with profile := resolvedInput u.prof ev.profile } := by simp [entered, heval]
  have hT2 := entered_table hT ho he
  have heq : beginCheck (entered u) = startWeighing (startTagWait { ev with profile := resolvedInput u.prof ev.profile }
      (writeWorking (writeHeld ev) (entered u))) := by
    rw [beginCheck, heval']
    rfl
  have hval : (beginCheck (entered u)).eval = some (begunEval u ev) := by
    rw [heq, startWeighing_eval]
    simp [heval, entered, begunEval]
  refine ⟨⟨?_, ?_, ?_, .inl ⟨hval, ?_⟩⟩, hval⟩
  · rw [heq]
    simp [hprof']
  · rw [heq, startWeighing_reader, startTagWait]
    cases ev.tag <;> simp [entered]
  · rw [heq, startWeighing_weigh]
    simp [entered]
  · rw [heq, startWeighing_table, startTagWait_table, writeWorking_at_tail hT2 ho]
    rfl

/-- An evaluation at position, which only a mass that is SCALE_FAULT can let take place (R98, R122). -/
theorem checkBegun_evaluate {ev : Evaluation} {i : Inputs} {x : Entry} {v : State} (ho : allOutbound outs)
    (h : CheckBegun u v outs e ev) (hev : v.eval.isSome = true) (hm : massAtPosition u.weigh = some .scaleFault)
    (hc : v.cfg = u.cfg) : CheckBegun u (evaluate x i v) outs e ev := by
  have hT : v.table = outs ++ [{ e with state := .working, record := writeHeld ev e.record }] := by
    obtain ⟨-, hT⟩ | ⟨-, hnone, -⟩ := h.outcome
    · exact hT
    · simp [hnone] at hev
  have hf : (u.weigh.scaleFault || !u.weigh.established) = true := by
    by_contra hn
    simp [massAtPosition, hn] at hm
  refine ⟨by simp [h.prof], by simp [h.reader], ?_, .inr ⟨hm, by simp [evaluate], i, ?_⟩⟩
  · have : (evaluate x i v).weigh = { v.weigh with weighing := false, settle := none } := by simp [evaluate]
    rw [this, h.weigh]
    simp [weighingBegun, hf]
  · have hw := writeWorking_at_tail (u := v.setWeigh { v.weigh with weighing := false, settle := none })
      (f := evaluated v.cfg.check i) hT ho
    have hd := endWork_at_tail hw ho
    have : (evaluate x i v).table = (endWork (writeWorking (evaluated v.cfg.check i)
        (v.setWeigh { v.weigh with weighing := false, settle := none }))).table := by
      unfold evaluate
      rw [reportVerdict_table, State.setEval_table]
    rw [this, hd, hc]
    rfl

theorem checkBegun_atPosition {ev : Evaluation} (hT : u.table = outs ++ [e]) (ho : allOutbound outs)
    (he : e.state = .present) (hc : hasRole u .check = true) (hu : e.record.unknownOrigin = false) (hev : u.eval = some ev) :
    CheckBegun u (evalStep (workAfresh u)) outs e ev := by
  obtain ⟨hb, hval⟩ := beginCheck_begun hT ho he hev
  have hw : workAfresh u = beginCheck (entered u) := by
    have hr : (entered u).cfg.role = some .check := by simpa [entered, hasRole] using hc
    rw [workAfresh_of_present hT ho he, beginWork, hr]
    simp [hu]
  rw [hw]
  obtain ⟨ev', i, x, -, hev', hi, -, -, h⟩ | h := evalStep_cases (beginCheck (entered u))
  · rw [h]
    refine checkBegun_evaluate ho hb (by simp [hval]) ?_ (by simp [entered])
    have hmass : ev'.mass = massAtPosition u.weigh := by rw [hval] at hev'; simp [← Option.some.inj hev', begunEval]
    have hsome : massAtPosition u.weigh ≠ none := fun hn => by
      rw [inputsOf, hmass, hn] at hi
      split at hi <;> simp_all
    unfold massAtPosition at hsome ⊢
    split at hsome <;> simp_all
  · rw [h]
    exact hb

/-! ## The end of the event in STOPPED -/

/-- Where a record stands and the platform does not change, only the offering may cease or begin. -/
theorem settle_of_stopped (ha : active m = true) (hz : m.zone.zstate = .stopped) (hd : hasRole m .dispatch = false)
    (hp : works m .check = true → platformEmpty b = platformEmpty m) : settle b m = offerStep (stopOffering m) := by
  have hsame := sameCore_stopOffering m
  have hacc : accepting (stopOffering m) = false := accepting_false_of_zone (by simp [hz])
  have hperm : permitStep (stopOffering m) = stopOffering m :=
    permitStep_of (by rw [hsame.active, ha]) (permitSound_of_zone (by simp [hz])) fun _ => hacc
  have hwin := sameCore_offerStep (stopOffering m)
  rw [settle_active ha, hperm, routeStep_of_not_dispatch (by rw [hsame.role, hd]), slotStep_of fun _ => .inl hacc,
    windowStep_of fun hw => ?_]
  rw [hwin.works, hsame.works] at hw
  rw [hp hw, hwin.platformEmpty, hsame.platformEmpty]

theorem stopOffering_zone (m : State) : ∃ o, (stopOffering m).zone = { m.zone with offerTimer := o } := by
  obtain ⟨-, -, h⟩ | ⟨-, h⟩ := stopOffering_cases m
  · exact ⟨none, by rw [h]; simp⟩
  · exact ⟨m.zone.offerTimer, by rw [h]⟩

theorem offerStep_zone (m : State) : ∃ o, (offerStep m).zone = { m.zone with offerTimer := o } := by
  obtain ⟨_, -, -, -, h⟩ | ⟨-, h⟩ := offerStep_cases m
  · exact ⟨some m.cfg.timing.offerRepeat, by rw [h]; simp⟩
  · exact ⟨m.zone.offerTimer, by rw [h]⟩

/-- Its zone then differs in the repeat timer alone. -/
theorem offering_zone (m : State) : ∃ o, (offerStep (stopOffering m)).zone = { m.zone with offerTimer := o } := by
  obtain ⟨o, ho⟩ := stopOffering_zone m
  obtain ⟨o', ho'⟩ := offerStep_zone (stopOffering m)
  exact ⟨o', by rw [ho', ho]⟩

theorem onlyChanges_offering (m : State) : onlyChanges [.line, .zone] m (offerStep (stopOffering m)) := by
  intro k
  cases k <;> simp [Block.same]

end

end Sys2Proof.Machine
end

