-- ==== Proofs/Position.lean ====
section
/-! PROOF. The position eye completes positioning (O26); the route decided at DISPATCH (R168 to R172). -/

namespace Sys2Proof.Machine

section
variable {b s u m t : State} {outs : List Entry} {e : Entry}

/-! ## The entry behind the OUTBOUND ones -/

theorem eq_of_inZone {y : Entry} (hT : s.table = outs ++ [e]) (ho : allOutbound outs) (hy : y ∈ s.table)
    (hin : inZone y = true) : y = e := by
  rw [hT] at hy
  obtain hy | hy := List.mem_append.1 hy
  · simp [inZone_of_outbound (ho y hy)] at hin
  · exact List.mem_singleton.1 hy

theorem zoneEntry_of_tail (hT : s.table = outs ++ [e]) (ho : allOutbound outs) (hin : inZone e = true) :
    zoneEntry s = some e := by
  rw [zoneEntry_of_table hT ho]
  simp [hin]

theorem inZone_of_at_position {y : Entry} (h : y.state = .working ∨ y.state = .done) : inZone y = true :=
  inZone_iff.2 (by tauto)

/-- A write to the zone record alone. -/
theorem map_inZone (hT : s.table = outs ++ [e]) (ho : allOutbound outs) (hin : inZone e = true) (st : RecordState) :
    s.table.map (fun y => if inZone y then { y with state := st } else y) = outs ++ [{ e with state := st }] := by
  rw [hT, map_behind ho fun x hx => by simp [inZone_of_outbound hx]]
  simp [hin]

/-! ## The route decision -/

/-- The queue after the first decision: NOTICE NO_LANE where no lane matches, and nothing else (R168). -/
theorem fixExitClass_line {r : TravelRecord} {x : ExitClass} (hin : inService m = true)
    (hx : x = m.route.exitClass.getD (exitClassOf m.cfg.dispatch r)) :
    if m.route.exitClass = none ∧ x = .reject .noLane then
      roomFor 1 m = true → (fixExitClass r m).line =
        { m.line with tx := insertTx (freshTx (.notice (.noLane r.track r.duty r.laneClass))) m.line.tx }
    else (fixExitClass r m).line = m.line := by
  cases hc : m.route.exitClass with
  | some y => simp [fixExitClass, hc]
  | none =>
    rw [hc, Option.getD_none] at hx
    subst hx
    by_cases hno : exitClassOf m.cfg.dispatch r = .reject .noLane
    · rw [if_pos ⟨rfl, hno⟩]
      intro hroom
      have hq := queueFrame_room (f := .notice (.noLane r.track r.duty r.laneClass))
        (s := m.setRoute { m.route with exitClass := some (.reject .noLane) }) hin rfl
        (Nat.lt_of_succ_le (tx_of_roomFor hroom))
      simp [fixExitClass, hc, hno, notify, hq]
    · rw [if_neg (by simp [hno])]
      simp [fixExitClass, hc, hno]

/-- What the decision makes of the DONE record while the delivery conditions hold: delivery to the exit it finds, or the lane
wait (R169 to R172). -/
theorem routeStep_decides {x : ExitClass} (hT : m.table = outs ++ [e]) (ho : allOutbound outs) (he : e.state = .done)
    (hdel : delivering m = true) (hx : x = m.route.exitClass.getD (exitClassOf m.cfg.dispatch e.record)) :
    (routeStep m).line = (fixExitClass e.record m).line ∧
    (∀ exit ∈ chooseExit m.pins m.route.lastLane x,
      (routeStep m).route = { m.route with exitClass := some x, code := exit, laneWait := none, waitExpired := false } ∧
      (routeStep m).zone = { m.zone with zstate := .releasing, exitSeen := m.pins.eyeExit,
                                         releaseTimer := some m.cfg.timing.release } ∧
      (routeStep m).table = outs ++ [{ e with state := .releasing }]) ∧
    (chooseExit m.pins m.route.lastLane x = none →
      (routeStep m).route = { m.route with
        exitClass := some x, laneWait := if laneWaitOn m then m.route.laneWait else some m.cfg.dispatch.laneWait } ∧
      (routeStep m).zone = m.zone ∧ (routeStep m).table = m.table) := by
  have hroute : (fixExitClass e.record m).route = { m.route with exitClass := some x } := by rw [fixExitClass_route, hx]
  have hTf : (fixExitClass e.record m).table = outs ++ [e] := by simpa using hT
  have hfind : zoneEntryIn m .done = some e := by
    rw [zoneEntryIn_of_table hT ho (by decide)]
    simp [he]
  have hstep : routeStep m = watchLaneWait (decideRoute e.record m) := by
    simp [routeStep, (delivering_iff.1 hdel).1, hfind, hdel]
  rw [hstep]
  obtain ⟨x', exit, hx', hch, hdec⟩ | ⟨x', hx', hch, hdec⟩ := decideRoute_cases e.record m <;>
    obtain rfl : x = x' := by simpa [hroute] using hx'
  · have hTd : (startDelivery exit (fixExitClass e.record m)).table = outs ++ [{ e with state := .releasing }] := by
      rw [startDelivery_eq, State.setZone_table, State.setRoute_table, moveState_of_table hTf ho (by decide)]
      simp [he]
    have hlack : lacksExit (startDelivery exit (fixExitClass e.record m)) = false := by
      rw [lacksExit, zoneEntryIn_of_table hTd ho (by decide)]
      simp
    have hw : watchLaneWait (decideRoute e.record m) = dropLaneWait (startDelivery exit (fixExitClass e.record m)) := by
      rw [hdec, watchLaneWait, hlack]
      rfl
    rw [hw]
    refine ⟨by simp, fun exit' hex => ?_, fun hn => by simp [hn] at hch⟩
    obtain rfl : exit = exit' := by simpa [hch] using hex
    refine ⟨?_, ?_, by rw [dropLaneWait_table, hTd]⟩
    · simp [startDelivery_eq, hroute]
    · simp [startDelivery_eq]
  · have hlack : lacksExit (fixExitClass e.record m) = true := by
      have hfind' : zoneEntryIn (fixExitClass e.record m) .done = some e := by
        rw [zoneEntryIn_congr (s := m) (by simp), hfind]
      simp [lacksExit, hfind', hroute, hch]
    have hon : laneWaitOn (fixExitClass e.record m) = laneWaitOn m := by simp [laneWaitOn, hroute]
    rw [hdec, watchLaneWait, hlack, if_pos rfl, hon]
    refine ⟨by split <;> simp, fun exit' hex => by simp [hch] at hex, fun _ => ⟨?_, by split <;> simp, by split <;> simp⟩⟩
    cases laneWaitOn m <;> simp [hroute]

/-- Without the delivery conditions a DONE record stands as it is (R169, R171). -/
theorem routeStep_stands (hT : m.table = outs ++ [e]) (ho : allOutbound outs) (he : e.state = .done)
    (hdel : delivering m = false) : routeStep m = m := by
  have hfind : zoneEntryIn m .done = some e := by
    rw [zoneEntryIn_of_table hT ho (by decide)]
    simp [he]
  simp [routeStep, hfind, hdel]

/-- The delivery conditions for a DONE record in STOPPED: service and no hold (R169). -/
theorem delivering_of_tail (hT : m.table = outs ++ [e]) (ho : allOutbound outs) (he : e.state = .done)
    (hd : hasRole m .dispatch = true) (hz : m.zone.zstate = .stopped) :
    delivering m = true ↔ inService m = true ∧ m.zone.holds = [] := by
  have hfind : zoneEntryIn m .done = some e := by
    rw [zoneEntryIn_of_table hT ho (by decide)]
    simp [he]
  simp [delivering_iff, hd, hfind, hz, holdsEmpty]

/-- A decision leaves the zone or starts its release. -/
theorem routeStep_zone (m : State) : (routeStep m).zone.zstate = m.zone.zstate ∨ (routeStep m).zone.zstate = .releasing := by
  obtain h | ⟨-, h⟩ | ⟨e, -, -, h⟩ := routeStep_cases m
  · exact .inl (by rw [h])
  · exact .inl (by rw [h, dropLaneWait_zone])
  · rw [h, watchLaneWait_zone]
    obtain ⟨_, exit, -, -, hdec⟩ | ⟨_, -, -, hdec⟩ := decideRoute_cases e.record m
    · exact .inr (by rw [hdec]; rfl)
    · exact .inl (by rw [hdec, fixExitClass_zone])

/-- At DISPATCH, with a pallet in the zone, the end of the event is the route decision. -/
theorem settle_of_dispatch (ha : active m = true) (hd : hasRole m .dispatch = true) (hz : m.zone.zstate ≠ .empty) :
    settle b m = routeStep (stopOffering m) := by
  have hsame := sameCore_stopOffering m
  have hd' : hasRole (routeStep (stopOffering m)) .dispatch = true := by rw [hasRole_congr (s := m) (by simp), hd]
  have hacc : accepting (routeStep (stopOffering m)) = false := by
    obtain h | h := routeStep_zone (stopOffering m) <;> refine accepting_false_of_zone ?_ <;> rw [h]
    · rwa [hsame.zstate]
    · simp
  rw [settle_active ha, permitStep_of_role (check_false_of_dispatch (by rw [hsame.role, hd])),
    slotStep_of fun _ => .inl hacc, offerStep_of fun h => by simp [offering_false_of_dispatch hd'] at h,
    windowStep_of_works (by rw [works, check_false_of_dispatch hd', Bool.and_false])]

/-! ## The fields CHECK writes -/

theorem writeHeld_serial {ev : Evaluation} {r : TravelRecord} {ds : Digits} (h : readSerial ev.tag = some ds) :
    (writeHeld ev r).serial = some ds := by
  have htag : ev.tag = some (.serial ds) := by
    cases ht : ev.tag with
    | none => simp [ht, readSerial] at h
    | some x => cases x <;> simp_all [readSerial]
  simp only [writeHeld, htag]
  split <;> rfl

theorem writeHeld_manifest {ev : Evaluation} {r : TravelRecord} {mf : Manifest} (h : foundManifest ev.manifest = some mf) :
    holdsManifest mf (writeHeld ev r) := by
  have hm : ev.manifest = some (.found mf) := by
    cases ht : ev.manifest with
    | none => simp [ht, foundManifest] at h
    | some x => cases x <;> simp_all [foundManifest]
  simp [writeHeld, hm, holdsManifest, writeManifest]

/-- What was resolved before stands in the record (R76, R81). -/
theorem CheckBegun.record {ev : Evaluation} {y : Entry} (h : CheckBegun u t outs e ev) (ho : allOutbound outs)
    (hy : y ∈ t.table) (hin : inZone y = true) : (∀ ds ∈ readSerial ev.tag, y.record.serial = some ds) ∧
      (∀ mf ∈ foundManifest ev.manifest, holdsManifest mf y.record) := by
  obtain ⟨-, hT⟩ | ⟨-, -, i, hT⟩ := h.outcome <;> obtain rfl := eq_of_inZone hT ho hy hin
  · exact ⟨fun ds hds => writeHeld_serial hds, fun mf hm => writeHeld_manifest hm⟩
  · exact ⟨fun ds hds => writeHeld_serial hds, fun mf hm => writeHeld_manifest hm⟩

/-- The evaluation stays with its record or took place (R120, R122). -/
theorem CheckBegun.kept {ev : Evaluation} (h : CheckBegun u t outs e ev) (hev : u.eval = some ev)
    (htrack : ev.track = e.record.track) : EvalKept u t := by
  obtain ⟨heval, -⟩ | ⟨-, heval, i, hT⟩ := h.outcome
  · exact .inl (by simp [heval, hev, begunEval])
  · refine .inr ⟨heval, ev, hev, _, by rw [hT]; exact List.mem_append_right _ (List.mem_singleton.2 rfl), rfl, ?_, rfl⟩
    exact (writeHeld_track ev e.record).trans htrack.symm

/-- The inputs of the evaluation, where it still stands. -/
theorem CheckBegun.inputs {ev : Evaluation} {p : Evaluation → Bool} (h : CheckBegun u t outs e ev)
    (hp : p (begunEval u ev) = true) : t.eval.all p = true := by
  obtain ⟨heval, -⟩ | ⟨-, heval, -⟩ := h.outcome
  · simpa [heval] using hp
  · simp [heval]

/-! ## The position eye -/

/-- The pallet at position: the eye's level, and the zone STOPPED (R39). -/
def positioned (s : State) : State := stopAtPosition (s.setPins { s.pins with eyePos := true })

theorem exec_positionEyeBlocks (ha : active s = true) (hz : s.zone.zstate = .positioning) :
    exec .positionEyeBlocks s = .next (settle s (evalStep (workAfresh (positioned s)))) := by
  have hpc : positionComplete (s.setPins { s.pins with eyePos := true }) = workAfresh (positioned s) := rfl
  simp [exec, execPositionEyeBlocks, ha, hz, hpc]

theorem StationSound.positioning_of_zoneEntry (h : StationSound s) (hz : s.zone.zstate = .positioning)
    (he : zoneEntry s = some e) :
    ∃ outs, s.table = outs ++ [e] ∧ allOutbound outs ∧ (e.state = .present ∨ e.state = .done) := by
  obtain ⟨outs, tail, hT, ho, hfit⟩ := h.shape
  rw [hz, tailFits_positioning] at hfit
  obtain ⟨x, rfl, hx⟩ := hfit
  have : zoneEntry s = some x := zoneEntry_of_tail hT ho (inZone_iff.2 (by tauto))
  obtain rfl : e = x := by simpa [he] using this
  exact ⟨outs, hT, ho, hx⟩

/-- Elsewhere than at DISPATCH the end of the event changes the offering alone. -/
theorem settle_positioned (ha : active s = true) (hz : s.zone.zstate = .positioning) (hd : hasRole s .dispatch = false) :
    settle s (evalStep (workAfresh (positioned s))) =
      offerStep (stopOffering (evalStep (workAfresh (positioned s)))) := by
  refine settle_of_stopped (by rw [active_congr (s := s) (by simp [positioned, stopAtPosition]), ha])
    (by simp [positioned, stopAtPosition]) (by rw [hasRole_congr (s := s) (by simp [positioned, stopAtPosition]), hd])
    fun _ => ?_
  simp [platformEmpty, hz, positioned, stopAtPosition]

/-- The fields an arrival at position may change. -/
theorem onlyChanges_atPosition (u : State) :
    onlyChanges [.line, .table, .reader, .weigh, .prof, .eval, .wrap, .label, .free] u (evalStep (workAfresh u)) := by
  intro k
  cases k <;> simp [Block.same]

/-- What becomes of the record, by what it is and the role (R13, R39). -/
theorem atPosition_record (hT : u.table = outs ++ [e]) (ho : allOutbound outs) (he : e.state = .present ∨ e.state = .done)
    (h : e.state = .done ∨ e.record.unknownOrigin = true ∨ hasRole u .plain = true) :
    (evalStep (workAfresh u)).table = outs ++ [{ e with state := .done }] := by
  obtain he | he := he
  · refine atPosition_idle_table hT ho he ?_
    obtain h | h | h := h
    · simp [he] at h
    · exact .inl h
    · exact .inr ⟨hasRole_unique h (by decide), hasRole_unique h (by decide), hasRole_unique h (by decide)⟩
  · rw [atPosition_of_done hT ho he, hT, ← he]

/-- CHECK's part of the statement: what its blocks are with a record at position whose evaluation stands. -/
theorem check_at_position {ev : Evaluation} (ho : allOutbound outs) (ht : t.eval = m.eval)
    (hTt : t.table = m.table) (hprof : t.prof = m.prof) (hread : t.reader = m.reader) (hw : t.weigh = m.weigh)
    (h : CheckBegun (positioned s) m outs e ev) (hev : s.eval = some ev) (htrack : ev.track = e.record.track) :
    EvalKept s t ∧ t.prof.counter = s.prof.counter ∧ t.weigh.held = none ∧ t.weigh.restarts = 0 ∧
      t.weigh.window = [] ∧ t.weigh.lastGross = s.weigh.lastGross ∧
      t.reader = (if ev.tag = none then { s.reader with tagWait := some s.cfg.check.tagWait } else s.reader) ∧
      (∀ y ∈ t.table, inZone y = true → (∀ ds ∈ readSerial ev.tag, y.record.serial = some ds) ∧
        (∀ m ∈ foundManifest ev.manifest, holdsManifest m y.record)) ∧
      (s.weigh.scaleFault = true ∨ s.weigh.established = false → t.weigh.weighing = false ∧
        t.weigh.settle = none ∧ t.eval.all (fun w => w.mass = some .scaleFault) = true) ∧
      (s.prof.phase = .unarmed ∨ s.prof.phase = .armed → t.prof.phase = .faulted ∧
        t.eval.all (fun w => w.profile = some .profileFault) = true) ∧
      (∀ f ∈ s.prof.front, s.prof.phase = .inCurtain → t.prof.phase = .complete ∧
        t.eval.all (fun w => w.profile = some (.complete {
          top := s.prof.top.getD 0, height := 125 + 50 * s.prof.top.getD 0
          length := max 5 ((s.prof.counter - f).toNat * 5), gaps := s.prof.gaps, overrun := false })) = true) ∧
      (s.prof.phase = .complete ∨ s.prof.phase = .faulted ∨ s.prof.phase = .none →
        t.prof.phase = s.prof.phase ∧ t.eval.all (fun w => w.profile = ev.profile) = true) := by
  rw [hprof, hread, hw, h.prof, h.reader, h.weigh, ht, hTt]
  have hin : ∀ p : Evaluation → Bool, p (begunEval s ev) = true → m.eval.all p = true := fun p hp => h.inputs hp
  have hkept : EvalKept s t := by
    have hk := h.kept hev htrack
    rwa [EvalKept, ← ht, ← hTt] at hk
  refine ⟨hkept, ?_, rfl, rfl, rfl, rfl, rfl, fun y hy => h.record ho hy, fun hf => ?_, fun hp => ?_, fun f hf hp => ?_,
    fun hp => ?_⟩
  · simp only [resolvedPhase]
    split <;> rfl
  · have hf' : (s.weigh.scaleFault || !s.weigh.established) = true := by simpa using hf
    refine ⟨?_, ?_, hin _ (by simp [begunEval, massAtPosition, hf'])⟩
    · simp only [weighingBegun, positioned, stopAtPosition, State.setZone_weigh, State.setPins_weigh, hf', Bool.not_true]
    · simp only [weighingBegun, positioned, stopAtPosition, State.setZone_weigh, State.setPins_weigh, hf', if_true]
  · refine ⟨?_, hin _ ?_⟩ <;> obtain hp | hp := hp <;>
      simp [begunEval, resolvedPhase, resolvedInput, positioned, stopAtPosition, hp]
  · have hf : s.prof.front = some f := hf
    refine ⟨?_, hin _ ?_⟩
    · simp [resolvedPhase, positioned, stopAtPosition, hp]
    · simp [begunEval, resolvedInput, hp, hf, stepsFrom, beamHeight]
  · refine ⟨?_, hin _ ?_⟩ <;> obtain hp | hp | hp := hp <;>
      simp [begunEval, resolvedPhase, resolvedInput, positioned, stopAtPosition, hp]

/-- At DISPATCH the record found at position is DONE, and nothing else changes (R39). -/
theorem dispatch_stands (hT : u.table = outs ++ [e]) (ho : allOutbound outs) (he : e.state = .present ∨ e.state = .done)
    (hd : hasRole u .dispatch = true) :
    (evalStep (workAfresh u)).table = outs ++ [{ e with state := .done }] ∧ (evalStep (workAfresh u)).line = u.line := by
  obtain he | he := he
  · refine ⟨atPosition_idle_table hT ho he (.inr ⟨hasRole_unique hd (by decide), hasRole_unique hd (by decide),
      hasRole_unique hd (by decide)⟩), ?_⟩
    rw [atPosition_of_dispatch hT ho he hd]
    simp [entered]
  · rw [atPosition_of_done hT ho he, ← he]
    exact ⟨hT, rfl⟩

theorem dispatch_at_position (hT : s.table = outs ++ [e]) (ho : allOutbound outs) (he : e.state = .present ∨ e.state = .done)
    (hd : hasRole s .dispatch = true) :
    (evalStep (workAfresh (positioned s))).table = outs ++ [{ e with state := .done }] ∧
    (evalStep (workAfresh (positioned s))).line = s.line ∧
    (evalStep (workAfresh (positioned s))).route = s.route ∧
    (evalStep (workAfresh (positioned s))).zone = { s.zone with zstate := .stopped, positionTimer := none } := by
  obtain ⟨hT', hl⟩ := dispatch_stands (u := positioned s) hT ho he hd
  exact ⟨hT', hl, by simp [positioned, stopAtPosition], by simp [positioned, stopAtPosition]⟩

/-- The statement's words on DISPATCH: the decision while the delivery conditions hold, else a record that stands DONE. -/
theorem dispatch_decides {x : ExitClass} (hT : s.table = outs ++ [e]) (ho : allOutbound outs)
    (he : e.state = .present ∨ e.state = .done) (ha : active s = true) (hd : hasRole s .dispatch = true)
    (hx : x = s.route.exitClass.getD (exitClassOf s.cfg.dispatch e.record))
    (ht : t = routeStep (evalStep (workAfresh (positioned s)))) :
    if inService s = true ∧ s.zone.holds = [] then
      t.route.exitClass = some x ∧
      (if s.route.exitClass = none ∧ x = .reject .noLane then
         roomFor 1 s = true → t.line = { s.line with tx := insertTx (freshTx (.notice
           (.noLane e.record.track e.record.duty e.record.laneClass))) s.line.tx }
       else t.line = s.line) ∧
      (∀ exit ∈ chooseExit s.pins s.route.lastLane x,
        t.route = { s.route with exitClass := some x, code := exit, laneWait := none, waitExpired := false } ∧
        t.zone = { s.zone with zstate := .releasing, exitSeen := s.pins.eyeExit, positionTimer := none,
                               releaseTimer := some s.cfg.timing.release } ∧
        drive t = (!s.pins.safe) ∧
        t.table = s.table.map (fun y => if inZone y then { y with state := .releasing } else y)) ∧
      (chooseExit s.pins s.route.lastLane x = none →
        t.zone = { s.zone with zstate := .stopped, positionTimer := none } ∧
        (laneWaitOn s = false → t.route = { s.route with
          exitClass := some x, laneWait := some s.cfg.dispatch.laneWait }) ∧
        t.table = s.table.map (fun y => if inZone y then { y with state := .done } else y))
    else
      t.route = s.route ∧ t.zone = { s.zone with zstate := .stopped, positionTimer := none } ∧ t.line = s.line ∧
      t.table = s.table.map (fun y => if inZone y then { y with state := .done } else y) := by
  obtain ⟨hTm, hlm, hrm, hzm⟩ := dispatch_at_position hT ho he hd
  have hin : inZone e = true := inZone_iff.2 (by tauto)
  set m := evalStep (workAfresh (positioned s)) with hm
  have hdm : hasRole m .dispatch = true := by rw [hasRole_congr (s := s) (by simp [hm, positioned, stopAtPosition]), hd]
  have hsv : m.service = s.service := by simp [hm, positioned, stopAtPosition]
  have hcfg : m.cfg = s.cfg := by simp [hm, positioned, stopAtPosition]
  have hpins : m.pins = { s.pins with eyePos := true } := by simp [hm, positioned, stopAtPosition]
  have hch : chooseExit m.pins = chooseExit s.pins := by rw [hpins]; exact chooseExit_congr rfl rfl rfl rfl rfl
  have hdel := delivering_of_tail hTm ho rfl hdm (by rw [hzm])
  rw [inService_congr hsv, hzm] at hdel
  rw [map_inZone hT ho hin, map_inZone hT ho hin]
  split
  · rename_i hc
    obtain ⟨hline, hgo, hwait⟩ := routeStep_decides hTm ho rfl (hdel.2 hc) (x := x) (by rw [hrm, hcfg, hx])
    rw [← ht, hch, hrm] at hgo hwait
    rw [hpins, hzm, hcfg] at hgo
    rw [hcfg, hzm, hTm] at hwait
    rw [← ht] at hline
    have hlane : laneWaitOn m = laneWaitOn s := by simp [laneWaitOn, hrm]
    have hfix := fixExitClass_line (m := m) (r := e.record) (x := x) (by rw [inService_congr hsv, hc.1])
      (by rw [hrm, hcfg, hx])
    rw [roomFor, hrm, hlm, ← hline] at hfix
    refine ⟨?_, hfix, fun exit hex => ?_, fun hnone => ?_⟩
    · cases hce : chooseExit s.pins s.route.lastLane x with
      | none => rw [(hwait hce).1]
      | some exit => rw [(hgo exit hce).1]
    · obtain ⟨hr, hz, hT'⟩ := hgo exit hex
      refine ⟨hr, hz, ?_, hT'⟩
      have hact : active t = true := by rw [ht, active_congr (s := s) (by simpa using hsv), ha]
      have hp : t.pins.safe = s.pins.safe := by rw [ht, routeStep_pins, hpins]
      simp [drive, hact, halted, hp, hz, safetyFrom, holdOf, hc.2]
    · obtain ⟨hr, hz, hT'⟩ := hwait hnone
      exact ⟨hz, fun hoff => by rw [hr, hlane, hoff]; rfl, hT'⟩
  · rename_i hc
    have hno : delivering m = false := by rwa [← Bool.not_eq_true, hdel]
    rw [ht, routeStep_stands hTm ho rfl hno]
    exact ⟨hrm, hzm, hlm, hTm⟩

/-- O26 where the record is offered on. -/
theorem positionEye_offers (hT : s.table = outs ++ [e]) (ho : allOutbound outs) (he : e.state = .present ∨ e.state = .done)
    (ht : t = offerStep (stopOffering (evalStep (workAfresh (positioned s))))) :
    t.pins = { s.pins with eyePos := true } ∧
    onlyChanges [.pins, .line, .table, .zone, .store, .reader, .weigh, .prof, .eval, .wrap, .label, .route, .free] s t ∧
    t.zone.positionTimer = none ∧ t.trackSeq = s.trackSeq ∧ t.zone.zstate = .stopped ∧
    (∀ y ∈ t.table, inZone y = true → y.record.track = e.record.track) ∧ (zoneEntry t).isSome = true := by
  obtain ⟨outs', y, hTm, ho', htrack, hy⟩ := atPosition_tail (u := positioned s) hT ho he
  set m := evalStep (workAfresh (positioned s)) with hm
  obtain ⟨o, hz⟩ := offering_zone m
  have hTt : t.table = outs' ++ [y] := by rw [ht]; simpa using hTm
  have hs : onlyChanges [.pins, .zone] s (positioned s) := by
    intro k
    cases k <;> simp [Block.same, positioned, stopAtPosition]
  refine ⟨by rw [ht]; simp [hm, positioned, stopAtPosition], ?_, by rw [ht, hz]; simp [hm, positioned, stopAtPosition],
    by rw [ht]; simp [hm, positioned, stopAtPosition], by rw [ht, hz]; simp [hm, positioned, stopAtPosition],
    fun z hmem hin => eq_of_inZone hTt ho' hmem hin ▸ htrack, by
      rw [zoneEntry_of_tail hTt ho' (inZone_of_at_position hy)]; rfl⟩
  rw [ht]
  refine onlyChanges.trans (onlyChanges.trans hs (onlyChanges_atPosition (positioned s)) (ds := [.pins, .line, .table, .zone,
    .store, .reader, .weigh, .prof, .eval, .wrap, .label, .route, .free]) ?_ ?_) (onlyChanges_offering m) ?_ ?_ <;> decide

/-- O26 where the record is offered on: what the role and the record give it. -/
theorem positionEye_work (hT : s.table = outs ++ [e]) (ho : allOutbound outs) (he : e.state = .present ∨ e.state = .done)
    (ht : t = offerStep (stopOffering (evalStep (workAfresh (positioned s))))) {y : Entry} (hy : y ∈ t.table)
    (hin : inZone y = true) (h : e.state = .done ∨ e.record.unknownOrigin = true ∨ hasRole s .plain = true) :
    y.state = .done ∧ y.record = e.record := by
  have hrec := atPosition_record (u := positioned s) hT ho he h
  have hTt : t.table = outs ++ [{ e with state := .done }] := by rw [ht]; simpa using hrec
  obtain rfl := eq_of_inZone hTt ho hy hin
  exact ⟨rfl, rfl⟩

/-- A weighing that can begin keeps the record at work (R98, R122). -/
theorem positionEye_weighs {ev : Evaluation} (ho : allOutbound outs) (h : CheckBegun (positioned s) m outs e ev)
    (hf : s.weigh.scaleFault = false) (hz : s.weigh.established = true) {y : Entry} (hy : y ∈ m.table)
    (hin : inZone y = true) : y.state = .working ∧ m.weigh.weighing = true ∧
      m.weigh.settle = some s.cfg.check.settleTimeout ∧ m.weigh.window = [] := by
  have hw : m.weigh = weighingBegun s.cfg.check s.weigh := h.weigh
  obtain ⟨-, hT⟩ | ⟨hmass, -⟩ := h.outcome
  · obtain rfl := eq_of_inZone hT ho hy hin
    exact ⟨rfl, by simp [hw, weighingBegun, hf, hz], by simp [hw, weighingBegun, hf, hz], by simp [hw, weighingBegun]⟩
  · simp [massAtPosition, positioned, stopAtPosition, hf, hz] at hmass

/-- A DONE record stays in the zone through the route decision, whatever comes of it. -/
theorem routeStep_tail (hT : m.table = outs ++ [e]) (ho : allOutbound outs) (he : e.state = .done) :
    ∃ st, (routeStep m).table = outs ++ [{ e with state := st }] ∧ (st = .done ∨ st = .releasing) ∧
      (routeStep m).zone.positionTimer = m.zone.positionTimer := by
  cases hdel : delivering m
  · rw [routeStep_stands hT ho he hdel]
    exact ⟨.done, by rw [hT, ← he], .inl rfl, rfl⟩
  · obtain ⟨-, hgo, hwait⟩ := routeStep_decides hT ho he hdel rfl
    cases hch : chooseExit m.pins m.route.lastLane (m.route.exitClass.getD (exitClassOf m.cfg.dispatch e.record)) with
    | none =>
      obtain ⟨-, hz, hT'⟩ := hwait hch
      exact ⟨.done, by rw [hT', hT, ← he], .inl rfl, by rw [hz]⟩
    | some exit =>
      obtain ⟨-, hz, hT'⟩ := hgo exit hch
      exact ⟨.releasing, hT', .inr rfl, by rw [hz]⟩

/-- O26 at DISPATCH, but for the decision. -/
theorem positionEye_dispatch (hT : s.table = outs ++ [e]) (ho : allOutbound outs) (he : e.state = .present ∨ e.state = .done)
    (hd : hasRole s .dispatch = true) (ht : t = routeStep (evalStep (workAfresh (positioned s)))) :
    t.pins = { s.pins with eyePos := true } ∧
    onlyChanges [.pins, .line, .table, .zone, .store, .reader, .weigh, .prof, .eval, .wrap, .label, .route, .free] s t ∧
    t.zone.positionTimer = none ∧ t.trackSeq = s.trackSeq ∧
    (∀ y ∈ t.table, inZone y = true → y.record.track = e.record.track) ∧ (zoneEntry t).isSome = true := by
  obtain ⟨hTm, -, -, hzm⟩ := dispatch_at_position hT ho he hd
  obtain ⟨st, hTt, hst, hpos⟩ := routeStep_tail hTm ho rfl
  rw [← ht] at hTt hpos
  have hin : inZone { e with state := st } = true := inZone_iff.2 (by obtain rfl | rfl := hst <;> simp)
  refine ⟨by rw [ht]; simp [positioned, stopAtPosition], ?_, by rw [hpos, hzm], by rw [ht]; simp [positioned, stopAtPosition],
    fun y hy hin => ?_, by rw [zoneEntry_of_tail hTt ho hin]; rfl⟩
  · rw [ht]
    intro k
    cases k <;> simp [Block.same, positioned, stopAtPosition]
  · obtain rfl := eq_of_inZone hTt ho hy hin
    rfl

/-- The end of the event at DISPATCH is the route decision. -/
theorem settle_positioned_dispatch (hset : Settled s) (ha : active s = true) (hz : s.zone.zstate = .positioning)
    (hd : hasRole s .dispatch = true) : settle s (evalStep (workAfresh (positioned s))) =
      routeStep (evalStep (workAfresh (positioned s))) := by
  rw [settle_of_dispatch (by rw [active_congr (s := s) (by simp [positioned, stopAtPosition]), ha])
    (by rw [hasRole_congr (s := s) (by simp [positioned, stopAtPosition]), hd]) (by simp [positioned, stopAtPosition]),
    stopOffering_of fun h => ?_]
  have htimer := timer_of_not_offering hset.1 (offering_false_of_zone (by simp [hz]))
  simp [positioned, stopAtPosition, htimer] at h

/-- O26 elsewhere than at DISPATCH. -/
theorem positionEye_elsewhere (hT : s.table = outs ++ [e]) (ho : allOutbound outs)
    (he : e.state = .present ∨ e.state = .done)
    (ht : t = offerStep (stopOffering (evalStep (workAfresh (positioned s))))) :
    (∀ y ∈ t.table, inZone y = true → y.record.track = e.record.track ∧
      (e.state = .done ∨ e.record.unknownOrigin = true → hasRole s .dispatch = false →
        y.state = .done ∧ y.record = e.record) ∧
      (e.state = .present → hasRole s .plain = true → y.state = .done ∧ y.record = e.record) ∧
      (e.state = .present → e.record.unknownOrigin = false → hasRole s .check = true → s.eval.isSome = true →
        s.eval.all (fun ev => ev.mass.isNone && ev.track = e.record.track) = true →
        s.weigh.scaleFault = false → s.weigh.established = true →
          y.state = .working ∧ t.weigh.weighing = true ∧ t.weigh.settle = some s.cfg.check.settleTimeout ∧
          t.weigh.window = [])) := by
  intro y hy hin
  obtain ⟨-, -, -, -, -, htrack, -⟩ := positionEye_offers hT ho he ht
  refine ⟨htrack y hy hin, fun h _ => ?_, fun _ h => ?_, fun h1 h2 h3 h4 _ h6 h7 => ?_⟩
  · exact positionEye_work hT ho he ht hy hin (by tauto)
  · exact positionEye_work hT ho he ht hy hin (.inr (.inr h))
  · obtain ⟨ev, hev⟩ := Option.isSome_iff_exists.1 h4
    rw [ht, offerStep_table, stopOffering_table] at hy
    rw [ht, offerStep_weigh, stopOffering_weigh]
    exact positionEye_weighs ho (checkBegun_atPosition (u := positioned s) hT ho h1 h3 h2 hev) h6 h7 hy hin

/-- Settles O26: at DISPATCH by the route decision, elsewhere by what the role's work makes of the record. -/
theorem positionEyeBeginsTheWork : Obligations.PositionEyeBeginsTheWork := by
  intro s e x hs hset ha hz he hx
  obtain ⟨outs, hT, ho, hst⟩ := hs.positioning_of_zoneEntry hz he
  obtain ⟨t, ht⟩ : ∃ t, t = settle s (evalStep (workAfresh (positioned s))) := ⟨_, rfl⟩
  refine ⟨t, by rw [exec_positionEyeBlocks ha hz, ht], ?_⟩
  cases hd : hasRole s .dispatch
  · rw [settle_positioned ha hz hd] at ht
    obtain ⟨hpins, honly, htimer, hseq, hzone, -, hsome⟩ := positionEye_offers hT ho hst ht
    have hwork := positionEye_elsewhere hT ho hst ht
    rw [hd] at hwork
    refine ⟨hpins, honly, htimer, hseq, fun _ => hzone, hwork, hsome, fun h1 h2 h3 ev hev htr => ?_,
      fun h => by simp at h⟩
    exact check_at_position (m := evalStep (workAfresh (positioned s))) ho (by simp [ht]) (by simp [ht]) (by simp [ht])
      (by simp [ht]) (by simp [ht]) (checkBegun_atPosition hT ho h1 h3 h2 hev) hev htr
  · rw [settle_positioned_dispatch hset ha hz hd] at ht
    obtain ⟨hpins, honly, htimer, hseq, htrack, hsome⟩ := positionEye_dispatch hT ho hst hd ht
    have hnot : ∀ r, r ≠ Role.dispatch → hasRole s r ≠ true := fun r hr h => by
      simp [hasRole_unique h hr] at hd
    exact ⟨hpins, honly, htimer, hseq, fun h => by simp at h,
      fun y hy hin => ⟨htrack y hy hin, fun _ h => by simp at h, fun _ h => absurd h (hnot .plain (by decide)),
        fun _ _ h => absurd h (hnot .check (by decide))⟩,
      hsome, fun _ _ h => absurd h (hnot .check (by decide)), fun _ => dispatch_decides hT ho hst ha hd hx ht⟩

end

end Sys2Proof.Machine
end

