-- ==== Proofs/WorkBegins.lean ====
section
/-! PROOF. The work of WRAP and LABEL as it begins (R137, R150), and what stays in the transmit queue when more is queued. -/

namespace Sys2Proof.Machine

section
variable {b s u m t : State} {outs : List Entry} {e : Entry}

/-! ## WRAP and LABEL at position -/

theorem spendFree_written (h : Bool) (w : WrapSeq) (s : State) : (spendFree h (s.setWrap w)).wrap = w := by simp

theorem wrapStep_attempt (s : State) : (wrapStep s).wrap.attempt = s.wrap.attempt := by
  obtain ⟨-, h⟩ | ⟨-, h⟩ := wrapStep_cases s <;> simp [h]

theorem labelStep_attempt (s : State) : (labelStep s).label.attempt = s.label.attempt := by
  obtain ⟨-, h⟩ | ⟨-, h⟩ := labelStep_cases s
  · rw [h]
    unfold startPrint
    cases s.label.label <;> simp [sendEngine]
  · rw [h]

/-- The record's work ends with a field written. -/
theorem endWork_writeWorking {f : TravelRecord → TravelRecord} (hT : u.table = outs ++ [e]) (ho : allOutbound outs)
    (he : e.state = .working) : (endWork (writeWorking f u)).table =
      outs ++ [{ e with record := f e.record, state := .done }] := by
  rw [endWork_at_tail (writeWorking_at_tail hT ho) ho, if_pos he]
  simp [he]

/-- A record at WRAP is kept with its verdict, wrapped, or skipped (R137). -/
theorem atPosition_wrap (hT : u.table = outs ++ [e]) (ho : allOutbound outs) (he : e.state = .present)
    (hw : hasRole u .wrap = true) (hu : e.record.unknownOrigin = false) :
    if e.record.wrap.isSome then (evalStep (workAfresh u)).table = outs ++ [{ e with state := .done }]
    else if e.record.check = some .pass then (evalStep (workAfresh u)).table = outs ++ [{ e with state := .working }] ∧
      (evalStep (workAfresh u)).wrap.attempt = 1
    else (evalStep (workAfresh u)).table =
      outs ++ [{ e with record := { e.record with wrap := some .skipped }, state := .done }] := by
  have hr : (entered u).cfg.role = some .wrap := by simpa [entered, hasRole] using hw
  have hc : hasRole (wrapStep (beginWrap e.record (entered u))) .check = false := by simp [hasRole, hr]
  have hT2 := entered_table hT ho he
  have heq : evalStep (workAfresh u) = wrapStep (beginWrap e.record (entered u)) := by
    rw [workAfresh_of_present hT ho he, beginWork, hr]
    simp only [hu, Bool.false_eq_true, if_false]
    exact evalStep_of_role hc
  rw [heq, wrapStep_table, wrapStep_attempt]
  unfold beginWrap
  split
  · rw [endWork_at_tail hT2 ho]
    rfl
  · by_cases hp : e.record.check = some .pass
    · rw [if_pos hp, if_neg (by simp [hp])]
      exact ⟨by simpa using hT2, by simp⟩
    · rw [if_neg hp, if_pos (by simp [hp]), wrapDone, endWork_writeWorking hT2 ho rfl]

/-- A record at LABEL is kept with its verdict, labelled, or skipped (R150). -/
theorem atPosition_label (hT : u.table = outs ++ [e]) (ho : allOutbound outs) (he : e.state = .present)
    (hl : hasRole u .label = true) (hu : e.record.unknownOrigin = false) :
    if e.record.label.isSome then (evalStep (workAfresh u)).table = outs ++ [{ e with state := .done }]
    else if e.record.check = some .pass ∧ isWrapped e.record.wrap = true then
      (evalStep (workAfresh u)).table = outs ++ [{ e with state := .working }] ∧
        (evalStep (workAfresh u)).label.attempt = 1
    else (evalStep (workAfresh u)).table =
      outs ++ [{ e with record := { e.record with label := some .skipped }, state := .done }] := by
  have hr : (entered u).cfg.role = some .label := by simpa [entered, hasRole] using hl
  have hc : hasRole (labelStep (beginLabel e.record (entered u))) .check = false := by simp [hasRole, hr]
  have hT2 := entered_table hT ho he
  have heq : evalStep (workAfresh u) = labelStep (beginLabel e.record (entered u)) := by
    rw [workAfresh_of_present hT ho he, beginWork, hr]
    simp only [hu, Bool.false_eq_true, if_false]
    exact evalStep_of_role hc
  rw [heq, labelStep_table, labelStep_attempt]
  unfold beginLabel
  split
  · rw [endWork_at_tail hT2 ho]
    rfl
  · by_cases hp : e.record.check = some .pass ∧ isWrapped e.record.wrap = true
    · rw [if_pos hp, if_neg (by simp [hp])]
      exact ⟨by simpa using hT2, by simp⟩
    · rw [if_neg hp, if_pos (by simpa [imp_iff_not_or] using hp), labelDone, endWork_writeWorking hT2 ho rfl]

/-! ## The queue as more is queued -/

/-- With room, whatever is queued leaves the frames that are no OFFER. -/
theorem queued_queueFrame_room {f g : TxFrame} (hf : offerTrack f = none) (hroom : s.line.tx.length < 8)
    (h : queued f s = true) : queued f (queueFrame g s) = true := by
  rw [queued_iff] at h ⊢
  obtain ⟨x, hx, hxf⟩ := h
  refine ⟨x, ?_, hxf⟩
  rw [queueFrame_line]
  split
  · obtain ⟨-, hp⟩ | ⟨-, -, hp⟩ | ⟨-, hfull, -⟩ | ⟨-, hfull, -⟩ := pushFrame_cases g s.line
    · rw [hp]
      exact List.mem_map.2 ⟨x, hx, by simp [hxf, hf]⟩
    · rw [hp]
      simp [hx]
    all_goals simp [Config.txCapacity] at hfull; omega
  · exact hx

theorem queued_offerStep {f : TxFrame} (hf : offerTrack f = none) (hroom : m.line.tx.length < 8) (h : queued f m = true) :
    queued f (offerStep m) = true := by
  obtain ⟨x, -, -, -, hs⟩ | ⟨-, hs⟩ := offerStep_cases m
  · rw [hs]
    exact queued_queueFrame_room (s := m.setZone _) hf hroom h
  · rwa [hs]

/-- An evaluation queues the notice of a FAIL, and nothing else (R135). -/
theorem evaluate_cases (x : Entry) (i : Inputs) (s : State) : ∃ v : State, v.line = s.line ∧
    (evaluate x i s = v ∨ ∃ p, evaluate x i s = notify (.checkFailed x.record.track p) v) := by
  refine ⟨(endWork (writeWorking (evaluated s.cfg.check i)
    (s.setWeigh { s.weigh with weighing := false, settle := none }))).setEval none, by simp, ?_⟩
  unfold evaluate
  cases verdictOf (failSet s.cfg.check x.record i) with
  | pass => exact .inl rfl
  | fail p _ => exact .inr ⟨p, rfl⟩

theorem evalStep_length_le (s : State) : (evalStep s).line.tx.length ≤ s.line.tx.length + 1 := by
  obtain ⟨_, i, x, -, -, -, -, -, h⟩ | h := evalStep_cases s
  · obtain ⟨v, hl, hv | ⟨p, hv⟩⟩ := evaluate_cases x i s <;> rw [h, hv, ← hl]
    · omega
    · exact queueFrame_length_le _ _
  · rw [h]
    omega

theorem queued_evalStep {f : TxFrame} (hf : offerTrack f = none) (hroom : s.line.tx.length < 8) (h : queued f s = true) :
    queued f (evalStep s) = true := by
  obtain ⟨_, i, x, -, -, -, -, -, he⟩ | he := evalStep_cases s
  · obtain ⟨v, hl, hv | ⟨p, hv⟩⟩ := evaluate_cases x i s <;> rw [he, hv]
    · rwa [queued_congr hl]
    · exact queued_queueFrame_room hf (by rwa [hl]) (by rwa [queued_congr hl])
  · rwa [he]

theorem mem_dropYoungest {c : Nat} {q : List TxEntry} {x : TxEntry} (h : x ∈ dropYoungest c q) : x ∈ q := by
  simpa using List.mem_of_mem_eraseP (List.mem_reverse.1 h)

/-- What holds of every queued frame, and of a new one, holds of them all when that is queued. -/
theorem all_queueFrame {p : TxEntry → Bool} {f : TxFrame} (hf : offerTrack f = none) (hp : p (freshTx f) = true)
    (h : ∀ x ∈ s.line.tx, p x = true) : ∀ x ∈ (queueFrame f s).line.tx, p x = true := by
  intro x hx
  rw [queueFrame_line] at hx
  split at hx
  · obtain ⟨hno, -⟩ | ⟨-, -, he⟩ | ⟨-, -, -, he⟩ | ⟨-, -, -, he⟩ := pushFrame_cases f s.line
    · simp [holdsOffer_of_not_offer hf] at hno
    · rw [he] at hx
      obtain rfl | hx := by simpa using hx
      · exact hp
      · exact h x hx
    · rw [he] at hx
      obtain rfl | hx := by simpa [markTxOverrun] using hx
      · exact hp
      · exact h x (mem_dropYoungest hx)
    · rw [he] at hx
      exact h x (by simpa [markTxOverrun] using hx)
  · exact h x hx

/-- A withdrawal leaves what holds of every queued frame, if it does not depend on the marks of a withdrawal. -/
theorem all_withdrawFrames {p : TxEntry → Bool} {q : TxFrame → Bool}
    (hp : ∀ x, p x = true → p { x with withdrawn := true, stays := false } = true)
    (h : ∀ x ∈ s.line.tx, p x = true) : ∀ x ∈ (withdrawFrames q s).line.tx, p x = true := by
  intro x hx
  obtain ⟨y, hy, hw⟩ := List.mem_filterMap.1 hx
  unfold withdrawEntry at hw
  split at hw
  · split at hw
    · obtain rfl := Option.some.inj hw
      exact hp y (h y hy)
    · simp at hw
  · obtain rfl := Option.some.inj hw
    exact h y hy

theorem all_stopOffering {p : TxEntry → Bool} (hp : ∀ x, p x = true → p { x with withdrawn := true, stays := false } = true)
    (h : ∀ x ∈ m.line.tx, p x = true) : ∀ x ∈ (stopOffering m).line.tx, p x = true := by
  obtain ⟨-, -, hs⟩ | ⟨-, hs⟩ := stopOffering_cases m
  · rw [hs]
    exact all_withdrawFrames (s := m.setZone _) hp h
  · rwa [hs]

/-- A frame that is withdrawn is not queued but in the attempt under way. -/
theorem withdrawn_all {f : TxFrame} (s : State) : ∀ x ∈ (withdrawFrames (fun g => g = f) s).line.tx,
    (x.inAttempt || x.frame != f) = true := by
  intro x hx
  obtain ⟨y, -, hw⟩ := List.mem_filterMap.1 hx
  unfold withdrawEntry at hw
  split at hw
  · split at hw
    · obtain rfl := Option.some.inj hw
      simp [*]
    · simp at hw
  · rename_i hne
    obtain rfl := Option.some.inj hw
    have : y.frame ≠ f := by simpa using hne
    simp [this]

end

end Sys2Proof.Machine
end

