-- ==== Proofs/Acknowledge.lean ====
section
/-! PROOF. The acknowledge of a jam whose zone is found clear (R43), and of one whose movement goes on (R45), for O29. -/

namespace Sys2Proof.Machine

section
variable {b s u v m t : State} {outs : List Entry} {e : Entry}

theorem StationSound.jammed_of_zoneEntry (h : StationSound s) (hz : s.zone.zstate = .jammed) (he : zoneEntry s = some e) :
    ∃ outs, s.table = outs ++ [e] ∧ allOutbound outs ∧
      (e.state = .present ∨ e.state = .done ∨ e.state = .releasing) := by
  obtain ⟨outs, x, hT, ho, hx⟩ := h.shape_jammed hz
  have : zoneEntry s = some x := zoneEntry_of_tail hT ho (inZone_iff.2 (by tauto))
  obtain rfl : e = x := by simpa [he] using this
  exact ⟨outs, hT, ho, hx⟩

theorem exec_ackPress (hin : inService s = true) (hz : s.zone.zstate = .jammed) : exec .ackPress s = .next (settle s
    (if eyesClear s.pins then ackAllClear s
     else if s.pins.eyePos then evalStep (ackAtPosition s) else ackElsewhere s)) := by
  simp [exec, execAckPress, hin, hz]

/-! ## The zone found clear -/

/-- The zone, vacated, before its notices. -/
def vacated (s : State) : State := setZoneState .empty (removeZoneRecord (dropRoleWork s))

theorem ackAllClear_of_zoneEntry (he : zoneEntry s = some e) :
    ackAllClear s = clearJam none (lostIfReleasing e (vacated s)) := by simp [ackAllClear, he, vacated]

theorem endRequest_length_le (s : State) : (endRequest s).line.tx.length ≤ s.line.tx.length := by
  unfold endRequest
  split
  · exact withdrawFrames_length_le _ _
  · exact le_rfl

theorem vacated_line (s : State) :
    (vacated s).line = if hasRole s .check then (endRequest s).line else s.line := by
  have h : (vacated s).line = (dropRoleWork s).line := rfl
  obtain ⟨hc, hd⟩ | ⟨hd', hd⟩ | ⟨hc, -, hd⟩ := dropRoleWork_cases s
  · rw [h, hd, if_pos hc]
    simp [dropCheckWork, resetProfiling]
  · rw [h, hd, if_neg (by simp [check_false_of_dispatch hd'])]
    rfl
  · rw [h, hd, if_neg (by simp [hc])]

theorem vacated_length_le (s : State) : (vacated s).line.tx.length ≤ s.line.tx.length := by
  rw [vacated_line]
  split
  · exact endRequest_length_le s
  · exact le_rfl

theorem lostIfReleasing_length_le (e : Entry) (v : State) :
    (lostIfReleasing e v).line.tx.length ≤ v.line.tx.length + 1 := by
  unfold lostIfReleasing
  split
  · exact queueFrame_length_le _ _
  · omega

theorem clearJam_length_le (k : Option Track) (v : State) : (clearJam k v).line.tx.length ≤ v.line.tx.length + 1 :=
  queueFrame_length_le _ _

@[simp] theorem clearJam_service (k : Option Track) (v : State) : (clearJam k v).service = v.service := by simp [clearJam]

@[simp] theorem lostIfReleasing_service (e : Entry) (v : State) : (lostIfReleasing e v).service = v.service := by
  unfold lostIfReleasing
  split <;> simp

/-- The two notices of a zone found clear stand in the queue, where there is room for them (R42, R43). -/
theorem ackAllClear_queued (hin : inService v = true) (hroom : v.line.tx.length + 3 ≤ 8) :
    queued (.notice (.jamCleared none)) (clearJam none (lostIfReleasing e v)) = true ∧
    (e.state = .releasing → e.takenHeard = false → hasRole v .dispatch = false →
      queued (.lost (downstream v) e.record.track) (clearJam none (lostIfReleasing e v)) = true) := by
  have hlen := lostIfReleasing_length_le e v
  have hin' : inService (lostIfReleasing e v) = true := by rw [inService_congr (s := v) (by simp), hin]
  refine ⟨queued_self (s := (lostIfReleasing e v).setZone _) hin' rfl (by simp only [State.setZone_line]; omega),
    fun h1 h2 h3 => ?_⟩
  refine queued_queueFrame (s := (lostIfReleasing e v).setZone _) rfl (by simp only [State.setZone_line]; omega) ?_
  have : lostIfReleasing e v = queueFrame (.lost (downstream v) e.record.track) v := by simp [lostIfReleasing, h1, h2, h3]
  rw [this]
  exact queued_self hin rfl (by omega)

/-- WANTED for the serial asked for is withdrawn with the request (R79). -/
theorem endRequest_withdraws {r : Request} (hr : s.store.request = some r) :
    ∀ x ∈ (endRequest s).line.tx, (x.inAttempt || x.frame != .wanted r.serial) = true := by
  have : endRequest s = withdrawFrames (fun f => f = .wanted r.serial) (s.setStore { s.store with request := none }) := by
    simp [endRequest, hr]
  rw [this]
  exact withdrawn_all _

theorem ackAllClear_withdraws {r : Request} (hc : hasRole s .check = true) (he : zoneEntry s = some e)
    (hr : s.store.request = some r) :
    ∀ x ∈ (ackAllClear s).line.tx, (x.inAttempt || x.frame != .wanted r.serial) = true := by
  have h0 : ∀ x ∈ (vacated s).line.tx, (x.inAttempt || x.frame != .wanted r.serial) = true := by
    rw [vacated_line, if_pos hc]
    exact endRequest_withdraws hr
  have h1 : ∀ x ∈ (lostIfReleasing e (vacated s)).line.tx, (x.inAttempt || x.frame != .wanted r.serial) = true := by
    unfold lostIfReleasing
    split
    · exact all_queueFrame rfl (by simp [freshTx]) h0
    · exact h0
  rw [ackAllClear_of_zoneEntry he]
  exact all_queueFrame (s := (lostIfReleasing e (vacated s)).setZone _) rfl (by simp [freshTx]) h1

/-- CHECK's blocks where the acknowledge removes the record (R79, R84, R118, R123). -/
theorem dropCheckWork_blocks (s : State) : (dropCheckWork s).eval = none ∧
    (dropCheckWork s).prof = { s.prof with
      phase := .none, front := none, rear := none, compare := none, ever := false, top := none, gaps := 0 } ∧
    (dropCheckWork s).reader = { buffer := [], overlong := false, window := .closed, kept := none, tagWait := none } ∧
    (dropCheckWork s).store = { s.store with request := none } := by
  have hs : (endRequest s).store = { s.store with request := none } := by
    unfold endRequest
    split
    · simp
    · rename_i h
      cases hst : s.store
      simp_all
  refine ⟨by simp [dropCheckWork, resetProfiling], by simp [dropCheckWork, resetProfiling], ?_, ?_⟩
  · simp [dropCheckWork, resetProfiling, stopTagWait, closeWindow, openWindow]
  · simp [dropCheckWork, resetProfiling, hs]

/-- What a zone found clear is left with (R43). -/
structure Vacated (s m : State) (outs : List Entry) : Prop where
  core : m.service = s.service ∧ m.cfg = s.cfg ∧ m.pins = s.pins ∧ m.slot = s.slot ∧ m.table = outs
  zone : m.zone = { s.zone with zstate := .empty, jam := false }
  route : m.route = if hasRole s .dispatch then dropRoute s.route else s.route
  only : onlyChanges [.line, .table, .zone, .store, .reader, .prof, .eval, .route] s m
  other : hasRole s .check = false → onlyChanges [.line, .table, .zone, .route] s m
  check : hasRole s .check = true → m.eval = none ∧ m.prof = { s.prof with
      phase := .none, front := none, rear := none, compare := none, ever := false, top := none, gaps := 0 } ∧
    m.reader = { buffer := [], overlong := false, window := .closed, kept := none, tagWait := none } ∧
    m.store = { s.store with request := none }

theorem vacated_ackAllClear (hT : s.table = outs ++ [e]) (ho : allOutbound outs) (hin : inZone e = true) :
    Vacated s (ackAllClear s) outs := by
  obtain ⟨l, hl⟩ := ackAllClear_eq s
  have hT' : (removeZoneRecord (dropRoleWork s)).table = outs := by
    rw [removeZoneRecord_of_table (s := dropRoleWork s) (l := [e]) (by simpa using hT) ho]
    simp [hin]
  refine ⟨⟨by simp [hl], by simp [hl], by simp [hl], by simp [hl], by simpa [hl] using hT'⟩, by simp [hl],
    by rw [← dropRoleWork_route]; simp [hl], ?_, fun hc => ?_, fun hc => ?_⟩
  · rw [hl]
    obtain ⟨-, h⟩ | ⟨-, h⟩ | ⟨-, -, h⟩ := dropRoleWork_cases s <;> rw [h] <;> intro k <;> cases k <;> simp [Block.same]
  · rw [hl]
    obtain ⟨h, -⟩ | ⟨-, h⟩ | ⟨-, -, h⟩ := dropRoleWork_cases s
    · simp [hc] at h
    all_goals rw [h]; intro k; cases k <;> simp [Block.same]
  · have hd : dropRoleWork s = dropCheckWork s := by simp [dropRoleWork, hc]
    simpa [hl, hd] using dropCheckWork_blocks s

/-- Nothing is left to decide upon in a vacated zone. -/
theorem Vacated.routeFollows (h : Vacated s m outs) (hd : hasRole m .dispatch = true) : RouteFollows m := by
  obtain ⟨-, hc, -⟩ := h.core
  have hr : m.route = dropRoute s.route := by rw [h.route, if_pos (by rwa [hasRole_congr hc] at hd)]
  exact ⟨fun hdel => by simp [delivering_false_of_zone (s := m) (by simp [h.zone])] at hdel,
    fun hl => by simp [laneWaitOn, hr, dropRoute] at hl⟩

/-! ## The movement resumed -/

/-- With a pallet on its way in the zone, the end of the event may end the offering and drop a lane wait (R33, R171). -/
theorem settle_moving (ha : active m = true) (hz : m.zone.zstate = .positioning ∨ m.zone.zstate = .releasing) :
    (settle b m).table = m.table ∧ (settle b m).line = (stopOffering m).line ∧
      (∃ o, (settle b m).zone = { m.zone with offerTimer := o }) ∧
      onlyChanges [.line, .zone, .weigh, .route] m (settle b m) := by
  have hsame := sameCore_stopOffering m
  have hne : m.zone.zstate ≠ .stopped ∧ m.zone.zstate ≠ .empty ∧ m.zone.zstate ≠ .inbound := by
    obtain h | h := hz <;> simp [h]
  have hperm : permitStep (stopOffering m) = stopOffering m :=
    permitStep_of (by rw [hsame.active, ha]) (permitSound_of_zone (by rw [hsame.zstate]; exact hne.2.2))
      fun _ => accepting_false_of_zone (by rw [hsame.zstate]; exact hne.2.1)
  obtain ⟨r, hr⟩ : ∃ r, routeStep (stopOffering m) = (stopOffering m).setRoute r := by
    obtain h | ⟨-, h⟩ | ⟨_, -, hdel, -⟩ := routeStep_cases (stopOffering m)
    · exact ⟨_, h⟩
    · exact ⟨_, h⟩
    · simp [delivering_false_of_zone (s := stopOffering m) (by rw [hsame.zstate]; exact hne.1)] at hdel
  have hzr : ((stopOffering m).setRoute r).zone.zstate = m.zone.zstate := hsame.zstate
  have heq : settle b m = windowStep b ((stopOffering m).setRoute r) := by
    rw [settle_active ha, hperm, hr, slotStep_of fun _ => .inl (accepting_false_of_zone (by rw [hzr]; exact hne.2.1)),
      offerStep_of fun h => by simp [offering_false_of_zone (s := (stopOffering m).setRoute r) (by rw [hzr]; exact hne.1)] at h]
  obtain ⟨o, hzone⟩ := stopOffering_zone m
  rw [heq]
  refine ⟨by simp, by simp, ⟨o, by simp [hzone]⟩, fun k => ?_⟩
  cases k <;> simp [Block.same]

/-- A frame queued in such a zone stays so. -/
theorem queued_settle_moving {f : TxFrame} (ha : active m = true)
    (hz : m.zone.zstate = .positioning ∨ m.zone.zstate = .releasing) (hf : offerTrack f = none) (h : queued f m = true) :
    queued f (settle b m) = true := by
  obtain ⟨-, hl, -⟩ := settle_moving (b := b) ha hz
  rw [queued_congr hl]
  exact queued_stopOffering hf h

/-- The profiling of a PRESENT record begins again (R117, R123). -/
theorem restartPresent_eq (hT : s.table = outs ++ [e]) (ho : allOutbound outs) :
    (∀ ev, e.state = .present → s.eval = some ev → (restartPresent s).eval = some { ev with profile := none } ∧
      (restartPresent s).prof = { s.prof with
        phase := .unarmed, front := none, rear := none, compare := none, ever := false, top := none, gaps := 0 }) ∧
    (e.state ≠ .present ∨ s.eval = none → restartPresent s = s) := by
  have hfind := zoneEntryIn_of_table hT ho (show RecordState.present ≠ .outbound by decide)
  refine ⟨fun ev he hev => ?_, fun h => ?_⟩
  · rw [restartPresent, hfind, if_pos (by simp [he]), restartProfiling, if_neg (by simp [hev])]
    simp [handProfile, resetProfiling, hev]
  · unfold restartPresent
    split
    · rename_i hp
      have : e.state = .present := by simpa [hfind] using hp
      simp [restartProfiling, h.resolve_left (by simp [this])]
    · rfl

/-- What the resumed movement is (R45). -/
theorem ackElsewhere_eq (hT : s.table = outs ++ [e]) (ho : allOutbound outs) (he : zoneEntry s = some e) :
    ackElsewhere s = clearJam (some e.record.track)
      (if e.state = .releasing then startReleasing s else startPositioning (restartPresent s)) := by
  have hfind := zoneEntryIn_of_table hT ho (show RecordState.releasing ≠ .outbound by decide)
  have htrack : zoneTrack s = some e.record.track := by simp [zoneTrack, he]
  rw [ackElsewhere, htrack, hfind]
  congr 1
  by_cases h : e.state = .releasing <;> simp [h]

/-- O29 where an eye other than the position eye is blocked. -/
theorem acknowledge_elsewhere (hin : inService s = true) (hT : s.table = outs ++ [e]) (ho : allOutbound outs)
    (he : zoneEntry s = some e) (ht : t = settle s (ackElsewhere s)) :
    t.zone.jam = false ∧ t.zone.holds = s.zone.holds ∧
    t.table = s.table ∧ onlyChanges [.line, .zone, .weigh, .prof, .eval, .route] s t ∧
    (e.state = .present → ∀ ev ∈ s.eval,
      t.eval = some { ev with profile := none } ∧ t.prof = { s.prof with
        phase := .unarmed, front := none, rear := none, compare := none, ever := false, top := none, gaps := 0 }) ∧
    (e.state ≠ .present ∨ s.eval = none → t.eval = s.eval ∧ t.prof = s.prof) ∧
    (e.state = .releasing → t.zone.zstate = .releasing ∧
      t.zone.exitSeen = s.pins.eyeExit ∧ t.zone.releaseTimer = some s.cfg.timing.release) ∧
    (e.state ≠ .releasing → t.zone.zstate = .positioning ∧
      t.zone.positionTimer = some s.cfg.timing.position) ∧ (roomFor 1 s = true →
      queued (.notice (.jamCleared (some e.record.track))) t = true) := by
  have hwork := worked_restartPresent s
  obtain ⟨hsome, hnone⟩ := restartPresent_eq hT ho
  obtain ⟨n, hn⟩ : ∃ n, n = if e.state = .releasing then startReleasing s else startPositioning (restartPresent s) := ⟨_, rfl⟩
  set m := ackElsewhere s with hm
  have hmn : m = clearJam (some e.record.track) n := by rw [hm, ackElsewhere_eq hT ho he, hn]
  have hzn : n.zone = if e.state = .releasing then
      { s.zone with zstate := .releasing, exitSeen := s.pins.eyeExit, releaseTimer := some s.cfg.timing.release }
      else { s.zone with zstate := .positioning, positionTimer := some s.cfg.timing.position } := by
    rw [hn]
    split
    · rfl
    · simp [startPositioning, hwork.zone, hwork.cfg]
  have hzm : m.zone = { n.zone with jam := false } := by rw [hmn]; simp [clearJam]
  have honly : onlyChanges [.line, .zone, .prof, .eval] s m := by
    rw [hmn, hn]
    split <;> intro k <;> cases k <;> simp [Block.same, clearJam, startReleasing, startPositioning, restartPresent] <;>
      split <;> simp
  have hTm : m.table = s.table := by
    obtain h | h := honly .table
    · simp at h
    · exact h
  have hnl : n.line = s.line := by rw [hn]; split <;> simp [startReleasing, startPositioning]
  have hact : active m = true := by
    obtain h | h := honly .service
    · simp at h
    · rw [active_congr h, active_of_inService hin]
  have hzst : m.zone.zstate = .positioning ∨ m.zone.zstate = .releasing := by
    rw [hzm, hzn]
    split <;> simp
  obtain ⟨hTt, -, ⟨o, hzt⟩, hset⟩ := settle_moving (b := s) hact hzst
  rw [← ht] at hTt hzt hset
  have het : t.eval = (if e.state = .releasing then s else restartPresent s).eval ∧
      t.prof = (if e.state = .releasing then s else restartPresent s).prof := by
    rw [ht, settle_eval, settle_prof, hmn, hn]
    split <;> simp [clearJam, startReleasing, startPositioning]
  refine ⟨by rw [hzt, hzm], by rw [hzt, hzm, hzn]; split <;> rfl, by rw [hTt, hTm],
    honly.trans hset (by decide) (by decide), fun hp ev hev => ?_, fun h => ?_, fun h => ?_, fun h => ?_, fun hroom => ?_⟩
  · rw [het.1, het.2, if_neg (by simp [hp])]
    exact hsome ev hp hev
  · rw [het.1, het.2]
    split
    · exact ⟨rfl, rfl⟩
    · rw [hnone h]
      exact ⟨rfl, rfl⟩
  · rw [hzt, hzm, hzn, if_pos h]
    exact ⟨rfl, rfl, rfl⟩
  · rw [hzt, hzm, hzn, if_neg h]
    exact ⟨rfl, rfl⟩
  · have hroom := tx_of_roomFor hroom
    rw [ht]
    refine queued_settle_moving hact hzst rfl ?_
    rw [hmn]
    have hns : n.service = s.service := by rw [hn]; split <;> simp [startReleasing, startPositioning, hwork.service]
    exact queued_self (s := n.setZone _) ((inService_congr (s := s) hns).trans hin) rfl
      (by simp only [State.setZone_line, hnl]; omega)

end

end Sys2Proof.Machine
end

