-- ==== Proofs/AcknowledgeAtPosition.lean ====
section
/-! PROOF. The acknowledge of a jam whose record stands at position (R44, R117, R174); O29. -/

namespace Sys2Proof.Machine

section
variable {b s u v m t : State} {outs : List Entry} {e : Entry}

/-! ## The record before its work -/

/-- What the record at position is found in: the zone STOPPED, JAM clear, no release under way (R44). -/
structure Restopped (s u : State) (outs : List Entry) (e : Entry) : Prop where
  table : u.table = outs ++ [redone e]
  zone : u.zone = { s.zone with zstate := .stopped, jam := false }
  route : u.route = if hasRole s .dispatch then { s.route with code := .none } else s.route
  only : onlyChanges [.line, .table, .zone, .prof, .eval, .route] s u
  eval : u.eval = (restartPresent s).eval
  prof : u.prof = (restartPresent s).prof
  length : u.line.tx.length ≤ s.line.tx.length + 1
  queued : s.line.tx.length + 1 ≤ 8 → inService s = true → queued (.notice (.jamCleared (some e.record.track))) u = true

namespace Restopped
variable (h : Restopped s u outs e)
include h

theorem cfg : u.cfg = s.cfg := by simpa [Block.same] using h.only .cfg
theorem service : u.service = s.service := by simpa [Block.same] using h.only .service
theorem pins : u.pins = s.pins := by simpa [Block.same] using h.only .pins
theorem weigh : u.weigh = s.weigh := by simpa [Block.same] using h.only .weigh
theorem reader : u.reader = s.reader := by simpa [Block.same] using h.only .reader
theorem store : u.store = s.store := by simpa [Block.same] using h.only .store
theorem role (r : Role) : hasRole u r = hasRole s r := hasRole_congr h.cfg r
theorem inService : inService u = inService s := inService_congr h.service

end Restopped

theorem restopped_ackStopped (hT : s.table = outs ++ [e]) (ho : allOutbound outs) (he : zoneEntry s = some e) :
    Restopped s (ackStopped s) outs e := by
  have hw := worked_restartPresent s
  have htrack : zoneTrack s = some e.record.track := by simp [zoneTrack, he]
  obtain ⟨n, hn⟩ : ∃ n, n = (setZoneState .stopped (dropRouteCode (returnToDone (restartPresent s)))) := ⟨_, rfl⟩
  have hu : ackStopped s = clearJam (some e.record.track) n := by rw [ackStopped, htrack, hn]
  have hnl : n.line = s.line := by simp [hn, dropRouteCode_eq]
  refine ⟨?_, ?_, ?_, ?_, ?_, ?_, ?_, fun hroom hin => ?_⟩
  · have := returnToDone_table' (s := restartPresent s) (l := [e]) (by simpa using hT) ho
    simpa [hu, hn, clearJam, dropRouteCode_eq] using this
  · simp [hu, hn, clearJam, dropRouteCode_eq, hw.zone]
  · simp [hu, hn, clearJam, dropRouteCode_eq, hw.route, hasRole_congr (s := s) (t := returnToDone (restartPresent s))
      (by simp [hw.cfg])]
  · rw [hu, hn]
    intro k
    cases k <;> simp [Block.same, clearJam, dropRouteCode_eq, restartPresent] <;> split <;> simp
  · simp [hu, hn, clearJam, dropRouteCode_eq]
  · simp [hu, hn, clearJam, dropRouteCode_eq]
  · rw [hu, ← hnl]
    exact clearJam_length_le _ _
  · have hns : n.service = s.service := by simp [hn, dropRouteCode_eq, hw.service]
    rw [hu]
    exact queued_self (s := n.setZone _) ((inService_congr (s := s) hns).trans hin) rfl
      (by simp only [State.setZone_line, hnl]; omega)

theorem redone_at_position (h : e.state = .present ∨ e.state = .done ∨ e.state = .releasing) :
    (redone e).state = .present ∨ (redone e).state = .done := by
  rw [redone_state]
  obtain h | h | h := h <;> simp [h]

theorem redone_of_present (h : e.state = .present) : redone e = e := by simp [redone, h]

/-! ## The end of the event -/

/-- The state in which the event leaves the role's blocks. -/
theorem ackAtPosition_workAfresh (s : State) : evalStep (ackAtPosition s) = evalStep (workAfresh (ackStopped s)) := rfl

/-- Elsewhere than at DISPATCH only the offering is left to evaluate. -/
theorem settle_restopped (h : Restopped s u outs e) (ha : active s = true) (hz : s.zone.zstate = .jammed)
    (hd : hasRole s .dispatch = false) :
    settle s (evalStep (workAfresh u)) = offerStep (stopOffering (evalStep (workAfresh u))) := by
  have hzm : (evalStep (workAfresh u)).zone.zstate = .stopped := by simp [h.zone]
  refine settle_of_stopped (by rw [active_congr (s := s) (by simp [h.service]), ha]) hzm
    (by rw [hasRole_congr (s := s) (by simp [h.cfg]), hd]) fun _ => ?_
  simp [platformEmpty, hz, h.zone]

theorem queued_atPosition {f : TxFrame} (h : Restopped s u outs e) (hf : offerTrack f = none)
    (hroom : s.line.tx.length + 3 ≤ 8) (hq : queued f u = true) :
    queued f (stopOffering (evalStep (workAfresh u))) = true ∧
      (stopOffering (evalStep (workAfresh u))).line.tx.length < 8 := by
  have h1 := h.length
  have hl : (workAfresh u).line = u.line := by simp
  have h2 := evalStep_length_le (workAfresh u)
  rw [hl] at h2
  have h3 := stopOffering_length_le (evalStep (workAfresh u))
  refine ⟨queued_stopOffering hf (queued_evalStep hf (by rw [hl]; omega) (by rwa [queued_congr hl])), by omega⟩

/-- The queue of a decided route keeps what is no OFFER. -/
theorem queued_routeStep {f : TxFrame} (hf : offerTrack f = none) (hroom : m.line.tx.length < 8) (h : queued f m = true) :
    queued f (routeStep m) = true := by
  have hfix : ∀ r, queued f (fixExitClass r m) = true := fun r => by
    unfold fixExitClass
    split
    · exact h
    · simp only
      split
      · exact queued_queueFrame_room (s := m.setRoute _) hf hroom h
      · exact h
  obtain hs | ⟨-, hs⟩ | ⟨x, -, -, hs⟩ := routeStep_cases m
  · rwa [hs]
  · rwa [hs, queued_congr (dropLaneWait_line m)]
  · rw [hs, queued_congr (watchLaneWait_line _)]
    obtain ⟨_, exit, -, -, hdec⟩ | ⟨_, -, -, hdec⟩ := decideRoute_cases x.record m <;> rw [hdec]
    · rw [queued_congr (s := fixExitClass x.record m) (by simp [startDelivery_eq])]
      exact hfix _
    · exact hfix _

/-! ## The record at work, by role -/

/-- O29 for the record of a station that is not DISPATCH, but for CHECK. -/
theorem ack_record (h : Restopped s u outs e) (ho : allOutbound outs)
    (he : e.state = .present ∨ e.state = .done ∨ e.state = .releasing) (hTt : t.table = (evalStep (workAfresh u)).table)
    (hw : t.wrap = (evalStep (workAfresh u)).wrap) (hl : t.label = (evalStep (workAfresh u)).label) {y : Entry}
    (hy : y ∈ t.table) (hin : inZone y = true) :
    (e.state ≠ .present → y.state = .done ∧ y.record = e.record) ∧
    (e.state = .releasing → y.takenHeard = false) ∧
    (e.state = .present → e.record.unknownOrigin = true ∨ hasRole s .plain = true →
      y.state = .done ∧ y.record = e.record) ∧
    (e.state = .present → e.record.unknownOrigin = false → hasRole s .wrap = true →
      if e.record.wrap.isSome then y.state = .done ∧ y.record = e.record
      else if e.record.check = some .pass then y.state = .working ∧ y.record = e.record ∧ t.wrap.attempt = 1
      else y.state = .done ∧ y.record = { e.record with wrap := some .skipped }) ∧
    (e.state = .present → e.record.unknownOrigin = false → hasRole s .label = true →
      if e.record.label.isSome then y.state = .done ∧ y.record = e.record
      else if e.record.check = some .pass ∧ isWrapped e.record.wrap = true then
        y.state = .working ∧ y.record = e.record ∧ t.label.attempt = 1
      else y.state = .done ∧ y.record = { e.record with label := some .skipped }) := by
  have hTu := h.table
  have hmem : ∀ x, (evalStep (workAfresh u)).table = outs ++ [x] → y = x := fun x hx =>
    eq_of_inZone (hTt.trans hx) ho hy hin
  refine ⟨fun hp => ?_, fun hr => ?_, fun hp hor => ?_, fun hp hu hrole => ?_, fun hp hu hrole => ?_⟩
  · have hdone : (redone e).state = .done := (redone_at_position he).resolve_left fun hc => by
      rw [redone_state] at hc
      split at hc
      · simp at hc
      · exact hp hc
    obtain rfl := hmem _ (by rw [atPosition_of_done hTu ho hdone, hTu])
    exact ⟨hdone, by simp⟩
  · have hdone : (redone e).state = .done := by simp [redone_state, hr]
    obtain rfl := hmem _ (by rw [atPosition_of_done hTu ho hdone, hTu])
    simp [redone, hr]
  all_goals rw [redone_of_present hp] at hTu
  · obtain rfl := hmem _ (atPosition_record hTu ho (.inl hp) (.inr (by rwa [h.role])))
    exact ⟨rfl, rfl⟩
  · have hwrap := atPosition_wrap hTu ho hp (by rwa [h.role]) hu
    rw [hw]
    split_ifs at hwrap ⊢
    · obtain rfl := hmem _ hwrap
      exact ⟨rfl, rfl⟩
    · obtain rfl := hmem _ hwrap.1
      exact ⟨rfl, rfl, hwrap.2⟩
    · obtain rfl := hmem _ hwrap
      exact ⟨rfl, rfl⟩
  · have hlabel := atPosition_label hTu ho hp (by rwa [h.role]) hu
    rw [hl]
    split_ifs at hlabel ⊢
    · obtain rfl := hmem _ hlabel
      exact ⟨rfl, rfl⟩
    · obtain rfl := hmem _ hlabel.1
      exact ⟨rfl, rfl, hlabel.2⟩
    · obtain rfl := hmem _ hlabel
      exact ⟨rfl, rfl⟩

/-- O29 for the PRESENT record at CHECK: its restarted profile is a fault at once (R44, R117, R123). -/
theorem ack_check {ev : Evaluation} (h : Restopped s u outs e) (hT : s.table = outs ++ [e]) (ho : allOutbound outs)
    (hp : e.state = .present) (hu : e.record.unknownOrigin = false) (hc : hasRole s .check = true) (hev : s.eval = some ev)
    (htrack : ev.track = e.record.track) (hTt : t.table = (evalStep (workAfresh u)).table)
    (he : t.eval = (evalStep (workAfresh u)).eval) (hstore : t.store = u.store) (hpr : t.prof = (evalStep (workAfresh u)).prof)
    (hrd : t.reader = (evalStep (workAfresh u)).reader) (hwg : t.weigh = (evalStep (workAfresh u)).weigh) :
    EvalKept s t ∧ t.store = s.store ∧ t.prof = { s.prof with
      phase := .faulted, front := none, rear := none, compare := none, ever := false, top := none, gaps := 0 } ∧
    t.eval.all (fun w => w.profile = some .profileFault ∧ w.tag = ev.tag ∧ w.manifest = ev.manifest) = true ∧
    (∀ y ∈ t.table, inZone y = true → t.eval.isSome = true → y.state = .working) ∧
    t.weigh.held = none ∧ t.weigh.restarts = 0 ∧
    t.reader = (if ev.tag = none then { s.reader with tagWait := some s.cfg.check.tagWait } else s.reader) := by
  obtain ⟨heval, hprof⟩ := (restartPresent_eq hT ho).1 ev hp hev
  rw [← h.eval] at heval
  rw [← h.prof] at hprof
  have hTu := h.table
  rw [redone_of_present hp] at hTu
  have hb := checkBegun_atPosition hTu ho hp (by rwa [h.role]) hu heval
  refine ⟨?_, by rw [hstore, h.store], by rw [hpr, hb.prof, resolvedPhase, hprof], ?_, fun y hy hin hsome => ?_,
    by rw [hwg, hb.weigh]; rfl, by rw [hwg, hb.weigh]; rfl, by rw [hrd, hb.reader, h.reader, h.cfg]⟩
  · have hk := hb.kept heval htrack
    unfold EvalKept at hk ⊢
    rw [he, hTt]
    simpa [heval, hev] using hk
  · rw [he]
    exact hb.inputs (by simp [begunEval, resolvedInput, hprof])
  · obtain ⟨-, hTm⟩ | ⟨-, hnone, -⟩ := hb.outcome
    · obtain rfl := eq_of_inZone (hTt.trans hTm) ho hy hin
      rfl
    · simp [he, hnone] at hsome

/-! ## The whole event -/

/-- What every acknowledge at position says of the state it leaves. -/
structure AckLeaves (s t : State) (e : Entry) : Prop where
  jam : t.zone.jam = false
  holds : t.zone.holds = s.zone.holds
  only : onlyChanges [.line, .table, .slot, .zone, .store, .reader, .weigh, .prof, .eval, .wrap, .label, .route, .free] s t
  record : (zoneEntry t).isSome = true
  queued : roomFor 3 s = true → queued (.notice (.jamCleared (some e.record.track))) t = true
  track : ∀ y ∈ t.table, inZone y = true → y.record.track = e.record.track

theorem onlyChanges_restopped (h : Restopped s u outs e) :
    onlyChanges [.line, .table, .zone, .reader, .weigh, .prof, .eval, .wrap, .label, .route, .free] s
      (evalStep (workAfresh u)) :=
  h.only.trans (onlyChanges_atPosition u) (by decide) (by decide)

theorem routeStep_zone_kept (m : State) : (routeStep m).zone.jam = m.zone.jam ∧ (routeStep m).zone.holds = m.zone.holds := by
  obtain hs | ⟨-, hs⟩ | ⟨x, -, -, hs⟩ := routeStep_cases m
  · simp [hs]
  · simp [hs]
  · rw [hs, watchLaneWait_zone]
    obtain ⟨_, exit, -, -, hdec⟩ | ⟨_, -, -, hdec⟩ := decideRoute_cases x.record m <;> simp [hdec, startDelivery_eq]

theorem ackLeaves_elsewhere (h : Restopped s u outs e) (ho : allOutbound outs) (hin : inService s = true)
    (he : e.state = .present ∨ e.state = .done ∨ e.state = .releasing)
    (ht : t = offerStep (stopOffering (evalStep (workAfresh u)))) : AckLeaves s t e ∧ t.zone.zstate = .stopped := by
  obtain ⟨outs', y, hTm, ho', htrack, hy⟩ := atPosition_tail h.table ho (redone_at_position he)
  obtain ⟨o, hz⟩ := offering_zone (evalStep (workAfresh u))
  rw [← ht, evalStep_zone, workAfresh_zone, h.zone] at hz
  have hTt : t.table = outs' ++ [y] := by rw [ht, offerStep_table, stopOffering_table, hTm]
  refine ⟨⟨by rw [hz], by rw [hz], ?_, ?_, fun hroom => ?_, fun z hmem hin => ?_⟩, by rw [hz]⟩
  · rw [ht]
    exact (onlyChanges_restopped h).trans (onlyChanges_offering _) (by decide) (by decide)
  · rw [zoneEntry_of_tail hTt ho' (inZone_of_at_position hy)]
    rfl
  · have hroom := tx_of_roomFor hroom
    obtain ⟨hq, hlen⟩ := queued_atPosition h rfl hroom (h.queued (by omega) hin)
    rw [ht]
    exact queued_offerStep rfl hlen hq
  · rw [eq_of_inZone hTt ho' hmem hin, htrack, redone_record]

/-- At DISPATCH the record is DONE before the decision (R174). -/
theorem restopped_dispatch (h : Restopped s u outs e) (ho : allOutbound outs)
    (he : e.state = .present ∨ e.state = .done ∨ e.state = .releasing) (hd : hasRole s .dispatch = true)
    (hm : m = stopOffering (evalStep (workAfresh u))) :
    ∃ y, m.table = outs ++ [y] ∧ y.state = .done ∧ y.record = e.record ∧ m.zone.zstate = .stopped ∧
      m.zone.holds = s.zone.holds ∧ m.zone.jam = false ∧ m.route = { s.route with code := .none } ∧
      m.cfg = s.cfg ∧ m.service = s.service ∧ m.pins = s.pins := by
  obtain ⟨hT, -⟩ := dispatch_stands h.table ho (redone_at_position he) (by rwa [h.role])
  have hr := h.route
  rw [if_pos hd] at hr
  refine ⟨_, by rw [hm, stopOffering_table, hT], rfl, by simp, ?_, ?_, ?_, ?_, ?_, ?_, ?_⟩
  all_goals rw [hm]
  · simp [h.zone]
  · obtain ⟨o, hz⟩ := stopOffering_zone (evalStep (workAfresh u))
    simp [hz, h.zone]
  · obtain ⟨o, hz⟩ := stopOffering_zone (evalStep (workAfresh u))
    simp [hz, h.zone]
  · simp [hr]
  · simp [h.cfg]
  · simp [h.service]
  · simp [h.pins]

theorem ackLeaves_dispatch (h : Restopped s u outs e) (ho : allOutbound outs) (hin : inService s = true)
    (he : e.state = .present ∨ e.state = .done ∨ e.state = .releasing) (hd : hasRole s .dispatch = true)
    (ht : t = routeStep (stopOffering (evalStep (workAfresh u)))) : AckLeaves s t e := by
  obtain ⟨m, hm⟩ : ∃ m, m = stopOffering (evalStep (workAfresh u)) := ⟨_, rfl⟩
  obtain ⟨y, hTm, hy, hrec, -, hholds, hjam, -⟩ := restopped_dispatch h ho he hd hm
  obtain ⟨st, hTt, hst, -⟩ := routeStep_tail hTm ho hy
  obtain ⟨hj, hh⟩ := routeStep_zone_kept m
  rw [← hm] at ht
  rw [← ht] at hTt hj hh
  have hyin : inZone { y with state := st } = true := inZone_iff.2 (by obtain rfl | rfl := hst <;> simp)
  refine ⟨by rw [hj, hjam], by rw [hh, hholds], ?_, by rw [zoneEntry_of_tail hTt ho hyin]; rfl, fun hroom => ?_,
    fun z hmem hin => by rw [eq_of_inZone hTt ho hmem hin, hrec]⟩
  · have hstop : onlyChanges [.line, .zone] (evalStep (workAfresh u)) m := by
      rw [hm]
      intro k
      cases k <;> simp [Block.same]
    have hroute : onlyChanges [.line, .table, .zone, .route] m t := by
      rw [ht]
      intro k
      cases k <;> simp [Block.same]
    exact ((onlyChanges_restopped h).trans hstop (ds := [.line, .table, .zone, .reader, .weigh, .prof, .eval, .wrap, .label,
      .route, .free]) (by decide) (by decide)).trans hroute (by decide) (by decide)
  · have hroom := tx_of_roomFor hroom
    obtain ⟨hq, hlen⟩ := queued_atPosition h rfl hroom (h.queued (by omega) hin)
    rw [← hm] at hq hlen
    rw [ht]
    exact queued_routeStep rfl hlen hq

/-- At DISPATCH the record is routed again if no hold is in force (R174). -/
theorem ack_dispatch {x : ExitClass} (h : Restopped s u outs e) (ho : allOutbound outs) (hin : inService s = true)
    (he : e.state = .present ∨ e.state = .done ∨ e.state = .releasing) (hd : hasRole s .dispatch = true)
    (hx : x = s.route.exitClass.getD (exitClassOf s.cfg.dispatch e.record))
    (ht : t = routeStep (stopOffering (evalStep (workAfresh u)))) :
    if s.zone.holds = [] then
      t.route.exitClass = some x ∧ t.route.code = (chooseExit s.pins s.route.lastLane x).getD .none ∧
      t.zone.zstate = (if (chooseExit s.pins s.route.lastLane x).isSome then .releasing else .stopped)
    else t.route = { s.route with code := .none } ∧ t.zone.zstate = .stopped ∧
      ∀ y ∈ t.table, inZone y = true → y.state = .done ∧ y.record = e.record := by
  obtain ⟨m, hm⟩ : ∃ m, m = stopOffering (evalStep (workAfresh u)) := ⟨_, rfl⟩
  obtain ⟨y, hTm, hy, hrec, hz, hholds, -, hroute, hcfg, hserv, hpins⟩ := restopped_dispatch h ho he hd hm
  rw [← hm] at ht
  have hdel := delivering_of_tail hTm ho hy (by rw [hasRole_congr hcfg, hd]) hz
  rw [inService_congr hserv, hholds] at hdel
  split
  · rename_i hh
    obtain ⟨-, hgo, hwait⟩ := routeStep_decides hTm ho hy (hdel.2 ⟨hin, hh⟩) (x := x) (by rw [hroute, hcfg, hrec, hx])
    rw [← ht, hpins, hroute] at hgo hwait
    cases hch : chooseExit s.pins s.route.lastLane x with
    | none =>
      obtain ⟨hr, hzt, -⟩ := hwait hch
      rw [hr, hzt, hz]
      exact ⟨rfl, rfl, rfl⟩
    | some exit =>
      obtain ⟨hr, hzt, -⟩ := hgo exit hch
      rw [hr, hzt]
      exact ⟨rfl, rfl, rfl⟩
  · rename_i hh
    have hno : delivering m = false := by
      rw [← Bool.not_eq_true, hdel]
      exact fun hc => hh hc.2
    rw [ht, routeStep_stands hTm ho hy hno]
    refine ⟨hroute, hz, fun z hmem hin => ?_⟩
    rw [eq_of_inZone hTm ho hmem hin]
    exact ⟨hy, hrec⟩

/-- O29 with the zone found clear. -/
theorem acknowledge_all_clear (hin : inService s = true) (hT : s.table = outs ++ [e]) (ho : allOutbound outs)
    (he : zoneEntry s = some e) (hz : inZone e = true) (ht : t = settle s (ackAllClear s)) :
    t.zone.jam = false ∧ t.pins = s.pins ∧ t.zone.holds = s.zone.holds ∧
    onlyChanges [.line, .table, .slot, .zone, .store, .reader, .weigh, .prof, .eval, .wrap, .label, .route, .free] s t ∧
    (s.table.filter (fun y => !inZone y)).isPrefixOf t.table ∧
    (s.slot = none → t.table = s.table.filter (fun y => !inZone y)) ∧
    (∀ y ∈ t.table, y ∈ s.table.filter (fun y => !inZone y) ∨ y.state = .expected) ∧
    (hasRole s .check = false → onlyChanges (.route :: settleBlocks) s t) ∧
    (hasRole s .check = true → t.eval = none ∧ t.prof = { s.prof with
        phase := .none, front := none, rear := none, compare := none, ever := false, top := none, gaps := 0 } ∧
      t.reader = { buffer := [], overlong := false, window := .closed, kept := none, tagWait := none } ∧
      t.store = { s.store with request := none } ∧
      (∀ r ∈ s.store.request, t.line.tx.all (fun y => y.inAttempt || y.frame != .wanted r.serial) = true)) ∧
    (s.slot = none → t.zone.zstate = if infeedPermit t then .inbound else .empty) ∧ (roomFor 3 s = true →
      queued (.notice (.jamCleared none)) t = true ∧ (e.state = .releasing → e.takenHeard = false →
        hasRole s .dispatch = false → queued (.lost (downstream s) e.record.track) t = true)) ∧
    (hasRole s .dispatch = true → t.route = { s.route with
      exitClass := none, code := .none, laneWait := none, waitExpired := false }) := by
  have hv := vacated_ackAllClear hT ho hz
  have hkept : s.table.filter (fun y => !inZone y) = outs := by
    rw [hT, filter_behind ho fun x hx => by simp [inZone_of_outbound hx]]
    simp [hz]
  set m := ackAllClear s with hm
  obtain ⟨hserv, hcfg, hpins, hslot, hTm⟩ := hv.core
  have ha : active m = true := by rw [active_congr hserv, active_of_inService hin]
  have hoff : offering m = false := offering_false_of_zone (by simp [hv.zone])
  have hfol := hv.routeFollows
  obtain ⟨z, o, hzt⟩ := settle_zone_of_not_offering (b := s) ha hoff hfol
  have hend : t = windowStep s (slotStep (permitStep (stopOffering m))) := by rw [ht, settle_of_not_offering ha hoff hfol]
  rw [hkept]
  have hset : onlyChanges [.line, .table, .slot, .zone, .route, .weigh] m t := by
    rw [ht]
    exact onlyChanges_settle (bs := []) fun k => .inr (by cases k <;> rfl)
  refine ⟨by rw [ht, hzt, hv.zone], by rw [ht]; simp [hpins], by rw [ht, hzt, hv.zone],
    hv.only.trans hset (by decide) (by decide), by rw [ht, ← hTm]; exact isPrefixOf_settle ha hoff hfol, fun hs => ?_,
    fun y hy => ?_, fun hc => (hv.other hc).trans hset (by decide) (by decide), fun hc => ?_, fun hs => ?_, fun hroom => ?_,
    fun hd => ?_⟩
  · rw [ht, (settle_vacated ha (by simp [hv.zone]) hfol (by rw [hslot, hs])).1, hTm]
  · rw [hend, windowStep_table] at hy
    simpa [hTm] using mem_slotStep hy
  · obtain ⟨h1, h2, h3, h4⟩ := hv.check hc
    refine ⟨by rw [ht]; simp [h1], by rw [ht]; simp [h2], by rw [ht]; simp [h3], by rw [ht]; simp [h4], fun r hr => ?_⟩
    have hcs : hasRole (permitStep (stopOffering m)) .check = true := by
      rw [hasRole_congr (s := s) (by simp [hcfg]), hc]
    rw [hend, windowStep_line, slotStep_of_check hcs, permitStep_line, List.all_eq_true]
    exact all_stopOffering (by simp) (ackAllClear_withdraws hc he hr)
  · rw [ht]
    exact (settle_vacated ha (by simp [hv.zone]) hfol (by rw [hslot, hs])).2
  · have hroom := tx_of_roomFor hroom
    have hvl := vacated_length_le s
    have hin' : inService (vacated s) = true := by
      rw [inService_congr (s := s) (by simp [vacated]), hin]
    obtain ⟨hq, hlost⟩ := ackAllClear_queued (e := e) hin' (by omega)
    rw [← ackAllClear_of_zoneEntry he, ← hm] at hq hlost
    have hlen : m.line.tx.length < 8 := by
      have h1 := lostIfReleasing_length_le e (vacated s)
      have h2 := clearJam_length_le none (lostIfReleasing e (vacated s))
      rw [← ackAllClear_of_zoneEntry he, ← hm] at h2
      omega
    have hdown : downstream (vacated s) = downstream s := by simp [downstream, vacated]
    rw [hdown, hasRole_congr (s := s) (by simp [vacated])] at hlost
    rw [ht]
    exact ⟨queued_settle ha hoff hfol rfl hlen hq, fun h1 h2 h3 => queued_settle ha hoff hfol rfl hlen (hlost h1 h2 h3)⟩
  · have hr : m.route = dropRoute s.route := by rw [hv.route, if_pos hd]
    rw [hend]
    simp [hr, dropRoute]

/-- O29 with the position eye blocked, elsewhere than at DISPATCH. -/
theorem acknowledge_at_work (h : Restopped s u outs e) (hT : s.table = outs ++ [e]) (ho : allOutbound outs)
    (he : e.state = .present ∨ e.state = .done ∨ e.state = .releasing)
    (ht : t = offerStep (stopOffering (evalStep (workAfresh u)))) {y : Entry} (hy : y ∈ t.table) (hin : inZone y = true) :
    (e.state ≠ .present → y.state = .done ∧ y.record = e.record) ∧
    (e.state = .releasing → y.takenHeard = false) ∧
    (e.state = .present → e.record.unknownOrigin = true ∨ hasRole s .plain = true →
      y.state = .done ∧ y.record = e.record) ∧
    (e.state = .present → e.record.unknownOrigin = false → hasRole s .wrap = true →
      if e.record.wrap.isSome then y.state = .done ∧ y.record = e.record
      else if e.record.check = some .pass then y.state = .working ∧ y.record = e.record ∧ t.wrap.attempt = 1
      else y.state = .done ∧ y.record = { e.record with wrap := some .skipped }) ∧
    (e.state = .present → e.record.unknownOrigin = false → hasRole s .label = true →
      if e.record.label.isSome then y.state = .done ∧ y.record = e.record
      else if e.record.check = some .pass ∧ isWrapped e.record.wrap = true then
        y.state = .working ∧ y.record = e.record ∧ t.label.attempt = 1
      else y.state = .done ∧ y.record = { e.record with label := some .skipped }) ∧
    (e.state = .present → e.record.unknownOrigin = false → hasRole s .check = true →
      ∀ ev ∈ s.eval, ev.track = e.record.track → EvalKept s t ∧ t.store = s.store ∧ t.prof = { s.prof with
          phase := .faulted, front := none, rear := none, compare := none, ever := false, top := none, gaps := 0 } ∧
        t.eval.all (fun w => w.profile = some .profileFault ∧ w.tag = ev.tag ∧ w.manifest = ev.manifest) = true ∧
        (t.eval.isSome = true → y.state = .working) ∧ t.weigh.held = none ∧ t.weigh.restarts = 0 ∧
        t.reader = (if ev.tag = none then { s.reader with tagWait := some s.cfg.check.tagWait }
                    else s.reader)) := by
  have hTt : t.table = (evalStep (workAfresh u)).table := by rw [ht]; simp
  obtain ⟨h1, h2, h3, h4, h5⟩ := ack_record h ho he hTt (by rw [ht]; simp) (by rw [ht]; simp) hy hin
  refine ⟨h1, h2, h3, h4, h5, fun hp hu hc ev hev htr => ?_⟩
  obtain ⟨k1, k2, k3, k4, k5, k6⟩ := ack_check h hT ho hp hu hc hev htr hTt (by rw [ht]; simp) (by rw [ht]; simp)
    (by rw [ht]; simp) (by rw [ht]; simp) (by rw [ht]; simp)
  exact ⟨k1, k2, k3, k4, k5 y hy hin, k6⟩

/-- Settles O29: by what the eyes show. -/
theorem acknowledgeEndsTheJam : Obligations.AcknowledgeEndsTheJam := by
  intro s e x hs hin hx
  refine ⟨fun hz => by simp [exec, execAckPress, hz], fun hz he => ?_⟩
  obtain ⟨outs, hT, ho, hst⟩ := hs.jammed_of_zoneEntry hz he
  have hzone : inZone e = true := inZone_iff.2 (by tauto)
  rw [exec_ackPress hin hz]
  by_cases hclear : eyesClear s.pins = true
  · rw [if_pos hclear]
    obtain ⟨t, ht⟩ : ∃ t, t = settle s (ackAllClear s) := ⟨_, rfl⟩
    obtain ⟨h1, h2, h3, h4, h5⟩ := acknowledge_all_clear hin hT ho he hzone ht
    have hpos : s.pins.eyePos ≠ true := fun h => by simp [eyesClear, h] at hclear
    exact ⟨t, by rw [ht], h1, h2, h3, h4, fun _ => h5, fun h => absurd h hpos, fun _ h => by simp [hclear] at h⟩
  rw [if_neg hclear]
  by_cases hpos : s.pins.eyePos = true
  · rw [if_pos hpos, ackAtPosition_workAfresh]
    have hu := restopped_ackStopped hT ho he
    obtain ⟨t, ht⟩ : ∃ t, t = settle s (evalStep (workAfresh (ackStopped s))) := ⟨_, rfl⟩
    have hpins : t.pins = s.pins := by rw [ht, settle_pins, evalStep_pins, workAfresh_pins, hu.pins]
    refine ⟨t, by rw [ht], ?_⟩
    cases hd : hasRole s .dispatch
    · rw [settle_restopped hu (active_of_inService hin) hz hd] at ht
      obtain ⟨hl, hstop⟩ := ackLeaves_elsewhere hu ho hin hst ht
      exact ⟨hl.jam, hpins, hl.holds, hl.only, fun h => absurd h hclear, fun _ => ⟨hl.record, hl.queued, hl.track,
        fun _ => ⟨hstop, fun y hy hiny => acknowledge_at_work hu hT ho hst ht hy hiny⟩, fun h => by simp at h⟩,
        fun h => by simp [hpos] at h⟩
    · have hend : t = routeStep (stopOffering (evalStep (workAfresh (ackStopped s)))) := by
        rw [ht, settle_of_dispatch]
        · rw [active_congr (s := s) (by simp [hu.service]), active_of_inService hin]
        · rw [hasRole_congr (s := s) (by simp [hu.cfg]), hd]
        · simp [hu.zone]
      have hl := ackLeaves_dispatch hu ho hin hst hd hend
      exact ⟨hl.jam, hpins, hl.holds, hl.only, fun h => absurd h hclear, fun _ => ⟨hl.record, hl.queued, hl.track,
        fun h => by simp at h, fun _ => ack_dispatch hu ho hin hst hd hx hend⟩, fun h => by simp [hpos] at h⟩
  · rw [if_neg hpos]
    obtain ⟨t, ht⟩ : ∃ t, t = settle s (ackElsewhere s) := ⟨_, rfl⟩
    obtain ⟨h1, h2, hTt, honly, hpres, hrest⟩ := acknowledge_elsewhere hin hT ho he ht
    have hpins : t.pins = s.pins := by simpa [Block.same] using honly .pins
    exact ⟨t, by rw [ht], h1, hpins, h2, honly.trans (cs := []) (fun k => .inr (by cases k <;> rfl)) (by decide) (by decide),
      fun h => absurd h hclear, fun h => absurd h hpos, fun _ _ => ⟨hTt, honly, fun hp _ ev hev _ => hpres hp ev hev, hrest⟩⟩

end

end Sys2Proof.Machine
end

