-- ==== Proofs/Hello.lean ====
section
/-! PROOF. A HELLO ends its sender's hold and undoes the transfer under way with it (R21, R22, R51, R52); O22. -/

namespace Sys2Proof.Machine

section
variable {b s u w m t : State} {n : Nat} {rest : List RxFrame} {kept : List Entry} {outs : List Entry} {e : Entry}

/-! ## The end of an event that begins no delivery -/

/-- At the end of an event the platform is as the event leaves it. -/
theorem platformEmpty_middle (hc : hasRole m .check = true) :
    platformEmpty (offerStep (slotStep (routeStep (permitStep (stopOffering m))))) = platformEmpty m := by
  have hsame := sameCore_stopOffering m
  have hc' : hasRole (permitStep (stopOffering m)) .check = true := by rw [hasRole_congr (s := m) (by simp), hc]
  rw [(sameCore_offerStep _).platformEmpty, routeStep_of_not_dispatch (not_dispatch_of_check hc'), slotStep_of_check hc',
    platformEmpty_permitStep, hsame.platformEmpty]

theorem settle_of_platform (ha : active m = true) (hp : hasRole m .check = true → platformEmpty b = platformEmpty m) :
    settle b m = offerStep (slotStep (routeStep (permitStep (stopOffering m)))) := by
  rw [settle_active ha, windowStep_of fun hw => ?_]
  have hc : hasRole m .check = true := by
    rw [← hasRole_congr (s := m) (t := offerStep (slotStep (routeStep (permitStep (stopOffering m))))) (by simp)]
    exact ((works_iff _).1 hw).2
  rw [platformEmpty_middle hc, hp hc]

/-- The end of an event leaves the hold set and JAM. -/
theorem settle_zone_kept (b m : State) : (settle b m).zone.holds = m.zone.holds ∧ (settle b m).zone.jam = m.zone.jam := by
  cases ha : active m
  · rw [settle_inactive ha]
    exact ⟨rfl, rfl⟩
  · obtain ⟨o, h1⟩ := stopOffering_zone m
    obtain ⟨z, h2⟩ := permitStep_zone_state (stopOffering m)
    obtain ⟨h3, h3'⟩ := routeStep_zone_kept (permitStep (stopOffering m))
    obtain ⟨z', h4⟩ := slotStep_zone_state (routeStep (permitStep (stopOffering m)))
    obtain ⟨o', h5⟩ := offerStep_zone (slotStep (routeStep (permitStep (stopOffering m))))
    rw [settle_active ha, windowStep_zone, h5, h4]
    simp only [h3, h3', h2, h1, and_self]

/-- An empty slot stays empty. -/
theorem settle_slot_none (h : m.slot = none) : (settle b m).slot = none := by
  cases ha : active m
  · rwa [settle_inactive ha]
  · rw [settle_active ha, windowStep_slot, offerStep_slot, slotStep_of_none (by simp [h])]
    simp [h]

/-- What the end of the event leaves of the hold set, the slot and the blocks (R15, R31 to R33, R169). -/
theorem settle_frame (ha : active m = true) (hp : hasRole m .check = true → platformEmpty b = platformEmpty m) :
    onlyChanges [.line, .table, .slot, .zone, .route] m (settle b m) ∧ (settle b m).zone.holds = m.zone.holds ∧
      (m.slot = none → (settle b m).slot = none) := by
  refine ⟨?_, (settle_zone_kept b m).1, settle_slot_none⟩
  rw [settle_of_platform ha hp]
  intro k
  cases k <;> simp [Block.same]

/-- With no delivery to begin, the route evaluation may drop a lane wait, and nothing more (R171). -/
theorem settle_of_not_delivering (ha : active m = true) (hdel : delivering m = false)
    (hp : hasRole m .check = true → platformEmpty b = platformEmpty m) :
    ∃ r, settle b m = offerStep (slotStep ((permitStep (stopOffering m)).setRoute r)) := by
  have hdel' : delivering (permitStep (stopOffering m)) = false := by
    cases hd : hasRole m .dispatch
    · exact delivering_false_of_role (by rw [hasRole_congr (s := m) (by simp), hd])
    · rw [permitStep_of_role (check_false_of_dispatch (by rw [hasRole_congr (s := m) (by simp), hd])),
        (sameCore_stopOffering m).delivering, hdel]
  rw [settle_of_platform ha hp]
  obtain h | ⟨-, h⟩ | ⟨_, -, hd, -⟩ := routeStep_cases (permitStep (stopOffering m))
  · exact ⟨_, by rw [h, State.setRoute_same]⟩
  · exact ⟨_, by rw [h]; rfl⟩
  · simp [hdel'] at hd

/-- The table then grows at its tail, and only by the slot's OFFER (R15). -/
theorem settle_table_of_not_delivering (ha : active m = true) (hdel : delivering m = false)
    (hp : hasRole m .check = true → platformEmpty b = platformEmpty m) :
    m.table.isPrefixOf (settle b m).table = true ∧ (m.slot = none → (settle b m).table = m.table) := by
  obtain ⟨r, h⟩ := settle_of_not_delivering ha hdel hp
  rw [h, offerStep_table]
  refine ⟨?_, fun hs => ?_⟩
  · have hpre := isPrefixOf_slotStep ((permitStep (stopOffering m)).setRoute r)
    simpa using hpre
  · rw [slotStep_of_none (by simp [hs])]
    simp

/-- The zone state then changes by the slot's OFFER and the permit alone (R15, R32). -/
theorem settle_zstate_of_not_delivering (ha : active m = true) (hdel : delivering m = false)
    (hp : hasRole m .check = true → platformEmpty b = platformEmpty m) (hs : m.slot = none) :
    (settle b m).zone.zstate = (permitStep (stopOffering m)).zone.zstate := by
  obtain ⟨r, h⟩ := settle_of_not_delivering ha hdel hp
  obtain ⟨o, ho⟩ := offerStep_zone ((permitStep (stopOffering m)).setRoute r)
  rw [h, slotStep_of_none (by simp [hs]), ho]
  rfl

/-- A zone with a pallet in it keeps its state and its timers, but for the repeat timer. -/
theorem settle_zone_of_record (ha : active m = true) (hd : hasRole m .dispatch = false)
    (hp : hasRole m .check = true → platformEmpty b = platformEmpty m) (he : m.zone.zstate ≠ .empty)
    (hi : m.zone.zstate ≠ .inbound) : settle b m = offerStep (stopOffering m) := by
  have hsame := sameCore_stopOffering m
  have hacc : accepting (stopOffering m) = false := accepting_false_of_zone (by rwa [hsame.zstate])
  have hperm : permitStep (stopOffering m) = stopOffering m :=
    permitStep_of (by rw [hsame.active, ha]) (permitSound_of_zone (by rwa [hsame.zstate])) fun _ => hacc
  rw [settle_of_platform ha hp, hperm, routeStep_of_not_dispatch (by rw [hsame.role, hd]), slotStep_of fun _ => .inl hacc]

/-! ## What the frame itself does -/

/-- The hold set and the upstream's part (R22, R47, R52). -/
def greeted (n : Nat) (s : State) : State :=
  if n = upstream s then helloFromUpstream (setHolds (removeHold n s.zone.holds) (dropHead s))
  else setHolds (removeHold n s.zone.holds) (dropHead s)

theorem greeted_eq (hrx : s.line.rx = .hello n :: rest) : greeted n s =
    ((((s.setLine { s.line with rx := rest }).setTable
        (s.table.filter (fun e => !(n = upstream s && e.state = .expected)))).setSlot
          (if n = upstream s then none else s.slot)).setZone { s.zone with
            holds := removeHold n s.zone.holds
            zstate := if n = upstream s ∧ s.zone.zstate = .inbound then .empty else s.zone.zstate }) := by
  unfold greeted
  rw [dropHead_eq hrx]
  split
  · rename_i h
    have hf : (fun e : Entry => !(decide (n = upstream s) && decide (e.state = .expected))) =
        fun e => e.state != .expected := by
      funext e
      by_cases he : e.state = .expected <;> simp [h, he]
    rw [helloFromUpstream_eq, hf]
    simp only [eq_true h, true_and]
    rfl
  · rename_i h
    have hf : (fun e : Entry => !(decide (n = upstream s) && decide (e.state = .expected))) = fun _ => true := by
      funext e
      simp [h]
    rw [hf, List.filter_true, if_neg (fun hc => h hc.1)]
    rfl

/-- The downstream's part before the record is offered (R21, R51). -/
def undone (u : State) : State :=
  if u.zone.zstate = .releasing then stopOrJam (returnToDone (u.setTable (u.table.filter (fun e => e.state != .outbound))))
  else returnToDone (u.setTable (u.table.filter (fun e => e.state != .outbound)))

theorem helloFromDownstream_undone (u : State) : helloFromDownstream u = offerAtOnce (undone u) := rfl

theorem heardHello_eq (hn : n ≠ 0) : heardHello n (dropHead s) =
    if n = downstream s then offerAtOnce (undone (greeted n s)) else greeted n s := by
  have hup : upstream (dropHead s) = upstream s := rfl
  have hdown : downstream (dropHead s) = downstream s := rfl
  have hz : (dropHead s).zone.holds = s.zone.holds := rfl
  simp [heardHello, greeted, helloFromDownstream_undone, hup, hdown, hz, hn]

/-- The station after the frame, before it offers. -/
def unoffered (n : Nat) (s : State) : State := if n = downstream s then undone (greeted n s) else greeted n s

theorem heardHello_unoffered (hn : n ≠ 0) : heardHello n (dropHead s) =
    if n = downstream s then offerAtOnce (unoffered n s) else unoffered n s := by
  rw [heardHello_eq hn]
  unfold unoffered
  split <;> rfl

/-- The record returned to DONE, the OUTBOUND entries gone. -/
def returned (u : State) : State := returnToDone (u.setTable (u.table.filter (fun e => e.state != .outbound)))

theorem undone_eq (u : State) : undone u = if u.zone.zstate = .releasing then stopOrJam (returned u) else returned u := rfl

theorem returned_table (u : State) : (returned u).table =
    (u.table.filter (fun e => e.state != .outbound)).map
      (fun e => if e.state = .releasing then { e with state := .done, takenHeard := false } else e) := rfl

theorem greeted_table (hrx : s.line.rx = .hello n :: rest) :
    (greeted n s).table = s.table.filter (fun e => !(n = upstream s && e.state = .expected)) := by
  rw [greeted_eq hrx]
  rfl

/-- The table after the frame, as the statement has it. -/
theorem unoffered_table (hrx : s.line.rx = .hello n :: rest) : (unoffered n s).table =
    (s.table.filter (fun e => !(n = upstream s && e.state = .expected) &&
      !(n = downstream s && e.state = .outbound))).map (fun e => if n = downstream s ∧ e.state = .releasing then
        { e with state := .done, takenHeard := false } else e) := by
  unfold unoffered
  split
  · rename_i h
    have hT : (undone (greeted n s)).table = (returned (greeted n s)).table := by
      rw [undone_eq]
      split
      · unfold stopOrJam
        split <;> simp
      · rfl
    rw [hT, returned_table, greeted_table hrx, List.filter_filter]
    have hq : (fun e : Entry => (e.state != .outbound) && !(decide (n = upstream s) && decide (e.state = .expected))) =
        fun e => !(decide (n = upstream s) && decide (e.state = .expected)) &&
          !(decide (n = downstream s) && decide (e.state = .outbound)) := by
      funext e
      rw [Bool.and_comm]
      by_cases he : e.state = .outbound <;> simp [h.symm, he]
    have hf : (fun e : Entry => if n = downstream s ∧ e.state = .releasing then
        { e with state := .done, takenHeard := false } else e) =
        fun e => if e.state = .releasing then { e with state := .done, takenHeard := false } else e := by
      funext e
      simp only [eq_true h, true_and]
    rw [hq, hf]
  · rename_i h
    rw [greeted_table hrx]
    simp [h]

/-- What the frame does to the zone, but for the repeat timer (R47, R51, R52). -/
theorem unoffered_zone (hrx : s.line.rx = .hello n :: rest) :
    (unoffered n s).zone.holds = removeHold n s.zone.holds ∧
    (unoffered n s).zone.zstate = (if n = downstream s ∧ s.zone.zstate = .releasing then
      (if s.pins.eyePos then .stopped else .jammed)
      else if n = upstream s ∧ s.zone.zstate = .inbound then .empty else s.zone.zstate) ∧
    (n = downstream s → s.zone.zstate = .releasing → (unoffered n s).zone.releaseTimer = none ∧
      (unoffered n s).zone.exitSeen = false ∧ (unoffered n s).zone.jam = (s.zone.jam || !s.pins.eyePos)) := by
  have hg := greeted_eq hrx
  have hz : (greeted n s).zone.zstate = .releasing ↔ s.zone.zstate = .releasing := by
    rw [hg]
    simp only [State.setZone_zone]
    split
    · rename_i h
      simp [h.2]
    · rfl
  unfold unoffered
  by_cases h : n = downstream s
  · rw [if_pos h, undone_eq]
    by_cases hr : s.zone.zstate = .releasing
    · rw [if_pos (hz.2 hr), if_pos ⟨h, hr⟩]
      have hp : (returned (greeted n s)).pins = s.pins := by simp [returned, hg]
      unfold stopOrJam
      rw [hp]
      cases s.pins.eyePos <;> simp [jam, returned, hg]
    · rw [if_neg fun hc => hr (hz.1 hc), if_neg fun hc => hr hc.2]
      simp [returned, hg, hr]
  · rw [if_neg h, if_neg fun hc => h hc.1]
    simp [hg, h]

theorem unoffered_slot (hrx : s.line.rx = .hello n :: rest) :
    (unoffered n s).slot = if n = upstream s then none else s.slot := by
  have hg := greeted_eq hrx
  have hs : (undone (greeted n s)).slot = (greeted n s).slot := by
    rw [undone_eq, stopOrJam]
    split <;> (try split) <;> simp [returned]
  unfold unoffered
  split
  · rw [hs, hg]
    rfl
  · rw [hg]
    rfl

/-- Without a jam the frame leaves the queue to be sent as it is. -/
theorem unoffered_line (hrx : s.line.rx = .hello n :: rest)
    (hj : n = downstream s → s.zone.zstate = .releasing → s.pins.eyePos = true) :
    (unoffered n s).line = { s.line with rx := rest } := by
  have hg := greeted_eq hrx
  unfold unoffered
  split
  · rename_i h
    rw [undone_eq]
    split
    · rename_i hr
      have hr' : s.zone.zstate = .releasing := by
        rw [hg] at hr
        simp only [State.setZone_zone] at hr
        split at hr
        · simp at hr
        · exact hr
      have hp : (returned (greeted n s)).pins.eyePos = true := by simp [returned, hg, hj h hr']
      rw [stopOrJam, if_pos hp]
      simp [returned, hg]
    · simp [returned, hg]
  · rw [hg]
    rfl

theorem unoffered_only (hrx : s.line.rx = .hello n :: rest) :
    onlyChanges [.line, .table, .slot, .zone] s (unoffered n s) ∧ (unoffered n s).line.rx = rest := by
  have hg := greeted_eq hrx
  unfold unoffered undone stopOrJam
  refine ⟨?_, by split <;> (try split) <;> (try split) <;> simp [jam, hg]⟩
  split <;> (try split) <;> (try split) <;> intro k <;> cases k <;> simp [Block.same, jam, hg]

end

end Sys2Proof.Machine
end

