-- ==== Proofs/HelloOffers.lean ====
section
/-! PROOF. What follows a HELLO in the same event: the permit, the record offered at once, the waiting delivery; O22. -/

namespace Sys2Proof.Machine

section
variable {b s u w m t : State} {n : Nat} {rest : List RxFrame} {kept : List Entry} {outs : List Entry} {e : Entry}

theorem exec_helloReceived (hin : inService s = true) (hrx : s.line.rx = .hello n :: rest) :
    exec .helloReceived s = .next (settle s (heardHello n (dropHead s))) := by
  simp [exec, execHelloReceived, hrx, hin]

/-- Offering at once queues OFFER of the head record and starts the repeat timer (R21, R51). -/
theorem offerAtOnce_cases (v : State) : (∃ e, offering v = true ∧ headEntry v = some e ∧ offerAtOnce v =
      queueFrame (.offer (downstream v) e.record) (v.setZone { v.zone with offerTimer := some v.cfg.timing.offerRepeat })) ∨
    (offering v = false ∧ offerAtOnce v = v) := by
  unfold offerAtOnce
  split
  · rename_i ho
    obtain ⟨e, he, -⟩ := Option.any_eq_true _ _ |>.1 (show (headEntry v).any _ = true from (offering_iff.1 ho).2.1)
    exact .inl ⟨e, ho, he, by simp [offerNow, he]⟩
  · rename_i ho
    exact .inr ⟨by simpa using ho, rfl⟩

theorem sameCore_offerAtOnce (v : State) : SameCore v (offerAtOnce v) := by
  unfold offerAtOnce
  split
  · exact sameCore_offerNow v
  · exact .refl v

theorem onlyChanges_offerAtOnce (v : State) : onlyChanges [.line, .zone] v (offerAtOnce v) ∧
    (offerAtOnce v).line.rx = v.line.rx ∧ ∃ o, (offerAtOnce v).zone = { v.zone with offerTimer := o } := by
  obtain ⟨e, -, -, h⟩ | ⟨-, h⟩ := offerAtOnce_cases v <;> rw [h]
  · exact ⟨fun k => by cases k <;> simp [Block.same], by simp, some v.cfg.timing.offerRepeat, by simp⟩
  · exact ⟨fun k => .inr (by cases k <;> rfl), rfl, v.zone.offerTimer, rfl⟩

/-! ## The event before its end -/

/-- The event differs from the station not yet offering in the queue and the repeat timer alone. -/
theorem heardHello_core (hn : n ≠ 0) : SameCore (unoffered n s) (heardHello n (dropHead s)) ∧
    onlyChanges [.line, .zone] (unoffered n s) (heardHello n (dropHead s)) ∧
    (heardHello n (dropHead s)).line.rx = (unoffered n s).line.rx ∧
    ∃ o, (heardHello n (dropHead s)).zone = { (unoffered n s).zone with offerTimer := o } := by
  rw [heardHello_unoffered hn]
  split
  · exact ⟨sameCore_offerAtOnce _, onlyChanges_offerAtOnce _⟩
  · exact ⟨.refl _, fun k => .inr (by cases k <;> rfl), rfl, _, rfl⟩

theorem removeHold_eq_nil {l : List Hold} : removeHold n l = [] ↔ l.all (fun h => h.node = n) = true := by
  simp [removeHold]

/-- What the event leaves before its end, as the statement names it. -/
structure HelloLeaves (n : Nat) (s m : State) (rest : List RxFrame) (kept : List Entry) : Prop where
  sound : StationSound m
  only : onlyChanges [.line, .table, .slot, .zone] s m
  rx : m.line.rx = rest
  table : m.table = kept
  slot : m.slot = if n = upstream s then none else s.slot
  holds : m.zone.holds = removeHold n s.zone.holds
  zstate : m.zone.zstate = if n = downstream s ∧ s.zone.zstate = .releasing then
      (if s.pins.eyePos then .stopped else .jammed)
    else if n = upstream s ∧ s.zone.zstate = .inbound then .empty else s.zone.zstate
  released : n = downstream s → s.zone.zstate = .releasing → m.zone.releaseTimer = none ∧ m.zone.exitSeen = false ∧
    m.zone.jam = (s.zone.jam || !s.pins.eyePos)

theorem helloLeaves_heardHello (hs : StationSound s) (hin : inService s = true) (hn : n ≠ 0) (hrx : s.line.rx = .hello n :: rest)
    (hk : kept = ((s.table.filter (fun e => !(n = upstream s && e.state = .expected) &&
      !(n = downstream s && e.state = .outbound))).map (fun e => if n = downstream s ∧ e.state = .releasing then
        { e with state := .done, takenHeard := false } else e))) :
    HelloLeaves n s (heardHello n (dropHead s)) rest kept := by
  obtain ⟨hcore, honly, hrxm, o, hz⟩ := heardHello_core (s := s) hn
  obtain ⟨h1, h2⟩ := unoffered_only hrx
  obtain ⟨hholds, hzst, hrel⟩ := unoffered_zone hrx
  exact ⟨(ready_heardHello hs (active_of_inService hin) n).sound, h1.trans honly (by decide) (by decide), by rw [hrxm, h2],
    by rw [hcore.table, unoffered_table hrx, hk], by rw [hcore.slot, unoffered_slot hrx], by rw [hz]; exact hholds,
    by rw [hz]; exact hzst, fun hd hr => by rw [hz]; exact hrel hd hr⟩

namespace HelloLeaves
variable (h : HelloLeaves n s m rest kept)
include h

theorem cfg : m.cfg = s.cfg := by simpa [Block.same] using h.only .cfg
theorem service : m.service = s.service := by simpa [Block.same] using h.only .service
theorem pins : m.pins = s.pins := by simpa [Block.same] using h.only .pins
theorem route : m.route = s.route := by simpa [Block.same] using h.only .route
theorem weigh : m.weigh = s.weigh := by simpa [Block.same] using h.only .weigh
theorem role (r : Role) : hasRole m r = hasRole s r := hasRole_congr h.cfg r
theorem active (ha : active s = true) : active m = true := by rw [active_congr h.service, ha]

/-- At CHECK, which has no upstream, the platform stays as it was (R91). -/
theorem platform (hs : StationSound s) (hn : n ≠ 0) (hup : hasRole s .check = true → upstream s = 0)
    (hc : hasRole m .check = true) : platformEmpty s = platformEmpty m := by
  have hne : n ≠ upstream s := by rw [hup (by rwa [h.role] at hc)]; exact hn
  rw [hs.platformEmpty, h.sound.platformEmpty, h.pins, h.zstate]
  split
  · rename_i hr
    rw [hr.2]
    split <;> rfl
  · simp [hne]

/-- Where the statement begins no delivery, none begins (R169). -/
theorem not_delivering (hn : n ≠ 0) (hdown : hasRole s .dispatch = true → downstream s = 0)
    (hc : hasRole s .dispatch = false ∨ s.zone.zstate ≠ .stopped ∨ s.zone.holds.any (fun h => h.node != n) = true) :
    delivering m = false := by
  obtain hd | hc := hc
  · exact delivering_false_of_role (by rw [h.role, hd])
  cases hd : hasRole s .dispatch
  · exact delivering_false_of_role (by rw [h.role, hd])
  have hne : ¬(n = downstream s ∧ s.zone.zstate = .releasing) := fun hx => hn (by rw [hx.1, hdown hd])
  obtain hz | hh := hc
  · refine delivering_false_of_zone ?_
    rw [h.zstate, if_neg hne]
    split
    · simp
    · exact hz
  · have hno : removeHold n s.zone.holds ≠ [] := fun hx => by
      obtain ⟨y, hy, hyn⟩ := List.any_eq_true.1 hh
      have hall := List.all_eq_true.1 (removeHold_eq_nil.1 hx) y hy
      simp at hall hyn
      exact hyn hall
    rw [← Bool.not_eq_true, delivering_iff]
    rintro ⟨-, -, -, -, hempty⟩
    rw [holdsEmpty, h.holds] at hempty
    exact hno (List.isEmpty_iff.1 hempty)

end HelloLeaves

/-! ## No delivery begins -/

/-- O22 where no delivery begins: the table, and the zone as the permit leaves it (R32, R52). -/
theorem hello_transfer (h : HelloLeaves n s m rest kept) (hin : inService s = true) (hn : n ≠ 0)
    (hup : hasRole s .check = true → upstream s = 0) (hdel : delivering m = false)
    (hp : hasRole m .check = true → platformEmpty s = platformEmpty m) (ht : t = settle s m) :
    kept.isPrefixOf t.table = true ∧ (n = upstream s ∨ s.slot = none → t.table = kept) ∧
    (n = upstream s → n ≠ downstream s → t.zone.zstate = if s.zone.zstate = .inbound then .empty else s.zone.zstate) ∧
    (n ≠ upstream s → (n = downstream s → s.zone.zstate ≠ .releasing) → s.slot = none → PermitSound s →
      t.zone.zstate = if infeedPermit t then .inbound else s.zone.zstate) := by
  have ha := h.active (active_of_inService hin)
  obtain ⟨hpre, hsame⟩ := settle_table_of_not_delivering ha hdel hp
  have hzst := settle_zstate_of_not_delivering ha hdel hp
  rw [← ht, h.table] at hpre hsame
  rw [← ht] at hzst
  have hslot : n = upstream s ∨ s.slot = none → m.slot = none := fun hc => by
    rw [h.slot]
    split
    · rfl
    · exact hc.resolve_left (by assumption)
  refine ⟨hpre, fun hc => hsame (hslot hc), fun hu hd => ?_, fun hu hd hs hperm => ?_⟩
  · have hchk : hasRole (stopOffering m) .check = false := by
      rw [← Bool.not_eq_true, hasRole_congr (s := s) (by simp [h.cfg])]
      exact fun hc => hn (by rw [hu, hup hc])
    rw [hzst (hslot (.inl hu)), permitStep_of_role hchk, stopOffering_zstate, h.zstate, if_neg fun hx => hd hx.1]
    simp [hu]
  · have hzm : m.zone.zstate = s.zone.zstate := by
      rw [h.zstate, if_neg fun hx => hd hx.1 hx.2, if_neg fun hx => hu hx.1]
    have hpm : PermitSound (stopOffering m) := by
      refine (sameCore_stopOffering m).permitSound fun hw hz => ?_
      obtain ⟨hh, hf, hov⟩ := hperm (by rwa [works_congr h.service h.cfg] at hw) (by rwa [hzm] at hz)
      have hnil : s.zone.holds = [] := List.isEmpty_iff.1 hh
      refine ⟨?_, by rw [h.weigh]; exact hf, by simpa [zeroOverdue, h.weigh] using hov⟩
      simp [holdsEmpty, h.holds, hnil, removeHold]
    have hin' : inService (stopOffering m) = true := by rw [inService_congr (s := s) (by simp [h.service]), hin]
    have hz := hzst (hslot (.inr hs))
    rw [hz, permitStep_zone hin' hpm, infeedPermit_congr (s := permitStep (stopOffering m)) (by rw [ht]; simp)
      (by rw [ht]; simp) hz]
    split
    · rfl
    · rw [stopOffering_zstate, hzm]

/-! ## The record offered at once -/

/-- With its OUTBOUND entries gone the station holds its zone record alone, DONE again if it was RELEASING (R21, R51). -/
theorem kept_of_record (hT : s.table = outs ++ [e]) (ho : allOutbound outs) (hin : inZone e = true) (hd : n = downstream s) :
    (s.table.filter (fun e => !(n = upstream s && e.state = .expected) &&
      !(n = downstream s && e.state = .outbound))).map (fun e => if n = downstream s ∧ e.state = .releasing then
        { e with state := .done, takenHeard := false } else e) = [redone e] := by
  obtain ⟨hx, hout⟩ := inZone_iff_ne.1 hin
  rw [hT, List.filter_append, List.filter_eq_nil_iff.2 fun y hy => by simp [← hd, ho y hy]]
  simp [hx, hout, ← hd, redone]

/-- A DONE record in STOPPED with no other hold is offered in the event (R51). -/
theorem hello_offers (hrx : s.line.rx = .hello n :: rest) (hin : inService s = true) (hn : n ≠ 0)
    (hdisp : hasRole s .dispatch = false) (hd : n = downstream s) (hT : (unoffered n s).table = [e]) (he : e.state = .done)
    (hz : (unoffered n s).zone.zstate = .stopped) (hh : s.zone.holds.all (fun h => h.node = n) = true)
    (hj : n = downstream s → s.zone.zstate = .releasing → s.pins.eyePos = true)
    (hp : hasRole (heardHello n (dropHead s)) .check = true → platformEmpty s = platformEmpty (heardHello n (dropHead s)))
    (ht : t = settle s (heardHello n (dropHead s))) :
    t.zone.offerTimer = some s.cfg.timing.offerRepeat ∧
      (roomFor 2 s = true → queued (.offer (downstream s) e.record) t = true) := by
  obtain ⟨honly, -⟩ := unoffered_only hrx
  have hcfg : (unoffered n s).cfg = s.cfg := by simpa [Block.same] using honly .cfg
  have hserv : (unoffered n s).service = s.service := by simpa [Block.same] using honly .service
  obtain ⟨hholds, -⟩ := unoffered_zone hrx
  have hline := unoffered_line hrx hj
  set v := unoffered n s with hv
  have hhead : headEntry v = some e := by simp [headEntry, hT, he]
  have hoff : offering v = true := offering_iff.2 ⟨by rw [hasRole_congr hcfg, hdisp], by simp [headDone, hhead, he], hz,
    by rw [holdsEmpty, hholds, removeHold_eq_nil.2 hh]; rfl, by rw [inService_congr hserv, hin]⟩
  obtain ⟨m, hm⟩ : ∃ m, m = heardHello n (dropHead s) := ⟨_, rfl⟩
  have hmv : m = offerAtOnce v := by rw [hm, heardHello_unoffered hn, if_pos hd]
  obtain ⟨e', -, he', hnow⟩ | ⟨hno, -⟩ := offerAtOnce_cases v
  case inr => simp [hoff] at hno
  obtain rfl : e = e' := by simpa [hhead] using he'
  rw [← hmv] at hnow
  have hsame : SameCore v m := hmv ▸ sameCore_offerAtOnce v
  have hend : t = m := by
    have hoffm : offering m = true := by rw [hsame.offering, hoff]
    rw [ht, ← hm, settle_of_offering hoffm, offerStep_of fun _ => by rw [hnow]; simp]
    refine windowStep_of fun hw => ?_
    rw [hm] at hw ⊢
    exact hp ((works_iff _).1 hw).2
  have hdown : downstream v = downstream s := downstream_congr hcfg
  rw [hend, hnow, hdown, hcfg]
  refine ⟨by simp, fun hroom => ?_⟩
  have hroom := tx_of_roomFor hroom
  have hinv : inService (v.setZone { v.zone with offerTimer := some s.cfg.timing.offerRepeat }) = true :=
    (inService_congr hserv).trans hin
  refine queued_offer hinv (roomForOffer_of_lt ?_)
  simp only [State.setZone_line, hline, Config.txCapacity]
  omega

/-- The record of a release undone stands in the zone, STOPPED or JAMMED (R51). -/
theorem hello_released (h : HelloLeaves n s m rest kept) (hin : inService s = true) (hdisp : hasRole s .dispatch = false)
    (hd : n = downstream s) (hz : s.zone.zstate = .releasing)
    (hp : hasRole m .check = true → platformEmpty s = platformEmpty m) (ht : t = settle s m) :
    t = offerStep (stopOffering m) ∧ t.zone.releaseTimer = none ∧ t.zone.exitSeen = false ∧
      t.zone.zstate = (if s.pins.eyePos then .stopped else .jammed) ∧ t.zone.jam = (s.zone.jam || !s.pins.eyePos) := by
  have hzm : m.zone.zstate = if s.pins.eyePos then .stopped else .jammed := by rw [h.zstate, if_pos ⟨hd, hz⟩]
  obtain ⟨hrel, hseen, hjam⟩ := h.released hd hz
  have hend : t = offerStep (stopOffering m) := by
    rw [ht, settle_zone_of_record (h.active (active_of_inService hin)) (by rw [h.role, hdisp]) hp] <;> rw [hzm] <;>
      split <;> simp
  obtain ⟨o, ho⟩ := offering_zone m
  rw [hend, ho]
  exact ⟨rfl, hrel, hseen, hzm, hjam⟩

/-- The notice of the jam in which a release away from the position eye ends (R51). -/
theorem hello_jam_queued (hs : StationSound s) (hrx : s.line.rx = .hello n :: rest) (hin : inService s = true) (hn : n ≠ 0)
    (hd : n = downstream s) (hz : s.zone.zstate = .releasing) (he : zoneEntry s = some e) (hpos : s.pins.eyePos = false)
    (hroom : s.line.tx.length + 2 ≤ 8) :
    queued (.notice (.jam (some e.record.track) .downstreamRestart))
      (offerStep (stopOffering (heardHello n (dropHead s)))) = true := by
  obtain ⟨outs, hT, ho, hrel, -⟩ := hs.releasing_of_zoneEntry hz he
  have hg := greeted_eq hrx
  have hinz : inZone e = true := inZone_iff.2 (by tauto)
  have hzg : (greeted n s).zone.zstate = .releasing := by
    rw [hg]
    simp [hz]
  have hpins : (returned (greeted n s)).pins.eyePos = false := by simp [returned, hg, hpos]
  have hun : unoffered n s = jam .downstreamRestart (returned (greeted n s)) := by
    rw [unoffered, if_pos hd, undone_eq, if_pos hzg, stopOrJam, if_neg (by simp [hpins])]
  have hTj : (returned (greeted n s)).table = [redone e] := by
    rw [← kept_of_record hT ho hinz hd, ← unoffered_table hrx, hun]
    simp [jam]
  have htrack : zoneTrack (returned (greeted n s)) = some e.record.track := by
    simp [zoneTrack, zoneEntry, hTj, inZone_redone, hinz]
  have hoff : offering (unoffered n s) = false := offering_false_of_zone (by rw [hun]; simp [jam])
  have hm : heardHello n (dropHead s) = unoffered n s := by
    rw [heardHello_unoffered hn, if_pos hd]
    obtain ⟨_, hx, -⟩ | ⟨-, h⟩ := offerAtOnce_cases (unoffered n s)
    · simp [hoff] at hx
    · exact h
  have hline : (returned (greeted n s)).line.tx = s.line.tx := by simp [returned, hg]
  have hserv : (returned (greeted n s)).service = s.service := by simp [returned, hg]
  have hq : queued (.notice (.jam (some e.record.track) .downstreamRestart)) (unoffered n s) = true := by
    rw [hun, jam, htrack]
    exact queued_self (s := (returned (greeted n s)).setZone _) ((inService_congr hserv).trans hin) rfl
      (by simp only [State.setZone_line, hline]; omega)
  have hlen : (unoffered n s).line.tx.length ≤ s.line.tx.length + 1 := by
    rw [hun, jam, ← hline]
    exact queueFrame_length_le _ _
  have hstop := stopOffering_length_le (unoffered n s)
  rw [hm]
  exact queued_offerStep rfl (by omega) (queued_stopOffering rfl hq)

/-- At DISPATCH the waiting record is decided upon once the last hold is gone (R169). -/
theorem hello_delivers (h : HelloLeaves n s m rest kept) (hin : inService s = true) (hd : hasRole s .dispatch = true)
    (hn : n ≠ downstream s) (hz : s.zone.zstate = .stopped) (hh : s.zone.holds.all (fun h => h.node = n) = true)
    (hT : m.table = outs ++ [e]) (ho : allOutbound outs) (he : e.state = .done) (ht : t = settle s m) :
    ∃ x ∈ t.route.exitClass, x = s.route.exitClass.getD (exitClassOf s.cfg.dispatch e.record) ∧
      (t.zone.zstate = .releasing ↔ (chooseExit s.pins s.route.lastLane x).isSome = true) := by
  have hzm : m.zone.zstate = .stopped := by
    rw [h.zstate, if_neg fun hx => hn hx.1, if_neg fun hx => by simp [hz] at hx, hz]
  have hend : t = routeStep (stopOffering m) := by
    rw [ht, settle_of_dispatch (h.active (active_of_inService hin)) (by rw [h.role, hd]) (by simp [hzm])]
  obtain ⟨w, hw⟩ : ∃ w, w = stopOffering m := ⟨_, rfl⟩
  rw [← hw] at hend
  have hTw : w.table = outs ++ [e] := by rw [hw, stopOffering_table, hT]
  have hholds : m.zone.holds = [] := by rw [h.holds, removeHold_eq_nil.2 hh]
  have hzw : w.zone.zstate = .stopped ∧ w.zone.holds = [] := by
    obtain ⟨o, hzo⟩ := stopOffering_zone m
    rw [hw, hzo]
    exact ⟨hzm, hholds⟩
  have hcfg : w.cfg = s.cfg := by rw [hw, stopOffering_cfg, h.cfg]
  have hpins : w.pins = s.pins := by rw [hw, stopOffering_pins, h.pins]
  have hroute : w.route = s.route := by rw [hw, stopOffering_route, h.route]
  have hserv : w.service = s.service := by rw [hw, stopOffering_service, h.service]
  have hdel := (delivering_of_tail hTw ho he (by rw [hasRole_congr hcfg, hd]) hzw.1).2
    ⟨by rw [inService_congr hserv, hin], hzw.2⟩
  obtain ⟨-, hgo, hwait⟩ := routeStep_decides hTw ho he hdel rfl
  rw [← hend, hpins, hroute, hcfg] at hgo hwait
  cases hch : chooseExit s.pins s.route.lastLane (s.route.exitClass.getD (exitClassOf s.cfg.dispatch e.record)) with
  | none =>
    obtain ⟨hr, hzt, -⟩ := hwait hch
    exact ⟨_, by rw [hr]; rfl, rfl, by rw [hzt, hzw.1, hch]; simp⟩
  | some exit =>
    obtain ⟨hr, hzt, -⟩ := hgo exit hch
    exact ⟨_, by rw [hr]; rfl, rfl, by rw [hzt, hch]; simp⟩

/-- The DONE record of a STOPPED zone is the zone record, behind the OUTBOUND entries. -/
theorem StationSound.done_of_stopped (hs : StationSound s) (hz : s.zone.zstate = .stopped) (he : zoneEntryIn s .done = some e) :
    ∃ outs, s.table = outs ++ [e] ∧ allOutbound outs ∧ e.state = .done := by
  obtain ⟨outs, x, hT, ho, -⟩ := hs.shape_stopped hz
  rw [zoneEntryIn_of_table hT ho (by decide)] at he
  obtain ⟨hx, hmem⟩ : x.state = .done ∧ x = e := by
    have hmem := List.mem_of_find?_eq_some he
    have hst := List.find?_some he
    rw [List.mem_singleton] at hmem
    subst hmem
    exact ⟨by simpa using hst, rfl⟩
  subst hmem
  exact ⟨outs, hT, ho, hx⟩

/-- What the frame keeps of a DONE record at a station whose downstream did not send it. -/
theorem kept_of_done (hT : s.table = outs ++ [e]) (ho : allOutbound outs) (he : e.state = .done) (hd : n ≠ downstream s) :
    (s.table.filter (fun e => !(n = upstream s && e.state = .expected) &&
      !(n = downstream s && e.state = .outbound))).map (fun e => if n = downstream s ∧ e.state = .releasing then
        { e with state := .done, takenHeard := false } else e) = outs ++ [e] := by
  have hid : (fun e : Entry => if n = downstream s ∧ e.state = .releasing then
      { e with state := .done, takenHeard := false } else e) = id := by
    funext y
    simp [hd]
  rw [hid, List.map_id, hT, List.filter_eq_self]
  intro y hy
  obtain hy | hy := List.mem_append.1 hy
  · simp [ho y hy, hd]
  · obtain rfl := List.mem_singleton.1 hy
    simp [he]

/-- The record of a release undone at the position eye is offered in the event, if no other hold is in force (R51). -/
theorem hello_offers_released (hs : StationSound s) (hrx : s.line.rx = .hello n :: rest) (hin : inService s = true)
    (hn : n ≠ 0) (hdisp : hasRole s .dispatch = false) (hd : n = downstream s) (hz : s.zone.zstate = .releasing)
    (he : zoneEntry s = some e) (hpos : s.pins.eyePos = true) (hh : s.zone.holds.all (fun h => h.node = n) = true)
    (hp : hasRole (heardHello n (dropHead s)) .check = true → platformEmpty s = platformEmpty (heardHello n (dropHead s)))
    (ht : t = settle s (heardHello n (dropHead s))) :
    t.zone.offerTimer = some s.cfg.timing.offerRepeat ∧
      (roomFor 2 s = true → queued (.offer (downstream s) e.record) t = true) := by
  obtain ⟨outs, hT, ho, hrel, -⟩ := hs.releasing_of_zoneEntry hz he
  have hTk : (unoffered n s).table = [redone e] := by
    rw [unoffered_table hrx, kept_of_record hT ho (inZone_iff.2 (by tauto)) hd]
  have hzu : (unoffered n s).zone.zstate = .stopped := by
    rw [(unoffered_zone hrx).2.1, if_pos ⟨hd, hz⟩, if_pos hpos]
  have hdone : (redone e).state = .done := by simp [redone_state, hrel]
  have hoff := hello_offers hrx hin hn hdisp hd hTk hdone hzu hh (fun _ _ => hpos) hp ht
  rwa [redone_record] at hoff

/-- A DONE record in STOPPED is offered afresh in the event, if no other hold is in force (R51; log 14). -/
theorem hello_offers_done (hs : StationSound s) (hrx : s.line.rx = .hello n :: rest) (hin : inService s = true)
    (hn : n ≠ 0) (hdisp : hasRole s .dispatch = false) (hd : n = downstream s) (hz : s.zone.zstate = .stopped)
    (he : zoneEntryIn s .done = some e) (hh : s.zone.holds.all (fun h => h.node = n) = true)
    (hp : hasRole (heardHello n (dropHead s)) .check = true → platformEmpty s = platformEmpty (heardHello n (dropHead s)))
    (ht : t = settle s (heardHello n (dropHead s))) :
    t.zone.offerTimer = some s.cfg.timing.offerRepeat ∧
      (roomFor 2 s = true → queued (.offer (downstream s) e.record) t = true) := by
  obtain ⟨outs, hT, ho, hdone⟩ := hs.done_of_stopped hz he
  have hTk : (unoffered n s).table = [redone e] := by
    rw [unoffered_table hrx, kept_of_record hT ho (inZone_iff.2 (by tauto)) hd]
  have hne : s.zone.zstate ≠ .releasing ∧ s.zone.zstate ≠ .inbound := by simp [hz]
  have hzu : (unoffered n s).zone.zstate = .stopped := by
    rw [(unoffered_zone hrx).2.1, if_neg fun hx => hne.1 hx.2, if_neg fun hx => hne.2 hx.2, hz]
  have hdone' : (redone e).state = .done := by simp [redone_state, hdone]
  have hoff := hello_offers hrx hin hn hdisp hd hTk hdone' hzu hh (fun _ hr => absurd hr hne.1) hp ht
  rwa [redone_record] at hoff

/-- Settles O22: the frame's part, and what the end of the event begins. -/
theorem helloRestartsTheTransfer : Obligations.HelloRestartsTheTransfer := by
  intro s n rest kept hs hin hup hdown hn hrx hk
  have h := helloLeaves_heardHello hs hin hn hrx hk
  have hp := h.platform hs hn hup
  obtain ⟨t, ht⟩ : ∃ t, t = settle s (heardHello n (dropHead s)) := ⟨_, rfl⟩
  obtain ⟨hframe, hholds, hslot⟩ := settle_frame (b := s) (h.active (active_of_inService hin)) hp
  rw [← ht] at hframe hholds hslot
  rw [h.holds] at hholds
  have hdisp : n = downstream s → hasRole s .dispatch = false := fun hd => by
    rw [← Bool.not_eq_true]
    exact fun hc => hn (by rw [hd, hdown hc])
  refine ⟨t, by rw [exec_helloReceived hin hrx, ht], h.only.trans hframe (by decide) (by decide),
    by rw [ht, settle_rx, h.rx], by rw [hholds]; exact removeHold_self n _,
    fun m _ hm => by rw [hholds]; exact removeHold_other hm _, fun hu => hslot (by rw [h.slot, if_pos hu]),
    fun hc => hello_transfer h hin hn hup (h.not_delivering hn hdown hc) hp ht, fun hd hz => ?_,
    fun hd0 hd hz hh e he => hello_offers_done hs hrx hin hn hd0 hd hz he hh hp ht, fun hd hz hh e he => ?_⟩
  · obtain ⟨hend, h1, h2, h3, h4⟩ := hello_released h hin (hdisp hd) hd hz hp ht
    refine ⟨h1, h2, h3, h4, fun e he hroom => ⟨fun hpos => ?_, fun hpos hh => ?_⟩⟩
    · rw [hend]
      exact hello_jam_queued hs hrx hin hn hd hz he hpos (tx_of_roomFor hroom)
    · obtain ⟨htimer, hq⟩ := hello_offers_released hs hrx hin hn (hdisp hd) hd hz he hpos hh hp ht
      exact ⟨hq hroom, htimer⟩
  · obtain ⟨outs, hT, ho, hdone⟩ := hs.done_of_stopped hz he
    have hne : n ≠ downstream s := fun hx => by simp [hdisp hx] at hd
    exact hello_delivers h hin hd hne hz hh (by rw [h.table, hk, kept_of_done hT ho hdone hne]) ho hdone ht

end

end Sys2Proof.Machine
end

