-- ==== Proofs/Clear.lean ====
section
/-! PROOF. CLEAR discards the station's work and derives the zone from the eyes (R23, R53); O14. -/

namespace Sys2Proof.Machine

section
variable {b s u v m t : State} {rest : List RxFrame} {outs : List Entry} {e : Entry}

theorem exec_clearReceived (hin : inService s = true) (hrx : s.line.rx = .clear :: rest) :
    exec .clearReceived s = .next (settle s (clearStation (dropHead s))) := by
  simp [exec, execClearReceived, hrx, hin]

/-! ## The blocks of the role (R82, R104, R118, R124, R148, R165, R175) -/

/-- What CLEAR leaves of the blocks of the role. -/
structure WorkDropped (s m : State) : Prop where
  check : hasRole s .check = true → m.store = { manifests := [], request := none } ∧ m.eval = none ∧
    m.reader = { buffer := [], overlong := false, window := .closed, kept := none, tagWait := none } ∧
    m.weigh = { s.weigh with weighing := false, settle := none, held := none, restarts := 0, window := [] } ∧
    m.prof = { counter := 0, phase := .none, front := none, rear := none, compare := none, ever := false,
               top := none, gaps := 0 }
  wrap : hasRole s .wrap = true → m.wrap = { s.wrap with
    hs := .idle, attempt := 0, recipe := 0, firstCause := none, startTimer := none, wrapTimer := none, abort := some 20 }
  label : hasRole s .label = true → m.label = { s.label with
      lstate := .idle, attempt := 0, label := none, causes := [], printTimer := none, applyTimer := none
      verifyTimer := none, abortWait := some 1000, rxBuffer := [], rxOverlong := false
      tx := s.label.tx ++ [[0x41, 0x42, 0x0D]] } ∧
    m.reader = { s.reader with buffer := [], overlong := false, window := .closed, kept := none }
  dispatch : hasRole s .dispatch = true → m.route = dropRoute s.route

/-- The blocks are the same in another state. -/
theorem WorkDropped.congr (h : WorkDropped s m) (h1 : t.store = m.store) (h2 : t.eval = m.eval) (h3 : t.reader = m.reader)
    (h4 : t.weigh = m.weigh) (h5 : t.prof = m.prof) (h6 : t.wrap = m.wrap) (h7 : t.label = m.label)
    (h8 : t.route = m.route) : WorkDropped s t where
  check := by rw [h1, h2, h3, h4, h5]; exact h.check
  wrap := by rw [h6]; exact h.wrap
  label := by rw [h7, h3]; exact h.label
  dispatch := by rw [h8]; exact h.dispatch

theorem clearCheck_blocks (s : State) : (clearCheck s).store = { manifests := [], request := none } ∧
    (clearCheck s).eval = none ∧
    (clearCheck s).reader = { buffer := [], overlong := false, window := .closed, kept := none, tagWait := none } ∧
    (clearCheck s).weigh = { s.weigh with weighing := false, settle := none, held := none, restarts := 0, window := [] } ∧
    (clearCheck s).prof = { counter := 0, phase := .none, front := none, rear := none, compare := none, ever := false,
                            top := none, gaps := 0 } := by
  obtain ⟨h1, h2, h3, h4⟩ := dropCheckWork_blocks s
  refine ⟨?_, ?_, ?_, ?_, ?_⟩
  · simp [clearCheck, h4]
  · simp [clearCheck, h1]
  · simp [clearCheck, h3]
  · simp [clearCheck, clearWeighing]
  · simp [clearCheck, h2]

theorem clearLabel_blocks (s : State) : (clearLabel s).label = { s.label with
      lstate := .idle, attempt := 0, label := none, causes := [], printTimer := none, applyTimer := none
      verifyTimer := none, abortWait := some 1000, rxBuffer := [], rxOverlong := false
      tx := s.label.tx ++ [[0x41, 0x42, 0x0D]] } ∧
    (clearLabel s).reader = { s.reader with buffer := [], overlong := false, window := .closed, kept := none } := by
  constructor
  · simp [clearLabel, abortEngine, sendEngine, labelIdle, abMessage, Config.engineReadyWait]
  · simp [clearLabel, abortEngine, sendEngine, labelIdle, closeWindow, openWindow]

theorem workDropped_clearRole (s : State) : WorkDropped s (clearRole s) := by
  have role : ∀ {r}, hasRole s r = true → s.cfg.role = some r := fun h => by simpa [hasRole] using h
  refine ⟨fun h => ?_, fun h => ?_, fun h => ?_, fun h => ?_⟩ <;> rw [clearRole, role h]
  · exact clearCheck_blocks s
  · simp [clearWrap, wrapIdle, Config.abortPulse]
  · exact clearLabel_blocks s
  · rfl

theorem onlyChanges_clearRole (s : State) :
    onlyChanges [.line, .store, .reader, .weigh, .prof, .eval, .wrap, .label, .route] s (clearRole s) := by
  unfold clearRole
  split <;> intro k <;> cases k <;> simp [Block.same]

@[simp] theorem clearRole_rx (s : State) : (clearRole s).line.rx = s.line.rx := by
  unfold clearRole
  split
  · simp only [clearCheck, dropCheckWork, clearWeighing, endRequest]
    split <;> simp
  all_goals simp

theorem clearRole_line (s : State) : (clearRole s).line = if hasRole s .check then (endRequest s).line else s.line := by
  unfold clearRole hasRole
  split <;> rename_i h <;> simp [h, clearCheck, dropCheckWork]

/-! ## The table and the zone -/

/-- The station with its work dropped, before the eyes are asked (R23, R53). -/
def emptied (s : State) : State := clearZone (clearRole (endOffering (dropHead s)))

theorem clearStation_emptied (s : State) : clearStation (dropHead s) = announceOwnHold (deriveFromEyes (emptied s)) := rfl

theorem workDropped_emptied (s : State) : WorkDropped s (emptied s) := by
  have h := workDropped_clearRole (endOffering (dropHead s))
  have hc : (endOffering (dropHead s)).cfg = s.cfg := by simp [dropHead]
  have hrole : ∀ r, hasRole (endOffering (dropHead s)) r = hasRole s r := fun r => hasRole_congr hc r
  refine ⟨fun hr => ?_, fun hr => ?_, fun hr => ?_, fun hr => ?_⟩
  · simpa [emptied, clearZone, dropHead] using h.check ((hrole _).trans hr)
  · simpa [emptied, clearZone, dropHead] using h.wrap ((hrole _).trans hr)
  · simpa [emptied, clearZone, dropHead] using h.label ((hrole _).trans hr)
  · simpa [emptied, clearZone, dropHead] using h.dispatch ((hrole _).trans hr)

theorem onlyChanges_emptied (s : State) : onlyChanges
    [.line, .table, .slot, .zone, .store, .reader, .weigh, .prof, .eval, .wrap, .label, .route] s (emptied s) := by
  have h0 : onlyChanges [.line, .zone] s (endOffering (dropHead s)) := by
    intro k
    cases k <;> simp [Block.same, dropHead]
  have h1 := h0.trans (onlyChanges_clearRole _) (ds := [.line, .zone, .store, .reader, .weigh, .prof, .eval, .wrap, .label,
    .route]) (by decide) (by decide)
  refine h1.trans (cs := [.table, .slot, .zone]) (fun k => ?_) (by decide) (by decide)
  cases k <;> simp [Block.same, emptied, clearZone]

theorem newTrack_of_empty (h : s.table = []) : newTrack s = { origin := s.cfg.node, seq := s.trackSeq } := by
  simp [newTrack, candidateSeq, h, freeSeq]

/-- The record of unknown origin that the eyes give (R23, R53). -/
def derivedEntry (s : State) (st : RecordState) : Entry :=
  { record := freshRecord (newTrack (s.setTable [])) true, state := st, takenHeard := false, timer := none }

/-- What the eyes give an empty station (R23, R53). -/
theorem derive_emptied (s : State) :
    (eyesClear s.pins = true → deriveFromEyes (emptied s) = emptied s) ∧
    (s.pins.eyePos = true → (deriveFromEyes (emptied s)).table = [derivedEntry s .done] ∧
      (deriveFromEyes (emptied s)).zone = { ZoneCtl.atReset with zstate := .stopped }) ∧
    (s.pins.eyePos = false → eyesClear s.pins = false →
      (deriveFromEyes (emptied s)).table = [derivedEntry s .present] ∧
      (deriveFromEyes (emptied s)).zone =
        { ZoneCtl.atReset with zstate := .positioning, positionTimer := some s.cfg.timing.position }) := by
  have honly := onlyChanges_emptied s
  have hpins : (emptied s).pins = s.pins := by simpa [Block.same] using honly .pins
  have hcfg : (emptied s).cfg = s.cfg := by simpa [Block.same] using honly .cfg
  have hseq : (emptied s).trackSeq = s.trackSeq := by simpa [Block.same] using honly .trackSeq
  have hT : (emptied s).table = [] := rfl
  have hnew : newTrack (emptied s) = newTrack (s.setTable []) := by
    rw [newTrack_of_empty hT, newTrack_of_empty rfl, hcfg, hseq]
    rfl
  unfold deriveFromEyes
  rw [hpins]
  refine ⟨fun h => ?_, fun h => ?_, fun h1 h2 => ?_⟩
  · obtain ⟨⟨h1, h2⟩, h3⟩ : (s.pins.eyeEntry = false ∧ s.pins.eyePos = false) ∧ s.pins.eyeExit = false := by
      simpa [eyesClear] using h
    simp [h1, h2, h3]
  · rw [if_pos h]
    exact ⟨by simp [derivedEntry, hT, hnew], rfl⟩
  · have hor : (s.pins.eyeEntry || s.pins.eyeExit) = true := by
      rw [← Bool.not_eq_false, Bool.or_eq_false_iff]
      exact fun hx => by simp [eyesClear, h1, hx.1, hx.2] at h2
    rw [if_neg (by simp [h1]), if_pos hor]
    refine ⟨by simp [startPositioning, derivedEntry, hT, hnew], ?_⟩
    simp [startPositioning, emptied, clearZone]
    rfl

/-! ## The transmit queue -/

theorem emptied_line (s : State) : (emptied s).line =
    if hasRole s .check then (endRequest (endOffering (dropHead s))).line else (endOffering (dropHead s)).line := by
  have h := clearRole_line (endOffering (dropHead s))
  rwa [hasRole_congr (s := s) (by simp [dropHead])] at h

theorem emptied_rx (hrx : s.line.rx = .clear :: rest) : (emptied s).line.rx = rest := by
  have h : (emptied s).line = (clearRole (endOffering (dropHead s))).line := rfl
  rw [h, clearRole_rx]
  simp [dropHead, hrx]

theorem emptied_length_le (s : State) : (emptied s).line.tx.length ≤ s.line.tx.length := by
  have h1 : (endOffering (dropHead s)).line.tx.length ≤ s.line.tx.length :=
    withdrawFrames_length_le (fun f => (offerTrack f).isSome) ((dropHead s).setZone _)
  rw [emptied_line]
  split
  · exact (endRequest_length_le _).trans h1
  · exact h1

/-- A withdrawal of a request leaves what holds of every queued frame. -/
theorem all_endRequest {p : TxEntry → Bool} (hp : ∀ x, p x = true → p { x with withdrawn := true, stays := false } = true)
    (h : ∀ x ∈ s.line.tx, p x = true) : ∀ x ∈ (endRequest s).line.tx, p x = true := by
  unfold endRequest
  split
  · exact all_withdrawFrames (s := s.setStore _) hp h
  · exact h

/-- No OFFER is left to be sent (R33, R59). -/
theorem emptied_offers (s : State) : ∀ x ∈ (emptied s).line.tx, (x.withdrawn || (offerTrack x.frame).isNone) = true := by
  have h1 : ∀ x ∈ (endOffering (dropHead s)).line.tx, (x.withdrawn || (offerTrack x.frame).isNone) = true := by
    intro x hx
    obtain ⟨y, -, hw⟩ := List.mem_filterMap.1 hx
    unfold withdrawEntry at hw
    split at hw
    · split at hw
      · obtain rfl := Option.some.inj hw
        rfl
      · simp at hw
    · rename_i hno
      obtain rfl := Option.some.inj hw
      simpa using .inr (by simpa using hno)
  rw [emptied_line]
  split
  · exact all_endRequest (by simp) h1
  · exact h1

/-- Nor is the serial asked for any more (R82). -/
theorem emptied_wanted {r : Request} (hc : hasRole s .check = true) (hr : s.store.request = some r) :
    ∀ x ∈ (emptied s).line.tx, (x.inAttempt || x.frame != .wanted r.serial) = true := by
  rw [emptied_line, if_pos hc]
  exact endRequest_withdraws (by simpa [dropHead] using hr)

theorem helloWaiting_withdrawFrames {p : TxFrame → Bool} (hp : p .hello = false) (s : State) :
    helloWaiting (withdrawFrames p s) = helloWaiting s := by
  unfold helloWaiting withdrawFrames
  simp only [State.setLine_line, List.any_filterMap]
  congr 1
  funext x
  unfold withdrawEntry
  by_cases hf : x.frame = .hello
  · simp [hf, hp]
  · cases p x.frame <;> cases x.inAttempt <;> simp [hf]

theorem helloWaiting_emptied (s : State) : helloWaiting (emptied s) = helloWaiting s := by
  have h1 : helloWaiting (endOffering (dropHead s)) = helloWaiting s :=
    helloWaiting_withdrawFrames (p := fun f => (offerTrack f).isSome) rfl _
  have h2 : ∀ v : State, helloWaiting (endRequest v) = helloWaiting v := fun v => by
    unfold endRequest
    split
    · exact helloWaiting_withdrawFrames (by simp) _
    · rfl
  unfold helloWaiting
  rw [emptied_line]
  split
  · exact (h2 _).trans h1
  · exact h1

/-! ## The own hold put back (R53) -/

/-- The own entry of a hold set that was empty, as the inputs give it. -/
def ownHolds (s : State) : List Hold :=
  match ownHold s.pins with
  | some c => [{ node := s.cfg.node, cause := c }]
  | none => []

theorem addOwnHold_zone (h : s.zone.holds = []) : (addOwnHold s).zone = { s.zone with holds := ownHolds s } := by
  unfold addOwnHold ownHolds
  rw [setHolds_zone, h]
  cases ownHold s.pins <;> rfl

theorem ownHolds_congr (h1 : t.pins = s.pins) (h2 : t.cfg = s.cfg) : ownHolds t = ownHolds s := by
  simp [ownHolds, h1, h2]

/-- The own entry put back changes the hold set and the queue alone. -/
theorem announceOwnHold_spec (h : s.zone.holds = []) : onlyChanges [.line, .zone] s (announceOwnHold s) ∧
    (announceOwnHold s).zone = { s.zone with holds := ownHolds s } ∧ (announceOwnHold s).line.rx = s.line.rx ∧
    (announceOwnHold s).line.tx.length ≤ s.line.tx.length + 1 ∧
    (∀ p : TxEntry → Bool, (∀ c, p (freshTx (.hold c)) = true) → (∀ x ∈ s.line.tx, p x = true) →
      ∀ x ∈ (announceOwnHold s).line.tx, p x = true) ∧
    (∀ c ∈ ownHold s.pins, helloWaiting s = false → inService s = true → s.line.tx.length < 8 →
      queued (.hold c) (announceOwnHold s) = true) := by
  have hz := addOwnHold_zone h
  have hserv : inService (addOwnHold s) = inService s := rfl
  unfold announceOwnHold
  cases hc : ownHold s.pins with
  | none =>
    have hno : ownHolds s = s.zone.holds := by simp [ownHolds, hc, h]
    refine ⟨fun k => .inr (by cases k <;> rfl), by rw [hno], rfl, by simp, fun _ _ hall => hall, fun c hx => by simp at hx⟩
  | some c =>
    by_cases hw : helloWaiting s = true
    · simp only [hw, if_true]
      refine ⟨fun k => by cases k <;> simp [Block.same, addOwnHold], hz, rfl, by simp [addOwnHold], fun _ _ hall => hall,
        fun _ _ hx => by simp at hx⟩
    · simp only [hw, Bool.false_eq_true, if_false]
      refine ⟨fun k => by cases k <;> simp [Block.same, addOwnHold], by rw [queueFrame_zone, hz], by simp [addOwnHold],
        queueFrame_length_le _ _, fun p hp hall => all_queueFrame (s := addOwnHold s) rfl (hp c) hall, fun c' hc' _ hin hroom => ?_⟩
      obtain rfl : c = c' := by simpa using hc'
      exact queued_self (s := addOwnHold s) (hserv.trans hin) rfl hroom

/-! ## The event before its end -/

/-- What CLEAR leaves before the end of its event. -/
structure ClearLeaves (s m : State) (rest : List RxFrame) : Prop where
  only : onlyChanges [.line, .table, .slot, .trackSeq, .zone, .store, .reader, .weigh, .prof, .eval, .wrap, .label, .route]
    s m
  rx : m.line.rx = rest
  slot : m.slot = none
  work : WorkDropped s m
  length : m.line.tx.length ≤ s.line.tx.length + 1
  offers : ∀ x ∈ m.line.tx, (x.withdrawn || (offerTrack x.frame).isNone) = true
  wanted : hasRole s .check = true → ∀ r ∈ s.store.request, ∀ x ∈ m.line.tx, (x.inAttempt || x.frame != .wanted r.serial) = true
  hold : ∀ c ∈ ownHold s.pins, helloWaiting s = false → roomFor 2 s = true → queued (.hold c) m = true
  clear : eyesClear s.pins = true → m.table = [] ∧ m.trackSeq = s.trackSeq ∧
    m.zone = { ZoneCtl.atReset with holds := ownHolds s }
  position : s.pins.eyePos = true → m.table = [derivedEntry s .done] ∧
    m.zone = { ZoneCtl.atReset with zstate := .stopped, holds := ownHolds s }
  moving : s.pins.eyePos = false → eyesClear s.pins = false → m.table = [derivedEntry s .present] ∧
    m.zone = { ZoneCtl.atReset with
      zstate := .positioning, positionTimer := some s.cfg.timing.position, holds := ownHolds s }

theorem clearLeaves_clearStation (hin : inService s = true) (hrx : s.line.rx = .clear :: rest) :
    ClearLeaves s (clearStation (dropHead s)) rest := by
  obtain ⟨hclear, hpos, hmove⟩ := derive_emptied s
  have honly := onlyChanges_emptied s
  obtain ⟨d, hd⟩ : ∃ d, d = deriveFromEyes (emptied s) := ⟨_, rfl⟩
  have hder : onlyChanges [.table, .trackSeq, .zone] (emptied s) d := by
    rw [hd]
    intro k
    cases k <;> simp [Block.same]
  have hl : d.line = (emptied s).line := by simpa [Block.same] using hder .line
  have hds := honly.trans hder (ds := [.line, .table, .slot, .trackSeq, .zone, .store, .reader, .weigh, .prof, .eval, .wrap,
    .label, .route]) (by decide) (by decide)
  have hpins : d.pins = s.pins := by simpa [Block.same] using hds .pins
  have hcfg : d.cfg = s.cfg := by simpa [Block.same] using hds .cfg
  have hserv : d.service = s.service := by simpa [Block.same] using hds .service
  have hholds : d.zone.holds = [] := by
    rw [hd, deriveFromEyes]
    split
    · rfl
    · split <;> rfl
  obtain ⟨hown, hzone, hrxm, hlen, hall, hq⟩ := announceOwnHold_spec hholds
  obtain ⟨m, hm⟩ : ∃ m, m = announceOwnHold d := ⟨_, rfl⟩
  rw [← hm, ownHolds_congr hpins hcfg] at hzone
  rw [← hm] at hown hrxm hlen hall hq
  rw [hl] at hrxm hlen hall hq
  have hT : m.table = d.table := by simpa [Block.same] using hown .table
  have hseq : m.trackSeq = d.trackSeq := by simpa [Block.same] using hown .trackSeq
  have hwait : helloWaiting d = helloWaiting s := by
    have he := helloWaiting_emptied s
    unfold helloWaiting at he ⊢
    rwa [hl]
  have hle := emptied_length_le s
  rw [clearStation_emptied, ← hd, ← hm]
  rw [← hd] at hclear hpos hmove
  refine ⟨hds.trans hown (by decide) (by decide), by rw [hrxm, emptied_rx hrx], ?_, ?_, by omega,
    hall _ (fun _ => rfl) (emptied_offers s), fun hc r hr => hall _ (fun _ => by simp [freshTx]) (emptied_wanted hc hr),
    fun c hc hw hroom => ?_, fun h => ?_, fun h => ?_, fun h1 h2 => ?_⟩
  · have h1 : m.slot = d.slot := by simpa [Block.same] using hown .slot
    rw [h1, hd, deriveFromEyes_slot]
    rfl
  · have hb : ∀ k : Block, k ∉ [Block.line, .zone] → k.same d m := fun k hk => (hown k).resolve_left hk
    have hb' : ∀ k : Block, k ∉ [Block.table, .trackSeq, .zone] → k.same (emptied s) d := fun k hk => (hder k).resolve_left hk
    exact (workDropped_emptied s).congr ((hb .store (by decide)).trans (hb' .store (by decide)))
      ((hb .eval (by decide)).trans (hb' .eval (by decide))) ((hb .reader (by decide)).trans (hb' .reader (by decide)))
      ((hb .weigh (by decide)).trans (hb' .weigh (by decide))) ((hb .prof (by decide)).trans (hb' .prof (by decide)))
      ((hb .wrap (by decide)).trans (hb' .wrap (by decide))) ((hb .label (by decide)).trans (hb' .label (by decide)))
      ((hb .route (by decide)).trans (hb' .route (by decide)))
  · have hroom := tx_of_roomFor hroom
    exact hq c (by rwa [hpins]) (hwait.trans hw) (by rw [inService_congr hserv, hin]) (by omega)
  · have hde := hclear h
    refine ⟨by rw [hT, hde]; rfl, ?_, by rw [hzone, hde]; rfl⟩
    rw [hseq, hde]
    simpa [Block.same] using honly .trackSeq
  · obtain ⟨hTd, hzd⟩ := hpos h
    exact ⟨by rw [hT, hTd], by rw [hzone, hzd]⟩
  · obtain ⟨hTd, hzd⟩ := hmove h1 h2
    exact ⟨by rw [hT, hTd], by rw [hzone, hzd]⟩

end

end Sys2Proof.Machine
end

