-- ==== Proofs/ClearEnds.lean ====
section
/-! PROOF. What follows CLEAR in the same event: the permit, the record offered, the record routed to the spur; O14. -/

namespace Sys2Proof.Machine

section
variable {b s u v m t : State} {rest : List RxFrame} {outs : List Entry} {e : Entry}

namespace ClearLeaves
variable (h : ClearLeaves s m rest)
include h

theorem cfg : m.cfg = s.cfg := by simpa [Block.same] using h.only .cfg
theorem service : m.service = s.service := by simpa [Block.same] using h.only .service
theorem pins : m.pins = s.pins := by simpa [Block.same] using h.only .pins
theorem role (r : Role) : hasRole m r = hasRole s r := hasRole_congr h.cfg r
theorem active (hin : inService s = true) : active m = true := by rw [active_congr h.service, active_of_inService hin]

theorem zone_kept : m.zone.offerTimer = none ∧ m.zone.jam = false ∧ m.zone.holds = ownHolds s := by
  by_cases h1 : eyesClear s.pins = true
  · rw [(h.clear h1).2.2]
    exact ⟨rfl, rfl, rfl⟩
  · cases h2 : s.pins.eyePos
    · rw [(h.moving h2 (by simpa using h1)).2]
      exact ⟨rfl, rfl, rfl⟩
    · rw [(h.position h2).2]
      exact ⟨rfl, rfl, rfl⟩

/-- Nothing was offered, so no offering ceases. -/
theorem stopOffering_eq : stopOffering m = m := stopOffering_of fun hx => by simp [h.zone_kept.1] at hx

/-- A dropped route has no lane wait (R175). -/
theorem laneWaitOn_false (hd : hasRole m .dispatch = true) : laneWaitOn m = false := by
  have hr := h.work.dispatch (by rwa [h.role] at hd)
  simp [laneWaitOn, hr, dropRoute]

/-- The settle window of CHECK was empty before the platform was asked. -/
theorem windowStep_eq (hv : v.weigh = m.weigh) (hc : v.cfg = m.cfg) : (windowStep b v).weigh = v.weigh := by
  cases hchk : hasRole v .check
  · rw [windowStep_of_works (by rw [works, hchk, Bool.and_false])]
  · obtain ⟨-, -, -, hw, -⟩ := h.work.check (by rw [← h.role, ← hasRole_congr hc, hchk])
    obtain hs | hs := windowStep_cases b v
    · rw [hs]
      simp [emptyWindow, hv, hw]
    · rw [hs]

end ClearLeaves

/-! ## By what the eyes show -/

/-- With the eyes clear the end of the event is the permit (R32). -/
theorem settle_cleared (h : ClearLeaves s m rest) (hin : inService s = true) (hc : eyesClear s.pins = true) :
    settle s m = windowStep s (permitStep m) := by
  obtain ⟨-, -, hz⟩ := h.clear hc
  have hempty : m.zone.zstate = .empty := by rw [hz]; rfl
  rw [settle_of_not_offering (h.active hin) (offering_false_of_zone (by rw [hempty]; decide)) fun hd =>
    ⟨fun hx => by simp [delivering_false_of_zone (s := m) (by rw [hempty]; decide)] at hx,
      fun hx => by simp [h.laneWaitOn_false hd] at hx⟩, h.stopOffering_eq, slotStep_of_none (by simp [h.slot])]

/-- With a pallet on its way nothing is left to evaluate but the platform. -/
theorem settle_cleared_moving (h : ClearLeaves s m rest) (hin : inService s = true) (hp : s.pins.eyePos = false)
    (hc : eyesClear s.pins = false) : settle s m = windowStep s m := by
  obtain ⟨-, hz⟩ := h.moving hp hc
  have hzst : m.zone.zstate = .positioning := by rw [hz]
  rw [settle_of_occupied (h.active hin) (by simp [hzst]) (by simp [hzst]) (by simp [hzst]) h.laneWaitOn_false,
    h.stopOffering_eq]

/-- A record at position is offered (R33). -/
theorem settle_cleared_position (h : ClearLeaves s m rest) (hin : inService s = true) (hp : s.pins.eyePos = true)
    (hd : hasRole s .dispatch = false) : settle s m = offerStep m := by
  obtain ⟨-, hz⟩ := h.position hp
  rw [settle_of_stopped (h.active hin) (by rw [hz]) (by rw [h.role, hd]) fun _ => ?_, h.stopOffering_eq]
  simp [platformEmpty, eyesClear, hp, hz]

/-- At DISPATCH it is routed (R168). -/
theorem settle_cleared_dispatch (h : ClearLeaves s m rest) (hin : inService s = true) (hp : s.pins.eyePos = true)
    (hd : hasRole s .dispatch = true) : settle s m = routeStep m := by
  obtain ⟨-, hz⟩ := h.position hp
  rw [settle_of_dispatch (h.active hin) (by rw [h.role, hd]) (by rw [hz]; simp), h.stopOffering_eq]

/-! ## The queue and the blocks after the event -/

/-- An OFFER queued leaves the frames of another kind that are asked about. -/
theorem wanted_offerStep {ds : Digits} (h : ∀ x ∈ m.line.tx, (x.inAttempt || x.frame != .wanted ds) = true) :
    ∀ x ∈ (offerStep m).line.tx, (x.inAttempt || x.frame != .wanted ds) = true := by
  obtain ⟨y, -, -, -, hs⟩ | ⟨-, hs⟩ := offerStep_cases m
  · intro x hx
    rw [hs, queueFrame_line] at hx
    split at hx
    · obtain ⟨-, hp⟩ | ⟨-, -, hp⟩ | ⟨-, -, -, hp⟩ | ⟨-, -, -, hp⟩ :=
        pushFrame_cases (.offer (downstream m) y.record) m.line <;> rw [State.setZone_line, hp] at hx
      · obtain ⟨z, hz, rfl⟩ := List.mem_map.1 hx
        split
        · simp
        · exact h z hz
      · obtain rfl | hx := by simpa using hx
        · simp [freshTx]
        · exact h x hx
      · obtain rfl | hx := by simpa [markTxOverrun] using hx
        · simp [freshTx]
        · exact h x (mem_dropYoungest hx)
      · exact h x (by simpa [markTxOverrun] using hx)
    · exact h x hx
  · rwa [hs]

/-- What the statement says of the queue and of the blocks but the route. -/
structure ClearEnds (s t : State) : Prop where
  hold : ∀ c ∈ ownHold s.pins, helloWaiting s = false → roomFor 2 s = true → queued (.hold c) t = true
  offers : s.pins.eyePos = false → t.line.tx.all (fun e => e.withdrawn || (offerTrack e.frame).isNone) = true
  check : hasRole s .check = true → t.store = { manifests := [], request := none } ∧ t.eval = none ∧
    t.reader = { buffer := [], overlong := false, window := .closed, kept := none, tagWait := none } ∧
    t.weigh = { s.weigh with weighing := false, settle := none, held := none, restarts := 0, window := [] } ∧
    t.prof = { counter := 0, phase := .none, front := none, rear := none, compare := none, ever := false,
               top := none, gaps := 0 } ∧
    (∀ r ∈ s.store.request, t.line.tx.all (fun e => e.inAttempt || e.frame != .wanted r.serial) = true)
  wrap : hasRole s .wrap = true → t.wrap = { s.wrap with
    hs := .idle, attempt := 0, recipe := 0, firstCause := none, startTimer := none, wrapTimer := none, abort := some 20 }
  label : hasRole s .label = true → t.label = { s.label with
      lstate := .idle, attempt := 0, label := none, causes := [], printTimer := none, applyTimer := none
      verifyTimer := none, abortWait := some 1000, rxBuffer := [], rxOverlong := false
      tx := s.label.tx ++ [[0x41, 0x42, 0x0D]] } ∧
    t.reader = { s.reader with buffer := [], overlong := false, window := .closed, kept := none }

/-- It holds where the event leaves the queue to be sent but for an OFFER, and the blocks as they are. -/
theorem clearEnds_of (h : ClearLeaves s m rest) (ht : t = settle s m)
    (hhold : ∀ c, queued (.hold c) m = true → s.line.tx.length + 2 ≤ 8 → queued (.hold c) t = true)
    (hoffers : s.pins.eyePos = false → t.line = m.line)
    (hwanted : hasRole s .check = true → ∀ ds, (∀ x ∈ m.line.tx, (x.inAttempt || x.frame != .wanted ds) = true) →
      ∀ x ∈ t.line.tx, (x.inAttempt || x.frame != .wanted ds) = true)
    (hw : hasRole s .check = true → t.weigh = m.weigh) : ClearEnds s t where
  hold := fun c hc hwait hroom => hhold c (h.hold c hc hwait hroom) (tx_of_roomFor hroom)
  offers := fun hp => by rw [hoffers hp, List.all_eq_true]; exact h.offers
  check := fun hc => by
    obtain ⟨h1, h2, h3, h4, h5⟩ := h.work.check hc
    refine ⟨by rw [ht, settle_store, h1], by rw [ht, settle_eval, h2], by rw [ht, settle_reader, h3], by rw [hw hc, h4],
      by rw [ht, settle_prof, h5], fun r hr => ?_⟩
    rw [List.all_eq_true]
    exact hwanted hc _ (h.wanted hc r hr)
  wrap := fun hr => by rw [ht, settle_wrap, h.work.wrap hr]
  label := fun hr => by rw [ht, settle_label, settle_reader]; exact h.work.label hr

theorem clearEnds_settle (h : ClearLeaves s m rest) (hin : inService s = true) (ht : t = settle s m) : ClearEnds s t := by
  by_cases h1 : eyesClear s.pins = true
  · have hend := ht.trans (settle_cleared h hin h1)
    have hl : t.line = m.line := by rw [hend]; simp
    refine clearEnds_of h ht (fun c hq _ => by rwa [queued_congr hl]) (fun _ => hl) (fun _ ds hall => by rwa [hl]) fun _ => ?_
    rw [hend, h.windowStep_eq (by simp) (by simp), permitStep_weigh]
  cases h2 : s.pins.eyePos
  · have hend := ht.trans (settle_cleared_moving h hin h2 (by simpa using h1))
    have hl : t.line = m.line := by rw [hend]; simp
    refine clearEnds_of h ht (fun c hq _ => by rwa [queued_congr hl]) (fun _ => hl) (fun _ ds hall => by rwa [hl]) fun _ => ?_
    rw [hend, h.windowStep_eq rfl rfl]
  have hlen := h.length
  cases hd : hasRole s .dispatch
  · have hend := ht.trans (settle_cleared_position h hin h2 hd)
    refine clearEnds_of h ht (fun c hq hroom => ?_) (fun hp => by simp [h2] at hp) (fun _ ds hall => ?_) fun _ => ?_
    · rw [hend]
      exact queued_offerStep rfl (by omega) hq
    · rw [hend]
      exact wanted_offerStep hall
    · rw [hend, offerStep_weigh]
  · have hend := ht.trans (settle_cleared_dispatch h hin h2 hd)
    have hno : hasRole s .check ≠ true := by simp [check_false_of_dispatch hd]
    refine clearEnds_of h ht (fun c hq hroom => ?_) (fun hp => by simp [h2] at hp) (fun hc => absurd hc hno)
      fun hc => absurd hc hno
    rw [hend]
    exact queued_routeStep rfl (by omega) hq

/-! ## The route at DISPATCH (R168, R175) -/

theorem exitClassOf_derived (c : DispatchCfg) (s : State) :
    exitClassOf c (derivedEntry s .done).record = .reject .unknownOrigin := by
  simp [exitClassOf, derivedEntry, freshRecord]

theorem clear_dispatch (h : ClearLeaves s m rest) (hin : inService s = true) (hd : hasRole s .dispatch = true)
    (ht : t = settle s m) :
    (s.pins.eyePos = false ∨ (ownHold s.pins).isSome = true → t.route = dropRoute s.route) ∧
    (s.pins.eyePos = true → ∃ st, t.table = [derivedEntry s st]) ∧
    (s.pins.eyePos = true → ownHold s.pins = none → t.route = { s.route with
        exitClass := some (.reject .unknownOrigin)
        code := if s.pins.spurFull then .none else .reject
        laneWait := if s.pins.spurFull then some s.cfg.dispatch.laneWait else none
        waitExpired := false } ∧
      t.zone.zstate = (if s.pins.spurFull then .stopped else .releasing)) := by
  have hroute := h.work.dispatch hd
  have hdm : hasRole m .dispatch = true := by rw [h.role, hd]
  cases hp : s.pins.eyePos
  · refine ⟨fun _ => ?_, fun hx => by simp at hx, fun hx => by simp at hx⟩
    by_cases hc : eyesClear s.pins = true
    · rw [ht, settle_cleared h hin hc, windowStep_route, permitStep_route, hroute]
    · rw [ht, settle_cleared_moving h hin hp (by simpa using hc), windowStep_route, hroute]
  obtain ⟨hT, hz⟩ := h.position hp
  have hend := ht.trans (settle_cleared_dispatch h hin hp hd)
  have hnil : allOutbound [] := by simp [allOutbound]
  have hzst : m.zone.zstate = .stopped := by rw [hz]
  have hdel := delivering_of_tail (outs := []) hT hnil rfl hdm hzst
  rw [inService_congr h.service, h.zone_kept.2.2] at hdel
  have hown : ownHolds s = [] ↔ ownHold s.pins = none := by
    unfold ownHolds
    cases ownHold s.pins <;> simp
  rw [hown] at hdel
  obtain ⟨st, htail, -⟩ := routeStep_tail (outs := []) hT hnil rfl
  refine ⟨fun hc => ?_, fun _ => ⟨st, by rw [hend, htail]; rfl⟩, fun _ hno => ?_⟩
  · have hsome : (ownHold s.pins).isSome = true := hc.resolve_left (by simp)
    have hstand : delivering m = false := by
      rw [← Bool.not_eq_true, hdel]
      exact fun hx => by simp [hx.2] at hsome
    rw [hend, routeStep_stands (outs := []) hT hnil rfl hstand, hroute]
  · have hx : ExitClass.reject .unknownOrigin =
        m.route.exitClass.getD (exitClassOf m.cfg.dispatch (derivedEntry s .done).record) := by
      rw [hroute, exitClassOf_derived]
      rfl
    obtain ⟨-, hgo, hwait⟩ := routeStep_decides (outs := []) hT hnil rfl (hdel.2 ⟨hin, hno⟩) hx
    have hoff := h.laneWaitOn_false hdm
    rw [← hend, h.pins, hroute] at hgo hwait
    rw [hoff, h.cfg, hz] at hwait
    cases hs : s.pins.spurFull
    · obtain ⟨hr, hzt, -⟩ := hgo .reject (by simp [chooseExit, hs])
      rw [hr, hzt]
      exact ⟨rfl, rfl⟩
    · obtain ⟨hr, hzt, -⟩ := hwait (by simp [chooseExit, hs])
      rw [hr, hzt]
      exact ⟨rfl, rfl⟩

/-- The counts and the last lane stay, whatever the eyes and the inputs show (R175). -/
theorem clear_counts {t' : State} (h : t'.route = dropRoute s.route ∨ ∃ x c l, t'.route = { s.route with
      exitClass := x, code := c, laneWait := l, waitExpired := false }) :
    t'.route.lane1 = s.route.lane1 ∧ t'.route.lane2 = s.route.lane2 ∧ t'.route.rejects = s.route.rejects ∧
      t'.route.lastLane = s.route.lastLane := by
  obtain h | ⟨x, c, l, h⟩ := h <;> rw [h]
  · exact ⟨rfl, rfl, rfl, rfl⟩
  · exact ⟨rfl, rfl, rfl, rfl⟩

/-- The table and the zone with the eyes clear (R23). -/
theorem clear_empty (h : ClearLeaves s m rest) (hin : inService s = true) (hc : eyesClear s.pins = true)
    (ht : t = settle s m) : t.table = [] ∧ t.trackSeq = s.trackSeq ∧
      t.zone = { zstate := if infeedPermit t then .inbound else .empty, exitSeen := false, jam := false,
                 holds := t.zone.holds, offerTimer := none, positionTimer := none, releaseTimer := none } := by
  obtain ⟨hT, hseq, hz⟩ := h.clear hc
  have hend := ht.trans (settle_cleared h hin hc)
  have hp := permitStep_zstate_of_empty (u := m) (by rw [hz]; rfl)
  obtain ⟨z, hzone⟩ := permitStep_zone_state m
  have htz : t.zone = { m.zone with zstate := z } := by rw [hend, windowStep_zone, hzone]
  have hperm : z = if infeedPermit t then .inbound else .empty := by
    rw [hzone] at hp
    rw [infeedPermit_congr (s := permitStep m) (by rw [hend]; simp) (by rw [hend]; simp) (by rw [hend, windowStep_zone])]
    exact hp
  refine ⟨by rw [hend]; simp [hT], by rw [ht]; simp [hseq], ?_⟩
  rw [← hperm, htz, hz]
  rfl

/-- Settles O14: what CLEAR discards, and what the end of its event makes of what the eyes show. -/
theorem clearDerivesAFreshStation : Obligations.ClearDerivesAFreshStation := by
  intro s rest _ hrx hin
  have h := clearLeaves_clearStation hin hrx
  obtain ⟨m, hm⟩ : ∃ m, m = clearStation (dropHead s) := ⟨_, rfl⟩
  rw [← hm] at h
  obtain ⟨t, ht⟩ : ∃ t, t = settle s m := ⟨_, rfl⟩
  obtain ⟨hholds, hjam⟩ := settle_zone_kept s m
  have hends := clearEnds_settle h hin ht
  have hset : onlyChanges [.line, .table, .slot, .zone, .route, .weigh] m t := by
    rw [ht]
    exact onlyChanges_settle (bs := []) fun k => .inr (by cases k <;> rfl)
  refine ⟨t, by rw [exec_clearReceived hin hrx, ht, hm], by rw [ht, settle_rx, h.rx], by rw [ht]; exact settle_slot_none h.slot,
    by rw [ht, hjam, h.zone_kept.2.1], h.only.trans hset (by decide) (by decide), by rw [ht, hholds, h.zone_kept.2.2]; rfl,
    hends.hold, hends.offers, fun hc => clear_empty h hin hc ht, fun hp => ?_, fun hp hc => ?_, hends.check, hends.wrap,
    hends.label, fun hd => ?_⟩
  · cases hd : hasRole s .dispatch
    · obtain ⟨hT, hz⟩ := h.position hp
      have hend := ht.trans (settle_cleared_position h hin hp hd)
      obtain ⟨o, ho⟩ := offerStep_zone m
      have hTt : t.table = [derivedEntry s .done] := by rw [hend, offerStep_table, hT]
      exact ⟨_, by rw [hTt]; exact List.mem_singleton.2 rfl, hTt, rfl, fun _ => ⟨rfl, by rw [hend, ho, hz]⟩⟩
    · obtain ⟨-, htail, -⟩ := clear_dispatch h hin hd ht
      obtain ⟨st, hTt⟩ := htail hp
      exact ⟨_, by rw [hTt]; exact List.mem_singleton.2 rfl, hTt, rfl, fun hx => by simp at hx⟩
  · obtain ⟨hT, hz⟩ := h.moving hp hc
    have hend := ht.trans (settle_cleared_moving h hin hp hc)
    have hTt : t.table = [derivedEntry s .present] := by rw [hend, windowStep_table, hT]
    have hzt := hz
    rw [← windowStep_zone s m, ← hend] at hzt
    exact ⟨by rw [hzt], by rw [hzt], _, by rw [hTt]; exact List.mem_singleton.2 rfl, hTt, rfl, rfl⟩
  · obtain ⟨hdrop, -, hspur⟩ := clear_dispatch h hin hd ht
    have hcases : t.route = dropRoute s.route ∨ ∃ x c l, t.route = { s.route with
        exitClass := x, code := c, laneWait := l, waitExpired := false } := by
      cases hp : s.pins.eyePos
      · exact .inl (hdrop (.inl hp))
      · cases ho : ownHold s.pins with
        | some c => exact .inl (hdrop (.inr (by rw [ho]; rfl)))
        | none => exact .inr ⟨_, _, _, (hspur hp ho).1⟩
    obtain ⟨h1, h2, h3, h4⟩ := clear_counts hcases
    exact ⟨h1, h2, h3, h4, hdrop, hspur⟩

end

end Sys2Proof.Machine
end

