-- ==== Proofs/Bytes.lean ====
section
/-! PROOF. The number, digit and code fields of Chapter 12 read back what they were written from, and a field of a
payload is found at the sum of the widths before it. -/

namespace Sys2Proof.Machine

/-! ## Numbers -/

@[simp] theorem beBytes_length (n v : Nat) : (beBytes n v).length = n := by
  induction n with
  | zero => rfl
  | succ n ih => simp [beBytes, ih]

theorem foldl_beBytes (n v acc : Nat) :
    (beBytes n v).foldl (fun a b => a * 256 + b.toNat) acc = acc * 256 ^ n + v % 256 ^ n := by
  induction n generalizing acc with
  | zero => simp [beBytes, Nat.mod_one]
  | succ n ih =>
    have hmod : v % 256 ^ (n + 1) = v % 256 ^ n + 256 ^ n * (v / 256 ^ n % 256) := by
      rw [pow_succ, Nat.mod_mul]
    simp only [beBytes, List.foldl_cons, ih, BitVec.toNat_ofNat, hmod]
    ring

theorem beNat_beBytes {n v : Nat} (hv : v < 256 ^ n) : beNat (beBytes n v) = v := by
  simp [beNat, foldl_beBytes, Nat.mod_eq_of_lt hv]

theorem beNat_byte {v : Nat} (hv : v < 256) : beNat [BitVec.ofNat 8 v] = v := by
  simp [beNat, Nat.mod_eq_of_lt hv]

@[simp] theorem intBytes_length (n : Nat) (v : Int) : (intBytes n v).length = n := by simp [intBytes]

theorem signedOf_beNat_intBytes {d : Int} (hlow : -2147483648 ≤ d) (hhigh : d < 2147483648) :
    signedOf 4 (beNat (intBytes 4 d)) = d := by
  have hmod : (d % (256 ^ 4 : Nat)).toNat < 256 ^ 4 := by omega
  rw [intBytes, beNat_beBytes hmod, signedOf]
  split <;> omega

/-! ## Digit fields -/

theorem packNibbles_length (ns : List Nat) : (packNibbles ns).length = (ns.length + 1) / 2 := by
  induction ns using packNibbles.induct with
  | case1 a b rest ih => simp [packNibbles, ih]; omega
  | case2 a => simp [packNibbles]
  | case3 => simp [packNibbles]

theorem packDigits_length {ds : Digits} {k : Nat} (hlen : ds.length = k) : (packDigits ds).length = (k + 1) / 2 := by
  simp [packDigits, packNibbles_length, hlen]

theorem nibbles_pair {a b : Nat} (ha : a < 16) (hb : b < 16) : nibbles (BitVec.ofNat 8 (a * 16 + b)) = [a, b] := by
  simp only [nibbles, BitVec.toNat_ofNat, List.cons.injEq, and_true]
  omega

theorem take_nibblesOf_packNibbles {ns : List Nat} (hns : ∀ n ∈ ns, n < 16) :
    (nibblesOf (packNibbles ns)).take ns.length = ns := by
  induction ns using packNibbles.induct with
  | case1 a b rest ih =>
    have ha : a < 16 := hns a (by simp)
    have hb : b < 16 := hns b (by simp)
    have hrest := ih fun n hn => hns n (by simp [hn])
    simp only [nibblesOf] at hrest
    simp [nibblesOf, packNibbles, nibbles_pair ha hb, hrest]
  | case2 a => simp [nibblesOf, packNibbles, nibbles_pair (hns a (by simp)) (by decide : 15 < 16)]
  | case3 => rfl

theorem mapM_digitOf (ds : Digits) : (ds.map Fin.val).mapM digitOf = some ds := by
  induction ds with
  | nil => rfl
  | cons d ds ih => simp [digitOf, ih]

theorem unpackDigits_packDigits {ds : Digits} {k : Nat} (hlen : ds.length = k) :
    unpackDigits k (packDigits ds) = some ds := by
  have hns : ∀ n ∈ ds.map Fin.val, n < 16 := by
    intro n hn
    obtain ⟨d, -, rfl⟩ := List.mem_map.1 hn
    omega
  have htake := take_nibblesOf_packNibbles hns
  rw [List.length_map, hlen] at htake
  rw [unpackDigits, packDigits, htake, mapM_digitOf]

theorem optDigits_length {n k : Nat} {o : Option Digits} (hk : (k + 1) / 2 = n)
    (ho : o.all (fun ds => ds.length = k) = true) : (optDigits n o).length = n := by
  cases o with
  | none => simp [optDigits, absentBytes]
  | some ds => rw [optDigits, packDigits_length (by simpa using ho), hk]

theorem digitsIf_optDigits {n k : Nat} {o : Option Digits} (ho : o.all (fun ds => ds.length = k) = true) :
    digitsIf o.isSome k (optDigits n o) = some o := by
  cases o with
  | none => rfl
  | some ds =>
    have hlen : ds.length = k := by simpa using ho
    simp [digitsIf, optDigits, unpackDigits_packDigits hlen]

@[simp] theorem optNat_length (n : Nat) (o : Option Nat) : (optNat n o).length = n := by
  cases o <;> simp [optNat, absentBytes]

/-- A number present in an OFFER reads back; an absent one is not looked at. -/
theorem if_isSome_beNat_optNat {n : Nat} {o : Option Nat} (ho : o.all (fun v => v < 256 ^ n) = true) :
    (if o.isSome = true then some (beNat (optNat n o)) else none) = o := by
  cases o with
  | none => rfl
  | some v => simpa [optNat] using beNat_beBytes (by simpa using ho)

/-! ## Codes -/

@[simp] theorem unitClassOf_unitClassCode (c : UnitClass) : unitClassOf (unitClassCode c) = some c := by
  cases c <;> rfl

theorem unitClassCode_lt (c : UnitClass) : unitClassCode c < 256 := by cases c <;> decide

@[simp] theorem dutyOf_dutyCode (d : Duty) : dutyOf (dutyCode d) = some d := by cases d <;> rfl

theorem dutyCode_lt (d : Duty) : dutyCode d < 4 := by cases d <;> decide

@[simp] theorem laneClassOf_laneClassCode (c : LaneClass) : laneClassOf (laneClassCode c) = some c := by
  cases c <;> rfl

theorem laneClassCode_lt (c : LaneClass) : laneClassCode c < 4 := by cases c <;> decide

theorem reasonOf_reasonCode (r : Reason) : reasonOf (reasonCode r) = some r := by cases r <;> rfl

theorem reasonCode_injective : Function.Injective reasonCode := fun q r h =>
  Option.some.inj (by rw [← reasonOf_reasonCode q, h, reasonOf_reasonCode r])

theorem reasonCode_lt (r : Reason) : reasonCode r < 256 := by cases r <;> decide

theorem mem_reasons (r : Reason) : r ∈ reasons := by cases r <;> decide

theorem reasonCode_pos (r : Reason) : 1 ≤ reasonCode r ∧ reasonCode r ≤ 12 := by cases r <;> decide

/-- Bit sums over reasons in the order of R126: each power of two is above all that were added before it. -/
theorem foldl_failBits_testBit {rs : List Reason} (hord : rs.Pairwise fun a b => reasonCode a < reasonCode b) {acc : Nat}
    (hacc : ∀ r ∈ rs, acc < 2 ^ (reasonCode r - 1)) (j : Nat) :
    (rs.foldl (fun acc r => acc + 2 ^ (reasonCode r - 1)) acc).testBit j =
      (acc.testBit j || rs.any fun r => reasonCode r - 1 = j) := by
  induction rs generalizing acc with
  | nil => simp
  | cons r rs ih =>
    obtain ⟨hlt, hrest⟩ := List.pairwise_cons.1 hord
    have hr : acc < 2 ^ (reasonCode r - 1) := hacc r (by simp)
    have hnext : ∀ q ∈ rs, acc + 2 ^ (reasonCode r - 1) < 2 ^ (reasonCode q - 1) := by
      intro q hq
      have hcode : reasonCode r - 1 + 1 ≤ reasonCode q - 1 := by have := hlt q hq; have := reasonCode_pos r; omega
      have hpow := Nat.pow_le_pow_right (by decide : 0 < 2) hcode
      rw [pow_succ] at hpow
      omega
    have hor : acc + 2 ^ (reasonCode r - 1) = 2 ^ (reasonCode r - 1) ||| acc := by
      have := Nat.two_pow_add_eq_or_of_lt hr 1
      rw [Nat.mul_one] at this
      omega
    rw [List.foldl_cons, ih hrest hnext, hor]
    simp only [Nat.testBit_or, Nat.testBit_two_pow, List.any_cons]
    cases acc.testBit j <;> simp

theorem foldl_failBits_lt {rs : List Reason} (hord : rs.Pairwise fun a b => reasonCode a < reasonCode b) {acc : Nat}
    (hacc : ∀ r ∈ rs, acc < 2 ^ (reasonCode r - 1)) (hlt : acc < 65536) :
    rs.foldl (fun acc r => acc + 2 ^ (reasonCode r - 1)) acc < 65536 := by
  refine Nat.lt_pow_two_of_testBit (n := 16) _ fun j hj => ?_
  rw [foldl_failBits_testBit hord hacc, Nat.testBit_lt_two_pow (hlt.trans_le (Nat.pow_le_pow_right (by decide : 0 < 2) hj))]
  simp only [Bool.false_or, List.any_eq_false, decide_eq_true_eq]
  intro r _
  have := reasonCode_pos r
  omega

theorem filter_reasons_ordered (p : Reason → Bool) :
    (reasons.filter p).Pairwise fun a b => reasonCode a < reasonCode b :=
  List.Pairwise.filter p (by decide)

theorem failBits_lt (fs : List Reason) : failBits fs < 256 ^ 2 :=
  foldl_failBits_lt (filter_reasons_ordered _) (fun _ _ => Nat.two_pow_pos _) (by decide)

theorem failBits_testBit (fs : List Reason) (r : Reason) : (failBits fs).testBit (reasonCode r - 1) = fs.contains r := by
  have hinj (q : Reason) : reasonCode q - 1 = reasonCode r - 1 ↔ q = r := by
    have hq := reasonCode_pos q
    have hr := reasonCode_pos r
    exact ⟨fun h => reasonCode_injective (by omega), fun h => by rw [h]⟩
  rw [failBits, foldl_failBits_testBit (filter_reasons_ordered _) (fun _ _ => Nat.two_pow_pos _), Bool.eq_iff_iff]
  simp [hinj, mem_reasons]

/-- A fail set in the order of R126 reads back. -/
theorem failSetOf_failBits {fs : List Reason} (hfs : fs = reasons.filter fun r => fs.contains r) :
    failSetOf (failBits fs) = fs := by
  simp only [failSetOf, failBits_testBit]
  exact hfs.symm

theorem checkCodes_lt (c : Option CheckVerdict) :
    (checkCodes c).1 < 256 ∧ (checkCodes c).2.1 < 256 ∧ (checkCodes c).2.2 < 256 ^ 2 := by
  rcases c with _ | ⟨_ | ⟨p, fs⟩⟩
  · decide
  · decide
  · exact ⟨by simp [checkCodes], reasonCode_lt p, failBits_lt fs⟩

theorem checkVerdictOf_checkCodes {c : Option CheckVerdict} (hc : checkCarried c = true) :
    checkVerdictOf (checkCodes c).1 (checkCodes c).2.1 (checkCodes c).2.2 = some c := by
  rcases c with _ | ⟨_ | ⟨p, fs⟩⟩
  · rfl
  · rfl
  · obtain ⟨hmem, hfs⟩ : fs.contains p = true ∧ fs = reasons.filter fun r => fs.contains r := by
      simpa only [checkCarried, Bool.and_eq_true, decide_eq_true_eq] using hc
    simp only [checkCodes, checkVerdictOf, reasonOf_reasonCode, failSetOf_failBits hfs, hmem, if_true]

theorem wrapByte_lt (w : Option WrapVerdict) : wrapByte w < 256 := by
  rcases w with _ | ⟨_ | _ | _⟩ <;> simp only [wrapByte] <;> omega

theorem wrapVerdictOf_wrapByte {w : Option WrapVerdict} (hw : wrapCarried w = true) :
    wrapVerdictOf (wrapByte w) = some w := by
  rcases w with _ | ⟨c | _ | _⟩
  · rfl
  · obtain ⟨hlow, hhigh⟩ : 1 ≤ c ∧ c ≤ 15 := by simpa [wrapCarried] using hw
    interval_cases c <;> rfl
  · rfl
  · rfl

theorem labelByte_lt (l : Option LabelVerdict) : labelByte l < 256 := by
  rcases l with _ | ⟨_ | _ | _⟩ <;> simp only [labelByte] <;> omega

theorem labelCodeBytes_length {l : Option LabelVerdict} (hl : labelCarried l = true) : (labelCodeBytes l).length = 7 := by
  rcases l with _ | ⟨⟨n, code⟩ | _ | _⟩
  · rfl
  · have hcode : code.length = 13 := by simp [labelCarried] at hl; exact hl.2
    exact packDigits_length hcode
  · rfl
  · rfl

theorem labelVerdictOf_labelByte {l : Option LabelVerdict} (hl : labelCarried l = true) :
    labelVerdictOf (labelByte l) (labelCodeBytes l) = some l := by
  rcases l with _ | ⟨⟨n, code⟩ | _ | _⟩
  · rfl
  · obtain ⟨⟨hlow, hhigh⟩, hcode⟩ : (1 ≤ n ∧ n ≤ 3) ∧ code.length = 13 := by simpa [labelCarried] using hl
    interval_cases n <;> simp [labelByte, labelCodeBytes, labelVerdictOf, unpackDigits_packDigits hcode]
  · rfl
  · rfl

@[simp] theorem trackBytes_length (t : Track) : (trackBytes t).length = 2 := by simp [trackBytes]

theorem trackOf_trackBytes {t : Track} (horigin : 1 ≤ t.origin ∧ t.origin ≤ 24) (hseq : 1 ≤ t.seq ∧ t.seq ≤ 2047) :
    trackOf (beNat (trackBytes t)) = some t := by
  obtain ⟨origin, seq⟩ := t
  simp only at horigin hseq
  have horg : (origin % 32 * 2048 + seq % 2048) / 2048 = origin := by omega
  have hsq : (origin % 32 * 2048 + seq % 2048) % 2048 = seq := by omega
  have hnz : ¬(origin = 0 ∨ seq = 0) := by omega
  rw [trackBytes, beNat_beBytes (by omega), trackOf, horg, hsq, if_neg (by simpa using hnz)]

/-! ## Fields of a payload -/

/-- A field stands at the sum of the widths before it. -/
theorem bytesAt_flatten {fs : List (List Byte)} {ws : List Nat} (hw : fs.map List.length = ws) (i off n : Nat)
    {f : List Byte} (hf : fs[i]? = some f) (hn : ws[i]? = some n) (hoff : (ws.take i).sum = off) :
    bytesAt fs.flatten off n = f := by
  subst hw
  obtain ⟨hi, rfl⟩ := List.getElem?_eq_some_iff.1 hf
  have hlen : fs[i].length = n := by simpa [hf] using hn
  have hsplit : fs.flatten = (fs.take i).flatten ++ (fs[i] ++ (fs.drop (i + 1)).flatten) := by
    rw [← List.flatten_cons, ← List.flatten_append, ← List.drop_eq_getElem_cons hi, List.take_append_drop]
  have hpre : (fs.take i).flatten.length = off := by rw [← hoff, List.length_flatten, List.map_take]
  rw [bytesAt, hsplit, List.drop_left' hpre, List.take_left' hlen]

end Sys2Proof.Machine
end

