-- ==== Proofs/OfferTravels.lean ====
section
/-! PROOF. An OFFER's payload field by field, its frame on the line, and the receive filter; O8. -/

namespace Sys2Proof.Machine

/-! ## Lines of goods -/

/-- The fields of a line (Table 12-4). -/
def lineFields (l : GoodsLine) : List (List Byte) :=
  [packDigits l.article, [BitVec.ofNat 8 (unitClassCode l.unitClass)], [BitVec.ofNat 8 l.count], beBytes 2 l.mass,
    [BitVec.ofNat 8 l.layers], beBytes 2 l.layerHeight]

theorem lineBytes_eq_flatten (l : GoodsLine) : lineBytes l = (lineFields l).flatten := by simp [lineBytes, lineFields]

theorem lineFields_widths {l : GoodsLine} (hl : l.article.length = 6) :
    (lineFields l).map List.length = [3, 1, 1, 2, 1, 2] := by
  simp [lineFields, packDigits_length hl]

theorem lineBytes_length {l : GoodsLine} (hl : lineCarried l = true) : (lineBytes l).length = 10 := by
  simp only [lineCarried, Bool.and_eq_true, decide_eq_true_eq, and_assoc] at hl
  rw [lineBytes_eq_flatten, List.length_flatten, lineFields_widths hl.1]
  rfl

theorem lineOf_lineBytes {l : GoodsLine} (hl : lineCarried l = true) : lineOf (lineBytes l) = some l := by
  obtain ⟨harticle, hcount, hmass, hlayers, hheight⟩ :
      l.article.length = 6 ∧ l.count < 256 ∧ l.mass < 256 ^ 2 ∧ l.layers < 256 ∧ l.layerHeight < 256 ^ 2 := by
    simpa [lineCarried, and_assoc] using hl
  have hw := lineFields_widths harticle
  rw [lineBytes_eq_flatten]
  have field := @bytesAt_flatten _ _ hw
  simp only [lineOf, natAt, field 0 0 3 rfl rfl rfl, field 1 3 1 rfl rfl rfl, field 2 4 1 rfl rfl rfl,
    field 3 5 2 rfl rfl rfl, field 4 7 1 rfl rfl rfl, field 5 8 2 rfl rfl rfl,
    unpackDigits_packDigits harticle, beNat_byte (unitClassCode_lt _), unitClassOf_unitClassCode, beNat_byte hcount,
    beNat_byte hlayers, beNat_beBytes hmass, beNat_beBytes hheight]
  rfl

theorem flatMap_lineBytes_length {ls : List GoodsLine} (hls : ls.all lineCarried = true) :
    (ls.flatMap lineBytes).length = 10 * ls.length := by
  induction ls with
  | nil => rfl
  | cons l ls ih =>
    obtain ⟨hl, hrest⟩ : lineCarried l = true ∧ ls.all lineCarried = true := by simpa using hls
    rw [List.flatMap_cons, List.length_append, lineBytes_length hl, ih hrest, List.length_cons]
    omega

theorem linesOf_flatMap_lineBytes {ls : List GoodsLine} (hls : ls.all lineCarried = true) {pre : List Byte} {off : Nat}
    (hoff : pre.length = off) : linesOf (pre ++ ls.flatMap lineBytes) off ls.length = some ls := by
  induction ls generalizing pre off with
  | nil => rfl
  | cons l ls ih =>
    obtain ⟨hl, hrest⟩ : lineCarried l = true ∧ ls.all lineCarried = true := by simpa using hls
    have hline : bytesAt (pre ++ (lineBytes l ++ ls.flatMap lineBytes)) off 10 = lineBytes l := by
      rw [bytesAt, List.drop_left' hoff, List.take_left' (lineBytes_length hl)]
    have htail : linesOf (pre ++ (lineBytes l ++ ls.flatMap lineBytes)) (off + 10) ls.length = some ls := by
      rw [← List.append_assoc]
      exact ih hrest (by rw [List.length_append, hoff, lineBytes_length hl])
    rw [List.flatMap_cons, List.length_cons, linesOf, hline, lineOf_lineBytes hl, htail]
    rfl

/-! ## The bits of the presence and status bytes -/

theorem presenceByte_lt (r : TravelRecord) : presenceByte r < 256 := by
  have h : ∀ a b c d e f : Bool,
      bitIf a 7 + bitIf b 6 + bitIf c 5 + bitIf d 4 + bitIf e 3 + bitIf f 2 < 256 := by decide
  exact h _ _ _ _ _ _

/-- Each presence bit says whether its field is present (R182). -/
theorem presenceByte_testBit (r : TravelRecord) :
    (presenceByte r).testBit 7 = r.serial.isSome ∧ (presenceByte r).testBit 6 = r.order.isSome ∧
      (presenceByte r).testBit 5 = r.gross.isSome ∧ (presenceByte r).testBit 4 = r.height.isSome ∧
      (presenceByte r).testBit 3 = r.length.isSome ∧ (presenceByte r).testBit 2 = r.deviation.isSome := by
  have h : ∀ a b c d e f : Bool,
      let n := bitIf a 7 + bitIf b 6 + bitIf c 5 + bitIf d 4 + bitIf e 3 + bitIf f 2
      n.testBit 7 = a ∧ n.testBit 6 = b ∧ n.testBit 5 = c ∧ n.testBit 4 = d ∧ n.testBit 3 = e ∧ n.testBit 2 = f := by
    decide
  exact h _ _ _ _ _ _

/-- The two mark bits of a status byte, below its lane class. -/
theorem marks_testBit (a b : Bool) :
    (bitIf a 1 + bitIf b 0).testBit 1 = a ∧ (bitIf a 1 + bitIf b 0).testBit 0 = b ∧ bitIf a 1 + bitIf b 0 < 4 := by
  revert a b
  decide

theorem statusByte_lt (r : TravelRecord) : statusByte r < 256 := by
  have hduty := dutyCode_lt r.duty
  have hlane := laneClassCode_lt r.laneClass
  obtain ⟨-, -, hmarks⟩ := marks_testBit r.unknownOrigin r.manifestPresent
  rw [statusByte]
  omega

theorem statusByte_duty (r : TravelRecord) : statusByte r / 64 = dutyCode r.duty := by
  have hlane := laneClassCode_lt r.laneClass
  obtain ⟨-, -, hmarks⟩ := marks_testBit r.unknownOrigin r.manifestPresent
  rw [statusByte]
  omega

theorem statusByte_laneClass (r : TravelRecord) : statusByte r / 16 % 4 = laneClassCode r.laneClass := by
  have hlane := laneClassCode_lt r.laneClass
  obtain ⟨-, -, hmarks⟩ := marks_testBit r.unknownOrigin r.manifestPresent
  rw [statusByte]
  omega

theorem statusByte_testBit (r : TravelRecord) :
    (statusByte r).testBit 1 = r.unknownOrigin ∧ (statusByte r).testBit 0 = r.manifestPresent := by
  obtain ⟨horigin, hmanifest, hmarks⟩ := marks_testBit r.unknownOrigin r.manifestPresent
  have hmod : statusByte r % 2 ^ 2 = bitIf r.unknownOrigin 1 + bitIf r.manifestPresent 0 := by
    rw [statusByte]
    omega
  have hlow : ∀ i < 2, (statusByte r).testBit i = (bitIf r.unknownOrigin 1 + bitIf r.manifestPresent 0).testBit i := by
    intro i hi
    rw [← hmod, Nat.testBit_mod_two_pow]
    simp [hi]
  exact ⟨(hlow 1 (by decide)).trans horigin, (hlow 0 (by decide)).trans hmanifest⟩

/-! ## An OFFER's payload -/

/-- The deviation's field. -/
def deviationBytes : Option Int → List Byte
  | some d => intBytes 4 d
  | none => absentBytes 4

@[simp] theorem deviationBytes_length (o : Option Int) : (deviationBytes o).length = 4 := by
  cases o <;> simp [deviationBytes, absentBytes]

theorem if_isSome_intAt_deviationBytes {o : Option Int}
    (ho : o.all (fun d => -2147483648 ≤ d && d < 2147483648) = true) :
    (if o.isSome = true then some (signedOf 4 (beNat (deviationBytes o))) else none) = o := by
  cases o with
  | none => rfl
  | some d =>
    obtain ⟨hlow, hhigh⟩ : -2147483648 ≤ d ∧ d < 2147483648 := by simpa using ho
    simpa [deviationBytes] using signedOf_beNat_intBytes hlow hhigh

/-- The fields of an OFFER before its lines (Table 12-3). -/
def offerFields (target : Nat) (r : TravelRecord) : List (List Byte) :=
  [[BitVec.ofNat 8 target], trackBytes r.track, [BitVec.ofNat 8 (presenceByte r)], [BitVec.ofNat 8 (statusByte r)],
    optDigits 5 r.serial, optDigits 4 r.order, optNat 2 r.tare, [BitVec.ofNat 8 r.lines.length], optNat 3 r.gross,
    optNat 2 r.height, optNat 2 r.length, deviationBytes r.deviation, [BitVec.ofNat 8 (checkCodes r.check).1],
    [BitVec.ofNat 8 (checkCodes r.check).2.1], beBytes 2 (checkCodes r.check).2.2, [BitVec.ofNat 8 (wrapByte r.wrap)],
    [BitVec.ofNat 8 (labelByte r.label)], labelCodeBytes r.label, [BitVec.ofNat 8 r.hops]]

/-- The widths of those fields. -/
def offerWidths : List Nat := [1, 2, 1, 1, 5, 4, 2, 1, 3, 2, 2, 4, 1, 1, 2, 1, 1, 7, 1]

theorem offerPayload_eq (target : Nat) (r : TravelRecord) :
    offerPayload target r = (offerFields target r).flatten ++ r.lines.flatMap lineBytes := by
  rcases hd : r.deviation with _ | d <;> simp [offerPayload, offerFields, deviationBytes, hd]

/-- What `recordCarried` asks of a record, taken apart. -/
structure Spellable (r : TravelRecord) : Prop where
  origin : 1 ≤ r.track.origin ∧ r.track.origin ≤ 24
  seq : 1 ≤ r.track.seq ∧ r.track.seq ≤ 2047
  serial : r.serial.all (fun ds => ds.length = 10) = true
  order : r.order.all (fun ds => ds.length = 8) = true
  manifest : r.tare.isSome = r.manifestPresent
  tare : r.tare.all (fun v => v < 256 ^ 2) = true
  lineCount : r.lines.length ≤ 6
  lines : r.lines.all lineCarried = true
  gross : r.gross.all (fun v => v < 256 ^ 3) = true
  height : r.height.all (fun v => v < 256 ^ 2) = true
  length : r.length.all (fun v => v < 256 ^ 2) = true
  deviation : r.deviation.all (fun d => -2147483648 ≤ d && d < 2147483648) = true
  check : checkCarried r.check = true
  wrap : wrapCarried r.wrap = true
  label : labelCarried r.label = true
  hops : r.hops ≤ 15

theorem spellable_of_recordCarried {r : TravelRecord} (hr : recordCarried r = true) : Spellable r := by
  simp only [recordCarried, Bool.and_eq_true, decide_eq_true_eq, beq_iff_eq, and_assoc] at hr
  obtain ⟨ho1, ho2, hs1, hs2, hserial, horder, hmanifest, htare, hcount, hlines, hgross, hheight, hlength, hdev, hcheck,
    hwrap, hlabel, hhops⟩ := hr
  exact ⟨⟨ho1, ho2⟩, ⟨hs1, hs2⟩, hserial, horder, hmanifest, htare, hcount, hlines, hgross, hheight, hlength, hdev,
    hcheck, hwrap, hlabel, hhops⟩

section
variable {r : TravelRecord} (h : Spellable r) (target : Nat)
include h

theorem offerFields_widths : (offerFields target r).map List.length = offerWidths := by
  simp [offerFields, offerWidths, optDigits_length (n := 5) rfl h.serial, optDigits_length (n := 4) rfl h.order,
    labelCodeBytes_length h.label]

theorem offerFields_flatten_length : (offerFields target r).flatten.length = 42 := by
  rw [List.length_flatten, offerFields_widths h]
  rfl

theorem offerPayload_length : (offerPayload target r).length = 42 + 10 * r.lines.length := by
  rw [offerPayload_eq, List.length_append, offerFields_flatten_length h, flatMap_lineBytes_length h.lines]

/-- A field before the lines stands at the sum of the widths before it. -/
theorem bytesAt_offerPayload (i off n : Nat) {f : List Byte} (hf : (offerFields target r)[i]? = some f)
    (hn : offerWidths[i]? = some n) (hoff : (offerWidths.take i).sum = off) :
    bytesAt (offerPayload target r) off n = f := by
  have hw : (offerFields target r ++ [r.lines.flatMap lineBytes]).map List.length =
      offerWidths ++ [10 * r.lines.length] := by
    simp [offerFields_widths h, flatMap_lineBytes_length h.lines]
  have hlt : i < offerWidths.length := (List.getElem?_eq_some_iff.1 hn).1
  have hlt' : i < (offerFields target r).length := (List.getElem?_eq_some_iff.1 hf).1
  have hpayload : offerPayload target r = (offerFields target r ++ [r.lines.flatMap lineBytes]).flatten := by
    simp [offerPayload_eq]
  rw [hpayload]
  exact bytesAt_flatten hw i off n (by rw [List.getElem?_append_left hlt', hf]) (by rw [List.getElem?_append_left hlt, hn])
    (by rw [List.take_append_of_le_length hlt.le, hoff])

theorem offerRecord_offerPayload : offerRecord (offerPayload target r) = some r := by
  obtain ⟨hb7, hb6, hb5, hb4, hb3, hb2⟩ := presenceByte_testBit r
  obtain ⟨hb1, hb0⟩ := statusByte_testBit r
  obtain ⟨hverdict, hprimary, hbits⟩ := checkCodes_lt r.check
  have hcount : r.lines.length < 256 := lt_of_le_of_lt h.lineCount (by decide)
  have hhops : r.hops < 256 := lt_of_le_of_lt h.hops (by decide)
  have hlines : linesOf (offerPayload target r) 42 r.lines.length = some r.lines := by
    rw [offerPayload_eq]
    exact linesOf_flatMap_lineBytes h.lines (offerFields_flatten_length h target)
  have field := @bytesAt_offerPayload r h target
  simp only [offerRecord, natAt, intAt, offerPayload_length h, hlines,
    field 1 1 2 rfl rfl rfl, field 2 3 1 rfl rfl rfl, field 3 4 1 rfl rfl rfl, field 4 5 5 rfl rfl rfl,
    field 5 10 4 rfl rfl rfl, field 6 14 2 rfl rfl rfl, field 7 16 1 rfl rfl rfl, field 8 17 3 rfl rfl rfl,
    field 9 20 2 rfl rfl rfl, field 10 22 2 rfl rfl rfl, field 11 24 4 rfl rfl rfl, field 12 28 1 rfl rfl rfl,
    field 13 29 1 rfl rfl rfl, field 14 30 2 rfl rfl rfl, field 15 32 1 rfl rfl rfl, field 16 33 1 rfl rfl rfl,
    field 17 34 7 rfl rfl rfl, field 18 41 1 rfl rfl rfl,
    trackOf_trackBytes h.origin h.seq, beNat_byte (presenceByte_lt r), beNat_byte (statusByte_lt r),
    statusByte_duty, statusByte_laneClass, dutyOf_dutyCode, laneClassOf_laneClassCode, hb7, hb6, hb5, hb4, hb3, hb2, hb1,
    hb0, digitsIf_optDigits h.serial, digitsIf_optDigits h.order, beNat_byte hverdict, beNat_byte hprimary,
    beNat_beBytes hbits, checkVerdictOf_checkCodes h.check, beNat_byte (wrapByte_lt _), wrapVerdictOf_wrapByte h.wrap,
    beNat_byte (labelByte_lt _), labelVerdictOf_labelByte h.label, beNat_byte hhops, beNat_byte hcount,
    if_isSome_beNat_optNat h.gross, if_isSome_beNat_optNat h.height, if_isSome_beNat_optNat h.length,
    if_isSome_intAt_deviationBytes h.deviation, ← h.manifest, if_isSome_beNat_optNat h.tare, h.hops]
  simp [h.manifest]

end

/-! ## The frame on the line -/

/-- A frame sent whole is heard as what was sent (R56). -/
theorem goodFrame_wireBytes {cls sender kind : Nat} {payload : List Byte} (hcls : cls < 8) (hsender : sender < 32)
    (hkind : kind < 256) (hlen : payload.length < 256) :
    goodFrame (wireBytes cls sender kind payload) =
      some { cls := cls, sender := sender, kind := kind, payload := payload } := by
  have hl : (BitVec.ofNat 8 payload.length).toNat = payload.length := by simp [Nat.mod_eq_of_lt hlen]
  have hk : (BitVec.ofNat 8 kind).toNat = kind := by simp [Nat.mod_eq_of_lt hkind]
  have hh : (BitVec.ofNat 8 (cls % 8 * 32 + sender % 32)).toNat = cls * 32 + sender := by
    rw [BitVec.toNat_ofNat]
    omega
  have hcls' : (cls * 32 + sender) / 32 = cls := by omega
  have hsender' : (cls * 32 + sender) % 32 = sender := by omega
  simp [wireBytes, goodFrame, hl, hk, hh, hcls', hsender', List.take_of_length_le]

section
variable {s : State} {r : TravelRecord}

theorem filterFrame_offer (hin : inService s = true) (hnode : isNode s.cfg.node = true)
    (hup : isNode (upstream s) = true) (hne : upstream s ≠ s.cfg.node) (h : Spellable r) :
    filterFrame s { cls := 1, sender := upstream s, kind := 0x10, payload := offerPayload s.cfg.node r } =
      some .offer := by
  have hnodes : s.cfg.node < 256 := by simp [isNode] at hnode; omega
  have hups : upstream s ≠ 0 := by simp [isNode] at hup; omega
  have htarget : natAt (offerPayload s.cfg.node r) 0 1 = s.cfg.node := by
    rw [natAt, bytesAt_offerPayload h s.cfg.node 0 0 1 rfl rfl rfl, beNat_byte hnodes]
  have hallowed : lengthAllowed .offer (offerPayload s.cfg.node r).length = true := by
    have hcount := h.lineCount
    rw [offerPayload_length h]
    simp only [lengthAllowed, Bool.and_eq_true, decide_eq_true_eq]
    omega
  have hkind : kindOf 0x10 = some .offer := rfl
  simp [filterFrame, hkind, hne, hups, serviceTakes, hin, kindClass, hallowed, takenBy, fromNeighbour, htarget]

theorem heardFrame_offer (hin : inService s = true) (hnode : isNode s.cfg.node = true)
    (hup : isNode (upstream s) = true) (hne : upstream s ≠ s.cfg.node) (h : Spellable r) :
    heardFrame s (wireBytes 1 (upstream s) 0x10 (offerPayload s.cfg.node r)) = some (.offer r) := by
  have hsender : upstream s < 32 := by simp [isNode] at hup; omega
  have hlen : (offerPayload s.cfg.node r).length < 256 := by
    have hcount := h.lineCount
    rw [offerPayload_length h]
    omega
  rw [heardFrame, goodFrame_wireBytes (by decide) hsender (by decide) hlen, Option.bind_some,
    filterFrame_offer hin hnode hup hne h, Option.bind_some, decodeFrame, offerRecord_offerPayload h, Option.map_some]

end

/-- Settles O8: the frame is heard whole, passes the filter, and every field of its payload reads back. -/
theorem offeredRecordTravelsWhole : Obligations.OfferedRecordTravelsWhole := by
  intro s r hin hnode hup hne hr hroom
  have hstore : execFrameReceived (wireBytes 1 (upstream s) 0x10 (offerPayload s.cfg.node r)) s =
      .next (s.setLine { s.line with rx := s.line.rx ++ [.offer r] }) := by
    rw [execFrameReceived, heardFrame_offer hin hnode hup hne (spellable_of_recordCarried hr)]
    simp [storeFrame, Config.rxCapacity, hroom]
  exact hstore

end Sys2Proof.Machine
end

