-- ==== Proofs/QueueLaws.lean ====
section
/-! PROOF. The queues of the line over every step (O55): the law of attempts as stated is no invariant. -/

namespace Sys2Proof.Machine

/-- A station whose one queued frame, in its attempt, is marked both withdrawn and staying after a replacement, at the moment the
attempt is counted sent. No operation sets the two marks together, but the law of attempts does not exclude it. -/
def markedTwice : State :=
  (State.reset.setLine { State.reset.line with
    tx := [{ frame := .status, inAttempt := true, withdrawn := true, stays := true }]
    sending := some { bytes := [], reported := none, txSince := false, rxSince := false } }).setPending
    [.attemptCountedSent]

/-- What the end of the attempt makes of it: the entry stays, withdrawn and in no attempt. -/
def markedAfter : State :=
  State.reset.setLine { State.reset.line with
    tx := [{ frame := .status, inAttempt := false, withdrawn := true, stays := false }] }

theorem lineSound_markedTwice : LineSound markedTwice := by decide

theorem step_markedTwice : step markedTwice = .next markedAfter := rfl

theorem not_lineSound_markedAfter : ¬ LineSound markedAfter := by decide

/-- Refutes O55: an entry that LineSound lets be withdrawn and stay at once keeps the mark of its withdrawal when its attempt is
counted sent and it stays in the queue (R58, R60), and an entry in no attempt may not have that mark. -/
theorem not_stepsKeepTheQueuesAndSetsSound : ¬ Obligations.StepsKeepTheQueuesAndSetsSound := fun h =>
  not_lineSound_markedAfter ((h _ _ step_markedTwice).1 lineSound_markedTwice)

end Sys2Proof.Machine
end

