-- ==== Proofs/Tick.lean ====
section
/-! PROOF. A step on an empty queue (O2): what the tick makes of the timers, and how often each expiry is put into the queue. -/

namespace Sys2Proof.Machine

section
variable {s : State} {c d : Instr}

/-- An entry's timer runs down by one step unless it is frozen (R29, R30). -/
theorem tickEntry_eq_ite (s : State) (e : Entry) : tickEntry s e =
    if (if e.state = .expected then arrivalFrozen s else releaseFrozen s) then e
    else { e with timer := e.timer.map (· - 1) } := by
  unfold tickEntry entryFrozen tickTimer
  split_ifs <;> rfl

/-! ## How often an expiry is queued -/

/-- The timers that run outside the table and the print history, each with its expiry and whether it is frozen (Table 2-3,
R140, R147, R164). -/
def timerRows (s : State) : List (Instr × Bool × Option Nat) :=
  [(.offerRepeatExpiry, false, s.zone.offerTimer), (.positionTimerExpiry, s.pins.safe, s.zone.positionTimer),
   (.releaseTimerExpiry, releaseFrozen s, s.zone.releaseTimer), (.tagWaitExpiry, false, s.reader.tagWait),
   (.manifestWaitExpiry, false, s.store.request.bind Request.wait), (.startZeroTimerExpiry, false, s.weigh.startZero),
   (.zeroDueExpiry, false, s.weigh.zeroDue), (.settleTimerExpiry, false, s.weigh.settle),
   (.startTimerExpiry, false, s.wrap.startTimer), (.wrapTimerExpiry, s.pins.safe, s.wrap.wrapTimer),
   (.wrAbortPulseEnd none, false, s.wrap.abort), (.printTimerExpiry, s.pins.safe, s.label.printTimer),
   (.applyTimerExpiry, s.pins.safe, s.label.applyTimer), (.verifyTimerExpiry, s.pins.safe, s.label.verifyTimer),
   (.abortWaitExpiry, false, s.label.abortWait), (.laneWaitExpiry, false, s.route.laneWait)]

theorem count_when (b : Bool) (c d : Instr) : (when b c).count d = if b = true ∧ c = d then 1 else 0 := by
  cases b <;> simp [when, List.count_singleton]

/-- Of a list whose members each queue at most one command, those count that queue the one asked for. -/
theorem count_flatMap_when {α : Type} (l : List α) (b : α → Bool) (f : α → Instr) (d : Instr) :
    (l.flatMap fun x => when (b x) (f x)).count d = (l.filter fun x => b x && f x = d).length := by
  induction l with
  | nil => rfl
  | cons x l ih =>
    rw [List.flatMap_cons, List.count_append, count_when, ih, List.filter_cons]
    cases b x <;> by_cases hd : f x = d <;> simp [hd, Nat.add_comm]

/-- What the expiry of an entry's timer is called: the arrival timer's, or the taken timer's of its track (Table 2-3). -/
def entryCommand (e : Entry) : Instr :=
  if e.state = .expected then .arrivalTimerExpiry else .takenTimerExpiry e.record.track

theorem entryExpiry_eq (s : State) :
    entryExpiry s = fun e => when (expires (entryFrozen s e) e.timer) (entryCommand e) := rfl

theorem entryCommand_arrival {e : Entry} : entryCommand e = .arrivalTimerExpiry ↔ e.state = .expected := by
  unfold entryCommand
  split <;> simp_all

theorem entryCommand_taken {e : Entry} {k : Track} :
    entryCommand e = .takenTimerExpiry k ↔ e.state ≠ .expected ∧ e.record.track = k := by
  unfold entryCommand
  split <;> simp_all

theorem entryCommand_ne (e : Entry) (h1 : d ≠ .arrivalTimerExpiry) (h2 : ∀ k, d ≠ .takenTimerExpiry k) :
    entryCommand e ≠ d := by
  unfold entryCommand
  split
  · exact h1.symm
  · exact (h2 _).symm

/-- A command is queued once for each entry, each print start and each other timer whose expiry it is. -/
theorem count_expiries (s : State) (d : Instr) : (expiries s).count d =
    (s.table.filter fun e => expires (entryFrozen s e) e.timer && entryCommand e = d).length +
    (s.label.history.filter fun p => (p.inWindow && p.left ≤ 1) && Instr.historyEntryLeavesWindow = d).length +
    ((timerRows s).filter fun p => expires p.2.1 p.2.2 && p.1 = d).length := by
  have hreq : s.store.request.any (fun r => expires false r.wait) = expires false (s.store.request.bind Request.wait) := by
    cases s.store.request <;> rfl
  rw [← count_flatMap_when, ← count_flatMap_when, ← count_flatMap_when]
  simp only [expiries, entryExpiry_eq, hreq, halted, timerRows, List.flatMap_cons, List.flatMap_nil, List.count_append,
    List.count_nil]
  omega

/-- Of rows with names of their own, one alone is counted under the name of a given row. -/
theorem filter_name_of_nodup {α : Type} {l : List (Instr × α)} (h : (l.map Prod.fst).Nodup) {p : Instr × α} (hp : p ∈ l) :
    (l.filter fun q => q.1 = p.1) = [p] := by
  induction l with
  | nil => simp at hp
  | cons x l ih =>
    obtain ⟨hx, hl⟩ := List.nodup_cons.1 h
    obtain rfl | hp := List.mem_cons.1 hp
    · rw [List.filter_cons_of_pos (by simp), List.filter_eq_nil_iff.2 fun q hq => ?_]
      simpa using fun he : q.1 = p.1 => hx (he ▸ List.mem_map_of_mem hq)
    · rw [List.filter_cons_of_neg, ih hl hp]
      simpa using fun he : x.1 = p.1 => hx (he ▸ List.mem_map_of_mem hp)

theorem timerRows_nodup (s : State) : ((timerRows s).map Prod.fst).Nodup := by simp [timerRows]

/-- The expiries of the table's timers and of the print history are not among the rows. -/
theorem timerRows_names {p : Instr × Bool × Option Nat} (hp : p ∈ timerRows s) :
    p.1 ≠ .arrivalTimerExpiry ∧ (∀ k, p.1 ≠ .takenTimerExpiry k) ∧ p.1 ≠ .historyEntryLeavesWindow := by
  simp only [timerRows, List.mem_cons, List.not_mem_nil, or_false] at hp
  obtain rfl | rfl | rfl | rfl | rfl | rfl | rfl | rfl | rfl | rfl | rfl | rfl | rfl | rfl | rfl | rfl := hp <;> simp

theorem rows_of_other_name (h : ∀ p ∈ timerRows s, p.1 ≠ d) :
    ((timerRows s).filter fun p => expires p.2.1 p.2.2 && p.1 = d) = [] :=
  List.filter_eq_nil_iff.2 fun p hp => by simp [h p hp]

theorem count_row {p : Instr × Bool × Option Nat} (hp : p ∈ timerRows s) :
    (expiries s).count p.1 = if expires p.2.1 p.2.2 then 1 else 0 := by
  obtain ⟨h1, h2, h3⟩ := timerRows_names hp
  rw [count_expiries, ← List.filter_filter (l := timerRows s), filter_name_of_nodup (timerRows_nodup s) hp]
  cases hx : expires p.2.1 p.2.2 <;> simp [hx, entryCommand_ne _ h1 h2, h3.symm]

theorem count_arrivalTimerExpiry (s : State) : (expiries s).count .arrivalTimerExpiry =
    (s.table.filter fun e => e.state = .expected && expires (arrivalFrozen s) e.timer).length := by
  rw [count_expiries, rows_of_other_name fun p hp => (timerRows_names hp).1]
  simp only [entryCommand_arrival, reduceCtorEq, decide_false, Bool.and_false, List.filter_false, List.length_nil, add_zero]
  congr 1
  refine List.filter_congr fun e _ => ?_
  by_cases hx : e.state = .expected <;> simp [hx, entryFrozen]

theorem count_takenTimerExpiry (s : State) (k : Track) : (expiries s).count (.takenTimerExpiry k) =
    (s.table.filter fun e => e.state != .expected && e.record.track = k && expires (releaseFrozen s) e.timer).length := by
  rw [count_expiries, rows_of_other_name fun p hp => (timerRows_names hp).2.1 k]
  simp only [entryCommand_taken, reduceCtorEq, decide_false, Bool.and_false, List.filter_false, List.length_nil, add_zero]
  congr 1
  refine List.filter_congr fun e _ => ?_
  by_cases hx : e.state = .expected
  · simp [hx]
  · simp [hx, bne_iff_ne.2 hx, entryFrozen, Bool.and_comm]

theorem count_historyEntryLeavesWindow (s : State) : (expiries s).count .historyEntryLeavesWindow =
    (s.label.history.filter fun p => p.inWindow && p.left ≤ 1).length := by
  rw [count_expiries, rows_of_other_name fun p hp => (timerRows_names hp).2.2]
  simp [entryCommand_ne]

/-- Nothing is queued but an expiry of an entry, of a print start or of a row. -/
theorem mem_expiries (h : c ∈ expiries s) : (∃ e ∈ s.table, c = entryCommand e) ∨ c = .historyEntryLeavesWindow ∨
    ∃ p ∈ timerRows s, c = p.1 := by
  by_contra hn
  simp only [not_or, not_exists, not_and] at hn
  obtain ⟨hentry, hhist, hrow⟩ := hn
  have hpos := List.count_pos_iff.2 h
  rw [count_expiries, rows_of_other_name fun p hp => Ne.symm (hrow p hp),
    List.filter_eq_nil_iff.2 fun e he => by simp [Ne.symm (hentry e he)]] at hpos
  simp [Ne.symm hhist] at hpos

/-! ## The step -/

theorem tickTimers_label (s : State) : (tickTimers s).label = { s.label with
    abortWait := s.label.abortWait.map (· - 1)
    history := s.label.history.map (fun p => if p.inWindow then { p with left := p.left - 1 } else p)
    printTimer := if s.pins.safe then s.label.printTimer else s.label.printTimer.map (· - 1)
    applyTimer := if s.pins.safe then s.label.applyTimer else s.label.applyTimer.map (· - 1)
    verifyTimer := if s.pins.safe then s.label.verifyTimer else s.label.verifyTimer.map (· - 1) } := rfl

theorem tickTimers_table (s : State) : (tickTimers s).table = s.table.map (fun e =>
    if (if e.state = .expected then arrivalFrozen s else releaseFrozen s) then e
    else { e with timer := e.timer.map (· - 1) }) :=
  congrArg (fun f => s.table.map f) (funext (tickEntry_eq_ite s))

theorem tickTimers_zone (s : State) : (tickTimers s).zone = { s.zone with
    offerTimer := s.zone.offerTimer.map (· - 1)
    positionTimer := if s.pins.safe then s.zone.positionTimer else s.zone.positionTimer.map (· - 1)
    releaseTimer := if releaseFrozen s then s.zone.releaseTimer else s.zone.releaseTimer.map (· - 1) } := rfl

theorem onlyChanges_tickTimers (s : State) (q : List Instr) :
    onlyChanges [.pending, .table, .zone, .store, .reader, .weigh, .wrap, .label, .route] s ((tickTimers s).setPending q) := by
  intro b
  cases b <;> simp [Block.same, tickTimers]

/-- Settles O2: the tick's timers field by field, and its expiries counted one by one. -/
theorem idleStepCountsTheTimers : Obligations.IdleStepCountsTheTimers := by
  intro s due hq hdue
  have hstep : step s = .next (tick s) := by simp [step, hq]
  have hexp : ∀ b t, expires b t = (!b && due t) := fun b t => by rw [hdue]; rfl
  refine ⟨fun ha => by rw [hstep, tick, if_neg (by simp [ha])], fun ha => ⟨_, hstep, ?_⟩⟩
  rw [tick, if_pos ha]
  refine ⟨onlyChanges_tickTimers s _, tickTimers_table s, tickTimers_zone s, rfl, rfl, rfl, rfl, rfl, tickTimers_label s, rfl,
    expiries s, rfl, ?_, ?_, ?_, ?_, ?_⟩
  · intro p hp
    rw [count_row (s := s) hp, hexp]
    simp
  · simp only [count_arrivalTimerExpiry, hexp, Bool.and_assoc]
  · intro e _
    simp only [count_takenTimerExpiry, hexp, Bool.and_assoc]
  · exact count_historyEntryLeavesWindow s
  · intro c hc
    obtain ⟨e, he, rfl⟩ | rfl | ⟨p, hp, rfl⟩ := mem_expiries hc
    · by_cases hx : e.state = .expected
      · exact .inl (by simp [entryCommand, hx])
      · exact .inr ⟨e, he, by simp [entryCommand, hx]⟩
    · exact .inl (by simp)
    · refine .inl (List.mem_append_left _ (?_ : p.1 ∈ (timerRows s).map Prod.fst))
      exact List.mem_map_of_mem hp

end

end Sys2Proof.Machine
end

