-- ==== Proofs/Transfer.lean ====
section
/-! PROOF. Events that leave nothing to settle: ACCEPT and RELEASED (O19, O20), and the timeouts that jam the zone (O31). -/

namespace Sys2Proof.Machine

section
variable {b s m t : State}

/-! ## ACCEPT (R35) -/

theorem exec_acceptReceived {k : Track} {rest : List RxFrame} (hin : inService s = true) (hrx : s.line.rx = .accept k :: rest) :
    exec .acceptReceived s = .next (settle s (if acceptStarts k s then startRelease (dropHead s) else dropHead s)) := by
  simp [exec, execAcceptReceived, hrx, hin]

/-- A DONE record in a STOPPED zone is the head record: nothing EXPECTED stands before it (R8). -/
theorem StationSound.headEntry_of_done {e : Entry} (hs : StationSound s) (hz : s.zone.zstate = .stopped) (he : e ∈ s.table)
    (hd : e.state = .done) : headEntry s = some e := by
  obtain ⟨outs, x, hT, ho, hx⟩ := hs.shape_stopped hz
  have hex : e = x := eq_of_inZone hT ho he (inZone_of_at_position (.inr hd))
  subst hex
  rw [headEntry_of_table (l := [e]) hT ho]
  simp [hd]

/-- A release that starts changes nothing else at the end of its event: its offering has ended already (R33, R35). -/
theorem settle_startRelease (ha : active m = true) (hb : platformEmpty b = false) (hd : hasRole m .dispatch = false) :
    settle b (startRelease m) = startRelease m := by
  have hact : active (startRelease m) = true := by simpa [active, startRelease] using ha
  have hrole : hasRole (startRelease m) .dispatch = false := by simpa [hasRole, startRelease] using hd
  have htimer : (startRelease m).zone.offerTimer = none := by simp [startRelease, startReleasing]
  have hplat : platformEmpty (startRelease m) = false := by simp [platformEmpty, startRelease_zstate]
  rw [settle_of_occupied hact (by simp [startRelease_zstate]) (by simp [startRelease_zstate])
      (by simp [startRelease_zstate]) (by simp [hrole]),
    stopOffering_of (by simp [htimer]), windowStep_of fun _ => by rw [hb, hplat]]

theorem startRelease_zone (m : State) : (startRelease m).zone = { m.zone with
    zstate := .releasing, exitSeen := m.pins.eyeExit, offerTimer := none, releaseTimer := some m.cfg.timing.release } := by
  simp [startRelease, startReleasing]

/-- Every OFFER is withdrawn where a release starts (R33, R59). -/
theorem startRelease_offers (m : State) :
    (startRelease m).line.tx.all (fun e => e.withdrawn || (offerTrack e.frame).isNone) = true := by
  refine List.all_eq_true.2 fun e he => ?_
  have hw := withdrawFrames_tx (fun f => (offerTrack f).isSome) (m.setZone { m.zone with offerTimer := none }) e
    (by simpa [startRelease, startReleasing, endOffering] using he)
  cases hk : offerTrack e.frame
  · simp
  · simp [(hw (by simp [hk])).2]

/-- Settles O19: the release starts on the head record with nothing left to settle, and another ACCEPT only leaves the queue. -/
theorem acceptStartsTheRelease : Obligations.AcceptStartsTheRelease := by
  intro s k rest hs hset hin hrx
  have hexec := exec_acceptReceived hin hrx
  refine ⟨fun ⟨⟨e, he, hdone, hk⟩, hz, hh, hd⟩ => ?_, fun hno => ?_⟩
  · have hstart : acceptStarts k s = true :=
      acceptStarts_iff.2 ⟨hd, ⟨e, hs.headEntry_of_done hz he hdone, hdone, hk⟩, hz, by simp [holdsEmpty, hh]⟩
    rw [if_pos hstart, settle_startRelease (m := dropHead s) (active_of_inService (s := s) hin)
      (by simp [platformEmpty, hz]) hd] at hexec
    refine ⟨_, hexec, fun x => by cases x <;> simp [Block.same, startRelease, startReleasing, dropHead],
      startRelease_table _, startRelease_zone _, ?_, startRelease_offers _, ?_⟩
    · simp [startRelease, startReleasing, dropHead, hrx]
    · have hact : active (startRelease (dropHead s)) = true := by
        simpa [active, startRelease, dropHead] using active_of_inService hin
      have hhold : (startRelease (dropHead s)).zone.holds = [] := by rw [startRelease_zone]; exact hh
      have hpins : (dropHead s).pins = s.pins := rfl
      simp [drive, hact, halted, startRelease_zstate, safetyFrom, hhold, holdOf, hpins]
  · have hstart : acceptStarts k s = false := by
      refine Bool.eq_false_iff.2 fun hstart => ?_
      obtain ⟨-, ⟨e, he, hdone, hk⟩, hz, hh⟩ := acceptStarts_iff.1 hstart
      obtain hno | hno | hno := hno
      · obtain hne | hne := hno e (List.mem_of_find?_eq_some he)
        · exact hne hdone
        · exact hne hk
      · exact hno hz
      · exact hno (by simpa [holdsEmpty] using hh)
    have hsame : SameCore s (dropHead s) := ⟨rfl, rfl, rfl, rfl, rfl, rfl, rfl, rfl, rfl, rfl, rfl⟩
    rw [hexec, hstart, if_neg Bool.false_ne_true, settle_same (hsame.settled rfl hset) hsame.platformEmpty.symm,
      dropHead_eq hrx]

/-! ## RELEASED (R37) -/

theorem heardReleased_table (k : Track) (s : State) : (heardReleased k s).table = s.table.map (fun e =>
    if e.state = .expected ∧ e.record.track = k then { e with timer := some s.cfg.timing.transit } else e) := by
  simp [heardReleased]

/-- An entry whose arrival timer starts again is found by every test that found it before. -/
theorem heardReleased_find? {p : Entry → Bool} (k : Track) (s : State) (hp : ∀ e x, p { e with timer := x } = p e) :
    (heardReleased k s).table.find? p = (s.table.find? p).map (fun e =>
      if e.state = .expected ∧ e.record.track = k then { e with timer := some s.cfg.timing.transit } else e) := by
  rw [heardReleased_table, List.find?_map]
  congr 2
  funext e
  simp only [Function.comp_apply]
  split
  · exact hp e _
  · rfl

/-- A RELEASED changes a timer of the table alone: no condition is another after it. -/
theorem ticked_heardReleased (k : Track) (s : State) : Ticked s (heardReleased k (dropHead s)) := by
  constructor
  case head =>
    rw [headEntry, heardReleased_find? _ _ fun _ _ => rfl, Option.map_map]
    exact Option.map_congr fun e _ => by simp only [Function.comp_apply]; split <;> rfl
  case zone =>
    rw [zoneEntry, heardReleased_find? _ _ fun _ _ => rfl, Option.map_map]
    exact Option.map_congr fun e _ => by simp only [Function.comp_apply]; split <;> rfl
  case inState =>
    intro st
    rw [zoneEntryIn, heardReleased_find? _ _ fun _ _ => rfl, Option.isSome_map]
    rfl
  case expected =>
    rw [expectedEntry, heardReleased_find? _ _ fun _ _ => rfl, Option.isNone_map]
    rfl
  case length => simp [heardReleased_table, dropHead]
  all_goals rfl

/-- Settles O20: no condition reads an arrival timer, so RELEASED leaves nothing to settle. -/
theorem releasedRestartsTheArrivalTimer : Obligations.ReleasedRestartsTheArrivalTimer := by
  intro s k rest hset hin hrx
  have htick := ticked_heardReleased k s
  have hexec : exec .releasedReceived s = .next (settle s (heardReleased k (dropHead s))) := by
    simp [exec, execReleasedReceived, hrx, hin]
  rw [settle_same (htick.settled hset) htick.platformEmpty.symm] at hexec
  refine ⟨_, hexec, fun x => by cases x <;> simp [Block.same, heardReleased, dropHead], ?_, heardReleased_table k _⟩
  simp [heardReleased, dropHead_eq hrx]

/-! ## Timeouts (R39 to R41) -/

/-- A jam of a moving zone leaves nothing to settle. -/
theorem settle_jam (hset : Settled s) (hz : s.zone.zstate = .positioning ∨ s.zone.zstate = .releasing) (c : JamCause) :
    settle s (jam c s) = jam c s := by
  have hzne : s.zone.zstate ≠ .stopped := by obtain hz | hz := hz <;> simp [hz]
  have htimer := timer_of_not_offering hset.1 (offering_false_of_zone hzne)
  refine settle_same ⟨?_, fun _ => accepting_false_of_zone (by simp),
    hset.2.2.1.of_zone (by simp) (by simp) (by simp) fun hd => by simpa [zoneEntryIn] using hd,
    permitSound_of_zone (by simp)⟩ ?_
  · rw [OfferingFollows, offering_false_of_zone (by simp)]
    simp [jam, htimer]
  · obtain hz | hz := hz <;> simp [platformEmpty, hz]

theorem jam_line_of_starting (h : s.service = .starting) (c : JamCause) : (jam c s).line = s.line := by
  rw [jam, notify, queueFrame_of_starting (by simp [inService, h]) (by simp)]
  rfl

theorem jam_line (hin : inService s = true) (hroom : roomFor 1 s = true) (c : JamCause) : (jam c s).line = { s.line with
    tx := insertTx (freshTx (.notice (.jam ((zoneEntry s).map (fun e => e.record.track)) c))) s.line.tx } := by
  have hlen := tx_of_roomFor hroom
  rw [jam, notify, queueFrame_room (by exact hin) rfl (by simp only [State.setZone_line, Config.txCapacity]; omega)]
  rfl

/-- Settles O31: the jam's own effect, which leaves nothing to settle. -/
theorem timeoutsJamTheZone : Obligations.TimeoutsJamTheZone := by
  intro s c cause z frozen timer hc hset ha hz htimer
  have hmoving : s.zone.zstate = .positioning ∨ s.zone.zstate = .releasing := by
    obtain ⟨-, -, rfl, -⟩ | ⟨-, -, rfl, -⟩ := hc
    · exact .inl hz
    · exact .inr hz
  have hexec : exec c s = .next (if frozen = false then settle s (jam cause s) else s) := by
    obtain ⟨rfl, rfl, rfl, rfl, rfl⟩ | ⟨rfl, rfl, rfl, rfl, rfl⟩ := hc
    · simp [exec, execPositionTimerExpiry, ha, hz, htimer, halted]
    · simp [exec, execReleaseTimerExpiry, ha, hz, htimer]
  refine ⟨fun hf => by simpa [hf] using hexec, fun hf => ?_⟩
  rw [if_pos hf, settle_jam hset hmoving] at hexec
  have hserv : s.service ≠ .reset ∧ s.service ≠ .loading := by
    constructor <;> (intro h; simp [active, h] at ha)
  refine ⟨_, hexec, fun x => by cases x <;> simp [Block.same], by simp [jam], by simp [drive, jam],
    by simp [faultLamp, jam, hserv], fun hst => jam_line_of_starting hst cause, fun hin hroom => jam_line hin hroom cause⟩

end

end Sys2Proof.Machine
end

