-- ==== Proofs/EyeEdges.lean ====
section
/-! PROOF. The eye edges without an effect of their own (O25): what the end of the event makes of a changed level alone. -/

namespace Sys2Proof.Machine

section
variable {s m t : State}

/-- An eye's level is no matter of the route. -/
theorem chooseExit_eyes {p : Pins}
    (hp : p = { s.pins with eyeEntry := p.eyeEntry, eyePos := p.eyePos, eyeExit := p.eyeExit }) :
    chooseExit p = chooseExit s.pins := (evolves_eyes hp).exits

/-- What the route waits for reads no eye. -/
theorem RouteFollows.of_eyes {p : Pins} {z : ZoneCtl} (h : RouteFollows s)
    (hp : p = { s.pins with eyeEntry := p.eyeEntry, eyePos := p.eyePos, eyeExit := p.eyeExit })
    (hz : z.zstate = s.zone.zstate) (hh : z.holds = s.zone.holds) : RouteFollows ((s.setPins p).setZone z) := by
  have hd : delivering ((s.setPins p).setZone z) = delivering s := delivering_congr rfl rfl rfl hz hh
  have hl : lacksExit ((s.setPins p).setZone z) = lacksExit s := by
    simp only [lacksExit, State.setZone_pins, State.setPins_pins, chooseExit_eyes hp]
    rfl
  rw [RouteFollows, hd, hl]
  exact h

/-- A level that changes while the zone is in use completes no condition, so nothing is left to settle. -/
theorem settle_eyes_of_occupied {p : Pins} {z : ZoneCtl} (hset : Settled s) (he : s.zone.zstate ≠ .empty)
    (hi : s.zone.zstate ≠ .inbound)
    (hp : p = { s.pins with eyeEntry := p.eyeEntry, eyePos := p.eyePos, eyeExit := p.eyeExit })
    (hz : z.zstate = s.zone.zstate) (hh : z.holds = s.zone.holds) (ht : z.offerTimer = s.zone.offerTimer) :
    settle s ((s.setPins p).setZone z) = (s.setPins p).setZone z := by
  obtain ⟨ho, -, hr, -⟩ := hset
  have hoff : offering ((s.setPins p).setZone z) = offering s := offering_congr rfl rfl rfl hz hh
  refine settle_same ⟨?_, fun _ => accepting_false_of_zone (by simpa [hz] using he), hr.of_eyes hp hz hh,
    permitSound_of_zone (by simpa [hz] using hi)⟩ (by simp [platformEmpty, he, hi, hz])
  rw [OfferingFollows, hoff, ← ho]
  exact congrArg _ ht

/-- The same where the level alone changes. -/
theorem settle_setPins_of_occupied {p : Pins} (hset : Settled s) (he : s.zone.zstate ≠ .empty)
    (hi : s.zone.zstate ≠ .inbound)
    (hp : p = { s.pins with eyeEntry := p.eyeEntry, eyePos := p.eyePos, eyeExit := p.eyeExit }) :
    settle s (s.setPins p) = s.setPins p := settle_eyes_of_occupied (z := s.zone) hset he hi hp rfl rfl rfl

/-- The edges of the eyes with the level each leaves. -/
def eyeEdge (s : State) (c : Instr) (p : Pins) : Prop :=
  (c = .entryEyeBlocks ∧ p = { s.pins with eyeEntry := true }) ∨
    (c = .entryEyeClears ∧ p = { s.pins with eyeEntry := false }) ∨
    (c = .positionEyeBlocks ∧ p = { s.pins with eyePos := true }) ∨
    (c = .positionEyeClears ∧ p = { s.pins with eyePos := false }) ∨
    (c = .exitEyeBlocks ∧ p = { s.pins with eyeExit := true }) ∨
    (c = .exitEyeClears ∧ p = { s.pins with eyeExit := false })

theorem eyeEdge.pins {c : Instr} {p : Pins} (h : eyeEdge s c p) :
    p = { s.pins with eyeEntry := p.eyeEntry, eyePos := p.eyePos, eyeExit := p.eyeExit } := by
  obtain ⟨-, rfl⟩ | ⟨-, rfl⟩ | ⟨-, rfl⟩ | ⟨-, rfl⟩ | ⟨-, rfl⟩ | ⟨-, rfl⟩ := h <;> rfl

/-- An edge on which the zone does not act is the level and what the end of the event makes of it (Table 2-2). -/
theorem eyeEdge.exec {c : Instr} {p : Pins} (h : eyeEdge s c p) (hz : active s = false ∨
    (c ≠ .entryEyeBlocks ∧ (s.zone.zstate = .empty ∨ s.zone.zstate = .inbound))) :
    exec c s = .next (settle s (s.setPins p)) := by
  have hact : (active s && decide (s.zone.zstate = .positioning)) = false ∧
      (active s && decide (s.zone.zstate = .releasing)) = false := by
    obtain ha | ⟨-, hz | hz⟩ := hz <;> simp [*]
  obtain ⟨rfl, rfl⟩ | ⟨rfl, rfl⟩ | ⟨rfl, rfl⟩ | ⟨rfl, rfl⟩ | ⟨rfl, rfl⟩ | ⟨rfl, rfl⟩ := h
  · obtain ha | ⟨hne, -⟩ := hz
    · simp [Machine.exec, execEntryEyeBlocks, ha]
    · exact absurd rfl hne
  · rfl
  · simp [Machine.exec, execPositionEyeBlocks, hact.1]
  · rfl
  · simp [Machine.exec, execExitEyeBlocks, hact.2]
  · simp [Machine.exec, execExitEyeClears, hact.2]

/-! ## The vacant zone -/

/-- Away from CHECK a level that lets no OFFER in changes nothing but itself. -/
theorem settle_setPins_of_vacant {p : Pins} (hset : Settled s) (ha : active s = true) (hc : hasRole s .check = false)
    (hp : p = { s.pins with eyeEntry := p.eyeEntry, eyePos := p.eyePos, eyeExit := p.eyeExit })
    (hslot : s.slot = none ∨ accepting (s.setPins p) = false) : settle s (s.setPins p) = s.setPins p := by
  obtain ⟨ho, -, hr, -⟩ := hset
  have hc' : hasRole (s.setPins p) .check = false := hc
  have hfollows : RouteFollows (s.setPins p) := hr.of_eyes (z := s.zone) hp rfl rfl
  rw [settle_of_offeringFollows (m := s.setPins p) ha ho (fun _ => hfollows) (fun hw => by simp [works, hc'] at hw),
    permitStep_of_role hc', slotStep_of fun hs => .inl (hslot.resolve_left fun hn => ?_)]
  simp [hn] at hs

/-- At CHECK such a level may turn the permit on, and a platform that it makes empty, or no longer so, empties the window. -/
theorem settle_setPins_of_check {p : Pins} (hset : Settled s) (hs : StationSound s) (ha : active s = true)
    (hc : hasRole s .check = true) (hz : s.zone.zstate = .empty ∨ s.zone.zstate = .inbound) :
    settle s (s.setPins p) = ((s.setPins p).setZone
      (if accepting (s.setPins p) = true then { s.zone with zstate := .inbound } else s.zone)).setWeigh
      (if eyesClear p = eyesClear s.pins then s.weigh else { s.weigh with window := [] }) := by
  obtain ⟨ho, -, -, hp⟩ := hset
  have hm : active (s.setPins p) = true := ha
  have hc' : hasRole (s.setPins p) .check = true := hc
  have hvacant : s.zone.zstate ≠ .stopped := by obtain hz | hz := hz <;> simp [hz]
  have htimer : (s.setPins p).zone.offerTimer = none := timer_of_not_offering ho (offering_false_of_zone hvacant)
  have hpermit : permitStep (s.setPins p) = (s.setPins p).setZone
      (if accepting (s.setPins p) = true then { s.zone with zstate := .inbound } else s.zone) := by
    split
    · rename_i hacc
      have hz' : (s.setPins p).zone.zstate ≠ .inbound := by rw [accepting_zone hacc]; simp
      rw [permitStep, if_pos hc', if_neg hz', if_pos hacc]
      rfl
    · rename_i hacc
      exact permitStep_of hm (fun _ hi => hp ((works_iff _).2 ⟨ha, hc⟩) hi) fun _ => by simpa using hacc
  rw [settle_of_not_offering hm (offering_false_of_zone hvacant) fun hd => by simp [not_dispatch_of_check hc'] at hd,
    stopOffering_of fun hx => by rw [htimer] at hx; simp at hx, slotStep_of_check (by rw [hasRole_congr (s := s) (by simp), hc])]
  have hrecord : zoneEntry (s.setPins p) = none := hs.zoneEntry_of_vacant hz
  have hplat : platformEmpty s = eyesClear s.pins := by
    obtain hz | hz := hz <;> simp [platformEmpty, hz, show zoneEntry s = none from hrecord]
  have hplat' : platformEmpty (permitStep (s.setPins p)) = eyesClear p := by
    rw [platformEmpty_permitStep]
    obtain hz | hz := hz <;> simp [platformEmpty, hz, hrecord]
  have hw : works (permitStep (s.setPins p)) .check = true := by
    rw [works_congr (s := s) (by simp) (by simp)]
    exact (works_iff _).2 ⟨ha, hc⟩
  rw [← hpermit]
  by_cases heq : eyesClear p = eyesClear s.pins
  · rw [if_pos heq, windowStep_of fun _ => by rw [hplat, hplat', heq]]
    exact congrArg (permitStep (s.setPins p)).setWeigh (permitStep_weigh (s.setPins p))
  · rw [if_neg heq, windowStep, if_pos (by simpa [hw, hplat, hplat'] using Ne.symm heq), emptyWindow, permitStep_weigh]
    rfl

/-- Settles O25: each edge's level, and what the end of its event makes of it in a zone in use and in a vacant one. -/
theorem eyeEdgesWithoutAnEffect : Obligations.EyeEdgesWithoutAnEffect := by
  intro s c p hset
  refine ⟨fun he hi => ?_, fun hedge => ?_⟩
  · have hquiet := fun {p : Pins} hp => settle_setPins_of_occupied (p := p) hset he hi hp
    refine ⟨?_, ?_, ?_, fun hz => ?_, fun hz => ⟨?_, ?_⟩, fun hz ha => ?_, fun hz hx => ?_⟩
    · simp [exec, execEntryEyeBlocks, arrivalZone, he, hi, hquiet]
    · simp [exec, execEntryEyeClears, hquiet]
    · simp [exec, execPositionEyeClears, hquiet]
    · simp [exec, execPositionEyeBlocks, hz, hquiet]
    · simp [exec, execExitEyeBlocks, hz, hquiet]
    · simp [exec, execExitEyeClears, hz, hquiet]
    · have hsettle := settle_eyes_of_occupied (p := { s.pins with eyeExit := true }) (z := { s.zone with exitSeen := true })
        hset he hi rfl rfl rfl rfl
      change Host.Outcome.next (settle s (if _ then _ else _)) = _
      rw [if_pos (by simp [ha, hz])]
      exact congrArg _ hsettle
    · simp [exec, execExitEyeClears, hx, hquiet]
  · have hedge : eyeEdge s c p := hedge
    refine ⟨fun ha => ?_, fun ha hz hne => ?_⟩
    · rw [hedge.exec (.inl ha), settle_inactive (by exact ha)]
    · rw [hedge.exec (.inr ⟨hne, hz⟩)]
      exact ⟨fun hc hslot => by rw [settle_setPins_of_vacant hset ha hc hedge.pins hslot],
        fun hc hs => by rw [settle_setPins_of_check hset hs ha hc hz]⟩

end

end Sys2Proof.Machine
end

