-- ==== Proofs/HoldFrames.lean ====
section
/-! PROOF. HOLD and RESUME (O13): the hold set, what the end of an event does to a station held and to a zone at work, and the
drive. -/

namespace Sys2Proof.Machine

section
variable {b s m t : State} {n k : Nat} {rest : List RxFrame}

/-! ## The hold set (R47) -/

theorem holdOf_addHold (c : HoldCause) (hs : List Hold) :
    holdOf (addHold n c hs) k = if n = k then some c else holdOf hs k := by
  split
  · rename_i h
    subst h
    exact holdOf_setHold_self n (some c) hs
  · rename_i h
    exact holdOf_setHold_other (Ne.symm h) (some c) hs

theorem holdOf_removeHold (hs : List Hold) : holdOf (removeHold n hs) k = if n = k then none else holdOf hs k := by
  split
  · rename_i h
    subst h
    exact removeHold_self n hs
  · rename_i h
    exact removeHold_other (Ne.symm h) hs

theorem ne_nil_of_holdOf {hs : List Hold} {c : HoldCause} (h : holdOf hs n = some c) : hs ≠ [] := by
  rintro rfl
  simp [holdOf] at h

/-! ## A station held (R31, R33, R49, R169) -/

theorem accepting_false_of_holds (h : s.zone.holds ≠ []) : accepting s = false := by
  simp [accepting, holdsEmpty, h]

theorem offering_false_of_holds (h : s.zone.holds ≠ []) : offering s = false := by
  simp [offering, holdsEmpty, h]

theorem delivering_false_of_holds (h : s.zone.holds ≠ []) : delivering s = false := by
  simp [delivering, holdsEmpty, h]

/-- The zone that a hold leaves: the repeat timer stands, and the permit of CHECK is off (R32, R33). -/
def heldZone (s : State) : ZoneCtl := { s.zone with
  zstate := if hasRole s .check = true ∧ s.zone.zstate = .inbound then .empty else s.zone.zstate, offerTimer := none }

theorem stopOffering_zone_of_held (h : m.zone.holds ≠ []) :
    (stopOffering m).zone = { m.zone with offerTimer := none } := by
  obtain ⟨-, -, hm⟩ | ⟨ht | ho, hm⟩ := stopOffering_cases m
  · rw [hm, endOffering_zone]
  · rw [hm, ← ht]
  · simp [offering_false_of_holds h] at ho

theorem permitStep_of_held (h : m.zone.holds ≠ []) : permitStep m = m.setZone { m.zone with
    zstate := if hasRole m .check = true ∧ m.zone.zstate = .inbound then .empty else m.zone.zstate } := by
  have hacc := accepting_false_of_holds h
  have hcease : permitCeases m = true := by simp [permitCeases, holdsEmpty, h]
  by_cases hc : hasRole m .check = true
  · by_cases hz : m.zone.zstate = .inbound
    · simp [permitStep, hc, hz, hcease, setZoneState]
    · simp only [permitStep, hc, hz, hacc, if_true, if_false, Bool.false_eq_true, and_false]
      rfl
  · simp only [permitStep, hc, if_false, Bool.false_eq_true, false_and]
    rfl

/-- Without a delivery to begin the route evaluation is about the lane wait alone (R171). -/
theorem routeStep_of_not_delivering (h : delivering m = false) : ∃ r, routeStep m = m.setRoute r := by
  obtain hm | ⟨-, hm⟩ | ⟨_, -, hd, -⟩ := routeStep_cases m
  · exact ⟨_, hm⟩
  · exact ⟨_, hm⟩
  · simp [h] at hd

/-- Under a hold the end of an event ends offering and the permit, may drop a lane wait, and nothing more (R49). -/
theorem settle_of_held (ha : active m = true) (h : m.zone.holds ≠ []) :
    onlyChanges [.line, .zone, .route, .weigh] m (settle b m) ∧ (settle b m).line = (stopOffering m).line ∧
      (settle b m).zone = heldZone m := by
  have hzone := stopOffering_zone_of_held h
  have hperm := permitStep_of_held (m := stopOffering m) (by simpa using h)
  obtain ⟨r, hr⟩ := routeStep_of_not_delivering (m := permitStep (stopOffering m))
    (delivering_false_of_holds (by simpa [hperm] using h))
  have hslot : slotStep ((permitStep (stopOffering m)).setRoute r) = (permitStep (stopOffering m)).setRoute r :=
    slotStep_of fun _ => .inl (accepting_false_of_holds (by simpa [hperm] using h))
  have hoff : offerStep ((permitStep (stopOffering m)).setRoute r) = (permitStep (stopOffering m)).setRoute r :=
    offerStep_of fun ho => by
      rw [offering_false_of_holds (s := (permitStep (stopOffering m)).setRoute r) (by simpa [hperm] using h)] at ho
      simp at ho
  have heq : settle b m = windowStep b ((permitStep (stopOffering m)).setRoute r) := by
    rw [settle_active ha, hr, hslot, hoff]
  have hrole : hasRole (stopOffering m) .check = hasRole m .check := hasRole_congr (by simp) _
  rw [heq]
  refine ⟨fun x => by cases x <;> simp [Block.same], by simp, ?_⟩
  simp [hperm, hzone, heldZone, hrole]

/-! ## A zone at work -/

/-- A zone that waits for its pallet away from CHECK keeps its state through the end of an event (R31, R33, R169). -/
theorem settle_zstate_of_inbound (hc : hasRole m .check = false) (hz : m.zone.zstate = .inbound) :
    (settle b m).zone.zstate = .inbound := by
  cases ha : active m
  · rwa [settle_inactive ha]
  have hrole : hasRole (stopOffering m) .check = false := by rw [hasRole_congr (s := m) (by simp), hc]
  obtain ⟨r, hr⟩ := routeStep_of_not_delivering (m := stopOffering m) (delivering_false_of_zone (by simp [hz]))
  rw [settle_active ha, permitStep_of_role hrole, hr, slotStep_of fun _ => .inl (accepting_false_of_zone (by simp [hz]))]
  simpa using hz

theorem settle_zstate_of_moving (hz : m.zone.zstate = .positioning ∨ m.zone.zstate = .releasing) :
    (settle b m).zone.zstate = m.zone.zstate := by
  cases ha : active m
  · rw [settle_inactive ha]
  · obtain ⟨-, -, ⟨o, h⟩, -⟩ := settle_moving (b := b) ha hz
    rw [h]

/-! ## The drive (R27) -/

theorem not_safetyFrom (s : State) (n : Nat) :
    (!safetyFrom s n) = (n = 0 || holdOf s.zone.holds n != some .safety) := by
  by_cases h : n = 0 <;> simp [safetyFrom, h, bne, Bool.beq_eq_decide_eq]

theorem drive_of_positioning (ha : active t = true) (hz : t.zone.zstate = .positioning) : drive t = !t.pins.safe := by
  simp [drive, ha, hz, halted]

theorem drive_of_inbound (ha : active t = true) (hz : t.zone.zstate = .inbound) :
    drive t = (!t.pins.safe && (upstream t = 0 || holdOf t.zone.holds (upstream t) != some .safety)) := by
  rw [drive, ha, hz, ← not_safetyFrom]
  rfl

theorem drive_of_releasing (ha : active t = true) (hz : t.zone.zstate = .releasing) :
    drive t = (!t.pins.safe && (downstream t = 0 || holdOf t.zone.holds (downstream t) != some .safety)) := by
  rw [drive, ha, hz, ← not_safetyFrom]
  rfl

theorem drive_of_still (hz : t.zone.zstate = .empty ∨ t.zone.zstate = .stopped ∨ t.zone.zstate = .jammed) :
    drive t = false := by
  obtain hz | hz | hz := hz <;> simp [drive, hz]

/-! ## HOLD and RESUME (R47, R49) -/

/-- What a frame that changes the hold set leaves before the end of its event. -/
def reheld (hs : List Hold) (s : State) : State := setHolds hs (dropHead s)

theorem onlyChanges_reheld (hs : List Hold) (s : State) : onlyChanges [.line, .zone] s (reheld hs s) :=
  fun x => by cases x <;> simp [reheld, Block.same, dropHead]

theorem onlyChanges_settle_reheld (hs : List Hold) (s : State) : onlyChanges settleBlocks s (settle s (reheld hs s)) :=
  (onlyChanges_reheld hs s).trans (onlyChanges_settle (bs := []) fun x => .inr (by cases x <;> rfl)) (by decide)
    (by decide)

theorem exec_holdReceived {c : HoldCause} (hin : inService s = true) (hrx : s.line.rx = .hold n c :: rest) :
    exec .holdReceived s = .next (settle s (reheld (addHold n c s.zone.holds) s)) := by
  simp [exec, execHoldReceived, hrx, hin, reheld]

theorem exec_resumeReceived (hin : inService s = true) (hrx : s.line.rx = .resume n :: rest) :
    exec .resumeReceived s = .next (settle s (reheld (removeHold n s.zone.holds) s)) := by
  simp [exec, execResumeReceived, hrx, hin, reheld]

/-- Where offering ends with no frame in an attempt, no OFFER stays queued (R33, R59). -/
theorem no_offer_after_endOffering (h : s.line.tx.all (fun e => !e.inAttempt) = true) :
    (endOffering s).line.tx.any (fun e => (offerTrack e.frame).isSome) = false := by
  have hall : ∀ x ∈ (endOffering s).line.tx, (!x.inAttempt) = true :=
    all_withdrawFrames (s := s.setZone _) (fun x hx => hx) (List.all_eq_true.1 h)
  refine List.any_eq_false.2 fun x hx hoffer => ?_
  have hatt := (withdrawFrames_tx (fun f => (offerTrack f).isSome) (s.setZone { s.zone with offerTimer := none }) x hx hoffer).1
  have hfree := hall x hx
  simp [hatt] at hfree

theorem addHold_safety (c : HoldCause) (hs : List Hold) : (holdOf (addHold n c hs) k != some .safety) =
    if n = k then c != .safety else holdOf hs k != some .safety := by
  rw [holdOf_addHold]
  split
  · cases c <;> rfl
  · rfl

theorem removeHold_safety (hs : List Hold) : (holdOf (removeHold n hs) k != some .safety) =
    (decide (n = k) || holdOf hs k != some .safety) := by
  rw [holdOf_removeHold]
  split
  · rename_i h
    simp [h]
  · rename_i h
    simp [h]

/-- The drive under a HOLD: a neighbour's SAFETY stops it, and no other hold does (R27, R50). -/
theorem drive_of_heldZone {c : HoldCause} (hin : inService t = true) (hpins : t.pins = s.pins) (hcfg : t.cfg = s.cfg)
    (hz : t.zone = heldZone (reheld (addHold n c s.zone.holds) s)) :
    drive t = (!s.pins.safe && (match s.zone.zstate with
      | .positioning => true
      | .inbound => !hasRole s .check && (upstream s = 0 ||
          (if n = upstream s then c != .safety else holdOf s.zone.holds (upstream s) != some .safety))
      | .releasing => downstream s = 0 ||
          (if n = downstream s then c != .safety else holdOf s.zone.holds (downstream s) != some .safety)
      | .empty => false
      | .stopped => false
      | .jammed => false)) := by
  have ha := active_of_inService hin
  have hholds : t.zone.holds = addHold n c s.zone.holds := by rw [hz]; rfl
  have hzst : t.zone.zstate = if hasRole s .check = true ∧ s.zone.zstate = .inbound then .empty else s.zone.zstate := by
    rw [hz]; rfl
  cases hzs : s.zone.zstate <;> simp only [hzs] at hzst ⊢
  case positioning => rw [drive_of_positioning ha (by simpa using hzst), hpins, Bool.and_true]
  case inbound =>
    cases hc : hasRole s .check
    · rw [drive_of_inbound ha (by simpa [hc] using hzst), hpins, upstream_congr hcfg, hholds, addHold_safety]
      rfl
    · rw [drive_of_still (.inl (by simpa [hc] using hzst))]
      simp
  case releasing =>
    rw [drive_of_releasing ha (by simpa using hzst), hpins, downstream_congr hcfg, hholds, addHold_safety]
  case empty => rw [drive_of_still (.inl (by simpa using hzst)), Bool.and_false]
  case stopped => rw [drive_of_still (.inr (.inl (by simpa using hzst))), Bool.and_false]
  case jammed => rw [drive_of_still (.inr (.inr (by simpa using hzst))), Bool.and_false]

/-- A HOLD in full: `settle_of_held` gives the end of its event. -/
theorem settle_addHold (c : HoldCause) (ha : active s = true) (ht : t = settle s (reheld (addHold n c s.zone.holds) s)) :
    onlyChanges [.line, .zone, .route, .weigh] s t ∧ t.line = (stopOffering (reheld (addHold n c s.zone.holds) s)).line ∧
      t.zone = heldZone (reheld (addHold n c s.zone.holds) s) := by
  subst ht
  obtain ⟨honly, hline, hzone⟩ := settle_of_held (b := s) (m := reheld (addHold n c s.zone.holds) s) ha
    (ne_nil_of_holdOf (holdOf_setHold_self n (some c) s.zone.holds))
  exact ⟨(onlyChanges_reheld _ s).trans honly (by decide) (by decide), hline, hzone⟩

/-- No OFFER outlives a HOLD, but in the attempt under way (R33, R49, R59). -/
theorem no_offer_under_hold {hs : List Hold} (hh : hs ≠ []) (hall : s.line.tx.all (fun e => !e.inAttempt) = true)
    (htimer : s.zone.offerTimer.isSome = true) :
    (stopOffering (reheld hs s)).line.tx.any (fun e => (offerTrack e.frame).isSome) = false := by
  have htimer' : (reheld hs s).zone.offerTimer.isSome = true := htimer
  obtain ⟨-, -, hm⟩ | ⟨hno | hno, -⟩ := stopOffering_cases (reheld hs s)
  · rw [hm]
    exact no_offer_after_endOffering hall
  · simp [hno] at htimer'
  · simp [offering_false_of_holds (s := reheld hs s) hh] at hno

/-- Settles O13: under the HOLD the event ends as `settle_of_held` says; a RESUME leaves a zone at work in its state. -/
theorem holdFramesChangeTheHoldSet : Obligations.HoldFramesChangeTheHoldSet := by
  intro s n cause rest hin
  have hact := active_of_inService hin
  refine ⟨fun hrx => ⟨_, exec_holdReceived hin hrx, ?_⟩, fun hrx => ⟨_, exec_resumeReceived hin hrx, ?_⟩⟩
  · generalize ht : settle s (reheld (addHold n cause s.zone.holds) s) = t
    obtain ⟨honly, hline, hzone⟩ := settle_addHold cause hact ht.symm
    have hself := holdOf_setHold_self n (some cause) s.zone.holds
    have hcfg : t.cfg = s.cfg := by simpa [Block.same] using honly .cfg
    have hpins : t.pins = s.pins := by simpa [Block.same] using honly .pins
    have hserv : t.service = s.service := by simpa [Block.same] using honly .service
    have hzst : t.zone.zstate = if hasRole s .check = true ∧ s.zone.zstate = .inbound then .empty else s.zone.zstate := by
      rw [hzone]; rfl
    have hperm : infeedPermit t = false := by
      rw [infeedPermit, hasRole_congr hcfg, hzst]
      by_cases hc : hasRole s .check = true ∧ s.zone.zstate = .inbound
      · simp [hc]
      · simpa [hc] using fun _ hc' hi => hc ⟨hc', hi⟩
    have hrest : t.line.rx = rest := by simp [hline, reheld, dropHead, hrx]
    have hoffer := no_offer_under_hold (s := s) (ne_nil_of_holdOf hself)
    refine ⟨honly, hrest, by rw [hzone]; exact hself, fun k _ hk => by rw [hzone]; exact holdOf_setHold_other hk (some cause) _,
      by rw [hzone]; rfl, hperm, fun hi => by simp [hzst, hi], by rw [hzone]; rfl, hzst,
      drive_of_heldZone (by rw [inService_congr hserv, hin]) hpins hcfg hzone, by rw [hzone]; rfl, by rw [hzone]; rfl,
      by rw [hzone]; rfl, fun hall htimer => by rw [hline]; exact hoffer hall htimer⟩
  · have honly := onlyChanges_settle_reheld (removeHold n s.zone.holds) s
    have hmoving := settle_zstate_of_moving (b := s) (m := reheld (removeHold n s.zone.holds) s)
    have hinbound := settle_zstate_of_inbound (b := s) (m := reheld (removeHold n s.zone.holds) s)
    have hholds := (settle_zone_kept s (reheld (removeHold n s.zone.holds) s)).1
    have hrest : (settle s (reheld (removeHold n s.zone.holds) s)).line.rx = rest := by simp [reheld, dropHead, hrx]
    generalize settle s (reheld (removeHold n s.zone.holds) s) = t at *
    have hholds : t.zone.holds = removeHold n s.zone.holds := hholds
    have hcfg : t.cfg = s.cfg := by simpa [Block.same, settleBlocks] using honly .cfg
    have hpins : t.pins = s.pins := by simpa [Block.same, settleBlocks] using honly .pins
    have ha : active t = true := by
      rw [active_congr (s := s) (by simpa [Block.same, settleBlocks] using honly .service), hact]
    refine ⟨honly, hrest, by rw [hholds]; exact removeHold_self n _, fun k _ hk => by rw [hholds]; exact removeHold_other hk _,
      fun hz => ?_, fun hz hc => ?_, fun hz => ?_⟩
    · have hz' : t.zone.zstate = .positioning := (hmoving (.inl hz)).trans hz
      exact ⟨hz', by rw [drive_of_positioning ha hz', hpins]⟩
    · have hz' : t.zone.zstate = .inbound := hinbound hc hz
      exact ⟨hz', by rw [drive_of_inbound ha hz', hpins, upstream_congr hcfg, hholds, removeHold_safety, Bool.or_assoc]⟩
    · have hz' : t.zone.zstate = .releasing := (hmoving (.inr hz)).trans hz
      exact ⟨hz', by rw [drive_of_releasing ha hz', hpins, downstream_congr hcfg, hholds, removeHold_safety, Bool.or_assoc]⟩

end

end Sys2Proof.Machine
end

