-- ==== Proofs/NoReleaseUnderHold.lean ====
section
/-! PROOF. No release begins under a hold (O16): what every command that changes the zone leaves of its state. -/

namespace Sys2Proof.Machine

section
variable {b s m t : State} {n : Nat}

/-! ## No release begins under a hold (R35, R49, R169) -/

/-- `m` has no zone that began to be RELEASING under a hold since `s`. -/
def BeginsNoRelease (s m : State) : Prop :=
  m.zone.zstate = .releasing → m.zone.holds ≠ [] → s.zone.zstate = .releasing

namespace BeginsNoRelease

theorem of_zstate (h : m.zone.zstate = s.zone.zstate) : BeginsNoRelease s m := fun hm _ => h ▸ hm

theorem of_ne (h : m.zone.zstate ≠ .releasing) : BeginsNoRelease s m := fun hm => absurd hm h

/-- The end of an event begins a delivery under no hold (R169). -/
theorem settle (h : BeginsNoRelease s m) : BeginsNoRelease s (settle b m) := by
  intro hz hh
  cases ha : active m
  · rw [settle_inactive ha] at hz hh
    exact h hz hh
  · rw [(settle_zone_kept b m).1] at hh
    have hzone := (settle_of_held (b := b) ha hh).2.2
    rw [hzone] at hz
    refine h ?_ hh
    by_cases hi : hasRole m .check = true ∧ m.zone.zstate = .inbound <;> simp [heldZone, hi] at hz
    exact hz

theorem of_plain (h : Plain s t) : BeginsNoRelease s t := by
  cases h with
  | still hsame => exact of_zstate hsame.zstate
  | settled hev => exact settle (of_zstate hev.zstate)

end BeginsNoRelease

/-! What each operation that changes the zone leaves: none but ACCEPT's and the acknowledge's makes it RELEASING. -/

theorem releasing_of_deriveFromEyes (h : (deriveFromEyes s).zone.zstate = .releasing) : s.zone.zstate = .releasing := by
  unfold deriveFromEyes at h
  split at h
  · simp at h
  · split at h
    · simp [startPositioning] at h
    · exact h

theorem startTask_zstate (s : State) : (startTask s).zone.zstate = s.zone.zstate := by
  unfold startTask
  split <;> simp

theorem releasing_of_enterStarting {cfg : Loaded} (h : (enterStarting cfg s).zone.zstate = .releasing) :
    s.zone.zstate = .releasing := by
  rw [enterStarting, startTask_zstate] at h
  exact releasing_of_deriveFromEyes (s := (s.setCfg cfg).setService .starting) h

theorem announceOwnHold_zstate (s : State) : (announceOwnHold s).zone.zstate = s.zone.zstate := by
  unfold announceOwnHold
  split
  · split <;> simp [addOwnHold]
  · rfl

theorem clearStation_not_releasing (s : State) : (clearStation s).zone.zstate ≠ .releasing := by
  intro h
  rw [clearStation, announceOwnHold_zstate] at h
  have hz := releasing_of_deriveFromEyes h
  simp [clearZone, ZoneCtl.atReset] at hz

theorem releasing_of_takeOffer {r : TravelRecord} (h : (takeOffer r s).zone.zstate = .releasing) :
    s.zone.zstate = .releasing := by
  unfold takeOffer at h
  split at h
  · split at h
    · split at h <;> simpa using h
    · simpa using h
  · split at h
    · exact h
    · split at h
      · simp at h
      · exact h

theorem releasing_of_helloFromUpstream (h : (helloFromUpstream s).zone.zstate = .releasing) : s.zone.zstate = .releasing := by
  unfold helloFromUpstream at h
  split at h
  · simp at h
  · exact h

theorem offerNow_zstate (s : State) : (offerNow s).zone.zstate = s.zone.zstate := by
  unfold offerNow
  split <;> simp

theorem helloFromDownstream_not_releasing (s : State) : (helloFromDownstream s).zone.zstate ≠ .releasing := by
  have hoffer : ∀ u : State, (offerAtOnce u).zone.zstate = u.zone.zstate := fun u => by
    unfold offerAtOnce
    split
    · exact offerNow_zstate u
    · rfl
  rw [helloFromDownstream, hoffer]
  split
  · unfold stopOrJam
    split <;> simp
  · simpa [returnToDone] using ‹_›

theorem releasing_of_heardHello (h : (heardHello n s).zone.zstate = .releasing) : s.zone.zstate = .releasing := by
  unfold heardHello at h
  simp only at h
  split at h
  · exact absurd h (helloFromDownstream_not_releasing _)
  · split at h
    · exact releasing_of_helloFromUpstream (s := setHolds (removeHold n s.zone.holds) s) h
    · exact h

theorem completeRelease_zstate (s : State) : (completeRelease s).zone.zstate = .empty := by
  unfold completeRelease
  split <;> simp [leaveReleasing]

theorem completeDelivery_zstate (s : State) : (completeDelivery s).zone.zstate = .empty := by
  unfold completeDelivery
  split <;> simp [leaveReleasing]

theorem positionComplete_zstate (s : State) : (positionComplete s).zone.zstate = .stopped := by
  unfold positionComplete
  simp only
  split <;> simp

theorem reportLaneWait_zone (s : State) : (reportLaneWait s).zone = s.zone := by
  unfold reportLaneWait
  split <;> simp

theorem acceptReceived_beginsNoRelease (k : Track) :
    BeginsNoRelease s (if acceptStarts k s = true then startRelease s else s) := by
  split
  · rename_i hstart
    exact fun _ hh => absurd (by simpa [holdsEmpty, startRelease_zone] using (acceptStarts_iff.1 hstart).2.2.2) hh
  · exact .of_zstate rfl

/-- Every command but the acknowledge of a jam begins a release without a hold, or none. -/
theorem beginsNoRelease_exec {c : Instr} (h : exec c s = .next t) (hc : s.zone.zstate = .jammed → c ≠ .ackPress) :
    BeginsNoRelease s t := by
  cases c with
  | reset => obtain rfl := Host.Outcome.next.inj h; exact .of_ne (by simp [State.reset, ZoneCtl.atReset])
  | resetRelease => obtain rfl := Host.Outcome.next.inj h; exact .of_zstate (by split <;> rfl)
  | imageReadComplete image =>
    obtain rfl := Host.Outcome.next.inj h
    split
    · split
      · exact .settle fun hz _ => releasing_of_enterStarting hz
      · exact .of_zstate rfl
    · exact .of_zstate rfl
  | clearReceived =>
    obtain rfl := Host.Outcome.next.inj h
    split
    · split
      · exact .settle (.of_ne (clearStation_not_releasing _))
      · exact .of_zstate rfl
    · exact .of_zstate rfl
  | offerReceived =>
    obtain rfl := Host.Outcome.next.inj h
    split
    · split
      · exact .settle fun hz _ => releasing_of_takeOffer (s := dropHead s) hz
      · exact .of_zstate rfl
    · exact .of_zstate rfl
  | acceptReceived =>
    obtain rfl := Host.Outcome.next.inj h
    split
    · split
      · exact .settle (acceptReceived_beginsNoRelease (s := dropHead s) _)
      · exact .of_zstate rfl
    · exact .of_zstate rfl
  | helloReceived =>
    obtain rfl := Host.Outcome.next.inj h
    split
    · split
      · exact .settle fun hz _ => releasing_of_heardHello (s := dropHead s) hz
      · exact .of_zstate rfl
    · exact .of_zstate rfl
  | entryEyeBlocks =>
    obtain rfl := Host.Outcome.next.inj h
    refine .settle ?_
    split
    · exact .of_ne (by simp [arrive, startPositioning])
    · exact .of_zstate rfl
  | positionEyeBlocks =>
    obtain rfl := Host.Outcome.next.inj h
    refine .settle ?_
    split
    · exact .of_ne (by simp [positionComplete_zstate])
    · exact .of_zstate rfl
  | exitEyeClears =>
    obtain rfl := Host.Outcome.next.inj h
    refine .settle ?_
    split
    · split
      · exact .of_ne (by simp [completeDelivery_zstate])
      · exact .of_ne (by simp [completeRelease_zstate])
    · exact .of_zstate rfl
  | ackPress =>
    obtain rfl := Host.Outcome.next.inj h
    rw [if_neg fun hj => hc (of_decide_eq_true (Bool.and_eq_true_iff.1 hj).2) rfl]
    exact .of_zstate rfl
  | offerRepeatExpiry =>
    obtain rfl := Host.Outcome.next.inj h
    split
    · exact .settle (.of_zstate (offerNow_zstate s))
    · exact .of_zstate rfl
  | arrivalTimerExpiry =>
    obtain rfl := Host.Outcome.next.inj h
    split
    · split
      · exact .settle (.of_ne (by simp [loseExpected_zone]))
      · exact .of_zstate rfl
    · exact .of_zstate rfl
  | positionTimerExpiry =>
    obtain rfl := Host.Outcome.next.inj h
    split
    · exact .settle (.of_ne (by simp))
    · exact .of_zstate rfl
  | releaseTimerExpiry =>
    obtain rfl := Host.Outcome.next.inj h
    split
    · exact .settle (.of_ne (by simp))
    · exact .of_zstate rfl
  | takenTimerExpiry k =>
    obtain rfl := Host.Outcome.next.inj h
    split
    · split
      · exact .settle (.of_zstate (by simp [removeTrack]))
      · exact .of_zstate rfl
    · exact .of_zstate rfl
  | laneInputChange input level =>
    obtain rfl := Host.Outcome.next.inj h
    refine .settle ?_
    split
    · exact .of_zstate (by simp)
    · exact .of_zstate rfl
  | laneWaitExpiry =>
    obtain rfl := Host.Outcome.next.inj h
    split
    · exact .settle (.of_zstate (by simp [reportLaneWait_zone]))
    · exact .of_zstate rfl
  | frameReceived bytes => exact .of_plain (plain_frameReceived h)
  | holdReceived => exact .of_plain (plain_holdReceived h)
  | resumeReceived => exact .of_plain (plain_resumeReceived h)
  | releasedReceived => exact .of_plain (plain_releasedReceived h)
  | takenReceived => exact .of_plain (plain_takenReceived h)
  | lostReceived => exact .of_plain (plain_lostReceived h)
  | manifestReceived => exact .of_plain (plain_manifestReceived h)
  | queryReceived => exact .of_plain (plain_queryReceived h)
  | lineIdle => exact .of_plain (plain_lineIdle h)
  | attemptCountedSent => exact .of_plain (plain_attemptCountedSent h)
  | lostArbitration => exact .of_plain (plain_attemptFailed (.inl h))
  | attemptErrored => exact .of_plain (plain_attemptFailed (.inr h))
  | entryEyeClears => exact .of_plain (plain_entryEyeClears h)
  | positionEyeClears => exact .of_plain (plain_positionEyeClears h)
  | exitEyeBlocks => exact .of_plain (plain_exitEyeBlocks h)
  | safeAsserted => exact .of_plain (plain_safeAsserted h)
  | safeReleased => exact .of_plain (plain_safeReleased h)
  | holdSwChange on => exact .of_plain (plain_holdSwChange h)
  | codeReaderLine chars => exact .of_plain (plain_codeReaderLine h)
  | tagWaitExpiry => exact .of_plain (plain_tagWaitExpiry h)
  | manifestWaitExpiry => exact .of_plain (plain_manifestWaitExpiry h)
  | scanStart => exact .of_plain (plain_scanStart h)
  | scanComplete raw => exact .of_plain (plain_scanComplete h)
  | startZeroTimerExpiry => exact .of_plain (plain_startZeroTimerExpiry h)
  | zeroDueExpiry => exact .of_plain (plain_zeroDueExpiry h)
  | settleTimerExpiry => exact .of_plain (plain_settleTimerExpiry h)
  | encoderStep beams => exact .of_plain (plain_encoderStep h)
  | wrReadyRises => exact .of_plain (plain_wrReadyRises h)
  | wrReadyFalls => exact .of_plain (plain_wrReadyFalls h)
  | wrRunRises => exact .of_plain (plain_wrRunRises h)
  | wrDoneRises => exact .of_plain (plain_wrDoneRises h)
  | wrFaultRises => exact .of_plain (plain_wrFaultRises h)
  | wrFaultFalls => exact .of_plain (plain_wrFaultFalls h)
  | wrFilmRises => exact .of_plain (plain_wrFilmRises h)
  | startTimerExpiry => exact .of_plain (plain_startTimerExpiry h)
  | wrapTimerExpiry => exact .of_plain (plain_wrapTimerExpiry h)
  | wrAbortPulseEnd film => exact .of_plain (plain_wrAbortPulseEnd h)
  | historyEntryLeavesWindow => exact .of_plain (plain_historyEntryLeavesWindow h)
  | pdReceived line => exact .of_plain (plain_pdReceived h)
  | apReceived line => exact .of_plain (plain_apReceived h)
  | msReceived line => exact .of_plain (plain_msReceived h)
  | ftReceived line => exact .of_plain (plain_ftReceived h)
  | ryReceived line => exact .of_plain (plain_ryReceived h)
  | printTimerExpiry => exact .of_plain (plain_printTimerExpiry h)
  | applyTimerExpiry => exact .of_plain (plain_applyTimerExpiry h)
  | verifyTimerExpiry => exact .of_plain (plain_verifyTimerExpiry h)
  | abortWaitExpiry => exact .of_plain (plain_abortWaitExpiry h)

/-- Settles O16: an acknowledge of a jam is the statement's exception. -/
theorem noReleaseBeginsUnderAHold : Obligations.NoReleaseBeginsUnderAHold := by
  intro s t c h hz hh
  by_cases hc : s.zone.zstate = .jammed ∧ c = .ackPress
  · exact .inr hc
  · exact .inl (beginsNoRelease_exec h (not_and.1 hc) hz hh)

end

end Sys2Proof.Machine
end

