-- ==== Proofs/Announcements.lean ====
section
/-! PROOF. The announcements of the own hold in the transmit queue (R48): HOLD and RESUME stand before every frame but the
HELLO, and no other frame's queueing or withdrawal touches them (R59, R60). -/

namespace Sys2Proof.Machine

section
variable {b s m : State}

/-- HOLD and RESUME, the frames that announce a change of the own entry. -/
def announces (f : TxFrame) : Bool := f = .resume || f = .hold .safety || f = .hold .operator

/-- The announcements of a queue. -/
def announcements (q : List TxEntry) : List TxEntry := q.filter (fun e => announces e.frame)

/-- The announcements that wait. -/
def announcing (s : State) : List TxEntry := announcements s.line.tx

theorem announcements_cons {e : TxEntry} (h : announces e.frame = true) (q : List TxEntry) :
    announcements (e :: q) = e :: announcements q := List.filter_cons_of_pos h

theorem announcements_cons_of_not {e : TxEntry} (h : announces e.frame = false) (q : List TxEntry) :
    announcements (e :: q) = announcements q := List.filter_cons_of_neg (by simp [h])

theorem announcements_cons_congr {e : TxEntry} {q r : List TxEntry} (h : announcements q = announcements r) :
    announcements (e :: q) = announcements (e :: r) := by
  cases he : announces e.frame
  · rw [announcements_cons_of_not he, announcements_cons_of_not he, h]
  · rw [announcements_cons he, announcements_cons he, h]

theorem announces_holdFrame (c : Option HoldCause) : announces (holdFrame c) = true := by
  cases c with
  | none => rfl
  | some c => cases c <;> rfl

theorem offerTrack_holdFrame (c : Option HoldCause) : offerTrack (holdFrame c) = none := by cases c <;> rfl

theorem txRank_of_announces {f : TxFrame} (h : announces f = true) : txRank f = 1 := by
  simp only [announces, Bool.or_eq_true, decide_eq_true_eq] at h
  obtain (rfl | rfl) | rfl := h <;> rfl

theorem txClass_of_announces {f : TxFrame} (h : announces f = true) : txClass f = 0 := by
  simp only [announces, Bool.or_eq_true, decide_eq_true_eq] at h
  obtain (rfl | rfl) | rfl := h <;> rfl

theorem announces_of_offer {f : TxFrame} (h : (offerTrack f).isSome = true) : announces f = false := by
  cases f <;> simp [offerTrack] at h ⊢
  rfl

/-! ## The list operations of the queue -/

theorem announcements_insertTx_of_not {e : TxEntry} (h : announces e.frame = false) (q : List TxEntry) :
    announcements (insertTx e q) = announcements q := by
  induction q with
  | nil => exact announcements_cons_of_not h []
  | cons x rest ih =>
    simp only [insertTx]
    split
    · exact announcements_cons_congr ih
    · exact announcements_cons_of_not h _

/-- In a queue in the order of sending, an announcement goes behind those that wait (R59). -/
theorem announcements_insertTx {e : TxEntry} (h : announces e.frame = true) {q : List TxEntry}
    (hq : q.Pairwise (fun a b => txRank a.frame ≤ txRank b.frame)) :
    announcements (insertTx e q) = announcements q ++ [e] := by
  induction q with
  | nil => exact announcements_cons h []
  | cons x rest ih =>
    obtain ⟨hx, hrest⟩ := List.pairwise_cons.1 hq
    simp only [insertTx]
    split
    · cases hax : announces x.frame
      · rw [announcements_cons_of_not hax, announcements_cons_of_not hax, ih hrest]
      · rw [announcements_cons hax, announcements_cons hax, ih hrest, List.cons_append]
    · rename_i hlt
      have hnone : announcements (x :: rest) = [] := by
        refine List.filter_eq_nil_iff.2 fun y hy hann => ?_
        have hle : txRank x.frame ≤ txRank y.frame := by
          obtain rfl | hy := List.mem_cons.1 hy
          · exact Nat.le_refl _
          · exact hx y hy
        rw [txRank_of_announces hann] at hle
        rw [txRank_of_announces h] at hlt
        omega
      rw [announcements_cons h, hnone, List.nil_append]

theorem filter_eraseP {α : Type} {p q : α → Bool} (h : ∀ x, p x = true → q x = false) (l : List α) :
    (l.eraseP p).filter q = l.filter q := by
  induction l with
  | nil => rfl
  | cons x rest ih =>
    cases hp : p x
    · rw [List.eraseP_cons_of_neg (by simp [hp]), List.filter_cons, List.filter_cons, ih]
    · rw [List.eraseP_cons_of_pos hp, List.filter_cons_of_neg (by simp [h x hp])]

/-- An overflow drops a frame of a greater class (R60). -/
theorem announcements_dropYoungest {c : Nat} (hc : 0 < c) (q : List TxEntry) :
    announcements (dropYoungest c q) = announcements q := by
  unfold announcements
  rw [dropYoungest, List.filter_reverse, filter_eraseP fun x hx => ?_, List.filter_reverse, List.reverse_reverse]
  refine Bool.eq_false_iff.2 fun hann => ?_
  simp only [Bool.and_eq_true, decide_eq_true_eq] at hx
  have := txClass_of_announces hann
  omega

theorem announcements_replaceOffer (f : TxFrame) (q : List TxEntry) :
    announcements (replaceOffer f q) = announcements q := by
  unfold replaceOffer
  induction q with
  | nil => rfl
  | cons x rest ih =>
    rw [List.map_cons]
    split
    · rename_i hx
      simp only [Bool.and_eq_true, decide_eq_true_eq] at hx
      have hf : announces f = false := announces_of_offer (hx.2 ▸ hx.1)
      rw [announcements_cons_of_not hf, announcements_cons_of_not (announces_of_offer hx.1), ih]
    · exact announcements_cons_congr ih

theorem withdrawEntry_frame {p : TxFrame → Bool} {x y : TxEntry} (h : withdrawEntry p x = some y) : y.frame = x.frame := by
  unfold withdrawEntry at h
  split at h
  · split at h
    · obtain rfl := Option.some.inj h
      rfl
    · simp at h
  · obtain rfl := Option.some.inj h
    rfl

theorem announcements_withdrawEntry {p : TxFrame → Bool} (hp : ∀ f, announces f = true → p f = false) (q : List TxEntry) :
    announcements (q.filterMap (withdrawEntry p)) = announcements q := by
  induction q with
  | nil => rfl
  | cons x rest ih =>
    cases hx : announces x.frame
    · rw [announcements_cons_of_not hx, ← ih, List.filterMap_cons]
      split
      · rfl
      · rename_i y hy
        exact announcements_cons_of_not (by rw [withdrawEntry_frame hy, hx]) _
    · have hkeep : withdrawEntry p x = some x := by simp [withdrawEntry, hp _ hx]
      rw [List.filterMap_cons_some hkeep]
      exact announcements_cons_congr ih

/-- A withdrawal leaves the order of sending (R59). -/
theorem pairwise_withdrawEntry (p : TxFrame → Bool) {q : List TxEntry}
    (hq : q.Pairwise (fun a b => txRank a.frame ≤ txRank b.frame)) :
    (q.filterMap (withdrawEntry p)).Pairwise (fun a b => txRank a.frame ≤ txRank b.frame) :=
  hq.filterMap _ fun a b hab x hx y hy => by rwa [withdrawEntry_frame hx, withdrawEntry_frame hy]

/-! ## The operations that queue and withdraw -/

theorem announcing_congr (h : m.line = s.line) : announcing m = announcing s := by rw [announcing, h]; rfl

theorem announcing_queueFrame {f : TxFrame} (hf : announces f = false) (s : State) :
    announcing (queueFrame f s) = announcing s := by
  simp only [announcing, queueFrame_line]
  split
  · obtain ⟨-, h⟩ | ⟨-, -, h⟩ | ⟨-, -, hlt, h⟩ | ⟨-, -, -, h⟩ := pushFrame_cases f s.line
    · rw [h, announcements_replaceOffer]
    · rw [h]
      exact announcements_insertTx_of_not hf _
    · rw [h]
      exact (announcements_insertTx_of_not (e := freshTx f) hf _).trans (announcements_dropYoungest (by omega) _)
    · rw [h]
      rfl
  · rfl

theorem announcing_stopOffering (s : State) : announcing (stopOffering s) = announcing s := by
  obtain ⟨-, -, h⟩ | ⟨-, h⟩ := stopOffering_cases s
  · rw [h]
    refine announcements_withdrawEntry (fun f hf => Bool.eq_false_iff.2 fun ho => ?_) s.line.tx
    rw [announces_of_offer ho] at hf
    simp at hf
  · rw [h]

theorem announcing_fixExitClass (r : TravelRecord) (s : State) : announcing (fixExitClass r s) = announcing s := by
  unfold fixExitClass
  split
  · rfl
  · simp only
    split
    · exact announcing_queueFrame rfl _
    · rfl

theorem announcing_routeStep (s : State) : announcing (routeStep s) = announcing s := by
  obtain h | ⟨-, h⟩ | ⟨e, -, -, h⟩ := routeStep_cases s
  · rw [h]
  · rw [h]; rfl
  · rw [h, announcing_congr (watchLaneWait_line _)]
    obtain ⟨_, _, -, -, hdec⟩ | ⟨_, -, -, hdec⟩ := decideRoute_cases e.record s
    · rw [hdec, announcing_congr (s := fixExitClass e.record s) (by rw [startDelivery_line]), announcing_fixExitClass]
    · rw [hdec, announcing_fixExitClass]

theorem announcing_slotStep (s : State) : announcing (slotStep s) = announcing s := by
  obtain ⟨r, -, -, -, -, h⟩ | ⟨r, -, -, -, -, h⟩ | h := slotStep_cases s
  · rw [h]
    exact announcing_queueFrame rfl _
  · rw [h]
    exact announcing_queueFrame rfl _
  · rw [h]

theorem announcing_offerStep (s : State) : announcing (offerStep s) = announcing s := by
  obtain ⟨e, -, -, -, h⟩ | ⟨-, h⟩ := offerStep_cases s
  · rw [h]
    exact announcing_queueFrame rfl _
  · rw [h]

/-- The end of an event leaves the announcements that wait. -/
theorem announcing_settle (b m : State) : announcing (settle b m) = announcing m := by
  cases ha : active m
  · rw [settle_inactive ha]
  · rw [settle_active ha, announcing_congr (windowStep_line _ _), announcing_offerStep, announcing_slotStep,
      announcing_routeStep, announcing_congr (permitStep_line _), announcing_stopOffering]

end

end Sys2Proof.Machine
end

