-- ==== Proofs/OwnHoldInputs.lean ====
section
/-! PROOF. The own hold follows SAFE# and HOLD_SW (O15). -/

namespace Sys2Proof.Machine

section
variable {b s m t : State} {p : Pins}

/-! ## The own entry and its announcement -/

/-- The hold set after the own inputs have become `p`: a change of the own entry is entered, and else the set stays (R48). -/
def ownHeld (s : State) (p : Pins) : List Hold :=
  if ownHold p = ownHold s.pins then s.zone.holds else setHold s.cfg.node (ownHold p) s.zone.holds

theorem holdOf_ownHeld_self (h : OwnHoldSound s) (hin : inService s = true) :
    holdOf (ownHeld s p) s.cfg.node = ownHold p := by
  unfold ownHeld
  split
  · rename_i heq
    rw [h.1 hin, heq]
  · exact holdOf_setHold_self _ _ _

theorem holdOf_ownHeld_other {n : Nat} (h : n ≠ s.cfg.node) : holdOf (ownHeld s p) n = holdOf s.zone.holds n := by
  unfold ownHeld
  split
  · rfl
  · exact holdOf_setHold_other h _ _

theorem helloWaiting_stopOffering (m : State) : helloWaiting (stopOffering m) = helloWaiting m := by
  obtain ⟨-, -, h⟩ | ⟨-, h⟩ := stopOffering_cases m
  · rw [h]
    exact helloWaiting_withdrawFrames (p := fun f => (offerTrack f).isSome) rfl _
  · rw [h]

theorem pairwise_stopOffering (h : m.line.tx.Pairwise (fun a b => txRank a.frame ≤ txRank b.frame)) :
    (stopOffering m).line.tx.Pairwise (fun a b => txRank a.frame ≤ txRank b.frame) := by
  obtain ⟨-, -, hs⟩ | ⟨-, hs⟩ := stopOffering_cases m
  · rw [hs]
    exact pairwise_withdrawEntry _ h
  · rwa [hs]

/-- The station once its own entry has followed the inputs `p`, and before the role's machine and the end of the event. -/
def followed (s : State) (p : Pins) : State := followOwnHold (ownHold s.pins) (s.setPins p)

theorem followed_of_same (h : ownHold p = ownHold s.pins) : followed s p = s.setPins p := by
  obtain ⟨-, hne, -⟩ | ⟨-, hs⟩ := followOwnHold_cases (ownHold s.pins) (s.setPins p)
  · exact absurd h hne
  · exact hs

/-- A change enters the set, ends offering, and is announced unless the HELLO waits (R48, R61). -/
theorem followed_of_ne (hin : inService s = true) (h : ownHold p ≠ ownHold s.pins) :
    followed s p = if helloWaiting s then stopOffering (setHolds (ownHeld s p) (s.setPins p))
      else queueFrame (holdFrame (ownHold p)) (stopOffering (setHolds (ownHeld s p) (s.setPins p))) := by
  obtain ⟨-, -, s1, rfl, hs⟩ | ⟨hno | heq, -⟩ := followOwnHold_cases (ownHold s.pins) (s.setPins p)
  · rw [followed, hs, helloWaiting_stopOffering, ownHeld, if_neg h]
    simp only [stopOffering_pins]
    rfl
  · exact absurd hin (by rw [show inService s = false from hno]; simp)
  · exact absurd heq h

theorem followed_zone (hin : inService s = true) : ∃ o, (followed s p).zone =
    { s.zone with holds := ownHeld s p, offerTimer := o } := by
  by_cases h : ownHold p = ownHold s.pins
  · exact ⟨s.zone.offerTimer, by rw [followed_of_same h, ownHeld, if_pos h]; rfl⟩
  · obtain ⟨o, ho⟩ := stopOffering_zone (setHolds (ownHeld s p) (s.setPins p))
    refine ⟨o, ?_⟩
    rw [followed_of_ne hin h]
    split
    · exact ho
    · rw [queueFrame_zone]
      exact ho

theorem followed_rx (s : State) (p : Pins) (hin : inService s = true) : (followed s p).line.rx = s.line.rx := by
  by_cases h : ownHold p = ownHold s.pins
  · rw [followed_of_same h]
    rfl
  · rw [followed_of_ne hin h]
    split <;> simp

theorem followed_only (s : State) (p : Pins) : onlyChanges [.pins, .line, .zone] s (followed s p) :=
  fun x => by cases x <;> simp [followed, Block.same]

/-- No announcement where the entry stays, or the HELLO's stands for it (R48, R61). -/
theorem announcing_followed (hin : inService s = true) (h : ownHold p = ownHold s.pins ∨ helloWaiting s = true) :
    announcing (followed s p) = announcing s := by
  by_cases heq : ownHold p = ownHold s.pins
  · rw [followed_of_same heq]
    rfl
  · rw [followed_of_ne hin heq, if_pos (h.resolve_left heq), announcing_stopOffering]
    rfl

/-- One announcement of a change, behind those that wait (R48, R59). -/
theorem announcing_followed_of_ne (hin : inService s = true) (hl : LineSound s) (h : ownHold p ≠ ownHold s.pins)
    (hw : helloWaiting s = false) (hroom : roomFor 3 s = true) :
    announcing (followed s p) = announcing s ++ [freshTx (holdFrame (ownHold p))] := by
  have hlen := tx_of_roomFor hroom
  have hle : (stopOffering (setHolds (ownHeld s p) (s.setPins p))).line.tx.length ≤ s.line.tx.length :=
    stopOffering_length_le (setHolds (ownHeld s p) (s.setPins p))
  have hann := announcing_stopOffering (setHolds (ownHeld s p) (s.setPins p))
  rw [followed_of_ne hin h, hw, if_neg Bool.false_ne_true, queueFrame_room (by rw [inService_congr (s := s) (by simp), hin])
    (offerTrack_holdFrame _) (by simp only [Config.txCapacity]; omega)]
  have hins := announcements_insertTx (e := freshTx (holdFrame (ownHold p))) (announces_holdFrame _)
    (pairwise_stopOffering (m := setHolds (ownHeld s p) (s.setPins p)) hl.2.1)
  exact hins.trans (congrArg (· ++ _) hann)

/-! ## The role's machine -/

theorem haltWrap_only (s : State) : onlyChanges [.wrap, .label] s (haltWrap s) := by
  unfold haltWrap
  split <;> exact fun x => by cases x <;> simp [Block.same]

theorem resumeRole_only (s : State) : onlyChanges [.wrap, .label] s (resumeRole s) := by
  unfold resumeRole
  split
  · exact fun x => by cases x <;> simp [Block.same]
  · split
    · split <;> exact fun x => by cases x <;> simp [Block.same]
    · exact fun x => by cases x <;> simp [Block.same]

/-- The commands of the own inputs, with the inputs each leaves. -/
def ownInput (s : State) (c : Instr) (p : Pins) : Prop :=
  (c = .safeAsserted ∧ p = { s.pins with safe := true }) ∨ (c = .safeReleased ∧ p = { s.pins with safe := false }) ∨
    (∃ on ∈ [true, false], c = .holdSwChange on ∧ p = { s.pins with holdSw := on })

/-- The own entry follows, the role's machine halts or goes on, and the event ends. -/
theorem ownInput.exec {c : Instr} (h : ownInput s c p) :
    ∃ m, exec c s = .next (settle s m) ∧ onlyChanges [.wrap, .label] (followed s p) m := by
  obtain ⟨rfl, rfl⟩ | ⟨rfl, rfl⟩ | ⟨on, -, rfl, rfl⟩ := h
  · exact ⟨_, rfl, haltWrap_only _⟩
  · exact ⟨_, rfl, resumeRole_only _⟩
  · exact ⟨_, rfl, fun x => .inr (by cases x <;> rfl)⟩

theorem ownInput.eyes {c : Instr} (h : ownInput s c p) : eyesClear p = eyesClear s.pins := by
  obtain ⟨-, rfl⟩ | ⟨-, rfl⟩ | ⟨on, -, -, rfl⟩ := h <;> rfl

/-- What such a command leaves before the end of its event. -/
structure OwnInputLeaves (s m : State) (p : Pins) : Prop where
  only : onlyChanges [.pins, .line, .zone, .wrap, .label] s m
  pins : m.pins = p
  line : m.line = (followed s p).line
  zone : ∃ o, m.zone = { s.zone with holds := ownHeld s p, offerTimer := o }

theorem ownInputLeaves (hin : inService s = true) (h : onlyChanges [.wrap, .label] (followed s p) m) :
    OwnInputLeaves s m p where
  only := (followed_only s p).trans h (by decide) (by decide)
  pins := by
    have hm : m.pins = (followed s p).pins := by simpa [Block.same] using h .pins
    rw [hm]
    simp [followed]
  line := by simpa [Block.same] using h .line
  zone := by
    have hm : m.zone = (followed s p).zone := by simpa [Block.same] using h .zone
    rw [hm]
    exact followed_zone hin

/-! ## The permit of CHECK (R31, R32) -/

/-- At CHECK the end of an event is the permit's for the zone (R32). -/
theorem settle_zstate_of_check (ha : active m = true) (hc : hasRole m .check = true) :
    (settle b m).zone.zstate = (permitStep (stopOffering m)).zone.zstate := by
  have hrole : hasRole (permitStep (stopOffering m)) .check = true := by rw [hasRole_congr (s := m) (by simp), hc]
  rw [settle_active ha, routeStep_of_not_dispatch (not_dispatch_of_check hrole), slotStep_of_check hrole]
  simp

theorem settle_zstate_of_check_empty (ha : active m = true) (hc : hasRole m .check = true)
    (hz : m.zone.zstate = .empty) : (settle b m).zone.zstate = if accepting m = true then .inbound else .empty := by
  have hrole : hasRole (stopOffering m) .check = true := by rw [hasRole_congr (s := m) (by simp), hc]
  rw [settle_zstate_of_check ha hc, permitStep, if_pos hrole, if_neg (by simp [hz]), (sameCore_stopOffering m).accepting]
  split
  · rfl
  · simpa using hz

/-- The permit of an INBOUND zone stays on with no hold, the scale in order and no zero overdue (R32). -/
theorem settle_zstate_of_check_inbound (ha : active m = true) (hc : hasRole m .check = true)
    (hz : m.zone.zstate = .inbound) : (settle b m).zone.zstate =
      if (settle b m).zone.holds = [] ∧ m.weigh.scaleFault = false ∧ m.weigh.postponed ≠ 8 then .inbound else .empty := by
  have hcease : permitCeases (stopOffering m) = permitCeases m := by simp [permitCeases, holdsEmpty, zeroOverdue]
  have hiff : permitCeases m = false ↔ m.zone.holds = [] ∧ m.weigh.scaleFault = false ∧ m.weigh.postponed ≠ 8 := by
    have hover : zeroOverdue m = false ↔ m.weigh.postponed ≠ 8 := decide_eq_false_iff_not
    simp only [permitCeases, holdsEmpty, Bool.or_eq_false_iff, Bool.not_eq_false', List.isEmpty_iff, and_assoc, hover]
  have hrole : hasRole (stopOffering m) .check = true := by rw [hasRole_congr (s := m) (by simp), hc]
  rw [settle_zstate_of_check ha hc, permitStep, if_pos hrole, if_pos (by simpa using hz), hcease, (settle_zone_kept b m).1]
  cases hp : permitCeases m
  · rw [if_pos (hiff.1 hp), if_neg Bool.false_ne_true]
    simpa using hz
  · rw [if_pos rfl, if_neg fun h => by rw [hiff.2 h] at hp; simp at hp]
    rfl

/-- A vacant CHECK station drives while the permit is on and it is not halted (R27, R32). -/
theorem drive_of_check (hin : inService t = true) (hc : hasRole t .check = true)
    (hz : (t.zone.zstate = .inbound ∧ t.zone.holds = []) ∨ t.zone.zstate = .empty) :
    drive t = (infeedPermit t && !t.pins.safe) := by
  obtain ⟨hz, hh⟩ | hz := hz
  · rw [drive_of_inbound (active_of_inService hin) hz]
    simp [infeedPermit, hin, hc, hz, hh, holdOf]
  · rw [drive_of_still (.inl hz)]
    simp [infeedPermit, hz]

/-- Settles O15: `followed` enters and announces the own entry, and the end of the event moves the permit of CHECK alone. -/
theorem ownHoldFollowsItsInputs : Obligations.OwnHoldFollowsItsInputs := by
  intro s c p announced hinput hin hl hown hann
  have hann : announced = announcing := hann
  subst hann
  have hinput : ownInput s c p := hinput
  obtain ⟨m, hexec, honly⟩ := hinput.exec
  have hleaves := ownInputLeaves hin honly
  obtain ⟨o, hzone⟩ := hleaves.zone
  have hcfg : m.cfg = s.cfg := by simpa [Block.same] using hleaves.only .cfg
  have hserv : m.service = s.service := by simpa [Block.same] using hleaves.only .service
  have htable : m.table = s.table := by simpa [Block.same] using hleaves.only .table
  have hweigh : m.weigh = s.weigh := by simpa [Block.same] using hleaves.only .weigh
  have hzst : m.zone.zstate = s.zone.zstate := by rw [hzone]
  have ham : active m = true := by rw [active_congr hserv, active_of_inService hin]
  have hannounce : announcing (settle s m) = announcing (followed s p) :=
    (announcing_settle s m).trans (announcing_congr hleaves.line)
  have htholds : (settle s m).zone.holds = ownHeld s p := by rw [(settle_zone_kept s m).1, hzone]
  have htpins : (settle s m).pins = p := by rw [settle_pins, hleaves.pins]
  have htcfg : (settle s m).cfg = s.cfg := by rw [settle_cfg, hcfg]
  have htin : inService (settle s m) = true := by rw [inService_congr (s := s) (by rw [settle_service, hserv]), hin]
  have hta := active_of_inService htin
  refine ⟨_, hexec, htpins, ?_, by rw [htholds]; exact holdOf_ownHeld_self hown hin,
    fun n _ hn => by rw [htholds]; exact holdOf_ownHeld_other hn, fun hsafe => ?_, ?_, fun hz => ?_, fun hz => ?_,
    fun hz hc => ?_, fun hz hc => ?_, fun hz hc => ?_, fun hne hw hroom => ?_, fun h => ?_⟩
  · exact hleaves.only.trans (onlyChanges_settle (bs := []) fun x => .inr (by cases x <;> rfl)) (by decide) (by decide)
  · simp [drive, halted, hleaves.pins, hsafe]
  · rw [settle_rx, hleaves.line, followed_rx s p hin]
  · have hz' : (settle s m).zone.zstate = .positioning := by
      rw [settle_zstate_of_moving (.inl (hzst.trans hz)), hzst, hz]
    exact ⟨hz', by rw [drive_of_positioning hta hz', htpins]⟩
  · have hz' : (settle s m).zone.zstate = .releasing := by
      rw [settle_zstate_of_moving (.inr (hzst.trans hz)), hzst, hz]
    exact ⟨hz', by rw [drive_of_releasing hta hz', htpins, downstream_congr htcfg]⟩
  · have hz' : (settle s m).zone.zstate = .inbound :=
      settle_zstate_of_inbound (by rw [hasRole_congr hcfg, hc]) (hzst.trans hz)
    exact ⟨hz', by rw [drive_of_inbound hta hz', htpins, upstream_congr htcfg]⟩
  · have hz' := settle_zstate_of_check_inbound (b := s) ham (by rw [hasRole_congr hcfg, hc]) (hzst.trans hz)
    rw [hweigh] at hz'
    refine ⟨?_, hz'⟩
    rw [drive_of_check htin (by rw [hasRole_congr htcfg, hc]) ?_, htpins]
    split at hz'
    · rename_i hclear
      exact .inl ⟨hz', hclear.1⟩
    · exact .inr hz'
  · have hz' := settle_zstate_of_check_empty (b := s) ham (by rw [hasRole_congr hcfg, hc]) (hzst.trans hz)
    have hacc : accepting m = accepting (s.setZone { s.zone with holds := (settle s m).zone.holds }) := by
      simp only [accepting, inService_congr hserv, hzst, hleaves.pins, hinput.eyes, expectedEntry, htable, holdsEmpty,
        (settle_zone_kept s m).1, hasRole_congr hcfg, hweigh, zeroOverdue]
      rfl
    rw [hacc] at hz'
    refine ⟨?_, hz'⟩
    rw [drive_of_check htin (by rw [hasRole_congr htcfg, hc]) ?_, htpins]
    split at hz'
    · rename_i haccept
      obtain ⟨-, -, -, -, -, hh, -⟩ := accepting_iff.1 haccept
      exact .inl ⟨hz', by simpa [holdsEmpty] using hh⟩
    · exact .inr hz'
  · rw [hannounce, announcing_followed_of_ne hin hl hne hw hroom]
  · rw [hannounce, announcing_followed hin h]

end

end Sys2Proof.Machine
end

