-- ==== Proofs/Loading.lean ====
section
/-! PROOF. What is kept of an image that is not valid, as Table 12-9 spells its bytes; O4. -/

namespace Sys2Proof.Machine

/-- The length test of R178, the lengths of Table 12-9 by role code. -/
def lengthFits (code length : Nat) : Bool :=
  match code with
  | 1 => length == 174
  | 2 => length == 18
  | 3 => length == 136
  | 4 => length == 76
  | 5 => length == 24
  | _ => decide (18 ≤ length)

theorem lengthFits_of_roleOf_some {code length : Nat} {r : Role} (h : roleOf code = some r) :
    lengthFits code length = decide (length = imageLength r) := by
  rcases code with _ | _ | _ | _ | _ | _ | code <;> cases h <;> rfl

theorem lengthFits_of_roleOf_none {code length : Nat} (h : roleOf code = none) :
    lengthFits code length = decide (18 ≤ length) := by
  rcases code with _ | _ | _ | _ | _ | _ | code
  · rfl
  · cases h
  · cases h
  · cases h
  · cases h
  · cases h
  · rfl

/-- An image is readable by its identifier, its length and the length of its role (R178, R183). -/
theorem imageReadable_iff (img : List Byte) : imageReadable img = true ↔
    imageWord img 0 = 0x5A17 ∧ imageWord img 2 % 2 = 0 ∧ imageWord img 2 ≤ 1024 ∧
      lengthFits (imageByte img 5) (imageWord img 2) = true := by
  cases hr : roleOf (imageByte img 5) with
  | none => simp [imageReadable, hr, lengthFits_of_roleOf_none hr, and_assoc]
  | some r => simp [imageReadable, hr, lengthFits_of_roleOf_some hr, and_assoc]

theorem roleOf_eq_getElem? {b : Nat} (hlow : 1 ≤ b) (hhigh : b ≤ 5) :
    roleOf b = [Role.check, .plain, .wrap, .label, .dispatch][b - 1]? := by
  interval_cases b <;> rfl

theorem roleOf_isSome_iff (b : Nat) : (roleOf b).isSome = true ↔ 1 ≤ b ∧ b ≤ 5 := by
  rcases b with _ | _ | _ | _ | _ | _ | b <;> simp [roleOf]

theorem neighboursOk_iff (node up down : Nat) :
    neighboursOk node up down = true ↔ up ≤ 24 ∧ down ≤ 24 ∧ up ≠ node ∧ down ≠ node := by
  simp [neighboursOk, and_assoc]

theorem nodeOk_iff (node : Nat) : nodeOk node = true ↔ 1 ≤ node ∧ node ≤ 24 := by simp [nodeOk, within]

/-- Of a readable image its node stays where that is 1..24, and its role and neighbours where all three pass (R179). -/
theorem imageKept_of_readable {img : List Byte} (h : imageReadable img = true) : imageKept img =
    { (if 1 ≤ imageByte img 5 ∧ imageByte img 5 ≤ 5 ∧ imageByte img 6 ≤ 24 ∧ imageByte img 7 ≤ 24 ∧
          imageByte img 6 ≠ imageByte img 4 ∧ imageByte img 7 ≠ imageByte img 4 then
        { Loaded.none with
          role := [Role.check, .plain, .wrap, .label, .dispatch][imageByte img 5 - 1]?
          up := some (imageByte img 6), down := some (imageByte img 7) }
       else Loaded.none) with
      node := if 1 ≤ imageByte img 4 ∧ imageByte img 4 ≤ 24 then imageByte img 4 else 0 } := by
  simp only [imageKept, h, if_true, nodeOk_iff, neighboursOk_iff]
  cases hr : roleOf (imageByte img 5) with
  | none =>
    have hno : ¬(1 ≤ imageByte img 5 ∧ imageByte img 5 ≤ 5) := by simp [← roleOf_isSome_iff, hr]
    simp [← and_assoc, hno]
  | some role =>
    obtain ⟨hlow, hhigh⟩ := (roleOf_isSome_iff _).1 (by rw [hr]; rfl)
    simp only [← roleOf_eq_getElem? hlow hhigh, hr, hlow, hhigh, true_and]
    split <;> simp_all

/-- An image that is not valid leaves what `imageKept` names, whichever check failed (R178, R179). -/
theorem kept_of_imageVerdict_error {img : List Byte} {kept : Loaded} (h : imageVerdict img = .error kept) :
    kept = imageKept img := by
  unfold imageVerdict at h
  split at h
  · split at h <;> simp_all
  · simpa using h.symm

/-- Settles O4: the three commands by service state, and what an invalid image leaves by whether it is readable. -/
theorem loadingFollowsReset : Obligations.LoadingFollowsReset := by
  intro s img kept
  refine ⟨fun h => ⟨s.setService .loading, by simp [exec, execResetRelease, h], rfl, fun b => ?_⟩,
    fun h => by simp [exec, execResetRelease, h], fun h => by simp [exec, execImageReadComplete, h],
    fun h hv => ⟨(s.setCfg kept).setService .outOfService, by simp [exec, execImageReadComplete, h, hv], rfl, rfl,
      fun b => ?_⟩, fun hv => ?_⟩
  · cases b <;> simp [Block.same]
  · cases b <;> simp [Block.same]
  · rw [kept_of_imageVerdict_error hv]
    by_cases hread : imageReadable img = true
    · exact (imageKept_of_readable hread).trans (if_pos ((imageReadable_iff img).1 hread)).symm
    · rw [imageKept, if_neg hread]
      exact (if_neg fun h => hread ((imageReadable_iff img).2 h)).symm

end Sys2Proof.Machine
end

