-- ==== Proofs/TransmitQueue.lean ====
section
/-! PROOF. What the operations of the transmit queue leave in it, place by place (R58 to R61, R66, R68); O10, O11, O12. -/

namespace Sys2Proof.Machine

/-! ## Queueing (R59, R60) -/

section
variable {f : TxFrame} {pre post : List TxEntry} {x : TxEntry}

theorem replaceOffer_of_all_ne {q : List TxEntry} (h : q.all (fun y => offerTrack y.frame != offerTrack f) = true) :
    replaceOffer f q = q := by
  rw [replaceOffer, List.map_congr_left (g := id) fun y hy => ?_, List.map_id]
  have hne : offerTrack y.frame ≠ offerTrack f := by simpa using List.all_eq_true.1 h y hy
  simp [hne]

/-- An OFFER takes the place of the one entry that offers its track (R60). -/
theorem replaceOffer_at (hf : (offerTrack f).isSome = true) (hx : offerTrack x.frame = offerTrack f)
    (hothers : (pre ++ post).all (fun y => offerTrack y.frame != offerTrack f) = true) :
    replaceOffer f (pre ++ x :: post) =
      pre ++ { x with frame := f, withdrawn := false, stays := x.stays || x.withdrawn } :: post := by
  rw [List.all_append, Bool.and_eq_true] at hothers
  obtain ⟨hpre, hpost⟩ := hothers
  have hmap : replaceOffer f (pre ++ x :: post) = replaceOffer f pre ++ replaceOffer f [x] ++ replaceOffer f post := by
    simp [replaceOffer]
  rw [hmap, replaceOffer_of_all_ne hpre, replaceOffer_of_all_ne hpost]
  simp [replaceOffer, hx, hf]

theorem holdsOffer_at (hf : (offerTrack f).isSome = true) (hx : offerTrack x.frame = offerTrack f) :
    holdsOffer f (pre ++ x :: post) = true := by
  simp [holdsOffer, hx, hf]

/-- The greatest class is that of a droppable entry which no other exceeds. -/
theorem greatestClass_eq {q : List TxEntry} (hx : x ∈ q) (hd : droppable x = true)
    (hmax : q.all (fun y => !droppable y || txClass y.frame ≤ txClass x.frame) = true) :
    greatestClass q = txClass x.frame := by
  refine Nat.le_antisymm ?_ (greatestClass_le hx hd)
  obtain h | h := Nat.eq_zero_or_pos (greatestClass q)
  · omega
  · obtain ⟨y, hy, hdy, hc⟩ := exists_of_greatestClass h
    simpa [hdy, hc] using List.all_eq_true.1 hmax y hy

/-- The youngest entry of a class is the one behind which no other of that class may be dropped (R60). -/
theorem dropYoungest_at (hd : droppable x = true)
    (hpost : post.all (fun y => !droppable y || txClass y.frame < txClass x.frame) = true) :
    dropYoungest (txClass x.frame) (pre ++ x :: post) = pre ++ post := by
  have hnone : ∀ y ∈ post.reverse, ¬(droppable y && decide (txClass y.frame = txClass x.frame)) = true := by
    intro y hy
    have hor := List.all_eq_true.1 hpost y (List.mem_reverse.1 hy)
    cases hdy : droppable y
    · simp
    · simp only [hdy, Bool.not_true, Bool.false_or, decide_eq_true_eq] at hor
      simp [Nat.ne_of_lt hor]
  rw [dropYoungest, List.reverse_append, List.reverse_cons, List.append_assoc, List.eraseP_append_right _ hnone,
    List.singleton_append, List.eraseP_cons_of_pos (by simp [hd])]
  simp

theorem queueFrame_of_mayQueue {s : State} (h : mayQueue s f = true) :
    queueFrame f s = s.setLine (pushFrame f s.line) := by simp [queueFrame, h]

/-- A frame that replaces no OFFER in a full queue: the least urgent frame goes, or the new one does (R60). -/
theorem pushFrame_full {l : LineCtl} (hlen : l.tx.length = 8) (hno : holdsOffer f l.tx = false) :
    pushFrame f l = markTxOverrun (if txClass f < greatestClass l.tx then
      { l with tx := insertTx (freshTx f) (dropYoungest (greatestClass l.tx) l.tx) } else l) := by
  simp only [pushFrame, hno, hlen, Config.txCapacity, Bool.false_eq_true, if_false, Nat.lt_irrefl]
  split <;> rfl

end

/-- Settles O11: replacement, free place and overflow are the branches of `pushFrame`, the overflow by which entry is the
youngest of the greatest class. -/
theorem fullQueueDropsTheLeastUrgent : Obligations.FullQueueDropsTheLeastUrgent := by
  intro s f pre post x
  refine ⟨fun h => by simp [queueFrame, h], fun h htx hf hx hothers => ?_, fun h hlen hno => ?_,
    fun h hlen hno htx hd hmax hpost => ?_⟩
  · rw [queueFrame_of_mayQueue h, pushFrame, htx, if_pos (holdsOffer_at hf hx), replaceOffer_at hf hx hothers]
  · rw [queueFrame_of_mayQueue h]
    simp [pushFrame, hno, hlen, Config.txCapacity]
  · have hclass : greatestClass s.line.tx = txClass x.frame := greatestClass_eq (by simp [htx]) hd hmax
    have hdrop : dropYoungest (txClass x.frame) s.line.tx = pre ++ post := by rw [htx, dropYoungest_at hd hpost]
    have hline : (queueFrame f s).line = markTxOverrun (if txClass f < txClass x.frame then
        { s.line with tx := insertTx (freshTx f) (pre ++ post) } else s.line) := by
      rw [queueFrame_of_mayQueue h, State.setLine_line, pushFrame_full hlen hno, hclass, hdrop]
    refine ⟨by simp [hline, markTxOverrun], queueFrame_rx f s, ?_, fun b => by cases b <;> simp [Block.same],
      fun hlt => by simp [hline, hlt, markTxOverrun], fun hle => by simp [hline, Nat.not_lt.2 hle, markTxOverrun]⟩
    simp only [hline, markTxOverrun]
    split <;> rfl

/-! ## The answer to a QUERY (R66) -/

theorem mayQueue_status {s : State} (h : maySend s = true) : mayQueue s .status = true := by
  simpa [mayQueue, inService, maySend] using h

theorem answerQuery_of_queued {s : State} (h : queued .status s = true) : answerQuery s = s := if_pos h

theorem answerQuery_of_not_queued {s : State} (h : queued .status s = false) : answerQuery s = queueFrame .status s :=
  if_neg (Bool.eq_false_iff.1 h)

/-- A STATUS that is not queued finds the place that is free (R66). -/
theorem queueFrame_status {s : State} (hsend : maySend s = true) (hroom : s.line.tx.length < Config.txCapacity) :
    queueFrame .status s = s.setLine { s.line with tx := insertTx (freshTx .status) s.line.tx } := by
  rw [queueFrame_of_mayQueue (mayQueue_status hsend), pushFrame_room rfl hroom]

/-- Settles O12: the QUERY leaves the receive queue, which no condition of its answer reads. -/
theorem queryIsAnsweredOnce : Obligations.QueryIsAnsweredOnce := by
  intro s rest hrx hsend hroom
  have hexec : exec .queryReceived s = .next (answerQuery (dropHead s)) := by
    simp [exec, execQueryReceived, hrx, hsend]
  have hsend' : maySend (dropHead s) = true := hsend
  have hroom' : (dropHead s).line.tx.length < Config.txCapacity := tx_of_roomFor hroom
  cases hq : queued .status s
  · have hq' : queued .status (dropHead s) = false := hq
    rw [answerQuery_of_not_queued hq', queueFrame_status hsend' hroom'] at hexec
    exact ⟨_, hexec, fun b => by cases b <;> simp [Block.same, dropHead], by simp [dropHead, hrx], rfl,
      fun h => by simp at h, fun _ => rfl⟩
  · have hq' : queued .status (dropHead s) = true := hq
    rw [answerQuery_of_queued hq'] at hexec
    exact ⟨_, hexec, fun b => by cases b <;> simp [Block.same, dropHead], by simp [dropHead, hrx], rfl, fun _ => rfl,
      fun h => by simp at h⟩

/-! ## The ends of an attempt (R58, R68) -/

section
variable {s : State} {pre post : List TxEntry} {e : TxEntry} {a : Sending}

theorem filterMap_keepSent_of_waiting {q : List TxEntry} (h : q.all (fun x => !x.inAttempt) = true) :
    q.filterMap keepSent = q := by
  rw [List.filterMap_congr (g := some) fun x hx => ?_, List.filterMap_some]
  have hx : x.inAttempt = false := by simpa using List.all_eq_true.1 h x hx
  simp [keepSent, hx]

theorem filterMap_keepTried_of_waiting {q : List TxEntry} (h : q.all (fun x => !x.inAttempt) = true) :
    q.filterMap keepTried = q := by
  rw [List.filterMap_congr (g := some) fun x hx => ?_, List.filterMap_some]
  have hx : x.inAttempt = false := by simpa using List.all_eq_true.1 h x hx
  simp [keepTried, hx]

theorem any_hello_of_waiting {q : List TxEntry} (h : q.all (fun x => !x.inAttempt) = true) :
    q.any (fun x => x.inAttempt && x.frame = .hello) = false := by
  refine List.any_eq_false.2 fun x hx => ?_
  have hx : x.inAttempt = false := by simpa using List.all_eq_true.1 h x hx
  simp [hx]

section
variable (htx : s.line.tx = pre ++ e :: post) (he : e.inAttempt = true)
  (hpre : pre.all (fun x => !x.inAttempt) = true) (hpost : post.all (fun x => !x.inAttempt) = true)
include htx he hpre hpost

/-- The one frame in an attempt leaves when it is counted sent, unless it stays (R58, R60). -/
theorem filterMap_keepSent_at : s.line.tx.filterMap keepSent =
    pre ++ (if e.stays then [{ e with inAttempt := false, stays := false }] else []) ++ post := by
  have hkeep : [e].filterMap keepSent = if e.stays then [{ e with inAttempt := false, stays := false }] else [] := by
    cases hs : e.stays <;> simp [keepSent, he, hs, afterAttempt]
  rw [htx, List.append_cons, List.filterMap_append, List.filterMap_append, hkeep, filterMap_keepSent_of_waiting hpre,
    filterMap_keepSent_of_waiting hpost]

/-- The one frame in an attempt keeps its place when it is not counted sent, unless it was withdrawn (R58, R59). -/
theorem filterMap_keepTried_at : s.line.tx.filterMap keepTried =
    if e.withdrawn then pre ++ post else pre ++ { e with inAttempt := false, stays := false } :: post := by
  rw [htx, List.filterMap_append, filterMap_keepTried_of_waiting hpre]
  cases hw : e.withdrawn <;>
    simp [keepTried, he, hw, afterAttempt, filterMap_keepTried_of_waiting hpost]

theorem helloInAttempt_at : helloInAttempt s.line = decide (e.frame = .hello) := by
  simp only [helloInAttempt, htx, List.any_append, List.any_cons, any_hello_of_waiting hpre, any_hello_of_waiting hpost,
    he, Bool.true_and, Bool.false_or, Bool.or_false]

end

/-- A flag that the STATUS reported set clears unless an overflow of its kind came since; any other stays (R68). -/
theorem removeSent_eq (ha : s.line.sending = some a) : removeSent s.line = { s.line with
    tx := s.line.tx.filterMap keepSent
    sending := none
    txOverrun := if a.reported.any (fun r => r.1) then a.txSince else s.line.txOverrun
    rxOverrun := if a.reported.any (fun r => r.2) then a.rxSince else s.line.rxOverrun } := by
  cases hr : a.reported <;> simp [removeSent, clearReported, ha, hr, flagAfter]

theorem removeSent_rx (l : LineCtl) : (removeSent l).rx = l.rx := by
  unfold removeSent clearReported
  split <;> rfl

theorem queueFrame_sending_none {f : TxFrame} (h : s.line.sending = none) : (queueFrame f s).line.sending = none := by
  rw [queueFrame_line]
  split
  · obtain ⟨-, hp⟩ | ⟨-, -, hp⟩ | ⟨-, -, -, hp⟩ | ⟨-, -, -, hp⟩ := pushFrame_cases f s.line <;>
      simp [hp, markTxOverrun, h]
  · exact h

theorem attemptSent_only (s : State) : onlyChanges [.line] s (attemptSent s) := by
  intro b
  unfold attemptSent
  cases b <;> simp only [Block.same] <;> split <;> simp

theorem attemptSent_rx_sending (s : State) :
    (attemptSent s).line.rx = s.line.rx ∧ (attemptSent s).line.sending = none := by
  simp only [attemptSent]
  split
  · exact ⟨(queueFrame_rx _ _).trans (removeSent_rx _), queueFrame_sending_none rfl⟩
  · exact ⟨removeSent_rx _, rfl⟩

end

/-- Settles O10: the one entry in the attempt is split off, and each end treats it alone. -/
theorem attemptsEndByTheRule : Obligations.AttemptsEndByTheRule := by
  intro s pre post e a
  refine ⟨fun h => by simp [exec, execAttemptCountedSent, execLostArbitration, execAttemptErrored, h],
    fun ha htx he hpre hpost => ⟨?_, ?_⟩⟩
  · have hexec : exec .attemptCountedSent s = .next (attemptSent s) := by simp [exec, execAttemptCountedSent, ha]
    have hhello := helloInAttempt_at htx he hpre hpost
    have hline := removeSent_eq ha
    rw [filterMap_keepSent_at htx he hpre hpost] at hline
    obtain ⟨hrx, hsending⟩ := attemptSent_rx_sending s
    refine ⟨_, hexec, attemptSent_only s, hsending, hrx, fun hne => ?_, fun heq hstays hin hlen => ?_⟩
    · simp only [attemptSent, hhello, hne, decide_false, Bool.false_eq_true, if_false, State.setLine_line, hline, and_self]
    · rw [attemptSent, hhello, if_pos (decide_eq_true heq), queueFrame_room (by exact hin) (offerTrack_holdFrame _)]
      · simp [hline, hstays]
      · simpa [hline, hstays, Config.txCapacity] using hlen
  · intro c hc
    have hexec : exec c s = .next (attemptFailed s) := by
      simp only [List.mem_cons, List.not_mem_nil, or_false] at hc
      obtain rfl | rfl := hc <;> simp [exec, execLostArbitration, execAttemptErrored, ha]
    refine ⟨_, hexec, fun b => by cases b <;> simp [Block.same, attemptFailed], ?_⟩
    rw [attemptFailed, State.setLine_line, filterMap_keepTried_at htx he hpre hpost]

end Sys2Proof.Machine
end

