-- ==== Proofs/SentBytes.lean ====
section
/-! PROOF. The bytes of a frame in an attempt, field by field as the tables of Chapter 12 spell them; O9. -/

namespace Sys2Proof.Machine

/-! ## Numbers and digits -/

theorem beBytes_one (v : Nat) : beBytes 1 v = [BitVec.ofNat 8 v] := by simp [beBytes]

/-- The bytes of a number are its base-256 digits, the highest first (12, "conventions"). -/
theorem beBytes_eq_map_range (n v : Nat) :
    beBytes n v = (List.range n).map (fun i => BitVec.ofNat 8 (v / 256 ^ (n - 1 - i))) := by
  induction n with
  | zero => rfl
  | succ n ih =>
    rw [beBytes, ih, List.range_succ_eq_map, List.map_cons, List.map_map]
    congr 1
    refine List.map_congr_left fun i _ => ?_
    simp only [Function.comp_apply]
    congr 3
    omega

/-- Digit nibbles two to a byte, an odd last one followed by F (12, "conventions"). -/
theorem packDigits_eq_map_range (ds : Digits) :
    packDigits ds = (List.range ((ds.length + 1) / 2)).map (fun i => BitVec.ofNat 8
      (16 * (ds[2 * i]?.map Fin.val).getD 15 + (ds[2 * i + 1]?.map Fin.val).getD 15)) := by
  match ds with
  | [] => rfl
  | [a] => simp [packDigits, packNibbles, Nat.mul_comm]
  | a :: b :: rest =>
    have hlen : ((a :: b :: rest).length + 1) / 2 = (rest.length + 1) / 2 + 1 := by simp only [List.length_cons]; omega
    rw [hlen, List.range_succ_eq_map, List.map_cons, List.map_map]
    have hrest := packDigits_eq_map_range rest
    simp only [packDigits, List.map_cons, packNibbles] at hrest ⊢
    rw [hrest]
    refine List.cons_eq_cons.2 ⟨by rw [Nat.mul_comm]; rfl, List.map_congr_left fun i _ => ?_⟩
    have hindex : 2 * (i + 1) = 2 * i + 1 + 1 := by omega
    simp only [Function.comp_apply, Nat.succ_eq_add_one, hindex, List.getElem?_cons_succ]

theorem optDigits_eq (n : Nat) (o : Option Digits) : optDigits n o = (o.map packDigits).getD (List.replicate n 0xFF) := by
  cases o <;> rfl

theorem optNat_eq (n : Nat) (o : Option Nat) : optNat n o = (o.map (beBytes n)).getD (List.replicate n 0xFF) := by
  cases o <;> rfl

theorem optTrackBytes_eq (o : Option Track) : optTrackBytes o = (o.map trackBytes).getD [0, 0] := by
  cases o <;> rfl

/-! ## An OFFER (Tables 12-3 and 12-4) -/

theorem reasonCode_eq_findIdx (r : Reason) : reasonCode r = reasons.findIdx (· = r) + 1 := by cases r <;> rfl

theorem zipIdx_reasons : reasons.zipIdx = reasons.map (fun r => (r, reasonCode r - 1)) := rfl

theorem foldl_add_eq_sum {α : Type} (g : α → Nat) (l : List α) (acc : Nat) :
    l.foldl (fun acc x => acc + g x) acc = acc + (l.map g).sum := by
  induction l generalizing acc with
  | nil => simp
  | cons x l ih => rw [List.foldl_cons, ih, List.map_cons, List.sum_cons, Nat.add_assoc]

/-- The fail set as a sum of bits, each at the place of its reason (Table 12-3). -/
theorem failBits_eq_sum (fs : List Reason) :
    failBits fs = ((reasons.zipIdx.filter (fun y => y.1 ∈ fs)).map (fun y => 2 ^ y.2)).sum := by
  rw [failBits, foldl_add_eq_sum (fun r => 2 ^ (reasonCode r - 1)), zipIdx_reasons, List.filter_map, List.map_map,
    Nat.zero_add]
  simp [Function.comp_def]

/-- The check verdict, primary reason and fail set in their four bytes. -/
def checkField : Option CheckVerdict → List Byte
  | none => [0, 0, 0, 0]
  | some .pass => [1, 0, 0, 0]
  | some (.fail r fs) => 2 :: beBytes 1 (reasons.findIdx (· = r) + 1) ++
      beBytes 2 ((reasons.zipIdx.filter (fun y => y.1 ∈ fs)).map (fun y => 2 ^ y.2)).sum

theorem checkField_eq (c : Option CheckVerdict) : checkField c =
    [BitVec.ofNat 8 (checkCodes c).1, BitVec.ofNat 8 (checkCodes c).2.1] ++ beBytes 2 (checkCodes c).2.2 := by
  rcases c with _ | _ | ⟨r, fs⟩
  · rfl
  · rfl
  · simp only [checkField, checkCodes, beBytes_one, ← reasonCode_eq_findIdx, failBits_eq_sum]
    rfl

/-- The wrap verdict byte. -/
def wrapField : Option WrapVerdict → Byte
  | none => 0
  | some (.wrapped c) => BitVec.ofNat 8 (16 + c % 16)
  | some .wrapFailed => 32
  | some .skipped => 48

theorem wrapField_eq (w : Option WrapVerdict) : wrapField w = BitVec.ofNat 8 (wrapByte w) := by
  rcases w with _ | _ | _ | _ <;> rfl

/-- The label verdict byte. -/
def labelField : Option LabelVerdict → Byte
  | none => 0
  | some (.labelled n _) => BitVec.ofNat 8 (16 + n % 16)
  | some .labelFailed => 32
  | some .skipped => 48

theorem labelField_eq (l : Option LabelVerdict) : labelField l = BitVec.ofNat 8 (labelByte l) := by
  rcases l with _ | _ | _ | _ <;> rfl

/-- The unit class byte. -/
def unitClassField : UnitClass → Byte
  | .caseUnit => 1
  | .tray => 2
  | .keg => 3

theorem unitClassField_eq (c : UnitClass) : unitClassField c = BitVec.ofNat 8 (unitClassCode c) := by cases c <;> rfl

/-- A line of goods in the order of Table 12-4. -/
def lineField (l : GoodsLine) : List Byte :=
  packDigits l.article ++ [unitClassField l.unitClass] ++ beBytes 1 l.count ++ beBytes 2 l.mass ++ beBytes 1 l.layers ++
    beBytes 2 l.layerHeight

theorem lineField_eq (l : GoodsLine) : lineField l = lineBytes l := by
  simp [lineField, lineBytes, unitClassField_eq, beBytes_one]

theorem presenceByte_eq (r : TravelRecord) : presenceByte r =
    (if r.serial.isSome then 128 else 0) + (if r.order.isSome then 64 else 0) + (if r.gross.isSome then 32 else 0) +
      (if r.height.isSome then 16 else 0) + (if r.length.isSome then 8 else 0) +
      (if r.deviation.isSome then 4 else 0) := rfl

theorem statusByte_eq (r : TravelRecord) : statusByte r =
    64 * dutyCode r.duty + 16 * laneClassCode r.laneClass + (if r.unknownOrigin then 2 else 0) +
      (if r.manifestPresent then 1 else 0) := by
  rw [statusByte, Nat.mul_comm _ 64, Nat.mul_comm _ 16]
  rfl

/-- An OFFER's payload in the order of Table 12-3. -/
theorem offerPayload_eq_fields (u : Nat) (r : TravelRecord) : offerPayload u r =
    beBytes 1 u ++ trackBytes r.track ++
      beBytes 1 ((if r.serial.isSome then 128 else 0) + (if r.order.isSome then 64 else 0) +
        (if r.gross.isSome then 32 else 0) + (if r.height.isSome then 16 else 0) + (if r.length.isSome then 8 else 0) +
        (if r.deviation.isSome then 4 else 0)) ++
      beBytes 1 (64 * dutyCode r.duty + 16 * laneClassCode r.laneClass + (if r.unknownOrigin then 2 else 0) +
        (if r.manifestPresent then 1 else 0)) ++
      (r.serial.map packDigits).getD (List.replicate 5 0xFF) ++ (r.order.map packDigits).getD (List.replicate 4 0xFF) ++
      (r.tare.map (beBytes 2)).getD (List.replicate 2 0xFF) ++ beBytes 1 r.lines.length ++
      (r.gross.map (beBytes 3)).getD (List.replicate 3 0xFF) ++ (r.height.map (beBytes 2)).getD (List.replicate 2 0xFF) ++
      (r.length.map (beBytes 2)).getD (List.replicate 2 0xFF) ++
      (r.deviation.map (intBytes 4)).getD (List.replicate 4 0xFF) ++ checkField r.check ++
      [wrapField r.wrap, labelField r.label] ++ labelCodeBytes r.label ++ beBytes 1 r.hops ++
      r.lines.flatMap lineField := by
  have hdev : (r.deviation.map (intBytes 4)).getD (List.replicate 4 0xFF) = deviationBytes r.deviation := by
    cases r.deviation <;> rfl
  simp only [offerPayload_eq, offerFields, ← presenceByte_eq, ← statusByte_eq, ← optDigits_eq, ← optNat_eq, hdev,
    beBytes_one, checkField_eq, wrapField_eq, labelField_eq, funext lineField_eq,
    List.flatten_cons, List.flatten_nil, List.append_nil,
    List.append_assoc, List.cons_append, List.nil_append]

/-! ## Handoff frames, DISPATCHED, HELLO and NOTICE (12.1, Tables 12-6 and 12-7) -/

theorem handoffPayload_eq (u : Nat) (k : Track) : BitVec.ofNat 8 u :: trackBytes k = beBytes 1 u ++ trackBytes k := by
  rw [beBytes_one]
  rfl

/-- The exit byte of a DISPATCHED. -/
def exitField : RouteCode → Byte
  | .none => 0
  | .lane1 => 1
  | .lane2 => 2
  | .reject => 3

theorem exitField_eq (x : RouteCode) : exitField x = BitVec.ofNat 8 (routeCodeNat x) := by cases x <;> rfl

/-- The reject reason byte of a DISPATCHED. -/
def rejectField : Option RejectReason → Byte
  | none => 0
  | some .unknownOrigin => 1
  | some .checkFailed => 2
  | some .wrapNotDone => 3
  | some .labelNotDone => 4
  | some .noLane => 5

theorem rejectField_eq (r : Option RejectReason) : rejectField r = BitVec.ofNat 8 (rejectCode r) := by
  rcases r with _ | _ | _ | _ | _ | _ <;> rfl

theorem dispatchedPayload_eq_fields (k : Track) (serial order : Option Digits) (exit : RouteCode)
    (reason : Option RejectReason) (gross : Option Nat) : dispatchedPayload k serial order exit reason gross =
      trackBytes k ++ (serial.map packDigits).getD (List.replicate 5 0xFF) ++
        (order.map packDigits).getD (List.replicate 4 0xFF) ++ [exitField exit, rejectField reason] ++
        (gross.map (beBytes 3)).getD (List.replicate 3 0xFF) := by
  simp only [dispatchedPayload, ← optDigits_eq, ← optNat_eq, exitField_eq, rejectField_eq]

/-- The role byte of a HELLO or a STATUS. -/
def roleField : Option Role → Byte
  | none => 0
  | some .check => 1
  | some .plain => 2
  | some .wrap => 3
  | some .label => 4
  | some .dispatch => 5

theorem roleField_eq (r : Option Role) : roleField r = BitVec.ofNat 8 ((r.map roleCode).getD 0) := by
  rcases r with _ | _ | _ | _ | _ | _ <;> rfl

theorem helloPayload_eq_fields (s : State) : helloPayload s =
    [roleField s.cfg.role, BitVec.ofNat 8 (s.cfg.up.getD 0), BitVec.ofNat 8 (s.cfg.down.getD 0)] := by
  rw [roleField_eq]
  rfl

/-- The two bytes of a label failure. -/
def labelCauseField : LabelCause → List Byte
  | .printTimeout => [1, 0]
  | .applyTimeout => [2, 0]
  | .missed => [3, 0]
  | .fault x => 4 :: beBytes 1 x
  | .verifyTimeout => [5, 0]
  | .verifyMismatch => [6, 0]

theorem labelCauseField_eq (c : LabelCause) : labelCauseField c = labelCauseBytes c := by
  cases c with
  | fault x =>
    rw [labelCauseField, beBytes_one]
    rfl
  | printTimeout | applyTimeout | missed | verifyTimeout | verifyMismatch => rfl

theorem noticePayload_jam (k : Option Track) (c : JamCause) : noticePayload (.jam k c) =
    5 :: (k.map trackBytes).getD [0, 0] ++ [BitVec.ofNat 8 (jamCode c)] := by
  rw [← optTrackBytes_eq]
  rfl

theorem noticePayload_jamCleared (k : Option Track) : noticePayload (.jamCleared k) =
    6 :: (k.map trackBytes).getD [0, 0] := by
  rw [← optTrackBytes_eq, noticePayload, noticeTrack, noticeDetail, List.append_nil]
  rfl

theorem noticePayload_manifestRejected (c : ManifestCheck) (l : Nat) (serial : Option Digits) :
    noticePayload (.manifestRejected c l serial) = [7, 0, 0, BitVec.ofNat 8 (manifestCheckCode c), BitVec.ofNat 8 l] ++
      (serial.map packDigits).getD (List.replicate 5 0xFF) := by
  rw [← optDigits_eq]
  rfl

theorem noticePayload_zeroFault (k : ZeroFaultKind) (v : Option Int) : noticePayload (.zeroFault k v) =
    [8, 0, 0, BitVec.ofNat 8 (zeroFaultCode k)] ++ (v.map (intBytes 3)).getD [0x80, 0, 0] := by
  cases v <;> rfl

theorem noticePayload_wrapFailed (k : Track) (x : Nat) (c1 c2 : WrapCause) : noticePayload (.wrapFailed k x c1 c2) =
    11 :: trackBytes k ++ beBytes 1 x ++ [BitVec.ofNat 8 (wrapCauseCode c1), BitVec.ofNat 8 (wrapCauseCode c2)] := by
  rw [beBytes_one]
  rfl

theorem noticePayload_labelFailed (k : Track) (ds : Digits) (causes : List LabelCause) :
    noticePayload (.labelFailed k ds causes) =
      13 :: trackBytes k ++ packDigits ds ++ causes.flatMap labelCauseField := by
  rw [funext labelCauseField_eq, List.append_assoc]
  rfl

/-! ## STATUS (Table 3-3) -/

theorem ofNat_serviceCode {s : State} (h : maySend s = true) :
    BitVec.ofNat 8 (serviceCode s.service) = if s.service = .inService then 3 else 4 := by
  simp only [maySend, Bool.or_eq_true, decide_eq_true_eq] at h
  obtain h | h := h <;> rw [h] <;> rfl

/-- The byte of a neighbour in a STATUS. -/
def neighbourField : Option Nat → Byte
  | none => 0xFF
  | some n => BitVec.ofNat 8 n

theorem neighbourField_eq (n : Option Nat) : neighbourField n = BitVec.ofNat 8 (n.getD 0xFF) := by cases n <;> rfl

/-- The zone state byte. -/
def zoneField : ZoneState → Byte
  | .empty => 0
  | .inbound => 1
  | .positioning => 2
  | .stopped => 3
  | .releasing => 4
  | .jammed => 5

theorem zoneField_eq (z : ZoneState) : zoneField z = BitVec.ofNat 8 (zoneCode z) := by cases z <;> rfl

/-- The record state byte of an entry in the table summary. -/
def recordStateField : RecordState → Byte
  | .expected => 1
  | .present => 2
  | .working => 3
  | .done => 4
  | .releasing => 5
  | .outbound => 6

theorem recordStateField_eq (st : RecordState) : recordStateField st = BitVec.ofNat 8 (recordStateCode st) := by
  cases st <;> rfl

/-- The track of the slot's OFFER, 0 when there is none. -/
def slotField : Option TravelRecord → List Byte
  | some r => trackBytes r.track
  | none => [0, 0]

theorem slotField_eq (o : Option TravelRecord) : slotField o = optTrackBytes (o.map TravelRecord.track) := by
  cases o <;> rfl

/-- The flags byte; a flag of a block outside the role is clear (R67). -/
theorem statusFlags_eq (s : State) : statusFlags s =
    (if s.zone.jam then 1 else 0) + (if hasRole s .check ∧ s.weigh.scaleFault then 2 else 0) +
      (if hasRole s .check ∧ s.weigh.postponed = 8 then 4 else 0) + (if hasRole s .wrap ∧ s.wrap.fault then 8 else 0) +
      (if hasRole s .label ∧ s.label.fault then 16 else 0) + (if s.line.txOverrun then 32 else 0) +
      (if s.line.rxOverrun then 64 else 0) + (if s.pins.safe then 128 else 0) := by
  have hoverdue : zeroOverdue s = true ↔ s.weigh.postponed = 8 := decide_eq_true_iff
  simp only [statusFlags, bitIf, halted, Bool.and_eq_true, hoverdue]
  rfl

theorem holdByte_eq (h : Hold) :
    holdByte h = BitVec.ofNat 8 (h.node % 32 + (if h.cause = .operator then 128 else 0)) := by
  obtain ⟨n, c⟩ := h
  cases c <;> rfl

/-- The role part of a STATUS, none in OUT_OF_SERVICE. -/
def rolePart (s : State) : List Byte :=
  if s.service = .outOfService then []
  else match s.cfg.role with
    | some .check => intBytes 3 s.weigh.z ++ [BitVec.ofNat 8 s.weigh.postponed] ++ beBytes 3 s.weigh.lastGross
    | some .wrap => beBytes 4 s.wrap.count.toNat
    | some .label => beBytes 4 s.label.printCount.toNat ++ beBytes 3 s.label.seq
    | some .dispatch =>
      beBytes 4 s.route.lane1.toNat ++ beBytes 4 s.route.lane2.toNat ++ beBytes 4 s.route.rejects.toNat
    | some .plain => []
    | none => []

theorem rolePart_eq (s : State) : rolePart s = statusRole s := by
  rcases hr : s.cfg.role with _ | _ | _ | _ | _ | _ <;> simp only [rolePart, statusRole, hr]

/-- A STATUS's payload in the order of Table 3-3. -/
theorem statusPayload_eq_fields {s : State} (h : maySend s = true) : statusPayload s =
    [if s.service = .inService then 3 else 4, roleField s.cfg.role, neighbourField s.cfg.up, neighbourField s.cfg.down,
      zoneField s.zone.zstate, 0,
      BitVec.ofNat 8 ((if s.zone.jam then 1 else 0) + (if hasRole s .check ∧ s.weigh.scaleFault then 2 else 0) +
        (if hasRole s .check ∧ s.weigh.postponed = 8 then 4 else 0) +
        (if hasRole s .wrap ∧ s.wrap.fault then 8 else 0) + (if hasRole s .label ∧ s.label.fault then 16 else 0) +
        (if s.line.txOverrun then 32 else 0) + (if s.line.rxOverrun then 64 else 0) + (if s.pins.safe then 128 else 0)),
      BitVec.ofNat 8 s.table.length] ++
    s.table.flatMap (fun x => trackBytes x.record.track ++ [recordStateField x.state]) ++ slotField s.slot ++
    [BitVec.ofNat 8 s.zone.holds.length] ++
    s.zone.holds.map (fun h => BitVec.ofNat 8 (h.node % 32 + if h.cause = .operator then 128 else 0)) ++
    rolePart s := by
  have hentry : (fun x : Entry => trackBytes x.record.track ++ [recordStateField x.state]) = entrySummary :=
    funext fun x => by rw [recordStateField_eq, entrySummary]
  simp only [statusPayload, statusService, statusTable, statusHolds, hentry, ← statusFlags_eq, ← holdByte_eq,
    ← ofNat_serviceCode h, roleField_eq, neighbourField_eq, zoneField_eq, slotField_eq, rolePart_eq, List.append_assoc,
    List.cons_append, List.nil_append]

theorem ofNat_holdCauseCode (c : HoldCause) : BitVec.ofNat 8 (holdCauseCode c) = if c = .safety then 1 else 2 := by
  cases c <;> rfl

/-! ## The beginning of an attempt (R58, R59) -/

theorem startAttempt_of_tx {s : State} {e : TxEntry} {rest : List TxEntry} (htx : s.line.tx = e :: rest) :
    startAttempt s = s.setLine { s.line with
      tx := { e with inAttempt := true } :: rest
      sending := some { bytes := frameBytes s e.frame, reported := reportedFlags s.line e.frame, txSince := false,
                        rxSince := false } } := by
  simp [startAttempt, htx]

theorem reportedFlags_eq (l : LineCtl) (f : TxFrame) :
    reportedFlags l f = if f = .status then some (l.txOverrun, l.rxOverrun) else none := by
  cases f <;> rfl

/-- Settles O9: an attempt begins with `frameBytes`, and kind by kind each payload is the fields of its table in order. -/
theorem idleLineBeginsAnAttempt : Obligations.IdleLineBeginsAnAttempt := by
  intro s e rest num int3 digits track reasons hreasons hnum hint hdigits htrack
  replace hreasons : reasons = Machine.reasons := hreasons
  replace hnum : num = beBytes := hnum.trans (funext fun n => funext fun v => (beBytes_eq_map_range n v).symm)
  replace hdigits : digits = packDigits := hdigits.trans (funext fun ds => (packDigits_eq_map_range ds).symm)
  subst hreasons hnum hdigits
  replace hint : int3 = intBytes 3 := hint
  replace htrack : track = trackBytes := htrack
  subst hint htrack
  refine ⟨fun hsend hidle htx => ?_, fun h => ?_⟩
  · have hexec : exec .lineIdle s = .next (startAttempt s) := by simp [exec, execLineIdle, hsend, hidle]
    rw [startAttempt_of_tx htx] at hexec
    refine ⟨_, hexec, fun b => by cases b <;> simp [Block.same], rfl, rfl, congrArg some ?_,
      congrArg some (reportedFlags_eq s.line e.frame), rfl, fun hstatus => congrArg some ?_, rfl, rfl, rfl⟩
    · change frameBytes s e.frame = _
      cases e.frame with
      | hold c => exact congrArg (fun b => wireBytes 0 s.cfg.node 0x01 [b]) (ofNat_holdCauseCode c)
      | resume => rfl
      | offer u x => exact congrArg (wireBytes 1 s.cfg.node 0x10) (offerPayload_eq_fields u x)
      | accept u k => exact congrArg (wireBytes 1 s.cfg.node 0x11) (handoffPayload_eq u k)
      | released u k => exact congrArg (wireBytes 1 s.cfg.node 0x12) (handoffPayload_eq u k)
      | taken u k => exact congrArg (wireBytes 1 s.cfg.node 0x13) (handoffPayload_eq u k)
      | lost u k => exact congrArg (wireBytes 2 s.cfg.node 0x20) (handoffPayload_eq u k)
      | wanted ds => rfl
      | dispatched k serial order exit reason gross =>
        exact congrArg (wireBytes 2 s.cfg.node 0x23) (dispatchedPayload_eq_fields k serial order exit reason gross)
      | hello => exact congrArg (wireBytes 2 s.cfg.node 0x24) (helloPayload_eq_fields s)
      | status => rfl
      | notice n =>
        refine congrArg (wireBytes 3 s.cfg.node 0x32) ?_
        cases n with
        | palletLost | takenMissing | unknownPallet | duplicateTrack | zeroOverdue | filmLow | laneWait => rfl
        | jam k c => cases c <;> exact noticePayload_jam k _
        | jamCleared k => exact noticePayload_jamCleared k
        | manifestRejected c l serial => cases c <;> exact noticePayload_manifestRejected _ l serial
        | zeroFault k v => cases k <;> exact noticePayload_zeroFault _ v
        | checkFailed k x => cases x <;> rfl
        | wrapFailed k x c1 c2 => cases c1 <;> cases c2 <;> exact noticePayload_wrapFailed k x _ _
        | labelFailed k ds causes => exact noticePayload_labelFailed k ds causes
        | noLane k d l => cases d <;> cases l <;> rfl
    · change frameBytes s e.frame = _
      rw [hstatus]
      exact congrArg (wireBytes 3 s.cfg.node 0x31) (statusPayload_eq_fields hsend)
  · obtain h | h | h := h
    · simp [exec, execLineIdle, h]
    · simp [exec, execLineIdle, Option.isNone_eq_false_iff.2 h]
    · simp [exec, execLineIdle, startAttempt, h]

end Sys2Proof.Machine
end

