-- ==== Proofs/MalformedOffers.lean ====
section
/-! PROOF. What the bytes of a payload must be for its track, digit fields, verdicts and lines to be read (R182). -/

namespace Sys2Proof.Machine

/-! ## The bytes of a payload -/

/-- The number of the byte at an offset, 0 beyond the payload. -/
def byteAt (p : List Byte) (o : Nat) : Nat := (p[o]?.map BitVec.toNat).getD 0

theorem byteAt_lt (p : List Byte) (o : Nat) : byteAt p o < 256 := by
  unfold byteAt
  cases p[o]? with
  | none => decide
  | some b => exact b.isLt

theorem getElem?_bytesAt (p : List Byte) (o m i : Nat) : (bytesAt p o m)[i]? = if i < m then p[o + i]? else none := by
  rw [bytesAt, List.getElem?_take]
  simp [List.getElem?_drop]

theorem byteAt_bytesAt {p : List Byte} {o m i : Nat} (hi : i < m) : byteAt (bytesAt p o m) i = byteAt p (o + i) := by
  rw [byteAt, getElem?_bytesAt, if_pos hi, byteAt]

theorem natAt_one (p : List Byte) (o : Nat) : natAt p o 1 = byteAt p o := by
  have hbytes : bytesAt p o 1 = p[o]?.toList := by rw [bytesAt, List.take_one, List.head?_drop]
  rw [natAt, hbytes, byteAt]
  cases p[o]? <;> simp [beNat]

theorem natAt_two {p : List Byte} {o : Nat} (h : o + 1 < p.length) :
    natAt p o 2 = byteAt p o * 256 + byteAt p (o + 1) := by
  have hbytes : bytesAt p o 2 = [p[o], p[o + 1]] := by
    rw [bytesAt, List.drop_eq_getElem_cons (by omega), List.drop_eq_getElem_cons h]
    rfl
  have hlt : o < p.length := by omega
  rw [natAt, hbytes, byteAt, byteAt, List.getElem?_eq_getElem h, List.getElem?_eq_getElem hlt]
  simp [beNat]

theorem head?_toNat {p : List Byte} (h : p ≠ []) : p.head?.map BitVec.toNat = some (byteAt p 0) := by
  cases p with
  | nil => exact absurd rfl h
  | cons b p => rfl

/-- A track has neither origin 0 nor sequence 0 (R182). -/
theorem track_bytes_of_trackOf {p : List Byte} {k : Track} (hlen : 2 < p.length)
    (h : trackOf (natAt p 1 2) = some k) : byteAt p 1 / 8 ≠ 0 ∧ byteAt p 1 % 8 * 256 + byteAt p 2 ≠ 0 := by
  have hlow := byteAt_lt p 2
  have hvalue : natAt p 1 2 = byteAt p 1 * 256 + byteAt p 2 := natAt_two hlen
  rw [hvalue, trackOf] at h
  split at h
  · cases h
  · rename_i hzero
    simp only [Bool.or_eq_true, decide_eq_true_eq, not_or] at hzero
    omega

/-! ## Digit fields -/

theorem getElem?_nibblesOf {bs : List Byte} {i : Nat} {b : Byte} (h : bs[i]? = some b) :
    (nibblesOf bs)[2 * i]? = some (b.toNat / 16) ∧ (nibblesOf bs)[2 * i + 1]? = some (b.toNat % 16) := by
  induction bs generalizing i with
  | nil => simp at h
  | cons a bs ih =>
    have hcons : nibblesOf (a :: bs) = a.toNat / 16 :: a.toNat % 16 :: nibblesOf bs := rfl
    cases i with
    | zero =>
      obtain rfl : a = b := by simpa using h
      exact ⟨rfl, rfl⟩
    | succ i =>
      have hindex : 2 * (i + 1) = 2 * i + 1 + 1 := by omega
      rw [hcons, hindex]
      simpa using ih (by simpa using h)

theorem lt_ten_of_mapM_digitOf {ns : List Nat} (h : (ns.mapM digitOf).isSome = true) : ∀ n ∈ ns, n < 10 := by
  induction ns with
  | nil => simp
  | cons a ns ih =>
    rw [List.mapM_cons] at h
    by_cases ha : a < 10
    · have hrest : (ns.mapM digitOf).isSome = true := by
        cases hm : ns.mapM digitOf <;> simp [digitOf, ha, hm] at h ⊢
      exact List.forall_mem_cons.2 ⟨ha, ih hrest⟩
    · simp [digitOf, ha] at h

/-- In a digit field that is read no nibble is above 9 (R182). -/
theorem nibbles_of_unpackDigits {p : List Byte} {o m k i : Nat} (h : (unpackDigits k (bytesAt p o m)).isSome = true)
    (hi : i < m) :
    (2 * i < k → byteAt p (o + i) / 16 ≤ 9) ∧ (2 * i + 1 < k → byteAt p (o + i) % 16 ≤ 9) := by
  have hdigits := lt_ten_of_mapM_digitOf h
  rw [← byteAt_bytesAt hi]
  cases hb : (bytesAt p o m)[i]? with
  | none => simp [byteAt, hb]
  | some b =>
    obtain ⟨hhigh, hlow⟩ := getElem?_nibblesOf hb
    have hbyte : byteAt (bytesAt p o m) i = b.toNat := by simp [byteAt, hb]
    rw [hbyte]
    refine ⟨fun hk => ?_, fun hk => ?_⟩
    · have := hdigits _ (List.mem_of_getElem? ((List.getElem?_take_of_lt hk).trans hhigh))
      omega
    · have := hdigits _ (List.mem_of_getElem? ((List.getElem?_take_of_lt hk).trans hlow))
      omega

/-- A whole digit field that is read has no nibble above 9. -/
theorem not_any_nibbles_of_unpackDigits {p : List Byte} {o m : Nat}
    (h : (unpackDigits (2 * m) (bytesAt p o m)).isSome = true) :
    (List.range m).any (fun i => 9 < byteAt p (o + i) / 16 || 9 < byteAt p (o + i) % 16) = false := by
  refine List.any_eq_false.2 fun i hi => ?_
  obtain ⟨hhigh, hlow⟩ := nibbles_of_unpackDigits h (List.mem_range.1 hi)
  have hi := List.mem_range.1 hi
  have := hhigh (by omega)
  have := hlow (by omega)
  simp only [Bool.or_eq_true, decide_eq_true_eq]
  omega

/-! ## Verdicts -/

theorem exists_reason_of_place : ∀ i < 12, ∃ r ∈ reasons, reasonCode r - 1 = i := by decide

/-- A fail set without a reason leaves its twelve bits clear. -/
theorem mod_4096_of_failSetOf_nil {bits : Nat} (h : failSetOf bits = []) : bits % 4096 = 0 := by
  refine Nat.eq_of_testBit_eq fun i => ?_
  rw [show 4096 = 2 ^ 12 from rfl, Nat.testBit_mod_two_pow, Nat.zero_testBit]
  by_cases hi : i < 12
  · obtain ⟨r, hr, rfl⟩ := exists_reason_of_place i hi
    have hbit : bits.testBit (reasonCode r - 1) = false := by simpa using List.filter_eq_nil_iff.1 h r hr
    simp [hbit]
  · simp [hi]

theorem reasonCode_of_reasonOf {n : Nat} {r : Reason} (h : reasonOf n = some r) : reasonCode r = n := by
  unfold reasonOf at h
  split at h
  · cases h
  · have hpos : 1 ≤ n := Nat.one_le_iff_ne_zero.2 ‹_›
    have hn : n - 1 < reasons.length := (List.getElem?_eq_some_iff.1 h).1
    have hn : n ≤ 12 := by simp only [reasons, List.length_cons, List.length_nil] at hn; omega
    interval_cases n <;> cases h <;> rfl

/-- What a check verdict that is read has in its bytes: neither reason nor fail set but with FAIL, and there the primary reason
in the set (R1, R182). -/
theorem checkVerdict_bytes {verdict primary bits : Nat} (h : (checkVerdictOf verdict primary bits).isSome = true) :
    (verdict ≠ 2 ∧ verdict < 2 ∧ primary = 0 ∧ bits % 4096 = 0) ∨
    (verdict = 2 ∧ 1 ≤ primary ∧ primary ≤ 12 ∧ bits % 4096 / 2 ^ (primary - 1) % 2 = 1) := by
  have hempty : (primary = 0 && (failSetOf bits).isEmpty) = true → primary = 0 ∧ bits % 4096 = 0 := by
    intro hc
    simp only [Bool.and_eq_true, decide_eq_true_eq, List.isEmpty_iff] at hc
    exact ⟨hc.1, mod_4096_of_failSetOf_nil hc.2⟩
  match verdict with
  | 0 =>
    refine .inl ⟨by decide, by decide, hempty ?_⟩
    by_contra hno
    simp [checkVerdictOf, hno] at h
  | 1 =>
    refine .inl ⟨by decide, by decide, hempty ?_⟩
    by_contra hno
    simp [checkVerdictOf, hno] at h
  | 2 =>
    refine .inr ⟨rfl, ?_⟩
    cases hr : reasonOf primary with
    | none => simp [checkVerdictOf, hr] at h
    | some r =>
      obtain rfl := reasonCode_of_reasonOf hr
      obtain ⟨hlow, hhigh⟩ := reasonCode_pos r
      have hmem : (failSetOf bits).contains r = true := by
        by_contra hno
        rw [checkVerdictOf, hr] at h
        simp only [hno, Bool.false_eq_true, if_false, Option.isSome_none] at h
      have hbit : bits.testBit (reasonCode r - 1) = true := by
        simpa [failSetOf, mem_reasons] using hmem
      have hmod : (bits % 2 ^ 12).testBit (reasonCode r - 1) = true := by
        rw [Nat.testBit_mod_two_pow, hbit, Bool.and_true, decide_eq_true_eq]
        omega
      rw [Nat.testBit_eq_decide_div_mod_eq, decide_eq_true_eq] at hmod
      exact ⟨hlow, hhigh, hmod⟩
  | n + 3 => simp [checkVerdictOf] at h

theorem wrapVerdict_byte {b : Nat} (h : (wrapVerdictOf b).isSome = true) :
    b < 64 ∧ (b / 16 = 1 → b % 16 ≠ 0) ∧ (b / 16 ≠ 1 → b % 16 = 0) := by
  unfold wrapVerdictOf at h
  split at h
  · omega
  · split at h
    · cases h
    · omega
  · omega
  · omega
  · cases h

theorem labelVerdict_byte {b : Nat} {code : List Byte} (h : (labelVerdictOf b code).isSome = true) :
    b < 64 ∧ (b / 16 = 1 → 1 ≤ b % 16 ∧ b % 16 ≤ 3 ∧ (unpackDigits 13 code).isSome = true) ∧
      (b / 16 ≠ 1 → b % 16 = 0) := by
  unfold labelVerdictOf at h
  split at h
  · omega
  · split at h
    · cases h
    · rename_i hn
      simp only [Bool.or_eq_true, decide_eq_true_eq, not_or] at hn
      rw [Option.isSome_map] at h
      exact ⟨by omega, fun _ => ⟨by omega, by omega, h⟩, fun hne => by omega⟩
  · omega
  · omega
  · cases h

/-! ## Lines -/

theorem bytesAt_bytesAt {p : List Byte} {off m o n : Nat} (h : o + n ≤ m) :
    bytesAt (bytesAt p off m) o n = bytesAt p (off + o) n := by
  simp only [bytesAt, List.drop_take, List.take_take, List.drop_drop]
  congr 1
  omega

theorem unitClass_of_isSome {c : Nat} (h : (unitClassOf c).isSome = true) : c ≠ 0 ∧ c ≤ 3 := by
  match c with
  | 0 => cases h
  | 1 | 2 | 3 => decide
  | n + 4 => cases h

/-- A line that is read has six article digits and a unit class (R182). -/
theorem line_bytes {p : List Byte} {off : Nat} (h : (lineOf (bytesAt p off 10)).isSome = true) :
    (byteAt p (off + 3) ≠ 0 ∧ byteAt p (off + 3) ≤ 3) ∧
      (unpackDigits (2 * 3) (bytesAt p off 3)).isSome = true := by
  have harticle : bytesAt (bytesAt p off 10) 0 3 = bytesAt p off 3 := bytesAt_bytesAt (by decide)
  have hclass : natAt (bytesAt p off 10) 3 1 = byteAt p (off + 3) := by rw [natAt_one, byteAt_bytesAt (by decide)]
  rw [lineOf, harticle, hclass] at h
  cases hd : unpackDigits 6 (bytesAt p off 3) with
  | none => simp [hd] at h
  | some ds =>
    refine ⟨unitClass_of_isSome ?_, rfl⟩
    cases hu : unitClassOf (byteAt p (off + 3)) with
    | none => simp [hd, hu] at h
    | some c => rfl

theorem lineOf_of_linesOf {p : List Byte} {off n i : Nat} (h : (linesOf p off n).isSome = true) (hi : i < n) :
    (lineOf (bytesAt p (off + 10 * i) 10)).isSome = true := by
  induction n generalizing off i with
  | zero => omega
  | succ n ih =>
    rw [linesOf] at h
    cases hl : lineOf (bytesAt p off 10) with
    | none => simp [hl] at h
    | some l =>
      cases hr : linesOf p (off + 10) n with
      | none => simp [hl, hr] at h
      | some rest =>
        cases i with
        | zero => simp [hl]
        | succ i =>
          have hshift : off + 10 * (i + 1) = off + 10 + 10 * i := by omega
          rw [hshift]
          exact ih (by rw [hr]; rfl) (by omega)

/-! ## An OFFER -/

/-- What the payload of an OFFER has where it is read as a record, field by field. -/
structure OfferReads (p : List Byte) : Prop where
  track : (trackOf (natAt p 1 2)).isSome = true
  duty : (dutyOf (byteAt p 4 / 64)).isSome = true
  laneClass : (laneClassOf (byteAt p 4 / 16 % 4)).isSome = true
  serial : (digitsIf ((byteAt p 3).testBit 7) 10 (bytesAt p 5 5)).isSome = true
  order : (digitsIf ((byteAt p 3).testBit 6) 8 (bytesAt p 10 4)).isSome = true
  check : (checkVerdictOf (byteAt p 28) (byteAt p 29) (natAt p 30 2)).isSome = true
  wrap : (wrapVerdictOf (byteAt p 32)).isSome = true
  label : (labelVerdictOf (byteAt p 33) (bytesAt p 34 7)).isSome = true
  lines : (linesOf p 42 (byteAt p 16)).isSome = true
  length : p.length = 42 + 10 * byteAt p 16
  hops : byteAt p 41 ≤ 15

theorem offerReads_of_offerRecord {p : List Byte} {r : TravelRecord} (h : offerRecord p = some r) : OfferReads p := by
  simp only [offerRecord, natAt_one, bind, Option.bind_eq_some_iff] at h
  obtain ⟨_, htrack, _, hduty, _, hlane, _, hserial, _, horder, _, hcheck, _, hwrap, _, hlabel, _, hlines, h⟩ := h
  split at h
  · rename_i hend
    simp only [Bool.and_eq_true, decide_eq_true_eq] at hend
    exact ⟨by rw [htrack]; rfl, by rw [hduty]; rfl, by rw [hlane]; rfl, by rw [hserial]; rfl, by rw [horder]; rfl,
      by rw [hcheck]; rfl, by rw [hwrap]; rfl, by rw [hlabel]; rfl, by rw [hlines]; rfl, hend.1, hend.2⟩
  · cases h

theorem unpackDigits_of_digitsIf {b : Bool} {k : Nat} {bs : List Byte} (h : (digitsIf b k bs).isSome = true)
    (hb : b = true) : (unpackDigits k bs).isSome = true := by
  simpa [digitsIf, hb] using h

/-- What R182 refuses in an OFFER but its track, byte by byte (Table 12-3). -/
def OfferMalformed (byte : Nat → Nat) (length : Nat) : Prop :=
  length ≠ 42 + 10 * byte 16 ∨ 15 < byte 41 ∨ byte 4 / 64 = 3 ∨ byte 4 / 16 % 4 = 3 ∨
    (128 ≤ byte 3 ∧ (List.range 5).any (fun i => 9 < byte (5 + i) / 16 || 9 < byte (5 + i) % 16) = true) ∨
    (64 ≤ byte 3 % 128 ∧ (List.range 4).any (fun i => 9 < byte (10 + i) / 16 || 9 < byte (10 + i) % 16) = true) ∨
    2 < byte 28 ∨ 12 < byte 29 ∨ (byte 28 ≠ 2 ∧ (byte 29 ≠ 0 ∨ byte 30 % 16 * 256 + byte 31 ≠ 0)) ∨
    (byte 28 = 2 ∧ (byte 29 = 0 ∨ (byte 30 % 16 * 256 + byte 31) / 2 ^ (byte 29 - 1) % 2 = 0)) ∨
    64 ≤ byte 32 ∨ (byte 32 / 16 = 1 ∧ byte 32 % 16 = 0) ∨
    (byte 32 / 16 ≠ 1 ∧ byte 32 % 16 ≠ 0) ∨ 64 ≤ byte 33 ∨
    (byte 33 / 16 = 1 ∧ (byte 33 % 16 = 0 ∨ 3 < byte 33 % 16)) ∨ (byte 33 / 16 ≠ 1 ∧ byte 33 % 16 ≠ 0) ∨
    (byte 33 / 16 = 1 ∧ ((List.range 7).any (fun i => 9 < byte (34 + i) / 16) ||
      (List.range 6).any (fun i => 9 < byte (34 + i) % 16)) = true) ∨
    (List.range (byte 16)).any (fun i => byte (45 + 10 * i) = 0 || 3 < byte (45 + 10 * i) ||
      (List.range 3).any (fun j => 9 < byte (42 + 10 * i + j) / 16 || 9 < byte (42 + 10 * i + j) % 16)) = true

section
variable {p : List Byte} (h : OfferReads p)
include h

theorem OfferReads.codes : byteAt p 4 / 64 ≠ 3 ∧ byteAt p 4 / 16 % 4 ≠ 3 := by
  refine ⟨fun hd => ?_, fun hl => ?_⟩
  · have := h.duty
    rw [hd] at this
    cases this
  · have := h.laneClass
    rw [hl] at this
    cases this

theorem OfferReads.serial_digits (hb : 128 ≤ byteAt p 3) :
    (List.range 5).any (fun i => 9 < byteAt p (5 + i) / 16 || 9 < byteAt p (5 + i) % 16) = false := by
  have hlt := byteAt_lt p 3
  refine not_any_nibbles_of_unpackDigits (m := 5) (unpackDigits_of_digitsIf h.serial ?_)
  rw [Nat.testBit_eq_decide_div_mod_eq, decide_eq_true_eq]
  omega

theorem OfferReads.order_digits (hb : 64 ≤ byteAt p 3 % 128) :
    (List.range 4).any (fun i => 9 < byteAt p (10 + i) / 16 || 9 < byteAt p (10 + i) % 16) = false := by
  refine not_any_nibbles_of_unpackDigits (m := 4) (unpackDigits_of_digitsIf h.order ?_)
  rw [Nat.testBit_eq_decide_div_mod_eq, decide_eq_true_eq]
  omega

theorem OfferReads.failSet : natAt p 30 2 % 4096 = byteAt p 30 % 16 * 256 + byteAt p 31 := by
  have hlen := h.length
  have hlt := byteAt_lt p 31
  have hvalue : natAt p 30 2 = byteAt p 30 * 256 + byteAt p 31 := natAt_two (by omega)
  omega

theorem OfferReads.label_digits (hb : byteAt p 33 / 16 = 1) : ((List.range 7).any (fun i => 9 < byteAt p (34 + i) / 16) ||
    (List.range 6).any (fun i => 9 < byteAt p (34 + i) % 16)) = false := by
  obtain ⟨-, hlabelled, -⟩ := labelVerdict_byte h.label
  obtain ⟨-, -, hcode⟩ := hlabelled hb
  rw [Bool.or_eq_false_iff]
  refine ⟨List.any_eq_false.2 fun i hi => ?_, List.any_eq_false.2 fun i hi => ?_⟩
  · have hi := List.mem_range.1 hi
    have := (nibbles_of_unpackDigits hcode hi).1 (by omega)
    simpa using this
  · have hi := List.mem_range.1 hi
    have := (nibbles_of_unpackDigits hcode (by omega : i < 7)).2 (by omega)
    simpa using this

theorem OfferReads.line_codes : (List.range (byteAt p 16)).any (fun i =>
    byteAt p (45 + 10 * i) = 0 || 3 < byteAt p (45 + 10 * i) || (List.range 3).any (fun j =>
      9 < byteAt p (42 + 10 * i + j) / 16 || 9 < byteAt p (42 + 10 * i + j) % 16)) = false := by
  refine List.any_eq_false.2 fun i hi => ?_
  obtain ⟨⟨hpos, hle⟩, harticle⟩ := line_bytes (lineOf_of_linesOf h.lines (List.mem_range.1 hi))
  have hoff : 42 + 10 * i + 3 = 45 + 10 * i := by omega
  rw [hoff] at hpos hle
  rw [not_any_nibbles_of_unpackDigits harticle]
  simp only [Bool.or_false, Bool.or_eq_true, decide_eq_true_eq]
  omega

/-- An OFFER that is read has nothing that R182 refuses. -/
theorem OfferReads.not_malformed : ¬OfferMalformed (byteAt p) p.length := by
  obtain ⟨hduty, hlane⟩ := h.codes
  obtain ⟨hwrap, hwrapped, hunwrapped⟩ := wrapVerdict_byte h.wrap
  obtain ⟨hlabel, hlabelled, hunlabelled⟩ := labelVerdict_byte h.label
  have hcheck := checkVerdict_bytes h.check
  rw [h.failSet] at hcheck
  rintro (hx | hx | hx | hx | ⟨hb, hx⟩ | ⟨hb, hx⟩ | hx | hx | ⟨hb, hx⟩ | ⟨hb, hx⟩ | hx | ⟨hb, hx⟩ | ⟨hb, hx⟩ | hx |
    ⟨hb, hx⟩ | ⟨hb, hx⟩ | ⟨hb, hx⟩ | hx)
  · exact hx h.length
  · exact absurd h.hops (by omega)
  · exact hduty hx
  · exact hlane hx
  · simp [h.serial_digits hb] at hx
  · simp [h.order_digits hb] at hx
  · omega
  · omega
  · omega
  · omega
  · omega
  · exact hwrapped hb hx
  · exact hx (hunwrapped hb)
  · omega
  · have := hlabelled hb
    omega
  · exact hx (hunlabelled hb)
  · simp [h.label_digits hb] at hx
  · simp [h.line_codes] at hx

end

end Sys2Proof.Machine
end

