-- ==== Proofs/ReceiveFilter.lean ====
section
/-! PROOF. Which bytes heard are a good frame (R56), which of those the filter takes (R62, R63), and what of them enters the
receive queue (R64, R182); O7. -/

namespace Sys2Proof.Machine

/-! ## Good frames (R56) -/

/-- The header and payload of a frame, which its CRC covers. -/
def frameBody (cls sender kind : Nat) (p : List Byte) : List Byte :=
  [BitVec.ofNat 8 (cls % 8 * 32 + sender % 32), BitVec.ofNat 8 kind, BitVec.ofNat 8 p.length] ++ p

section
variable {cls n code : Nat} {p more : List Byte}

@[simp] theorem frameBody_length : (frameBody cls n code p).length = p.length + 3 := by simp [frameBody]

theorem wireBytes_eq : wireBytes cls n code p =
    frameBody cls n code p ++ beBytes 2 (crc16 (frameBody cls n code p)).toNat := rfl

theorem toNat_length (hlen : p.length ≤ 112) : (BitVec.ofNat 8 p.length).toNat = p.length := by
  rw [BitVec.toNat_ofNat]
  omega

/-- A good frame has its whole payload and two bytes more. -/
theorem length_of_goodFrame {a b l : Byte} {rest : List Byte} (h : (goodFrame (a :: b :: l :: rest)).isSome = true) :
    l.toNat + 2 ≤ rest.length := by
  simp only [goodFrame] at h
  split at h
  · rename_i hcrc
    have hlen := congrArg List.length (eq_of_beq hcrc)
    simp only [beBytes_length, List.length_take, List.length_drop] at hlen
    omega
  · cases h

/-- A frame cut short is none. -/
theorem goodFrame_take (hlen : p.length ≤ 112) {i : Nat} (hi : i < p.length + 5) :
    goodFrame ((wireBytes cls n code p).take i) = none := by
  match i, hi with
  | 0, _ | 1, _ | 2, _ => rfl
  | i + 3, hi =>
    rw [← Option.not_isSome_iff_eq_none]
    intro hgood
    have hshort := length_of_goodFrame hgood
    rw [toNat_length hlen, List.length_take] at hshort
    omega

/-- A frame whose CRC does not match is none. -/
theorem goodFrame_wrongCrc (hlen : p.length ≤ 112) (hmore : more.length = 2)
    (hne : more ≠ (wireBytes cls n code p).drop (p.length + 3)) :
    goodFrame ((wireBytes cls n code p).take (p.length + 3) ++ more) = none := by
  rw [wireBytes_eq, List.drop_left' frameBody_length] at hne
  rw [wireBytes_eq, List.take_left' frameBody_length]
  simp only [frameBody, List.cons_append, List.nil_append, goodFrame, toNat_length hlen, List.take_left, List.drop_left,
    List.take_of_length_le (Nat.le_of_eq hmore)]
  rw [if_neg]
  simpa using fun hcrc => hne hcrc.symm

end

/-! ## The filter (R62, R63) -/

@[simp] theorem kindOf_kindCode (k : Kind) : kindOf (kindCode k) = some k := by cases k <;> rfl

theorem kindCode_injective : Function.Injective kindCode := fun a b h =>
  Option.some.inj (by rw [← kindOf_kindCode a, h, kindOf_kindCode b])

theorem kindCode_of_kindOf {code : Nat} {k : Kind} (h : kindOf code = some k) : kindCode k = code := by
  simpa using List.find?_some h

/-- A code among those of certain kinds is that of one of these kinds. -/
theorem mem_kinds_of_code {k : Kind} {ks : List Kind} (h : kindCode k ∈ ks.map kindCode) : k ∈ ks :=
  (List.mem_map_of_injective kindCode_injective).1 h

/-- A frame heard passes the six tests of the filter and is not malformed: it is taken as `r`. -/
structure Taken (s : State) (f : Heard) (k : Kind) (r : RxFrame) : Prop where
  kind : f.kind = kindCode k
  sender : f.sender ≠ s.cfg.node ∧ f.sender ≠ 0
  service : serviceTakes s k = true
  cls : f.cls = kindClass k
  length : lengthAllowed k f.payload.length = true
  taker : takenBy s k f = true
  content : decodeFrame k f = some r

theorem heardFrame_iff_taken {s : State} {bytes : List Byte} {f : Heard} {r : RxFrame} (hf : goodFrame bytes = some f) :
    heardFrame s bytes = some r ↔ ∃ k, Taken s f k r := by
  rw [heardFrame, hf, Option.bind_some, Option.bind_eq_some_iff]
  constructor
  · rintro ⟨k, hfilter, hdecode⟩
    unfold filterFrame at hfilter
    split at hfilter
    · rename_i x hkind
      split at hfilter
      · rename_i htests
        obtain rfl := Option.some.inj hfilter
        simp only [Bool.and_eq_true, bne_iff_ne, decide_eq_true_eq, and_assoc] at htests
        obtain ⟨hnode, hzero, hservice, hcls, hlen, htaker⟩ := htests
        exact ⟨_, (kindCode_of_kindOf hkind).symm, ⟨hnode, hzero⟩, hservice, hcls, hlen, htaker, hdecode⟩
      · cases hfilter
    · cases hfilter
  · rintro ⟨k, h⟩
    refine ⟨k, ?_, h.content⟩
    obtain ⟨hnode, hzero⟩ := h.sender
    simp [filterFrame, h.kind, hnode, hzero, h.service, h.cls, h.length, h.taker]

/-- Table 3-2 with the lengths of Table 12-2: code, class and lengths of each kind that a station takes. -/
def frameRows : List (Nat × Nat × List Nat) :=
  [(0x01, 0, [1]), (0x02, 0, [0]), (0x03, 0, [0]), (0x10, 1, [42, 52, 62, 72, 82, 92, 102]), (0x11, 1, [3]),
    (0x12, 1, [3]), (0x13, 1, [3]), (0x20, 2, [3]), (0x21, 2, [14, 24, 34, 44, 54, 64, 74]), (0x24, 2, [3]),
    (0x30, 3, [1])]

/-- The kinds of those rows. -/
def takenKinds : List Kind :=
  [.hold, .resume, .clear, .offer, .accept, .released, .taken, .lost, .manifest, .hello, .query]

theorem frameRow_of_lengthAllowed {k : Kind} {m : Nat} (hk : k ∈ takenKinds) (hlen : lengthAllowed k m = true) :
    ∃ q ∈ frameRows, kindCode k = q.1 ∧ kindClass k = q.2.1 ∧ m ∈ q.2.2 := by
  cases k with
  | wanted | dispatched | status | notice => exact absurd hk (by decide)
  | offer =>
    simp only [lengthAllowed, Bool.and_eq_true, decide_eq_true_eq] at hlen
    refine ⟨(0x10, 1, [42, 52, 62, 72, 82, 92, 102]), by decide, rfl, rfl, ?_⟩
    simp only [List.mem_cons, List.not_mem_nil, or_false]
    omega
  | manifest =>
    simp only [lengthAllowed, Bool.and_eq_true, decide_eq_true_eq] at hlen
    refine ⟨(0x21, 2, [14, 24, 34, 44, 54, 64, 74]), by decide, rfl, rfl, ?_⟩
    simp only [List.mem_cons, List.not_mem_nil, or_false]
    omega
  | hold | resume | clear | accept | released | taken | lost | hello | query =>
    obtain rfl := of_decide_eq_true hlen
    decide

theorem fromNeighbour_iff {s : State} {n : Nat} {f : Heard} :
    fromNeighbour s n f = true ↔ byteAt f.payload 0 = s.cfg.node ∧ f.sender = n := by
  rw [fromNeighbour, natAt_one, Bool.and_eq_true, decide_eq_true_eq, decide_eq_true_eq]

section
variable {s : State} {f : Heard} {k : Kind} {r : RxFrame} (h : Taken s f k r)
include h

/-- The kinds that no station takes do not pass. -/
theorem Taken.kind_mem : k ∈ takenKinds := by
  have htaker := h.taker
  cases k with
  | wanted | dispatched | status | notice => cases htaker
  | _ => decide

theorem Taken.row : ∃ q ∈ frameRows, f.kind = q.1 ∧ f.cls = q.2.1 ∧ f.payload.length ∈ q.2.2 := by
  rw [h.kind, h.cls]
  exact frameRow_of_lengthAllowed h.kind_mem h.length

theorem Taken.code_mem : f.kind ∈ [0x01, 0x02, 0x03, 0x10, 0x11, 0x12, 0x13, 0x20, 0x21, 0x24, 0x30] := by
  rw [h.kind]
  exact List.mem_map_of_mem h.kind_mem

theorem Taken.kind_of_code {ks : List Kind} (hc : f.kind ∈ ks.map kindCode) : k ∈ ks :=
  mem_kinds_of_code (h.kind ▸ hc)

theorem Taken.kind_eq {x : Kind} (hc : f.kind = kindCode x) : k = x := kindCode_injective (h.kind.symm.trans hc)

theorem Taken.inService_or : s.service = .inService ∨ (s.service = .outOfService ∧ f.kind = 0x30) := by
  have hservice := h.service
  simp only [serviceTakes, inService, Bool.or_eq_true, Bool.and_eq_true, decide_eq_true_eq] at hservice
  obtain hin | ⟨hout, rfl⟩ := hservice
  · exact .inl hin
  · exact .inr ⟨hout, h.kind⟩

theorem Taken.upstream_target (hc : f.kind ∈ [0x10, 0x12]) :
    byteAt f.payload 0 = s.cfg.node ∧ f.sender = upstream s := by
  have htaker := h.taker
  have hk := h.kind_of_code (ks := [.offer, .released]) hc
  simp only [List.mem_cons, List.not_mem_nil, or_false] at hk
  obtain rfl | rfl := hk <;> exact fromNeighbour_iff.1 htaker

theorem Taken.downstream_target (hc : f.kind ∈ [0x11, 0x13, 0x20]) :
    byteAt f.payload 0 = s.cfg.node ∧ f.sender = downstream s := by
  have htaker := h.taker
  have hk := h.kind_of_code (ks := [.accept, .taken, .lost]) hc
  simp only [List.mem_cons, List.not_mem_nil, or_false] at hk
  obtain rfl | rfl | rfl := hk <;> exact fromNeighbour_iff.1 htaker

theorem Taken.from_station (hc : f.kind ∈ [0x01, 0x02, 0x24]) : f.sender ≤ 24 := by
  have htaker := h.taker
  have hk := h.kind_of_code (ks := [.hold, .resume, .hello]) hc
  simp only [List.mem_cons, List.not_mem_nil, or_false] at hk
  have hstation : fromStation f = true := by obtain rfl | rfl | rfl := hk <;> exact htaker
  simp only [fromStation, Bool.and_eq_true, decide_eq_true_eq] at hstation
  exact hstation.2

theorem Taken.check_role (hc : f.kind = 0x21) : hasRole s .check = true := by
  obtain rfl := h.kind_eq (x := .manifest) hc
  exact h.taker

/-- A handoff frame has a target and a track. -/
theorem Taken.handoff_length (hc : f.kind ∈ [0x10, 0x11, 0x12, 0x13, 0x20]) : 2 < f.payload.length := by
  have hlen := h.length
  have hk := h.kind_of_code (ks := [.offer, .accept, .released, .taken, .lost]) hc
  simp only [List.mem_cons, List.not_mem_nil, or_false] at hk
  obtain rfl | rfl | rfl | rfl | rfl := hk <;>
    simp only [lengthAllowed, Bool.and_eq_true, decide_eq_true_eq] at hlen <;> omega

theorem Taken.handoff_target (hc : f.kind ∈ [0x10, 0x11, 0x12, 0x13, 0x20]) :
    f.payload.head?.map BitVec.toNat = some s.cfg.node := by
  have hne : f.payload ≠ [] := List.length_pos_iff.1 ((Nat.zero_lt_succ 1).trans (h.handoff_length hc))
  have htarget : byteAt f.payload 0 = s.cfg.node := by
    by_cases hup : f.kind ∈ [0x10, 0x12]
    · exact (h.upstream_target hup).1
    · refine (h.downstream_target ?_).1
      simp only [List.mem_cons, List.not_mem_nil, or_false] at hc hup ⊢
      omega
  rw [head?_toNat hne, htarget]

theorem Taken.handoff_track (hc : f.kind ∈ [0x10, 0x11, 0x12, 0x13, 0x20]) :
    byteAt f.payload 1 / 8 ≠ 0 ∧ byteAt f.payload 1 % 8 * 256 + byteAt f.payload 2 ≠ 0 := by
  have hcontent := h.content
  have hlen := h.handoff_length hc
  have hk := h.kind_of_code (ks := [.offer, .accept, .released, .taken, .lost]) hc
  simp only [List.mem_cons, List.not_mem_nil, or_false] at hk
  obtain ⟨t, ht⟩ : ∃ t, trackOf (natAt f.payload 1 2) = some t := by
    obtain rfl | rfl | rfl | rfl | rfl := hk <;> obtain ⟨x, hx, -⟩ := Option.map_eq_some_iff.1 hcontent
    · exact Option.isSome_iff_exists.1 (offerReads_of_offerRecord hx).track
    all_goals exact ⟨x, hx⟩
  exact track_bytes_of_trackOf hlen ht

theorem Taken.query_target (hc : f.kind = 0x30) :
    f.payload.head?.map BitVec.toNat = some s.cfg.node ∨ f.payload.head? = some 0 := by
  obtain rfl := h.kind_eq (x := .query) hc
  have htaker := h.taker
  obtain ⟨b, hb⟩ := List.length_eq_one_iff.1 (of_decide_eq_true h.length)
  simp only [takenBy, natAt_one, hb, Bool.or_eq_true, decide_eq_true_eq] at htaker ⊢
  exact htaker.imp (fun hnode => congrArg some hnode) (fun hzero => congrArg some (BitVec.eq_of_toNat_eq hzero))

theorem Taken.hold_cause (hc : f.kind = 0x01) : byteAt f.payload 0 = 1 ∨ byteAt f.payload 0 = 2 := by
  obtain rfl := h.kind_eq (x := .hold) hc
  obtain ⟨c, hcause, -⟩ := Option.map_eq_some_iff.1 h.content
  rw [natAt_one] at hcause
  unfold holdCauseOf at hcause
  split at hcause
  · exact .inl ‹_›
  · exact .inr ‹_›
  · cases hcause

theorem Taken.hello_fields (hc : f.kind = 0x24) : (1 ≤ byteAt f.payload 0 ∧ byteAt f.payload 0 ≤ 5) ∧
    byteAt f.payload 1 ≤ 24 ∧ byteAt f.payload 2 ≤ 24 := by
  obtain rfl := h.kind_eq (x := .hello) hc
  have hcontent := h.content
  simp only [decodeFrame, natAt_one] at hcontent
  split at hcontent
  · rename_i hfields
    simp only [Bool.and_eq_true, decide_eq_true_eq, and_assoc] at hfields
    obtain ⟨hrole, hup, hdown⟩ := hfields
    exact ⟨(roleOf_isSome_iff _).1 hrole, hup, hdown⟩
  · cases hcontent

theorem Taken.offerReads (hc : f.kind = 0x10) : OfferReads f.payload := by
  obtain rfl := h.kind_eq (x := .offer) hc
  obtain ⟨x, hx, -⟩ := Option.map_eq_some_iff.1 h.content
  exact offerReads_of_offerRecord hx

end

/-! ## What a frame heard brings about (R63, R64) -/

section
variable {s : State} {bytes : List Byte}

theorem exec_of_heardFrame_none (h : heardFrame s bytes = none) : exec (.frameReceived bytes) s = .next s := by
  simp [exec, execFrameReceived, h]

theorem exec_of_goodFrame_none (h : goodFrame bytes = none) : exec (.frameReceived bytes) s = .next s :=
  exec_of_heardFrame_none (by simp [heardFrame, h])

theorem exec_of_heardFrame_some {r : RxFrame} (h : heardFrame s bytes = some r) :
    exec (.frameReceived bytes) s = .next (s.setLine (storeFrame r s.line)) := by
  simp [exec, execFrameReceived, h]

theorem exec_append {more : List Byte} {f : Heard} (h : goodFrame bytes = some f) :
    exec (.frameReceived (bytes ++ more)) s = exec (.frameReceived bytes) s := by
  have hheard : heardFrame s (bytes ++ more) = heardFrame s bytes := by rw [heardFrame, goodFrame_append h, heardFrame, h]
  simp [exec, execFrameReceived, hheard]

theorem storeFrame_room {r : RxFrame} {l : LineCtl} (h : l.rx.length < 4) :
    storeFrame r l = { l with rx := l.rx ++ [r] } := if_pos h

theorem storeFrame_tx (r : RxFrame) (l : LineCtl) :
    (storeFrame r l).tx = l.tx ∧ (storeFrame r l).txOverrun = l.txOverrun := by
  unfold storeFrame
  split <;> exact ⟨rfl, rfl⟩

theorem storeFrame_full {r : RxFrame} {l : LineCtl} (h : 4 ≤ l.rx.length) : storeFrame r l = markRxOverrun l :=
  if_neg (Nat.not_lt.2 h)

end

/-! ## The frames a station takes, kind by kind (Table 3-2) -/

theorem length_le_of_lengthAllowed {k : Kind} {m : Nat} (h : lengthAllowed k m = true) : m ≤ 112 := by
  cases k <;> simp only [lengthAllowed, Bool.and_eq_true, decide_eq_true_eq] at h <;> omega

theorem serviceTakes_of_inService {s : State} (h : inService s = true) (k : Kind) : serviceTakes s k = true := by
  simp [serviceTakes, h]

/-- A good frame of a kind, in the layout of 12.1. -/
def sentFrame (k : Kind) (n : Nat) (p : List Byte) : Heard :=
  { cls := kindClass k, sender := n, kind := kindCode k, payload := p }

section
variable {s : State} {n : Nat} {k : Kind} {p : List Byte} {r : RxFrame}

/-- A frame that the filter takes enters a queue with a free place. -/
theorem exec_of_taken (hroom : s.line.rx.length < 4) (hn : n < 32) (hne : n ≠ s.cfg.node) (hpos : 1 ≤ n)
    (hservice : serviceTakes s k = true) (hlen : lengthAllowed k p.length = true)
    (htaker : takenBy s k (sentFrame k n p) = true) (hcontent : decodeFrame k (sentFrame k n p) = some r) :
    exec (.frameReceived (wireBytes (kindClass k) n (kindCode k) p)) s =
      .next (s.setLine { s.line with rx := s.line.rx ++ [r] }) := by
  have hgood : goodFrame (wireBytes (kindClass k) n (kindCode k) p) = some (sentFrame k n p) :=
    goodFrame_wireBytes (by cases k <;> decide) hn (by cases k <;> decide)
      (Nat.lt_of_le_of_lt (length_le_of_lengthAllowed hlen) (by decide))
  have htaken : Taken s (sentFrame k n p) k r :=
    ⟨rfl, ⟨hne, Nat.one_le_iff_ne_zero.1 hpos⟩, hservice, rfl, hlen, htaker, hcontent⟩
  rw [exec_of_heardFrame_some ((heardFrame_iff_taken hgood).2 ⟨k, htaken⟩), storeFrame_room hroom]

theorem fromStation_sentFrame (hpos : 1 ≤ n) (hn : n ≤ 24) : fromStation (sentFrame k n p) = true := by
  simp [fromStation, sentFrame, hpos, hn]

/-- The payload of a short handoff frame reads back (R182). -/
theorem fromNeighbour_sentFrame {m : Nat} {t : Track} (hnode : s.cfg.node ≤ 24) (hm : n = m) :
    fromNeighbour s m (sentFrame k n (BitVec.ofNat 8 s.cfg.node :: trackBytes t)) = true := by
  have hbyte : (BitVec.ofNat 8 s.cfg.node).toNat = s.cfg.node := by
    rw [BitVec.toNat_ofNat]
    omega
  exact fromNeighbour_iff.2 ⟨hbyte, hm⟩

theorem trackOf_handoffPayload {b : Byte} {t : Track} (ht : isTrack t = true) :
    trackOf (natAt (b :: trackBytes t) 1 2) = some t := by
  simp only [isTrack, isNode, Bool.and_eq_true, decide_eq_true_eq, and_assoc] at ht
  obtain ⟨horigin, horigin', hseq, hseq'⟩ := ht
  exact trackOf_trackBytes ⟨horigin, horigin'⟩ ⟨hseq, hseq'⟩

theorem lengthAllowed_manifest {m : Nat} (h : [14, 24, 34, 44, 54, 64, 74].contains m = true) :
    lengthAllowed .manifest m = true := by
  simp only [List.contains_iff_mem, List.mem_cons, List.not_mem_nil, or_false] at h
  obtain rfl | rfl | rfl | rfl | rfl | rfl | rfl := h <;> rfl

theorem roleOf_roleCode (role : Role) : roleOf (roleCode role) = some role := by cases role <;> rfl

theorem decodeFrame_hello {role : Role} {u d : Nat} (hu : u ≤ 24) (hd : d ≤ 24) : decodeFrame .hello
    (sentFrame .hello n [BitVec.ofNat 8 (roleCode role), BitVec.ofNat 8 u, BitVec.ofNat 8 d]) = some (.hello n) := by
  have hup : (BitVec.ofNat 8 u).toNat = u := by rw [BitVec.toNat_ofNat]; omega
  have hdown : (BitVec.ofNat 8 d).toNat = d := by rw [BitVec.toNat_ofNat]; omega
  have hrole : (BitVec.ofNat 8 (roleCode role)).toNat = roleCode role := by cases role <;> rfl
  simp [decodeFrame, sentFrame, natAt_one, byteAt, hup, hdown, hrole, roleOf_roleCode, hu, hd]

theorem takenBy_query {x : Nat} (hnode : s.cfg.node ≤ 24) (hx : x = s.cfg.node ∨ x = 0) :
    takenBy s .query (sentFrame .query n [BitVec.ofNat 8 x]) = true := by
  have hbyte : (BitVec.ofNat 8 x).toNat = x := by rw [BitVec.toNat_ofNat]; omega
  simpa [takenBy, sentFrame, natAt_one, byteAt, hbyte] using hx

theorem serviceTakes_query (h : maySend s = true) : serviceTakes s .query = true := by
  simpa [serviceTakes, inService, maySend] using h

end

/-- Settles O7: a frame that is taken satisfies every test, so one that fails a test is not; and each kind in its layout passes
them all. -/
theorem heardFramesEnterTheReceiveQueue : Obligations.HeardFramesEnterTheReceiveQueue := by
  intro s bytes p n cls code u d c k role hear more byte hbyte
  obtain rfl : byte = byteAt p := hbyte
  refine ⟨exec_of_heardFrame_none, fun r hr => ?_, fun hn hcls hcode hlen hhear => ?_,
    fun hroom hpos hn hne hnode hk hu hd => ⟨fun hin => ?_, fun hsend => ?_⟩⟩
  · obtain ⟨htx, hover⟩ := storeFrame_tx r s.line
    refine ⟨_, exec_of_heardFrame_some hr, fun b => by cases b <;> simp [Block.same], htx, hover,
      fun hlt => by rw [State.setLine_line, storeFrame_room hlt], fun hge => ?_⟩
    rw [State.setLine_line, storeFrame_full hge]
    exact ⟨rfl, rfl, rfl⟩
  · subst hhear
    have hgood := goodFrame_wireBytes hcls hn hcode (Nat.lt_of_le_of_lt hlen (by decide))
    refine ⟨fun hbad => exec_of_heardFrame_none (Option.eq_none_iff_forall_ne_some.2 fun r hr => ?_), exec_append hgood,
      fun i hi => exec_of_goodFrame_none (goodFrame_take hlen hi),
      fun hmore hcrc => exec_of_goodFrame_none (goodFrame_wrongCrc hlen hmore hcrc)⟩
    obtain ⟨x, h⟩ := (heardFrame_iff_taken hgood).1 hr
    rcases hbad with hbad | hbad | ⟨hin, hout⟩ | ⟨hrows, -⟩ | hbad | ⟨hc, hbad⟩ | ⟨hc, hown, hall⟩ | ⟨hc, hbad⟩ |
      ⟨hc, hbad⟩ | ⟨hc, hbad⟩ | ⟨hc, hbad⟩ | ⟨hc, hbad⟩ | ⟨hc, hone, htwo⟩ | ⟨hc, hbad⟩ | ⟨hc, hbad⟩
    · exact h.sender.2 hbad
    · exact h.sender.1 hbad
    · exact h.inService_or.elim hin fun hor => hout.elim (fun hno => hno hor.1) fun hno => hno hor.2
    · obtain ⟨q, hq, hkind, hclass, hlength⟩ := h.row
      exact (hrows q hq hkind).elim (fun hno => hno hclass) fun hno => hno hlength
    · exact hbad h.code_mem
    · exact hbad (h.handoff_target hc)
    · exact (h.query_target hc).elim hown hall
    · exact Nat.not_lt.2 (h.from_station hc) hbad
    · exact hbad (h.upstream_target hc).2
    · exact hbad (h.downstream_target hc).2
    · exact Bool.false_ne_true (hbad.symm.trans (h.check_role hc))
    · obtain ⟨horigin, hseq⟩ := h.handoff_track hc
      exact hbad.elim horigin hseq
    · exact (h.hold_cause hc).elim hone htwo
    · obtain ⟨⟨hlow, hhigh⟩, hup, hdown⟩ := h.hello_fields hc
      simp only at hlow hhigh hup hdown
      omega
    · exact (h.offerReads hc).not_malformed hbad
  · have take (x : Kind) {q : List Byte} {r : RxFrame} := exec_of_taken (p := q) (r := r) hroom hn hne hpos
      (serviceTakes_of_inService hin x)
    have hdecode {x : Track → RxFrame} {b : Byte} : (trackOf (natAt (b :: trackBytes k) 1 2)).map x = some (x k) := by
      rw [trackOf_handoffPayload hk, Option.map_some]
    intro f hf hcond
    simp only [List.mem_cons, List.not_mem_nil, or_false] at hf
    obtain rfl | rfl | rfl | rfl | rfl | rfl | rfl | rfl | rfl := hf
    · exact take .hold rfl (fromStation_sentFrame hpos (of_decide_eq_true hcond)) (by cases c <;> rfl)
    · exact take .resume rfl (fromStation_sentFrame hpos (of_decide_eq_true hcond)) rfl
    · exact take .clear rfl rfl rfl
    · exact take .accept rfl (fromNeighbour_sentFrame hnode (of_decide_eq_true hcond)) hdecode
    · exact take .released rfl (fromNeighbour_sentFrame hnode (of_decide_eq_true hcond)) hdecode
    · exact take .taken rfl (fromNeighbour_sentFrame hnode (of_decide_eq_true hcond)) hdecode
    · exact take .lost rfl (fromNeighbour_sentFrame hnode (of_decide_eq_true hcond)) hdecode
    · simp only [Bool.and_eq_true, and_assoc] at hcond
      obtain ⟨hcheck, hlen, -⟩ := hcond
      exact take .manifest (lengthAllowed_manifest hlen) hcheck rfl
    · exact take .hello rfl (fromStation_sentFrame hpos (of_decide_eq_true hcond)) (decodeFrame_hello hu hd)
  · intro x hx
    simp only [List.mem_cons, List.not_mem_nil, or_false] at hx
    exact exec_of_taken (k := .query) hroom hn hne hpos (serviceTakes_query hsend) rfl (takenBy_query hnode hx) rfl

end Sys2Proof.Machine
end

