-- ==== Proofs/VerdictLaw.lean ====
section
/-! PROOF. The law of PASS and of the evaluation over every step (O56): as stated it is no invariant. -/

namespace Sys2Proof.Machine

/-- The record of the infeed that the station works on. -/
def windowRecord : TravelRecord := freshRecord { origin := 1, seq := 1 } false

/-- The evaluation of it: the tag is UNREAD, profile and mass are awaited. -/
def windowEval : Evaluation :=
  { track := windowRecord.track, tag := some .unread, manifest := some .notApplicable, profile := none, mass := none }

/-- A CHECK station in STARTING that works on a record, its read window open for a verify read, as a line of thirteen digits ends.
No CHECK station opens a window for a verify read, but the law of the evaluation excludes only the tag window. -/
def verifyAtCheck : State :=
  ((((((State.reset.setService .starting).setCfg { Loaded.none with role := some .check }).setTable
    [{ record := windowRecord, state := .working, takenHeard := false, timer := none }]).setZone
    { ZoneCtl.atReset with zstate := .stopped }).setReader { Reader.atReset with window := .verify }).setEval
    (some windowEval)).setPending [.codeReaderLine (List.replicate 13 (some 0x30))]

/-- What the line makes of it: the attempt at a label that there never was fails, the record is DONE, the evaluation stays. -/
def verifiedAtCheck : State :=
  ((verifyAtCheck.setPending []).setTable
    [{ record := { windowRecord with label := some .labelFailed }, state := .done, takenHeard := false,
       timer := none }]).setReader { Reader.atReset with kept := some (List.replicate 13 0) }

theorem stationSound_verifyAtCheck : StationSound verifyAtCheck := by decide

theorem evalSound_verifyAtCheck : EvalSound verifyAtCheck := by decide

theorem verdictSound_verifyAtCheck : VerdictSound verifyAtCheck := by decide

theorem step_verifyAtCheck : step verifyAtCheck = .next verifiedAtCheck := by rfl

theorem not_evalSound_verifiedAtCheck : ¬ EvalSound verifiedAtCheck := by decide

/-- Refutes O56: EvalSound lets a CHECK station have its read window open for a verify read. A line of thirteen digits is then
judged as one at LABEL (R160, R161) and takes the record in WORKING to DONE, and the evaluation that waits for its inputs is left
without a PRESENT or WORKING record. -/
theorem not_stepsKeepTheVerdictLaw : ¬ Obligations.StepsKeepTheVerdictLaw := fun h =>
  not_evalSound_verifiedAtCheck (h _ _ stationSound_verifyAtCheck evalSound_verifyAtCheck verdictSound_verifyAtCheck
    step_verifyAtCheck).1

end Sys2Proof.Machine
end

