-- ==== Proofs/TagRead.lean ====
section
/-! PROOF. Lines of digits and their check digit (R75, R151); O32. -/

namespace Sys2Proof.Machine

/-- The character of a digit, as a serial line brings it (12.2). -/
def digitChar (d : Digit) : RxChar := some (BitVec.ofNat 8 (0x30 + d.val))

theorem charDigit_digitChar (d : Digit) : charDigit (digitChar d) = some d := by
  have hbyte : (BitVec.ofNat 8 (0x30 + d.val)).toNat = 0x30 + d.val := by
    rw [BitVec.toNat_ofNat]
    omega
  simp [charDigit, digitChar, digitOf, hbyte]
  omega

theorem mapM_charDigit (ds : Digits) : (ds.map digitChar).mapM charDigit = some ds := by
  induction ds with
  | nil => rfl
  | cons d ds ih => simp [charDigit_digitChar, ih]

/-- A line of digits is read when it has the length asked for (R73). -/
theorem digitLine_digits (n : Nat) (ds : Digits) :
    digitLine n (ds.map digitChar, false) = if ds.length = n then some ds else none := by
  rw [digitLine, mapM_charDigit]
  simp

/-- A digit is the check digit exactly when it brings the weighted sum to a multiple of ten (R75). -/
theorem eq_checkDigit_iff (ds : Digits) (x : Digit) : x = checkDigit ds ↔ (weightedSum ds + x.val) % 10 = 0 := by
  have hvalue : (checkDigit ds).val = (10 - weightedSum ds % 10) % 10 := rfl
  rw [Fin.ext_iff, hvalue]
  omega

/-- A line of digits with one more behind them is a tag read by the two tests of R75. -/
theorem tagRead_digits (ds : Digits) (x : Digit) : tagRead ((ds ++ [x]).map digitChar, false) =
    if ds.length = 10 ∧ x = checkDigit ds then some ds else none := by
  rw [tagRead, digitLine_digits]
  by_cases hlen : ds.length = 10
  · have htake : (ds ++ [x]).take 10 = ds := by rw [← hlen, List.take_left]
    have hlast : (ds ++ [x])[10]? = some x := by rw [← hlen, List.getElem?_concat_length]
    have hlen' : (ds ++ [x]).length = 11 := by simp [hlen]
    simp only [hlen', hlen, htake, hlast, if_true, true_and, Option.some.injEq]
  · simp [hlen]

/-- Settles O32: the digits of the line are read back, and the test of the last is that of the weighted sum. -/
theorem tagReadTestsTheCheckDigit : Obligations.TagReadTestsTheCheckDigit := by
  intro ds x
  have hline : ds.map digitChar ++ [digitChar x] = (ds ++ [x]).map digitChar := by simp
  calc tagRead (ds.map digitChar ++ [digitChar x], false)
      _ = if ds.length = 10 ∧ x = checkDigit ds then some ds else none := by rw [hline, tagRead_digits]
      _ = _ := by simp only [eq_checkDigit_iff]

end Sys2Proof.Machine
end

