-- ==== Proofs/CheckEvents.lean ====
section
/-! PROOF. What is common to the events of a CHECK station's reader and store: the evaluation that may take place (R122), and the end
of the event, which touches neither the table nor a frame that is no OFFER. -/

namespace Sys2Proof.Machine

section
variable {b s m t : State}

/-! ## The evaluation -/

/-- An evaluation that takes place writes the record in WORKING, takes it to DONE and is gone (R122, R134). -/
theorem evalStep_blocks (m : State) : ((evalStep m).eval = m.eval ∧ (evalStep m).table = m.table) ∨
    ((evalStep m).eval = none ∧ ∃ ev ∈ m.eval, ∃ e ∈ m.table, e.state = .working ∧ e.record.track = ev.track ∧
      ∃ i, (evalStep m).table = m.table.map fun x =>
        if x.state = .working then { x with state := .done, record := evaluated m.cfg.check i x.record } else x) := by
  obtain ⟨ev, i, e, -, hev, -, he, htrack, h⟩ | h := evalStep_cases m
  · obtain ⟨hmem, hstate⟩ : e ∈ m.table ∧ e.state = .working := by
      exact ⟨List.mem_of_find?_eq_some he, by simpa using List.find?_some he⟩
    refine .inr ⟨by simp [h, evaluate], ev, hev, e, hmem, hstate, htrack, i, ?_⟩
    rw [h, evaluate, reportVerdict_table, State.setEval_table, endWork_table, writeWorking_table, State.setWeigh_table,
      List.map_map]
    exact List.map_congr_left fun x _ => by by_cases hx : x.state = .working <;> simp [hx]
  · exact .inl (by rw [h]; exact ⟨rfl, rfl⟩)

theorem evalStep_table_length (m : State) : (evalStep m).table.length = m.table.length := by
  obtain ⟨-, h⟩ | ⟨-, _, -, _, -, -, -, _, h⟩ := evalStep_blocks m <;> simp [h]

/-- What holds of the inputs of an evaluation still holds after one that takes place. -/
theorem all_evalStep {p : Evaluation → Bool} (h : m.eval.all p = true) : (evalStep m).eval.all p = true := by
  obtain ⟨he, -⟩ | ⟨he, -⟩ := evalStep_blocks m
  · rwa [he]
  · simp [he]

/-- A record in WORKING after the evaluation is one that was not evaluated. -/
theorem mem_of_mem_evalStep {x : Entry} (hx : x ∈ (evalStep m).table) (hw : x.state = .working) : x ∈ m.table := by
  obtain ⟨-, h⟩ | ⟨-, _, -, _, -, -, -, _, h⟩ := evalStep_blocks m
  · rwa [h] at hx
  · rw [h] at hx
    obtain ⟨y, -, rfl⟩ := List.mem_map.1 hx
    by_cases hy : y.state = .working <;> simp [hy] at hw

theorem evalKept_evalStep (h : m.eval.map Evaluation.track = s.eval.map Evaluation.track)
    (he : t.eval = (evalStep m).eval) (hT : t.table = (evalStep m).table) : EvalKept s t := by
  obtain ⟨hsame, -⟩ | ⟨hnone, ev, hev, e, hmem, hw, htrack, i, htable⟩ := evalStep_blocks m
  · exact .inl (by rw [he, hsame, h])
  · obtain ⟨ev', hev', hk⟩ : ∃ ev' ∈ s.eval, ev'.track = ev.track := by
      have hsome : s.eval.map Evaluation.track = some ev.track := by rw [← h, Option.mem_def.1 hev]; rfl
      exact Option.map_eq_some_iff.1 hsome
    refine .inr ⟨by rw [he, hnone], ev', hev', { e with state := .done, record := evaluated m.cfg.check i e.record },
      ?_, rfl, htrack.trans hk.symm, rfl⟩
    rw [hT, htable]
    exact List.mem_map.2 ⟨e, hmem, by simp [hw]⟩

/-- A station that has no evaluation waiting, or one like it, has none to make. -/
theorem evalStep_of_roleFollows (h : RoleFollows s) (hw : works s .check = true) (he : m.eval = s.eval)
    (hT : m.table = s.table) : evalStep m = m := by
  have hready : evalReady s = false := h.1 hw
  obtain ⟨ev, i, e, -, hev, hin, hx, htrack, -⟩ | hm := evalStep_cases m
  · rw [he] at hev
    rw [zoneEntryIn_congr hT] at hx
    simp [evalReady, hev, hin, hx, htrack] at hready
  · exact hm

/-! ## The end of the event -/

/-- At CHECK the end of an event is for the offering, the permit and the settle window (R32, R33, R89). -/
theorem settle_of_check (ha : active m = true) (hc : hasRole m .check = true) :
    settle b m = windowStep b (offerStep (permitStep (stopOffering m))) := by
  have hc' : hasRole (permitStep (stopOffering m)) .check = true := by rw [hasRole_congr (s := m) (by simp), hc]
  rw [settle_active ha, routeStep_of_not_dispatch (not_dispatch_of_check hc'), slotStep_of_check hc']

theorem settle_table_of_check (hc : hasRole m .check = true) : (settle b m).table = m.table := by
  cases ha : active m
  · rw [settle_inactive ha]
  · rw [settle_of_check ha hc]
    simp

/-- With room for the OFFER of a station that begins to offer, other frames stay queued. -/
theorem queued_settle_of_check {f : TxFrame} (hc : hasRole m .check = true) (hf : offerTrack f = none)
    (hroom : m.line.tx.length < 8) (h : queued f m = true) : queued f (settle b m) = true := by
  cases ha : active m
  · rwa [settle_inactive ha]
  · rw [settle_of_check ha hc, queued_congr (windowStep_line _ _)]
    have hstop := stopOffering_length_le m
    refine queued_offerStep hf (by rw [permitStep_line]; omega) ?_
    rw [queued_congr (permitStep_line _)]
    exact queued_stopOffering hf h

/-- A frame that is not queued but in the attempt under way: taken back, or counted sent soon. -/
def Unqueued (f : TxFrame) (s : State) : Prop := ∀ x ∈ s.line.tx, (x.inAttempt || x.frame != f) = true

theorem Unqueued.queueFrame {f g : TxFrame} (h : Unqueued f s) (hne : g ≠ f) : Unqueued f (queueFrame g s) := by
  intro x hx
  have hfresh : ((freshTx g).inAttempt || (freshTx g).frame != f) = true := by simp [freshTx, hne]
  rw [queueFrame_line] at hx
  split at hx
  · obtain ⟨-, hp⟩ | ⟨-, -, hp⟩ | ⟨-, -, -, hp⟩ | ⟨-, -, -, hp⟩ := pushFrame_cases g s.line <;> rw [hp] at hx
    · obtain ⟨y, hy, rfl⟩ := List.mem_map.1 hx
      split
      · simp [hne]
      · exact h y hy
    · obtain rfl | hx := mem_insertTx.1 hx
      · exact hfresh
      · exact h x hx
    · obtain rfl | hx := mem_insertTx.1 hx
      · exact hfresh
      · exact h x (mem_dropYoungest hx)
    · exact h x hx
  · exact h x hx

theorem Unqueued.evalStep {f : TxFrame} (h : Unqueued f m) (hf : ∀ n, f ≠ .notice n) : Unqueued f (evalStep m) := by
  obtain ⟨_, i, x, -, -, -, -, -, he⟩ | he := evalStep_cases m
  · obtain ⟨v, hl, hv⟩ := evaluate_cases x i m
    have hline : Unqueued f v := by rwa [Unqueued, hl]
    obtain hv | ⟨p, hv⟩ := hv <;> rw [he, hv]
    · exact hline
    · exact hline.queueFrame (hf _).symm
  · rwa [he]

theorem Unqueued.settle {f : TxFrame} (h : Unqueued f m) (hc : hasRole m .check = true) (hf : offerTrack f = none) :
    Unqueued f (settle b m) := by
  cases ha : active m
  · rwa [settle_inactive ha]
  · rw [settle_of_check ha hc, Unqueued, windowStep_line]
    have hpermit : Unqueued f (permitStep (stopOffering m)) := by
      rw [Unqueued, permitStep_line]
      exact all_stopOffering (p := fun x => x.inAttempt || x.frame != f) (fun _ => id) h
    obtain ⟨e, -, -, -, hs⟩ | ⟨-, hs⟩ := offerStep_cases (permitStep (stopOffering m)) <;> rw [hs]
    · refine Unqueued.queueFrame (s := (permitStep (stopOffering m)).setZone _) hpermit fun heq => ?_
      simp [← heq, offerTrack] at hf
    · exact hpermit

/-! ## Writing into the record in WORKING -/

theorem workingHere_congr (h : m.table = s.table) : workingHere m = workingHere s := by
  rw [workingHere, workingHere, zoneEntryIn_congr h]

/-- With no record in WORKING there is none to write into (R4). -/
theorem writeWorking_of_none {f : TravelRecord → TravelRecord} (h : workingHere m = false) : writeWorking f m = m := by
  have hnone : ∀ e ∈ m.table, ¬ e.state = .working := by simpa [workingHere, zoneEntryIn] using h
  have hT : m.table.map (fun e => if e.state = .working then { e with record := f e.record } else e) = m.table :=
    (List.map_congr_left fun e he => if_neg (hnone e he)).trans (List.map_id' _)
  rw [writeWorking, mapState, hT, State.setTable_same]

/-- A write at once, where the record is WORKING, is a write (R76, R81). -/
theorem writeWorking_if {f : TravelRecord → TravelRecord} (hT : m.table = s.table) :
    (if workingHere s then writeWorking f m else m) = writeWorking f m := by
  cases h : workingHere s
  · rw [writeWorking_of_none (by rw [workingHere_congr hT, h])]
    rfl
  · rfl

/-- A field written stands in every record in WORKING. -/
theorem of_mem_writeWorking {f : TravelRecord → TravelRecord} {P : TravelRecord → Prop} (hP : ∀ r, P (f r)) {x : Entry}
    (hx : x ∈ (writeWorking f m).table) (hw : x.state = .working) : P x.record := by
  obtain ⟨y, -, rfl⟩ := List.mem_map.1 hx
  by_cases hy : y.state = .working
  · simpa [hy] using hP y.record
  · simp [hy] at hw

end

end Sys2Proof.Machine
end

