-- ==== Proofs/TagAndManifest.lean ====
section
/-! PROOF. The tag and the manifest of the record at CHECK: a line in the tag window (O33), the expiries of the two waits (O34). -/

namespace Sys2Proof.Machine

section
variable {s m : State}

theorem hasRole_evalStep (m : State) (r : Role) : hasRole (evalStep m) r = hasRole m r := hasRole_congr (by simp) r

/-- What a resolution handed to the evaluation says of it, there being none or not. -/
theorem all_map_of_forall {f : Evaluation → Evaluation} {p : Evaluation → Bool} (h : ∀ e, p (f e) = true)
    (o : Option Evaluation) : (o.map f).all p = true := by
  cases o <;> simp [h]

/-! ## The tag UNREAD, the manifest NOT_FOUND -/

theorem exec_tagWaitExpiry (hw : works s .check = true) (h : s.reader.tagWait.isSome = true) :
    exec .tagWaitExpiry s = .next (settle s (evalStep (tagUnread s))) := by simp [exec, execTagWaitExpiry, hw, h]

theorem exec_manifestWaitExpiry (hw : works s .check = true) (h : manifestWaiting s = true) :
    exec .manifestWaitExpiry s = .next (settle s (evalStep (manifestMissing .notFound (endRequest s)))) := by
  simp [exec, execManifestWaitExpiry, hw, h]

theorem tagUnread_reader (s : State) : (tagUnread s).reader =
    { buffer := [], overlong := false, window := .closed, kept := none, tagWait := none } := by
  simp [tagUnread, manifestMissing, stopTagWait, closeWindow, openWindow]

theorem tagUnread_eval (s : State) : (tagUnread s).eval =
    s.eval.map fun e => { e with tag := some .unread, manifest := some .notApplicable } := by
  simp [tagUnread, manifestMissing, Function.comp_def]

theorem manifestMissing_eval (x : ManifestResolution) (m : State) :
    (manifestMissing x m).eval = m.eval.map fun e => { e with manifest := some x } := rfl

theorem endRequest_store (s : State) : (endRequest s).store = { s.store with request := none } := by
  unfold endRequest
  cases h : s.store.request with
  | some r => simp
  | none => simp [← h]

/-- A request that ends leaves its WANTED nowhere but in the attempt under way (R79). -/
theorem unqueued_endRequest {r : Request} (hr : s.store.request = some r) : Unqueued (.wanted r.serial) (endRequest s) :=
  endRequest_withdraws hr

/-- Settles O34: the resolution is handed, the evaluation may take place, and the end of the event touches neither. -/
theorem waitsEndWithoutAReading : Obligations.WaitsEndWithoutAReading := by
  intro s hs hw
  obtain ⟨-, hc⟩ := (works_iff _).1 hw
  refine ⟨fun h => by simp [exec, execTagWaitExpiry, h], fun h => ?_, fun h => by simp [exec, execManifestWaitExpiry, h],
    fun h => ?_⟩
  · have hrole : hasRole (evalStep (tagUnread s)) .check = true := by
      rw [hasRole_evalStep, hasRole_congr (s := s) (by simp), hc]
    refine ⟨_, exec_tagWaitExpiry hw h, fun b => by cases b <;> simp [Block.same, settleBlocks], ?_, ?_, ?_,
      evalKept_evalStep (m := tagUnread s) ?_ (settle_eval _ _) (settle_table_of_check hrole), ?_⟩
    · simp [tagUnread_reader]
    · simp [tagUnread_reader]
    · simp [tagUnread_reader]
    · simp [tagUnread_eval, Function.comp_def]
    · rw [settle_eval]
      exact all_evalStep (by rw [tagUnread_eval]; exact all_map_of_forall (by simp) _)
  · have hrole : hasRole (manifestMissing .notFound (endRequest s)) .check = true := by
      rw [hasRole_congr (s := s) (by simp), hc]
    refine ⟨_, exec_manifestWaitExpiry hw h, fun b => by cases b <;> simp [Block.same, settleBlocks], ?_, fun r hr => ?_,
      evalKept_evalStep (m := manifestMissing .notFound (endRequest s)) ?_ (settle_eval _ _)
        (settle_table_of_check (by rw [hasRole_evalStep, hrole])), ?_⟩
    · simp [endRequest_store]
    · have hline : Unqueued (.wanted r.serial) (manifestMissing .notFound (endRequest s)) := unqueued_endRequest hr
      exact List.all_eq_true.2 ((hline.evalStep (by simp)).settle (by rw [hasRole_evalStep, hrole]) rfl)
    · simp [manifestMissing_eval, Function.comp_def]
    · rw [settle_eval]
      exact all_evalStep (by rw [manifestMissing_eval]; exact all_map_of_forall (by simp) _)

/-! ## The manifest FOUND -/

/-- A manifest found is handed on and written, at once, into a record in WORKING (R81). -/
theorem manifestFound_eq (x : Manifest) (s : State) : manifestFound x s =
    writeWorking (writeManifest x) (updateEval (fun e => { e with manifest := some (.found x) }) s) := by
  rw [manifestFound]
  exact writeWorking_if rfl

theorem manifestFound_eval (x : Manifest) (s : State) :
    (manifestFound x s).eval = s.eval.map fun e => { e with manifest := some (.found x) } := by
  rw [manifestFound_eq]
  rfl

theorem holdsManifest_of_manifestFound {x : Manifest} {e : Entry} (he : e ∈ (manifestFound x s).table)
    (hw : e.state = .working) : holdsManifest x e.record := by
  rw [manifestFound_eq] at he
  exact of_mem_writeWorking (fun _ => ⟨rfl, rfl, rfl, rfl, rfl, rfl⟩) he hw

/-! ## A line in the tag window -/

/-- The state in which the serial read is looked up: it is kept, handed to the evaluation and written (R73, R74, R76). -/
def tagHanded (ds : Digits) (s : State) : State :=
  writeWorking (writeSerial ds) (updateEval (fun e => { e with tag := some (.serial ds) })
    (stopTagWait (keepRead (ds ++ [checkDigit ds]) s)))

theorem tagSerial_eq (ds : Digits) (s : State) : tagSerial ds s = lookUp ds (tagHanded ds s) := by
  rw [tagSerial]
  exact congrArg (lookUp ds) (writeWorking_if (by simp))

/-- What handing the serial on leaves and what it changes. -/
theorem tagHanded_blocks (ds : Digits) (s : State) : (tagHanded ds s).store = s.store ∧ (tagHanded ds s).line = s.line ∧
    (tagHanded ds s).service = s.service ∧ (tagHanded ds s).cfg = s.cfg ∧
    (tagHanded ds s).reader = { buffer := [], overlong := false, window := .closed,
                                kept := some (ds ++ [checkDigit ds]), tagWait := none } ∧
    (tagHanded ds s).eval = s.eval.map fun e => { e with tag := some (.serial ds) } := by
  simp [tagHanded, stopTagWait, keepRead]

theorem lookUp_of_some {ds : Digits} {x : Manifest} (h : m.store.manifests.find? (fun x => x.serial = ds) = some x) :
    lookUp ds m = manifestFound x (m.setStore { m.store with
      manifests := m.store.manifests.filter fun x => x.serial != ds }) := by simp [lookUp, h]

/-- A miss makes the pending request, which asks in IN_SERVICE alone (R78). -/
theorem lookUp_of_none {ds : Digits} (h : m.store.manifests.find? (fun x => x.serial = ds) = none) :
    lookUp ds m = if inService m then queueFrame (.wanted ds) (m.setStore { m.store with
        request := some { serial := ds, wait := some m.cfg.check.manifestWait } })
      else m.setStore { m.store with request := some { serial := ds, wait := none } } := by
  have hin : inService (m.setStore { m.store with request := some { serial := ds, wait := none } }) = inService m := rfl
  simp [lookUp, h, raiseRequest, hin]

/-- The search adds to the evaluation at most a manifest. -/
theorem lookUp_eval (ds : Digits) (m : State) : ∃ f : Evaluation → Evaluation,
    (∀ e, (f e).track = e.track ∧ (f e).tag = e.tag) ∧ (lookUp ds m).eval = m.eval.map f := by
  cases h : m.store.manifests.find? (fun x => x.serial = ds) with
  | some x =>
    exact ⟨fun e => { e with manifest := some (.found x) }, fun _ => ⟨rfl, rfl⟩, by
      rw [lookUp_of_some h, manifestFound_eval]; rfl⟩
  | none =>
    refine ⟨id, fun _ => ⟨rfl, rfl⟩, ?_⟩
    rw [lookUp_of_none h]
    split <;> simp

/-- The search writes into the records at most a manifest. -/
theorem lookUp_table (ds : Digits) (m : State) : (lookUp ds m).table = m.table ∨
    ∃ x, (lookUp ds m).table = (writeWorking (writeManifest x) m).table := by
  cases h : m.store.manifests.find? (fun x => x.serial = ds) with
  | some x => exact .inr ⟨x, by rw [lookUp_of_some h, manifestFound_eq]; rfl⟩
  | none =>
    refine .inl ?_
    rw [lookUp_of_none h]
    split <;> simp

theorem lookUp_length_le (ds : Digits) (m : State) : (lookUp ds m).line.tx.length ≤ m.line.tx.length + 1 := by
  cases h : m.store.manifests.find? (fun x => x.serial = ds) with
  | some x => simp [lookUp_of_some h]
  | none =>
    rw [lookUp_of_none h]
    split
    · exact queueFrame_length_le _ _
    · exact Nat.le_succ _

/-- The serial stands in the record in WORKING, whatever the search brings (R76). -/
theorem serial_of_mem_lookUp {ds : Digits} {e : Entry} (he : e ∈ (lookUp ds (tagHanded ds s)).table)
    (hw : e.state = .working) : e.record.serial = some ds := by
  have hserial : ∀ x ∈ (tagHanded ds s).table, x.state = .working → x.record.serial = some ds := fun x hx hxw =>
    of_mem_writeWorking (P := fun r => r.serial = some ds) (fun _ => rfl) hx hxw
  obtain h | ⟨x, h⟩ := lookUp_table ds (tagHanded ds s) <;> rw [h] at he
  · exact hserial e he hw
  · obtain ⟨y, hy, rfl⟩ := List.mem_map.1 he
    by_cases hyw : y.state = .working
    · simpa [hyw, writeManifest] using hserial y hy hyw
    · simp [hyw] at hw

theorem lookUp_table_length (ds : Digits) (m : State) : (lookUp ds m).table.length = m.table.length := by
  obtain h | ⟨x, h⟩ := lookUp_table ds m <;> simp [h]

theorem exec_codeReaderLine_check {chars : List RxChar} (hw : works s .check = true) :
    exec (.codeReaderLine chars) s = .next (settle s (evalStep (judgeLine chars s))) := by
  simp [exec, execCodeReaderLine, hw]

/-- A line that is not kept leaves nothing to evaluate or to settle (R73). -/
theorem SameCore.dropLine (s : State) : SameCore s (dropLine s) := by constructor <;> simp

/-- Settles O33: the line is judged by `tagRead`, the serial handed on and looked up, and the rest of the event touches neither the
store nor the reader. -/
theorem tagLineIsResolved : Obligations.TagLineIsResolved := by
  intro s chars hs hset hrole hw hwin
  obtain ⟨-, hc⟩ := (works_iff _).1 hw
  refine ⟨fun hnone => ?_, fun ds hds => ?_⟩
  · have hjudge : judgeLine chars s = dropLine s := by simp [judgeLine, hwin, hnone]
    have hsame := SameCore.dropLine s
    rw [exec_codeReaderLine_check hw, hjudge, evalStep_of_roleFollows hrole hw (by simp) (by simp),
      settle_same (hsame.settled (by simp) hset) hsame.platformEmpty.symm]
    rfl
  · have hds : tagRead (readerLine chars s) = some ds := hds
    have hjudge : judgeLine chars s = lookUp ds (tagHanded ds s) := by
      rw [judgeLine, hwin]
      simp only [hds, tagSerial_eq]
    obtain ⟨hstore, hline, hservice, hcfg, hreader, heval⟩ := tagHanded_blocks ds s
    have hin : inService (tagHanded ds s) = inService s := inService_congr hservice
    have hmid : hasRole (evalStep (lookUp ds (tagHanded ds s))) .check = true := by
      rw [hasRole_evalStep, hasRole_congr (s := s) (by rw [lookUp_cfg, hcfg]), hc]
    have hT : (settle s (evalStep (lookUp ds (tagHanded ds s)))).table = (evalStep (lookUp ds (tagHanded ds s))).table :=
      settle_table_of_check hmid
    obtain ⟨f, hkeeps, hf⟩ := lookUp_eval ds (tagHanded ds s)
    refine ⟨_, exec_codeReaderLine_check hw, ?_⟩
    rw [hjudge]
    refine ⟨fun b => by cases b <;> simp [Block.same, settleBlocks, tagHanded], by simp [hreader], by simp [hreader],
      by simp [hreader], ?_, evalKept_evalStep (m := lookUp ds (tagHanded ds s)) ?_ (settle_eval _ _) hT, fun x hx hxw => ?_, ?_,
      fun hmiss => ?_, fun x hx => ?_⟩
    · rw [settle_eval]
      refine all_evalStep ?_
      rw [hf, heval, Option.map_map]
      exact all_map_of_forall (by simp [hkeeps]) _
    · simp [hf, heval, Function.comp_def, hkeeps]
    · rw [hT] at hx
      exact serial_of_mem_lookUp (mem_of_mem_evalStep hx hxw) hxw
    · rw [hT, evalStep_table_length, lookUp_table_length]
      simp [tagHanded]
    · have hnone : (tagHanded ds s).store.manifests.find? (fun m => m.serial = ds) = none := by
        rw [hstore, List.find?_eq_none]
        simpa using hmiss
      have hlook := lookUp_of_none hnone
      rw [hstore, hcfg, hin] at hlook
      refine ⟨?_, fun hserv hroom => ?_⟩
      · rw [settle_store, evalStep_store, hlook]
        cases inService s <;> simp
      · have hroom : s.line.tx.length + 3 ≤ 8 := tx_of_roomFor hroom
        have hlen := lookUp_length_le ds (tagHanded ds s)
        have hlen' := evalStep_length_le (lookUp ds (tagHanded ds s))
        rw [hline] at hlen
        refine queued_settle_of_check hmid rfl (by omega) (queued_evalStep rfl (by omega) ?_)
        rw [hlook, if_pos hserv]
        exact queued_self (s := (tagHanded ds s).setStore _) (by rw [← hserv, ← hin]; rfl) rfl
          (by rw [State.setStore_line, hline]; omega)
    · have hfind : (tagHanded ds s).store.manifests.find? (fun m => m.serial = ds) = some x := by
        rw [hstore]
        simpa [Bool.beq_eq_decide_eq] using hx
      have hlook := lookUp_of_some hfind
      rw [hstore] at hlook
      refine ⟨by rw [settle_store, evalStep_store, hlook]; simp, ?_, fun e he hew => ?_⟩
      · rw [settle_eval]
        exact all_evalStep (by rw [hlook, manifestFound_eval]; exact all_map_of_forall (by simp) _)
      · rw [hT] at he
        have hmem := mem_of_mem_evalStep he hew
        rw [hlook] at hmem
        exact holdsManifest_of_manifestFound hmem hew

end

end Sys2Proof.Machine
end

