-- ==== Proofs/VerifyRead.lean ====
section
/-! PROOF. A line at LABEL while its label is verified (R160, R161); O48. -/

namespace Sys2Proof.Machine

section
variable {b s m : State}

theorem works_check_of_label (h : works s .label = true) : works s .check = false := by
  have hcheck : hasRole s .check = false := hasRole_unique ((works_iff _).1 h).2 (by decide)
  simp [works, hcheck]

theorem exec_codeReaderLine_label {chars : List RxChar} (hw : works s .label = true) :
    exec (.codeReaderLine chars) s = .next (settle s (labelStep (judgeLine chars s))) := by
  simp [exec, execCodeReaderLine, hw, works_check_of_label hw]

/-! ## The end of the event -/

/-- At LABEL, with no OFFER in the slot that could be accepted, only the offering may cease or begin (R15, R32, R33). -/
theorem settle_of_label (ha : active m = true) (hl : hasRole m .label = true)
    (hacc : m.slot.isSome = true → accepting m = false) : settle b m = offerStep (stopOffering m) := by
  have hsame := sameCore_stopOffering m
  have hoff := sameCore_offerStep (stopOffering m)
  have hslot : (stopOffering m).slot.isSome = true → accepting (stopOffering m) = false := by
    rwa [hsame.accepting, stopOffering_slot]
  have hcheck : hasRole m .check = false := hasRole_unique hl (by decide)
  rw [settle_active ha, permitStep_of_role (by rw [hsame.role, hcheck]),
    routeStep_of_not_dispatch (by rw [hsame.role, hasRole_unique hl (by decide)]), slotStep_of fun h => .inl (hslot h),
    windowStep_of_works (by simp [works, hoff.role, hsame.role, hcheck])]

/-- The table with the verdict on the label written into the record in WORKING, which is DONE (R161). -/
def labelJudged (v : LabelVerdict) (T : List Entry) : List Entry :=
  T.map fun x => if x.state = .working then { x with state := .done, record := { x.record with label := some v } } else x

theorem labelDone_table (v : LabelVerdict) (s : State) : (labelDone v s).table = labelJudged v s.table := by
  rw [labelDone, endWork_table, writeWorking_table, List.map_map, labelJudged]
  exact List.map_congr_left fun x _ => by by_cases hx : x.state = .working <;> simp [hx]

/-- A record is EXPECTED after the verdict exactly when it was before, and none comes or goes: an OFFER is accepted as before. -/
theorem accepting_of_labelJudged {v : LabelVerdict} (hservice : m.service = s.service) (hcfg : m.cfg = s.cfg)
    (hpins : m.pins = s.pins) (hzone : m.zone = s.zone) (hweigh : m.weigh = s.weigh)
    (hT : m.table = labelJudged v s.table) : accepting m = accepting s := by
  have hexpected : (expectedEntry m).isNone = (expectedEntry s).isNone := by
    simp only [expectedEntry, hT, labelJudged, List.find?_map, Option.isNone_map]
    congr 2
    funext x
    by_cases hx : x.state = .working <;> simp [hx]
  simp [accepting, inService_congr hservice, hasRole_congr hcfg, holdsEmpty_congr (congrArg ZoneCtl.holds hzone),
    zeroOverdue_congr (congrArg Weigh.postponed hweigh), hexpected, hpins, hzone, hweigh, hT, labelJudged]

/-! ## The verdict -/

theorem labelGivesUp_table (s : State) : (labelGivesUp s).table = labelJudged .labelFailed s.table := by
  unfold labelGivesUp
  split <;> simp [labelDone_table]

theorem labelStep_of_idle (h : m.label.lstate = .idle) : labelStep m = m := by simp [labelStep, printReady, h]

theorem labelStep_causes (s : State) : (labelStep s).label.causes = s.label.causes := by
  obtain ⟨-, h⟩ | ⟨-, h⟩ := labelStep_cases s
  · rw [h]
    unfold startPrint
    cases s.label.label <;> simp [sendEngine]
  · rw [h]

theorem judgeVerify_of_code {ds : Digits} {l : Composed} (hl : s.label.label = some l) (h : ds = l.code) :
    judgeVerify ds s = labelDone (.labelled s.label.attempt ds) (labelIdle (keepRead ds s)) := by
  simp [judgeVerify, hl, h]

theorem judgeVerify_of_other {ds : Digits} {l : Composed} (hl : s.label.label = some l) (h : ds ≠ l.code) :
    judgeVerify ds s = failLabel .verifyMismatch (keepRead ds s) := by
  simp [judgeVerify, hl, Ne.symm h]

/-- A mismatch with an attempt left: the next one waits for its print (R161). -/
theorem failLabel_mismatch_of_lt (h : m.label.attempt < m.cfg.label.attempts) : failLabel .verifyMismatch m =
    m.setLabel { m.label with
      causes := m.label.causes ++ [.verifyMismatch], printTimer := none, applyTimer := none, verifyTimer := none
      lstate := .waiting, attempt := m.label.attempt + 1 } := by
  simp [failLabel, abortsEngine, h]

theorem failLabel_mismatch_of_le (h : m.cfg.label.attempts ≤ m.label.attempt) :
    (failLabel .verifyMismatch m).table = labelJudged .labelFailed m.table := by
  simp [failLabel, abortsEngine, Nat.not_lt.2 h, labelGivesUp_table]

/-- The table after a verify read: as it was, or with a verdict. -/
theorem judgeVerify_table {l : Composed} (ds : Digits) (hl : s.label.label = some l) :
    (judgeVerify ds s).table = s.table ∨ ∃ v, (judgeVerify ds s).table = labelJudged v s.table := by
  by_cases hds : ds = l.code
  · exact .inr ⟨_, by rw [judgeVerify_of_code hl hds, labelDone_table, labelIdle_table, keepRead_table]⟩
  · rw [judgeVerify_of_other hl hds]
    obtain hlt | hle := Nat.lt_or_ge (keepRead ds s).label.attempt (keepRead ds s).cfg.label.attempts
    · exact .inl (by rw [failLabel_mismatch_of_lt hlt]; simp)
    · exact .inr ⟨_, by rw [failLabel_mismatch_of_le hle, keepRead_table]⟩

theorem judgeVerify_reader (ds : Digits) (s : State) : (judgeVerify ds s).reader = (keepRead ds s).reader := by
  simp only [judgeVerify]
  split <;> simp

theorem accepting_judgeVerify {l : Composed} (ds : Digits) (hl : s.label.label = some l) :
    accepting (judgeVerify ds s) = accepting s := by
  obtain hT | ⟨v, hT⟩ := judgeVerify_table ds hl
  · exact accepting_congr (by simp) (by simp) (by simp) hT (by simp) (by simp) (by simp) (by simp)
  · exact accepting_of_labelJudged (by simp) (by simp) (by simp) (by simp) (by simp) hT

/-- Settles O48: the read is judged by the code, and the rest of the event is for the next print and the offering. -/
theorem verifyReadDecidesTheLabel : Obligations.VerifyReadDecidesTheLabel := by
  intro s chars l hs hset hrole hw hwin hl
  obtain ⟨ha, hlabel⟩ := (works_iff _).1 hw
  refine ⟨fun hnone => ?_, fun ds hds => ?_⟩
  · have hjudge : judgeLine chars s = dropLine s := by simp [judgeLine, hwin, hnone]
    have hsame := SameCore.dropLine s
    have hprint : printReady (dropLine s) = false := hrole.2.2 hw
    have hstep : labelStep (dropLine s) = dropLine s := by simp [labelStep, hprint]
    rw [exec_codeReaderLine_label hw, hjudge, hstep, settle_same (hsame.settled (by simp) hset) hsame.platformEmpty.symm]
    rfl
  · have hds : verifyRead (readerLine chars s) = some ds := hds
    have hjudge : judgeLine chars s = judgeVerify ds s := by
      rw [judgeLine, hwin]
      simp only [hds]
    have hacc : accepting (labelStep (judgeVerify ds s)) = accepting s := by
      rw [accepting_congr (s := judgeVerify ds s) (by simp) (by simp) (by simp) (by simp) (by simp) (by simp)
        (by simp) (by simp), accepting_judgeVerify ds hl]
    have hsettle : settle s (labelStep (judgeVerify ds s)) = offerStep (stopOffering (labelStep (judgeVerify ds s))) :=
      settle_of_label (by rw [active_congr (s := s) (by simp), ha]) (by rw [hasRole_congr (s := s) (by simp), hlabel])
        fun h => by rw [hacc]; exact hset.2.1 (.inr (by simpa using h))
    refine ⟨_, exec_codeReaderLine_label hw, ?_⟩
    rw [hjudge, hsettle]
    refine ⟨fun k => by cases k <;> simp [Block.same], by simp [judgeVerify_reader, keepRead],
      by simp [judgeVerify_reader, keepRead], fun heq => ?_, fun hne hlt => ?_, fun hne hle => ?_⟩
    · have hidle : labelStep (judgeVerify ds s) = judgeVerify ds s :=
        labelStep_of_idle (by rw [judgeVerify_of_code hl heq]; simp [labelIdle])
      rw [hidle, judgeVerify_of_code hl heq]
      simp [labelDone_table, labelIdle, labelJudged]
    · have hfail : judgeVerify ds s = _ := (judgeVerify_of_other hl hne).trans (failLabel_mismatch_of_lt hlt)
      simp [hfail, labelStep_attempt, labelStep_causes]
    · have hfail : (judgeVerify ds s).table = _ :=
        (congrArg State.table (judgeVerify_of_other hl hne)).trans (failLabel_mismatch_of_le hle)
      simp [hfail, labelJudged]

end

end Sys2Proof.Machine
end

