-- ==== Proofs/ManifestChecks.lean ====
section
/-! PROOF. The checks of Table 4-1 over the bytes of a MANIFEST as Table 12-5 lays them out: `validateManifest` reports the first that
fails, in the order of the table, line after line (R71). -/

namespace Sys2Proof.Machine

section
variable {p : List Byte} {o n : Nat}

/-! ## The fields -/

/-- The nibbles of n bytes, the high one of each first (12.1). -/
def nibblesAt (p : List Byte) (o n : Nat) : List Nat :=
  (List.range n).flatMap fun i => [byteAt p (o + i) / 16, byteAt p (o + i) % 16]

/-- The digits that they are. -/
def digitsAt (p : List Byte) (o n : Nat) : Digits := (nibblesAt p o n).map (Fin.ofNat 10)

/-- Two bytes, the high one first. -/
def wordAt (p : List Byte) (o : Nat) : Nat := byteAt p o * 256 + byteAt p (o + 1)

theorem length_nibblesAt (p : List Byte) (o n : Nat) : (nibblesAt p o n).length = 2 * n := by
  simp [nibblesAt, List.length_flatMap]
  omega

theorem nibblesOf_bytesAt (h : o + n ≤ p.length) : nibblesOf (bytesAt p o n) = nibblesAt p o n := by
  induction n with
  | zero => rfl
  | succ n ih =>
    have hlt : o + n < p.length := by omega
    have hbyte : byteAt p (o + n) = p[o + n].toNat := by simp [byteAt, List.getElem?_eq_getElem hlt]
    have hbytes : bytesAt p o (n + 1) = bytesAt p o n ++ [p[o + n]] := by
      simp [bytesAt, List.take_add_one, List.getElem?_drop, List.getElem?_eq_getElem hlt]
    have hbefore : nibblesOf (bytesAt p o n) = nibblesAt p o n := ih (by omega)
    rw [hbytes, nibblesOf, List.flatMap_append, ← nibblesOf, hbefore, nibblesAt, nibblesAt, List.range_succ,
      List.flatMap_append]
    simp [nibbles, hbyte]

/-- Nibbles are digits when none exceeds nine. -/
theorem mapM_digitOf_eq (ns : List Nat) :
    ns.mapM digitOf = if ns.all (· ≤ 9) then some (ns.map (Fin.ofNat 10)) else none := by
  induction ns with
  | nil => rfl
  | cons a ns ih =>
    rw [List.mapM_cons, ih]
    by_cases ha : a ≤ 9
    · have hdigit : digitOf a = some (Fin.ofNat 10 a) := by
        simp [digitOf, Fin.ofNat, show a < 10 by omega, Nat.mod_eq_of_lt]
      cases hall : ns.all (· ≤ 9) <;> simp [hdigit, ha, hall]
    · have hdigit : digitOf a = none := by simp [digitOf, show ¬ a < 10 by omega]
      simp [hdigit, ha]

theorem unpackDigits_bytesAt (h : o + n ≤ p.length) : unpackDigits (2 * n) (bytesAt p o n) =
    if (nibblesAt p o n).all (· ≤ 9) then some (digitsAt p o n) else none := by
  rw [unpackDigits, nibblesOf_bytesAt h, ← length_nibblesAt p o n, List.take_length, mapM_digitOf_eq, digitsAt]

/-- An order is blank, or its digits (Table 12-5). -/
theorem manifestOrder_bytesAt (h : 5 + 4 ≤ p.length) : manifestOrder (bytesAt p 5 4) =
    if (nibblesAt p 5 4).all (· ≤ 9) || (nibblesAt p 5 4).all (· == 15) then
      some (if (nibblesAt p 5 4).all (· == 15) then none else some (digitsAt p 5 4)) else none := by
  have hdigits : unpackDigits 8 (bytesAt p 5 4) = _ := unpackDigits_bytesAt h
  have hblank : (nibblesOf (bytesAt p 5 4)).all (fun n => n = 15) = (nibblesAt p 5 4).all (· == 15) := by
    rw [nibblesOf_bytesAt h]
    rfl
  rw [manifestOrder, hblank, hdigits]
  cases (nibblesAt p 5 4).all (· == 15) <;> cases (nibblesAt p 5 4).all (· ≤ 9) <;> rfl

theorem laneClassOf_eq (k : Nat) : laneClassOf k =
    if k ≤ 2 then some (if k = 0 then .any else if k = 1 then .a else .b) else none := by
  match k with
  | 0 => rfl
  | 1 => rfl
  | 2 => rfl
  | k + 3 => simp [laneClassOf]

theorem unitClassOf_eq (k : Nat) : unitClassOf k =
    if 1 ≤ k ∧ k ≤ 3 then some (if k = 1 then .caseUnit else if k = 2 then .tray else .keg) else none := by
  match k with
  | 0 => rfl
  | 1 => rfl
  | 2 => rfl
  | 3 => rfl
  | k + 4 => simp [unitClassOf]

/-! ## The checks in their order -/

/-- A check of Table 4-1, the line it is about, and whether the MANIFEST passes it. -/
abbrev Check : Type := ManifestCheck × Nat × Bool

/-- The verdict of checks made in order: the first that fails rejects, and the serial, once it has passed, is reported (R71). -/
def checkedInOrder {α : Type} (serial : Digits) (checks : List Check) (a : α) : Except Rejection α :=
  (checks.find? fun x => !x.2.2).elim (.ok a) fun x =>
    .error { check := x.1, line := x.2.1, serial := if x.1 = .serial then none else some serial }

theorem checkedInOrder_nil {α : Type} (serial : Digits) (a : α) : checkedInOrder serial [] a = .ok a := rfl

theorem checkedInOrder_cons {α : Type} (serial : Digits) (c : ManifestCheck) (i : Nat) (b : Bool) (checks : List Check) (a : α) :
    checkedInOrder serial ((c, i, b) :: checks) a = if b then checkedInOrder serial checks a
      else .error { check := c, line := i, serial := if c = .serial then none else some serial } := by
  cases b <;> rfl

theorem ite_not_eq_true {α : Type} (b : Bool) (x y : α) : (if (!b) = true then x else y) = if b = true then y else x := by
  cases b <;> rfl

/-! ## The lines -/

/-- The checks of the line at index i, which is reported as line i + 1 (Table 4-1). -/
def lineChecks (p : List Byte) (i : Nat) : List Check :=
  [(.article, i + 1, (nibblesAt p (14 + 10 * i) 3).all (· ≤ 9)),
   (.unitClass, i + 1, decide (1 ≤ byteAt p (17 + 10 * i) ∧ byteAt p (17 + 10 * i) ≤ 3)),
   (.count, i + 1, decide (1 ≤ byteAt p (18 + 10 * i) ∧ byteAt p (18 + 10 * i) ≤ 240)),
   (.unitMass, i + 1, decide (1 ≤ wordAt p (19 + 10 * i) ∧ wordAt p (19 + 10 * i) ≤ 9999)),
   (.layers, i + 1, decide (1 ≤ byteAt p (21 + 10 * i) ∧ byteAt p (21 + 10 * i) ≤ 8)),
   (.layerHeight, i + 1, decide (50 ≤ wordAt p (22 + 10 * i) ∧ wordAt p (22 + 10 * i) ≤ 600))]

/-- The line that its bytes give (Table 12-5). -/
def goodsLineAt (p : List Byte) (i : Nat) : GoodsLine where
  article := digitsAt p (14 + 10 * i) 3
  unitClass := if byteAt p (17 + 10 * i) = 1 then .caseUnit else if byteAt p (17 + 10 * i) = 2 then .tray else .keg
  count := byteAt p (18 + 10 * i)
  mass := wordAt p (19 + 10 * i)
  layers := byteAt p (21 + 10 * i)
  layerHeight := wordAt p (22 + 10 * i)

theorem natAt_bytesAt_one {j m : Nat} (h : j + 1 ≤ m) (ho : o + j = n) : natAt (bytesAt p o m) j 1 = byteAt p n := by
  rw [natAt, bytesAt_bytesAt h, ← natAt, natAt_one, ho]

theorem natAt_bytesAt_two {j m : Nat} (h : j + 2 ≤ m) (ho : o + j = n) (hp : n + 1 < p.length) :
    natAt (bytesAt p o m) j 2 = wordAt p n := by
  rw [natAt, bytesAt_bytesAt h, ← natAt, ho, natAt_two hp, wordAt]

theorem checkLine_eq (serial : Digits) (i : Nat) (h : 14 + 10 * i + 10 ≤ p.length) :
    checkLine (bytesAt p (14 + 10 * i) 10) (i + 1) serial =
      checkedInOrder serial (lineChecks p i) (goodsLineAt p i) := by
  have harticle : unpackDigits 6 (bytesAt (bytesAt p (14 + 10 * i) 10) 0 3) = _ :=
    (congrArg (unpackDigits 6) (bytesAt_bytesAt (by omega))).trans (unpackDigits_bytesAt (n := 3) (by omega))
  have hclass : natAt (bytesAt p (14 + 10 * i) 10) 3 1 = byteAt p (17 + 10 * i) := natAt_bytesAt_one (by omega) (by omega)
  have hcount : natAt (bytesAt p (14 + 10 * i) 10) 4 1 = byteAt p (18 + 10 * i) := natAt_bytesAt_one (by omega) (by omega)
  have hmass : natAt (bytesAt p (14 + 10 * i) 10) 5 2 = wordAt p (19 + 10 * i) :=
    natAt_bytesAt_two (by omega) (by omega) (by omega)
  have hlayers : natAt (bytesAt p (14 + 10 * i) 10) 7 1 = byteAt p (21 + 10 * i) := natAt_bytesAt_one (by omega) (by omega)
  have hheight : natAt (bytesAt p (14 + 10 * i) 10) 8 2 = wordAt p (22 + 10 * i) :=
    natAt_bytesAt_two (by omega) (by omega) (by omega)
  simp only [checkLine, harticle, hclass, hcount, hmass, hlayers, hheight, unitClassOf_eq, Nat.add_zero, lineChecks,
    checkedInOrder_cons, checkedInOrder_nil, ite_not_eq_true, Bool.decide_and]
  by_cases hdigits : (nibblesAt p (14 + 10 * i) 3).all (· ≤ 9) = true
  · by_cases hunit : 1 ≤ byteAt p (17 + 10 * i) ∧ byteAt p (17 + 10 * i) ≤ 3
    · simp [hdigits, hunit, goodsLineAt]
    · simp [hdigits, hunit]
  · simp [hdigits]

/-- The lines are checked one after the other, from the one at index i on. -/
theorem checkLines_eq (serial : Digits) (i : Nat) (h : 14 + 10 * (i + n) ≤ p.length) :
    checkLines p serial (14 + 10 * i) (i + 1) n =
      checkedInOrder serial ((List.range' i n).flatMap (lineChecks p)) ((List.range' i n).map (goodsLineAt p)) := by
  induction n generalizing i with
  | zero => rfl
  | succ n ih =>
    have hfirst := checkLine_eq (p := p) serial i (by omega)
    have hrest := ih (i + 1) (by omega)
    rw [show 14 + 10 * (i + 1) = 14 + 10 * i + 10 by omega] at hrest
    simp only [checkLines, hfirst, hrest, List.range'_succ, List.flatMap_cons, List.map_cons, checkedInOrder,
      List.find?_append]
    cases (lineChecks p i).find? fun x => !x.2.2 with
    | some x => rfl
    | none =>
      cases ((List.range' (i + 1) n).flatMap (lineChecks p)).find? fun x => !x.2.2 <;> rfl

/-! ## The MANIFEST -/

/-- The checks before the lines (Table 4-1). -/
def headChecks (p : List Byte) : List Check :=
  [(.serial, 0, (nibblesAt p 0 5).all (· ≤ 9)),
   (.order, 0, (nibblesAt p 5 4).all (· ≤ 9) || (nibblesAt p 5 4).all (· == 15)),
   (.duty, 0, byteAt p 9 == 1 || byteAt p 9 == 2), (.laneClass, 0, decide (byteAt p 10 ≤ 2)),
   (.tare, 0, decide (500 ≤ wordAt p 11 ∧ wordAt p 11 ≤ 6000)),
   (.lineCount, 0, decide (1 ≤ byteAt p 13 ∧ byteAt p 13 ≤ 6 ∧ p.length = 14 + 10 * byteAt p 13))]

/-- The manifest that the bytes give (Table 12-5). -/
def manifestAt (p : List Byte) : Manifest where
  serial := digitsAt p 0 5
  order := if (nibblesAt p 5 4).all (· == 15) = true then none else some (digitsAt p 5 4)
  duty := if byteAt p 9 = 1 then .inBond else .dutyPaid
  laneClass := if byteAt p 10 = 0 then .any else if byteAt p 10 = 1 then .a else .b
  tare := wordAt p 11
  lines := (List.range (byteAt p 13)).map (goodsLineAt p)

/-- What the checks before the lines leave is the check of as many lines as the payload is long. -/
theorem validateManifest_eq (h : 14 ≤ p.length) : validateManifest p =
    checkedInOrder (digitsAt p 0 5) (headChecks p ++ (List.range ((p.length - 14) / 10)).flatMap (lineChecks p))
      (manifestAt p) := by
  have hserial : unpackDigits 10 (bytesAt p 0 5) = _ := unpackDigits_bytesAt (n := 5) (by omega)
  have htare : natAt p 11 2 = wordAt p 11 := natAt_two (by omega)
  simp only [validateManifest, hserial, manifestOrder_bytesAt (p := p) (by omega), htare, natAt_one, laneClassOf_eq,
    ite_not_eq_true, headChecks, List.cons_append, List.nil_append, checkedInOrder_cons, Bool.decide_and, Bool.and_assoc,
    Bool.beq_eq_decide_eq]
  by_cases hs : (nibblesAt p 0 5).all (· ≤ 9) = true
  · by_cases ho : ((nibblesAt p 5 4).all (· ≤ 9) || (nibblesAt p 5 4).all (fun n => decide (n = 15))) = true
    · by_cases hl : byteAt p 10 ≤ 2
      · simp only [hs, ho, hl, if_true, decide_true]
        by_cases hn : (decide (1 ≤ byteAt p 13) && (decide (byteAt p 13 ≤ 6) &&
            decide (p.length = 14 + 10 * byteAt p 13))) = true
        · simp only [Bool.and_eq_true, decide_eq_true_eq] at hn
          obtain ⟨-, -, hlength⟩ := hn
          have hlines := checkLines_eq (p := p) (n := byteAt p 13) (digitsAt p 0 5) 0 (by omega)
          rw [show (p.length - 14) / 10 = byteAt p 13 by omega, manifestAt, List.range_eq_range', hlines]
          simp only [checkedInOrder]
          cases ((List.range' 0 (byteAt p 13)).flatMap (lineChecks p)).find? fun x => !x.2.2 <;> rfl
        · simp [hn]
      · simp [hs, ho, hl]
    · simp [hs, ho]
  · simp [hs]

end

end Sys2Proof.Machine
end

