-- ==== Proofs/ManifestReceived.lean ====
section
/-! PROOF. A MANIFEST at CHECK is rejected, bound to the pallet that waits for it, or stored (R70 to R72, R79); O35. -/

namespace Sys2Proof.Machine

section
variable {s m : State} {p : List Byte} {rest : List RxFrame} {x : Manifest} {e : Rejection}

theorem exec_manifestReceived (hc : hasRole s .check = true) (hin : inService s = true)
    (hrx : s.line.rx = .manifest p :: rest) :
    exec .manifestReceived s = .next (settle s (evalStep (receiveManifest p (dropHead s)))) := by
  simp [exec, execManifestReceived, hrx, hin, hc]

/-! ## The three outcomes -/

theorem receiveManifest_of_error (h : validateManifest p = .error e) :
    receiveManifest p m = notify (.manifestRejected e.check e.line e.serial) m := by simp [receiveManifest, h]

theorem receiveManifest_of_asked (h : validateManifest p = .ok x)
    (ha : m.store.request.any (fun r => r.serial = x.serial) = true) :
    receiveManifest p m = manifestFound x (endRequest m) := by
  simp only [receiveManifest, h, if_pos ha, bindManifest]

theorem receiveManifest_of_unasked (h : validateManifest p = .ok x)
    (ha : m.store.request.any (fun r => r.serial = x.serial) ≠ true) :
    receiveManifest p m = m.setStore { m.store with manifests := storeManifest x m.store.manifests } := by
  simp only [receiveManifest, h, if_neg ha]

theorem endRequest_rx (s : State) : (endRequest s).line.rx = s.line.rx := by
  unfold endRequest
  split <;> simp

theorem evalStep_rx (m : State) : (evalStep m).line.rx = m.line.rx := by
  obtain ⟨_, i, x, -, -, -, -, -, h⟩ | h := evalStep_cases m
  · obtain ⟨v, hl, hv | ⟨_, hv⟩⟩ := evaluate_cases x i m <;> simp [h, hv, hl]
  · rw [h]

theorem receiveManifest_rx (p : List Byte) (m : State) : (receiveManifest p m).line.rx = m.line.rx := by
  unfold receiveManifest
  split
  · simp
  · split <;> simp [bindManifest, endRequest_rx]

/-- The evaluation is of the same pallet, whatever it is handed. -/
theorem receiveManifest_eval_track (p : List Byte) (m : State) :
    (receiveManifest p m).eval.map Evaluation.track = m.eval.map Evaluation.track := by
  unfold receiveManifest
  split
  · simp
  · split
    · simp [bindManifest, manifestFound_eval, Function.comp_def]
    · simp

/-! ## Rejected -/

/-- A frame queued leaves the bytes of the attempt under way (R60). -/
theorem queueFrame_bytes (f : TxFrame) (s : State) :
    (queueFrame f s).line.sending.map Sending.bytes = s.line.sending.map Sending.bytes := by
  rw [queueFrame_line]
  split
  · obtain ⟨-, h⟩ | ⟨-, -, h⟩ | ⟨-, -, -, h⟩ | ⟨-, -, -, h⟩ := pushFrame_cases f s.line <;>
      simp [h, markTxOverrun, Function.comp_def]
  · rfl

theorem queueFrame_rxOverrun (f : TxFrame) (s : State) : (queueFrame f s).line.rxOverrun = s.line.rxOverrun := by
  rw [queueFrame_line]
  split
  · exact pushFrame_rxOverrun f s.line
  · rfl

/-- An event that changes nothing an evaluation or the end of the event reads leaves nothing to either. -/
theorem settle_evalStep_of_same (hset : Settled s) (hrole : RoleFollows s) (hw : works s .check = true) (h : SameCore s m)
    (ho : m.zone.offerTimer = s.zone.offerTimer) (he : m.eval = s.eval) : settle s (evalStep m) = m := by
  rw [evalStep_of_roleFollows hrole hw he h.table, settle_same (h.settled ho hset) h.platformEmpty.symm]

/-! ## Stored -/

/-- The list with a manifest stored: in place of one with its serial, or of the oldest of a full list (R72). -/
theorem storeManifest_eq (h : m.store.manifests.length ≤ Config.storeCapacity) : storeManifest x m.store.manifests =
    (if x.serial ∈ storeSerials m then m.store.manifests.filter (fun y => y.serial != x.serial)
      else if m.store.manifests.length = 32 then m.store.manifests.drop 1 else m.store.manifests) ++ [x] := by
  have hserial : m.store.manifests.any (fun y => y.serial = x.serial) = decide (x.serial ∈ storeSerials m) := by
    rw [Bool.eq_iff_iff]
    simp [storeSerials]
  have hfull : m.store.manifests.length < Config.storeCapacity ↔ ¬ m.store.manifests.length = 32 := by
    simp only [Config.storeCapacity] at h ⊢
    omega
  simp only [storeManifest, hserial, hfull, decide_eq_true_eq, ite_not, apply_ite (· ++ [x])]

/-! ## The obligation -/

/-- Settles O35: the verdict is the layout's (`validateManifest_eq`), and each outcome leaves the rest of the event nothing but an
evaluation of the manifest bound. -/
theorem manifestIsBoundOrStored : Obligations.ManifestIsBoundOrStored := by
  intro s p rest e x byte word nibs dig checks hbyte hword hnibs hdig hchecks hs hcheck hset hrole hc hin hrx
  have hw : works s .check = true := (works_iff _).2 ⟨active_of_inService hin, hc⟩
  have hd : dropHead s = s.setLine { s.line with rx := rest } := dropHead_eq hrx
  have hrole' : hasRole (evalStep (receiveManifest p (dropHead s))) .check = true := by
    rw [hasRole_evalStep, hasRole_congr (s := s) (by simp [dropHead]), hc]
  have hT : (settle s (evalStep (receiveManifest p (dropHead s)))).table =
      (evalStep (receiveManifest p (dropHead s))).table := settle_table_of_check hrole'
  refine ⟨_, exec_manifestReceived hc hin hrx, fun b => by cases b <;> simp [Block.same, settleBlocks, dropHead], ?_,
    evalKept_evalStep (m := receiveManifest p (dropHead s)) ?_ (settle_eval _ _) hT, fun herr => ?_, fun hok => ?_,
    fun hlen => ?_⟩
  · rw [settle_rx, evalStep_rx, receiveManifest_rx, hd]
    rfl
  · rw [receiveManifest_eval_track]
    rfl
  · rw [receiveManifest_of_error herr, notify, settle_evalStep_of_same hset hrole hw (by constructor <;> simp [dropHead])
      (by simp [dropHead]) (by simp [dropHead])]
    refine ⟨fun b => by cases b <;> simp [Block.same, dropHead], queueFrame_bytes _ _, queueFrame_rxOverrun _ _,
      fun hroom => ?_⟩
    have hroom : s.line.tx.length + 1 ≤ 8 := tx_of_roomFor hroom
    rw [queueFrame_room (s := dropHead s) hin rfl (by simpa [dropHead, Config.txCapacity] using hroom), hd]
    rfl
  · split
    · rename_i hasked
      obtain ⟨r, hr, hserial⟩ : ∃ r, s.store.request = some r ∧ r.serial = x.serial := by
        simpa [Option.any_eq_true] using hasked
      have hbound : receiveManifest p (dropHead s) = manifestFound x (endRequest (dropHead s)) :=
        receiveManifest_of_asked hok hasked
      have hline : Unqueued (.wanted x.serial) (receiveManifest p (dropHead s)) := by
        rw [hbound, Unqueued, manifestFound_line, ← hserial]
        exact unqueued_endRequest (s := dropHead s) hr
      refine ⟨?_, ?_, fun y hy hyw => ?_, List.all_eq_true.2 ((hline.evalStep (by simp)).settle hrole' rfl)⟩
      · rw [settle_store, evalStep_store, hbound, manifestFound_store, endRequest_store]
        rfl
      · rw [settle_eval]
        exact all_evalStep (by rw [hbound, manifestFound_eval]; exact all_map_of_forall (by simp) _)
      · rw [hT] at hy
        have hmem := mem_of_mem_evalStep hy hyw
        rw [hbound] at hmem
        exact holdsManifest_of_manifestFound hmem hyw
    · rename_i hno
      rw [receiveManifest_of_unasked (m := dropHead s) hok hno, settle_evalStep_of_same hset hrole hw
        (by constructor <;> simp [dropHead]) (by simp [dropHead]) (by simp [dropHead]), hd, ← storeManifest_eq hcheck.1]
      rfl
  · subst hbyte hword hnibs hdig
    have htable : checks = headChecks p ++ (List.range ((p.length - 14) / 10)).flatMap (lineChecks p) := hchecks
    have hlong : 14 ≤ p.length := by
      simp only [List.mem_cons, List.not_mem_nil, or_false] at hlen
      omega
    rw [validateManifest_eq hlong, checkedInOrder, ← htable]
    cases checks.find? fun x => !x.2.2 <;> rfl

end

end Sys2Proof.Machine
end

