-- ==== Proofs/Evaluation.lean ====
section
/-! PROOF. The evaluation that takes place: what it writes, what it leaves, and the notice of a FAIL (R103, R122, R134, R135); O41. -/

namespace Sys2Proof.Machine

section
variable {s : State} {ev : Evaluation} {i : Inputs} {e x : Entry}

/-- With its inputs resolved and its record in WORKING, the evaluation takes place (R122). -/
theorem evalStep_of_inputs (hc : hasRole s .check = true) (hev : s.eval = some ev) (hi : inputsOf ev = some i)
    (he : zoneEntryIn s .working = some e) (ht : e.record.track = ev.track) : evalStep s = evaluate e i s := by
  simp [evalStep, hc, hev, hi, he, ht]

/-- Of a sound table one entry alone is in WORKING (R8). -/
theorem StationSound.eq_of_working (hs : StationSound s) (he : zoneEntryIn s .working = some e) (hx : x ∈ s.table)
    (hw : x.state = .working) : x = e := by
  obtain ⟨outs, tail, hT, ho, -⟩ := hs.shape
  rw [zoneEntryIn_of_table hT ho (by decide)] at he
  have hetail : e ∈ tail.toList := List.mem_of_find?_eq_some he
  rw [hT] at hx
  obtain hout | hxtail := List.mem_append.1 hx
  · simp [ho x hout] at hw
  · rw [Option.mem_toList] at hetail hxtail
    exact Option.some.inj (hxtail.symm.trans hetail)

/-! ## The blocks it writes -/

theorem evaluate_table (e : Entry) (i : Inputs) (s : State) : (evaluate e i s).table = s.table.map fun x =>
    if x.state = .working then { x with state := .done, record := evaluated s.cfg.check i x.record } else x := by
  rw [evaluate, reportVerdict_table, State.setEval_table, endWork_table, writeWorking_table, State.setWeigh_table,
    List.map_map]
  exact List.map_congr_left fun x _ => by by_cases hx : x.state = .working <;> simp [hx]

theorem evaluate_weigh (e : Entry) (i : Inputs) (s : State) :
    (evaluate e i s).weigh = { s.weigh with weighing := false, settle := none } := by
  simp [evaluate]

theorem evaluate_eval (e : Entry) (i : Inputs) (s : State) : (evaluate e i s).eval = none := by
  simp [evaluate]

theorem onlyChanges_evaluate (e : Entry) (i : Inputs) (s : State) :
    onlyChanges [.line, .table, .weigh, .eval] s (evaluate e i s) := fun b => by
  cases b <;> simp [Block.same]

/-- A FAIL queues the notice of its primary reason, a PASS nothing (R135). -/
theorem evaluate_tx (hin : inService s = true) (hroom : s.line.tx.length < 8) : (evaluate e i s).line.tx =
    match failSet s.cfg.check e.record i with
    | [] => s.line.tx
    | p :: _ => insertTx (freshTx (.notice (.checkFailed e.record.track p))) s.line.tx := by
  rw [evaluate]
  cases failSet s.cfg.check e.record i with
  | nil => simp [verdictOf, reportVerdict]
  | cons p rest =>
    rw [verdictOf, reportVerdict, notify, queueFrame_room (by rw [← hin]; rfl) rfl (by simpa [Config.txCapacity] using hroom)]
    simp

/-! ## The fields of the record -/

/-- An evaluation writes five fields of the record, the verdict that of the fail set, and leaves the others (R134). -/
theorem evaluated_eq (c : CheckCfg) (i : Inputs) (r : TravelRecord) {gross height length : Option Nat} {deviation : Option Int}
    (hg : (evaluated c i r).gross = gross) (hh : (evaluated c i r).height = height)
    (hl : (evaluated c i r).length = length) (hd : (evaluated c i r).deviation = deviation) :
    evaluated c i r = { r with gross := gross, height := height, length := length, deviation := deviation
                               check := some (verdictOf (failSet c r i)) } := by
  rw [← hg, ← hh, ← hl, ← hd]
  rfl

/-- Settles O41: the evaluation that takes place writes the one entry in WORKING, whose figures the inputs decide case by case. -/
theorem evaluationWritesTheRecord : Obligations.EvaluationWritesTheRecord := by
  intro s ev i e hs hc hev hi he ht
  rw [evalStep_of_inputs hc hev hi he ht]
  refine ⟨onlyChanges_evaluate e i s, evaluate_eval e i s, evaluate_weigh e i s, ?_, fun hin hroom => ?_⟩
  · rw [evaluate_table]
    refine List.map_congr_left fun x hx => ?_
    split
    · rename_i hw
      obtain rfl := hs.eq_of_working he hx hw
      refine congrArg (fun r => { x with state := .done, record := r }) (evaluated_eq s.cfg.check i x.record ?_ ?_ ?_ ?_)
      · cases h : i.mass <;> simp [evaluated, h]
      · cases h : i.profile <;> simp [evaluated, h]
      · cases h : i.profile <;> simp [evaluated, h]
      · cases hm : i.mass <;> cases hf : i.manifest <;> simp [evaluated, hm, hf, manifestIsFound, deviationOf]
    · rfl
  · have hroom : s.line.tx.length + 1 ≤ 8 := tx_of_roomFor hroom
    exact evaluate_tx hin hroom

end

end Sys2Proof.Machine
end

