-- ==== Proofs/WeighUnit.lean ====
section
/-! PROOF. What the operations of the Weigh Unit make of its figures (R92, R94 to R96, R101), and what the rest of the event leaves of
them (R89, R103). -/

namespace Sys2Proof.Machine

section
variable {b s m : State}

/-! ## The zero -/

theorem setScaleFault_weigh (k : ZeroFaultKind) (v : Option Int) (s : State) : (setScaleFault k v s).weigh =
    { s.weigh with
      scaleFault := true
      owedFault := if s.weigh.scaleFault || inService s then s.weigh.owedFault else some (k, v) } := by
  unfold setScaleFault
  split
  · rename_i hf
    cases hw : s.weigh
    simp_all
  · rename_i hf
    split <;> simp_all

/-- In IN_SERVICE the notice of a SCALE_FAULT newly set goes out at once (R94). -/
theorem queued_setScaleFault {k : ZeroFaultKind} {v : Option Int} (hf : s.weigh.scaleFault = false) (hin : inService s = true)
    (hroom : s.line.tx.length < 8) : queued (.notice (.zeroFault k v)) (setScaleFault k v s) = true := by
  rw [setScaleFault, if_neg (by simp [hf]), if_pos hin]
  exact queued_self (s := s.setWeigh _) hin rfl hroom

/-- In STARTING a SCALE_FAULT queues nothing: its notice is owed (R94). -/
theorem setScaleFault_line_of_starting {k : ZeroFaultKind} {v : Option Int} (hin : inService s = false) :
    (setScaleFault k v s).line = s.line := by
  unfold setScaleFault
  split
  · rfl
  · rw [if_neg (by simp [hin])]
    rfl

/-- An attempt in range gives a new zero, which clears SCALE_FAULT and the postponement count (R92, R94). -/
theorem zeroAttempt_of_inRange (h : zeroInRange s (stableSum s.weigh.window) = true) : zeroAttempt s =
    s.setWeigh { s.weigh with
      z0 := if s.weigh.established then s.weigh.z0 else stableSum s.weigh.window, established := true
      z := stableSum s.weigh.window, postponed := 0, scaleFault := false
      zeroDue := some s.cfg.check.zeroInterval, window := [] } := by
  simp only [zeroAttempt, h, if_true]

/-- An attempt out of range sets SCALE_FAULT (R92, R94). -/
theorem zeroAttempt_of_outOfRange (h : zeroInRange s (stableSum s.weigh.window) = false) : zeroAttempt s =
    emptyWindow (setScaleFault (if s.weigh.established then .zeroRange else .startRange)
      (some (stableSum s.weigh.window)) s) := by
  simp only [zeroAttempt, h, Bool.false_eq_true, if_false]

theorem postponeZero_weigh (h : s.weigh.postponed ≤ Config.postponeLimit) :
    (postponeZero s).weigh = { s.weigh with postponed := min 8 (s.weigh.postponed + 1) } := by
  have hlimit : Config.postponeLimit = 8 := rfl
  simp only [postponeZero]
  split
  · have hmin : min 8 (s.weigh.postponed + 1) = s.weigh.postponed + 1 := by omega
    split <;> simp [hmin]
  · have hfull : s.weigh.postponed = 8 := by omega
    cases hw : s.weigh
    simp_all

/-- The eighth postponement is reported with the zero it leaves (R96). -/
theorem queued_postponeZero (h : s.weigh.postponed = 7) (hin : inService s = true) (hroom : s.line.tx.length < 8) :
    queued (.notice (.zeroOverdue s.weigh.z)) (postponeZero s) = true := by
  have hlt : s.weigh.postponed < Config.postponeLimit := by rw [h]; decide
  have hreached : s.weigh.postponed + 1 = Config.postponeLimit := by rw [h]; rfl
  simp only [postponeZero, if_pos hlt]
  rw [if_pos (by exact hreached)]
  exact queued_self (s := s.setWeigh { s.weigh with postponed := s.weigh.postponed + 1 }) hin rfl hroom

theorem postponeZero_length_le (s : State) : (postponeZero s).line.tx.length ≤ s.line.tx.length + 1 := by
  simp only [postponeZero]
  split
  · split
    · exact queueFrame_length_le _ _
    · simp
  · omega

/-! ## The weighing -/

theorem endWeighing_weigh (x : MassResolution) (s : State) :
    (endWeighing x s).weigh = { s.weigh with weighing := false, settle := none, held := none } := by
  simp [endWeighing]

theorem endWeighing_eval (x : MassResolution) (s : State) :
    (endWeighing x s).eval = s.eval.map fun e => { e with mass := some x } := by
  simp [endWeighing, handMass]

/-! ## The rest of the event -/

/-- An evaluation ends the weighing, and touches nothing else of the Weigh Unit (R103). -/
theorem evalStep_weigh_cases (m : State) :
    (evalStep m).weigh = m.weigh ∨ (evalStep m).weigh = { m.weigh with weighing := false, settle := none } := by
  obtain ⟨_, i, e, -, -, -, -, -, h⟩ | h := evalStep_cases m
  · exact .inr (by rw [h, evaluate_weigh])
  · exact .inl (by rw [h])

/-- The end of an event can empty the settle window, and touches nothing else of the Weigh Unit (R89). -/
theorem settle_weigh (b m : State) :
    ∃ w, (w = m.weigh.window ∨ w = []) ∧ (settle b m).weigh = { m.weigh with window := w } := by
  cases ha : active m
  · exact ⟨m.weigh.window, .inl rfl, by rw [settle_inactive ha]⟩
  · rw [settle_active ha]
    obtain h | h := windowStep_cases b (offerStep (slotStep (routeStep (permitStep (stopOffering m)))))
    · exact ⟨[], .inr rfl, by simp [h, emptyWindow]⟩
    · exact ⟨m.weigh.window, .inl rfl, by simp [h]⟩

/-- With SCALE_FAULT set no event ends with INFEED_PERMIT on (R32, R94). -/
theorem infeedPermit_settle_of_scaleFault (hw : works m .check = true) (hf : m.weigh.scaleFault = true) :
    infeedPermit (settle b m) = false := by
  obtain ⟨ha, hc⟩ := (works_iff _).1 hw
  have hpermit : (permitStep (stopOffering m)).zone.zstate ≠ .inbound := fun hz => by
    have hwp : works (permitStep (stopOffering m)) .check = true := by
      rw [works_congr (s := m) (by simp) (by simp), hw]
    have hclear := ((permitStep_permits (stopOffering m)).1 hwp hz).2.1
    simp [hf] at hclear
  simp [infeedPermit, settle_zstate_of_check ha hc, hpermit]

theorem settle_slot_of_check (hc : hasRole m .check = true) : (settle b m).slot = m.slot := by
  cases ha : active m
  · rw [settle_inactive ha]
  · rw [settle_of_check ha hc]
    simp

theorem settle_route_of_check (hc : hasRole m .check = true) : (settle b m).route = m.route := by
  cases ha : active m
  · rw [settle_inactive ha]
  · rw [settle_of_check ha hc]
    simp

end

end Sys2Proof.Machine
end

