-- ==== Proofs/StartZeroEnds.lean ====
section
/-! PROOF. The entry to IN_SERVICE with an empty queue: HELLO goes first, and what STARTING owes stands behind it (R94, R180, R181). -/

namespace Sys2Proof.Machine

section
variable {s m : State} {n : Nat}

/-- HELLO stands at the head of a queue of at most `n` frames. -/
def HelloLeads (n : Nat) (s : State) : Prop :=
  s.line.tx.head?.map TxEntry.frame = some .hello ∧ s.line.tx.length ≤ n

theorem HelloLeads.mono (h : HelloLeads n s) : HelloLeads (n + 1) s := ⟨h.1, h.2.trans n.le_succ⟩

theorem HelloLeads.of_line (h : HelloLeads n s) (hl : m.line = s.line) : HelloLeads n m := by
  rwa [HelloLeads, hl]

/-- A frame that takes a free place, or that of an OFFER, stays behind the HELLO (R59 to R61). -/
theorem HelloLeads.queueFrame {f : TxFrame} (h : HelloLeads n s) (hn : n < 8) : HelloLeads (n + 1) (queueFrame f s) := by
  refine ⟨?_, (queueFrame_length_le f s).trans (Nat.succ_le_succ h.2)⟩
  obtain ⟨hhead, hlen⟩ := h
  rw [queueFrame_line]
  split
  · cases htx : s.line.tx with
    | nil => simp [htx] at hhead
    | cons x rest =>
      have hx : x.frame = .hello := by simpa [htx] using hhead
      obtain ⟨-, hp⟩ | ⟨-, -, hp⟩ | ⟨-, hfull, -⟩ | ⟨-, hfull, -⟩ := pushFrame_cases f s.line
      · simp [hp, htx, replaceOffer, hx, offerTrack]
      · simp [hp, htx, insertTx, hx, txRank]
      all_goals simp only [Config.txCapacity] at hfull; omega
  · exact hhead

theorem HelloLeads.stopOffering (h : HelloLeads n s) : HelloLeads n (stopOffering s) := by
  refine ⟨?_, (stopOffering_length_le s).trans h.2⟩
  obtain ⟨-, -, hs⟩ | ⟨-, hs⟩ := stopOffering_cases s
  · cases htx : s.line.tx with
    | nil => simp [HelloLeads, htx] at h
    | cons x rest =>
      have hx : x.frame = .hello := by simpa [htx] using h.1
      simp [hs, endOffering, withdrawFrames, htx, withdrawEntry, hx, offerTrack]
  · rw [hs]
    exact h.1

/-- At CHECK the end of an event queues at most an OFFER (R33). -/
theorem HelloLeads.settle {b : State} (h : HelloLeads n m) (hn : n < 8) (hc : hasRole m .check = true) :
    HelloLeads (n + 1) (settle b m) := by
  cases ha : active m
  · rw [settle_inactive ha]
    exact h.mono
  · rw [settle_of_check ha hc]
    have hpermit : HelloLeads n (permitStep (Machine.stopOffering m)) := h.stopOffering.of_line (by simp)
    refine HelloLeads.of_line ?_ (windowStep_line _ _)
    obtain ⟨e, -, -, -, hs⟩ | ⟨-, hs⟩ := offerStep_cases (permitStep (Machine.stopOffering m)) <;> rw [hs]
    · exact HelloLeads.queueFrame (s := (permitStep (Machine.stopOffering m)).setZone _) hpermit hn
    · exact hpermit.mono

/-! ## The entry to IN_SERVICE -/

/-- The station with its HELLO queued and its own hold in the set, before what STARTING owes (R180, R181). -/
def greeting (s : State) : State := addOwnHold (queueFrame .hello (s.setService .inService))

theorem enterInService_eq (s : State) : enterInService s = raiseRequest (payOwedFault (greeting s)) := rfl

theorem inService_greeting (s : State) : inService (greeting s) = true := by simp [inService, greeting]

theorem helloLeads_greeting (h : s.line.tx = []) : HelloLeads 1 (greeting s) := by
  rw [HelloLeads, greeting, addOwnHold_line,
    queueFrame_room (s := s.setService .inService) rfl rfl (by simp [h, Config.txCapacity])]
  simp [h, insertTx, freshTx]

theorem HelloLeads.payOwedFault (h : HelloLeads n s) (hn : n < 8) : HelloLeads (n + 1) (payOwedFault s) := by
  unfold Machine.payOwedFault
  split
  · exact HelloLeads.queueFrame (s := s.setWeigh _) h hn
  · exact h.mono

theorem HelloLeads.raiseRequest (h : HelloLeads n s) (hn : n < 8) : HelloLeads (n + 1) (raiseRequest s) := by
  unfold Machine.raiseRequest
  split
  · split
    · exact HelloLeads.queueFrame (s := s.setStore _) h hn
    · exact h.mono
  · exact h.mono

/-- HELLO, a notice owed and a WANTED are all that the entry to IN_SERVICE queues. -/
theorem helloLeads_enterInService (h : s.line.tx = []) : HelloLeads 3 (enterInService s) := by
  rw [enterInService_eq]
  exact ((helloLeads_greeting h).payOwedFault (by decide)).raiseRequest (by decide)

theorem payOwedFault_weigh (s : State) : (payOwedFault s).weigh = { s.weigh with owedFault := none } := by
  unfold payOwedFault
  split
  · simp
  · rename_i hnone
    cases hw : s.weigh
    simp_all

theorem enterInService_weigh (s : State) : (enterInService s).weigh = { s.weigh with owedFault := none } := by
  simp [enterInService_eq, payOwedFault_weigh, greeting]

theorem queued_raiseRequest {f : TxFrame} (hf : offerTrack f = none) (hroom : s.line.tx.length < 8)
    (h : queued f s = true) : queued f (raiseRequest s) = true := by
  unfold raiseRequest
  split
  · split
    · exact queued_queueFrame_room (s := s.setStore _) hf hroom h
    · exact h
  · exact h

/-- The notice that STARTING owes goes out behind the HELLO (R94). -/
theorem queued_enterInService_owed {k : ZeroFaultKind} {v : Option Int} (h : s.line.tx = [])
    (ho : s.weigh.owedFault = some (k, v)) : queued (.notice (.zeroFault k v)) (enterInService s) = true := by
  have hlead := helloLeads_greeting h
  have hpaid : payOwedFault (greeting s) =
      notify (.zeroFault k v) ((greeting s).setWeigh { (greeting s).weigh with owedFault := none }) := by
    simp [payOwedFault, greeting, ho]
  have hlen := (hlead.payOwedFault (by decide)).2
  rw [enterInService_eq]
  refine queued_raiseRequest rfl (by omega) ?_
  rw [hpaid]
  exact queued_self (s := (greeting s).setWeigh _) (inService_greeting s) rfl (by
    rw [State.setWeigh_line]
    exact hlead.2.trans_lt (by decide))

/-! ## The start-zero task -/

theorem endStartZero_weigh (s : State) : (endStartZero s).weigh =
    { s.weigh with startZero := none, zeroDue := some s.cfg.check.zeroInterval, owedFault := none } := by
  simp [endStartZero, enterInService_weigh]

end

end Sys2Proof.Machine
end

