-- ==== Proofs/ScaleTimers.lean ====
section
/-! PROOF. The expiries of the scale's timers: start-zero, zero-due and settle (R92 to R96, R101, R180); O37. -/

namespace Sys2Proof.Machine

section
variable {s : State}

/-! ## The start-zero timer -/

/-- The start-zero task that has ended without an attempt (R93). -/
def startZeroFailed (s : State) : State := endStartZero (setScaleFault .noStableEmpty none s)

theorem exec_startZeroTimerExpiry (hw : works s .check = true) (h : s.weigh.startZero.isSome = true) :
    exec .startZeroTimerExpiry s = .next (settle s (startZeroFailed s)) := by
  simp [exec, execStartZeroTimerExpiry, hw, h, startZeroFailed]

theorem startZeroFailed_weigh (s : State) : (startZeroFailed s).weigh =
    { s.weigh with
      scaleFault := true, startZero := none, zeroDue := some s.cfg.check.zeroInterval, owedFault := none } := by
  simp [startZeroFailed, endStartZero_weigh, setScaleFault_weigh]

theorem onlyChanges_startZeroFailed (s : State) :
    onlyChanges [.service, .line, .zone, .store, .weigh] s (startZeroFailed s) := fun b => by
  cases b <;> simp [Block.same, startZeroFailed, endStartZero]

/-- Of a failed start-zero task the queue holds the HELLO first, and the notice where SCALE_FAULT was clear. -/
theorem startZeroFailed_line (hstart : s.service = .starting) (htx : s.line.tx = []) :
    HelloLeads 3 (startZeroFailed s) ∧
      (s.weigh.scaleFault = false → queued (.notice (.zeroFault .noStableEmpty none)) (startZeroFailed s) = true) := by
  have hin : inService s = false := by simp [inService, hstart]
  have htx' : (setScaleFault .noStableEmpty none s).line.tx = [] := by rw [setScaleFault_line_of_starting hin, htx]
  exact ⟨helloLeads_enterInService htx', fun hf => queued_enterInService_owed htx' (by simp [setScaleFault_weigh, hf, hin])⟩

/-- The start-zero timer ends its task with SCALE_FAULT and brings the station into service (R93, R94, R180). -/
theorem startZeroTimer_expires (hw : works s .check = true) (hz : s.weigh.startZero.isSome = true)
    (hstart : s.service = .starting) (htx : s.line.tx = []) :
    ∃ t, exec .startZeroTimerExpiry s = .next t ∧ t.service = .inService ∧ t.weigh.scaleFault = true ∧
      t.weigh.startZero = none ∧ t.weigh.zeroDue = some s.cfg.check.zeroInterval ∧
      t.weigh.established = s.weigh.established ∧ t.line.tx.head?.map TxEntry.frame = some .hello ∧
      infeedPermit t = false ∧ t.table = s.table ∧
      (s.weigh.scaleFault = false → queued (.notice (.zeroFault .noStableEmpty none)) t = true) ∧
      onlyChanges [.service, .line, .zone, .store, .weigh] s t := by
  have honly := onlyChanges_startZeroFailed s
  have hcfg : (startZeroFailed s).cfg = s.cfg := by simpa [Block.same] using honly .cfg
  have htable : (startZeroFailed s).table = s.table := by simpa [Block.same] using honly .table
  have hserv : (startZeroFailed s).service = .inService := by simp [startZeroFailed, endStartZero]
  have hc : hasRole (startZeroFailed s) .check = true := by rw [hasRole_congr hcfg, ((works_iff _).1 hw).2]
  have hwm : works (startZeroFailed s) .check = true := by simp [works, active, hserv, hc]
  have hweigh := startZeroFailed_weigh s
  obtain ⟨hlead, hqueued⟩ := startZeroFailed_line hstart htx
  have hkept : (settle s (startZeroFailed s)).weigh.scaleFault = true ∧
      (settle s (startZeroFailed s)).weigh.startZero = none ∧
      (settle s (startZeroFailed s)).weigh.zeroDue = some s.cfg.check.zeroInterval ∧
      (settle s (startZeroFailed s)).weigh.established = s.weigh.established := by
    obtain ⟨w, -, h⟩ := settle_weigh s (startZeroFailed s)
    simp [h, hweigh]
  obtain ⟨hfault, hstarted, hdue, hest⟩ := hkept
  refine ⟨_, exec_startZeroTimerExpiry hw hz, by simp [hserv], hfault, hstarted, hdue, hest,
    (hlead.settle (by decide) hc).1, infeedPermit_settle_of_scaleFault hwm (by simp [hweigh]),
    (settle_table_of_check hc).trans htable,
    fun hf => queued_settle_of_check hc rfl (hlead.2.trans_lt (by decide)) (hqueued hf), ?_⟩
  refine honly.trans (cs := [.line, .zone, .weigh]) (fun b => ?_) (fun _ => id) (by decide)
  cases b <;> simp [Block.same, settle_table_of_check hc, settle_slot_of_check hc, settle_route_of_check hc]

/-! ## The zero-due timer -/

/-- The station with its zero-due timer restarted (R95). -/
def zeroDueAgain (s : State) : State := s.setWeigh { s.weigh with zeroDue := some s.cfg.check.zeroInterval }

/-- What the expiry of the zero-due timer makes of the station (R95). -/
def zeroDueTaken (s : State) : State :=
  if stableEmpty s then zeroAttempt (zeroDueAgain s) else postponeZero (zeroDueAgain s)

theorem exec_zeroDueExpiry (hw : works s .check = true) (h : s.weigh.zeroDue.isSome = true) :
    exec .zeroDueExpiry s = .next (settle s (zeroDueTaken s)) := by
  simp [exec, execZeroDueExpiry, hw, h, zeroDueTaken, zeroDueAgain]

theorem onlyChanges_zeroDueTaken (s : State) : onlyChanges [.line, .weigh] s (zeroDueTaken s) := fun b => by
  unfold zeroDueTaken
  split <;> cases b <;> simp [Block.same, zeroDueAgain]

theorem zeroDueTaken_of_inRange (he : stableEmpty s = true) (h : zeroInRange s (stableSum s.weigh.window) = true) :
    zeroDueTaken s = s.setWeigh { s.weigh with
      z0 := if s.weigh.established then s.weigh.z0 else stableSum s.weigh.window, established := true
      z := stableSum s.weigh.window, postponed := 0, scaleFault := false
      zeroDue := some s.cfg.check.zeroInterval, window := [] } := by
  rw [zeroDueTaken, if_pos he]
  exact zeroAttempt_of_inRange (s := zeroDueAgain s) h

theorem zeroDueTaken_of_outOfRange (he : stableEmpty s = true) (h : zeroInRange s (stableSum s.weigh.window) = false) :
    zeroDueTaken s = emptyWindow (setScaleFault (if s.weigh.established then .zeroRange else .startRange)
      (some (stableSum s.weigh.window)) (zeroDueAgain s)) := by
  rw [zeroDueTaken, if_pos he]
  exact zeroAttempt_of_outOfRange (s := zeroDueAgain s) h

theorem zeroDueTaken_of_postponed (he : stableEmpty s = false) : zeroDueTaken s = postponeZero (zeroDueAgain s) := by
  rw [zeroDueTaken, if_neg (by simp [he])]

/-- The timer restarts, whatever comes of the zero (R95). -/
theorem zeroDueTaken_zeroDue (hp : s.weigh.postponed ≤ Config.postponeLimit) :
    (zeroDueTaken s).weigh.zeroDue = some s.cfg.check.zeroInterval := by
  cases he : stableEmpty s
  · rw [zeroDueTaken_of_postponed he, postponeZero_weigh (s := zeroDueAgain s) hp]
    rfl
  · cases hr : zeroInRange s (stableSum s.weigh.window)
    · simp [zeroDueTaken_of_outOfRange he hr, emptyWindow, setScaleFault_weigh, zeroDueAgain]
    · simp [zeroDueTaken_of_inRange he hr]

theorem offering_false_of_stableEmpty (he : stableEmpty s = true) : offering s = false := by
  have hz : s.zone.zstate = .empty ∨ s.zone.zstate = .inbound := by
    simp only [stableEmpty, platformEmpty, Bool.and_eq_true, Bool.or_eq_true, decide_eq_true_eq] at he
    obtain ⟨⟨⟨hz, -⟩, -⟩, -⟩ := he
    exact hz
  exact offering_false_of_zone (by obtain h | h := hz <;> simp [h])

/-- A CHECK station that offers nothing keeps what is queued but for its OFFERs, however full the queue is. -/
theorem queued_settle_of_idle {b m : State} {f : TxFrame} (hc : hasRole m .check = true) (ho : offering m = false)
    (hf : offerTrack f = none) (h : queued f m = true) : queued f (settle b m) = true := by
  cases ha : active m
  · rwa [settle_inactive ha]
  · have hrole : hasRole (permitStep (stopOffering m)) .check = true := by rw [hasRole_congr (s := m) (by simp), hc]
    have hd : hasRole m .dispatch = false := not_dispatch_of_check hc
    rw [settle_of_not_offering ha ho fun h => by simp [hd] at h, slotStep_of_check hrole, queued_congr (windowStep_line _ _),
      queued_congr (permitStep_line _)]
    exact queued_stopOffering hf h

section taken
variable {t : State}

/-- A zero that is due on a stable empty platform and in range is the new zero (R92, R95). -/
theorem zeroDue_inRange (he : stableEmpty s = true) (hr : zeroInRange s (stableSum s.weigh.window) = true)
    (ht : t = settle s (zeroDueTaken s)) : t.weigh.window = [] ∧ t.weigh.z = stableSum s.weigh.window ∧
      t.weigh.established = true ∧ t.weigh.postponed = 0 ∧ t.weigh.scaleFault = false ∧
      t.weigh.z0 = if s.weigh.established then s.weigh.z0 else stableSum s.weigh.window := by
  have hweigh := congrArg State.weigh (zeroDueTaken_of_inRange he hr)
  obtain ⟨w, hwindow, h⟩ := settle_weigh s (zeroDueTaken s)
  have hw : w = [] := by obtain rfl | rfl := hwindow <;> simp [hweigh]
  simp [ht, h, hw, hweigh]

/-- One that is out of range leaves the zero and sets SCALE_FAULT, which is reported where it was clear (R92, R94). -/
theorem zeroDue_outOfRange (hw : works s .check = true) (he : stableEmpty s = true)
    (hr : zeroInRange s (stableSum s.weigh.window) = false) (ht : t = settle s (zeroDueTaken s)) :
    t.weigh.window = [] ∧ t.weigh.z = s.weigh.z ∧ t.weigh.scaleFault = true ∧ t.weigh.postponed = s.weigh.postponed ∧
      infeedPermit t = false ∧ (s.weigh.scaleFault = false → inService s = true → roomFor 1 s = true →
        queued (.notice (.zeroFault (if s.weigh.established then .zeroRange else .startRange)
          (some (stableSum s.weigh.window)))) t = true) := by
  have honly := onlyChanges_zeroDueTaken s
  have hserv : (zeroDueTaken s).service = s.service := by simpa [Block.same] using honly .service
  have hcfg : (zeroDueTaken s).cfg = s.cfg := by simpa [Block.same] using honly .cfg
  have htable : (zeroDueTaken s).table = s.table := by simpa [Block.same] using honly .table
  have hzone : (zeroDueTaken s).zone = s.zone := by simpa [Block.same] using honly .zone
  have hwm : works (zeroDueTaken s) .check = true := by rw [works_congr hserv hcfg, hw]
  have hm := zeroDueTaken_of_outOfRange he hr
  obtain ⟨hmwindow, hmz, hmfault, hmpost⟩ : (zeroDueTaken s).weigh.window = [] ∧ (zeroDueTaken s).weigh.z = s.weigh.z ∧
      (zeroDueTaken s).weigh.scaleFault = true ∧ (zeroDueTaken s).weigh.postponed = s.weigh.postponed := by
    simp [hm, emptyWindow, setScaleFault_weigh, zeroDueAgain]
  have hkept : t.weigh.window = [] ∧ t.weigh.z = s.weigh.z ∧ t.weigh.scaleFault = true ∧
      t.weigh.postponed = s.weigh.postponed := by
    obtain ⟨w, hw, h⟩ := settle_weigh s (zeroDueTaken s)
    rw [hmwindow, or_self] at hw
    simp [ht, h, hw, hmz, hmfault, hmpost]
  obtain ⟨hwindow, hz, hfault, hpost⟩ := hkept
  refine ⟨hwindow, hz, hfault, hpost, ht ▸ infeedPermit_settle_of_scaleFault hwm hmfault, fun hf hin hroom => ?_⟩
  have hroom : s.line.tx.length + 1 ≤ 8 := tx_of_roomFor hroom
  have hidle : offering (zeroDueTaken s) = false := by
    rw [offering_congr hserv hcfg htable (by rw [hzone]) (by rw [hzone]), offering_false_of_stableEmpty he]
  rw [ht]
  refine queued_settle_of_idle ((works_iff _).1 hwm).2 hidle rfl ?_
  rw [hm, queued_congr (emptyWindow_line _)]
  exact queued_setScaleFault (s := zeroDueAgain s) hf hin hroom

/-- A zero that is due on no stable empty platform is postponed (R95, R96). -/
theorem zeroDue_postponed (hw : works s .check = true) (hp : s.weigh.postponed ≤ Config.postponeLimit)
    (he : stableEmpty s = false) (ht : t = settle s (zeroDueTaken s)) :
    t.weigh.z = s.weigh.z ∧ t.weigh.scaleFault = s.weigh.scaleFault ∧ t.weigh.postponed = min 8 (s.weigh.postponed + 1) ∧
      (s.weigh.postponed = 7 → inService s = true → roomFor 2 s = true →
        queued (.notice (.zeroOverdue s.weigh.z)) t = true) := by
  have hm := zeroDueTaken_of_postponed he
  have hweigh : (zeroDueTaken s).weigh = { (zeroDueAgain s).weigh with postponed := min 8 (s.weigh.postponed + 1) } := by
    rw [hm]
    exact postponeZero_weigh (s := zeroDueAgain s) hp
  have hkept : t.weigh.z = s.weigh.z ∧ t.weigh.scaleFault = s.weigh.scaleFault ∧
      t.weigh.postponed = min 8 (s.weigh.postponed + 1) := by
    obtain ⟨w, -, h⟩ := settle_weigh s (zeroDueTaken s)
    simp [ht, h, hweigh, zeroDueAgain]
  obtain ⟨hz, hfault, hpost⟩ := hkept
  refine ⟨hz, hfault, hpost, fun h7 hin hroom => ?_⟩
  have hroom : s.line.tx.length + 2 ≤ 8 := tx_of_roomFor hroom
  have hlen : (postponeZero (zeroDueAgain s)).line.tx.length ≤ s.line.tx.length + 1 := postponeZero_length_le (zeroDueAgain s)
  rw [ht, hm]
  refine queued_settle_of_check ?_ rfl (by omega) (queued_postponeZero (s := zeroDueAgain s) h7 hin ?_)
  · rw [hasRole_congr (s := s) (by simp [zeroDueAgain]), ((works_iff _).1 hw).2]
  · rw [zeroDueAgain, State.setWeigh_line]
    omega

end taken

/-! ## The settle timer -/

theorem exec_settleTimerExpiry (hw : works s .check = true) (h : s.weigh.settle.isSome = true) :
    exec .settleTimerExpiry s = .next (settle s (evalStep (endWeighing .unstable s))) := by
  simp [exec, execSettleTimerExpiry, hw, h]

/-- Settles O37: each timer's expiry acts on the Weigh Unit, and the rest of the event leaves its figures but for the window. -/
theorem scaleTimersExpire : Obligations.ScaleTimersExpire := by
  intro s hs hcheck hw
  obtain ⟨-, -, hpost⟩ := hcheck
  have hc := ((works_iff _).1 hw).2
  refine ⟨fun hz hstart htx => startZeroTimer_expires hw hz hstart htx, fun hdue => ?_, fun hsettle => ?_⟩
  · have honly := onlyChanges_zeroDueTaken s
    have hcm : hasRole (zeroDueTaken s) .check = true := by
      rw [hasRole_congr (s := s) (by simpa [Block.same] using honly .cfg), hc]
    refine ⟨_, exec_zeroDueExpiry hw hdue, ?_, ?_, ?_, fun he => ?_, fun he => zeroDue_postponed hw hpost he rfl⟩
    · exact honly.trans (onlyChanges_settle (bs := []) fun x => .inr (by cases x <;> rfl)) (by decide) (by decide)
    · exact (settle_table_of_check hcm).trans (by simpa [Block.same] using honly .table)
    · obtain ⟨w, -, h⟩ := settle_weigh s (zeroDueTaken s)
      exact (congrArg Weigh.zeroDue h).trans (zeroDueTaken_zeroDue hpost)
    · cases hr : zeroInRange s (stableSum s.weigh.window)
      · obtain ⟨hwindow, h⟩ := zeroDue_outOfRange hw he hr rfl
        exact ⟨hwindow, by simp, fun _ => h⟩
      · obtain ⟨hwindow, h⟩ := zeroDue_inRange he hr rfl
        exact ⟨hwindow, fun _ => h, by simp⟩
  · have hweigh : ∀ t, t = settle s (evalStep (endWeighing .unstable s)) →
        t.weigh.settle = none ∧ t.weigh.weighing = false ∧ t.weigh.lastGross = s.weigh.lastGross := fun t ht => by
      obtain ⟨w, -, h⟩ := settle_weigh s (evalStep (endWeighing .unstable s))
      obtain h' | h' := evalStep_weigh_cases (endWeighing .unstable s) <;> simp [ht, h, h', endWeighing_weigh]
    obtain ⟨hstopped, hended, hlast⟩ := hweigh _ rfl
    have hrole : hasRole (evalStep (endWeighing .unstable s)) .check = true := by
      rw [hasRole_evalStep, hasRole_congr (s := s) (by simp), hc]
    refine ⟨_, exec_settleTimerExpiry hw hsettle, fun b => by cases b <;> simp [Block.same, settleBlocks], hstopped, hended,
      hlast, evalKept_evalStep (m := endWeighing .unstable s) ?_ (settle_eval _ _) (settle_table_of_check hrole), ?_⟩
    · simp [endWeighing_eval, Function.comp_def]
    · rw [settle_eval]
      exact all_evalStep (by rw [endWeighing_eval]; exact all_map_of_forall (by simp) _)

end

end Sys2Proof.Machine
end

