-- ==== Proofs/ScanNotice.lean ====
section
/-! PROOF. A scan that ends the start-zero task out of range in IN_SERVICE (R92 to R94, R180); O36: its notice may not stay queued. -/

namespace Sys2Proof.Machine

/-- A CHECK station with a window of four scans, that takes a zero of 1 and no other, and whose scan of no load cell reads 0. -/
def narrowCfg : Loaded :=
  { Loaded.none with role := some .check, check := { Loaded.none.check with windowSize := 4, deadLoad := 1 } }

/-- It in IN_SERVICE, INBOUND, with two places in its queue, its start-zero timer running and a request whose WANTED has not been
raised; its window lacks one scan. The model starts the start-zero task in STARTING and ends it with the entry to IN_SERVICE, but the
laws that O36 presumes, those of the station table, the zone and what waits, are silent on the timer and on the request. -/
def lateStartZero : State :=
  (((((State.reset.setService .inService).setCfg narrowCfg).setZone { ZoneCtl.atReset with zstate := .inbound }).setWeigh
    { Weigh.atReset with startZero := some 1, window := List.replicate 3 { gross := 0, flagged := false } }).setStore
    { Store.atReset with request := some { serial := [], wait := none } }).setLine
    { LineCtl.atReset with tx := List.replicate 6 (freshTx (.notice (.jamCleared none))) }

/-- What the scan makes of it: the notice took the seventh place, HELLO the eighth, and the WANTED, of a smaller class, that of the
notice. -/
def noticeDropped : State :=
  (((lateStartZero.setZone ZoneCtl.atReset).setWeigh { Weigh.atReset with scaleFault := true, zeroDue := some 0 }).setStore
    { Store.atReset with request := some { serial := [], wait := some 0 } }).setLine
    { LineCtl.atReset with
      tx := freshTx .hello :: freshTx (.wanted []) :: List.replicate 6 (freshTx (.notice (.jamCleared none))), txOverrun := true }

/-- A scan of five inputs at 0. -/
def zeroScan : RawScan := { lc1 := 0, lc2 := 0, lc3 := 0, lc4 := 0, exc := 0 }

theorem stationSound_lateStartZero : StationSound lateStartZero := by decide

theorem settled_lateStartZero : Settled lateStartZero := by decide

theorem exec_scanComplete_lateStartZero : exec (.scanComplete zeroScan) lateStartZero = .next noticeDropped := by rfl

theorem not_queued_noticeDropped : queued (.notice (.zeroFault .startRange (some 0))) noticeDropped = false := by decide

/-- Refutes O36: its clause on NOTICE ZERO_FAULT asks for two free places in IN_SERVICE, also where the scan ends the start-zero
task. That entry to IN_SERVICE queues the HELLO and the WANTED of a pending request too. As the third frame the WANTED finds the
queue full and drops the youngest frame of the greatest class (R60), which is the notice. -/
theorem not_scansWeighThePallet : ¬ Obligations.ScansWeighThePallet := fun h => by
  obtain ⟨-, t, ht, -, -, hidle, -⟩ := h lateStartZero zeroScan { gross := 0, flagged := false }
    (List.replicate 4 { gross := 0, flagged := false }) stationSound_lateStartZero settled_lateStartZero rfl rfl rfl
  obtain ⟨-, -, -, -, -, -, -, hnotice, -⟩ := hidle rfl (by decide) (by decide) (.inl rfl)
  obtain rfl : noticeDropped = t := Host.Outcome.next.inj (exec_scanComplete_lateStartZero.symm.trans ht)
  have hqueued : queued (.notice (.zeroFault .startRange (some 0))) noticeDropped = true :=
    hnotice (by decide) rfl (.inl ⟨rfl, rfl⟩)
  rw [not_queued_noticeDropped] at hqueued
  cases hqueued

end Sys2Proof.Machine
end

