-- ==== Proofs/ProfileMeasurement.lean ====
section
/-! PROOF. The encoder steps of a CHECK station (O38): what the snapshot of a step makes of the profiling in each phase
(R110 to R114), and what the rest of the event leaves of it. -/

namespace Sys2Proof.Machine

section
variable {s m u t : State} {beams : BitVec 40}

/-! ## The figures of a snapshot -/

theorem max?_eq_getLast?_of_pairwise {l : List Nat} (h : l.Pairwise (· < ·)) : l.max? = l.getLast? := by
  obtain rfl | ⟨init, last, rfl⟩ := l.eq_nil_or_concat
  · rfl
  · rw [List.concat_eq_append] at h ⊢
    obtain ⟨-, -, hlast⟩ := List.pairwise_append.1 h
    rw [List.getLast?_concat, List.max?_eq_some_iff]
    refine ⟨by simp, fun x hx => ?_⟩
    obtain hx | rfl := by simpa using hx
    · exact (hlast x hx last (by simp)).le
    · exact le_rfl

/-- The beams stand lowest first, so the last blocked one is the greatest (R108). -/
theorem snapshotTop_eq_foldl_max (beams : BitVec 40) : snapshotTop beams = (blockedBeams beams).foldl max 0 := by
  have hsorted : (blockedBeams beams).Pairwise (· < ·) := List.pairwise_lt_range.filter _
  rw [snapshotTop, List.foldl_max, max?_eq_getLast?_of_pairwise hsorted, Nat.zero_max]

/-- The test for a gap, over the natural numbers (R112). -/
theorem gapSample_eq_decide (allowance : Nat) (beams : BitVec 40) : gapSample allowance beams =
    decide ((blockedBeams beams).length + allowance < snapshotTop beams + 1) := by
  rw [gapSample, snapshotCount, decide_eq_decide]
  omega

/-! ## The snapshot in each phase -/

theorem profileStep_of_idle (h : s.prof.phase = .none ∨ s.prof.phase = .complete ∨ s.prof.phase = .faulted) :
    profileStep beams s = s := by
  obtain h | h | h := h <;> simp [profileStep, h]

theorem profileStep_of_unarmed (h : s.prof.phase = .unarmed) :
    profileStep beams s = s.setProf { s.prof with phase := if beams = 0 then .armed else .unarmed } := by
  have hsame : { s.prof with phase := .unarmed } = s.prof := by rw [← h]
  by_cases hb : beams = 0
  · simp only [profileStep, h, hb, ↓reduceIte]
  · simp only [profileStep, h, hb, ↓reduceIte, hsame, State.setProf_same]

theorem profileStep_of_armed_clear (h : s.prof.phase = .armed) : profileStep 0 s = s := by simp [profileStep, h]

theorem profileStep_of_armed_blocked (h : s.prof.phase = .armed) (hb : beams ≠ 0) :
    profileStep beams s = s.setProf (frontEdge s.cfg.check beams s.prof) := by
  simp only [profileStep, h, hb, ↓reduceIte]

theorem profileStep_of_curtain_clear (h : s.prof.phase = .inCurtain) : profileStep 0 s =
    completeProfile (stepsFrom s.prof.front s.prof.counter * 5) false
      (s.setProf { s.prof with rear := some s.prof.counter }) := by simp [profileStep, h, curtainStep]

theorem profileStep_of_curtain_blocked (h : s.prof.phase = .inCurtain) (hb : beams ≠ 0)
    (hn : s.prof.compare ≠ some s.prof.counter) :
    profileStep beams s = s.setProf (addSnapshot s.cfg.check.gapAllowance beams s.prof) := by
  simp only [profileStep, h, curtainStep, hb, hn, ↓reduceIte]

theorem profileStep_of_overrun (h : s.prof.phase = .inCurtain) (hb : beams ≠ 0)
    (hn : s.prof.compare = some s.prof.counter) : profileStep beams s =
      completeProfile (s.cfg.check.maxPassSteps * 5) true
        (s.setProf (addSnapshot s.cfg.check.gapAllowance beams s.prof)) := by
  simp only [profileStep, h, curtainStep, hb, hn, ↓reduceIte]

/-- Whatever the phase, a snapshot works on the profiling alone, or completes it too; the counter is not its own (R107). -/
theorem profileStep_cases (beams : BitVec 40) (s : State) : ∃ p : Profile, (profileStep beams s = s.setProf p ∨
    ∃ length overrun, profileStep beams s = completeProfile length overrun (s.setProf p)) ∧
      p.counter = s.prof.counter := by
  cases h : s.prof.phase with
  | none | complete | faulted => exact ⟨s.prof, .inl (profileStep_of_idle (by simp [h])), rfl⟩
  | unarmed => exact ⟨_, .inl (profileStep_of_unarmed h), rfl⟩
  | armed =>
    obtain rfl | hb := eq_or_ne beams 0
    · exact ⟨s.prof, .inl (profileStep_of_armed_clear h), rfl⟩
    · exact ⟨_, .inl (profileStep_of_armed_blocked h hb), rfl⟩
  | inCurtain =>
    obtain rfl | hb := eq_or_ne beams 0
    · exact ⟨_, .inr ⟨_, _, profileStep_of_curtain_clear h⟩, rfl⟩
    · by_cases hn : s.prof.compare = some s.prof.counter
      · exact ⟨_, .inr ⟨_, _, profileStep_of_overrun h hb hn⟩, rfl⟩
      · exact ⟨_, .inl (profileStep_of_curtain_blocked h hb hn), rfl⟩

theorem completeProfile_prof (length : Nat) (overrun : Bool) (s : State) :
    (completeProfile length overrun s).prof = { s.prof with phase := .complete, compare := none } := rfl

theorem completeProfile_eval (length : Nat) (overrun : Bool) (s : State) : (completeProfile length overrun s).eval =
    s.eval.map fun ev => { ev with profile := some (.complete {
      top := s.prof.top.getD 0, height := beamHeight (s.prof.top.getD 0), length := length, gaps := s.prof.gaps
      overrun := overrun }) } := rfl

theorem profileStep_counter (beams : BitVec 40) (s : State) : (profileStep beams s).prof.counter = s.prof.counter := by
  obtain ⟨p, h | ⟨_, _, h⟩, hp⟩ := profileStep_cases beams s
  · rw [h, State.setProf_prof, hp]
  · rw [h, completeProfile_prof, State.setProf_prof, hp]

/-- A snapshot leaves the evaluation with its record (R121). -/
theorem profileStep_eval_track (beams : BitVec 40) (s : State) :
    (profileStep beams s).eval.map Evaluation.track = s.eval.map Evaluation.track := by
  obtain ⟨p, h | ⟨_, _, h⟩, -⟩ := profileStep_cases beams s
  · rw [h, State.setProf_eval]
  · simp [h, completeProfile_eval, Function.comp_def]

/-! ## The step -/

/-- The station with the step counted (R107). -/
def countStep (s : State) : State := s.setProf { s.prof with counter := s.prof.counter + 1 }

theorem exec_encoderStep (hw : works s .check = true) :
    exec (.encoderStep beams) s = .next (settle s (evalStep (profileStep beams (countStep s)))) := by
  simp [exec, execEncoderStep, hw, countStep]

/-- A step that hands no profile is done with the profiling: neither the evaluation nor the end of the event reads it. -/
theorem settle_evalStep_setProf (hset : Settled s) (hrole : RoleFollows s) (hw : works s .check = true) {p : Profile}
    (h : m = s.setProf p) : settle s (evalStep m) = s.setProf p := by
  have hsame : SameCore s (s.setProf p) := by constructor <;> rfl
  rw [h]
  exact settle_evalStep_of_same hset hrole hw hsame rfl rfl

/-- What a completed profile leaves, whether or not its evaluation takes place in the event (R116, R122). -/
theorem settle_evalStep_completeProfile {length : Nat} {overrun : Bool} (h : m = completeProfile length overrun u)
    (ht : t = settle s (evalStep m)) : t.prof = { u.prof with phase := .complete, compare := none } ∧
      t.eval.all (fun ev => ev.profile = some (.complete {
        top := u.prof.top.getD 0, height := 125 + 50 * u.prof.top.getD 0, length := length, gaps := u.prof.gaps
        overrun := overrun })) = true := by
  refine ⟨by rw [ht, settle_prof, evalStep_prof, h, completeProfile_prof], ?_⟩
  rw [ht, settle_eval]
  refine all_evalStep ?_
  rw [h, completeProfile_eval]
  exact all_map_of_forall (by simp [beamHeight]) _

/-- Settles O38: in each phase, by whether the snapshot is clear, the step works on the profiling alone or completes the
profile. -/
theorem encoderStepsProfileThePallet : Obligations.EncoderStepsProfileThePallet := by
  intro s beams n top gap _ hset hrole hw hn htop hgap
  subst hn
  replace htop : snapshotTop beams = top := (snapshotTop_eq_foldl_max beams).trans htop.symm
  replace hgap : gapSample s.cfg.check.gapAllowance beams = gap := by
    rw [gapSample_eq_decide, htop, hgap]
    rfl
  have hcheck : hasRole (evalStep (profileStep beams (countStep s))) .check = true := by
    rw [hasRole_evalStep, hasRole_congr (s := s) (by simp [countStep]), ((works_iff _).1 hw).2]
  have hadd (p : Profile) : addSnapshot s.cfg.check.gapAllowance beams p =
      { p with top := some (max (p.top.getD 0) top), gaps := if gap then p.gaps + 1 else p.gaps } := by
    rw [addSnapshot, htop, hgap]
  refine ⟨_, exec_encoderStep hw, ?_, evalKept_evalStep (profileStep_eval_track beams (countStep s)) (settle_eval _ _)
      (settle_table_of_check hcheck), fun b => by cases b <;> simp [Block.same, settleBlocks, countStep],
    fun hp => ?_, fun hp => ?_, ?_, fun hp hb => ?_, fun hp hb hc => ?_, ?_, fun hp hb hc => ?_⟩
  · rw [settle_prof, evalStep_prof, profileStep_counter]
    rfl
  · exact settle_evalStep_setProf hset hrole hw (profileStep_of_idle (s := countStep s) hp)
  · exact settle_evalStep_setProf hset hrole hw (profileStep_of_unarmed (s := countStep s) hp)
  · rintro hp rfl
    exact settle_evalStep_setProf hset hrole hw (profileStep_of_armed_clear (s := countStep s) hp)
  · refine (settle_evalStep_setProf hset hrole hw (profileStep_of_armed_blocked (s := countStep s) hp hb)).trans ?_
    exact congrArg s.setProf (hadd _)
  · refine (settle_evalStep_setProf hset hrole hw (profileStep_of_curtain_blocked (s := countStep s) hp hb hc)).trans ?_
    exact congrArg s.setProf (hadd _)
  · rintro f hf hp rfl
    obtain ⟨hprof, heval⟩ := settle_evalStep_completeProfile (s := s)
      (profileStep_of_curtain_clear (s := countStep s) hp) rfl
    have hlength : stepsFrom (countStep s).prof.front (countStep s).prof.counter = (s.prof.counter + 1 - f).toNat := by
      simp [stepsFrom, countStep, Option.mem_def.1 hf]
    rw [hlength] at heval
    exact ⟨by rw [hprof], by rw [hprof]; rfl, heval⟩
  · obtain ⟨hprof, heval⟩ := settle_evalStep_completeProfile (s := s)
      (profileStep_of_overrun (s := countStep s) hp hb hc) rfl
    have hfigures := hadd (countStep s).prof
    rw [State.setProf_prof, show (countStep s).cfg = s.cfg from rfl, hfigures] at heval
    exact ⟨by rw [hprof], heval⟩

end

end Sys2Proof.Machine
end

