-- ==== Proofs/RoleWork.lean ====
section
/-! PROOF. When an evaluation, a wrap request or a print start could take place (R122, R141, R157), which operations
bring none about, and which leave none undone; O59. -/

namespace Sys2Proof.Machine

section
variable {b s m u : State} {T : List Entry}

/-! ## The record in WORKING -/

/-- The track of the first entry in WORKING. -/
def workingTrack (T : List Entry) : Option Track := (T.find? (fun e => e.state = .working)).map (fun e => e.record.track)

theorem workingTrack_cons (e : Entry) (T : List Entry) :
    workingTrack (e :: T) = if e.state = .working then some e.record.track else workingTrack T := by
  by_cases h : e.state = .working <;> simp [workingTrack, h]

theorem workingTrack_eq_none : workingTrack T = none ↔ ∀ e ∈ T, e.state ≠ .working := by simp [workingTrack]

/-- Entries leave that are not in WORKING. -/
theorem workingTrack_filter {p : Entry → Bool} (h : ∀ e ∈ T, e.state = .working → p e = true) :
    workingTrack (T.filter p) = workingTrack T := by
  induction T with
  | nil => rfl
  | cons e T ih =>
    have ih := ih fun x hx => h x (List.mem_cons_of_mem e hx)
    cases hp : p e
    · have hne : e.state ≠ .working := fun hw => by simp [h e List.mem_cons_self hw] at hp
      simp [hp, workingTrack_cons, hne, ih]
    · simp [hp, workingTrack_cons, ih]

theorem workingTrack_eraseP {p : Entry → Bool} (h : ∀ e, e.state = .working → p e = false) :
    workingTrack (T.eraseP p) = workingTrack T := by
  induction T with
  | nil => rfl
  | cons e T ih =>
    cases hp : p e
    · simp [hp, workingTrack_cons, ih]
    · have hne : e.state ≠ .working := fun hw => by simp [h e hw] at hp
      simp [hp, workingTrack_cons, hne]

/-- Entries change, but none comes to WORKING or leaves it, and those in it keep their tracks. -/
theorem workingTrack_map {f : Entry → Entry} (hs : ∀ e, (f e).state = .working ↔ e.state = .working)
    (hk : ∀ e, (f e).record.track = e.record.track) : workingTrack (T.map f) = workingTrack T := by
  induction T with
  | nil => rfl
  | cons e T ih => simp [workingTrack_cons, hs, hk, ih]

/-- An entry changes its state, from one that is not WORKING to another. -/
theorem workingTrack_mapState {a : RecordState} {f : Entry → Entry} (ha : a ≠ .working)
    (hs : ∀ e, (f e).state ≠ .working) (hk : ∀ e, (f e).record.track = e.record.track) :
    workingTrack (T.map fun e => if e.state = a then f e else e) = workingTrack T := by
  refine workingTrack_map (fun e => ?_) fun e => by split <;> simp [hk]
  split
  · simp_all
  · rfl

theorem workingTrack_append {e : Entry} (h : e.state ≠ .working) : workingTrack (T ++ [e]) = workingTrack T := by
  simp [workingTrack, List.find?_append, h]

/-- Nothing that the end of an event does to the table touches the record in WORKING. -/
theorem workingTrack_settle (b m : State) : workingTrack (settle b m).table = workingTrack m.table := by
  cases ha : active m
  · rw [settle_inactive ha]
  have hroute : ∀ u, workingTrack (routeStep u).table = workingTrack u.table := fun u => by
    obtain h | ⟨-, h⟩ | ⟨e, -, -, h⟩ := routeStep_cases u <;> rw [h]
    · rfl
    · rw [watchLaneWait_table]
      obtain ⟨x, exit, -, -, hd⟩ | ⟨x, -, -, hd⟩ := decideRoute_cases e.record u <;> rw [hd]
      · rw [startDelivery_eq, State.setZone_table, State.setRoute_table, moveState_table, fixExitClass_table]
        exact workingTrack_mapState (by decide) (by simp) (by simp)
      · rw [fixExitClass_table]
  have hslot : ∀ u, workingTrack (slotStep u).table = workingTrack u.table := fun u => by
    obtain ⟨r, -, -, -, -, h⟩ | ⟨r, -, -, -, -, h⟩ | h := slotStep_cases u <;> rw [h]
    · rw [acceptOffer_table]
      exact workingTrack_append (by simp [acceptedEntry])
    · simp
  rw [settle_active ha, windowStep_table, offerStep_table, hslot, hroute, permitStep_table, stopOffering_table]

/-! ## Work that could take place -/

/-- The evaluation has its inputs, and its record is the one in WORKING (R122). -/
theorem evalReady_eq (s : State) :
    evalReady s = s.eval.any (fun ev => (inputsOf ev).isSome && decide (workingTrack s.table = some ev.track)) := by
  rw [evalReady]
  congr 1
  funext ev
  congr 1
  rw [show workingTrack s.table = (zoneEntryIn s .working).map (fun e => e.record.track) from rfl]
  cases zoneEntryIn s .working <;> simp

theorem evalReady_of_no_working (h : workingTrack s.table = none) : evalReady s = false := by
  rw [evalReady_eq, h]
  simp

theorem evalReady_of_no_eval (h : s.eval = none) : evalReady s = false := by simp [evalReady, h]

/-- An evaluation that is as before, its record no other, is ready only if it was. -/
theorem evalReady_of (he : m.eval = s.eval)
    (hT : workingTrack m.table = workingTrack s.table ∨ workingTrack m.table = none) (h : evalReady m = true) :
    evalReady s = true := by
  obtain hT | hT := hT
  · rwa [evalReady_eq, hT, he, ← evalReady_eq] at h
  · simp [evalReady_of_no_working hT] at h

theorem evalReady_false_of (hno : evalReady s = false) (he : m.eval = s.eval)
    (hT : workingTrack m.table = workingTrack s.table ∨ workingTrack m.table = none) : evalReady m = false :=
  Bool.eq_false_iff.2 fun h => by simp [evalReady_of he hT h] at hno

theorem wrapReady_iff : wrapReady s = true ↔ s.wrap.hs = .waiting ∧ s.pins.wrReady = true ∧ s.pins.wrFault = false ∧
    s.wrap.fault = false ∧ s.wrap.abort = none ∧ s.pins.safe = false := by
  simp [wrapReady, halted, and_assoc]

theorem printReady_iff : printReady s = true ↔ s.label.lstate = .waiting ∧ s.service = .inService ∧
    s.label.fault = false ∧ s.label.abortWait = none ∧ s.pins.safe = false ∧
    inWindowCount s.label.history < Config.historySize := by
  simp [printReady, inService, halted, and_assoc]

theorem wrapReady_of_hs (h : s.wrap.hs ≠ .waiting) : wrapReady s = false := by simp [wrapReady, h]
theorem wrapReady_of_fault (h : s.wrap.fault = true) : wrapReady s = false := by simp [wrapReady, h]
theorem wrapReady_of_abort (h : s.wrap.abort.isSome = true) : wrapReady s = false := by
  simp [wrapReady, Option.isSome_iff_ne_none.1 h]
theorem wrapReady_of_halted (h : s.pins.safe = true) : wrapReady s = false := by simp [wrapReady, halted, h]
theorem printReady_of_lstate (h : s.label.lstate ≠ .waiting) : printReady s = false := by simp [printReady, h]
theorem printReady_of_fault (h : s.label.fault = true) : printReady s = false := by simp [printReady, h]
theorem printReady_of_abortWait (h : s.label.abortWait.isSome = true) : printReady s = false := by
  simp [printReady, Option.isSome_iff_ne_none.1 h]
theorem printReady_of_halted (h : s.pins.safe = true) : printReady s = false := by simp [printReady, halted, h]

/-- The work of a role that could take place at once. -/
def workReady (s : State) : Role → Bool
  | .check => evalReady s
  | .wrap => wrapReady s
  | .label => printReady s
  | .plain => false
  | .dispatch => false

theorem roleFollows_iff : RoleFollows s ↔ ∀ r, works s r = true → workReady s r = false := by
  refine ⟨fun ⟨hc, hw, hl⟩ r => ?_, fun h => ⟨h .check, h .wrap, h .label⟩⟩
  cases r
  case check => exact hc
  case wrap => exact hw
  case label => exact hl
  all_goals exact fun _ => rfl

/-- A station has one role: only that role's work can wait. -/
theorem roleFollows_of_role {r : Role} (hr : hasRole s r = true) (h : workReady s r = false) : RoleFollows s :=
  roleFollows_iff.2 fun q hq => by
    obtain rfl : r = q := by
      by_contra hne
      simp [works, hasRole_unique hr hne] at hq
    exact h

theorem roleFollows_of_inactive (h : active s = false) : RoleFollows s :=
  roleFollows_iff.2 fun r hr => by simp [works, h] at hr

/-- What the conditions read is as before, or fails: no work has come to be ready. -/
theorem RoleFollows.mono (hr : RoleFollows s) (hs : active m = active s) (hc : m.cfg = s.cfg)
    (h : ∀ r, hasRole s r = true → workReady m r = true → workReady s r = true) : RoleFollows m :=
  roleFollows_iff.2 fun r hw => by
    rw [works, hs, hasRole_congr hc, ← works] at hw
    have hno := roleFollows_iff.1 hr r hw
    by_contra hm
    simp [h r ((works_iff r).1 hw).2 (by simpa using hm)] at hno

/-! ## What brings no work about -/

/-- The fields that the conditions of R122, R141 and R157 read are as before, the evaluation's as far as the role is CHECK. -/
structure SameWork (s m : State) : Prop where
  service : m.service = s.service
  cfg : m.cfg = s.cfg
  wrap : m.wrap = s.wrap
  label : m.label = s.label
  wrReady : m.pins.wrReady = s.pins.wrReady
  wrFault : m.pins.wrFault = s.pins.wrFault
  safe : m.pins.safe = s.pins.safe
  eval : hasRole s .check = true → evalReady m = true → evalReady s = true

namespace SameWork

theorem refl (s : State) : SameWork s s := ⟨rfl, rfl, rfl, rfl, rfl, rfl, rfl, fun _ => id⟩

theorem trans (h : SameWork s m) (k : SameWork m u) : SameWork s u :=
  ⟨k.1.trans h.1, k.2.trans h.2, k.3.trans h.3, k.4.trans h.4, k.5.trans h.5, k.6.trans h.6, k.7.trans h.7,
    fun hc hu => h.eval hc (k.eval (by rw [hasRole_congr h.cfg, hc]) hu)⟩

/-- Neither the machines nor the table, nor a pin that they read, has changed. -/
theorem of_same (hs : m.service = s.service) (hc : m.cfg = s.cfg) (hp : m.pins = s.pins) (he : m.eval = s.eval)
    (hw : m.wrap = s.wrap) (hl : m.label = s.label) (hT : m.table = s.table) : SameWork s m :=
  ⟨hs, hc, hw, hl, by rw [hp], by rw [hp], by rw [hp], fun _ => evalReady_of he (.inl (by rw [hT]))⟩

/-- The table has changed, but its record in WORKING is the same or is gone. -/
theorem of_table (hs : m.service = s.service) (hc : m.cfg = s.cfg) (hp : m.pins = s.pins) (he : m.eval = s.eval)
    (hw : m.wrap = s.wrap) (hl : m.label = s.label)
    (hT : workingTrack m.table = workingTrack s.table ∨ workingTrack m.table = none) : SameWork s m :=
  ⟨hs, hc, hw, hl, by rw [hp], by rw [hp], by rw [hp], fun _ => evalReady_of he hT⟩

/-- At a station but CHECK there is no evaluation to make. -/
theorem of_machines (hrole : hasRole s .check = false) (hs : m.service = s.service) (hc : m.cfg = s.cfg)
    (hp : m.pins = s.pins) (hw : m.wrap = s.wrap) (hl : m.label = s.label) : SameWork s m :=
  ⟨hs, hc, hw, hl, by rw [hp], by rw [hp], by rw [hp], fun h => by simp [hrole] at h⟩

theorem workReady (h : SameWork s m) {r : Role} (hr : hasRole s r = true) (hm : workReady m r = true) :
    workReady s r = true := by
  cases r
  case check => exact h.eval hr hm
  case wrap =>
    have hm := wrapReady_iff.1 hm
    rw [h.wrap, h.wrReady, h.wrFault, h.safe] at hm
    exact wrapReady_iff.2 hm
  case label =>
    have hm := printReady_iff.1 hm
    rw [h.label, h.service, h.safe] at hm
    exact printReady_iff.2 hm
  all_goals exact absurd hm (by simp [Machine.workReady])

theorem roleFollows (h : SameWork s m) (hr : RoleFollows s) : RoleFollows m :=
  hr.mono (active_congr h.service) h.cfg fun _ => h.workReady

end SameWork

/-- The end of an event neither makes work ready nor takes it away. -/
theorem sameWork_settle (b m : State) : SameWork m (settle b m) :=
  .of_table (by simp) (by simp) (by simp) (by simp) (by simp) (by simp) (.inl (workingTrack_settle b m))

theorem RoleFollows.settle (h : RoleFollows m) : RoleFollows (settle b m) := (sameWork_settle b m).roleFollows h

/-- An event whose own effect leaves what the conditions read. -/
theorem SameWork.settled (h : SameWork s m) (hr : RoleFollows s) : RoleFollows (Machine.settle b m) :=
  (h.roleFollows hr).settle

theorem sameWork_dropHead (s : State) : SameWork s (dropHead s) := .of_same rfl rfl rfl rfl rfl rfl rfl

/-! ## The work done as soon as it can be -/

/-- The evaluation that can take place does (R122). -/
theorem evalReady_evalStep (hc : hasRole m .check = true) : evalReady (evalStep m) = false := by
  cases hm : evalReady m
  · obtain ⟨ev, i, e, -, hev, hi, he, hk, -⟩ | h := evalStep_cases m
    · simp [evalReady, hev, hi, he, hk] at hm
    · rw [h, hm]
  · obtain ⟨ev, hev, hready⟩ := (Option.any_eq_true _ _).1 hm
    obtain ⟨hin, hwork⟩ := Bool.and_eq_true_iff.1 hready
    obtain ⟨i, hi⟩ := Option.isSome_iff_exists.1 hin
    obtain ⟨e, he, hk⟩ := (Option.any_eq_true _ _).1 hwork
    have hstep : evalStep m = evaluate e i m := by
      simp [evalStep, hc, hev, hi, he, of_decide_eq_true hk]
    refine evalReady_of_no_eval ?_
    rw [hstep]
    simp [evaluate]

theorem roleFollows_evalStep (hc : hasRole m .check = true) : RoleFollows (evalStep m) :=
  roleFollows_of_role (r := .check) (by rw [hasRole_congr (s := m) (by simp), hc]) (evalReady_evalStep hc)

/-- The request that can be made is (R141). -/
theorem wrapReady_wrapStep (m : State) : wrapReady (wrapStep m) = false := by
  obtain ⟨-, h⟩ | ⟨hw, h⟩ := wrapStep_cases m <;> rw [h]
  · exact wrapReady_of_hs (by simp)
  · exact hw

theorem roleFollows_wrapStep (hw : hasRole m .wrap = true) : RoleFollows (wrapStep m) :=
  roleFollows_of_role (r := .wrap) (by rw [hasRole_congr (s := m) (by simp), hw]) (wrapReady_wrapStep m)

/-- The print that can start does (R157). -/
theorem printReady_labelStep (m : State) : printReady (labelStep m) = false := by
  obtain ⟨-, h⟩ | ⟨hl, h⟩ := labelStep_cases m <;> rw [h]
  · exact printReady_of_lstate (by simp [startPrint])
  · exact hl

theorem roleFollows_labelStep (hl : hasRole m .label = true) : RoleFollows (labelStep m) :=
  roleFollows_of_role (r := .label) (by rw [hasRole_congr (s := m) (by simp), hl]) (printReady_labelStep m)

end

end Sys2Proof.Machine
end

