-- ==== Proofs/ZoneWork.lean ====
section
/-! PROOF. The commands of the line and the zone bring no work about but what they begin themselves (R39, R122, R141,
R157); O59. -/

namespace Sys2Proof.Machine

section
variable {s m t : State}

/-! ## The line and the frames handed on -/

theorem roleFollows_frameReceived {bytes : List Byte} (hr : RoleFollows s) (h : execFrameReceived bytes s = .next t) :
    RoleFollows t := by
  obtain rfl := Host.Outcome.next.inj h
  split
  · exact hr
  · exact hr

theorem roleFollows_lineIdle (hr : RoleFollows s) (h : execLineIdle s = .next t) : RoleFollows t := by
  obtain rfl := Host.Outcome.next.inj h
  split
  · unfold startAttempt
    split <;> exact hr
  · exact hr

theorem roleFollows_attemptCountedSent (hr : RoleFollows s) (h : execAttemptCountedSent s = .next t) :
    RoleFollows t := by
  obtain rfl := Host.Outcome.next.inj h
  split
  · simp only [attemptSent]
    split
    · exact (SameWork.of_same (by simp) (by simp) (by simp) (by simp) (by simp) (by simp) (by simp)).roleFollows hr
    · exact hr
  · exact hr

theorem roleFollows_attemptFailed (hr : RoleFollows s)
    (h : execLostArbitration s = .next t ∨ execAttemptErrored s = .next t) : RoleFollows t := by
  obtain rfl : (if s.line.sending.isSome then attemptFailed s else s) = t := by
    obtain h | h := h <;> exact Host.Outcome.next.inj h
  split <;> exact hr

theorem roleFollows_queryReceived (hr : RoleFollows s) (h : execQueryReceived s = .next t) : RoleFollows t := by
  obtain rfl := Host.Outcome.next.inj h
  split
  · split
    · unfold answerQuery
      split
      · exact hr
      · exact (SameWork.of_same (s := dropHead s) (by simp) (by simp) (by simp) (by simp) (by simp) (by simp)
          (by simp)).roleFollows hr
    · exact hr
  · exact hr

theorem sameWork_queueFrame (f : TxFrame) (s : State) : SameWork s (queueFrame f s) :=
  .of_same (by simp) (by simp) (by simp) (by simp) (by simp) (by simp) (by simp)

theorem sameWork_notify (n : Notice) (s : State) : SameWork s (notify n s) := sameWork_queueFrame _ s

theorem sameWork_setZone (z : ZoneCtl) (s : State) : SameWork s (s.setZone z) := .of_same rfl rfl rfl rfl rfl rfl rfl

theorem sameWork_setHolds (hs : List Hold) (s : State) : SameWork s (setHolds hs s) := sameWork_setZone _ s

/-- Entries leave the table that are not in WORKING. -/
theorem sameWork_filter {p : Entry → Bool} (h : ∀ e ∈ s.table, e.state = .working → p e = true) :
    SameWork s (s.setTable (s.table.filter p)) :=
  .of_table rfl rfl rfl rfl rfl rfl (.inl (workingTrack_filter h))

theorem roleFollows_holdReceived (hr : RoleFollows s) (h : execHoldReceived s = .next t) : RoleFollows t := by
  obtain rfl := Host.Outcome.next.inj h
  split
  · split
    · exact ((sameWork_dropHead s).trans (sameWork_setHolds _ _)).settled hr
    · exact hr
  · exact hr

theorem roleFollows_resumeReceived (hr : RoleFollows s) (h : execResumeReceived s = .next t) : RoleFollows t := by
  obtain rfl := Host.Outcome.next.inj h
  split
  · split
    · exact ((sameWork_dropHead s).trans (sameWork_setHolds _ _)).settled hr
    · exact hr
  · exact hr

theorem workingTrack_createRecord (k : Bool) {st : RecordState} (hst : st ≠ .working) (s : State) :
    workingTrack (createRecord k st s).table = workingTrack s.table := by
  rw [createRecord_table']
  exact workingTrack_append (by simpa using hst)

/-- A record derived from the eyes is DONE or PRESENT (R53, R180). -/
theorem workingTrack_deriveFromEyes (s : State) : workingTrack (deriveFromEyes s).table = workingTrack s.table := by
  unfold deriveFromEyes
  split
  · exact workingTrack_createRecord _ (by decide) s
  · split
    · exact workingTrack_createRecord _ (by decide) s
    · rfl

theorem sameWork_deriveFromEyes (s : State) : SameWork s (deriveFromEyes s) :=
  .of_table (by simp) (by simp) (by simp) (by simp) (by simp) (by simp) (.inl (workingTrack_deriveFromEyes s))

theorem sameWork_announceOwnHold (s : State) : SameWork s (announceOwnHold s) := by
  obtain h | ⟨c, h | h⟩ := announceOwnHold_cases s <;> rw [h]
  · exact .refl s
  · exact sameWork_setHolds _ s
  · exact (sameWork_setHolds _ s).trans (sameWork_queueFrame _ _)

/-- CLEAR leaves no evaluation, and the machines of WRAP and LABEL in IDLE (R124, R148, R165). -/
theorem roleFollows_emptied (s : State) : RoleFollows (emptied s) := by
  have hd := workDropped_emptied s
  have hrole : ∀ r, hasRole (emptied s) r = hasRole s r := fun r =>
    hasRole_congr (by simp [emptied, clearZone, dropHead]) r
  refine roleFollows_iff.2 fun r hw => ?_
  have hr : hasRole s r = true := by rw [← hrole]; exact ((works_iff r).1 hw).2
  cases r
  case check => exact evalReady_of_no_eval (hd.check hr).2.1
  case wrap => exact wrapReady_of_hs (by simp [hd.wrap hr])
  case label => exact printReady_of_lstate (by simp [(hd.label hr).1])
  all_goals rfl

theorem roleFollows_clearReceived (hr : RoleFollows s) (h : execClearReceived s = .next t) : RoleFollows t := by
  obtain rfl := Host.Outcome.next.inj h
  split
  case h_2 => exact hr
  split
  case isFalse => exact hr
  rw [clearStation_emptied]
  refine ((sameWork_deriveFromEyes _).trans (sameWork_announceOwnHold _)).settled (roleFollows_emptied s)

theorem sameWork_acceptOffer (r : TravelRecord) (s : State) : SameWork s (acceptOffer r s) := by
  refine .of_table (by simp) (by simp) (by simp) (by simp) (by simp) (by simp) (.inl ?_)
  rw [acceptOffer_table]
  exact workingTrack_append (by simp [acceptedEntry])

theorem sameWork_takeOffer (r : TravelRecord) (s : State) : SameWork s (takeOffer r s) := by
  unfold takeOffer
  split
  · split
    · split
      · exact sameWork_queueFrame _ s
      · exact .refl s
    · exact sameWork_notify _ s
  · split
    · exact .refl s
    · split
      · exact sameWork_acceptOffer r s
      · exact .of_same rfl rfl rfl rfl rfl rfl rfl

theorem roleFollows_offerReceived (hr : RoleFollows s) (h : execOfferReceived s = .next t) : RoleFollows t := by
  obtain rfl := Host.Outcome.next.inj h
  split
  · split
    · exact ((sameWork_dropHead s).trans (sameWork_takeOffer _ _)).settled hr
    · exact hr
  · exact hr

theorem sameWork_startRelease (s : State) : SameWork s (startRelease s) := by
  refine .of_table (by simp) (by simp) (by simp) (by simp) (by simp) (by simp) (.inl ?_)
  rw [startRelease_table]
  exact workingTrack_mapState (by decide) (by simp) (by simp)

theorem roleFollows_acceptReceived (hr : RoleFollows s) (h : execAcceptReceived s = .next t) : RoleFollows t := by
  obtain rfl := Host.Outcome.next.inj h
  split
  · split
    · split
      · exact ((sameWork_dropHead s).trans (sameWork_startRelease _)).settled hr
      · exact (sameWork_dropHead s).settled hr
    · exact hr
  · exact hr

/-- Marks and timers of entries change. -/
theorem sameWork_marks {f : Entry → Entry} (hs : ∀ e, (f e).state = e.state) (hk : ∀ e, (f e).record = e.record) :
    SameWork s (s.setTable (s.table.map f)) :=
  .of_table rfl rfl rfl rfl rfl rfl (.inl (workingTrack_map (fun e => by rw [hs]) fun e => by rw [hk]))

theorem roleFollows_releasedReceived (hr : RoleFollows s) (h : execReleasedReceived s = .next t) : RoleFollows t := by
  obtain rfl := Host.Outcome.next.inj h
  split
  · split
    · refine ((sameWork_dropHead s).trans (sameWork_marks (fun e => ?_) fun e => ?_)).settled hr <;> split <;> rfl
    · exact hr
  · exact hr

theorem sameWork_dropOutbound (k : Track) (s : State) : SameWork s (dropOutbound k s) :=
  sameWork_filter fun e _ hw => by simp [hw]

theorem sameWork_heardTaken (k : Track) (s : State) : SameWork s (heardTaken k s) := by
  unfold heardTaken
  split
  · exact .refl s
  · refine (sameWork_dropOutbound k s).trans (sameWork_marks (fun e => ?_) fun e => ?_) <;> split <;> rfl

theorem roleFollows_takenReceived (hr : RoleFollows s) (h : execTakenReceived s = .next t) : RoleFollows t := by
  obtain rfl := Host.Outcome.next.inj h
  split
  · split
    · exact ((sameWork_dropHead s).trans (sameWork_heardTaken _ _)).settled hr
    · exact hr
  · exact hr

theorem roleFollows_lostReceived (hr : RoleFollows s) (h : execLostReceived s = .next t) : RoleFollows t := by
  obtain rfl := Host.Outcome.next.inj h
  split
  · split
    · exact ((sameWork_dropHead s).trans (sameWork_dropOutbound _ _)).settled hr
    · exact hr
  · exact hr

theorem roleFollows_manifestReceived (hr : RoleFollows s) (h : execManifestReceived s = .next t) : RoleFollows t := by
  obtain rfl := Host.Outcome.next.inj h
  split
  case h_2 => exact hr
  split
  case isFalse => exact hr
  split
  · rename_i hc
    exact (roleFollows_evalStep (by rwa [hasRole_congr (s := s) (by simp [dropHead])])).settle
  · exact (sameWork_dropHead s).settled hr

theorem sameWork_jam (k : JamCause) (s : State) : SameWork s (jam k s) :=
  .of_same (by simp) (by simp) (by simp) (by simp) (by simp) (by simp) (by simp)

theorem sameWork_returnToDone (s : State) : SameWork s (returnToDone s) :=
  .of_table rfl rfl rfl rfl rfl rfl (.inl (workingTrack_mapState (by decide) (by simp) (by simp)))

theorem sameWork_offerNow (s : State) : SameWork s (offerNow s) := by
  unfold offerNow
  split
  · exact (sameWork_setZone _ s).trans (sameWork_queueFrame _ _)
  · exact .refl s

theorem sameWork_helloFromUpstream (s : State) : SameWork s (helloFromUpstream s) := by
  rw [helloFromUpstream_eq]
  exact (sameWork_filter (s := s) fun e _ hw => by simp [hw]).trans (.of_same rfl rfl rfl rfl rfl rfl rfl)

theorem sameWork_helloFromDownstream (s : State) : SameWork s (helloFromDownstream s) := by
  have hstop : ∀ u, SameWork u (stopOrJam u) := fun u => by
    unfold stopOrJam
    split
    · exact sameWork_setZone _ u
    · exact sameWork_jam _ u
  have hoffer : ∀ u, SameWork u (offerAtOnce u) := fun u => by
    unfold offerAtOnce
    split
    · exact sameWork_offerNow u
    · exact .refl u
  have hdone := (sameWork_filter (s := s) (p := fun e => e.state != .outbound) fun e _ hw => by simp [hw]).trans
    (sameWork_returnToDone _)
  unfold helloFromDownstream
  split
  · exact (hdone.trans (hstop _)).trans (hoffer _)
  · exact hdone.trans (hoffer _)

theorem sameWork_heardHello (n : Nat) (s : State) : SameWork s (heardHello n s) := by
  have h1 := sameWork_setHolds (removeHold n s.zone.holds) s
  have h2 := h1.trans (sameWork_helloFromUpstream _)
  simp only [heardHello]
  split
  · split
    · exact h2.trans (sameWork_helloFromDownstream _)
    · exact h1.trans (sameWork_helloFromDownstream _)
  · split
    · exact h2
    · exact h1

theorem roleFollows_helloReceived (hr : RoleFollows s) (h : execHelloReceived s = .next t) : RoleFollows t := by
  obtain rfl := Host.Outcome.next.inj h
  split
  · split
    · exact ((sameWork_dropHead s).trans (sameWork_heardHello _ _)).settled hr
    · exact hr
  · exact hr

/-! ## The zone -/

/-- Levels of pins that WRAP and LABEL do not ask. -/
theorem sameWork_setPins {p : Pins} (h1 : p.wrReady = s.pins.wrReady) (h2 : p.wrFault = s.pins.wrFault)
    (h3 : p.safe = s.pins.safe) : SameWork s (s.setPins p) := ⟨rfl, rfl, rfl, rfl, h1, h2, h3, fun _ => id⟩

theorem workingTrack_evict (s : State) : workingTrack (evict s).table = workingTrack s.table := by
  obtain ⟨-, h⟩ | ⟨-, e, -, h⟩ | ⟨-, -, h⟩ := evict_cases s <;> rw [h]
  rw [notify_table, State.setTable_table]
  exact workingTrack_eraseP fun e hw => by simp [hw]

theorem sameWork_arriveElsewhere (s : State) : SameWork s (arriveElsewhere s) := by
  refine .of_table (by simp) (by simp) (by simp) (by simp) (by simp) (by simp) (.inl ?_)
  unfold arriveElsewhere
  split
  · rw [queueFrame_table]
    exact workingTrack_mapState (by decide) (by simp) (by simp)
  · rw [notify_table, workingTrack_createRecord _ (by decide), workingTrack_evict]

/-- A new evaluation has no input resolved (R120). -/
theorem evalReady_arriveAtCheck (s : State) : evalReady (arriveAtCheck s) = false := by
  simp [evalReady, arriveAtCheck, openEvaluation, inputsOf]

theorem roleFollows_arrive (hr : RoleFollows s) : RoleFollows (arrive s) := by
  have hstart : ∀ u, SameWork u (startPositioning u) := fun u => sameWork_setZone _ u
  unfold arrive
  refine (hstart _).roleFollows ?_
  split
  · rename_i hc
    exact roleFollows_of_role (r := .check) (by rw [hasRole_congr (s := s) (by simp), hc]) (evalReady_arriveAtCheck s)
  · exact (sameWork_arriveElsewhere s).roleFollows hr

theorem roleFollows_entryEyeBlocks (hr : RoleFollows s) (h : execEntryEyeBlocks s = .next t) : RoleFollows t := by
  obtain rfl := Host.Outcome.next.inj h
  have h1 : RoleFollows (s.setPins { s.pins with eyeEntry := true }) := (sameWork_setPins rfl rfl rfl).roleFollows hr
  refine RoleFollows.settle ?_
  split
  · exact roleFollows_arrive h1
  · exact h1

theorem roleFollows_eyeClears (h : execEntryEyeClears s = .next t ∨ execPositionEyeClears s = .next t)
    (hr : RoleFollows s) : RoleFollows t := by
  obtain h | h := h <;> obtain rfl := Host.Outcome.next.inj h
  · exact (sameWork_setPins (p := { s.pins with eyeEntry := false }) rfl rfl rfl).settled hr
  · exact (sameWork_setPins (p := { s.pins with eyePos := false }) rfl rfl rfl).settled hr

/-- The role's work begins: a request or a print that can be made is made, and no evaluation is at a station but CHECK. -/
theorem roleFollows_beginWork (r : TravelRecord) (hc : hasRole s .check = false) (hr : RoleFollows s) :
    RoleFollows (beginWork r s) := by
  have hend : RoleFollows (endWork s) := (SameWork.of_machines (m := endWork s) hc rfl rfl rfl rfl rfl).roleFollows hr
  unfold beginWork
  split
  · rename_i hrole
    simp [hasRole, hrole] at hc
  · rename_i hrole
    split
    · exact hend
    · exact roleFollows_wrapStep (by simp [hasRole, hrole])
  · rename_i hrole
    split
    · exact hend
    · exact roleFollows_labelStep (by simp [hasRole, hrole])
  all_goals exact hend

/-- What a PRESENT record at position goes through (R39, R122). -/
theorem roleFollows_atPosition (hr : hasRole s .check = false → RoleFollows s) : RoleFollows
    (evalStep (if (zoneEntryIn s .present).isSome then enterWorking (profileAtPosition s) else s)) := by
  cases hc : hasRole s .check
  · rw [evalStep_of_role (by rw [hasRole_congr (s := s) (by split <;> simp), hc])]
    split
    · have hprof : RoleFollows (profileAtPosition s) :=
        (SameWork.of_machines hc (by simp) (by simp) (by simp) (by simp) (by simp)).roleFollows (hr hc)
      have hc' : hasRole (profileAtPosition s) .check = false := by rw [hasRole_congr (s := s) (by simp), hc]
      unfold enterWorking
      split
      · exact roleFollows_beginWork _ hc' ((SameWork.of_machines (m := moveState .present .working (profileAtPosition s))
          hc' rfl rfl rfl rfl rfl).roleFollows hprof)
      · exact hprof
    · exact hr hc
  · exact roleFollows_evalStep (by rw [hasRole_congr (s := s) (by split <;> simp), hc])

theorem roleFollows_positionEyeBlocks (hr : RoleFollows s) (h : execPositionEyeBlocks s = .next t) :
    RoleFollows t := by
  obtain rfl := Host.Outcome.next.inj h
  have h1 := sameWork_setPins (s := s) (p := { s.pins with eyePos := true }) rfl rfl rfl
  refine RoleFollows.settle ?_
  split
  · rw [positionComplete_eq]
    exact roleFollows_atPosition fun _ => (h1.trans (sameWork_setZone _ _)).roleFollows hr
  · exact h1.roleFollows hr

theorem roleFollows_exitEyeBlocks (hr : RoleFollows s) (h : execExitEyeBlocks s = .next t) : RoleFollows t := by
  obtain rfl := Host.Outcome.next.inj h
  have h1 := sameWork_setPins (s := s) (p := { s.pins with eyeExit := true }) rfl rfl rfl
  refine RoleFollows.settle ?_
  split
  · exact (h1.trans (sameWork_setZone _ _)).roleFollows hr
  · exact h1.roleFollows hr

/-- With its zone record gone the table has none in WORKING. -/
theorem workingTrack_removeZoneRecord (s : State) : workingTrack (removeZoneRecord s).table = none :=
  workingTrack_eq_none.2 fun e he hw => by
    simp [inZone, isZoneState, hw] at he

theorem sameWork_completeRelease (s : State) : SameWork s (completeRelease s) := by
  refine .of_table (by simp) (by simp) (by simp) (by simp) (by simp) (by simp) ?_
  unfold completeRelease
  split
  · rw [queueFrame_table]
    unfold moveOn
    split
    · exact .inr (workingTrack_removeZoneRecord _)
    · exact .inl (workingTrack_mapState (by decide) (by simp) (by simp))
  · exact .inl rfl

theorem sameWork_completeDelivery (s : State) : SameWork s (completeDelivery s) := by
  refine .of_table (by simp) (by simp) (by simp) (by simp) (by simp) (by simp) ?_
  unfold completeDelivery
  split
  · rw [queueFrame_table]
    exact .inr (workingTrack_removeZoneRecord _)
  · exact .inl rfl

theorem roleFollows_exitEyeClears (hr : RoleFollows s) (h : execExitEyeClears s = .next t) : RoleFollows t := by
  obtain rfl := Host.Outcome.next.inj h
  have h1 := sameWork_setPins (s := s) (p := { s.pins with eyeExit := false }) rfl rfl rfl
  refine RoleFollows.settle ?_
  split
  · split
    · exact (h1.trans (sameWork_completeDelivery _)).roleFollows hr
    · exact (h1.trans (sameWork_completeRelease _)).roleFollows hr
  · exact h1.roleFollows hr

/-! ## SAFE#, HOLD_SW, the acknowledge and the zone's timers -/

theorem sameWork_followOwnHold (before : Option HoldCause) (s : State) : SameWork s (followOwnHold before s) :=
  .of_same (by simp) (by simp) (by simp) (by simp) (by simp) (by simp) (by simp)

/-- A halted station begins no wrap and no print (R141, R147, R157, R164). -/
theorem RoleFollows.halted (hr : RoleFollows s) (hs : m.service = s.service) (hc : m.cfg = s.cfg)
    (he : hasRole s .check = true → evalReady m = true → evalReady s = true) (hsafe : m.pins.safe = true) :
    RoleFollows m :=
  hr.mono (active_congr hs) hc fun r hrole hm => by
    cases r
    case check => exact he hrole hm
    case wrap => simp [workReady, wrapReady_of_halted hsafe] at hm
    case label => simp [workReady, printReady_of_halted hsafe] at hm
    all_goals simp [workReady] at hm

theorem roleFollows_safeAsserted (hr : RoleFollows s) (h : execSafeAsserted s = .next t) : RoleFollows t := by
  obtain rfl := Host.Outcome.next.inj h
  have hhalt : ∀ u : State, (haltWrap u).service = u.service ∧ (haltWrap u).cfg = u.cfg ∧ (haltWrap u).pins = u.pins ∧
      (haltWrap u).eval = u.eval ∧ (haltWrap u).table = u.table := fun u => by
    unfold haltWrap
    split <;> simp
  obtain ⟨h1, h2, h3, h4, h5⟩ := hhalt (followOwnHold (ownHold s.pins) (s.setPins { s.pins with safe := true }))
  refine (hr.halted (by rw [h1]; simp) (by rw [h2]; simp) (fun _ => ?_) (by rw [h3]; simp)).settle
  exact evalReady_of (by rw [h4]; simp) (.inl (by rw [h5]; simp))

/-- What the role's machine does when the halt ends (R141, R157, R164). -/
theorem roleFollows_resumeRole (h : works s .check = true → evalReady s = false) : RoleFollows (resumeRole s) := by
  unfold resumeRole
  split
  · rename_i hw
    exact roleFollows_wrapStep ((works_iff _).1 hw).2
  · rename_i hw
    split
    · rename_i hl
      refine roleFollows_labelStep ?_
      rw [hasRole_congr (s := s) (by split <;> simp), ((works_iff _).1 hl).2]
    · rename_i hl
      exact ⟨h, fun hn => absurd hn hw, fun hn => absurd hn hl⟩

theorem roleFollows_safeReleased (hr : RoleFollows s) (h : execSafeReleased s = .next t) : RoleFollows t := by
  obtain rfl := Host.Outcome.next.inj h
  generalize hu : followOwnHold (ownHold s.pins) (s.setPins { s.pins with safe := false }) = u
  refine (roleFollows_resumeRole fun hw => ?_).settle
  have hs : works s .check = true := by
    rwa [works_congr (s := s) (by simp [← hu]) (by simp [← hu])] at hw
  exact evalReady_false_of (hr.1 hs) (by simp [← hu]) (.inl (by simp [← hu]))

theorem roleFollows_holdSwChange {on : Bool} (hr : RoleFollows s) (h : execHoldSwChange on s = .next t) :
    RoleFollows t := by
  obtain rfl := Host.Outcome.next.inj h
  exact ((sameWork_setPins (p := { s.pins with holdSw := on }) rfl rfl rfl).trans (sameWork_followOwnHold _ _)).settled hr

theorem sameWork_clearJam (k : Option Track) (s : State) : SameWork s (clearJam k s) :=
  (sameWork_setZone _ s).trans (sameWork_notify _ _)

/-- A profiling that begins again withdraws its input (R117, R121). -/
theorem sameWork_restartPresent (s : State) : SameWork s (restartPresent s) := by
  unfold restartPresent
  split
  case isFalse => exact .refl s
  refine ⟨by simp, by simp, by simp, by simp, by simp, by simp, by simp, fun _ => ?_⟩
  unfold restartProfiling
  split
  · exact id
  · intro hm
    rw [evalReady_eq] at hm
    cases he : s.eval <;> simp [handProfile, updateEval, resetProfiling, inputsOf, he] at hm

theorem sameWork_ackAllClear (s : State) : SameWork s (ackAllClear s) := by
  obtain ⟨l, hl⟩ := ackAllClear_eq s
  have hblocks : (dropRoleWork s).wrap = s.wrap ∧ (dropRoleWork s).label = s.label := by
    obtain ⟨-, h⟩ | ⟨-, h⟩ | ⟨-, -, h⟩ := dropRoleWork_cases s <;> simp [h]
  obtain ⟨hw, hl'⟩ := hblocks
  refine ⟨by simp [hl], by simp [hl], by simp [hl, hw], by simp [hl, hl'], by simp [hl], by simp [hl], by simp [hl],
    fun _ hm => ?_⟩
  rw [evalReady_of_no_working] at hm
  · exact absurd hm (by simp)
  · rw [hl]
    exact workingTrack_removeZoneRecord (dropRoleWork s)

theorem sameWork_ackStopped (s : State) : SameWork s (ackStopped s) := by
  have hroute : ∀ u, SameWork u (dropRouteCode u) := fun u => by
    unfold dropRouteCode
    split
    · exact .of_same rfl rfl rfl rfl rfl rfl rfl
    · exact .refl u
  exact ((((sameWork_restartPresent s).trans (sameWork_returnToDone _)).trans (hroute _)).trans
    (sameWork_setZone _ _)).trans (sameWork_clearJam _ _)

theorem sameWork_ackElsewhere (s : State) : SameWork s (ackElsewhere s) := by
  unfold ackElsewhere
  split
  · exact (sameWork_setZone _ s).trans (sameWork_clearJam _ _)
  · exact ((sameWork_restartPresent s).trans (sameWork_setZone _ _)).trans (sameWork_clearJam _ _)

theorem roleFollows_ackPress (hr : RoleFollows s) (h : execAckPress s = .next t) : RoleFollows t := by
  obtain rfl := Host.Outcome.next.inj h
  split
  case isFalse => exact hr
  refine RoleFollows.settle ?_
  split
  · exact (sameWork_ackAllClear s).roleFollows hr
  · split
    · rw [ackAtPosition_eq]
      exact roleFollows_atPosition fun _ => (sameWork_ackStopped s).roleFollows hr
    · exact (sameWork_ackElsewhere s).roleFollows hr

theorem roleFollows_offerRepeatExpiry (hr : RoleFollows s) (h : execOfferRepeatExpiry s = .next t) :
    RoleFollows t := by
  obtain rfl := Host.Outcome.next.inj h
  split
  · exact (sameWork_offerNow s).settled hr
  · exact hr

/-- The record of a track that is not in WORKING is removed: tracks are distinct (R9). -/
theorem sameWork_removeTrack {e : Entry} (hs : tableSound s) (he : e ∈ s.table) (hst : e.state ≠ .working) :
    SameWork s (removeTrack e.record.track s) :=
  sameWork_filter fun x hx hw => by
    by_contra hk
    obtain rfl := eq_of_track hs.2 hx he (by simpa using hk)
    exact hst hw

theorem roleFollows_arrivalTimerExpiry (hs : tableSound s) (hr : RoleFollows s)
    (h : execArrivalTimerExpiry s = .next t) : RoleFollows t := by
  obtain rfl := Host.Outcome.next.inj h
  split
  · rename_i e he
    have hx : e.state = .expected := by simpa using List.find?_some he
    split
    · exact ((((sameWork_removeTrack hs (List.mem_of_find?_eq_some he) (by simp [hx])).trans (sameWork_setZone _ _)).trans
        (sameWork_queueFrame _ _)).trans (sameWork_notify _ _)).settled hr
    · exact hr
  · exact hr

theorem roleFollows_jamTimerExpiry (hr : RoleFollows s)
    (h : execPositionTimerExpiry s = .next t ∨ execReleaseTimerExpiry s = .next t) : RoleFollows t := by
  obtain h | h := h
  all_goals
    obtain rfl := Host.Outcome.next.inj h
    split
    · exact (sameWork_jam _ s).settled hr
    · exact hr

theorem roleFollows_takenTimerExpiry {k : Track} (hs : tableSound s) (hr : RoleFollows s)
    (h : execTakenTimerExpiry k s = .next t) : RoleFollows t := by
  obtain rfl := Host.Outcome.next.inj h
  split
  · rename_i e he
    obtain ⟨hmem, rfl⟩ := entryOf_eq_some he
    split
    · rename_i hc
      have ho : e.state = .outbound := by simp_all
      exact ((sameWork_removeTrack hs hmem (by simp [ho])).trans (sameWork_notify _ _)).settled hr
    · exact hr
  · exact hr

end

end Sys2Proof.Machine
end

