-- ==== Proofs/NoWorkWaiting.lean ====
section
/-! PROOF. The commands of the roles' blocks and the start do the work that they make ready (R122, R141, R157); O59 over every
step. -/

namespace Sys2Proof.Machine

section
variable {s m t : State}

/-! ## CHECK -/

theorem roleFollows_codeReaderLine {chars : List RxChar} (hr : RoleFollows s)
    (h : execCodeReaderLine chars s = .next t) : RoleFollows t := by
  obtain rfl := Host.Outcome.next.inj h
  have hcfg : (judgeLine chars s).cfg = s.cfg := by
    unfold judgeLine
    split
    · simp
    · split <;> simp
    · split <;> simp
  split
  · rename_i hw
    exact (roleFollows_evalStep (by rw [hasRole_congr hcfg, ((works_iff _).1 hw).2])).settle
  · split
    · rename_i hw
      exact (roleFollows_labelStep (by rw [hasRole_congr hcfg, ((works_iff _).1 hw).2])).settle
    · exact hr

/-- An event of a CHECK station's blocks that ends with the evaluation. -/
theorem roleFollows_evaluated {g : Bool} (hr : RoleFollows s) (hc : m.cfg = s.cfg)
    (h : (if works s .check && g then settle s (evalStep m) else s) = t) : RoleFollows t := by
  subst h
  split
  · rename_i hw
    obtain ⟨hw, -⟩ := Bool.and_eq_true_iff.1 hw
    exact (roleFollows_evalStep (by rw [hasRole_congr hc, ((works_iff _).1 hw).2])).settle
  · exact hr

theorem roleFollows_encoderStep {beams : BitVec 40} (hr : RoleFollows s) (h : execEncoderStep beams s = .next t) :
    RoleFollows t := by
  obtain rfl := Host.Outcome.next.inj h
  split
  · rename_i hw
    exact (roleFollows_evalStep (by rw [hasRole_congr (s := s) (by simp), ((works_iff _).1 hw).2])).settle
  · exact hr

/-- At a CHECK station the evaluation is all that can wait: it stays as it was. -/
theorem RoleFollows.at_check (hr : RoleFollows s) (hw : works s .check = true) (hc : m.cfg = s.cfg)
    (he : m.eval = s.eval) (hT : m.table = s.table) : RoleFollows m :=
  roleFollows_of_role (r := .check) (by rw [hasRole_congr hc, ((works_iff _).1 hw).2])
    (evalReady_false_of (hr.1 hw) he (.inl (by rw [hT])))

theorem roleFollows_scanStart (hr : RoleFollows s) (h : execScanStart s = .next t) : RoleFollows t := by
  obtain rfl := Host.Outcome.next.inj h
  split <;> exact hr

theorem roleFollows_scanComplete {raw : RawScan} (hr : RoleFollows s) (h : execScanComplete raw s = .next t) :
    RoleFollows t := by
  obtain rfl := Host.Outcome.next.inj h
  split
  case isFalse => exact hr
  rename_i hw
  refine RoleFollows.settle ?_
  unfold takeScan
  split
  · exact roleFollows_evalStep (by rw [hasRole_congr (s := s) (by simp), ((works_iff _).1 hw).2])
  · have hidle : ∀ u : State, (idleScan u).cfg = u.cfg ∧ (idleScan u).eval = u.eval ∧ (idleScan u).table = u.table :=
      fun u => by
        unfold idleScan
        (repeat' split) <;> simp
    obtain ⟨h1, h2, h3⟩ :=
      hidle (joinScan (sampleOf s.cfg.check.conversions raw) (s.setWeigh { s.weigh with scanning := false }))
    exact hr.at_check hw (by rw [h1]; simp) (by rw [h2]; simp) (by rw [h3]; simp)

theorem roleFollows_startZeroTimerExpiry (hr : RoleFollows s) (h : execStartZeroTimerExpiry s = .next t) :
    RoleFollows t := by
  obtain rfl := Host.Outcome.next.inj h
  split
  · rename_i hw
    exact (hr.at_check (Bool.and_eq_true_iff.1 hw).1 (by simp) (by simp) (by simp)).settle
  · exact hr

theorem roleFollows_zeroDueExpiry (hr : RoleFollows s) (h : execZeroDueExpiry s = .next t) : RoleFollows t := by
  obtain rfl := Host.Outcome.next.inj h
  split
  · rename_i hw
    refine RoleFollows.settle ?_
    split <;> exact hr.at_check (Bool.and_eq_true_iff.1 hw).1 (by simp) (by simp) (by simp)
  · exact hr

/-! ## WRAP -/

/-- An event of a WRAP station's machine: the other machines are not there. -/
theorem roleFollows_of_wrap (hw : works s .wrap = true) (hc : m.cfg = s.cfg) (h : wrapReady m = false) : RoleFollows m :=
  roleFollows_of_role (r := .wrap) (by rw [hasRole_congr hc, ((works_iff _).1 hw).2]) h

theorem roleFollows_wrReadyRises (hr : RoleFollows s) (h : execWrReadyRises s = .next t) : RoleFollows t := by
  obtain rfl := Host.Outcome.next.inj h
  split
  · rename_i hw
    exact (roleFollows_of_wrap hw (by simp) (wrapReady_wrapStep _)).settle
  · rename_i hw
    exact ⟨hr.1, fun h => absurd h hw, hr.2.2⟩

theorem roleFollows_wrReadyFalls (hr : RoleFollows s) (h : execWrReadyFalls s = .next t) : RoleFollows t := by
  obtain rfl := Host.Outcome.next.inj h
  exact ⟨hr.1, fun _ => by simp [wrapReady], hr.2.2⟩

theorem roleFollows_wrRunRises (hr : RoleFollows s) (h : execWrRunRises s = .next t) : RoleFollows t := by
  obtain rfl := Host.Outcome.next.inj h
  split
  · exact ⟨hr.1, fun _ => wrapReady_of_hs (by simp), hr.2.2⟩
  · exact hr

theorem roleFollows_wrDoneRises (hr : RoleFollows s) (h : execWrDoneRises s = .next t) : RoleFollows t := by
  obtain rfl := Host.Outcome.next.inj h
  split
  · rename_i hw
    exact (roleFollows_of_wrap (Bool.and_eq_true_iff.1 hw).1 (by simp)
      (wrapReady_of_hs (by simp [completeWrap, wrapIdle]))).settle
  · exact hr

/-- A failed attempt leaves WRAPPER_FAULT set, which bars the next request (R144, R145). -/
theorem wrapReady_failWrap (c : WrapCause) (s : State) : wrapReady (failWrap c s) = false := by
  refine wrapReady_of_fault ?_
  simp only [failWrap, wrapGivesUp]
  split
  · rfl
  · split <;> simp [wrapIdle]

theorem roleFollows_wrFaultRises (hr : RoleFollows s) (h : execWrFaultRises s = .next t) : RoleFollows t := by
  obtain rfl := Host.Outcome.next.inj h
  split
  · rename_i hw
    refine RoleFollows.settle ?_
    split
    · exact roleFollows_of_wrap hw (by simp) (wrapReady_failWrap _ _)
    · exact roleFollows_of_wrap hw rfl (wrapReady_of_fault (by simp))
  · rename_i hw
    exact ⟨hr.1, fun h => absurd h hw, hr.2.2⟩

theorem roleFollows_wrFaultFalls (hr : RoleFollows s) (h : execWrFaultFalls s = .next t) : RoleFollows t := by
  obtain rfl := Host.Outcome.next.inj h
  split
  · rename_i hw
    exact (roleFollows_of_wrap hw (by simp) (wrapReady_wrapStep _)).settle
  · rename_i hw
    exact ⟨hr.1, fun h => absurd h hw, hr.2.2⟩

theorem roleFollows_wrFilmRises (hr : RoleFollows s) (h : execWrFilmRises s = .next t) : RoleFollows t := by
  obtain rfl := Host.Outcome.next.inj h
  have h1 := sameWork_setPins (s := s) (p := { s.pins with wrFilm := true }) rfl rfl rfl
  split
  · exact (h1.trans (sameWork_notify _ _)).roleFollows hr
  · exact h1.roleFollows hr

/-- An attempt times out (R142, R143). -/
theorem roleFollows_wrapTimeout {c : Instr} (hc : c = .startTimerExpiry ∨ c = .wrapTimerExpiry) (hr : RoleFollows s)
    (h : exec c s = .next t) : RoleFollows t := by
  have key : ∀ cause, works s .wrap = true → RoleFollows (settle s (failWrap cause s)) := fun cause hw =>
    (roleFollows_of_wrap hw (by simp) (wrapReady_failWrap cause s)).settle
  obtain rfl | rfl := hc
  all_goals
    obtain rfl := Host.Outcome.next.inj h
    split
    · exact key _ (by simp_all)
    · exact hr

theorem roleFollows_wrAbortPulseEnd {film : Option Bool} (hr : RoleFollows s)
    (h : execWrAbortPulseEnd s film = .next t) : RoleFollows t := by
  obtain rfl := Host.Outcome.next.inj h
  split
  · rename_i hw
    exact (roleFollows_of_wrap (Bool.and_eq_true_iff.1 hw).1 (by simp) (wrapReady_wrapStep _)).settle
  · exact hr

/-! ## LABEL -/

/-- An event of a LABEL station's machine: the other machines are not there. -/
theorem roleFollows_of_label (hl : works s .label = true) (hc : m.cfg = s.cfg) (h : printReady m = false) :
    RoleFollows m :=
  roleFollows_of_role (r := .label) (by rw [hasRole_congr hc, ((works_iff _).1 hl).2]) h

/-- A failed attempt that bars the next print: ENGINE_FAULT stays set, or the abort wait runs, or the record is
DONE (R161). -/
theorem printReady_failLabel {c : LabelCause} (h : s.label.fault = true ∨ abortsEngine c = true) :
    printReady (failLabel c s) = false := by
  have hgive : ∀ u, printReady (labelGivesUp u) = false := fun u => by
    refine printReady_of_lstate ?_
    unfold labelGivesUp
    split <;> simp [labelIdle]
  simp only [failLabel]
  generalize hu : (if abortsEngine c = true then _ else _ : State) = u
  have hbar : u.label.fault = true ∨ u.label.abortWait.isSome = true := by
    rw [← hu]
    cases ha : abortsEngine c
    · exact .inl (h.resolve_right (by simp [ha]))
    · exact .inr (by simp [abortEngine])
  split
  · obtain hf | hw := hbar
    · exact printReady_of_fault hf
    · exact printReady_of_abortWait hw
  · exact hgive u

theorem roleFollows_pdReceived {line : List RxChar} (hr : RoleFollows s) (h : execPdReceived line s = .next t) :
    RoleFollows t := by
  obtain rfl := Host.Outcome.next.inj h
  split
  case isFalse => exact hr
  rename_i hl
  split
  case isFalse => exact hr
  unfold heardPrinted
  split
  case isFalse => exact hr
  split
  · exact roleFollows_of_label hl rfl (printReady_of_lstate (by simp))
  · exact roleFollows_of_label hl rfl (printReady_of_lstate (by simp [startApply]))

theorem roleFollows_apReceived {line : List RxChar} (hr : RoleFollows s) (h : execApReceived line s = .next t) :
    RoleFollows t := by
  obtain rfl := Host.Outcome.next.inj h
  split
  case isFalse => exact hr
  rename_i hl
  split
  case isFalse => exact hr
  unfold heardApplied
  split
  · exact roleFollows_of_label hl rfl (printReady_of_lstate (by simp))
  · exact hr

theorem roleFollows_msReceived {line : List RxChar} (hr : RoleFollows s) (h : execMsReceived line s = .next t) :
    RoleFollows t := by
  obtain rfl := Host.Outcome.next.inj h
  split
  case isFalse => exact hr
  rename_i hl
  split
  case isFalse => exact hr
  refine (roleFollows_of_label hl ?_ (printReady_labelStep _)).settle
  rw [labelStep_cfg]
  unfold heardMissed
  split
  · simp [emptyLink]
  · rfl

theorem roleFollows_ftReceived {line : List RxChar} (hr : RoleFollows s) (h : execFtReceived line s = .next t) :
    RoleFollows t := by
  obtain rfl := Host.Outcome.next.inj h
  split
  case isFalse => exact hr
  rename_i hl
  split
  case h_2 => exact hr
  refine RoleFollows.settle ?_
  unfold heardFault
  split
  · exact roleFollows_of_label hl (by simp [emptyLink]) (printReady_failLabel (.inl (by simp)))
  · exact roleFollows_of_label hl rfl (printReady_of_fault (by simp))

theorem roleFollows_ryReceived {line : List RxChar} (hr : RoleFollows s) (h : execRyReceived line s = .next t) :
    RoleFollows t := by
  obtain rfl := Host.Outcome.next.inj h
  split
  case isFalse => exact hr
  rename_i hl
  split
  · exact (roleFollows_of_label hl (by simp [heardReady, emptyLink]) (printReady_labelStep _)).settle
  · exact hr

/-- A print or an application times out: the engine is aborted, and no print starts before it is ready (R161, R163). -/
theorem roleFollows_engineTimeout {c : Instr} (hc : c = .printTimerExpiry ∨ c = .applyTimerExpiry) (hr : RoleFollows s)
    (h : exec c s = .next t) : RoleFollows t := by
  have key : ∀ cause, abortsEngine cause = true → works s .label = true →
      RoleFollows (settle s (failLabel cause s)) := fun cause ha hl =>
    (roleFollows_of_label hl (by simp) (printReady_failLabel (.inr ha))).settle
  obtain rfl | rfl := hc
  all_goals
    obtain rfl := Host.Outcome.next.inj h
    split
    · exact key _ rfl (by simp_all)
    · exact hr

theorem roleFollows_verifyTimerExpiry (hr : RoleFollows s) (h : execVerifyTimerExpiry s = .next t) : RoleFollows t := by
  obtain rfl := Host.Outcome.next.inj h
  split
  · rename_i hc
    have hl : works s .label = true := by simp_all
    exact (roleFollows_of_label hl (by simp) (printReady_labelStep _)).settle
  · exact hr

theorem roleFollows_abortWaitExpiry (hr : RoleFollows s) (h : execAbortWaitExpiry s = .next t) : RoleFollows t := by
  obtain rfl := Host.Outcome.next.inj h
  split
  · rename_i hc
    exact (roleFollows_of_label (Bool.and_eq_true_iff.1 hc).1 (by simp) (printReady_of_fault (by simp))).settle
  · exact hr

theorem roleFollows_historyEntryLeavesWindow (hr : RoleFollows s) (h : execHistoryEntryLeavesWindow s = .next t) :
    RoleFollows t := by
  obtain rfl := Host.Outcome.next.inj h
  split
  · rename_i hl
    exact (roleFollows_of_label hl (by simp) (printReady_labelStep _)).settle
  · exact hr

/-! ## DISPATCH, RESET and the image -/

theorem roleFollows_laneInputChange {i : LaneInput} {level : Bool} (hr : RoleFollows s)
    (h : execLaneInputChange i level s = .next t) : RoleFollows t := by
  obtain rfl := Host.Outcome.next.inj h
  have h1 : SameWork s (s.setPins (setLaneInput i level s.pins)) := by
    refine sameWork_setPins ?_ ?_ ?_ <;> cases i <;> rfl
  refine RoleFollows.settle ?_
  split
  · exact (h1.trans (.of_same (by simp) (by simp) (by simp) (by simp) (by simp) (by simp) (by simp))).roleFollows hr
  · exact h1.roleFollows hr

theorem roleFollows_laneWaitExpiry (hr : RoleFollows s) (h : execLaneWaitExpiry s = .next t) : RoleFollows t := by
  obtain rfl := Host.Outcome.next.inj h
  split
  · refine SameWork.settled (s := s.setRoute { s.route with laneWait := none, waitExpired := true }) ?_ hr
    unfold reportLaneWait
    split
    · exact sameWork_notify _ _
    · exact .refl _
  · exact hr

theorem roleFollows_reset (h : execReset s = .next t) : RoleFollows t := by
  obtain rfl := Host.Outcome.next.inj h
  exact roleFollows_of_inactive rfl

theorem roleFollows_resetRelease (hr : RoleFollows s) (h : execResetRelease s = .next t) : RoleFollows t := by
  obtain rfl := Host.Outcome.next.inj h
  split
  · exact roleFollows_of_inactive rfl
  · exact hr

/-- A start task leaves its machine barred: WR_ABORT is on, ENGINE_FAULT is set (R149, R166). -/
theorem roleFollows_startTask (h : workingTrack s.table = none) : RoleFollows (startTask s) := by
  unfold startTask
  split
  · rename_i hc
    exact roleFollows_of_role (r := .check) (by simp [hasRole, hc]) (evalReady_of_no_working h)
  · rename_i hw
    exact roleFollows_of_role (r := .wrap) (by simp [hasRole, hw]) (wrapReady_of_abort (by simp))
  · rename_i hl
    exact roleFollows_of_role (r := .label) (by simp [hasRole, hl]) (printReady_of_fault (by simp))
  · rename_i hp
    exact roleFollows_of_role (r := .plain) (by simp [hasRole, hp]) rfl
  · rename_i hd
    exact roleFollows_of_role (r := .dispatch) (by simp [hasRole, hd]) rfl
  · rename_i hn
    exact roleFollows_iff.2 fun r hw => by simp [works, hasRole, hn] at hw

theorem roleFollows_imageReadComplete {image : List Byte} (hs : StationSound s) (hr : RoleFollows s)
    (h : execImageReadComplete image s = .next t) : RoleFollows t := by
  obtain rfl := Host.Outcome.next.inj h
  split
  case isFalse => exact hr
  rename_i hload
  split
  · refine (roleFollows_startTask ?_).settle
    rw [workingTrack_deriveFromEyes, State.setService_table, State.setCfg_table, (hs.idle (by simp [active, hload])).1]
    rfl
  · exact roleFollows_of_inactive rfl

/-! ## Every step -/

/-- A tick counts timers: none comes to run or ceases to (log 2). -/
theorem roleFollows_tickTimers (hr : RoleFollows s) : RoleFollows (tickTimers s) := by
  have htimer : ∀ (f : Bool) (x : Option Nat), tickTimer f x = none ↔ x = none := fun f x => by
    cases f <;> simp [tickTimer]
  have hcount : ∀ l : List PrintStart, inWindowCount (l.map tickStart) = inWindowCount l := fun l => by
    have hstart : PrintStart.inWindow ∘ tickStart = PrintStart.inWindow := by
      funext p
      simp only [Function.comp_apply, tickStart]
      split <;> rfl
    rw [inWindowCount, List.filter_map, hstart, List.length_map, inWindowCount]
  have hservice : (tickTimers s).service = s.service := by simp [tickTimers]
  have hcfg : (tickTimers s).cfg = s.cfg := by simp [tickTimers]
  have heval : (tickTimers s).eval = s.eval := by simp [tickTimers]
  have htable : (tickTimers s).table = s.table.map (tickEntry s) := by simp [tickTimers]
  refine hr.mono (active_congr hservice) hcfg fun r _ hm => ?_
  cases r
  case check =>
    refine evalReady_of heval (.inl ?_) hm
    rw [htable, workingTrack_map (fun e => by simp) fun e => by simp]
  case wrap =>
    have hm := wrapReady_iff.1 hm
    simpa [wrapReady_iff, workReady, tickTimers, tickWrap, htimer] using hm
  case label =>
    have hm := printReady_iff.1 hm
    simpa [printReady_iff, workReady, tickTimers, tickLabel, htimer, hcount] using hm
  all_goals simp [workReady] at hm

theorem roleFollows_tick (hr : RoleFollows s) : RoleFollows (tick s) := by
  have hpending : ∀ (u : State) (q : List Instr), SameWork u (u.setPending q) := fun _ _ =>
    .of_same rfl rfl rfl rfl rfl rfl rfl
  unfold tick
  split
  · exact (hpending _ _).roleFollows (roleFollows_tickTimers hr)
  · exact (hpending s _).roleFollows hr

/-- Every command leaves nothing waiting that could take place. -/
theorem exec_roleFollows {c : Instr} (hs : StationSound s) (hr : RoleFollows s) (h : exec c s = .next t) :
    RoleFollows t := by
  cases c with
  | reset => exact roleFollows_reset h
  | resetRelease => exact roleFollows_resetRelease hr h
  | imageReadComplete image => exact roleFollows_imageReadComplete hs hr h
  | frameReceived bytes => exact roleFollows_frameReceived hr h
  | holdReceived => exact roleFollows_holdReceived hr h
  | resumeReceived => exact roleFollows_resumeReceived hr h
  | clearReceived => exact roleFollows_clearReceived hr h
  | offerReceived => exact roleFollows_offerReceived hr h
  | acceptReceived => exact roleFollows_acceptReceived hr h
  | releasedReceived => exact roleFollows_releasedReceived hr h
  | takenReceived => exact roleFollows_takenReceived hr h
  | lostReceived => exact roleFollows_lostReceived hr h
  | manifestReceived => exact roleFollows_manifestReceived hr h
  | helloReceived => exact roleFollows_helloReceived hr h
  | queryReceived => exact roleFollows_queryReceived hr h
  | lineIdle => exact roleFollows_lineIdle hr h
  | attemptCountedSent => exact roleFollows_attemptCountedSent hr h
  | lostArbitration => exact roleFollows_attemptFailed hr (.inl h)
  | attemptErrored => exact roleFollows_attemptFailed hr (.inr h)
  | entryEyeBlocks => exact roleFollows_entryEyeBlocks hr h
  | entryEyeClears => exact roleFollows_eyeClears (.inl h) hr
  | positionEyeBlocks => exact roleFollows_positionEyeBlocks hr h
  | positionEyeClears => exact roleFollows_eyeClears (.inr h) hr
  | exitEyeBlocks => exact roleFollows_exitEyeBlocks hr h
  | exitEyeClears => exact roleFollows_exitEyeClears hr h
  | safeAsserted => exact roleFollows_safeAsserted hr h
  | safeReleased => exact roleFollows_safeReleased hr h
  | holdSwChange on => exact roleFollows_holdSwChange hr h
  | ackPress => exact roleFollows_ackPress hr h
  | offerRepeatExpiry => exact roleFollows_offerRepeatExpiry hr h
  | arrivalTimerExpiry => exact roleFollows_arrivalTimerExpiry hs.tracks hr h
  | positionTimerExpiry => exact roleFollows_jamTimerExpiry hr (.inl h)
  | releaseTimerExpiry => exact roleFollows_jamTimerExpiry hr (.inr h)
  | takenTimerExpiry track => exact roleFollows_takenTimerExpiry hs.tracks hr h
  | codeReaderLine chars => exact roleFollows_codeReaderLine hr h
  | tagWaitExpiry => exact roleFollows_evaluated hr (by simp) (Host.Outcome.next.inj h)
  | manifestWaitExpiry => exact roleFollows_evaluated hr (by simp) (Host.Outcome.next.inj h)
  | scanStart => exact roleFollows_scanStart hr h
  | scanComplete raw => exact roleFollows_scanComplete hr h
  | startZeroTimerExpiry => exact roleFollows_startZeroTimerExpiry hr h
  | zeroDueExpiry => exact roleFollows_zeroDueExpiry hr h
  | settleTimerExpiry => exact roleFollows_evaluated hr (by simp) (Host.Outcome.next.inj h)
  | encoderStep beams => exact roleFollows_encoderStep hr h
  | wrReadyRises => exact roleFollows_wrReadyRises hr h
  | wrReadyFalls => exact roleFollows_wrReadyFalls hr h
  | wrRunRises => exact roleFollows_wrRunRises hr h
  | wrDoneRises => exact roleFollows_wrDoneRises hr h
  | wrFaultRises => exact roleFollows_wrFaultRises hr h
  | wrFaultFalls => exact roleFollows_wrFaultFalls hr h
  | wrFilmRises => exact roleFollows_wrFilmRises hr h
  | startTimerExpiry => exact roleFollows_wrapTimeout (.inl rfl) hr h
  | wrapTimerExpiry => exact roleFollows_wrapTimeout (.inr rfl) hr h
  | wrAbortPulseEnd film => exact roleFollows_wrAbortPulseEnd hr h
  | historyEntryLeavesWindow => exact roleFollows_historyEntryLeavesWindow hr h
  | pdReceived line => exact roleFollows_pdReceived hr h
  | apReceived line => exact roleFollows_apReceived hr h
  | msReceived line => exact roleFollows_msReceived hr h
  | ftReceived line => exact roleFollows_ftReceived hr h
  | ryReceived line => exact roleFollows_ryReceived hr h
  | printTimerExpiry => exact roleFollows_engineTimeout (.inl rfl) hr h
  | applyTimerExpiry => exact roleFollows_engineTimeout (.inr rfl) hr h
  | verifyTimerExpiry => exact roleFollows_verifyTimerExpiry hr h
  | abortWaitExpiry => exact roleFollows_abortWaitExpiry hr h
  | laneInputChange input level => exact roleFollows_laneInputChange hr h
  | laneWaitExpiry => exact roleFollows_laneWaitExpiry hr h

/-- Settles O59: each command does at once the work that it makes ready, and `settle` makes none ready. -/
theorem stepsLeaveNoWorkWaiting : Obligations.StepsLeaveNoWorkWaiting := by
  intro s t hs hr h
  obtain ⟨c, rest, -, hc⟩ | ⟨-, rfl⟩ := step_cases h
  · exact exec_roleFollows (s := s.setPending rest) hs hr hc
  · exact roleFollows_tick hr

end

end Sys2Proof.Machine
end

