-- ==== Proofs/CheckVerdict.lean ====
section
/-! PROOF. The fail set row by row of Table 7-3 (R125 to R133), the verdict and its primary reason (R126); O39, O40. -/

namespace Sys2Proof.Machine

section
variable {c : CheckCfg} {r : TravelRecord} {i : Inputs} {f : ProfileFigures} {m : Manifest} {g : Nat}

/-! ## Table 7-3, row by row -/

/-- The rows that a resolution decides by itself (R125). -/
theorem failSet_resolutions (c : CheckCfg) (r : TravelRecord) (i : Inputs) :
    (.tagUnread ∈ failSet c r i ↔ i.tag = .unread) ∧ (.noManifest ∈ failSet c r i ↔ i.manifest = .notFound) ∧
    (.profileFault ∈ failSet c r i ↔ i.profile = .profileFault) ∧
    (.scaleFault ∈ failSet c r i ↔ i.mass = .scaleFault) ∧ (.unstable ∈ failSet c r i ↔ i.mass = .unstable) := by
  simp only [mem_failSet]
  cases hp : i.profile <;> cases hm : i.mass <;> simp [reasonHolds, profileReason, massReason, hp, hm]

/-- A FOUND manifest whose expected mass is above the capacity is invalid (R127). -/
theorem manifestInvalid_mem : .manifestInvalid ∈ failSet c r i ↔
    manifestIsFound i.manifest = true ∧ c.capacity < expectedMass r := by
  rw [mem_failSet]
  cases hp : i.profile <;> cases hm : i.mass <;> simp [reasonHolds, profileReason, massReason, hp, hm]

/-- A COMPLETE profile's rows are its own tests and the height comparison (R130 to R133). -/
theorem failSet_figures (hp : i.profile = .complete f) :
    (.heightHigh ∈ failSet c r i ↔ f.top = 39 ∨
      (manifestIsFound i.manifest = true ∧ expectedHeight c r + c.heightAllowance < f.height)) ∧
    (.heightLow ∈ failSet c r i ↔ manifestIsFound i.manifest = true ∧ f.top ≠ 39 ∧
      (f.height : Int) < (expectedHeight c r : Int) - c.heightAllowance) ∧
    (.overhang ∈ failSet c r i ↔ c.nominalLength + c.overhangAllowance < f.length ∨ f.overrun = true) ∧
    (.void ∈ failSet c r i ↔ c.voidLimit < f.gaps) := by
  simp only [mem_failSet]
  cases hm : i.mass <;> simp [reasonHolds, profileReason, massReason, hp, hm, and_assoc]

/-- Without figures there is none of their reasons (R125). -/
theorem failSet_no_figures (hp : i.profile = .profileFault) : .heightHigh ∉ failSet c r i ∧
    .heightLow ∉ failSet c r i ∧ .overhang ∉ failSet c r i ∧ .void ∉ failSet c r i := by
  simp only [mem_failSet]
  cases hm : i.mass <;> simp [reasonHolds, massReason, hp, hm]

/-- A STABLE mass is compared with a FOUND manifest's, unless that is above the capacity (R127, R129). -/
theorem failSet_masses (hm : i.mass = .stable g) :
    (.underweight ∈ failSet c r i ↔ manifestIsFound i.manifest = true ∧ expectedMass r ≤ c.capacity ∧
      deviationOf r g < -(tolerance c r : Int)) ∧
    (.overweight ∈ failSet c r i ↔ manifestIsFound i.manifest = true ∧ expectedMass r ≤ c.capacity ∧
      (tolerance c r : Int) < deviationOf r g) := by
  simp only [mem_failSet]
  cases hp : i.profile <;> simp [reasonHolds, profileReason, massReason, hp, hm]

/-- A mass that is not STABLE is compared with nothing (R125). -/
theorem failSet_no_masses (hm : i.mass = .unstable ∨ i.mass = .scaleFault) :
    .underweight ∉ failSet c r i ∧ .overweight ∉ failSet c r i := by
  simp only [mem_failSet]
  obtain hm | hm := hm <;> cases hp : i.profile <;> simp [reasonHolds, profileReason, hp, hm]

/-- Without a FOUND manifest there is no mass reason (R125). -/
theorem failSet_not_found (h : manifestIsFound i.manifest = false) : .manifestInvalid ∉ failSet c r i ∧
    .underweight ∉ failSet c r i ∧ .overweight ∉ failSet c r i := by
  refine ⟨fun hx => by simp [manifestInvalid_mem, h] at hx, ?_⟩
  cases hm : i.mass with
  | stable g => simp [failSet_masses hm, h]
  | unstable => exact failSet_no_masses (.inl hm)
  | scaleFault => exact failSet_no_masses (.inr hm)

/-! ## Heights -/

/-- EH = B + Σ L × h over the integers (R130). -/
theorem expectedHeight_cast (c : CheckCfg) (r : TravelRecord) : (expectedHeight c r : Int) =
    c.baseHeight + (r.lines.map (fun l => (l.layers : Int) * l.layerHeight)).sum := by
  simp [expectedHeight, Function.comp_def]

/-- Settles O39, by the rows of Table 7-3. -/
theorem profileReasonsFollowTheFigures : Obligations.ProfileReasonsFollowTheFigures := by
  intro c r i f found eh hfound heh
  obtain rfl : found = manifestIsFound i.manifest := by
    rw [hfound]
    cases i.manifest <;> rfl
  rw [← expectedHeight_cast] at heh
  obtain ⟨htag, hman, hprof, hscale, hunst⟩ := failSet_resolutions c r i
  refine ⟨htag, hman, hprof, hscale, hunst, failSet_not_found, fun hp => ?_, failSet_no_figures, ?_⟩
  · obtain ⟨hhigh, hlow, hover, hvoid⟩ := failSet_figures (c := c) (r := r) hp
    have hcast : expectedHeight c r + c.heightAllowance < f.height ↔ eh + c.heightAllowance < f.height := by omega
    rw [← hcast, heh]
    exact ⟨hhigh, hlow, hover, hvoid⟩
  · exact (failSet_sublist c r i).nodup (by decide)

/-! ## How many reasons there can be -/

/-- The reasons that the manifest, the mass and the profile can bring. -/
def manifestReasons : List Reason := [.noManifest, .manifestInvalid]
def massReasons : List Reason := [.scaleFault, .unstable, .underweight, .overweight]
def profileReasons : List Reason := [.profileFault, .overhang, .heightHigh, .heightLow, .void]

/-- The fail set, counted group by group. -/
theorem failSet_length (c : CheckCfg) (r : TravelRecord) (i : Inputs) : (failSet c r i).length =
    [Reason.tagUnread].countP (reasonHolds c r i) + manifestReasons.countP (reasonHolds c r i) +
      massReasons.countP (reasonHolds c r i) + profileReasons.countP (reasonHolds c r i) := by
  have hperm : reasons.Perm ([.tagUnread] ++ manifestReasons ++ massReasons ++ profileReasons) := by decide
  rw [failSet, ← List.countP_eq_length_filter, hperm.countP_eq, List.countP_append, List.countP_append,
    List.countP_append]

/-- A manifest is NOT_FOUND, or FOUND and at most invalid. -/
theorem manifestReasons_le (c : CheckCfg) (r : TravelRecord) (i : Inputs) :
    manifestReasons.countP (reasonHolds c r i) ≤ 1 := by
  obtain ⟨-, hman, -⟩ := failSet_resolutions c r i
  simp only [manifestReasons, List.countP_cons, List.countP_nil, ← mem_failSet, hman, manifestInvalid_mem]
  cases i.manifest <;> simp [manifestIsFound]
  split <;> simp

/-- A mass has one reason at most: it cannot be below −tol and above tol. -/
theorem massReasons_le (c : CheckCfg) (r : TravelRecord) (i : Inputs) : massReasons.countP (reasonHolds c r i) ≤ 1 := by
  obtain ⟨-, -, -, hscale, hunst⟩ := failSet_resolutions c r i
  simp only [massReasons, List.countP_cons, List.countP_nil, ← mem_failSet, hscale, hunst]
  cases hm : i.mass with
  | stable g =>
    obtain ⟨hunder, hover⟩ := failSet_masses (c := c) (r := r) hm
    simp only [hunder, hover]
    split <;> split <;> simp
    omega
  | unstable => simp [failSet_no_masses (.inl hm)]
  | scaleFault => simp [failSet_no_masses (.inr hm)]

/-- A profile has three reasons at most: a height is not both too high and too low. -/
theorem profileReasons_le (c : CheckCfg) (r : TravelRecord) (i : Inputs) :
    profileReasons.countP (reasonHolds c r i) ≤ 3 := by
  obtain ⟨-, -, hprof, -⟩ := failSet_resolutions c r i
  simp only [profileReasons, List.countP_cons, List.countP_nil, ← mem_failSet, hprof]
  cases hp : i.profile with
  | complete f =>
    obtain ⟨hhigh, hlow, -, -⟩ := failSet_figures (c := c) (r := r) hp
    have hone : ¬ (.heightHigh ∈ failSet c r i ∧ .heightLow ∈ failSet c r i) := by
      rw [hhigh, hlow]
      omega
    split <;> split <;> split <;> split <;> simp_all
  | profileFault => simp [failSet_no_figures hp]

/-- At most five reasons stand, the tag's or the manifest's own among them (R125). -/
theorem failSet_length_le (h : i.tag ≠ .unread ∨ i.manifest = .notApplicable) : (failSet c r i).length ≤ 5 := by
  have hmass := massReasons_le c r i
  have hprofile := profileReasons_le c r i
  have hother : [Reason.tagUnread].countP (reasonHolds c r i) + manifestReasons.countP (reasonHolds c r i) ≤ 1 := by
    obtain ⟨htag, hman, -⟩ := failSet_resolutions c r i
    obtain h | h := h
    · have hle := manifestReasons_le c r i
      have hno : [Reason.tagUnread].countP (reasonHolds c r i) = 0 := by
        simp [← mem_failSet, htag, h]
      omega
    · have hno : manifestReasons.countP (reasonHolds c r i) = 0 := by
        simp [manifestReasons, ← mem_failSet, hman, manifestInvalid_mem, h, manifestIsFound]
      have hle := List.countP_le_length (p := reasonHolds c r i) (l := [Reason.tagUnread])
      simp only [List.length_singleton] at hle
      omega
  rw [failSet_length]
  omega

/-! ## The verdict -/

/-- A fail set stands in the order of R126. -/
theorem failSet_ordered (c : CheckCfg) (r : TravelRecord) (i : Inputs) :
    (failSet c r i).Pairwise (fun x y => reasonCode x < reasonCode y) :=
  List.Pairwise.sublist (failSet_sublist c r i) (by decide)

/-- Settles O40, by the rows of Table 7-3 and the order of R126. -/
theorem massDecidesTheVerdict : Obligations.MassDecidesTheVerdict := by
  intro c r i m e tol g d x rest
  refine ⟨fun hm he htol => ?_, verdictOf_pass _, fun hfs => ?_, fun h => failSet_length_le (.inl h),
    fun _ h => failSet_length_le (.inr h)⟩
  · have hfound : manifestIsFound i.manifest = true := by rw [hm]; rfl
    obtain rfl : e = expectedMass r := he
    obtain rfl : tol = tolerance c r := htol
    obtain ⟨-, -, -, hscale, hunst⟩ := failSet_resolutions c r i
    refine ⟨by simp [manifestInvalid_mem, hfound], fun hg hd => ?_,
      fun hu => ⟨hunst.2 hu, failSet_no_masses (.inl hu)⟩, fun hs => ⟨hscale.2 hs, failSet_no_masses (.inr hs)⟩⟩
    obtain rfl : d = deviationOf r g := hd
    simpa [hfound] using failSet_masses (c := c) (r := r) hg
  · rw [hfs]
    exact ⟨rfl, (List.pairwise_cons.1 (hfs ▸ failSet_ordered c r i)).1⟩

end

end Sys2Proof.Machine
end
